-- ==== Sys2Proof/Word.lean ====
section
/-! DEFINITION. The words of the part: bytes, 16-byte digests and nonces, 32-byte keys. A byte string of fixed
length is held as a bit vector whose most significant byte is the first byte of the string. -/

namespace Sys2Proof

/-- One byte. -/
abbrev Byte := BitVec 8

/-- The 8 bytes of a cartridge's serial (section 5.3). -/
abbrev Serial := BitVec 64

/-- 16 bytes: a tag, a nonce, a PIN check value (R85, R135, R139). -/
abbrev Digest := BitVec 128

/-- 32 bytes: a job key, an encryption or tag key, a family key, the device key (R132, R107, R139). -/
abbrev Key := BitVec 256

end Sys2Proof
end

