-- ==== Sys2Proof/Syntax.lean ====
section
/-! DEFINITION. The commands of the part: one constructor of Instr for each row of spec/opcode_table.json, with the
row's operands. A request's operands are the fields of its frame as numbers, before any range test of its rule. -/

namespace Sys2Proof

/-- The three sense channels (section 3.1), in the order of R50. -/
inductive Channel | feed | exit | supply
  deriving DecidableEq, Repr, Inhabited

/-- The two paper sensors (section 3.1). -/
inductive PaperSensor | feed | exit
  deriving DecidableEq, Repr, Inhabited

/-- The six partitions of the store (R170). -/
inductive PartitionId | accounts | defects | settings | history | keys | halt
  deriving DecidableEq, Repr, Inhabited

/-- What R187 finds wrong with a host frame: step 2 (dropped without a reply), or a LINK_ERROR cause. -/
inductive LinkErrorCause | dropped | oversize | short | check
  deriving DecidableEq, Repr, Inhabited

/-- The PIN action of ACCT_SET (section 2.5): set, with the PIN's characters, or clear. -/
inductive PinAction
  | set (pin : List Byte)
  | clear
  deriving DecidableEq, Repr, Inhabited

/-- The optional fields of PRICE_SET, in the order of section 4.6. -/
structure PriceFields where
  stdMono        : Option Nat := none
  stdColour      : Option Nat := none
  largeMono      : Option Nat := none
  largeColour    : Option Nat := none
  duplexPct      : Option Nat := none
  heavyThreshold : Option Nat := none
  heavySurcharge : Option Nat := none
  scanRate       : Option Nat := none
  deriving DecidableEq, Repr, Inhabited

/-- The optional fields of METER_SET, in the order of section 4.6. -/
structure MeterFields where
  colourThreshold : Option Nat := none
  idleLoss        : Option Nat := none
  lowMarkPct      : Option Nat := none
  writebackPct    : Option Nat := none
  reauthInterval  : Option Nat := none
  deriving DecidableEq, Repr, Inhabited

/-- The optional fields of LIMITS_SET, in the order of R180. -/
structure LimitFields where
  holdLimit        : Option Nat := none
  lockoutTime      : Option Nat := none
  intakeStallLimit : Option Nat := none
  entryLimit       : Option Nat := none
  readRetries      : Option Nat := none
  weakLimit        : Option Nat := none
  deriving DecidableEq, Repr, Inhabited

/-- One unit of the intake link: the fields of the 20-byte band header (section 1.6) and the payload. -/
structure Band where
  version : Nat
  flags   : Nat
  handle  : Nat
  page    : Nat
  index   : Nat
  length  : Nat
  covK    : Nat
  covC    : Nat
  covM    : Nat
  covY    : Nat
  payload : List Byte
  deriving DecidableEq, Repr, Inhabited

/-- What a band read found. codewords gives, for each codeword in the order read, the outcomes of its first read and
of its rereads: some n with n bits corrected, or none where it was uncorrectable; a codeword not listed read clean.
stored is the stored band as read and corrected, from its first byte on (R122 to R124, log 28). -/
structure BandRead where
  codewords : List (List (Option Nat))
  stored    : List Byte
  deriving DecidableEq, Repr, Inhabited

/-- What a verify read of a whole physical block (R145): the bytes of its 256 codewords by their place among the
131,072 data bytes, and the bytes of its spare area by their place there. A byte not listed reads FFh (log 43). -/
structure VerifyRead where
  data  : List (Nat × Byte) := []
  spare : List (Nat × Byte) := []
  deriving DecidableEq, Repr, Inhabited

/-- Where a power loss or RESET falls among the store writes of its instant (R171, log 24): the latest writes, so many of
them, were not begun, and with torn the one before them was cut short. -/
structure StoreCut where
  undone : Nat := 0
  torn   : Bool := false
  deriving DecidableEq, Repr, Inhabited

/-- What the outside gives the end of a start-up step: the partitions whose content is found to disagree with
its integrity word although the last write was whole, and whether the cipher self-test goes as expected (log 23). -/
structure StepFinding where
  damaged  : List PartitionId := []
  cipherOk : Bool := true
  deriving DecidableEq, Repr, Inhabited

/-- The commands: one constructor for each row of spec/opcode_table.json. -/
inductive Instr
  -- power, reset
  | powerOn
  | resetInput (cut : StoreCut)
  -- the host link
  | transferStart
  | transferEnd (bytes : List Byte)
  | linkError (cause : LinkErrorCause) (tag kind : Byte)
  | linkOverrun
  | unknownKind (tag kind : Byte)
  -- account requests
  | acctCreate (tag : Byte) (id overdraft colour : Nat) (pin : Option (List Byte))
  | acctDelete (tag : Byte) (id : Nat)
  | acctCredit (tag : Byte) (id : Nat) (amount : Int)
  | acctSet (tag : Byte) (id : Nat) (overdraft colour standing : Option Nat) (pin : Option PinAction)
  | acctRead (tag : Byte) (id : Nat)
  | acctList (tag : Byte) (start : Nat)
  | acctUnlock (tag : Byte) (id : Nat)
  | countersClear (tag : Byte) (id : Nat)
  -- job requests
  | jobOpen (tag : Byte) (kind owner privacy media sides copies : Nat)
  | jobRelease (tag : Byte) (handle : Nat) (pin : List Byte)
  | jobCancel (tag : Byte) (handle : Nat)
  | jobPause (tag : Byte) (handle : Nat)
  | jobResume (tag : Byte) (handle : Nat)
  | jobSkipPage (tag : Byte) (handle page : Nat)
  | jobRead (tag : Byte) (handle first : Nat)
  -- sheet path requests
  | senseSet (tag : Byte) (channel code hysteresis filter polarity : Nat)
  | doorStateOpen (tag : Byte)
  | doorStateClosed (tag : Byte)
  | jamClear (tag : Byte)
  | pathRead (tag : Byte)
  -- meter requests
  | priceSet (tag : Byte) (fields : PriceFields)
  | meterSet (tag : Byte) (fields : MeterFields)
  | mediaSet (tag : Byte) (code : Nat) (area transit : Option Nat)
  -- cartridge requests
  | cartRead (tag : Byte) (selector start : Nat)
  | cartReauth (tag : Byte) (slot : Nat)
  | policySet (tag : Byte) (policy : Nat)
  | familyKeyLoad (tag : Byte) (family : Nat) (key : List Byte)
  -- spool and scrub requests
  | spoolRead (tag : Byte) (block : Option Nat)
  | blockRetire (tag : Byte) (block : Nat)
  | sanitize (tag : Byte)
  -- fault requests
  | faultRead (tag : Byte)
  | faultAck (tag : Byte) (number : Nat)
  | faultAckHaltRecord (tag : Byte)
  | sense (tag : Byte) (handle : Nat)
  -- store requests, status, restart
  | storeLock (tag : Byte) (locks : Nat)
  | storeWipe (tag : Byte)
  | storeRead (tag : Byte)
  | limitsSet (tag : Byte) (fields : LimitFields)
  | status (tag : Byte)
  | restart (tag : Byte)
  | restartWipe (tag : Byte)
  -- sense inputs, deadlines, the engine
  | rawLevelChange (channel : Channel) (input : Nat)
  | feedLeadingEdge
  | exitLeadingEdge
  | trailingEdge (sensor : PaperSensor)
  | supplyEdge
  | entryLate
  | exitLate
  | sheetRequest
  -- intake and expiries
  | intakeBand (band : Band)
  | intakeStallExpiry
  | holdExpiry (handle : Nat)
  | lockoutExpiry (id : Nat)
  -- media port and EXPORT channel
  | readComplete (read : BandRead)
  | exportBandSent
  | programComplete (ok : Bool)
  | eraseComplete (ok : Bool)
  | verifyComplete (read : VerifyRead)
  -- cartridge bus
  | probeComplete (acknowledged : Bool)
  | readRecordComplete (record : List Byte)
  | challengeComplete (reply : Digest)
  | decrementComplete (level : BitVec 32) (reply : Digest)
  | resyncComplete
  | busTransactionFail
  | clockStretchLimit
  -- start-up and power loss
  | startUpStepEnd (finding : StepFinding)
  | powerLoss (cut : StoreCut)
  deriving DecidableEq, Repr, Inhabited

end Sys2Proof
end

