-- ==== Sys2Proof/Decode.lean ====
section
/-! DEFINITION. Reading a command from the bits of its table row. spec/opcode_table.json gives no row any bits
("fields" is empty in every row), so no word spells a command. The frames of the host link, which do spell
requests, are read in Machine/Frame.lean. -/

namespace Sys2Proof

/-- The command that nbits bits w of a table row spell: none, since the table gives no row bits. -/
def decodeTableWord (_nbits _w : Nat) : Option Instr := none

end Sys2Proof
end

