-- ==== Sys2Proof/Machine/Bytes.lean ====
section
/-! DEFINITION. Byte order: byte strings of bit vectors and numbers in little-endian bytes. -/

namespace Sys2Proof.Machine

/-- The n bytes of a bit vector, the most significant first. -/
def bytesOf {w : Nat} : Nat → BitVec w → List Byte
  | 0, _ => []
  | n + 1, v => (v.extractLsb' (8 * n) 8) :: bytesOf n v

/-- n little-endian bytes of a number (section 1.6, section 5.3, section 11.2). -/
def leBytes : Nat → Nat → List Byte
  | 0, _ => []
  | n + 1, v => BitVec.ofNat 8 v :: leBytes n (v / 256)

/-- The number that little-endian bytes spell. -/
def leValue : List Byte → Nat
  | [] => 0
  | b :: rest => b.toNat + 256 * leValue rest

/-- The number that bytes spell, the most significant first. -/
def beValue (bytes : List Byte) : Nat := bytes.foldl (fun n b => n * 256 + b.toNat) 0

/-- The bytes from position i on, n of them. -/
def slice (bytes : List Byte) (i n : Nat) : List Byte := (bytes.drop i).take n

end Sys2Proof.Machine
end

