-- ==== Sys2Proof/Machine/Flags.lean ====
section
/-! DEFINITION. The check computations of the part: the frame check of the host link, the integrity word of a
partition, the check word of a cartridge record. -/

namespace Sys2Proof.Machine

/-- One bit of the frame check: generator 1021h, most significant bit first (section 11.2). -/
def crc16Shift (crc : BitVec 16) : BitVec 16 :=
  if crc.msb then (crc <<< 1) ^^^ 0x1021#16 else crc <<< 1

/-- One byte taken into the frame check. -/
def crc16Byte (crc : BitVec 16) (b : Byte) : BitVec 16 :=
  (crc16Shift ∘ crc16Shift ∘ crc16Shift ∘ crc16Shift ∘ crc16Shift ∘ crc16Shift ∘ crc16Shift ∘ crc16Shift)
    (crc ^^^ (b.zeroExtend 16 <<< 8))

/-- The frame check: CRC-16 with generator 1021h and initial value FFFFh, no bit reflection, no final complement
(section 11.2). -/
def frameCheck (bytes : List Byte) : BitVec 16 := bytes.foldl crc16Byte 0xFFFF#16

/-- One bit of the integrity word, bit-reflected: the reflected generator 04C11DB7h is EDB88320h (R171). -/
def crc32Shift (crc : BitVec 32) : BitVec 32 :=
  if crc.getLsbD 0 then (crc >>> 1) ^^^ 0xEDB88320#32 else crc >>> 1

/-- One byte taken into the integrity word. -/
def crc32Byte (crc : BitVec 32) (b : Byte) : BitVec 32 :=
  (crc32Shift ∘ crc32Shift ∘ crc32Shift ∘ crc32Shift ∘ crc32Shift ∘ crc32Shift ∘ crc32Shift ∘ crc32Shift)
    (crc ^^^ b.zeroExtend 32)

/-- R171: the integrity word of a partition's content bytes. -/
def integrityWord (bytes : List Byte) : BitVec 32 := ~~~ bytes.foldl crc32Byte 0xFFFFFFFF#32

/-- R88: word i of a cartridge record through its mask. -/
def maskedWord (record : List Byte) (i : Nat) : Nat :=
  let w := (record.getD (2 * i) 0).toNat + 256 * (record.getD (2 * i + 1) 0).toNat
  if i ≤ 6 then w else if i = 7 then w % 256 else 0

/-- R88: the check word the part forms of a cartridge record, carries past 16 bits discarded. -/
def checkWord (record : List Byte) : Nat := ((List.range 10).map (maskedWord record)).sum % 65536

end Sys2Proof.Machine
end

