-- ==== Sys2Proof/Machine/Digest.lean ====
section
/-! DEFINITION. HMAC-SHA-256, "the public keyed digest function of that name" (R92). The spec names the function and
does not restate it: SHA-256 is FIPS 180-4 and HMAC is RFC 2104. PRESUMED (log 8). -/

namespace Sys2Proof.Machine

/-- The eight chaining words of SHA-256. -/
structure ShaState where
  a : BitVec 32
  b : BitVec 32
  c : BitVec 32
  d : BitVec 32
  e : BitVec 32
  f : BitVec 32
  g : BitVec 32
  h : BitVec 32
  deriving DecidableEq, Repr, Inhabited

/-- The initial chaining words. -/
def shaInitial : ShaState :=
  { a := 0x6a09e667#32, b := 0xbb67ae85#32, c := 0x3c6ef372#32, d := 0xa54ff53a#32,
    e := 0x510e527f#32, f := 0x9b05688c#32, g := 0x1f83d9ab#32, h := 0x5be0cd19#32 }

/-- The round constants. -/
def shaConstants : List (BitVec 32) :=
  [0x428a2f98#32, 0x71374491#32, 0xb5c0fbcf#32, 0xe9b5dba5#32, 0x3956c25b#32, 0x59f111f1#32, 0x923f82a4#32, 0xab1c5ed5#32,
   0xd807aa98#32, 0x12835b01#32, 0x243185be#32, 0x550c7dc3#32, 0x72be5d74#32, 0x80deb1fe#32, 0x9bdc06a7#32, 0xc19bf174#32,
   0xe49b69c1#32, 0xefbe4786#32, 0x0fc19dc6#32, 0x240ca1cc#32, 0x2de92c6f#32, 0x4a7484aa#32, 0x5cb0a9dc#32, 0x76f988da#32,
   0x983e5152#32, 0xa831c66d#32, 0xb00327c8#32, 0xbf597fc7#32, 0xc6e00bf3#32, 0xd5a79147#32, 0x06ca6351#32, 0x14292967#32] ++
  [0x27b70a85#32, 0x2e1b2138#32, 0x4d2c6dfc#32, 0x53380d13#32, 0x650a7354#32, 0x766a0abb#32, 0x81c2c92e#32, 0x92722c85#32,
   0xa2bfe8a1#32, 0xa81a664b#32, 0xc24b8b70#32, 0xc76c51a3#32, 0xd192e819#32, 0xd6990624#32, 0xf40e3585#32, 0x106aa070#32,
   0x19a4c116#32, 0x1e376c08#32, 0x2748774c#32, 0x34b0bcb5#32, 0x391c0cb3#32, 0x4ed8aa4a#32, 0x5b9cca4f#32, 0x682e6ff3#32,
   0x748f82ee#32, 0x78a5636f#32, 0x84c87814#32, 0x8cc70208#32, 0x90befffa#32, 0xa4506ceb#32, 0xbef9a3f7#32, 0xc67178f2#32]

/-- The next word of the message schedule from the words so far, newest first. -/
def shaNextWord (ws : List (BitVec 32)) : BitVec 32 :=
  let w15 := ws.getD 14 0
  let w2 := ws.getD 1 0
  let s0 := w15.rotateRight 7 ^^^ w15.rotateRight 18 ^^^ (w15 >>> 3)
  let s1 := w2.rotateRight 17 ^^^ w2.rotateRight 19 ^^^ (w2 >>> 10)
  ws.getD 15 0 + s0 + ws.getD 6 0 + s1

/-- The message schedule extended by n words, newest first. -/
def shaExtend : Nat → List (BitVec 32) → List (BitVec 32)
  | 0, ws => ws
  | n + 1, ws => shaExtend n (shaNextWord ws :: ws)

/-- One round with its constant and schedule word. -/
def shaRound (s : ShaState) (kw : BitVec 32 × BitVec 32) : ShaState :=
  let s1 := s.e.rotateRight 6 ^^^ s.e.rotateRight 11 ^^^ s.e.rotateRight 25
  let ch := (s.e &&& s.f) ^^^ (~~~s.e &&& s.g)
  let t1 := s.h + s1 + ch + kw.1 + kw.2
  let s0 := s.a.rotateRight 2 ^^^ s.a.rotateRight 13 ^^^ s.a.rotateRight 22
  let maj := (s.a &&& s.b) ^^^ (s.a &&& s.c) ^^^ (s.b &&& s.c)
  { a := t1 + (s0 + maj), b := s.a, c := s.b, d := s.c, e := s.d + t1, f := s.e, g := s.f, h := s.g }

/-- One block of 16 words taken into the chaining words. -/
def shaBlock (s : ShaState) (words : List (BitVec 32)) : ShaState :=
  let schedule := (shaExtend 48 words.reverse).reverse
  let t := (shaConstants.zip schedule).foldl shaRound s
  { a := s.a + t.a, b := s.b + t.b, c := s.c + t.c, d := s.d + t.d,
    e := s.e + t.e, f := s.f + t.f, g := s.g + t.g, h := s.h + t.h }

/-- The padded message: 80h, zeros, and the bit length in 8 bytes, to a multiple of 64 bytes. -/
def shaPad (msg : List Byte) : List Byte :=
  let zeros := (119 - msg.length % 64) % 64
  msg ++ 0x80#8 :: List.replicate zeros 0#8 ++ bytesOf 8 (BitVec.ofNat 64 (8 * msg.length))

/-- The 32-bit words of a byte string, most significant byte first. -/
def shaWords : List Byte → List (BitVec 32)
  | b0 :: b1 :: b2 :: b3 :: rest => (b0 ++ b1 ++ b2 ++ b3 : BitVec 32) :: shaWords rest
  | _ => []

/-- The blocks of 16 words, n of them, taken in turn. -/
def shaBlocks : Nat → ShaState → List (BitVec 32) → ShaState
  | 0, s, _ => s
  | n + 1, s, ws => shaBlocks n (shaBlock s (ws.take 16)) (ws.drop 16)

/-- SHA-256 of a byte string. -/
def sha256 (msg : List Byte) : Key :=
  let padded := shaPad msg
  let s := shaBlocks (padded.length / 64) shaInitial (shaWords padded)
  s.a ++ s.b ++ s.c ++ s.d ++ s.e ++ s.f ++ s.g ++ s.h

/-- HMAC-SHA-256 under a 32-byte key: the key is padded with zeros to the block size of 64 bytes. -/
def hmacSha256 (key : Key) (msg : List Byte) : Key :=
  let block := bytesOf 32 key ++ List.replicate 32 0#8
  let inner := sha256 (block.map (· ^^^ 0x36#8) ++ msg)
  sha256 (block.map (· ^^^ 0x5c#8) ++ bytesOf 32 inner)

/-- The first 16 bytes of HMAC-SHA-256 (R92, R101, R135, R139). -/
def hmac16 (key : Key) (msg : List Byte) : Digest := (hmacSha256 key msg).extractLsb' 128 128

/-- R132: the encryption key of a job key. -/
def deriveEncKey (jobKey : Key) : Key := hmacSha256 jobKey [0x01#8]

/-- R132: the tag key of a job key. -/
def deriveTagKey (jobKey : Key) : Key := hmacSha256 jobKey [0x02#8]

/-- R92 step 3: the cartridge key of a serial under its family key. -/
def cartridgeKey (familyKey : Key) (serial : Serial) : Key := hmacSha256 familyKey (bytesOf 8 serial)

/-- R92 step 3 and R101: the tag a cartridge of this key returns for a nonce and the four level bytes of the record or
reply, in the order received. -/
def cartridgeTag (key : Key) (nonce : Digest) (serial : Serial) (level : List Byte) : Digest :=
  hmac16 key (bytesOf 16 nonce ++ bytesOf 8 serial ++ level)

/-- R139: the check value of a PIN under the device key. -/
def pinCheckValue (deviceKey : Key) (pin : List Byte) : Digest := hmac16 deviceKey (0x50#8 :: pin)

/-- R135: the band tag of a ciphertext at a page and index of the job. -/
def bandTag (tagKey : Key) (page index : Nat) (cipher : List Byte) : Digest :=
  hmac16 tagKey (leBytes 2 page ++ leBytes 2 index ++ leBytes 4 cipher.length ++ cipher)

end Sys2Proof.Machine
end

