-- ==== Sys2Proof/Config.lean ====
section
/-! DEFINITION. What an implementation fixes: the sizes the spec states, and the values the spec leaves open, which
are constants without a body (no proof can see what they are). -/

namespace Sys2Proof

/-- What the physical noise source delivers to one draw: the raw samples it takes and the 32 conditioned bytes
that come out (R140). A draw of 16 bytes takes the first 16. -/
structure Noise where
  samples : List Byte
  output  : Key
  deriving DecidableEq, Repr, Inhabited

/-- R134: what the tweak of a cipher block is formed from: the band's page number and band index, and the number of the
block within the band. -/
structure Tweak where
  page  : Nat
  index : Nat
  block : Nat
  deriving DecidableEq, Repr, Inhabited

namespace Config

/-- Job slots (section 1.1). -/
def jobSlots : Nat := 64
/-- Page entries of the shared pool (section 1.1). -/
def pagePool : Nat := 8192
/-- Extent entries of the shared pool (section 1.1). -/
def extentPool : Nat := 4096
/-- Account records at most (R29). -/
def maxAccounts : Nat := 2048
/-- Logical blocks (R110). -/
def logicalBlocks : Nat := 30720
/-- Spare physical blocks (R110). -/
def spareBlocks : Nat := 2048
/-- Data bytes of one block (section 6.1). -/
def blockBytes : Nat := 131072
/-- Data bytes of one codeword (section 6.1). -/
def codewordBytes : Nat := 512
/-- Codewords of one block (section 6.1). -/
def blockCodewords : Nat := 256
/-- Entries of one block's band map (R110). -/
def bandMapEntries : Nat := 64
/-- Raw samples of the start-up random source test: four windows of 1024 (R141). -/
def testSamples : Nat := 4096
/-- History entries (section 5.6). -/
def historyEntries : Nat := 32
/-- The sizes in KiB of ACCOUNTS, DEFECTS, SETTINGS, HISTORY, KEYS and HALT (R170). -/
def partitionSizes : List Nat := [192, 32, 16, 8, 4, 4]
/-- The top of the counters that saturate (R9, R44, R98). -/
def counterMax : Nat := 4294967295
/-- The bounds of a balance (section 2.1). -/
def balanceMax : Int := 2000000000
/-- The greatest overdraft limit (section 2.1). -/
def overdraftMax : Nat := 1000000

/-- R134: the tweakable block cipher on one cipher block under an encryption key and a tweak. The block has n bytes: 16, or
fewer where a band shorter than 16 bytes is a partial cipher block alone, which the mode completes from the tweak. The spec
names no cipher and says that behaviour depends only on its inversion: an uninterpreted permutation of the strings of n
bytes for each key and tweak. DESIGN CHOICE (log 6), safe. -/
opaque blockCipher (key : Key) (tweak : Tweak) (n : Nat) : Equiv.Perm (Vector Byte n)

/-- What the noise source delivers to the k-th draw that State.noise does not cover. Free value (log 7), safe. -/
opaque freeNoise (k : Nat) : Noise

/-- The i-th raw sample of the start-up test begun after k draws, where what the source delivered holds fewer than the
4096 samples that R141 takes. Free value (log 7), safe. -/
opaque freeSample (k i : Nat) : Byte

/-- The 8 coverage bytes in the header of an outgoing band that is not the last of its page, by the instant, the handle,
the page and the band index: section 1.6 has them read only under LAST_BAND. Free value (log 30), safe. -/
opaque freeCoverage (instant handle page index : Nat) : Vector Byte 8

/-- A byte of a band read whose value READ_COMPLETE does not give, by the instant and the byte's place in the band. Free
value (log 28), safe. -/
opaque freeRead (instant place : Nat) : Byte

end Config
end Sys2Proof
end

