-- ==== Sys2Proof/Machine/State.lean ====
section
/-! DEFINITION. The state of the part, block by block as section 2.2 of 00_scope.md lists the blocks, the frames
it sends, and the state right after power-on. Plain data throughout. -/

namespace Sys2Proof.Machine

/-! ### Link status codes and accounts -/

/-- The status codes in the order of the table of R189. -/
inductive Status
  | ok | accepted | badLength | unknownKind | badField | noAccount | noJob | wrongState | busy | full | locked
  | pinWrong | lockedOut | noPin | insufficient | noColourRight | sensorBusy | powerLow | halted | starting
  deriving DecidableEq, Repr, Inhabited

/-- The standing of an account; the lockout end, in whole seconds, is present only in LOCKED_OUT (section 2.1). -/
inductive Standing | active | suspended | lockedOut (ends : Nat)
  deriving DecidableEq, Repr, Inhabited

/-- The six lifetime counters (section 2.1). -/
structure Counters where
  monoSides   : Nat := 0
  colourSides : Nat := 0
  sheets      : Nat := 0
  scanSides   : Nat := 0
  nonGenuine  : Nat := 0
  shortfall   : Nat := 0
  deriving DecidableEq, Repr, Inhabited

/-- One account record (section 2.1). -/
structure Account where
  id          : Nat
  standing    : Standing := .active
  balance     : Int := 0
  overdraft   : Nat := 0
  reserved    : Nat := 0
  colourRight : Bool := false
  pinCheck    : Option Digest := none
  pinFailures : Nat := 0
  counters    : Counters := {}
  deriving DecidableEq, Repr, Inhabited

/-! ### Planes and sides -/

/-- One number for each plane or cartridge slot K, C, M, Y. -/
structure Planes where
  k : Nat := 0
  c : Nat := 0
  m : Nat := 0
  y : Nat := 0
  deriving DecidableEq, Repr, Inhabited

/-- The class of a page side (R72). -/
inductive SideClass | mono | colour
  deriving DecidableEq, Repr, Inhabited

/-- One side of a sheet: a page number with its class, or blank (sections 3.3 and 3.4). -/
inductive Side | blank | page (number : Nat) (cls : SideClass)
  deriving DecidableEq, Repr, Inhabited

/-! ### Faults (FM) -/

/-- The JOB-class codes (R156). -/
inductive JobFaultCode | imageUnreadable | imageTampered | intakeFormat | spoolFull | pagePool | mediaWrite
  deriving DecidableEq, Repr, Inhabited

/-- Why a block was retired (R112). -/
inductive RetireCause | program | scrub | weak | host
  deriving DecidableEq, Repr, Inhabited

/-- The reason of a SUSPECT slot (section 5.4). -/
inductive SuspectReason | checksum | levelRise
  deriving DecidableEq, Repr, Inhabited

/-- The reason of a REJECTED slot (section 5.4). -/
inductive RejectReason | wrongColour | unknownFamily | tag
  deriving DecidableEq, Repr, Inhabited

/-- Which cipher test failed (R156). -/
inductive CipherTest | startUp | readBack
  deriving DecidableEq, Repr, Inhabited

/-- The health tests of the random source (R140). -/
inductive HealthTest | repetition | proportion | output
  deriving DecidableEq, Repr, Inhabited

/-- What a draw is for (section 7.6), or the start-up test. -/
inductive DrawPurpose | startUpTest | jobKey | nonce | deviceKey
  deriving DecidableEq, Repr, Inhabited

/-- A HALT-class condition with its detail (R156). -/
inductive HaltCause
  | storeCheck (partition : PartitionId)
  | cipherSelftest (which : CipherTest)
  | randomSource (test : HealthTest) (purpose : DrawPurpose)
  deriving DecidableEq, Repr, Inhabited

/-- The part states (R155). -/
inductive PartState | starting | running | halted
  deriving DecidableEq, Repr, Inhabited

/-- The halt record (section 9.8). -/
structure HaltRecord where
  cause      : HaltCause
  phase      : PartState
  instant    : Nat
  jobsClosed : Nat
  halts      : Nat
  deriving DecidableEq, Repr, Inhabited

/-- A NOTE-class condition with what it carries (R156). -/
inductive Note
  | eccWeak (block corrected : Nat)
  | blockRetired (block : Nat) (cause : RetireCause)
  | sparesLow (unused : Nat)
  | cartSuspect (slot : Fin 4) (serial : Option Serial) (reason : SuspectReason)
  | cartRejected (slot : Fin 4) (serial : Option Serial) (reason : RejectReason)
  | strayBand (handle : Nat)
  | scanShortfall (owner handle page amount : Nat)
  | settingsRestored
  | historyCleared
  | previousHalt (halt : HaltRecord)
  deriving DecidableEq, Repr, Inhabited

/-- A JOB-class condition: handle, page, logical block and the address-valid flag (R157). -/
structure JobFault where
  code      : JobFaultCode
  handle    : Nat
  page      : Nat
  block     : Nat
  addrValid : Bool
  deriving DecidableEq, Repr, Inhabited

/-- A record of a JOB condition (R157). -/
structure JobRecord where
  number  : Nat
  instant : Nat
  fault   : JobFault
  deriving DecidableEq, Repr, Inhabited

/-- A record of a NOTE condition (R157). -/
structure NoteRecord where
  number  : Nat
  instant : Nat
  note    : Note
  deriving DecidableEq, Repr, Inhabited

/-- A record of the fault queue with the place it occupies (section 9.4). -/
structure QueuedFault where
  place  : Nat
  record : JobRecord
  deriving DecidableEq, Repr, Inhabited

/-- The tally and the latest record of one NOTE code (R161). -/
structure NoteTally where
  tally  : Nat := 0
  latest : Option NoteRecord := none
  deriving DecidableEq, Repr, Inhabited

/-- FM: the Fault Monitor (section 9). -/
structure FaultMonitor where
  part       : PartState := .starting
  queue      : List QueuedFault := []
  overflow   : Nat := 0
  backlog    : Bool := false
  notes      : Vector NoteTally 10 := Vector.replicate 10 {}
  nextNumber : Nat := 1
  haltRecord : Option HaltRecord := none
  deriving DecidableEq, Repr

/-! ### Jobs (JT) -/

/-- The kinds of job (section 1.1). -/
inductive JobKind | copy | print | scanOut
  deriving DecidableEq, Repr, Inhabited

/-- Where a job's pages go (section 1.1). -/
inductive Destination | engine | exporter
  deriving DecidableEq, Repr, Inhabited

/-- Why a job is stalled; the jam rank is present only with JAM (section 1.1). -/
inductive StallCause | credit | supply | jam (rank : Nat) | image | paused | account
  deriving DecidableEq, Repr, Inhabited

/-- Why a job drains (section 1.1). -/
inductive DrainReason | ends | cancel
  deriving DecidableEq, Repr, Inhabited

/-- The abort reasons (section 1.1). -/
inductive AbortReason | intakeFormat | pagePool | spoolFull | mediaWrite | noColourRight | halt
  deriving DecidableEq, Repr, Inhabited

/-- The outcome of a closed job (section 1.1). -/
inductive JobOutcome | completed | cancelled | expired | aborted (reason : AbortReason)
  deriving DecidableEq, Repr, Inhabited

/-- The state of a job with what is present only in it; FREE is the absence of a job (section 1.1). A stall carries
its time in ms and its place in the order in which stalls were taken (R11). -/
inductive JobState
  | intake
  | held (deadline : Nat)
  | queued
  | active
  | stalled (cause : StallCause) (time order : Nat)
  | draining (reason : DrainReason)
  | scrub (outcome : JobOutcome)
  deriving DecidableEq, Repr, Inhabited

/-- One page entry; the page number is the entry's place, counted from 1 (section 1.1). -/
structure PageEntry where
  bands    : Nat := 0
  bytes    : Nat := 0
  coverage : Planes := {}
  cls      : Option SideClass := none
  extent   : Nat
  offset   : Nat
  skipped  : Bool := false
  marked   : Bool := false
  deriving DecidableEq, Repr, Inhabited

/-- One extent entry (section 1.1). -/
structure Extent where
  first : Nat
  count : Nat
  deriving DecidableEq, Repr, Inhabited

/-- The job record (section 1.1). expected holds expected page and band, present only in INTAKE. -/
structure Job where
  handle    : Nat
  kind      : JobKind
  owner     : Nat
  priv      : Bool
  media     : Nat
  duplex    : Bool
  copies    : Nat
  state     : JobState := .intake
  expected  : Option (Nat × Nat) := some (1, 1)
  pages     : List PageEntry := []
  extents   : List Extent := []
  nextSheet : Nat := 0
  delivered : Nat := 0
  inFlight  : Nat := 0
  charged   : Nat := 0
  lastFault : Option JobRecord := none
  deriving DecidableEq, Repr, Inhabited

/-- One job slot: its generation, and its job where it is not FREE (section 1.1). -/
structure JobSlot where
  generation : Nat := 0
  job        : Option Job := none
  deriving DecidableEq, Repr, Inhabited

/-- A destination: its queue of handles and its ACTIVE job (section 1.3). -/
structure Queue where
  waiting : List Nat := []
  active  : Option Nat := none
  deriving DecidableEq, Repr, Inhabited

/-- A band that goes out on the ENGINE or EXPORT channel: its 20-byte header (section 1.6) and its bytes. -/
structure OutBand where
  header : List Byte
  data   : List Byte
  deriving DecidableEq, Repr, Inhabited

/-- The band going out on the EXPORT channel: its place, the flags and coverage of its header, the header's 20 bytes, the
band's bytes, and a pause or cancel that waits for its end (R27, R28). -/
structure ExportBand where
  page      : Nat
  index     : Nat
  lastBand  : Bool
  lastPage  : Bool
  coverage  : Option Planes
  header    : List Byte
  data      : List Byte
  pausing   : Bool := false
  cancelling : Bool := false
  deriving DecidableEq, Repr, Inhabited

/-- What the EXPORT channel does: nothing, waits for the read of a band, or sends one (R27). -/
inductive ExportPhase
  | idle
  | reading (page index : Nat)
  | sending (band : ExportBand)
  deriving DecidableEq, Repr, Inhabited

/-- What a band held at the link waits for: room (R25), or the image buffer (R117). -/
inductive HoldReason | room | image
  deriving DecidableEq, Repr, Inhabited

/-- The band held at the link. -/
structure HeldBand where
  band   : Band
  reason : HoldReason
  deriving DecidableEq, Repr, Inhabited

/-- JT: the Job Table. The page and extent pools are the entries no job's lists hold. closedNow is the model's own: the handles
of the jobs closed so far in the event that runs, whose JOB_STATE notices take their final content (R4, log 70). -/
structure JobTable where
  slots       : Vector JobSlot 64 := Vector.replicate 64 {}
  engine      : Queue := {}
  exporter    : Queue := {}
  exportPhase : ExportPhase := .idle
  held        : Option HeldBand := none
  stallTimer  : Option Nat := none
  waiting     : List Band := []
  stallSeq    : Nat := 0
  closedNow   : List Nat := []
  deriving DecidableEq, Repr

/-! ### Settings -/

/-- The price group (section 4.6). -/
structure PriceSettings where
  stdMono        : Nat := 2
  stdColour      : Nat := 8
  largeMono      : Nat := 4
  largeColour    : Nat := 16
  duplexPct      : Nat := 75
  heavyThreshold : Nat := 20000
  heavySurcharge : Nat := 2
  scanRate       : Nat := 1
  deriving DecidableEq, Repr, Inhabited

/-- The meter group (section 4.6). -/
structure MeterSettings where
  colourThreshold : Nat := 5
  idleLoss        : Nat := 6
  lowMarkPct      : Nat := 10
  writebackPct    : Nat := 1
  reauthInterval  : Nat := 2000
  deriving DecidableEq, Repr, Inhabited

/-- One media table entry; the class follows from the area (R70). -/
structure MediaEntry where
  area    : Nat := 624
  transit : Nat := 3000
  deriving DecidableEq, Repr, Inhabited

/-- The default media table (R70). -/
def defaultMedia : List MediaEntry :=
  [⟨624, 3000⟩, ⟨603, 3000⟩, ⟨1248, 4500⟩, ⟨1206, 4500⟩, ⟨311, 2500⟩, ⟨768, 3500⟩,
   ⟨624, 3000⟩, ⟨624, 3000⟩, ⟨624, 3000⟩, ⟨624, 3000⟩, ⟨624, 3000⟩, ⟨624, 3000⟩, ⟨624, 3000⟩, ⟨624, 3000⟩,
   ⟨624, 3000⟩, ⟨624, 3000⟩]

/-- The filter widths of R48. -/
inductive FilterWidth | off | half | one | two
  deriving DecidableEq, Repr, Inhabited

/-- The settings of one sense channel (R48). highWhenAbove is present-when-above, or good-when-above for SUPPLY. -/
structure ChannelSettings where
  code          : Nat := 127
  hysteresis    : Bool := true
  filter        : FilterWidth := .one
  highWhenAbove : Bool := true
  deriving DecidableEq, Repr, Inhabited

/-- The six settings of LIMITS_SET (R180). -/
structure LimitSettings where
  holdLimit        : Nat := 240
  lockoutTime      : Nat := 15
  intakeStallLimit : Nat := 30
  entryLimit       : Nat := 2000
  readRetries      : Nat := 2
  weakLimit        : Nat := 6
  deriving DecidableEq, Repr, Inhabited

/-- Every setting with its default (R179). allow is the non-genuine policy ALLOW. -/
structure Settings where
  price  : PriceSettings := {}
  meter  : MeterSettings := {}
  media  : List MediaEntry := defaultMedia
  allow  : Bool := false
  feed   : ChannelSettings := {}
  exit   : ChannelSettings := {}
  supply : ChannelSettings := { code := 186, filter := .two }
  limits : LimitSettings := {}
  deriving DecidableEq, Repr, Inhabited

/-! ### Sheet path (SPM) -/

/-- One sense channel: the input voltage in 1/256 mV, the comparator result (true for above) and the filtered level
(true for present, or good), both absent before start-up step 1, and the instant, in half milliseconds, since which
the raw level has differed from the filtered level (R48, R49). -/
structure SenseChannel where
  input  : Nat := 0
  above  : Option Bool := none
  level  : Option Bool := none
  since  : Option Nat := none
  deriving DecidableEq, Repr, Inhabited

/-- The jam causes (section 3.6). -/
inductive JamCause | sequence | strayExit | strayEntry | entryLate | exitLate | door
  deriving DecidableEq, Repr, Inhabited

/-- The record of the last jam (R65). -/
structure JamRecord where
  cause   : JamCause
  instant : Nat
  removed : Nat
  handles : List Nat
  deriving DecidableEq, Repr, Inhabited

/-- The figures MU gives a staged sheet (R79). -/
structure Figures where
  demand  : Planes
  cost    : Nat
  transit : Nat
  deriving DecidableEq, Repr, Inhabited

/-- The state of a staging entry: READING with the side and band being read, READY, or FAILED (section 3.3). -/
inductive StageState
  | reading (side band : Nat)
  | ready (figures : Figures)
  | failed (page block : Nat)
  deriving DecidableEq, Repr, Inhabited

/-- One staging entry (section 3.3); image holds the bands read so far of each side. -/
structure StagingEntry where
  handle : Nat
  index  : Nat
  sides  : List Side
  image  : List (List (List Byte))
  state  : StageState
  deriving DecidableEq, Repr, Inhabited

/-- One sheet record (section 3.4). entered is the stage ENTERED; the deadline is in ms. -/
structure Sheet where
  handle     : Nat
  owner      : Nat
  index      : Nat
  sides      : List Side
  cost       : Nat
  demand     : Planes
  transit    : Nat
  nonGenuine : Bool
  entered    : Bool
  deadline   : Nat
  deriving DecidableEq, Repr, Inhabited

/-- What a grant hands to the ENGINE channel (R60): the sheet, and for each side its bands under their headers. -/
structure EngineSheet where
  handle : Nat
  index  : Nat
  sides  : List Side
  image  : List (List OutBand)
  deriving DecidableEq, Repr, Inhabited

/-- SPM: the Sheet Path Monitor (chapter 3). -/
structure SheetPath where
  feed           : SenseChannel := {}
  exit           : SenseChannel := {}
  supply         : SenseChannel := {}
  jammed         : Bool := false
  jam            : Option JamRecord := none
  doorOpen       : Bool := false
  feedPermit     : Bool := false
  requestPending : Bool := false
  staging        : List StagingEntry := []
  sheets         : List Sheet := []
  engineOut      : Option EngineSheet := none
  deriving DecidableEq, Repr, Inhabited

/-! ### Cartridges (CBC) -/

/-- The verification of a slot with its reason (section 5.4). -/
inductive Verification
  | empty | unverified | genuine
  | suspect (reason : SuspectReason)
  | rejected (reason : RejectReason)
  | commFail
  deriving DecidableEq, Repr, Inhabited

/-- The level class (R90). -/
inductive LevelClass | ok | low | exhausted
  deriving DecidableEq, Repr, Inhabited

/-- Density and full level, present together (section 5.4). -/
structure CartFigures where
  density : Nat
  full    : Nat
  deriving DecidableEq, Repr, Inhabited

/-- Mirror, pending deduction and level class, present only in GENUINE and SUSPECT (section 5.4). -/
structure CartLevel where
  mirror  : Nat
  pending : Nat
  cls     : LevelClass
  deriving DecidableEq, Repr, Inhabited

/-- One slot record (section 5.4). -/
structure CartSlot where
  verification : Verification := .unverified
  serial       : Option Serial := none
  family       : Option Nat := none
  figures      : Option CartFigures := none
  level        : Option CartLevel := none
  sheetsSince  : Nat := 0
  failures     : Nat := 0
  drawing      : List Nat := []
  deriving DecidableEq, Repr, Inhabited

/-- An item of the bus work list (section 5.2). -/
inductive WorkItem | auth (slot : Fin 4) | writeBack (slot : Fin 4) | resync
  deriving DecidableEq, Repr, Inhabited

/-- The item in flight and the transaction it is in (R85, R86): what a CHALLENGE or DECREMENT sent, the cartridge
key the reply is checked under, and the record a CHALLENGE follows. -/
inductive Flight
  | resync
  | probe (slot : Fin 4)
  | readRecord (slot : Fin 4)
  | challenge (slot : Fin 4) (record : List Byte) (key : Key) (nonce : Digest)
  | decrement (slot : Fin 4) (amount : Nat) (key : Option Key) (nonce : Digest)
  deriving DecidableEq, Repr, Inhabited

/-- One history entry (section 5.6). -/
structure HistoryEntry where
  serial   : Serial
  family   : Nat
  colour   : Nat
  level    : Nat
  pending  : Nat
  lastSeen : Nat
  suspect  : Bool
  deriving DecidableEq, Repr, Inhabited

/-- CBC: the Cartridge Bus Controller (chapter 5). -/
structure Cartridges where
  slots    : Vector CartSlot 4 := Vector.replicate 4 {}
  work     : List WorkItem := []
  flight   : Option Flight := none
  history  : List HistoryEntry := []
  lifetime : Nat := 0
  deriving DecidableEq, Repr

/-! ### Spool media (SMC) -/

/-- The content of DEFECTS: remap pairs (logical block, spare), the retired set and the set clean-map entries (R170). -/
structure Defects where
  remap   : List (Nat × Nat) := []
  retired : List Nat := []
  clean   : List Nat := []
  deriving DecidableEq, Repr, Inhabited

/-- The origin of a mark (section 6.2). -/
inductive MarkOrigin | media | cipher
  deriving DecidableEq, Repr, Inhabited

/-- One band-map entry (R110). -/
structure BandEntry where
  page   : Nat
  index  : Nat
  offset : Nat
  length : Nat
  deriving DecidableEq, Repr, Inhabited

/-- The filling image (section 6.4). handedOn says that it has ceased to be current and waits to move (R117). -/
structure FillingImage where
  handle   : Nat
  block    : Nat
  filled   : Nat
  data     : List Byte
  handedOn : Bool := false
  deriving DecidableEq, Repr, Inhabited

/-- Where the programming image stands: its program waits or is in flight, or the image waits for a block or
extent entries after a first failure (R118). -/
inductive ProgramPhase | waiting | inFlight | needsBlock
  deriving DecidableEq, Repr, Inhabited

/-- The programming image (section 6.4). -/
structure ProgrammingImage where
  handle : Nat
  block  : Nat
  filled : Nat
  data   : List Byte
  second : Bool := false
  phase  : ProgramPhase := .waiting
  deriving DecidableEq, Repr, Inhabited

/-- Who asked for a read (section 6.5). -/
inductive Reader | staging | exporter
  deriving DecidableEq, Repr, Inhabited

/-- A read of one band. dropped says that the one who asked for it has discarded it (R55, R122). -/
structure ReadRequest where
  reader  : Reader
  handle  : Nat
  page    : Nat
  index   : Nat
  dropped : Bool := false
  deriving DecidableEq, Repr, Inhabited

/-- A waiting operation of the port (R126). -/
inductive PortOp
  | read (request : ReadRequest)
  | program (handle block : Nat) (second : Bool)
  | erase (block : Nat)
  | verify (block : Nat)
  deriving DecidableEq, Repr, Inhabited

/-- Where a band lies: the block and offset at which it begins, its stored length, and the next block of the job,
into which it continues where it does not fit. -/
structure BandPlace where
  block  : Nat
  offset : Nat
  length : Nat
  next   : Option Nat
  deriving DecidableEq, Repr, Inhabited

/-- The operation in flight, with what was fixed at its start: the physical block (R110), and for a read the place of
its band, the physical blocks the band's blocks resolve to, and the retry and weak limits in force (R180). -/
inductive PortFlight
  | read (request : ReadRequest) (place : BandPlace) (physical : List Nat) (retries weakLimit : Nat)
  | program (handle block : Nat) (second : Bool) (physical : Nat)
  | erase (block physical : Nat)
  | verify (block physical : Nat)
  deriving DecidableEq, Repr, Inhabited

/-- SMC: the Spool Media Controller (chapter 6). -/
structure SpoolMedia where
  defects     : Defects := {}
  free        : List Nat := []
  weak        : List Nat := []
  marked      : List (Nat × MarkOrigin) := []
  bandMaps    : List (Nat × List BandEntry) := []
  filling     : Option FillingImage := none
  programming : Option ProgrammingImage := none
  ops         : List PortOp := []
  inFlight    : Option PortFlight := none
  sweepCount  : Nat := 0
  deriving DecidableEq, Repr, Inhabited

/-! ### Band cipher (BC) and scrub (SE) -/

/-- A LIVE key slot (section 7.1). -/
structure LiveKey where
  handle : Nat
  jobKey : Key
  encKey : Key
  tagKey : Key
  deriving DecidableEq, Repr, Inhabited

/-- The state of the random source's health tests (R140): the last raw sample with the length of its run, the
samples of the current window, newest first, and the last 16 bytes of output. -/
structure Health where
  run    : Option (Byte × Nat) := none
  window : List Byte := []
  last   : Option Digest := none
  deriving DecidableEq, Repr, Inhabited

/-- BC: the Band Cipher (chapter 7). A key slot that is absent is ZERO. stuck lists the slots whose storage does not
read back as zero after a zeroization: the condition of R138, an input (log 13). -/
structure BandCipher where
  keys    : Vector (Option LiveKey) 64 := Vector.replicate 64 none
  health  : Health := {}
  serving : Bool := false
  stuck   : List Nat := []
  deriving DecidableEq, Repr

/-- The origin of a scrub list entry (R142). -/
inductive ScrubOrigin | job (handle : Nat) | sweep | sanitize
  deriving DecidableEq, Repr, Inhabited

/-- One scrub list entry (R142). -/
structure ScrubEntry where
  block  : Nat
  origin : ScrubOrigin
  deriving DecidableEq, Repr, Inhabited

/-- The block in work (section 8.2): verifying is the step VERIFY, second the attempt 2. -/
structure BlockInWork where
  block     : Nat
  verifying : Bool
  second    : Bool
  deriving DecidableEq, Repr, Inhabited

/-- The sanitize record while one is in progress (section 8.5). wipe is the kind STORE_WIPE. -/
structure Sanitize where
  tag      : Byte
  wipe     : Bool
  returned : Nat := 0
  retired  : Nat := 0
  deriving DecidableEq, Repr, Inhabited

/-- SE: the Scrub Engine (chapter 8). -/
structure ScrubEngine where
  list     : List ScrubEntry := []
  work     : Option BlockInWork := none
  sanitize : Option Sanitize := none
  deriving DecidableEq, Repr, Inhabited

/-! ### Persistent store (PS) -/

/-- A partition: blank, or content with its integrity word, or what a write cut short left, whose content and word do not
agree (R171, R172). -/
inductive Partition (α : Type) | blank | holds (content : α) (word : BitVec 32) | broken
  deriving DecidableEq, Repr, Inhabited

/-- The content of HISTORY (R170). -/
structure HistoryContent where
  entries  : List HistoryEntry := []
  lifetime : Nat := 0
  deriving DecidableEq, Repr, Inhabited

/-- The three locks (R174). -/
structure Locks where
  settings : Bool := false
  keys     : Bool := false
  audit    : Bool := false
  deriving DecidableEq, Repr, Inhabited

/-- The content of KEYS (R170). -/
structure KeysContent where
  family : Vector (Option Key) 4 := Vector.replicate 4 none
  device : Option Key := none
  locks  : Locks := {}
  deriving DecidableEq, Repr

/-- The result of a partition's check (R178). -/
inductive CheckResult | passed | blank | defaults | emptied | recorded | wiped
  deriving DecidableEq, Repr, Inhabited

/-- The result for each partition; absent where this start-up has not checked it without a halt. -/
structure CheckResults where
  accounts : Option CheckResult := none
  defects  : Option CheckResult := none
  settings : Option CheckResult := none
  history  : Option CheckResult := none
  keys     : Option CheckResult := none
  halt     : Option CheckResult := none
  deriving DecidableEq, Repr, Inhabited

/-- The content of a partition, by partition (R170). -/
inductive Content
  | accounts (table : List Account)
  | defects (content : Defects)
  | settings (content : Settings)
  | history (content : HistoryContent)
  | keys (content : KeysContent)
  | halt (record : HaltRecord)
  deriving DecidableEq, Repr

/-- The content bytes of a partition in ascending address order: the spec gives contents and sizes, no byte layout (R170).
Free value (log 9), safe. -/
opaque contentBytes (content : Content) : List Byte

/-- A write to the store, with what the partition held before it (R171, log 24). -/
inductive StoreWrite
  | accounts (before : Partition (List Account))
  | defects (before : Partition Defects)
  | settings (before : Partition Settings)
  | history (before : Partition HistoryContent)
  | keys (before : Partition KeysContent)
  | halt (before : Partition HaltRecord)
  deriving DecidableEq, Repr

/-- PS: the Persistent Store (chapter 10). loadedKeys is the working copy of KEYS, absent until it is loaded. journal is the
model's own: the writes of the latest event, the latest first, among which a cut may fall (log 24). -/
structure Store where
  accounts   : Partition (List Account) := .blank
  defects    : Partition Defects := .blank
  settings   : Partition Settings := .blank
  history    : Partition HistoryContent := .blank
  keys       : Partition KeysContent := .blank
  halt       : Partition HaltRecord := .blank
  loadedKeys : Option KeysContent := none
  results    : CheckResults := {}
  journal    : List StoreWrite := []
  deriving DecidableEq, Repr

/-! ### The frames the part sends (LIF) -/

/-- A job's state as a JOB_STATE notice carries it (R4); freed carries the outcome the job had (R6). -/
inductive JobStage
  | freed (outcome : JobOutcome)
  | intake
  | held
  | queued
  | active
  | stalled (cause : StallCause)
  | draining (reason : DrainReason)
  | scrub (outcome : JobOutcome)
  deriving DecidableEq, Repr, Inhabited

/-- The other fields of a JOB_STATE notice (R4). -/
structure JobTallies where
  kind      : JobKind
  owner     : Nat
  pages     : Nat
  delivered : Nat
  inFlight  : Nat
  charged   : Nat
  deriving DecidableEq, Repr, Inhabited

/-- The content of a JOB_STATE notice; the tallies are absent in the notice of freeing (R6, log 22). -/
structure JobNotice where
  handle  : Nat
  stage   : JobStage
  tallies : Option JobTallies
  deriving DecidableEq, Repr, Inhabited

/-- The content of a CART_STATE notice (R108). -/
structure CartNotice where
  slot         : Fin 4
  verification : Verification
  cls          : Option LevelClass
  serial       : Option Serial
  mirror       : Option Nat
  pending      : Option Nat
  deriving DecidableEq, Repr, Inhabited

/-- The content of a PART notice (R53, R192). -/
structure PartNotice where
  part        : PartState
  haltRecord  : Option HaltRecord
  backlog     : Bool
  overflow    : Nat
  sweepCount  : Nat
  sanitizing  : Bool
  jammed      : Bool
  jamCause    : Option JamCause
  doorOpen    : Bool
  supplyGood  : Option Bool
  feedPermit  : Bool
  sheets      : Nat
  deriving DecidableEq, Repr, Inhabited

/-- The content of a SHEET_DONE notice (R62). -/
structure SheetDone where
  handle     : Nat
  index      : Nat
  cost       : Nat
  sides      : Nat
  nonGenuine : Bool
  deriving DecidableEq, Repr, Inhabited

/-- The content of a DONE notice: of a sanitize with its kind and counts (R154), or of a restart (R183). -/
inductive DoneWhat
  | sanitize (wipe : Bool) (returned retired : Nat)
  | restart
  deriving DecidableEq, Repr, Inhabited

/-- The notices (R195). -/
inductive Notice
  | jobState (slot : Fin 64) (content : JobNotice)
  | cartState (content : CartNotice)
  | faultQueued (fault : QueuedFault)
  | faultNote (record : NoteRecord)
  | part (content : PartNotice)
  | sheetDone (content : SheetDone)
  | pageStored (handle page : Nat)
  | done (tag : Byte) (halted : Bool) (what : DoneWhat)
  deriving DecidableEq, Repr, Inhabited

/-- The subjects of state and completion notices (section 11.4). -/
inductive Subject
  | jobSlot (slot : Fin 64)
  | cartSlot (slot : Fin 4)
  | faultPlace (place : Nat)
  | part
  | sanitize
  | restart
  deriving DecidableEq, Repr, Inhabited

/-- An account as ACCT_READ reports it (R46). -/
structure AccountReport where
  account    : Account
  hasPin     : Bool
  available  : Int
  toEnd      : Option Nat
  jobs       : Nat
  deriving DecidableEq, Repr, Inhabited

/-- A job as JOB_READ reports it (R20): job holds the record's fields, the extent list among them, with expected page and band
absent and no directory of its own; list holds the page entries the reply carries. That all the extent entries are of the
content, which the bytes of a payload may cut, is a DESIGN CHOICE (log 59). -/
structure JobReport where
  job    : Job
  pages  : Nat
  blocks : Nat
  list   : List (Nat × PageEntry)
  deriving DecidableEq, Repr, Inhabited

/-- A sense channel as PATH_READ reports it (R68). -/
structure ChannelReport where
  settings : ChannelSettings
  level    : Option Bool
  deriving DecidableEq, Repr, Inhabited

/-- The state of a staging entry as PATH_READ reports it (R68). -/
inductive StageReport | reading | ready | failed (page block : Nat)
  deriving DecidableEq, Repr, Inhabited

/-- A sheet as PATH_READ reports it (R68). -/
structure SheetReport where
  handle     : Nat
  index      : Nat
  entered    : Bool
  cost       : Nat
  nonGenuine : Bool
  msLeft     : Nat
  deriving DecidableEq, Repr, Inhabited

/-- The reply of PATH_READ (R68). -/
structure PathReport where
  jammed     : Bool
  jam        : Option JamRecord
  doorOpen   : Bool
  feedPermit : Bool
  feed       : ChannelReport
  exit       : ChannelReport
  supply     : ChannelReport
  pending    : Bool
  staging    : List (Nat × Nat × StageReport)
  sheets     : List SheetReport
  deriving DecidableEq, Repr, Inhabited

/-- A cartridge slot as CART_READ reports it (R108); the drawing list of slot is left out, drawing counts it. -/
structure CartReport where
  slot        : CartSlot
  drawing     : Nat
  authBusy    : Bool
  writeBusy   : Bool
  allow       : Bool
  lifetime    : Nat
  deriving DecidableEq, Repr, Inhabited

/-- The states of a logical block (section 6.2). -/
inductive BlockState | clean | allocated | dirty | retired
  deriving DecidableEq, Repr, Inhabited

/-- A buffer image as SPOOL_READ reports it (R128). -/
structure ImageReport where
  handle : Nat
  block  : Nat
  filled : Nat
  deriving DecidableEq, Repr, Inhabited

/-- One block as SPOOL_READ reports it (R128). -/
structure BlockReport where
  state    : BlockState
  weak     : Bool
  marked   : Option MarkOrigin
  physical : Nat
  handle   : Option Nat
  deriving DecidableEq, Repr, Inhabited

/-- The reply of SPOOL_READ (R128). -/
structure SpoolReport where
  clean       : Nat
  allocated   : Nat
  dirty       : Nat
  retired     : Nat
  free        : Nat
  scrub       : Nat
  weak        : Nat
  marked      : Nat
  remaps      : Nat
  spares      : Nat
  filling     : Option ImageReport
  programming : Option (ImageReport × Bool × ProgramPhase)
  class1      : Nat
  class2      : Nat
  class3      : Nat
  flight      : Option Nat
  block       : Option BlockReport
  deriving DecidableEq, Repr, Inhabited

/-- The reply of FAULT_READ (R162). -/
structure FaultReport where
  part       : PartState
  backlog    : Bool
  overflow   : Nat
  queue      : List QueuedFault
  notes      : List NoteTally
  haltRecord : Option HaltRecord
  deriving DecidableEq, Repr, Inhabited

/-- The reply of STORE_READ (R178): the check results, the sizes of the partitions in KiB, and the content summary. -/
structure StoreReport where
  results     : CheckResults
  sizes       : List Nat
  accounts    : Nat
  remaps      : Nat
  retired     : Nat
  clean       : Nat
  history     : Nat
  lifetime    : Nat
  familyKeys  : List Bool
  deviceKey   : Bool
  locks       : Locks
  haltRecord  : Bool
  limits      : LimitSettings
  deriving DecidableEq, Repr, Inhabited

/-- A media table entry as MEDIA_SET reports it, with its code and its class, large for LARGE (R71). -/
structure MediaLine where
  code    : Nat
  area    : Nat
  large   : Bool
  transit : Nat
  deriving DecidableEq, Repr, Inhabited

/-- The number of jobs in each job state (R193). -/
structure JobCounts where
  free     : Nat
  intake   : Nat
  held     : Nat
  queued   : Nat
  active   : Nat
  stalled  : Nat
  draining : Nat
  scrub    : Nat
  deriving DecidableEq, Repr, Inhabited

/-- The reply of STATUS (R193). -/
structure StatusReport where
  part        : PartState
  uptime      : Nat
  haltRecord  : Option HaltRecord
  backlog     : Bool
  overflow    : Nat
  faults      : Nat
  liveKeys    : Nat
  jobs        : JobCounts
  sweepCount  : Nat
  sanitizing  : Bool
  scrub       : Nat
  feedPermit  : Bool
  jammed      : Bool
  doorOpen    : Bool
  supplyGood  : Option Bool
  locks       : Option Locks
  overrun     : Bool
  frameErrors : Nat
  dropped     : Nat
  replies     : Nat
  notices     : Nat
  deriving DecidableEq, Repr, Inhabited

/-- What a reply carries, by the rule of its request. -/
inductive Payload
  | empty
  | linkError (kind : Byte)
  | handle (handle : Nat)
  | deleted (balance : Int) (counters : Counters)
  | credit (balance available : Int) (clamped : Bool)
  | account (report : AccountReport)
  | accountList (ids : List Nat) (count : Nat) (more : Bool)
  | standing (standing : Standing)
  | counters (counters : Counters)
  | job (report : JobReport)
  | path (report : PathReport)
  | prices (settings : PriceSettings)
  | meters (settings : MeterSettings)
  | media (table : List MediaLine)
  | cartridge (report : CartReport)
  | history (held : Nat) (entries : List HistoryEntry)
  | spool (report : SpoolReport)
  | faults (report : FaultReport)
  | acknowledged (left : Nat) (backlog : Bool) (overflow : Nat)
  | sense (last : Option (JobRecord × Bool))
  | locks (locks : Locks)
  | store (report : StoreReport)
  | limits (settings : LimitSettings)
  | status (report : StatusReport)
  deriving DecidableEq, Repr, Inhabited

/-- A reply: request kind (00h for LINK_ERROR), tag, status byte and payload (section 11.2). -/
structure Reply where
  kind    : Byte
  tag     : Byte
  status  : Byte
  payload : Payload
  deriving DecidableEq, Repr, Inhabited

/-- An entry of the outgoing list (section 11.4). -/
inductive Entry | reply (reply : Reply) | notice (notice : Notice)
  deriving DecidableEq, Repr, Inhabited

/-- The bytes of a reply's payload other than an empty one, and of a notice's: the spec lays out the fields of
requests only (R195). Free value (log 5), safe. -/
opaque payloadBytes (entry : Entry) : List Byte

/-- The transfer in progress (R185): the frame being sent, whether it is an entry's, whether that entry's content was
replaced or is to be sent again (R191, R194), and whether a start-up fell within the transfer (R194). -/
structure Transfer where
  frame    : List Byte
  sending  : Bool
  replaced : Bool := false
  cut      : Bool := false
  deriving DecidableEq, Repr, Inhabited

/-- LIF: the Link Interface (chapter 11). -/
structure LinkInterface where
  out         : List Entry := []
  attn        : Bool := false
  transfer    : Option Transfer := none
  overrun     : Bool := false
  frameErrors : Nat := 0
  dropped     : Nat := 0
  deriving DecidableEq, Repr, Inhabited

/-! ### The part -/

/-- The start-up in progress (R182): the step running, whether it is a wipe restart, and the tag of the RESTART that
began it. -/
structure StartUp where
  step : Nat
  wipe : Bool
  tag  : Option Byte
  deriving DecidableEq, Repr, Inhabited

/-- The state of the part. -/
structure State where
  powered    : Bool := true
  clock      : Nat := 0
  startUp    : Option StartUp := none
  lif        : LinkInterface := {}
  jt         : JobTable := {}
  accounts   : List Account := []
  spm        : SheetPath := {}
  settings   : Settings := {}
  cbc        : Cartridges := {}
  smc        : SpoolMedia := {}
  bc         : BandCipher := {}
  se         : ScrubEngine := {}
  fm         : FaultMonitor := {}
  ps         : Store := {}
  noise      : List Noise := []
  noiseTaken : Nat := 0
  pending    : List Instr := []
  deriving DecidableEq, Repr

/-- Right after power-on of a part whose store was never written (R172, R181): STARTING in step 1, every volatile piece
of state at its value after start-up. Reset values the spec does not give: logs 7, 10, 11, 13, 25. -/
def State.reset : State := { startUp := some { step := 1, wipe := false, tag := none } }

/-- Why the model stops: a command whose operand the hardware it stands for cannot deliver. -/
inductive Fault
  /-- Raised by READ_RECORD_COMPLETE: a record that is not the 22 bytes of section 5.3. Safe: no cartridge transaction
  that completes delivers another number of bytes (R85). -/
  | recordLength
  deriving DecidableEq, Repr, Inhabited

/-- Why a command has no meaning. -/
inductive Refusal
  /-- Raised by a dispatch arm whose instruction has no meaning yet. Safe. -/
  | notModelled (mnemonic : String)
  deriving DecidableEq, Repr, Inhabited

end Sys2Proof.Machine
end

