-- ==== Sys2Proof/Machine/Operands.lean ====
section
/-! DEFINITION. The operands of requests: the bytes of request kinds and status codes, the enumerated values in the
order of their rules, and the range tests the owning rules apply. -/

namespace Sys2Proof.Machine

/-! ### Request kinds and status codes -/

/-- The requests in the order of the catalogue of R195. -/
inductive RequestKind
  | acctCreate | acctDelete | acctCredit | acctSet | acctRead | acctList | acctUnlock | countersClear
  | jobOpen | jobRelease | jobCancel | jobPause | jobResume | jobSkipPage | jobRead
  | senseSet | doorState | jamClear | pathRead | priceSet | meterSet | mediaSet
  | cartRead | cartReauth | policySet | familyKeyLoad | spoolRead | blockRetire | sanitize
  | faultRead | faultAck | sense | storeLock | storeWipe | storeRead | limitsSet | status | restart
  deriving DecidableEq, Repr, Inhabited

/-- The requests, first to last. -/
def allRequestKinds : List RequestKind :=
  [.acctCreate, .acctDelete, .acctCredit, .acctSet, .acctRead, .acctList, .acctUnlock, .countersClear,
   .jobOpen, .jobRelease, .jobCancel, .jobPause, .jobResume, .jobSkipPage, .jobRead,
   .senseSet, .doorState, .jamClear, .pathRead, .priceSet, .meterSet, .mediaSet,
   .cartRead, .cartReauth, .policySet, .familyKeyLoad, .spoolRead, .blockRetire, .sanitize,
   .faultRead, .faultAck, .sense, .storeLock, .storeWipe, .storeRead, .limitsSet, .status, .restart]

/-- R195: the kind byte of a request is its position in the catalogue, from 01h. -/
def kindByte (k : RequestKind) : Byte := BitVec.ofNat 8 (allRequestKinds.idxOf k + 1)

/-- R195: the request a kind byte names. -/
def kindOfByte (b : Byte) : Option RequestKind :=
  if b = 0 then none else allRequestKinds[b.toNat - 1]?

/-- The status codes in the order of the table of R189. -/
def allStatuses : List Status :=
  [.ok, .accepted, .badLength, .unknownKind, .badField, .noAccount, .noJob, .wrongState, .busy, .full, .locked,
   .pinWrong, .lockedOut, .noPin, .insufficient, .noColourRight, .sensorBusy, .powerLow, .halted, .starting]

/-- R189: the status byte holds the position of the code in the table, counted from 00h. -/
def statusByte (c : Status) : Byte := BitVec.ofNat 8 (allStatuses.idxOf c)

/-- R187: the cause byte of a LINK_ERROR reply; a dropped frame has none. -/
def linkCauseByte : LinkErrorCause → Option Byte
  | .check => some 0x01
  | .short => some 0x02
  | .oversize => some 0x03
  | .dropped => none

/-! ### Range tests -/

/-- An optional value is absent or within lo..hi. -/
def optInRange (v : Option Nat) (lo hi : Nat) : Bool := v.all fun n => lo ≤ n && n ≤ hi

/-- A PIN is 4..8 characters, each a decimal digit 30h..39h (R18, R36, R38). -/
def validPin (pin : List Byte) : Bool :=
  4 ≤ pin.length && pin.length ≤ 8 && pin.all fun b => 0x30 ≤ b.toNat && b.toNat ≤ 0x39

/-- R195: a yes/no field holds 0 for no; 1 is yes and any other value is neither (log 21). -/
def yesNo (n : Nat) : Option Bool := if n = 0 then some false else if n = 1 then some true else none

/-- R36 step 1: the fields of ACCT_CREATE. -/
def acctCreateFields (id overdraft colour : Nat) (pin : Option (List Byte)) : Option Bool :=
  if id = 0 || id > 65535 || overdraft > Config.overdraftMax || !(pin.all validPin) then none else yesNo colour

/-- The standing a field of ACCT_SET names: ACTIVE 0, SUSPENDED 1 (section 2.5, log 21). -/
def standingField (n : Nat) : Option Standing :=
  if n = 0 then some .active else if n = 1 then some .suspended else none

/-- R38 step 1: the fields of ACCT_SET are in range. -/
def acctSetFields (overdraft colour standing : Option Nat) (pin : Option PinAction) : Bool :=
  overdraft.all (· ≤ Config.overdraftMax) && colour.all (fun c => (yesNo c).isSome)
    && standing.all (fun c => (standingField c).isSome)
    && pin.all fun a => match a with
      | .set p => validPin p
      | .clear => true

/-- R37: the range of an amount. -/
def amountInRange (amount : Int) : Bool := -Config.balanceMax ≤ amount && amount ≤ Config.balanceMax

/-- R2: the kinds in the order of the job record's row. -/
def kindField (n : Nat) : Option JobKind :=
  if n = 0 then some .copy else if n = 1 then some .print else if n = 2 then some .scanOut else none

/-- R2 step 1: the fields of JOB_OPEN, where every one is in range: kind, privacy PRIVATE, sides DUPLEX. -/
def jobOpenFields (kind owner privacy media sides copies : Nat) : Option (JobKind × Bool × Bool) :=
  match kindField kind, yesNo privacy, yesNo sides with
  | some k, some priv, some duplex =>
    if owner = 0 || owner > 65535 || media > 15 || copies = 0 || copies > 999 then none
    else if k = .scanOut && (!priv || copies != 1) then none
    else some (k, priv, duplex)
  | _, _, _ => none

/-- R48: the channels in their order. -/
def channelField (n : Nat) : Option Channel :=
  if n = 0 then some .feed else if n = 1 then some .exit else if n = 2 then some .supply else none

/-- R48: the filter widths in their order. -/
def filterField (n : Nat) : Option FilterWidth :=
  if n = 0 then some .off else if n = 1 then some .half else if n = 2 then some .one
  else if n = 3 then some .two else none

/-- R50 step 1: the fields of SENSE_SET. Hysteresis is ON 0, OFF 1; polarity is when-above 0, when-below 1 (log 21). -/
def senseSetFields (channel code hysteresis filter polarity : Nat) : Option (Channel × ChannelSettings) :=
  match channelField channel, yesNo hysteresis, filterField filter, yesNo polarity with
  | some ch, some off, some width, some below =>
    if code > 255 then none else some (ch, { code := code, hysteresis := !off, filter := width, highWhenAbove := !below })
  | _, _, _, _ => none

/-- R81, section 4.6: the ranges of the price group. -/
def priceFieldsInRange (f : PriceFields) : Bool :=
  optInRange f.stdMono 0 10000 && optInRange f.stdColour 0 10000 && optInRange f.largeMono 0 10000
    && optInRange f.largeColour 0 10000 && optInRange f.duplexPct 0 100 && optInRange f.heavyThreshold 0 40000
    && optInRange f.heavySurcharge 0 1000 && optInRange f.scanRate 0 1000

/-- PRICE_SET carries no value. -/
def priceFieldsAbsent (f : PriceFields) : Bool := f == {}

/-- R81: the price group with the values given. -/
def applyPrice (f : PriceFields) (p : PriceSettings) : PriceSettings :=
  { stdMono := f.stdMono.getD p.stdMono, stdColour := f.stdColour.getD p.stdColour,
    largeMono := f.largeMono.getD p.largeMono, largeColour := f.largeColour.getD p.largeColour,
    duplexPct := f.duplexPct.getD p.duplexPct, heavyThreshold := f.heavyThreshold.getD p.heavyThreshold,
    heavySurcharge := f.heavySurcharge.getD p.heavySurcharge, scanRate := f.scanRate.getD p.scanRate }

/-- R82, section 4.6: the ranges of the meter group. -/
def meterFieldsInRange (f : MeterFields) : Bool :=
  optInRange f.colourThreshold 1 10000 && optInRange f.idleLoss 0 50 && optInRange f.lowMarkPct 1 50
    && optInRange f.writebackPct 1 10 && optInRange f.reauthInterval 100 65535

/-- METER_SET carries no value. -/
def meterFieldsAbsent (f : MeterFields) : Bool := f == {}

/-- R82: the meter group with the values given. -/
def applyMeter (f : MeterFields) (m : MeterSettings) : MeterSettings :=
  { colourThreshold := f.colourThreshold.getD m.colourThreshold, idleLoss := f.idleLoss.getD m.idleLoss,
    lowMarkPct := f.lowMarkPct.getD m.lowMarkPct, writebackPct := f.writebackPct.getD m.writebackPct,
    reauthInterval := f.reauthInterval.getD m.reauthInterval }

/-- R71 step 1: the ranges of MEDIA_SET. -/
def mediaFieldsInRange (code : Nat) (area transit : Option Nat) : Bool :=
  code ≤ 15 && optInRange area 100 1300 && optInRange transit 500 10000

/-- R180: the ranges of LIMITS_SET. -/
def limitFieldsInRange (f : LimitFields) : Bool :=
  optInRange f.holdLimit 1 1440 && optInRange f.lockoutTime 1 1440 && optInRange f.intakeStallLimit 5 300
    && optInRange f.entryLimit 200 10000 && optInRange f.readRetries 0 3 && optInRange f.weakLimit 1 8

/-- LIMITS_SET carries no value. -/
def limitFieldsAbsent (f : LimitFields) : Bool := f == {}

/-- R180: the limits with the values given. -/
def applyLimits (f : LimitFields) (l : LimitSettings) : LimitSettings :=
  { holdLimit := f.holdLimit.getD l.holdLimit, lockoutTime := f.lockoutTime.getD l.lockoutTime,
    intakeStallLimit := f.intakeStallLimit.getD l.intakeStallLimit, entryLimit := f.entryLimit.getD l.entryLimit,
    readRetries := f.readRetries.getD l.readRetries, weakLimit := f.weakLimit.getD l.weakLimit }

/-- R175: the set of locks a byte names: bit 0 LOCK_SETTINGS, bit 1 LOCK_KEYS, bit 2 AUDIT_LOCK (log 21). -/
def lockSet (n : Nat) : Option Locks :=
  if n = 0 || n > 7 then none
  else some { settings := n % 2 == 1, keys := n / 2 % 2 == 1, audit := n / 4 % 2 == 1 }

/-- The four cartridge slots K, C, M, Y in order. -/
def cartSlots : List (Fin 4) := [0, 1, 2, 3]

/-- The number of one plane. -/
def planeOf (p : Planes) (i : Fin 4) : Nat :=
  match i with
  | 0 => p.k
  | 1 => p.c
  | 2 => p.m
  | 3 => p.y

/-- One number for each plane, from a function of the slot. -/
def planesOf (f : Fin 4 → Nat) : Planes := { k := f 0, c := f 1, m := f 2, y := f 3 }

/-- A slot number of a request, 0..3. -/
def slotField (n : Nat) : Option (Fin 4) := if h : n < 4 then some ⟨n, h⟩ else none

end Sys2Proof.Machine
end

