-- ==== Sys2Proof/Machine/Ops.lean ====
section
/-! DEFINITION. The named operations shared by the meanings: the clock, the outgoing list of LIF, the records of FM,
the PART notice and the feed permit, the job table's slots, the working copies with their write-through, and the
random source. -/

namespace Sys2Proof.Machine

/-! ### The clock -/

/-- The uptime in ms (00_scope section 4; the clock counts half milliseconds, log 1). -/
def nowMs (s : State) : Nat := s.clock / 2

/-- The uptime in whole seconds. -/
def nowSeconds (s : State) : Nat := s.clock / 2000

/-- A sum that stops at the top of a counter. -/
def satAdd (a b top : Nat) : Nat := min (a + b) top

/-! ### LIF: the outgoing list -/

/-- Section 11.4: the subject of a state or completion notice; a progress notice has none. -/
def noticeSubject : Notice → Option Subject
  | .jobState slot _ => some (.jobSlot slot)
  | .cartState content => some (.cartSlot content.slot)
  | .faultQueued fault => some (.faultPlace fault.place)
  | .faultNote _ => none
  | .part _ => some .part
  | .sheetDone _ => none
  | .pageStored _ _ => none
  | .done _ _ (.sanitize _ _ _) => some .sanitize
  | .done _ _ .restart => some .restart

/-- The subject of an entry; a reply has none. -/
def entrySubject : Entry → Option Subject
  | .reply _ => none
  | .notice n => noticeSubject n

/-- The entry is a reply. -/
def isReply : Entry → Bool
  | .reply _ => true
  | .notice _ => false

/-- R188: the number of unread replies. -/
def unreadReplies (l : LinkInterface) : Nat := l.out.countP isReply

/-- R191: the number of notice entries held. -/
def noticeEntries (l : LinkInterface) : Nat := l.out.countP fun e => !isReply e

/-- An entry joins the tail, and ATTN is up (R186, R190). -/
def appendEntry (e : Entry) (l : LinkInterface) : LinkInterface := { l with out := l.out ++ [e], attn := true }

/-- The entries with the entry of a subject replaced in its place. -/
def replaceEntry (sub : Subject) (n : Notice) : List Entry → List Entry
  | [] => []
  | e :: rest => if entrySubject e = some sub then .notice n :: rest else e :: replaceEntry sub n rest

/-- R185: the transfer whose entry's content is replaced while it is being sent. -/
def noteReplaced (sub : Subject) (l : LinkInterface) : Option Transfer :=
  match l.transfer with
  | some t => if t.sending && (l.out.head?.bind entrySubject == some sub) then some { t with replaced := true } else some t
  | none => none

/-- R191: LIF admits a notice by its class. -/
def admitNotice (n : Notice) (l : LinkInterface) : LinkInterface :=
  match noticeSubject n with
  | some sub =>
    if l.out.any (fun e => entrySubject e == some sub) then
      { l with out := replaceEntry sub n l.out, transfer := noteReplaced sub l }
    else appendEntry (.notice n) l
  | none =>
    if noticeEntries l < 48 then appendEntry (.notice n) l
    else { l with dropped := satAdd l.dropped 1 65535 }

/-- A block asks LIF for a notice. -/
def emit (n : Notice) (s : State) : State := { s with lif := admitNotice n s.lif }

/-- A request's reply joins the tail of the list (R190). -/
def pushReply (r : Reply) (s : State) : State := { s with lif := appendEntry (.reply r) s.lif }

/-! ### The PART notice and the feed permit -/

/-- R192, R53: the content of a PART notice as it stands. -/
def partContent (s : State) : PartNotice :=
  { part := s.fm.part, haltRecord := s.fm.haltRecord, backlog := s.fm.backlog, overflow := s.fm.overflow,
    sweepCount := s.smc.sweepCount, sanitizing := s.se.sanitize.isSome, jammed := s.spm.jammed,
    jamCause := s.spm.jam.map (·.cause), doorOpen := s.spm.doorOpen, supplyGood := s.spm.supply.level,
    feedPermit := s.spm.feedPermit, sheets := s.spm.sheets.length }

/-- A PART notice is asked for, its content formed anew (R192). -/
def askPart (s : State) : State := emit (.part (partContent s)) s

/-- R52: the five conditions of the feed permit. -/
def permitConditions (s : State) : Bool :=
  !s.spm.jammed && !s.spm.doorOpen && s.spm.supply.level == some true && s.fm.part == .running && !s.fm.backlog

/-- R52: SPM evaluates the permit and drives the FEED PERMIT line. -/
def evaluatePermit (s : State) : State := { s with spm := { s.spm with feedPermit := permitConditions s } }

/-! ### FM: records -/

/-- R157: the next fault number from n on that no queued record holds, trying a few. -/
def freshNumber (held : List Nat) : Nat → Nat → Nat
  | 0, n => n
  | fuel + 1, n => if n ∈ held then freshNumber held fuel (n % 65535 + 1) else n

/-- R157: the number the next record takes. -/
def takeNumber (fm : FaultMonitor) : Nat := freshNumber (fm.queue.map (·.record.number)) 4 fm.nextNumber

/-- The place of a NOTE code in the order of R156. -/
def noteCode : Note → Fin 10
  | .eccWeak _ _ => 0
  | .blockRetired _ _ => 1
  | .sparesLow _ => 2
  | .cartSuspect _ _ _ => 3
  | .cartRejected _ _ _ => 4
  | .strayBand _ => 5
  | .scanShortfall _ _ _ _ => 6
  | .settingsRestored => 7
  | .historyCleared => 8
  | .previousHalt _ => 9

/-- R161: FM's own state after a NOTE condition. -/
def tallyNote (record : NoteRecord) (fm : FaultMonitor) : FaultMonitor :=
  let code := noteCode record.note
  { fm with
    notes := fm.notes.set code { tally := satAdd (fm.notes.get code).tally 1 65535, latest := some record }
    nextNumber := record.number % 65535 + 1 }

/-- R161: FM takes a NOTE condition. -/
def raiseNote (n : Note) (s : State) : State :=
  let record : NoteRecord := { number := takeNumber s.fm, instant := nowMs s, note := n }
  emit (.faultNote record) { s with fm := tallyNote record s.fm }

/-- R158: the lowest-numbered free place of the fault queue. -/
def freePlace (queue : List QueuedFault) : Nat :=
  ((List.range 4).find? fun p => !(queue.any (·.place == p))).getD 0

/-- R157: the codes whose record has the address-valid flag set. -/
def addressValid : JobFaultCode → Bool
  | .imageUnreadable => true
  | .imageTampered => true
  | .mediaWrite => true
  | .intakeFormat => false
  | .spoolFull => false
  | .pagePool => false

/-- R157: a JOB condition with its fields; without a valid address the block reads 0. -/
def jobFault (code : JobFaultCode) (handle page block : Nat) : JobFault :=
  { code := code, handle := handle, page := page, block := if addressValid code then block else 0,
    addrValid := addressValid code }

/-! ### The job table -/

/-- The slot number of a handle (R1). -/
def slotOf (handle : Nat) : Fin 64 := ⟨handle % 64, Nat.mod_lt _ (by decide)⟩

/-- R1: the job a valid handle names. -/
def jobOf (jt : JobTable) (handle : Nat) : Option Job :=
  if handle < 16384 && (jt.slots.get (slotOf handle)).generation == handle / 64 then (jt.slots.get (slotOf handle)).job
  else none

/-- The jobs of the table, in slot order. -/
def allJobs (jt : JobTable) : List Job := jt.slots.toList.filterMap (·.job)

/-- The job is in one of the six live states (R131). -/
def isLive (j : Job) : Bool :=
  match j.state with
  | .scrub _ => false
  | _ => true

/-- The job record takes its place in its slot. -/
def putJob (j : Job) (jt : JobTable) : JobTable :=
  let i := slotOf j.handle
  { jt with slots := jt.slots.set i { jt.slots.get i with job := some j } }

/-- The job record is replaced. -/
def setJob (j : Job) (s : State) : State := { s with jt := putJob j s.jt }

/-- The job a handle names is changed; nothing happens where it names none. -/
def changeJob (handle : Nat) (f : Job → Job) (s : State) : State :=
  match jobOf s.jt handle with
  | some j => setJob (f j) s
  | none => s

/-- Section 1.1: the destination follows from the kind. -/
def destinationOf : JobKind → Destination
  | .copy => .engine
  | .print => .engine
  | .scanOut => .exporter

/-- The page entry of a page number (1, 2, 3 …). -/
def pageEntry (j : Job) (page : Nat) : Option PageEntry := if page = 0 then none else j.pages[page - 1]?

/-- The queue of a destination. -/
def queueOf (jt : JobTable) : Destination → Queue
  | .engine => jt.engine
  | .exporter => jt.exporter

/-- The queue of a destination is replaced. -/
def putQueue (d : Destination) (q : Queue) (jt : JobTable) : JobTable :=
  match d with
  | .engine => { jt with engine := q }
  | .exporter => { jt with exporter := q }

/-- R4: a job's state as the notice carries it. -/
def stageOf : JobState → JobStage
  | .intake => .intake
  | .held _ => .held
  | .queued => .queued
  | .active => .active
  | .stalled cause _ _ => .stalled cause
  | .draining reason => .draining reason
  | .scrub outcome => .scrub outcome

/-- R4: the content of a job's JOB_STATE notice. -/
def jobContent (j : Job) : JobNotice :=
  { handle := j.handle, stage := stageOf j.state,
    tallies := some { kind := j.kind, owner := j.owner, pages := j.pages.length, delivered := j.delivered,
                      inFlight := j.inFlight, charged := j.charged } }

/-- R4: JT emits a JOB_STATE notice for the job's slot. -/
def askJobState (j : Job) (s : State) : State := emit (.jobState (slotOf j.handle) (jobContent j)) s

/-- The job takes its new record, and the change is notified. -/
def moveJob (j : Job) (s : State) : State := askJobState j (setJob j s)

/-- R157: JT makes the record the job's last fault. -/
def keepLastFault (record : JobRecord) (s : State) : State :=
  changeJob record.fault.handle (fun j => { j with lastFault := some record }) s

/-- R158, R159: FM takes a JOB condition. -/
def raiseJobFault (f : JobFault) (s : State) : State :=
  let record : JobRecord := { number := takeNumber s.fm, instant := nowMs s, fault := f }
  let s := keepLastFault record { s with fm := { s.fm with nextNumber := record.number % 65535 + 1 } }
  if s.fm.queue.length < 4 then
    let queued : QueuedFault := { place := freePlace s.fm.queue, record := record }
    emit (.faultQueued queued) { s with fm := { s.fm with queue := s.fm.queue ++ [queued] } }
  else
    let t := { s with fm := { s.fm with overflow := satAdd s.fm.overflow 1 255, backlog := true } }
    if s.fm.backlog then t else askPart (evaluatePermit t)

/-! ### Pools (section 1.1) -/

/-- Page entries in use. -/
def pagesUsed (jt : JobTable) : Nat := ((allJobs jt).map (·.pages.length)).sum

/-- Extent entries in use. -/
def extentsUsed (jt : JobTable) : Nat := ((allJobs jt).map (·.extents.length)).sum

/-- The blocks of an extent list, in extent order and ascending within an extent. -/
def extentBlocks (extents : List Extent) : List Nat :=
  extents.flatMap fun e => (List.range e.count).map (e.first + ·)

/-! ### Working copies and their partitions (R170, R171) -/

/-- R171: the integrity word of a content. -/
def wordOf (content : Content) : BitVec 32 := integrityWord (contentBytes content)

/-- R171: a partition written whole: the content, then the integrity word formed over it. -/
def written {α : Type} (form : α → Content) (content : α) : Partition α := .holds content (wordOf (form content))

/-- R171: a write to ACCOUNTS, which joins the writes of the instant (log 24). -/
def writeAccounts (p : Partition (List Account)) (ps : Store) : Store :=
  { ps with accounts := p, journal := .accounts ps.accounts :: ps.journal }

/-- R171: a write to DEFECTS. -/
def writeDefects (p : Partition Defects) (ps : Store) : Store :=
  { ps with defects := p, journal := .defects ps.defects :: ps.journal }

/-- R171: a write to SETTINGS. -/
def writeSettings (p : Partition Settings) (ps : Store) : Store :=
  { ps with settings := p, journal := .settings ps.settings :: ps.journal }

/-- R171: a write to HISTORY. -/
def writeHistory (p : Partition HistoryContent) (ps : Store) : Store :=
  { ps with history := p, journal := .history ps.history :: ps.journal }

/-- R171: a write to KEYS. -/
def writeKeys (p : Partition KeysContent) (ps : Store) : Store :=
  { ps with keys := p, journal := .keys ps.keys :: ps.journal }

/-- R171: a write to HALT. -/
def writeHalt (p : Partition HaltRecord) (ps : Store) : Store :=
  { ps with halt := p, journal := .halt ps.halt :: ps.journal }

/-- The account table changes, in the working copy and in ACCOUNTS (R30). -/
def setAccounts (table : List Account) (s : State) : State :=
  { s with accounts := table, ps := writeAccounts (written .accounts table) s.ps }

/-- The content of DEFECTS changes (section 6). -/
def setDefects (d : Defects) (s : State) : State :=
  { s with smc := { s.smc with defects := d }, ps := writeDefects (written .defects d) s.ps }

/-- The settings change (R179). -/
def setSettings (g : Settings) (s : State) : State :=
  { s with settings := g, ps := writeSettings (written .settings g) s.ps }

/-- The content of KEYS changes. -/
def setKeys (k : KeysContent) (s : State) : State :=
  { s with ps := { writeKeys (written .keys k) s.ps with loadedKeys := some k } }

/-- The history table and the lifetime count change (section 5.6). -/
def setHistory (entries : List HistoryEntry) (lifetime : Nat) (s : State) : State :=
  { s with cbc := { s.cbc with history := entries, lifetime := lifetime }
           ps := writeHistory (written .history { entries := entries, lifetime := lifetime }) s.ps }

/-- The halt record is written (R168). -/
def setHaltRecord (h : HaltRecord) (s : State) : State :=
  { s with fm := { s.fm with haltRecord := some h }, ps := writeHalt (written .halt h) s.ps }

/-- The halt record is cleared and HALT returns to the blank form (R168, R172). -/
def clearHaltRecord (s : State) : State :=
  { s with fm := { s.fm with haltRecord := none }, ps := writeHalt .blank s.ps }

/-- The working copy of KEYS; before it is loaded, as a blank partition is taken (R172). -/
def keysOf (s : State) : KeysContent := s.ps.loadedKeys.getD {}

/-- The three locks in force (R174). -/
def locksOf (s : State) : Locks := (keysOf s).locks

/-- The device key (R139); none exists only before start-up step 2 has run. -/
def deviceKeyOf (s : State) : Key := (keysOf s).device.getD 0

/-! ### The random source (R140) -/

/-- What the noise source delivers to the next draw (log 7). -/
def takeNoise (s : State) : Noise × State :=
  match s.noise with
  | n :: rest => (n, { s with noise := rest })
  | [] => (Config.freeNoise s.noiseTaken, { s with noiseTaken := s.noiseTaken + 1 })

/-- R140: one raw sample through the repetition and proportion tests. One that fails both is reported as REPETITION (DESIGN
CHOICE, log 60). -/
def testSample (h : Health) (b : Byte) : Health × Option HealthTest :=
  let length := match h.run with
    | some (v, n) => if v = b then n + 1 else 1
    | none => 1
  let window := b :: h.window
  let h' := { h with run := some (b, length), window := if window.length ≥ 1024 then [] else window }
  if length ≥ 32 then (h', some .repetition)
  else if window.count b > 400 then (h', some .proportion)
  else (h', none)

/-- R140: raw samples through the tests; the first failure ends the draw. -/
def testSamples : List Byte → Health → Health × Option HealthTest
  | [], h => (h, none)
  | b :: rest, h =>
    match testSample h b with
    | (h', none) => testSamples rest h'
    | (h', some f) => (h', some f)

/-- R140: 16 bytes of output against the 16 bytes produced before them. -/
def testOutput : List Digest → Health → Health × Option HealthTest
  | [], h => (h, none)
  | d :: rest, h =>
    if h.last = some d then (h, some .output) else testOutput rest { h with last := some d }

/-- The first and second 16 bytes of 32. -/
def firstHalf (k : Key) : Digest := k.extractLsb' 128 128
/-- The second 16 bytes of 32. -/
def secondHalf (k : Key) : Digest := k.extractLsb' 0 128

/-- R140: samples and output of one draw through the tests. -/
def testNoise (samples : List Byte) (output : List Digest) (h : Health) : Health × Option HealthTest :=
  match testSamples samples h with
  | (h', some f) => (h', some f)
  | (h', none) => testOutput output h'

/-- R140: a draw of 32 bytes, or the test it failed. -/
def draw32 (s : State) : Except HealthTest Key × State :=
  let (n, s) := takeNoise s
  let (h, failure) := testNoise n.samples [firstHalf n.output, secondHalf n.output] s.bc.health
  let s := { s with bc := { s.bc with health := h } }
  match failure with
  | some f => (.error f, s)
  | none => (.ok n.output, s)

/-- R140: a draw of 16 bytes, or the test it failed. -/
def draw16 (s : State) : Except HealthTest Digest × State :=
  let (n, s) := takeNoise s
  let (h, failure) := testNoise n.samples [firstHalf n.output] s.bc.health
  let s := { s with bc := { s.bc with health := h } }
  match failure with
  | some f => (.error f, s)
  | none => (.ok (firstHalf n.output), s)

/-! ### Requests (R188 to R190) -/

/-- What a request's owner decides: the status, the payload, and the state after the rule. -/
structure Answer where
  status  : Status
  payload : Payload := .empty
  state   : State
  deriving DecidableEq, Repr

/-- A refused request: an empty payload and the state as it was (R189). -/
def refuse (c : Status) (s : State) : Answer := { status := c, state := s }

/-- The reply of an answer joins the list at the end of the request's event (R190). -/
def reply (kind tag : Byte) (a : Answer) : State :=
  pushReply { kind := kind, tag := tag, status := statusByte a.status, payload := a.payload } a.state

/-- R188: the frame is discarded and the link-overrun flag set. -/
def overrun (s : State) : State := { s with lif := { s.lif with overrun := true } }

/-- R167: the requests served while the part is HALTED. -/
def servedHalted : RequestKind → Bool
  | .status => true
  | .faultRead => true
  | .restart => true
  | _ => false

/-- R188 and steps 4 and 5 of R189: a well-formed request is discarded, answered STARTING or HALTED, or handed to its
owner. -/
def request (k : RequestKind) (tag : Byte) (owner : State → Answer) (s : State) : State :=
  if !s.powered then s
  else if unreadReplies s.lif ≥ 8 then overrun s
  else match s.fm.part with
    | .starting => reply (kindByte k) tag (refuse .starting s)
    | .halted => if servedHalted k then reply (kindByte k) tag (owner s) else reply (kindByte k) tag (refuse .halted s)
    | .running => reply (kindByte k) tag (owner s)

end Sys2Proof.Machine
end

