-- ==== Sys2Proof/Machine/Meter.lean ====
section
/-! DEFINITION. MU, the Meter Unit (chapter 4): side class, toner demand, sheet cost and scan charge, each computed
from the settings in force. -/

namespace Sys2Proof.Machine

/-- R70: LARGE where the area is above 650. -/
def isLarge (area : Nat) : Bool := area > 650

/-- R72: the class of a page from its coverage. -/
def classifyPage (threshold : Nat) (coverage : Planes) : SideClass :=
  if max coverage.c (max coverage.m coverage.y) ≥ threshold then .colour else .mono

/-- R72: the coverage stored with the class. -/
def storedCoverage (cls : SideClass) (coverage : Planes) : Planes :=
  match cls with
  | .mono => { k := coverage.k, c := 0, m := 0, y := 0 }
  | .colour => coverage

/-- R73: the class of a side runs the plane and requires the slot. -/
def sideRuns (cls : SideClass) (i : Fin 4) : Bool :=
  match cls with
  | .mono => i = 0
  | .colour => true

/-- R73: the slots a sheet requires: the union of those of its sides. -/
def requiredSlots (sides : List Side) : List (Fin 4) :=
  cartSlots.filter fun i => sides.any fun side => match side with
    | .blank => false
    | .page _ cls => sideRuns cls i

/-- A sheet has a COLOUR side. -/
def hasColour (sides : List Side) : Bool :=
  sides.any fun side => match side with
    | .blank => false
    | .page _ cls => cls = .colour

/-- The number of sides that carry an image. -/
def imageSides (sides : List Side) : Nat := sides.countP (· != .blank)

/-- The number of sides of a class. -/
def sidesOfClass (cls : SideClass) (sides : List Side) : Nat :=
  sides.countP fun side => match side with
    | .blank => false
    | .page _ c => c = cls

/-- R74: a side's demand on a plane it runs: c × A × k / 10000, rounded up, plus the idle loss. -/
def planeDemand (coverage area density idleLoss : Nat) : Nat := (coverage * area * density + 9999) / 10000 + idleLoss

/-- R74: a side's demand on a plane. -/
def sideDemand (j : Job) (area density idleLoss : Nat) (i : Fin 4) (side : Side) : Nat :=
  match side with
  | .blank => 0
  | .page number cls =>
    if sideRuns cls i then
      match pageEntry j number with
      | some e => planeDemand (planeOf e.coverage i) area density idleLoss
      | none => 0
    else 0

/-- R77: the side cost of a page. -/
def sideCost (p : PriceSettings) (area : Nat) (cls : SideClass) (coverage : Planes) : Nat :=
  let price := match isLarge area, cls with
    | false, .mono => p.stdMono
    | false, .colour => p.stdColour
    | true, .mono => p.largeMono
    | true, .colour => p.largeColour
  let sum := coverage.k + coverage.c + coverage.m + coverage.y
  min (price + if sum > p.heavyThreshold then p.heavySurcharge else 0) 10000

/-- R77: the side cost of a side; a blank side costs 0. -/
def costOfSide (p : PriceSettings) (j : Job) (area : Nat) (side : Side) : Nat :=
  match side with
  | .blank => 0
  | .page number cls =>
    match pageEntry j number with
    | some e => sideCost p area cls e.coverage
    | none => 0

/-- R78: the cost of a back side from its side cost. -/
def backCost (duplexPct cost : Nat) : Nat := (cost * duplexPct + 50) / 100

/-- R78: the sheet cost from the side costs by their places. -/
def sheetCost (p : PriceSettings) (j : Job) (area : Nat) (sides : List Side) : Nat :=
  match sides with
  | [] => 0
  | front :: backs => costOfSide p j area front + (backs.map fun b => backCost p.duplexPct (costOfSide p j area b)).sum

/-- R75: the density MU uses for a plane: that of the slot record, or 255. -/
def densityOf (c : Cartridges) (i : Fin 4) : Nat := ((c.slots.get i).figures.map (·.density)).getD 255

/-- The media entry of a code. -/
def mediaOf (g : Settings) (code : Nat) : MediaEntry := g.media.getD code {}

/-- R79: the figures of a sheet at its staging. -/
def sheetFigures (s : State) (j : Job) (sides : List Side) : Figures :=
  let media := mediaOf s.settings j.media
  { demand := planesOf fun i =>
      (sides.map (sideDemand j media.area (densityOf s.cbc i) s.settings.meter.idleLoss i)).sum
    cost := sheetCost s.settings.price j media.area sides
    transit := media.transit }

/-- R80: what a scan charge takes of the amount due. -/
def scanTaken (due : Nat) (available : Int) : Nat := min due available.toNat

end Sys2Proof.Machine
end

