-- ==== Sys2Proof/Machine/Spool.lean ====
section
/-! DEFINITION. SMC and SE (chapters 6 and 8): remapping, retirement, the states of a block, the place of a band, the
entries of the port, and the leaving of the scrub list. -/

namespace Sys2Proof.Machine

/-- A number joins an ascending list without duplicates. -/
def insertNumber (n : Nat) : List Nat → List Nat
  | [] => [n]
  | m :: rest => if n < m then n :: m :: rest else if n = m then m :: rest else m :: insertNumber n rest

/-! ### Spares and retirement (section 6.1, 6.2) -/

/-- The spare a logical block is paired with. -/
def spareOf (d : Defects) (block : Nat) : Option Nat := (d.remap.find? (·.1 == block)).map (·.2)

/-- R110: the physical block a logical block resolves to. -/
def resolve (d : Defects) (block : Nat) : Nat := (spareOf d block).getD block

/-- The number of unused spares. -/
def unusedSpares (d : Defects) : Nat := Config.spareBlocks - d.remap.length

/-- R111: the lowest-numbered unused spare. -/
def lowestSpare (d : Defects) : Option Nat :=
  ((List.range Config.spareBlocks).map (Config.logicalBlocks + ·)).find? fun p => !(d.remap.any (·.2 == p))

/-- R111: a remap is taken, or refused where the block has an entry or no spare remains. -/
def remapBlock (block : Nat) (s : State) : Option State :=
  match spareOf s.smc.defects block, lowestSpare s.smc.defects with
  | none, some spare =>
    let d := { s.smc.defects with remap := s.smc.defects.remap ++ [(block, spare)] }
    let t := setDefects d s
    let left := unusedSpares d
    some (if left = 128 ∨ left = 16 ∨ left = 0 then raiseNote (.sparesLow left) t else t)
  | _, _ => none

/-- A block's band map is forgotten as the block leaves ALLOCATED. -/
def dropBandMap (block : Nat) (m : SpoolMedia) : SpoolMedia :=
  { m with bandMaps := m.bandMaps.filter (·.1 != block) }

/-- R112: a block is retired, with its note. It has left the collection it was in. -/
def retireBlock (cause : RetireCause) (block : Nat) (s : State) : State :=
  let s := setDefects { s.smc.defects with retired := insertNumber block s.smc.defects.retired } s
  raiseNote (.blockRetired block cause)
    { s with smc := { dropBandMap block s.smc with weak := s.smc.weak.erase block } }

/-- The job whose extent list holds a block. -/
def ownerOfBlock (jt : JobTable) (block : Nat) : Option Nat :=
  ((allJobs jt).find? fun j => j.extents.any fun e => e.first ≤ block && block < e.first + e.count).map (·.handle)

/-- R112: the state of a logical block, from the collection it is in. -/
def blockState (s : State) (block : Nat) : BlockState :=
  if block ∈ s.smc.defects.retired then .retired
  else if block ∈ s.smc.free then .clean
  else if s.se.list.any (·.block == block) then .dirty
  else if (ownerOfBlock s.jt block).isSome then .allocated
  else .dirty

/-- R115, R113: the head of the free list is taken for a job and its clean-map entry is cleared. -/
def takeFree (s : State) : Option (Nat × State) :=
  match s.smc.free with
  | [] => none
  | b :: rest =>
    some (b, setDefects { s.smc.defects with clean := s.smc.defects.clean.erase b }
               { s with smc := { s.smc with free := rest } })

/-- The origin of a block's mark. -/
def markOf (m : SpoolMedia) (block : Nat) : Option MarkOrigin := (m.marked.find? (·.1 == block)).map (·.2)

/-- A block is marked; one already marked keeps its first origin (R125). -/
def markBlock (origin : MarkOrigin) (block : Nat) (m : SpoolMedia) : SpoolMedia :=
  if (markOf m block).isSome then m else { m with marked := m.marked ++ [(block, origin)] }

/-- A block's mark is cleared. -/
def clearMark (block : Nat) (m : SpoolMedia) : SpoolMedia := { m with marked := m.marked.filter (·.1 != block) }

/-! ### Where a band lies (R121) -/

/-- The band map of a block. -/
def bandMapOf (m : SpoolMedia) (block : Nat) : List BandEntry :=
  ((m.bandMaps.find? (·.1 == block)).map (·.2)).getD []

/-- A band-map entry is added for a band that begins in a block (R116). -/
def addBandEntry (block : Nat) (e : BandEntry) (m : SpoolMedia) : SpoolMedia :=
  { dropBandMap block m with bandMaps := (dropBandMap block m).bandMaps ++ [(block, bandMapOf m block ++ [e])] }

/-- The offset of a location counted over the whole job: all the bytes of the extents before it, and the offset. -/
def linearOf (extents : List Extent) (extent offset : Nat) : Nat :=
  ((extents.take extent).map (·.count)).sum * Config.blockBytes + offset

/-- The location (extent index, offset) of an offset counted over the whole job. -/
def locationOf : List Extent → Nat → Nat × Nat
  | [], n => (0, n)
  | e :: rest, n =>
    if n < e.count * Config.blockBytes then (0, n)
    else
      let (i, o) := locationOf rest (n - e.count * Config.blockBytes)
      (i + 1, o)

/-- The blocks from the one that holds a byte on, with the offset in the first. -/
def blocksFrom (extents : List Extent) (n : Nat) : List Nat × Nat :=
  ((extentBlocks extents).drop (n / Config.blockBytes), n % Config.blockBytes)

/-- R121: the band that begins at an offset of the first of some blocks, or at byte 0 of the next. -/
def bandAt (m : SpoolMedia) (blocks : List Nat) (offset : Nat) : Option (List Nat × BandEntry) :=
  match blocks with
  | [] => none
  | b :: rest =>
    match (bandMapOf m b).find? (·.offset == offset) with
    | some e => some (blocks, e)
    | none =>
      match rest with
      | [] => none
      | b2 :: _ => ((bandMapOf m b2).find? (·.offset == 0)).map fun e => (rest, e)

/-- R121: from the blocks and the band of one index, n bands further on. -/
def laterBand (m : SpoolMedia) : Nat → List Nat × BandEntry → Option (List Nat × BandEntry)
  | 0, at_ => some at_
  | n + 1, (blocks, e) =>
    let end_ := e.offset + e.length
    match bandAt m (blocks.drop (end_ / Config.blockBytes)) (end_ % Config.blockBytes) with
    | some next => laterBand m n next
    | none => none

/-- R121: the place of a band of a page of a job. -/
def placeOf (m : SpoolMedia) (j : Job) (page index : Nat) : Option BandPlace :=
  match pageEntry j page with
  | none => none
  | some p =>
    let (blocks, offset) := blocksFrom j.extents (linearOf j.extents p.extent p.offset)
    match (bandAt m blocks offset).bind (laterBand m (index - 1)) with
    | some (b :: rest, e) =>
      some { block := b, offset := e.offset, length := e.length,
             next := if e.offset + e.length > Config.blockBytes then rest.head? else none }
    | _ => none

/-- The blocks a band occupies, the one in which it begins first. -/
def placeBlocks (p : BandPlace) : List Nat := p.block :: p.next.toList

/-- The block of each codeword the band occupies, in block and offset order (R122). -/
def placeCodewords (p : BandPlace) : List Nat :=
  let inFirst := min p.length (Config.blockBytes - p.offset)
  let first := (p.offset + inFirst - 1) / Config.codewordBytes + 1 - p.offset / Config.codewordBytes
  let second := (p.length - inFirst + Config.codewordBytes - 1) / Config.codewordBytes
  List.replicate first p.block ++ (p.next.map fun b => List.replicate second b).getD []

/-- The block is that of a buffer image (R121). -/
def inBuffer (m : SpoolMedia) (block : Nat) : Bool :=
  m.filling.any (·.block == block) || m.programming.any (·.block == block)

/-! ### The port's waiting operations (R126) -/

/-- R126: the class of an operation. -/
def classOf : PortOp → Nat
  | .read _ => 1
  | .program _ _ _ => 2
  | .erase _ => 3
  | .verify _ => 3

/-- The class of the operation in flight. -/
def flightClass : PortFlight → Nat
  | .read _ _ _ _ _ => 1
  | .program _ _ _ _ => 2
  | .erase _ _ => 3
  | .verify _ _ => 3

/-- An operation is entered at the port. -/
def enterOp (op : PortOp) (s : State) : State := { s with smc := { s.smc with ops := s.smc.ops ++ [op] } }

/-- The reads of a reader are given up: those waiting are withdrawn and one in flight is marked so that its data are
discarded (R55, R122, log 17). -/
def dropReads (r : Reader) (m : SpoolMedia) : SpoolMedia :=
  { m with
    ops := m.ops.filter fun op => match op with
      | .read q => q.reader != r
      | _ => true
    inFlight := m.inFlight.map fun f => match f with
      | .read q place physical retries weak =>
        if q.reader = r then .read { q with dropped := true } place physical retries weak else f
      | other => other }

/-- R57, R55: SPM discards every staging entry. -/
def discardStaging (s : State) : State :=
  { s with spm := { s.spm with staging := [] }, smc := dropReads .staging s.smc }

/-- Whether a waiting operation may start (R126, R121, R150). -/
def eligible (s : State) : PortOp → Bool
  | .read q =>
    match (jobOf s.jt q.handle).bind (fun j => placeOf s.smc j q.page q.index) with
    | some p => !((placeBlocks p).any (inBuffer s.smc))
    | none => false
  | .program _ _ _ => true
  | .erase _ => s.spm.supply.level != some false
  | .verify _ => true

/-- R126: the eligible operation of the lowest class number, the one entered first within it. -/
def chooseOp (s : State) : Option PortOp :=
  let ready := s.smc.ops.filter (eligible s)
  (ready.find? (classOf · = 1)).orElse fun _ =>
    (ready.find? (classOf · = 2)).orElse fun _ => ready.find? (classOf · = 3)

/-! ### The scrub list (chapter 8) -/

/-- R6: the job slot becomes FREE, and the last report of the handle is made. -/
def freeSlot (handle : Nat) (s : State) : State :=
  match jobOf s.jt handle with
  | some j =>
    match j.state with
    | .scrub outcome =>
      let i := slotOf handle
      let slot : JobSlot := { generation := ((s.jt.slots.get i).generation + 1) % 256, job := none }
      emit (.jobState i { handle := handle, stage := .freed outcome, tallies := none })
        { s with jt := { s.jt with slots := s.jt.slots.set i slot } }
    | _ => s
  | none => s

/-- R143: whether entries of a job are still on the scrub list. -/
def jobOnScrub (se : ScrubEngine) (handle : Nat) : Bool := se.list.any (·.origin == .job handle)

/-- R143: SE reports to JT where a job has no block left on the list; while HALTED it makes no report (R151). -/
def reportScrubbed (handle : Nat) (s : State) : State :=
  if s.fm.part = .running && !jobOnScrub s.se handle then freeSlot handle s else s

/-- An entry leaves the scrub list, with its count of R143. -/
def leaveScrub (block : Nat) (s : State) : State :=
  match s.se.list.find? (·.block == block) with
  | none => s
  | some e =>
    let t := { s with se := { s.se with list := s.se.list.filter (·.block != block) } }
    match e.origin with
    | .job handle => reportScrubbed handle t
    | .sweep => t
    | .sanitize => t

/-- R154: a block retired during a sanitize is counted. -/
def countRetired (s : State) : State :=
  { s with se := { s.se with sanitize := s.se.sanitize.map fun z => { z with retired := z.retired + 1 } } }

/-- R154: a block returned CLEAN during a sanitize is counted. -/
def countReturned (s : State) : State :=
  { s with se := { s.se with sanitize := s.se.sanitize.map fun z => { z with returned := z.returned + 1 } } }

/-- R146, R147, R148: a block of the scrub list is retired and leaves it. -/
def retireScrubbed (cause : RetireCause) (block : Nat) (s : State) : State :=
  leaveScrub block (countRetired (retireBlock cause block s))

end Sys2Proof.Machine
end

