-- ==== Sys2Proof/Machine/Queues.lean ====
section
/-! DEFINITION. JT: queues, stalls and requeues (sections 1.3 and 1.4) and the sheet sequence of a job (R8). -/

namespace Sys2Proof.Machine

/-- A job leaves its destination's queue. -/
def unqueue (j : Job) (s : State) : State :=
  let d := destinationOf j.kind
  let q := queueOf s.jt d
  { s with jt := putQueue d { q with waiting := q.waiting.erase j.handle } s.jt }

/-- A job leaves ACTIVE: its destination has no ACTIVE job, and its staged sheets or its export reading are discarded
(R7, R28). A band that is going out when the job leaves ACTIVE by a close other than a cancel is dropped at once, and the next
EXPORT job may begin within the event (DESIGN CHOICE, log 57). -/
def leaveActive (j : Job) (s : State) : State :=
  let d := destinationOf j.kind
  let s := { s with jt := putQueue d { queueOf s.jt d with active := none } s.jt }
  match d with
  | .engine => discardStaging s
  | .exporter => { s with jt := { s.jt with exportPhase := .idle }, smc := dropReads .exporter s.smc }

/-- The job leaves its queue where it is QUEUED, or ACTIVE where it is ACTIVE. -/
def leavePlace (j : Job) (s : State) : State :=
  match j.state with
  | .queued => unqueue j s
  | .active => leaveActive j s
  | _ => s

/-- R7: the job goes to the tail of its destination's queue. -/
def queueTail (j : Job) (s : State) : State :=
  let d := destinationOf j.kind
  let q := queueOf s.jt d
  moveJob { j with state := .queued } { s with jt := putQueue d { q with waiting := q.waiting ++ [j.handle] } s.jt }

/-- R7: the job goes to the head of its destination's queue. -/
def queueHead (j : Job) (s : State) : State :=
  let d := destinationOf j.kind
  let q := queueOf s.jt d
  moveJob { j with state := .queued } { s with jt := putQueue d { q with waiting := j.handle :: q.waiting } s.jt }

/-- The job enters STALLED with a cause, at stall time now (R10). -/
def stallJob (cause : StallCause) (j : Job) (s : State) : State :=
  moveJob { j with state := .stalled cause (nowMs s) s.jt.stallSeq } { s with jt := { s.jt with stallSeq := s.jt.stallSeq + 1 } }

/-- R10: the ACTIVE job is stalled with a cause, its next sheet index at the sheet or page that could not be had. -/
def stallActive (cause : StallCause) (handle next : Nat) (s : State) : State :=
  match jobOf s.jt handle with
  | some j => if j.state = .active then stallJob cause { j with nextSheet := next } (leaveActive j s) else s
  | none => s

/-- The stall time and order of a stalled job (R11). -/
def stallKey (j : Job) : Nat × Nat :=
  match j.state with
  | .stalled _ time order => (time, order)
  | _ => (0, 0)

/-- A job joins a list in ascending order of stall time, and of order within it. -/
def insertByStall (j : Job) : List Job → List Job
  | [] => [j]
  | k :: rest =>
    if (stallKey j).1 < (stallKey k).1 ∨ ((stallKey j).1 = (stallKey k).1 ∧ (stallKey j).2 ≤ (stallKey k).2) then j :: k :: rest
    else k :: insertByStall j rest

/-- R11: the jobs a report names go to the tail of the ENGINE queue in order of their stalls. -/
def requeue (p : Job → Bool) (s : State) : State :=
  (((allJobs s.jt).filter p).foldr insertByStall []).foldl (fun s j => queueTail j s) s

/-- The job is stalled with a cause. -/
def stalledWith (cause : StallCause) (j : Job) : Bool :=
  match j.state with
  | .stalled c _ _ => c = cause
  | _ => false

/-- R11: an owner's available credits rose. -/
def creditRose (owner : Nat) (s : State) : State := requeue (fun j => j.owner == owner && stalledWith .credit j) s

/-- R11: an owner's standing returned to ACTIVE, or the owner gained the colour right. -/
def barrierGone (owner : Nat) (s : State) : State := requeue (fun j => j.owner == owner && stalledWith .account j) s

/-- R11: a cartridge slot became usable. -/
def supplyCame (s : State) : State := requeue (stalledWith .supply) s

/-! ### The sheets of a job (R8) -/

/-- The page of a directory is not SKIPPED. -/
def pageKept (j : Job) (page : Nat) : Bool := (pageEntry j page).any fun e => !e.skipped

/-- One side: the page with its class, or blank where there is no such page or it is SKIPPED (R56). -/
def sideOf (j : Job) (page : Nat) : Side :=
  if pageKept j page then
    match (pageEntry j page).bind (·.cls) with
    | some c => .page page c
    | none => .blank
  else .blank

/-- The sheets of one copy. -/
def sheetsPerCopy (j : Job) : Nat := if j.duplex then (j.pages.length + 1) / 2 else j.pages.length

/-- R8: the number of sheets of the whole sequence. -/
def sheetCount (j : Job) : Nat := j.copies * sheetsPerCopy j

/-- R8, R56: the sides of a sheet. -/
def sidesOf (j : Job) (index : Nat) : List Side :=
  let i := index % sheetsPerCopy j
  if j.duplex then [sideOf j (2 * i + 1), sideOf j (2 * i + 2)] else [sideOf j (i + 1)]

/-- R8: a sheet whose every page side is SKIPPED is omitted. -/
def omitted (j : Job) (index : Nat) : Bool := (sidesOf j index).all (· == .blank)

/-- R8: the first sheet not omitted among n from an index on. -/
def firstSheet (j : Job) : Nat → Nat → Option Nat
  | 0, _ => none
  | n + 1, index => if omitted j index then firstSheet j n (index + 1) else some index

/-- R8: the first sheet not omitted at or after an index. A sheet not omitted recurs in every copy, so one copy's worth
of sheets is enough to look through. -/
def sheetFrom (j : Job) (index : Nat) : Option Nat :=
  firstSheet j (min (sheetsPerCopy j) (sheetCount j - index)) index

/-- R27: the first page not SKIPPED at or after a page index. -/
def exportPageFrom (j : Job) (index : Nat) : Option Nat :=
  ((List.range (j.pages.length - index)).map (index + · + 1)).find? (pageKept j)

end Sys2Proof.Machine
end

