-- ==== Sys2Proof/Machine/Cartridge.lean ====
section
/-! DEFINITION. CBC (chapter 5): slot records, the bus work list, the history table, deduction and write-back, and
the completion of an authentication. -/

namespace Sys2Proof.Machine

/-! ### Slots and the work list -/

/-- A slot record. -/
def slotRecord (s : State) (i : Fin 4) : CartSlot := s.cbc.slots.get i

/-- A slot record is replaced. -/
def putSlot (i : Fin 4) (c : CartSlot) (s : State) : State :=
  { s with cbc := { s.cbc with slots := s.cbc.slots.set i c } }

/-- Section 5.4: the slot holds a verified cartridge. -/
def holdsVerified (c : CartSlot) : Bool :=
  match c.verification with
  | .genuine => true
  | .suspect _ => true
  | _ => false

/-- R91: the slot is usable under a policy. -/
def usable (allow : Bool) (c : CartSlot) : Bool :=
  (match c.verification with
    | .genuine => true
    | .suspect _ => allow
    | _ => false) && c.level.any fun l => l.cls != .exhausted

/-- R108: the content of a CART_STATE notice. -/
def cartContent (i : Fin 4) (c : CartSlot) : CartNotice :=
  { slot := i, verification := c.verification, cls := c.level.map (·.cls), serial := c.serial,
    mirror := c.level.map (·.mirror), pending := c.level.map (·.pending) }

/-- CBC emits a CART_STATE notice for a slot. -/
def askCartState (i : Fin 4) (s : State) : State := emit (.cartState (cartContent i (slotRecord s i))) s

/-- R86: an item joins the tail of the work list, merged where one of its kind is queued for the slot; none is queued
while HALTED (R165). -/
def queueItem (item : WorkItem) (s : State) : State :=
  if s.fm.part = .halted || s.cbc.work.contains item then s
  else { s with cbc := { s.cbc with work := s.cbc.work ++ [item] } }

/-- R104, R109: a RESYNC followed by AUTH items for K, C, M and Y. -/
def queueAll (s : State) : State :=
  cartSlots.foldl (fun s i => queueItem (.auth i) s) (queueItem .resync s)

/-- The item in flight ends without a count, and the work list is emptied (R103, R165, R177). -/
def clearBus (s : State) : State := { s with cbc := { s.cbc with flight := none, work := [] } }

/-- The bus is idle again: the item in flight has ended. -/
def endFlight (s : State) : State := { s with cbc := { s.cbc with flight := none } }

/-! ### Levels -/

/-- R90: the level class of a mirror. -/
def levelClass (mirror full lowMarkPct : Nat) : LevelClass :=
  if mirror = 0 then .exhausted else if mirror ≤ full * lowMarkPct / 100 then .low else .ok

/-- R99: the write-back threshold. -/
def writeBackMark (full writebackPct : Nat) : Nat := max 1 (full * writebackPct / 100)

/-- The full level of a slot; 0 where it holds none. -/
def fullOf (c : CartSlot) : Nat := (c.figures.map (·.full)).getD 0

/-- R90: the slot's level with its class formed anew. -/
def formLevel (lowMarkPct mirror pending : Nat) (c : CartSlot) : CartSlot :=
  { c with level := some { mirror := mirror, pending := pending, cls := levelClass mirror (fullOf c) lowMarkPct } }

/-- The class of a slot's level. -/
def classOfSlot (c : CartSlot) : Option LevelClass := c.level.map (·.cls)

/-- R99: a write-back that is due with a pending deduction above 0 is queued. exhausted says that the level class has
just become EXHAUSTED. -/
def writeBackTest (i : Fin 4) (exhausted : Bool) (s : State) : State :=
  let c := slotRecord s i
  match c.level with
  | some l =>
    if holdsVerified c && l.pending > 0
        && (exhausted || l.pending ≥ writeBackMark (fullOf c) s.settings.meter.writebackPct) then
      queueItem (.writeBack i) s
    else s
  | none => s

/-- R90: the slot takes a mirror and a pending deduction; a change of class is notified and one into EXHAUSTED queues
the slot's write-back, with the test of R99. -/
def changeLevel (i : Fin 4) (mirror pending : Nat) (s : State) : State :=
  let before := classOfSlot (slotRecord s i)
  let c := formLevel s.settings.meter.lowMarkPct mirror pending (slotRecord s i)
  let s := putSlot i c s
  let s := if classOfSlot c = before then s else askCartState i s
  writeBackTest i (classOfSlot c == some .exhausted && before != some .exhausted) s

/-! ### The history table (section 5.6) -/

/-- The history entry of a serial. -/
def historyOf (c : Cartridges) (serial : Serial) : Option HistoryEntry := c.history.find? (·.serial == serial)

/-- The serials the slot records hold. -/
def heldSerials (c : Cartridges) : List Serial := cartSlots.filterMap fun i => (c.slots.get i).serial

/-- R96: the least recently seen entry whose serial no slot record holds leaves the table. -/
def dropLastUnheld (held : List Serial) : List HistoryEntry → List HistoryEntry
  | [] => []
  | e :: rest =>
    if rest.any (fun f => !(held.contains f.serial)) then e :: dropLastUnheld held rest
    else if held.contains e.serial then e :: rest else rest

/-- R96: an entry is created or updated and moves to the front. -/
def putHistory (held : List Serial) (e : HistoryEntry) (entries : List HistoryEntry) : List HistoryEntry :=
  if entries.any (·.serial == e.serial) then e :: entries.filter (·.serial != e.serial)
  else e :: (if entries.length ≥ Config.historyEntries then dropLastUnheld held entries else entries)

/-- Section 5.6: each change of the history table or of the lifetime count is written to HISTORY; what leaves both as they
stood is no change, and writes nothing. -/
def changeHistory (entries : List HistoryEntry) (lifetime : Nat) (s : State) : State :=
  if entries = s.cbc.history ∧ lifetime = s.cbc.lifetime then s else setHistory entries lifetime s

/-- R96: the history entry of the slot's serial takes the slot's figures; suspect sets the flag. -/
def updateHistory (i : Fin 4) (suspect : Bool) (s : State) : State :=
  let c := slotRecord s i
  match c.serial, c.level with
  | some serial, some l =>
    let flag := suspect || ((historyOf s.cbc serial).map (·.suspect)).getD false
    let e : HistoryEntry :=
      { serial := serial, family := c.family.getD 0, colour := i, level := l.mirror, pending := l.pending,
        lastSeen := s.cbc.lifetime, suspect := flag }
    changeHistory (putHistory (heldSerials s.cbc) e s.cbc.history) s.cbc.lifetime s
  | _, _ => s

/-! ### Verification -/

/-- The CART_SUSPECT or CART_REJECTED note of a slot (R89). -/
def verificationNote (i : Fin 4) (c : CartSlot) : Option Note :=
  match c.verification with
  | .suspect r => some (.cartSuspect i c.serial r)
  | .rejected r => some (.cartRejected i c.serial r)
  | _ => none

/-- R89: the slot's verification becomes v, with its CART_STATE notice, and its note where it changed. The notice stands before
the note (DESIGN CHOICE, log 58). -/
def setVerification (i : Fin 4) (v : Verification) (s : State) : State :=
  let old := (slotRecord s i).verification
  let c := { slotRecord s i with verification := v }
  let s := askCartState i (putSlot i c s)
  if old = v then s
  else match verificationNote i c with
    | some n => raiseNote n s
    | none => s

/-- R95: the slot loses its density and full level, and the removal is reported to MU (R75, R83). -/
def dropFigures (i : Fin 4) (s : State) : State :=
  if (slotRecord s i).figures.isSome then discardStaging (putSlot i { slotRecord s i with figures := none } s) else s

/-- R95: the slot ceases to hold a verified cartridge where it holds one. -/
def ceaseVerified (i : Fin 4) (s : State) : State :=
  if holdsVerified (slotRecord s i) then
    let s := updateHistory i false s
    let s := { s with cbc := { s.cbc with work := s.cbc.work.filter (· != .writeBack i) } }
    putSlot i { slotRecord s i with level := none, drawing := [] } s
  else s

/-- R95, R92: the slot ends EMPTY, REJECTED or COMM_FAIL. -/
def endUnverified (i : Fin 4) (v : Verification) (s : State) : State :=
  setVerification i v (dropFigures i (ceaseVerified i s))

/-! ### Deduction (section 5.7) -/

/-- R97: the deduction of one plane at a sheet's entry. -/
def deductPlane (handle : Nat) (demand : Planes) (s : State) (i : Fin 4) : State :=
  let c := slotRecord s i
  let t := planeOf demand i
  match c.level with
  | some l =>
    if t > 0 && holdsVerified c then
      let d := min t l.mirror
      let drawing := if c.drawing.contains handle then c.drawing else c.drawing ++ [handle]
      let s := putSlot i { c with drawing := drawing, level := some { l with mirror := l.mirror - d, pending := l.pending + d } } s
      changeLevel i (l.mirror - d) (l.pending + d) (updateHistory i false s)
    else s
  | none => s

/-- R98: a slot due for re-authentication queues its AUTH. -/
def reauthTest (s : State) (i : Fin 4) : State :=
  if holdsVerified (slotRecord s i) && (slotRecord s i).sheetsSince ≥ s.settings.meter.reauthInterval then
    queueItem (.auth i) s
  else s

/-- R98: a required slot counts a sheet. -/
def countSheet (s : State) (i : Fin 4) : State :=
  reauthTest (putSlot i { slotRecord s i with sheetsSince := satAdd (slotRecord s i).sheetsSince 1 65535 } s) i

/-- R97, R98: CBC takes the entry of a sheet: the lifetime count (before the deductions that stamp history entries with it:
DESIGN CHOICE, log 56), the deductions with their write-backs in the order K, C, M, Y, then the counts with the AUTH items
they make due, after the write-backs and from K to Y (DESIGN CHOICE, log 50). -/
def enterCartridges (sh : Sheet) (s : State) : State :=
  let s := changeHistory s.cbc.history (satAdd s.cbc.lifetime 1 Config.counterMax) s
  let s := cartSlots.foldl (deductPlane sh.handle sh.demand) s
  (requiredSlots sh.sides).foldl countSheet s

/-- R99: JT's report that a job has closed, from DRAINING or not; the write-backs join the list in the order K, C, M, Y
(DESIGN CHOICE, log 50). The closes of a halt take the handles out of the drawing lists too (DESIGN CHOICE, log 53). -/
def jobClosed (handle : Nat) (wasDraining : Bool) (s : State) : State :=
  cartSlots.foldl (fun s i =>
    let c := slotRecord s i
    if c.drawing.contains handle then
      let s := putSlot i { c with drawing := c.drawing.erase handle } s
      if wasDraining && holdsVerified c && c.level.any (·.pending > 0) then queueItem (.writeBack i) s else s
    else s) s

/-! ### Records (R88) -/

/-- The serial of a record. -/
def recordSerial (record : List Byte) : Serial := BitVec.ofNat 64 (beValue (slice record 4 8))

/-- R88: the full level of a record: the low 24 bits of bytes 12 to 15. -/
def recordFull (record : List Byte) : Nat := leValue (slice record 12 3)

/-- R88: the reported level of a record. -/
def recordLevel (record : List Byte) : Nat := min (leValue (slice record 16 4)) (recordFull record)

/-- A byte of a record as a number. -/
def recordByte (record : List Byte) (i : Nat) : Nat := (record.getD i 0).toNat

/-- R88: the record can be used. -/
def recordUsable (record : List Byte) : Bool :=
  recordByte record 0 = 1 && recordByte record 1 ≤ 3 && recordByte record 3 != 0

/-- R88: the record's own check word. -/
def recordCheck (record : List Byte) : Nat := leValue (slice record 20 2)

/-- The family key loaded for a family. -/
def familyKey (k : KeysContent) (family : Nat) : Option Key :=
  if h : family < 4 then k.family.get ⟨family, h⟩ else none

/-- The serial and family read are kept in the slot record, and the AUTH ends without a failed transaction (R85, R92). -/
def keepRead (i : Fin 4) (record : List Byte) (s : State) : State :=
  putSlot i { slotRecord s i with serial := some (recordSerial record), family := some (recordByte record 1), failures := 0 } s

/-- R92: an AUTH that ends REJECTED. -/
def rejectRead (i : Fin 4) (reason : RejectReason) (record : List Byte) (s : State) : State :=
  setVerification i (.rejected reason) (keepRead i record (dropFigures i (ceaseVerified i s)))

/-- R93: the result of an AUTH whose tag matched, from the record and the history entry. -/
def authResult (record : List Byte) (h : Option HistoryEntry) : Verification :=
  if checkWord record ≠ recordCheck record then .suspect .checksum
  else match h with
    | some e => if e.suspect || recordLevel record > e.level + e.pending then .suspect .levelRise else .genuine
    | none => .genuine

/-- R93: the mirror of an AUTH whose tag matched. -/
def authMirror (record : List Byte) (h : Option HistoryEntry) : Nat :=
  match h with
  | some e => min (recordLevel record) e.level
  | none => recordLevel record

/-- R93, R95: the completion of an AUTH whose tag matched. -/
def completeAuth (i : Fin 4) (record : List Byte) (s : State) : State :=
  let old := slotRecord s i
  let serial := recordSerial record
  let h := historyOf s.cbc serial
  let result := authResult record h
  let mirror := authMirror record h
  let wasUsable := usable s.settings.allow old
  let c : CartSlot :=
    { old with
      serial := some serial
      family := some (recordByte record 1)
      figures := some { density := recordByte record 3, full := recordFull record }
      sheetsSince := 0
      failures := 0
      drawing := if old.serial = some serial then old.drawing else [] }
  let c := formLevel s.settings.meter.lowMarkPct mirror (recordLevel record - mirror) c
  let s := updateHistory i (result == .suspect .levelRise) (putSlot i c s)
  let s := if old.figures.map (·.density) = some (recordByte record 3) then s else discardStaging s
  let s := setVerification i result s
  let s := writeBackTest i (classOfSlot c == some .exhausted && classOfSlot old != some .exhausted) s
  if !wasUsable && usable s.settings.allow (slotRecord s i) then supplyCame s else s

/-- R102: the figures after a DECREMENT reply of a level already reduced to the full level. -/
def settleWriteBack (mirror pending amount level : Nat) : Nat × Nat :=
  let pending := min (pending - amount) level
  (min mirror (level - pending), pending)

/-- R102: a DECREMENT reply whose tag matched. -/
def completeWriteBack (i : Fin 4) (amount level : Nat) (s : State) : State :=
  let c := slotRecord s i
  match c.level with
  | some l =>
    let (mirror, pending) := settleWriteBack l.mirror l.pending amount (min level (fullOf c))
    let drawing := if pending = 0 then [] else c.drawing
    let s := putSlot i { c with drawing := drawing, level := some { l with mirror := mirror, pending := pending } } s
    changeLevel i mirror pending (updateHistory i false s)
  | none => s

/-- R87: a failed transaction of an AUTH or WRITE_BACK item. A failed CHALLENGE leaves the serial and family the slot had before
the record was read (DESIGN CHOICE, log 69). -/
def failTransaction (i : Fin 4) (item : WorkItem) (s : State) : State :=
  let failures := (slotRecord s i).failures + 1
  let s := putSlot i { slotRecord s i with failures := failures } (endFlight s)
  if failures < 3 then queueItem item s
  else
    let s := endUnverified i .commFail s
    { s with cbc := { s.cbc with work := s.cbc.work.filter fun w => w != .auth i && w != .writeBack i } }

/-! ### Door (section 5.9) and wipe -/

/-- A slot becomes UNVERIFIED with its failures at 0. -/
def unverify (s : State) (i : Fin 4) : State :=
  let s := ceaseVerified i s
  setVerification i .unverified (putSlot i { slotRecord s i with failures := 0 } s)

/-- R103: CBC at a door opening, slot by slot in the order K, C, M, Y (DESIGN CHOICE, log 50). -/
def cartridgesDoorOpen (s : State) : State := cartSlots.foldl unverify (clearBus s)

/-- R177: CBC at an accepted STORE_WIPE, slot by slot in the order K, C, M, Y (DESIGN CHOICE, log 50). -/
def cartridgesWipe (s : State) : State :=
  let s := cartSlots.foldl (fun s i =>
    if holdsVerified (slotRecord s i) then unverify (dropFigures i (ceaseVerified i s)) i
    else putSlot i { slotRecord s i with failures := 0 } s) (clearBus s)
  let s := setHistory [] 0 s
  if s.spm.doorOpen then s else queueAll s

end Sys2Proof.Machine
end

