-- ==== Sys2Proof/Machine/Ledger.lean ====
section
/-! DEFINITION. AT, the Account Table (chapter 2): finding and changing a record, reservations, charges, releases and
scan charges. Each change is written to ACCOUNTS (R30). -/

namespace Sys2Proof.Machine

/-- The record of an ID. -/
def findAccount (id : Nat) (table : List Account) : Option Account := table.find? (·.id == id)

/-- A record joins the table at its place in ID order (R29). -/
def insertAccount (a : Account) : List Account → List Account
  | [] => [a]
  | b :: rest => if a.id < b.id then a :: b :: rest else b :: insertAccount a rest

/-- The record of an ID is changed. -/
def changeAccount (id : Nat) (f : Account → Account) (table : List Account) : List Account :=
  table.map fun a => if a.id = id then f a else a

/-- AT changes the record of an ID, where one exists. R30: each change is written to ACCOUNTS; what leaves the table as it
stood is no change, and writes nothing. -/
def updateAccount (id : Nat) (f : Account → Account) (s : State) : State :=
  let table := changeAccount id f s.accounts
  if table = s.accounts then s else setAccounts table s

/-- R31: available credits. -/
def available (a : Account) : Int := a.balance + a.overdraft - a.reserved

/-- R44: a counter rises and saturates. -/
def countUp (n by_ : Nat) : Nat := satAdd n by_ Config.counterMax

/-- The answers of a reservation request (R32). -/
inductive Reservation | account | credit | reserved
  deriving DecidableEq, Repr, Inhabited

/-- R32: the answer to a reservation of a cost for a sheet with or without a COLOUR side. -/
def reservationAnswer (a : Account) (cost : Nat) (colour : Bool) : Reservation :=
  if a.standing = .suspended ∨ (colour = true ∧ a.colourRight = false) then .account
  else if available a < cost then .credit
  else .reserved

/-- R32: reserved rises by the cost. -/
def reserve (cost : Nat) (a : Account) : Account := { a with reserved := a.reserved + cost }

/-- R33: the record after the charge of a delivered sheet. -/
def charge (cost : Nat) (sides : List Side) (nonGenuine : Bool) (a : Account) : Account :=
  { a with
    balance := a.balance - cost
    reserved := a.reserved - cost
    counters := { a.counters with
      sheets := countUp a.counters.sheets 1
      monoSides := countUp a.counters.monoSides (sidesOfClass .mono sides)
      colourSides := countUp a.counters.colourSides (sidesOfClass .colour sides)
      nonGenuine := countUp a.counters.nonGenuine (if nonGenuine then imageSides sides else 0) } }

/-- R34: reserved falls by the cost. -/
def release (cost : Nat) (a : Account) : Account := { a with reserved := a.reserved - cost }

/-- R35: the record after a scan charge of which taken was taken. -/
def scanCharge (due taken : Nat) (a : Account) : Account :=
  { a with
    balance := a.balance - taken
    counters := { a.counters with
      scanSides := countUp a.counters.scanSides 1
      shortfall := countUp a.counters.shortfall (due - taken) } }

/-- R34: the releases of removed sheets, in order. -/
def releaseSheets (sheets : List Sheet) (s : State) : State :=
  sheets.foldl (fun s sh => updateAccount sh.owner (release sh.cost) s) s

/-- R34: the owners whose released total is above 0, each once, in the order of their sheets. -/
def releasedOwners (sheets : List Sheet) : List Nat := ((sheets.filter (·.cost > 0)).map (·.owner)).eraseDups

/-- The owner's standing, where it has a record. -/
def standingOf (s : State) (owner : Nat) : Option Standing := (findAccount owner s.accounts).map (·.standing)

/-- The owner has the colour right. -/
def hasColourRight (s : State) (owner : Nat) : Bool := ((findAccount owner s.accounts).map (·.colourRight)).getD false

/-- R41: a record after a mismatch of the PIN, with the lockout that the fifth failure begins. -/
def pinFailed (now lockoutMinutes : Nat) (a : Account) : Account :=
  let failures := a.pinFailures + 1
  if failures ≥ 5 then { a with pinFailures := 5, standing := .lockedOut (now + lockoutMinutes * 60) }
  else { a with pinFailures := failures }

/-- R42, R43: the lockout ends. -/
def endLockout (a : Account) : Account :=
  match a.standing with
  | .lockedOut _ => { a with standing := .active, pinFailures := 0 }
  | .active => { a with pinFailures := 0 }
  | .suspended => { a with pinFailures := 0 }

/-- R30: the record as start-up loads it at the instant 0 of the uptime. -/
def loadAccount (lockoutMinutes : Nat) (a : Account) : Account :=
  { a with
    reserved := 0
    standing := match a.standing with
      | .lockedOut _ => .lockedOut (lockoutMinutes * 60)
      | other => other }

end Sys2Proof.Machine
end

