-- ==== Sys2Proof/Machine/Closing.lean ====
section
/-! DEFINITION. The close of a job (R5), the halt of the part (R164 to R166), the abort of a job by a fault, and the
jam (R65). -/

namespace Sys2Proof.Machine

/-! ### Closing a job -/

/-- R138: a key slot is overwritten with zeros. -/
def zeroize (i : Fin 64) (s : State) : State := { s with bc := { s.bc with keys := s.bc.keys.set i none } }

/-- R25, R118: the intake stall timer is wanted: a band is held for room, or the image waits for a block. -/
def timerWanted (s : State) : Bool :=
  s.jt.held.any (·.reason = .room) || s.smc.programming.any (·.phase = .needsBlock)

/-- R25, R118: the timer stops where neither wait is left. -/
def reviewTimer (s : State) : State :=
  if timerWanted s then s else { s with jt := { s.jt with stallTimer := none } }

/-- R120, R118: the images of a closed job. A program that waits is withdrawn, one in flight is kept, and the block of
an image that waits for a block is retired. -/
def closeImages (handle : Nat) (s : State) : State :=
  let s := if s.smc.filling.any (·.handle = handle) then { s with smc := { s.smc with filling := none } } else s
  match s.smc.programming with
  | some p =>
    if p.handle = handle then
      match p.phase with
      | .waiting =>
        { s with smc := { s.smc with
            programming := none
            ops := s.smc.ops.filter fun op => match op with
              | .program h _ _ => h != handle
              | _ => true } }
      | .inFlight => s
      | .needsBlock =>
        reviewTimer (retireBlock .program p.block { s with smc := { s.smc with programming := none } })
    else s
  | none => s

/-- R25: a band of the job held at the link is discarded as stray. -/
def discardHeld (handle : Nat) (s : State) : State :=
  if s.jt.held.any (·.band.handle = handle) then
    reviewTimer (raiseNote (.strayBand handle) { s with jt := { s.jt with held := none } })
  else s

/-- The reads of a closed job that wait are withdrawn, and one in flight is given up (R133, log 17). -/
def dropJobReads (handle : Nat) (m : SpoolMedia) : SpoolMedia :=
  { m with
    ops := m.ops.filter fun op => match op with
      | .read q => q.handle != handle
      | _ => true
    inFlight := m.inFlight.map fun f => match f with
      | .read q place physical retries weak =>
        if q.handle = handle then .read { q with dropped := true } place physical retries weak else f
      | other => other }

/-- The job is in DRAINING. -/
def isDraining (j : Job) : Bool :=
  match j.state with
  | .draining _ => true
  | _ => false

/-- R5: the blocks of a job's extent list, but for those retired before the close hands them on (R118, R119). -/
def blocksToScrub (s : State) (j : Job) : List Nat :=
  (extentBlocks j.extents).filter fun b => !(s.smc.defects.retired.contains b)

/-- R5: the job's blocks join the tail of the scrub list. -/
def handToScrub (j : Job) (s : State) : State :=
  let blocks := blocksToScrub s j
  { s with
    se := { s.se with list := s.se.list ++ blocks.map fun b => { block := b, origin := .job j.handle } }
    smc := { s.smc with bandMaps := s.smc.bandMaps.filter fun m => !(blocks.contains m.1) } }

/-- R4: the job closes in the event that runs (log 70). -/
def noteClosed (handle : Nat) (s : State) : State :=
  { s with jt := { s.jt with closedNow := handle :: s.jt.closedNow } }

/-- R5: the close of a live job, up to SE's report of R143. Its JOB_STATE notice stands before the STRAY_BAND note of a held
band (DESIGN CHOICE, log 58). -/
def closeCore (outcome : JobOutcome) (handle : Nat) (s : State) : State :=
  match jobOf s.jt handle with
  | some j =>
    if isLive j then
      let s := closeImages handle (zeroize (slotOf handle) s)
      let s := leavePlace j (handToScrub j s)
      let s := { s with smc := dropJobReads handle s.smc }
      let s := moveJob { j with state := .scrub outcome, expected := none, pages := [], extents := [] } s
      noteClosed handle (discardHeld handle (jobClosed handle (isDraining j) s))
    else s
  | none => s

/-! ### Halt -/

/-- R165: a live job is closed by the halt, whatever its in-flight count. -/
def closeByHalt (s : State) (handle : Nat) : State :=
  closeCore (.aborted .halt) handle (changeJob handle (fun j => { j with inFlight := 0 }) s)

/-- R9: with the sheet queue empty every in-flight count is 0, that of a job in SCRUB too. -/
def noneInFlight (jt : JobTable) : JobTable :=
  { jt with slots := jt.slots.map fun slot => { slot with job := slot.job.map fun j => { j with inFlight := 0 } } }

/-- R4: the jobs closed in the event that runs that still have sheets in flight, with the content their notices take once a halt
in the same event removes the sheets (DEDUCED, log 70). -/
def cutShort (jt : JobTable) : List Job :=
  ((allJobs jt).filter fun j => !isLive j && decide (0 < j.inFlight) && jt.closedNow.contains j.handle).map
    fun j => { j with inFlight := 0 }

/-- R4: the JOB_STATE notices of jobs take the content of the records given. -/
def tellFinal (jobs : List Job) (s : State) : State := jobs.foldl (fun s j => askJobState j s) s

/-- R166: SPM empties the sheet queue, releases the reservations, and discards the staging entries. -/
def releaseAll (s : State) : State :=
  discardStaging (releaseSheets s.spm.sheets { s with spm := { s.spm with sheets := [] } })

/-- R127, R151: the port starts no operation, waiting operations are withdrawn, the buffer is emptied, and the scrub
stops. -/
def stopSpool (s : State) : State :=
  { s with
    smc := { dropReads .exporter s.smc with ops := [], filling := none, programming := none }
    se := { s.se with work := none } }

/-- R154: a sanitize in progress ends unfinished with a DONE notice of a status. -/
def endSanitize (halted : Bool) (s : State) : State :=
  match s.se.sanitize with
  | some z =>
    emit (.done z.tag halted (.sanitize z.wipe z.returned z.retired)) { s with se := { s.se with sanitize := none } }
  | none => s

/-- R183: the DONE of a RESTART's start-up that is over is asked for. -/
def reportStartUp (halted : Bool) (ended : Option StartUp) (s : State) : State :=
  match ended.bind (·.tag) with
  | some tag => emit (.done tag halted .restart) s
  | none => s

/-- R168: the halt record of a halt on top of the record present. -/
def haltRecordOf (cause : HaltCause) (phase : PartState) (instant closed : Nat) (before : Option HaltRecord) :
    HaltRecord :=
  { cause := cause, phase := phase, instant := instant, jobsClosed := closed
    halts := match before with
      | some r => satAdd r.halts 1 255
      | none => 1 }

/-- R164 to R166: FM takes a HALT condition. One taken while HALTED changes nothing. The live jobs are closed in slot order,
with their notices first, the DONE notices after them and the PART notice last (DESIGN CHOICE, log 44). A job already in SCRUB
whose sheets the halt removes has its in-flight count at 0 with the others (R9); where its close fell in the same event, its
notice takes that final content (R4; DEDUCED, log 70). -/
def haltPart (cause : HaltCause) (s : State) : State :=
  if s.fm.part = .halted then s
  else
    let phase := s.fm.part
    let ended := s.startUp
    let handles := ((allJobs s.jt).filter isLive).map (·.handle)
    let cut := cutShort s.jt
    let s := evaluatePermit { s with
      startUp := none
      fm := { s.fm with part := .halted, nextNumber := takeNumber s.fm % 65535 + 1 }
      bc := { s.bc with keys := Vector.replicate 64 none, serving := false } }
    let s := handles.foldl closeByHalt s
    let s := tellFinal cut s
    let s := { s with jt := { noneInFlight s.jt with engine := {}, exporter := {}, exportPhase := .idle, held := none, stallTimer := none } }
    let s := stopSpool (clearBus (releaseAll s))
    let s := reportStartUp true ended (endSanitize true s)
    askPart (setHaltRecord (haltRecordOf cause phase (nowMs s) handles.length s.fm.haltRecord) s)

/-- R5, R138: a job is closed. A key slot that does not read back as zero halts the part, and the close completes as
part of the halt (log 13). -/
def closeJob (outcome : JobOutcome) (handle : Nat) (s : State) : State :=
  match jobOf s.jt handle with
  | some j =>
    if isLive j then
      let t := closeCore outcome handle s
      if s.bc.stuck.contains (slotOf handle).val then haltPart (.cipherSelftest .readBack) t else reportScrubbed handle t
    else s
  | none => s

/-- R22: a fault aborts a job: the JOB condition, then the close. -/
def abortJob (code : JobFaultCode) (reason : AbortReason) (handle page block : Nat) (s : State) : State :=
  closeJob (.aborted reason) handle (raiseJobFault (jobFault code handle page block) s)

/-! ### Jam -/

/-- R12: one listed job of a jam, with the index of its oldest removed sheet and the next jam rank. A listed job already in SCRUB
(log 19) has its in-flight count made 0 (R9) and keeps its next sheet index (DESIGN CHOICE, log 65). -/
def jamJob (acc : Nat × State) (listed : Nat × Nat) : Nat × State :=
  let (rank, s) := acc
  let (handle, index) := listed
  match jobOf s.jt handle with
  | none => (rank, s)
  | some j =>
    let rewound := { j with inFlight := 0, nextSheet := index }
    match j.state with
    | .scrub _ => (rank, setJob { j with inFlight := 0 } s)
    | .draining .cancel => (rank, closeJob .cancelled handle (setJob rewound s))
    | .stalled .paused _ _ => (rank, setJob rewound s)
    | _ => (rank + 1, stallJob (.jam rank) rewound (leavePlace j s))

/-- R65: the jobs that had sheets removed, each once, with the index of the oldest removed sheet. -/
def jamList (sheets : List Sheet) : List (Nat × Nat) :=
  (sheets.map (·.handle)).eraseDups.map fun h => (h, ((sheets.find? (·.handle == h)).map (·.index)).getD 0)

/-- R65: a jam of a cause. The PART notice comes after the JOB_STATE notices of its jobs, and before that of the next ENGINE job,
which becomes ACTIVE in the same event where the jam stalls the ACTIVE one (DESIGN CHOICE, log 36). -/
def declareJam (cause : JamCause) (s : State) : State :=
  let sheets := s.spm.sheets
  let record : JamRecord :=
    { cause := cause, instant := nowMs s, removed := sheets.length, handles := (jamList sheets).map (·.1) }
  let s := evaluatePermit { s with spm := { s.spm with jammed := true, jam := some record, sheets := [] } }
  let s := discardStaging (releaseSheets sheets s)
  let s := (releasedOwners sheets).foldl (fun s owner => creditRose owner s) s
  let s := ((jamList sheets).foldl jamJob (1, s)).2
  askPart s

end Sys2Proof.Machine
end

