-- ==== Sys2Proof/Machine/Intake.lean ====
section
/-! DEFINITION. Intake (sections 1.6, 6.4, 7.2): encrypting a band, laying it down in the filling image, pages, holds,
and the handing on and moving of images. -/

namespace Sys2Proof.Machine

/-! ### The band cipher (R133 to R136) -/

/-- R133: the key slot of a handle where it is LIVE and records the handle. -/
def liveKey (s : State) (handle : Nat) : Option LiveKey :=
  match s.bc.keys.get (slotOf handle) with
  | some k => if k.handle = handle then some k else none
  | none => none

/-- R134: one cipher block of a band encrypted under its tweak. -/
def encryptBlock (key : Key) (tweak : Tweak) (plain : List Byte) : List Byte :=
  (Config.blockCipher key tweak plain.length ⟨plain.toArray, by simp⟩).toList

/-- R134: one cipher block decrypted under its tweak. -/
def decryptBlock (key : Key) (tweak : Tweak) (cipher : List Byte) : List Byte :=
  ((Config.blockCipher key tweak cipher.length).symm ⟨cipher.toArray, by simp⟩).toList

/-- R134: the cipher blocks of a band from block i on, n of them at most. A partial block at the end is completed to 16 bytes
with the last bytes of the ciphertext of the block before it; the two ciphertexts then stand as the completed block's 16
bytes and the bytes left of the other (DESIGN CHOICE, log 6). -/
def encryptFrom (key : Key) (page index : Nat) : Nat → Nat → List Byte → List Byte
  | 0, _, _ => []
  | n + 1, i, plain =>
    let whole := encryptBlock key { page := page, index := index, block := i } (plain.take 16)
    let later := plain.drop 16
    if later = [] then whole
    else if later.length < 16 then
      encryptBlock key { page := page, index := index, block := i + 1 } (later ++ whole.drop later.length)
        ++ whole.take later.length
    else whole ++ encryptFrom key page index n (i + 1) later

/-- R134, R136: the inverse of encryptFrom for the same key, page, index and length. -/
def decryptFrom (key : Key) (page index : Nat) : Nat → Nat → List Byte → List Byte
  | 0, _, _ => []
  | n + 1, i, cipher =>
    let first := cipher.take 16
    let later := cipher.drop 16
    if later = [] then decryptBlock key { page := page, index := index, block := i } first
    else if later.length < 16 then
      let completed := decryptBlock key { page := page, index := index, block := i + 1 } first
      decryptBlock key { page := page, index := index, block := i } (later ++ completed.drop later.length)
        ++ completed.take later.length
    else decryptBlock key { page := page, index := index, block := i } first ++ decryptFrom key page index n (i + 1) later

/-- R134: a band encrypted at its page and index. -/
def encryptBand (key : Key) (page index : Nat) (plain : List Byte) : List Byte :=
  encryptFrom key page index (plain.length / 16 + 1) 0 plain

/-- R134, R136: the inverse for the same key, page, index and length. -/
def decryptBand (key : Key) (page index : Nat) (cipher : List Byte) : List Byte :=
  decryptFrom key page index (cipher.length / 16 + 1) 0 cipher

/-- R134, R135: the stored band: the ciphertext followed by its 16-byte tag. -/
def sealBand (k : LiveKey) (page index : Nat) (plain : List Byte) : List Byte :=
  let cipher := encryptBand k.encKey page index plain
  cipher ++ bytesOf 16 (bandTag k.tagKey page index cipher)

/-- R136: the plaintext of a stored band, where its tag is the one formed over the page and index asked for. -/
def openBand (k : LiveKey) (page index : Nat) (stored : List Byte) : Option (List Byte) :=
  let cipher := stored.take (stored.length - 16)
  if stored.drop (stored.length - 16) = bytesOf 16 (bandTag k.tagKey page index cipher) then
    some (decryptBand k.encKey page index cipher)
  else none

/-! ### Images (R116 to R118) -/

/-- R117: a handed-on filling image becomes the programming image where there is none, and its program is entered. -/
def handOn (s : State) : Option State :=
  match s.smc.filling, s.smc.programming with
  | some f, none =>
    if f.handedOn then
      let p : ProgrammingImage := { handle := f.handle, block := f.block, filled := f.filled, data := f.data }
      some (enterOp (.program f.handle f.block false)
        { s with smc := { s.smc with filling := none, programming := some p } })
    else none
  | _, _ => none

/-- R116: the filling image ceases to be current; it moves on at once where it can. -/
def ceaseFilling (s : State) : State :=
  let t := { s with smc := { s.smc with filling := s.smc.filling.map fun f => { f with handedOn := true } } }
  (handOn t).getD t

/-- R118: an extent list with a block cut out and another in its place. -/
def cutExtents (old new : Nat) : List Extent → List Extent
  | [] => []
  | e :: rest =>
    if e.first ≤ old ∧ old < e.first + e.count then
      (if old = e.first then [] else [{ first := e.first, count := old - e.first }])
        ++ { first := new, count := 1 }
        :: (if old + 1 = e.first + e.count then [] else [{ first := old + 1, count := e.first + e.count - (old + 1) }])
        ++ rest
    else e :: cutExtents old new rest

/-- R118: a page's location restated to name the same byte under new extents. -/
def relocate (old new : List Extent) (p : PageEntry) : PageEntry :=
  let at_ := locationOf new (linearOf old p.extent p.offset)
  { p with extent := at_.1, offset := at_.2 }

/-- R118: the block of a band map is replaced. -/
def renameBandMap (old new : Nat) (m : SpoolMedia) : SpoolMedia :=
  { m with bandMaps := m.bandMaps.map fun b => if b.1 = old then (new, b.2) else b }

/-- R118: an image that waits for a block moves to a fresh one where the room is there. Where only a part of the room is there,
nothing of it is kept for the move (DESIGN CHOICE, log 64). -/
def moveImage (s : State) : Option State :=
  match s.smc.programming with
  | none => none
  | some p =>
    if p.phase = .needsBlock then
      match jobOf s.jt p.handle, takeFree s with
      | some j, some (fresh, t) =>
        let extents := cutExtents p.block fresh j.extents
        if extentsUsed s.jt + extents.length ≤ Config.extentPool + j.extents.length then
          let j' := { j with extents := extents, pages := j.pages.map (relocate j.extents extents) }
          let image := { p with block := fresh, second := true, phase := .waiting }
          let t := setJob j' { t with smc := { renameBandMap p.block fresh t.smc with programming := some image } }
          some (reviewTimer (enterOp (.program p.handle fresh true) (retireBlock .program p.block t)))
        else none
      | _, _ => none
    else none

/-! ### Bands (R22 to R26) -/

/-- The flag bits of a band header (section 1.6). -/
def isLastBand (b : Band) : Bool := b.flags % 2 == 1
/-- Bit 1 of the flags. -/
def isLastPage (b : Band) : Bool := b.flags / 2 % 2 == 1

/-- The coverage fields of a header. -/
def headerCoverage (b : Band) : Planes := { k := b.covK, c := b.covC, m := b.covM, y := b.covY }

/-- R22: the band is malformed. -/
def malformed (b : Band) : Bool :=
  b.version != 1 || b.flags ≥ 4 || (isLastPage b && !isLastBand b)
    || b.length = 0 || b.length > 65536 || b.length != b.payload.length
    || (b.page = 2000 && isLastBand b && !isLastPage b)
    || (b.index = 255 && !isLastBand b)
    || (isLastBand b && (b.covK > 10000 || b.covC > 10000 || b.covM > 10000 || b.covY > 10000))

/-- What comes of laying a band down: it is stored, or held with a reason (R25, R117). -/
inductive StoreResult
  | stored (s : State)
  | held (reason : HoldReason) (s : State)
  deriving DecidableEq, Repr

/-- R24: an extent list with a block added. -/
def growExtents (block : Nat) (extents : List Extent) : List Extent :=
  match extents.getLast? with
  | some e =>
    if e.first + e.count = block then extents.dropLast ++ [{ e with count := e.count + 1 }]
    else extents ++ [{ first := block, count := 1 }]
  | none => [{ first := block, count := 1 }]

/-- R25: a block is free, and an extent entry where the block needs one. -/
def roomForBlock (s : State) (j : Job) : Bool :=
  match s.smc.free with
  | [] => false
  | b :: _ => (growExtents b j.extents).length = j.extents.length || extentsUsed s.jt < Config.extentPool

/-- The location of a byte of a block in an extent list. -/
def locationIn (extents : List Extent) (block offset : Nat) : Nat × Nat :=
  match extents.findIdx? fun e => e.first ≤ block && block < e.first + e.count with
  | some i => (i, (block - ((extents[i]?).map (·.first)).getD 0) * Config.blockBytes + offset)
  | none => (0, offset)

/-- R23: a band of index 1 opens its page at the place it is stored; the job is as it stands after R24. -/
def openPage (b : Band) (block offset : Nat) (j : Job) : Job :=
  if b.index = 1 then
    let at_ := locationIn j.extents block offset
    { j with pages := j.pages ++ [{ extent := at_.1, offset := at_.2 }] }
  else j

/-- The current block of a job: the filling image, where it is the job's and has not been handed on (R116). -/
def currentImage (s : State) (handle : Nat) : Option FillingImage :=
  s.smc.filling.filter fun f => f.handle = handle && !f.handedOn

/-- R116: the filling image is handed on where a band is to be stored for another job, or is to begin in it while its band
map holds 64 entries. -/
def yieldFilling (handle : Nat) (s : State) : State :=
  match s.smc.filling with
  | some f =>
    if !f.handedOn && (f.handle != handle || (bandMapOf s.smc f.block).length ≥ Config.bandMapEntries) then ceaseFilling s
    else s
  | none => s

/-- The band-map entry of a band. -/
def bandEntry (b : Band) (offset : Nat) : BandEntry :=
  { page := b.page, index := b.index, offset := offset, length := b.length + 16 }

/-- R116: a stored band that fits the filling image is laid down in it. -/
def layInCurrent (b : Band) (stored : List Byte) (f : FillingImage) (j : Job) (s : State) : State :=
  let filled := f.filled + (b.length + 16)
  let smc := addBandEntry f.block (bandEntry b f.filled) s.smc
  let s := { s with smc := { smc with filling := some { f with filled := filled, data := f.data ++ stored } } }
  let s := setJob (openPage b f.block f.filled j) s
  if filled = Config.blockBytes then ceaseFilling s else s

/-- R24, R115, R116: a stored band that needs a new block fills the rest of the current one and goes on in the new one. -/
def layInNew (b : Band) (stored : List Byte) (current : Option FillingImage) (j : Job) (s : State) : State :=
  match takeFree s with
  | none => s
  | some (fresh, s) =>
    let j := { j with extents := growExtents fresh j.extents }
    match current with
    | some f =>
      let room := Config.blockBytes - f.filled
      let smc := addBandEntry f.block (bandEntry b f.filled) s.smc
      let full := { f with filled := Config.blockBytes, data := f.data ++ stored.take room }
      let s := ceaseFilling { s with smc := { smc with filling := some full } }
      let rest : FillingImage := { handle := b.handle, block := fresh, filled := b.length + 16 - room, data := stored.drop room }
      setJob (openPage b f.block f.filled j) { s with smc := { s.smc with filling := some rest } }
    | none =>
      let smc := addBandEntry fresh (bandEntry b 0) s.smc
      let image : FillingImage := { handle := b.handle, block := fresh, filled := b.length + 16, data := stored }
      setJob (openPage b fresh 0 j) { s with smc := { smc with filling := some image } }

/-- R24, R25, R117: a well-formed band in sequence is laid down, or held for room or for the image buffer (log 15). -/
def storeBand (b : Band) (key : LiveKey) (j : Job) (s : State) : StoreResult :=
  let s := yieldFilling b.handle s
  let current := currentImage s b.handle
  let stored := sealBand key b.page b.index b.payload
  match current with
  | some f =>
    if f.filled + (b.length + 16) ≤ Config.blockBytes then .stored (layInCurrent b stored f j s)
    else if !roomForBlock s j then .held .room s
    else if s.smc.programming.isSome then .held .image s
    else .stored (layInNew b stored current j s)
  | none =>
    if !roomForBlock s j then .held .room s
    else if s.smc.filling.isSome then .held .image s
    else .stored (layInNew b stored none j s)

/-- The last page entry of a directory is changed. -/
def changeLastPage (f : PageEntry → PageEntry) (j : Job) : Job :=
  match j.pages.getLast? with
  | some p => { j with pages := j.pages.dropLast ++ [f p] }
  | none => j

/-- R35: the scan charge of a page close. -/
def takeScanCharge (j : Job) (page : Nat) (s : State) : State :=
  match findAccount j.owner s.accounts with
  | none => s
  | some a =>
    let due := s.settings.price.scanRate
    let taken := scanTaken due (available a)
    let s := updateAccount j.owner (scanCharge due taken) s
    let s := changeJob j.handle (fun j => { j with charged := satAdd j.charged taken Config.counterMax }) s
    if due - taken > 0 then raiseNote (.scanShortfall j.owner j.handle page (due - taken)) s else s

/-- R23: the page closes. -/
def closePage (b : Band) (j : Job) (s : State) : State :=
  let cls := classifyPage s.settings.meter.colourThreshold (headerCoverage b)
  let j := changeLastPage (fun p => { p with coverage := storedCoverage cls (headerCoverage b), cls := some cls }) j
  let s := setJob j s
  let s := match j.kind with
    | .copy => takeScanCharge j b.page s
    | .scanOut => takeScanCharge j b.page s
    | .print => s
  let s := emit (.pageStored b.handle b.page) s
  changeJob b.handle (fun j => { j with expected := some (b.page + 1, 1) }) s

/-- The job has a COLOUR page. -/
def hasColourPage (j : Job) : Bool := j.pages.any (·.cls == some .colour)

/-- R26: intake ends. -/
def endIntake (handle : Nat) (s : State) : State :=
  let s := if (currentImage s handle).isSome then ceaseFilling s else s
  let s := changeJob handle (fun j => { j with expected := none }) s
  match jobOf s.jt handle with
  | none => s
  | some j =>
    if j.priv then moveJob { j with state := .held (nowSeconds s + s.settings.limits.holdLimit * 60) } s
    else if hasColourPage j && !hasColourRight s j.owner then closeJob (.aborted .noColourRight) handle s
    else queueTail j s

/-- R23: a stored band is counted; one with LAST_BAND closes its page, and with LAST_PAGE ends intake. -/
def finishBand (b : Band) (s : State) : State :=
  match jobOf s.jt b.handle with
  | none => s
  | some j =>
    let j := changeLastPage (fun p => { p with bands := p.bands + 1, bytes := p.bytes + b.length }) j
    let j := { j with expected := some (b.page, b.index + 1) }
    if isLastBand b then
      let s := closePage b j s
      if isLastPage b then endIntake b.handle s else s
    else setJob j s

/-- R25: a band is held at the link; a hold for room starts the timer where it is not running. -/
def holdBand (b : Band) (reason : HoldReason) (s : State) : State :=
  let s := { s with jt := { s.jt with held := some { band := b, reason := reason } } }
  if reason = .room ∧ s.jt.stallTimer = none then
    { s with jt := { s.jt with stallTimer := some (nowMs s + s.settings.limits.intakeStallLimit * 1000) } }
  else reviewTimer s

/-- R21 to R25: the link takes a band. -/
def takeBand (b : Band) (s : State) : State :=
  match jobOf s.jt b.handle with
  | none => raiseNote (.strayBand b.handle) s
  | some j =>
    if j.state ≠ .intake then raiseNote (.strayBand b.handle) s
    else if malformed b || j.expected != some (b.page, b.index) then
      abortJob .intakeFormat .intakeFormat b.handle b.page 0 s
    else if b.index = 1 && pagesUsed s.jt ≥ Config.pagePool then abortJob .pagePool .pagePool b.handle b.page 0 s
    else match liveKey s b.handle with
      | none => raiseNote (.strayBand b.handle) s
      | some key =>
        match storeBand b key j s with
        | .stored t => finishBand b t
        | .held reason t => holdBand b reason t

/-- R21, R117, R118: the intake link takes bands. -/
def linkOpen (s : State) : Bool :=
  s.fm.part = .running && !s.fm.backlog && s.jt.held.isNone && !(s.smc.filling.any (·.handedOn))
    && !(s.smc.programming.any (·.phase = .needsBlock))

/-- R21: the band that has waited longest is taken. -/
def takeWaiting (s : State) : Option State :=
  match s.jt.waiting with
  | b :: rest => if linkOpen s then some (takeBand b { s with jt := { s.jt with waiting := rest } }) else none
  | [] => none

/-- R25, R117: the held band of a job in INTAKE is stored where what it waits for has come, or comes to wait for the other
thing: a hold for the image buffer whose block or entry has been taken meanwhile becomes one for room, with the stall timer from
that event on, and one for room whose block has come becomes one for the buffer, without it (DESIGN CHOICE, log 68). -/
def retryHeld (s : State) : Option State :=
  match s.jt.held with
  | none => none
  | some h =>
    match jobOf s.jt h.band.handle, liveKey s h.band.handle with
    | some j, some key =>
      if j.state ≠ .intake then none
      else match storeBand h.band key j { s with jt := { s.jt with held := none } } with
        | .stored t => some (finishBand h.band (reviewTimer t))
        | .held reason t => if reason = h.reason then none else some (holdBand h.band reason t)
    | _, _ => none

end Sys2Proof.Machine
end

