-- ==== Sys2Proof/Machine/Settle.lean ====
section
/-! DEFINITION. What the part starts by itself within an event: activation, draining, staging, grants, export, the
scrub, the bus and the port. Each is a function that answers the state after it where it is due; settle runs them until
none is due, in the order of log 27. -/

namespace Sys2Proof.Machine

/-! ### Starting a read (R121) -/

/-- A page entry of a job is changed. -/
def changePage (handle page : Nat) (f : PageEntry → PageEntry) (s : State) : State :=
  changeJob handle (fun j => { j with pages := if page = 0 then j.pages else j.pages.modify (page - 1) f }) s

/-- R121: the page entry's MARKED flag is set. -/
def flagPage (handle page : Nat) (s : State) : State := changePage handle page (fun p => { p with marked := true }) s

/-- R121: the first marked block a band occupies. -/
def markedBlock (s : State) (handle page index : Nat) : Option Nat :=
  match (jobOf s.jt handle).bind fun j => placeOf s.smc j page index with
  | some p => (placeBlocks p).find? fun b => (markOf s.smc b).isSome
  | none => none

/-- R121, R126: a read is entered at the port, or ends at once with the result MARKED and the block. -/
def beginRead (r : Reader) (handle page index : Nat) (s : State) : Option Nat × State :=
  match markedBlock s handle page index with
  | some b => (some b, flagPage handle page s)
  | none => (none, enterOp (.read { reader := r, handle := handle, page := page, index := index }) s)

/-! ### The ENGINE: activation, draining, staging, grants -/

/-- R7: the head of a queue becomes ACTIVE at a destination with no ACTIVE job. -/
def activate (d : Destination) (s : State) : Option State :=
  let q := queueOf s.jt d
  match q.active, q.waiting with
  | none, h :: rest =>
    match jobOf s.jt h with
    | some j => some (moveJob { j with state := .active } { s with jt := putQueue d { waiting := rest, active := some h } s.jt })
    | none => none
  | _, _ => none

/-- The ACTIVE job of a destination. -/
def activeJob (s : State) (d : Destination) : Option Job := (queueOf s.jt d).active.bind (jobOf s.jt)

/-- R8: an ACTIVE ENGINE job with no remaining sheet drains or is closed. -/
def drain (s : State) : Option State :=
  match activeJob s .engine with
  | none => none
  | some j =>
    match sheetFrom j j.nextSheet with
    | some _ => none
    | none =>
      if j.inFlight > 0 then some (moveJob { j with state := .draining .ends } (leaveActive j s))
      else some (closeJob .completed j.handle s)

/-- R58: a FAILED entry that is the oldest held stalls the ACTIVE ENGINE job. -/
def failStaging (s : State) : Option State :=
  match s.spm.staging with
  | e :: _ =>
    match e.state with
    | .failed _ _ => some (stallActive .image e.handle e.index s)
    | _ => none
  | [] => none

/-- R56: the first side at or after a place that carries a page, with its page. -/
def sideFrom (sides : List Side) (i : Nat) : Option (Nat × Nat) :=
  ((List.range sides.length).filterMap fun k => pageAt k (sides.getD k .blank)).head?
where
  /-- The place and page of a side at or after i. -/
  pageAt (k : Nat) : Side → Option (Nat × Nat)
    | .page n _ => if k ≥ i then some (k, n) else none
    | .blank => none

/-- The entry after the start of a read: READING at a side and band, or FAILED where the read ended MARKED. -/
def readingState (side band page : Nat) (marked : Option Nat) : StageState :=
  match marked with
  | some block => .failed page block
  | none => .reading side band

/-- R55: the staging entry is in READING. -/
def isReading (e : StagingEntry) : Bool :=
  match e.state with
  | .reading _ _ => true
  | _ => false

/-- R55: the staging entry is FAILED. -/
def isFailed (e : StagingEntry) : Bool :=
  match e.state with
  | .failed _ _ => true
  | _ => false

/-- R55: the reading of the next sheet of the ACTIVE ENGINE job begins. -/
def startStaging (s : State) : Option State :=
  match activeJob s .engine with
  | none => none
  | some j =>
    if s.spm.jammed || s.spm.staging.length ≥ 2 || s.spm.staging.any isReading || s.spm.staging.any isFailed then none
    else
      let from_ := match s.spm.staging.getLast? with
        | some e => e.index + 1
        | none => j.nextSheet
      match sheetFrom j from_ with
      | none => none
      | some index =>
        let sides := sidesOf j index
        match sideFrom sides 0 with
        | none => none
        | some (side, page) =>
          let (marked, s) := beginRead .staging j.handle page 1 s
          let e : StagingEntry :=
            { handle := j.handle, index := index, sides := sides, image := sides.map fun _ => []
              state := readingState side 1 page marked }
          some { s with spm := { s.spm with staging := s.spm.staging ++ [e] } }

/-! ### The band headers that go out (section 1.6) -/

/-- R56: the number of bands of a page. -/
def bandsOf (j : Job) (page : Nat) : Nat := ((pageEntry j page).map (·.bands)).getD 0

/-- R27: the band is the last of its page. -/
def isPageEnd (j : Job) (page index : Nat) : Bool := index == bandsOf j page

/-- R27: the band is the last of the last page not SKIPPED; so under R60 too (log 30). -/
def isJobEnd (j : Job) (page index : Nat) : Bool := isPageEnd j page index && (exportPageFrom j page).isNone

/-- R27, R135: the coverage under which a band goes out: that of its page entry on the page's last band. -/
def outCoverage (j : Job) (page index : Nat) : Option Planes :=
  if isPageEnd j page index then (pageEntry j page).map (·.coverage) else none

/-- Section 1.6: the coverage bytes of a header; without LAST_BAND they are not read, and free (log 30). -/
def coverageBytes (instant : Nat) (j : Job) (page index : Nat) : List Byte :=
  match outCoverage j page index with
  | some c => leBytes 2 c.k ++ leBytes 2 c.c ++ leBytes 2 c.m ++ leBytes 2 c.y
  | none => (Config.freeCoverage instant j.handle page index).toList

/-- Section 1.6, R27, R60: the 20-byte header of a band that goes out: version 1, flags, handle, page, band index, band
length and coverage, little-endian. -/
def bandHeader (instant : Nat) (j : Job) (page index length : Nat) : List Byte :=
  let flags := (if isPageEnd j page index then 1 else 0) + (if isJobEnd j page index then 2 else 0)
  [1, BitVec.ofNat 8 flags] ++ leBytes 2 j.handle ++ leBytes 2 page ++ leBytes 2 index ++ leBytes 4 length
    ++ coverageBytes instant j page index

/-- R60: the bands of one side under their headers; a blank side has none. -/
def sideBands (instant : Nat) (j : Job) (side : Side) (bands : List (List Byte)) : List OutBand :=
  match side with
  | .blank => []
  | .page n _ => bands.mapIdx fun k data => { header := bandHeader instant j n (k + 1) data.length, data := data }

/-- R60: what the ENGINE channel is sent at a grant. -/
def engineSheet (instant : Nat) (j : Job) (e : StagingEntry) : EngineSheet :=
  { handle := e.handle, index := e.index, sides := e.sides, image := List.zipWith (sideBands instant j) e.sides e.image }

/-- R60: the sheet record of a grant. -/
def grantedSheet (s : State) (j : Job) (e : StagingEntry) (f : Figures) : Sheet :=
  { handle := e.handle, owner := j.owner, index := e.index, sides := e.sides, cost := f.cost, demand := f.demand,
    transit := f.transit, nonGenuine := (requiredSlots e.sides).any fun i => match (slotRecord s i).verification with
      | .suspect _ => true
      | _ => false
    entered := false, deadline := nowMs s + s.settings.limits.entryLimit }

/-- R60: a grant. -/
def grant (j : Job) (e : StagingEntry) (f : Figures) (s : State) : State :=
  let sheet := grantedSheet s j e f
  let s := updateAccount j.owner (reserve f.cost) s
  let s := { s with spm := { s.spm with
    sheets := s.spm.sheets ++ [sheet], staging := s.spm.staging.tail, requestPending := false
    engineOut := some (engineSheet s.clock j e) } }
  changeJob e.handle (fun j => { j with nextSheet := e.index + 1, inFlight := j.inFlight + 1 }) s

/-- R59, steps 1 to 4: an attempt with the oldest staging entry READY; none where it waits. -/
def attempt (j : Job) (e : StagingEntry) (f : Figures) (s : State) : Option State :=
  let required := requiredSlots e.sides
  if required.any fun i => (slotRecord s i).verification = .unverified then none
  else if required.any fun i => !usable s.settings.allow (slotRecord s i) then some (stallActive .supply e.handle e.index s)
  else match (findAccount j.owner s.accounts).map fun a => reservationAnswer a f.cost (hasColour e.sides) with
    | some .reserved => some (grant j e f s)
    | some .credit => some (stallActive .credit e.handle e.index s)
    | some .account => some (stallActive .account e.handle e.index s)
    | none => some (stallActive .account e.handle e.index s)

/-- R59: SPM makes a grant attempt whenever its four conditions hold together. -/
def grantAttempt (s : State) : Option State :=
  if s.spm.requestPending && s.spm.feedPermit && s.spm.sheets.length < 6 then
    match s.spm.staging with
    | e :: _ =>
      match e.state, jobOf s.jt e.handle with
      | .ready f, some j => attempt j e f s
      | _, _ => none
    | [] => none
  else none

/-! ### The EXPORT channel (R27) -/

/-- R27: the ACTIVE EXPORT job with nothing being read or sent begins its next page, or is closed COMPLETED. -/
def startExport (s : State) : Option State :=
  match activeJob s .exporter, s.jt.exportPhase with
  | some j, .idle =>
    match exportPageFrom j j.nextSheet with
    | none => some (closeJob .completed j.handle s)
    | some page =>
      let (marked, s) := beginRead .exporter j.handle page 1 s
      match marked with
      | some _ => some (stallActive .image j.handle (page - 1) s)
      | none => some { s with jt := { s.jt with exportPhase := .reading page 1 } }
  | _, _ => none

/-! ### Scrub, bus and port -/

/-- R144: SE takes the head of the scrub list into work. -/
def takeScrub (s : State) : Option State :=
  match s.se.work, s.se.list with
  | none, e :: _ =>
    if s.fm.part = .running then
      some (enterOp (.erase e.block) { s with se := { s.se with work := some { block := e.block, verifying := false, second := false } } })
    else none
  | _, _ => none

/-- R154, R192: a sanitize completes where the scrub list is empty with no block in work. The DONE notice stands before the PART
notice, and both stand behind the JOB_STATE notice of a slot freed and the BLOCK_RETIRED note of a block retired by the event
that empties the list (DESIGN CHOICE, log 58). A sanitize accepted with no block left to scrub completes within the request
(DESIGN CHOICE, log 61). -/
def finishSanitize (s : State) : Option State :=
  if s.se.sanitize.isSome && s.se.list.isEmpty && s.se.work.isNone then some (askPart (endSanitize false s)) else none

/-- The cartridge key of the cartridge in a slot, under the family key loaded (R92, R101). -/
def slotKey (s : State) (c : CartSlot) : Option Key :=
  match c.serial, c.family.bind (familyKey (keysOf s)) with
  | some serial, some k => some (cartridgeKey k serial)
  | _, _ => none

/-- R86, R100: an item of the work list starts. -/
def startItem (item : WorkItem) (s : State) : State :=
  match item with
  | .resync => { s with cbc := { s.cbc with flight := some .resync } }
  | .auth i => { s with cbc := { s.cbc with flight := some (.probe i) } }
  | .writeBack i =>
    let c := slotRecord s i
    match c.level with
    | some l =>
      if holdsVerified c && l.pending > 0 then
        match draw16 s with
        | (.error test, s) => haltPart (.randomSource test .nonce) s
        | (.ok nonce, s) => { s with cbc := { s.cbc with flight := some (.decrement i l.pending (slotKey s c) nonce) } }
      else s
    | none => s

/-- R86: with the bus idle, the head of the work list starts. -/
def startBus (s : State) : Option State :=
  match s.cbc.flight, s.cbc.work with
  | none, item :: rest =>
    if s.fm.part = .halted then none else some (startItem item { s with cbc := { s.cbc with work := rest } })
  | _, _ => none

/-- The operation in flight that an operation becomes, with what is fixed at its start (R110, R180). -/
def flightOf (s : State) : PortOp → Option PortFlight
  | .read q =>
    ((jobOf s.jt q.handle).bind fun j => placeOf s.smc j q.page q.index).map fun p =>
      .read q p ((placeBlocks p).map (resolve s.smc.defects)) s.settings.limits.readRetries s.settings.limits.weakLimit
  | .program handle block second => some (.program handle block second (resolve s.smc.defects block))
  | .erase block => some (.erase block (resolve s.smc.defects block))
  | .verify block => some (.verify block (resolve s.smc.defects block))

/-- The programming image's program is in flight. -/
def programStarted (op : PortOp) (p : ProgrammingImage) : ProgrammingImage :=
  match op with
  | .program _ _ _ => { p with phase := .inFlight }
  | _ => p

/-- R121: a waiting read of a band that occupies a marked block, with the first such block. -/
def markedRead (s : State) : PortOp → Option (ReadRequest × Nat)
  | .read q => (markedBlock s q.handle q.page q.index).map (q, ·)
  | _ => none

/-- R58: the staging entry in READING becomes FAILED with a page and block. -/
def failReading (page block : Nat) (entries : List StagingEntry) : List StagingEntry :=
  entries.map fun e => if isReading e then { e with state := .failed page block } else e

/-- R121, R124, R125: a read that waits while a block of its band becomes marked ends MARKED before any port operation. -/
def endMarkedRead (s : State) : Option State :=
  match s.smc.ops.findSome? (markedRead s) with
  | none => none
  | some (q, block) =>
    let s := flagPage q.handle q.page { s with smc := { s.smc with ops := s.smc.ops.erase (.read q) } }
    match q.reader with
    | .staging => some { s with spm := { s.spm with staging := failReading q.page block s.spm.staging } }
    | .exporter => some (stallActive .image q.handle (q.page - 1) s)

/-- R126: the idle port starts the operation it chooses; none while HALTED (R127). -/
def startPort (s : State) : Option State :=
  if s.smc.inFlight.isSome || s.fm.part = .halted then none
  else match chooseOp s with
    | none => none
    | some op =>
      match flightOf s op with
      | none => none
      | some f =>
        some { s with smc := { s.smc with
          ops := s.smc.ops.erase op, inFlight := some f, programming := s.smc.programming.map (programStarted op) } }

/-! ### The whole -/

/-- The first action that is due, in the order of log 27. Nothing is due while HALTED, and only the bus works while
STARTING. R118: room that arrives goes to a waiting image's move first. Room the move cannot use yet is not kept for it: the held
band takes it (DESIGN CHOICE, log 64). -/
def nextAction (s : State) : Option State :=
  match s.fm.part with
  | .halted => none
  | .starting => startBus s
  | .running =>
    endMarkedRead s <|> moveImage s <|> handOn s <|> retryHeld s <|> takeWaiting s <|> activate .engine s <|> drain s
      <|> activate .exporter s <|> startExport s <|> failStaging s <|> startStaging s <|> grantAttempt s
      <|> takeScrub s <|> finishSanitize s <|> startBus s <|> startPort s

/-- The actions due, up to a number of them. -/
def settleN : Nat → State → State
  | 0, s => s
  | n + 1, s =>
    match nextAction s with
    | some t => settleN n t
    | none => s

/-- More actions than one event can make due (log 27). -/
def settleFuel (s : State) : Nat := 4096 + 16 * s.jt.waiting.length

/-- What the part starts by itself within an event. -/
def settle (s : State) : State := settleN (settleFuel s) s

end Sys2Proof.Machine
end

