-- ==== Sys2Proof/Machine/Accounts.lean ====
section
/-! DEFINITION. The account requests (chapter 2) and the end of a lockout. -/

namespace Sys2Proof.Machine

open Host (Outcome)

/-- R36, R40: the check value of a PIN under the device key. -/
def pinValue (s : State) (pin : List Byte) : Digest := pinCheckValue (deviceKeyOf s) pin

/-- R36: a new record. -/
def newAccount (id overdraft : Nat) (colour : Bool) (pin : Option Digest) : Account :=
  { id := id, overdraft := overdraft, colourRight := colour, pinCheck := pin }

/-- R36: ACCT_CREATE. -/
def acctCreate (id overdraft colour : Nat) (pin : Option (List Byte)) (s : State) : Answer :=
  match acctCreateFields id overdraft colour pin with
  | none => refuse .badField s
  | some right =>
    if (findAccount id s.accounts).isSome then refuse .wrongState s
    else if s.accounts.length ≥ Config.maxAccounts then refuse .full s
    else
      { status := .ok,
        state := setAccounts (insertAccount (newAccount id overdraft right (pin.map (pinValue s))) s.accounts) s }

/-- ACCT_CREATE (R36). -/
def execAcctCreate (tag : Byte) (id overdraft colour : Nat) (pin : Option (List Byte)) (s : State) :
    Outcome State Fault Refusal :=
  .next (request .acctCreate tag (acctCreate id overdraft colour pin) s)

/-- R46, R47: the number of job slots whose job belongs to an account and is not FREE. -/
def jobsOfOwner (s : State) (owner : Nat) : Nat := (allJobs s.jt).countP (·.owner == owner)

/-- R47: ACCT_DELETE. -/
def acctDelete (id : Nat) (s : State) : Answer :=
  match findAccount id s.accounts with
  | none => refuse .noAccount s
  | some a =>
    if jobsOfOwner s id > 0 || a.reserved != 0 then refuse .busy s
    else
      { status := .ok, payload := .deleted a.balance a.counters,
        state := setAccounts (s.accounts.filter (·.id != id)) s }

/-- ACCT_DELETE (R47). -/
def execAcctDelete (tag : Byte) (id : Nat) (s : State) : Outcome State Fault Refusal :=
  .next (request .acctDelete tag (acctDelete id) s)

/-- R37: the accepted reply after a credit. -/
def creditReply (a : Account) (clamped : Bool) : Payload := .credit a.balance (available a) clamped

/-- R37: ACCT_CREDIT. The reply's balance and available credits are those the credit leaves, before what the requeue sets
off in the same event (DESIGN CHOICE, log 47). -/
def acctCredit (id : Nat) (amount : Int) (s : State) : Answer :=
  if !amountInRange amount then refuse .badField s
  else match findAccount id s.accounts with
    | none => refuse .noAccount s
    | some a =>
      if amount > 0 then
        let b := { a with balance := min (a.balance + amount) Config.balanceMax }
        let t := updateAccount id (fun a => { a with balance := min (a.balance + amount) Config.balanceMax }) s
        { status := .ok, payload := creditReply b (a.balance + amount > Config.balanceMax),
          state := if b.balance > a.balance then settle (creditRose id t) else s }
      else if amount = 0 then { status := .ok, payload := creditReply a false, state := s }
      else if -amount ≤ available a then
        { status := .ok, payload := creditReply { a with balance := a.balance + amount } false,
          state := updateAccount id (fun a => { a with balance := a.balance + amount }) s }
      else refuse .insufficient s

/-- ACCT_CREDIT (R37). -/
def execAcctCredit (tag : Byte) (id : Nat) (amount : Int) (s : State) : Outcome State Fault Refusal :=
  .next (request .acctCredit tag (acctCredit id amount) s)

/-- R39: the record with a standing field applied. -/
def applyStanding (field : Option Nat) (a : Account) : Account :=
  match field.bind standingField, a.standing with
  | some .suspended, .lockedOut _ => { a with standing := .suspended, pinFailures := 0 }
  | some .suspended, _ => { a with standing := .suspended }
  | some .active, .suspended => { a with standing := .active }
  | _, _ => a

/-- R40: the record with a PIN action applied. -/
def applyPin (s : State) (action : Option PinAction) (a : Account) : Account :=
  match action with
  | some (.set pin) => { a with pinCheck := some (pinValue s pin), pinFailures := 0 }
  | some .clear => { a with pinCheck := none, pinFailures := 0 }
  | none => a

/-- R38 to R40: the record with every field of an accepted ACCT_SET applied. -/
def applyAcctSet (s : State) (overdraft colour standing : Option Nat) (pin : Option PinAction) (a : Account) : Account :=
  applyPin s pin (applyStanding standing
    { a with overdraft := overdraft.getD a.overdraft, colourRight := (colour.bind yesNo).getD a.colourRight })

/-- R39: the change lifts a barrier to a grant. -/
def liftsBarrier (a b : Account) : Bool :=
  (a.standing = .suspended && b.standing = .active)
    || (!a.colourRight && b.colourRight && b.standing != .suspended)

/-- R38: ACCT_SET. Where it both raises the overdraft limit and lifts a barrier, the CREDIT jobs are requeued before the
ACCOUNT jobs (DESIGN CHOICE, log 45). -/
def acctSet (id : Nat) (overdraft colour standing : Option Nat) (pin : Option PinAction) (s : State) : Answer :=
  if !acctSetFields overdraft colour standing pin then refuse .badField s
  else match findAccount id s.accounts with
    | none => refuse .noAccount s
    | some a =>
      let locked := match a.standing with
        | .lockedOut _ => true
        | _ => false
      if locked && standing.bind standingField == some .active then refuse .lockedOut s
      else if overdraft.any fun l => decide (a.balance - a.reserved < -(l : Int)) then refuse .insufficient s
      else
        let b := applyAcctSet s overdraft colour standing pin a
        let t := updateAccount id (applyAcctSet s overdraft colour standing pin) s
        let t := if b.overdraft > a.overdraft then creditRose id t else t
        let t := if liftsBarrier a b then barrierGone id t else t
        { status := .ok, state := if b.overdraft > a.overdraft || liftsBarrier a b then settle t else t }

/-- ACCT_SET (R38). -/
def execAcctSet (tag : Byte) (id : Nat) (overdraft colour standing : Option Nat) (pin : Option PinAction) (s : State) :
    Outcome State Fault Refusal :=
  .next (request .acctSet tag (acctSet id overdraft colour standing pin) s)

/-- R46: the report of an account; the PIN check value is not carried. -/
def accountReport (s : State) (a : Account) : AccountReport :=
  { account := { a with pinCheck := none }, hasPin := a.pinCheck.isSome, available := available a
    toEnd := match a.standing with
      | .lockedOut ends => some (ends - nowSeconds s)
      | _ => none
    jobs := jobsOfOwner s a.id }

/-- R46: ACCT_READ. -/
def acctRead (id : Nat) (s : State) : Answer :=
  match findAccount id s.accounts with
  | none => refuse .noAccount s
  | some a => { status := .ok, payload := .account (accountReport s a), state := s }

/-- ACCT_READ (R46). -/
def execAcctRead (tag : Byte) (id : Nat) (s : State) : Outcome State Fault Refusal :=
  .next (request .acctRead tag (acctRead id) s)

/-- R29: the IDs from a start on, in ascending order. -/
def idsFrom (start : Nat) (table : List Account) : List Nat := (table.filter (·.id ≥ start)).map (·.id)

/-- R29: ACCT_LIST. -/
def acctList (start : Nat) (s : State) : Answer :=
  let ids := idsFrom start s.accounts
  { status := .ok, payload := .accountList (ids.take 32) s.accounts.length (ids.length > 32), state := s }

/-- ACCT_LIST (R29). -/
def execAcctList (tag : Byte) (start : Nat) (s : State) : Outcome State Fault Refusal :=
  .next (request .acctList tag (acctList start) s)

/-- R43: ACCT_UNLOCK. -/
def acctUnlock (id : Nat) (s : State) : Answer :=
  match findAccount id s.accounts with
  | none => refuse .noAccount s
  | some a =>
    { status := .ok, payload := .standing (endLockout a).standing, state := updateAccount id endLockout s }

/-- ACCT_UNLOCK (R43). -/
def execAcctUnlock (tag : Byte) (id : Nat) (s : State) : Outcome State Fault Refusal :=
  .next (request .acctUnlock tag (acctUnlock id) s)

/-- R45: COUNTERS_CLEAR. -/
def countersClear (id : Nat) (s : State) : Answer :=
  if (locksOf s).audit then refuse .locked s
  else match findAccount id s.accounts with
    | none => refuse .noAccount s
    | some a =>
      { status := .ok, payload := .counters a.counters, state := updateAccount id (fun a => { a with counters := {} }) s }

/-- COUNTERS_CLEAR (R45). -/
def execCountersClear (tag : Byte) (id : Nat) (s : State) : Outcome State Fault Refusal :=
  .next (request .countersClear tag (countersClear id) s)

/-- R42: now has reached the lockout end of an account. -/
def lockoutDue (s : State) (id : Nat) : Bool :=
  (findAccount id s.accounts).any fun a => match a.standing with
    | .lockedOut ends => ends ≤ nowSeconds s
    | _ => false

/-- LOCKOUT_EXPIRY (R42); it acts only when it is due (log 3). -/
def execLockoutExpiry (id : Nat) (s : State) : Outcome State Fault Refusal :=
  .next (if s.powered && lockoutDue s id then updateAccount id endLockout s else s)

end Sys2Proof.Machine
end

