-- ==== Sys2Proof/Machine/Carts.lean ====
section
/-! DEFINITION. The cartridge requests and the ends of bus transactions (chapter 5). -/

namespace Sys2Proof.Machine

open Host (Outcome)

/-! ### Requests -/

/-- R108: an item for a slot in flight is an AUTH. -/
def authInFlight (s : State) (i : Fin 4) : Bool :=
  match s.cbc.flight with
  | some (.probe k) => k = i
  | some (.readRecord k) => k = i
  | some (.challenge k _ _ _) => k = i
  | _ => false

/-- R108: a WRITE_BACK of a slot is in flight. -/
def writeBackInFlight (s : State) (i : Fin 4) : Bool :=
  match s.cbc.flight with
  | some (.decrement k _ _ _) => k = i
  | _ => false

/-- R105, R108: an AUTH for a slot is queued or in flight. -/
def authBusy (s : State) (i : Fin 4) : Bool := s.cbc.work.contains (.auth i) || authInFlight s i

/-- R108: a slot as reported. -/
def cartReport (s : State) (i : Fin 4) : CartReport :=
  { slot := { slotRecord s i with drawing := [] }, drawing := (slotRecord s i).drawing.length, authBusy := authBusy s i,
    writeBusy := s.cbc.work.contains (.writeBack i) || writeBackInFlight s i, allow := s.settings.allow,
    lifetime := s.cbc.lifetime }

/-- R108: CART_READ. HISTORY is selector 4 (log 21). -/
def cartRead (selector start : Nat) (s : State) : Answer :=
  match slotField selector with
  | some i => { status := .ok, payload := .cartridge (cartReport s i), state := s }
  | none =>
    if selector = 4 ∧ start ≤ 31 then
      { status := .ok, payload := .history s.cbc.history.length ((s.cbc.history.drop start).take 8), state := s }
    else refuse .badField s

/-- CART_READ (R108). -/
def execCartRead (tag : Byte) (selector start : Nat) (s : State) : Outcome State Fault Refusal :=
  .next (request .cartRead tag (cartRead selector start) s)

/-- R105: CART_REAUTH. -/
def cartReauth (slot : Nat) (s : State) : Answer :=
  match slotField slot with
  | none => refuse .badField s
  | some i =>
    if s.spm.doorOpen then refuse .wrongState s
    else if authBusy s i then refuse .busy s
    else { status := .accepted, state := settle (queueItem (.auth i) (putSlot i { slotRecord s i with failures := 0 } s)) }

/-- CART_REAUTH (R105). -/
def execCartReauth (tag : Byte) (slot : Nat) (s : State) : Outcome State Fault Refusal :=
  .next (request .cartReauth tag (cartReauth slot) s)

/-- R106: some slot is usable under a policy and not under another. -/
def somethingGained (s : State) (before after : Bool) : Bool :=
  cartSlots.any fun i => !usable before (slotRecord s i) && usable after (slotRecord s i)

/-- R106: POLICY_SET: REFUSE 0, ALLOW 1. -/
def policySet (policy : Nat) (s : State) : Answer :=
  match yesNo policy with
  | none => refuse .badField s
  | some allow =>
    if (locksOf s).settings then refuse .locked s
    else if allow = s.settings.allow then { status := .ok, state := s }
    else
      let t := setSettings { s.settings with allow := allow } s
      { status := .ok, state := if somethingGained s s.settings.allow allow then settle (supplyCame t) else t }

/-- POLICY_SET (R106). -/
def execPolicySet (tag : Byte) (policy : Nat) (s : State) : Outcome State Fault Refusal :=
  .next (request .policySet tag (policySet policy) s)

/-- R107: a loaded key tries the slot again. -/
def triedAgain (family : Nat) (c : CartSlot) : Bool :=
  c.family = some family && match c.verification with
    | .genuine => true
    | .suspect _ => true
    | .rejected .unknownFamily => true
    | _ => false

/-- R107: FAMILY_KEY_LOAD; the AUTH items join the list in the order K, C, M, Y (DESIGN CHOICE, log 50). -/
def familyKeyLoad (family : Nat) (key : List Byte) (s : State) : Answer :=
  match slotField family with
  | none => refuse .badField s
  | some f =>
    if key.length ≠ 32 then refuse .badField s
    else if (locksOf s).keys then refuse .locked s
    else
      let k := keysOf s
      let t := setKeys { k with family := k.family.set f (some (BitVec.ofNat 256 (beValue key))) } s
      let t := if t.spm.doorOpen then t
        else settle (cartSlots.foldl (fun s i => if triedAgain family (slotRecord s i) then queueItem (.auth i) s else s) t)
      { status := .ok, state := t }

/-- FAMILY_KEY_LOAD (R107). -/
def execFamilyKeyLoad (tag : Byte) (family : Nat) (key : List Byte) (s : State) : Outcome State Fault Refusal :=
  .next (request .familyKeyLoad tag (familyKeyLoad family key) s)

/-! ### Transactions -/

/-- R92 step 1: the slot ends EMPTY. -/
def endEmpty (i : Fin 4) (s : State) : State :=
  let s := dropFigures i (ceaseVerified i (endFlight s))
  setVerification i .empty (putSlot i { slotRecord s i with serial := none, family := none, failures := 0 } s)

/-- PROBE_COMPLETE (R92 step 1); without a PROBE in flight it has no effect (log 3). -/
def execProbeComplete (acknowledged : Bool) (s : State) : Outcome State Fault Refusal :=
  match s.cbc.flight with
  | some (.probe i) =>
    if !s.powered then .next s
    else if acknowledged then .next { s with cbc := { s.cbc with flight := some (.readRecord i) } }
    else .next (settle (endEmpty i s))
  | _ => .next s

/-- R92 steps 2 and 3: a record read; the slot is rejected, or the CHALLENGE starts with a fresh nonce (R85). The slot keeps the
serial and family it had until the AUTH ends REJECTED, SUSPECT or GENUINE (DESIGN CHOICE, log 69). -/
def takeRecord (i : Fin 4) (record : List Byte) (s : State) : State :=
  if recordByte record 2 ≠ i then rejectRead i .wrongColour record (endFlight s)
  else if !recordUsable record then rejectRead i .unknownFamily record (endFlight s)
  else match familyKey (keysOf s) (recordByte record 1) with
    | none => rejectRead i .unknownFamily record (endFlight s)
    | some k =>
      match draw16 s with
      | (.error test, s) => haltPart (.randomSource test .nonce) s
      | (.ok nonce, s) =>
        { s with cbc := { s.cbc with flight := some (.challenge i record (cartridgeKey k (recordSerial record)) nonce) } }

/-- READ_RECORD_COMPLETE (R92 step 2); without a READ_RECORD in flight it has no effect (log 3). -/
def execReadRecordComplete (record : List Byte) (s : State) : Outcome State Fault Refusal :=
  match s.cbc.flight with
  | some (.readRecord i) =>
    if !s.powered then .next s
    else if record.length ≠ 22 then .fault .recordLength
    else .next (settle (takeRecord i record s))
  | _ => .next s

/-- R92 step 3: the tag a CHALLENGE expects. -/
def challengeTag (record : List Byte) (key : Key) (nonce : Digest) : Digest :=
  cartridgeTag key nonce (recordSerial record) (slice record 16 4)

/-- CHALLENGE_COMPLETE (R92 step 3, R93); without a CHALLENGE in flight it has no effect (log 3). -/
def execChallengeComplete (reply : Digest) (s : State) : Outcome State Fault Refusal :=
  match s.cbc.flight with
  | some (.challenge i record key nonce) =>
    if !s.powered then .next s
    else if reply = challengeTag record key nonce then .next (settle (completeAuth i record (endFlight s)))
    else .next (settle (rejectRead i .tag record (endFlight s)))
  | _ => .next s

/-- R101: the reply's tag is the one expected; without a key none is (log 33). -/
def decrementMatches (s : State) (i : Fin 4) (key : Option Key) (nonce : Digest) (level : BitVec 32) (reply : Digest) : Bool :=
  match key, (slotRecord s i).serial with
  | some k, some serial => reply = cartridgeTag k nonce serial (leBytes 4 level.toNat)
  | _, _ => false

/-- R101, R102, R85: a DECREMENT reply. -/
def takeDecrement (i : Fin 4) (amount : Nat) (ok : Bool) (level : Nat) (s : State) : State :=
  let s := endFlight s
  let s := putSlot i { slotRecord s i with failures := 0 } s
  if ok then completeWriteBack i amount level s else endUnverified i (.rejected .tag) s

/-- DECREMENT_COMPLETE (R101, R102); without a DECREMENT in flight it has no effect (log 3). -/
def execDecrementComplete (level : BitVec 32) (reply : Digest) (s : State) : Outcome State Fault Refusal :=
  match s.cbc.flight with
  | some (.decrement i amount key nonce) =>
    if !s.powered then .next s
    else .next (settle (takeDecrement i amount (decrementMatches s i key nonce level reply) level.toNat s))
  | _ => .next s

/-- RESYNC_COMPLETE (R85); without a RESYNC in flight it has no effect (log 3). -/
def execResyncComplete (s : State) : Outcome State Fault Refusal :=
  match s.cbc.flight with
  | some .resync => if s.powered then .next (settle (endFlight s)) else .next s
  | _ => .next s

/-- R87: the transaction in flight fails. A PROBE and a RESYNC always complete (R85, log 31). -/
def failFlight (s : State) : State :=
  match s.cbc.flight with
  | some (.readRecord i) => settle (failTransaction i (.auth i) s)
  | some (.challenge i _ _ _) => settle (failTransaction i (.auth i) s)
  | some (.decrement i _ _ _) => settle (failTransaction i (.writeBack i) s)
  | _ => s

/-- BUS_TRANSACTION_FAIL (R87). -/
def execBusTransactionFail (s : State) : Outcome State Fault Refusal := .next (if s.powered then failFlight s else s)

/-- CLOCK_STRETCH_LIMIT (R85, R87). -/
def execClockStretchLimit (s : State) : Outcome State Fault Refusal := .next (if s.powered then failFlight s else s)

end Sys2Proof.Machine
end

