-- ==== Sys2Proof/Machine/Jobs.lean ====
section
/-! DEFINITION. The job requests (chapter 1), the hold expiry, and the end of a band on the EXPORT channel. -/

namespace Sys2Proof.Machine

open Host (Outcome)

/-- R2: the lowest-numbered FREE slot. -/
def lowestFree (jt : JobTable) : Option (Fin 64) :=
  ((List.range Config.jobSlots).find? fun i => (jt.slots.get (slotOf i)).job.isNone).map slotOf

/-- R1: the handle of a slot in its present generation. -/
def handleOf (jt : JobTable) (i : Fin 64) : Nat := (jt.slots.get i).generation * 64 + i

/-- R132: the key slot of a new job. -/
def newKey (handle : Nat) (key : Key) : LiveKey :=
  { handle := handle, jobKey := key, encKey := deriveEncKey key, tagKey := deriveTagKey key }

/-- R2: the record of a new job. -/
def newJob (handle owner media copies : Nat) (kind : JobKind) (priv duplex : Bool) : Job :=
  { handle := handle, kind := kind, owner := owner, priv := priv, media := media, duplex := duplex, copies := copies }

/-- R2, R132: the slot is filled, its key slot becomes LIVE, and the job enters INTAKE. -/
def fillSlot (i : Fin 64) (j : Job) (key : Key) (s : State) : State :=
  moveJob j { s with bc := { s.bc with keys := s.bc.keys.set i (some (newKey j.handle key)) } }

/-- R2: JOB_OPEN. -/
def jobOpen (kind owner privacy media sides copies : Nat) (s : State) : Answer :=
  match jobOpenFields kind owner privacy media sides copies with
  | none => refuse .badField s
  | some (k, priv, duplex) =>
    match findAccount owner s.accounts with
    | none => refuse .noAccount s
    | some a =>
      if a.standing = .suspended then refuse .wrongState s
      else if s.se.sanitize.isSome then refuse .busy s
      else match lowestFree s.jt with
        | none => refuse .full s
        | some i =>
          match draw32 s with
          | (.error test, t) => refuse .halted (haltPart (.randomSource test .jobKey) t)
          | (.ok key, t) =>
            let handle := handleOf s.jt i
            { status := .ok, payload := .handle handle, state := fillSlot i (newJob handle owner media copies k priv duplex) key t }

/-- JOB_OPEN (R2). -/
def execJobOpen (tag : Byte) (kind owner privacy media sides copies : Nat) (s : State) : Outcome State Fault Refusal :=
  .next (request .jobOpen tag (jobOpen kind owner privacy media sides copies) s)

/-- R1: a request that names a job by its handle. -/
def onJob (handle : Nat) (rule : Job → State → Answer) (s : State) : Answer :=
  match jobOf s.jt handle with
  | none => refuse .noJob s
  | some j => rule j s

/-- R18, steps 6 and 7, with R41: the PIN is compared, then the colour right, and the job is queued. -/
def releaseWithPin (a : Account) (check : Digest) (pin : List Byte) (j : Job) (s : State) : Answer :=
  if pinValue s pin ≠ check then
    refuse .pinWrong (updateAccount a.id (pinFailed (nowSeconds s) s.settings.limits.lockoutTime) s)
  else
    let s := updateAccount a.id (fun a => { a with pinFailures := 0 }) s
    if hasColourPage j && !a.colourRight then refuse .noColourRight s
    else { status := .ok, state := settle (queueTail j s) }

/-- The job is in HELD. -/
def isHeld (j : Job) : Bool :=
  match j.state with
  | .held _ => true
  | _ => false

/-- R18: JOB_RELEASE, of a valid handle. -/
def releaseJob (pin : List Byte) (j : Job) (s : State) : Answer :=
  if !validPin pin then refuse .badField s
  else if !isHeld j then refuse .wrongState s
  else match findAccount j.owner s.accounts with
    | none => refuse .wrongState s
    | some a =>
      match a.standing with
      | .suspended => refuse .wrongState s
      | .lockedOut _ => refuse .lockedOut s
      | .active =>
        match a.pinCheck with
        | none => refuse .noPin s
        | some check => releaseWithPin a check pin j s

/-- R18: JOB_RELEASE. -/
def jobRelease (handle : Nat) (pin : List Byte) (s : State) : Answer := onJob handle (releaseJob pin) s

/-- JOB_RELEASE (R18). -/
def execJobRelease (tag : Byte) (handle : Nat) (pin : List Byte) (s : State) : Outcome State Fault Refusal :=
  .next (request .jobRelease tag (jobRelease handle pin) s)

/-- R28: a band of the job is going out on the EXPORT channel. -/
def isSending (j : Job) (s : State) : Option ExportBand :=
  match s.jt.exportPhase with
  | .sending b => if s.jt.exporter.active = some j.handle then some b else none
  | _ => none

/-- R16: a QUEUED, ACTIVE or STALLED job is closed, or drains while sheets of it are in the path. -/
def cancelPlaced (j : Job) (s : State) : State :=
  if j.inFlight = 0 then settle (closeJob .cancelled j.handle s)
  else settle (moveJob { j with state := .draining .cancel } (leavePlace j s))

/-- R16: JOB_CANCEL, of a valid handle. -/
def cancelJob (j : Job) (s : State) : Answer :=
  match j.state with
  | .scrub _ => refuse .wrongState s
  | .draining .cancel => { status := .ok, state := s }
  | .draining .ends => { status := .ok, state := moveJob { j with state := .draining .cancel } s }
  | .intake => { status := .ok, state := settle (closeJob .cancelled j.handle s) }
  | .held _ => { status := .ok, state := settle (closeJob .cancelled j.handle s) }
  | .queued => { status := .ok, state := cancelPlaced j s }
  | .stalled _ _ _ => { status := .ok, state := cancelPlaced j s }
  | .active =>
    match isSending j s with
    | some b => { status := .ok, state := { s with jt := { s.jt with exportPhase := .sending { b with cancelling := true } } } }
    | none => { status := .ok, state := cancelPlaced j s }

/-- R16: JOB_CANCEL. -/
def jobCancel (handle : Nat) (s : State) : Answer := onJob handle cancelJob s

/-- JOB_CANCEL (R16). -/
def execJobCancel (tag : Byte) (handle : Nat) (s : State) : Outcome State Fault Refusal :=
  .next (request .jobCancel tag (jobCancel handle) s)

/-- R14, R15: a stall that a pause replaces and a resume lifts. -/
def resumable : StallCause → Bool
  | .credit => true
  | .supply => true
  | .account => true
  | _ => false

/-- R14: JOB_PAUSE, of a valid handle. -/
def pauseJob (j : Job) (s : State) : Answer :=
  match j.state with
  | .queued => { status := .ok, state := stallJob .paused j (leavePlace j s) }
  | .active =>
    match isSending j s with
    | some b => { status := .ok, state := { s with jt := { s.jt with exportPhase := .sending { b with pausing := true } } } }
    | none => { status := .ok, state := settle (stallJob .paused j (leavePlace j s)) }
  | .stalled cause _ _ =>
    if cause = .paused then { status := .ok, state := s }
    else if resumable cause then { status := .ok, state := stallJob .paused j s }
    else refuse .wrongState s
  | _ => refuse .wrongState s

/-- R14: JOB_PAUSE. -/
def jobPause (handle : Nat) (s : State) : Answer := onJob handle pauseJob s

/-- JOB_PAUSE (R14). -/
def execJobPause (tag : Byte) (handle : Nat) (s : State) : Outcome State Fault Refusal :=
  .next (request .jobPause tag (jobPause handle) s)

/-- R15: JOB_RESUME, of a valid handle. -/
def resumeJob (j : Job) (s : State) : Answer :=
  match j.state with
  | .stalled cause _ _ =>
    if cause = .paused || resumable cause then { status := .ok, state := settle (queueTail j s) } else refuse .wrongState s
  | _ => refuse .wrongState s

/-- R15: JOB_RESUME. -/
def jobResume (handle : Nat) (s : State) : Answer := onJob handle resumeJob s

/-- JOB_RESUME (R15). -/
def execJobResume (tag : Byte) (handle : Nat) (s : State) : Outcome State Fault Refusal :=
  .next (request .jobResume tag (jobResume handle) s)

/-- R17: the states in which a page may be skipped. -/
def skippable (j : Job) : Bool :=
  match j.state with
  | .held _ => true
  | .queued => true
  | .stalled _ _ _ => true
  | _ => false

/-- The page's SKIPPED flag is set in the job record. -/
def skipPage (page : Nat) (j : Job) : Job :=
  { j with pages := j.pages.modify (page - 1) fun p => { p with skipped := true } }

/-- R17: JOB_SKIP_PAGE, of a valid handle. The state is tested before the page number (log 29). -/
def skipOnJob (page : Nat) (j : Job) (s : State) : Answer :=
  if !skippable j then refuse .wrongState s
  else match pageEntry j page with
    | none => refuse .badField s
    | some p =>
      if p.skipped then { status := .ok, state := s }
      else if stalledWith .image j then { status := .ok, state := settle (queueHead (skipPage page j) s) }
      else { status := .ok, state := setJob (skipPage page j) s }

/-- R17: JOB_SKIP_PAGE. -/
def jobSkipPage (handle page : Nat) (s : State) : Answer := onJob handle (skipOnJob page) s

/-- JOB_SKIP_PAGE (R17). -/
def execJobSkipPage (tag : Byte) (handle page : Nat) (s : State) : Outcome State Fault Refusal :=
  .next (request .jobSkipPage tag (jobSkipPage handle page) s)

/-- R20: up to 16 page entries from a page number on, each with its number. -/
def pagesFrom (j : Job) (first : Nat) : List (Nat × PageEntry) :=
  (((List.range j.pages.length).map (· + 1)).zip j.pages |>.drop (first - 1)).take 16

/-- The state of a job as JOB_READ reports it: the record of section 1.1 has no place in the order of stalls, and the report
carries 0 for it (DESIGN CHOICE, log 26). -/
def reportedState : JobState → JobState
  | .stalled cause time _ => .stalled cause time 0
  | state => state

/-- R20: the report of a job: the fields of its record, the extent list among them, without expected page and band; of the page
directory, the entries the first page number selects. -/
def jobReport (j : Job) (first : Nat) : JobReport :=
  { job := { j with state := reportedState j.state, pages := [], expected := none }, pages := j.pages.length,
    blocks := (j.extents.map (·.count)).sum, list := pagesFrom j first }

/-- R20: JOB_READ. -/
def jobRead (handle first : Nat) (s : State) : Answer :=
  onJob handle (fun j s =>
    if first = 0 then refuse .badField s else { status := .ok, payload := .job (jobReport j first), state := s }) s

/-- JOB_READ (R20). -/
def execJobRead (tag : Byte) (handle first : Nat) (s : State) : Outcome State Fault Refusal :=
  .next (request .jobRead tag (jobRead handle first) s)

/-- R19: now has reached the hold deadline of a HELD job. -/
def holdDue (s : State) (handle : Nat) : Bool :=
  (jobOf s.jt handle).any fun j => match j.state with
    | .held deadline => deadline ≤ nowSeconds s
    | _ => false

/-- HOLD_EXPIRY (R19); it acts only when it is due (log 3). -/
def execHoldExpiry (handle : Nat) (s : State) : Outcome State Fault Refusal :=
  .next (if s.powered && holdDue s handle then settle (closeJob .expired handle s) else s)

/-- R27: a page whose last band has gone out is counted. -/
def countPage (page : Nat) (j : Job) : Job :=
  { j with delivered := satAdd j.delivered 1 Config.counterMax, nextSheet := page }

/-- R27, R28: the end of a band: the page is counted, then a cancel, a pause or the next band follows (log 18). -/
def bandSent (b : ExportBand) (j : Job) (s : State) : State :=
  let j := if b.lastBand then countPage b.page j else j
  let s := setJob j { s with jt := { s.jt with exportPhase := .idle } }
  if b.cancelling then closeJob .cancelled j.handle s
  else if b.pausing then stallJob .paused j (leaveActive j s)
  else if b.lastBand then s
  else match beginRead .exporter j.handle b.page (b.index + 1) s with
    | (some _, s) => stallActive .image j.handle (b.page - 1) s
    | (none, s) => { s with jt := { s.jt with exportPhase := .reading b.page (b.index + 1) } }

/-- EXPORT_BAND_SENT (R27); without a band going out it has no effect (log 3). -/
def execExportBandSent (s : State) : Outcome State Fault Refusal :=
  match s.jt.exportPhase, activeJob s .exporter with
  | .sending b, some j => .next (if s.powered then settle (bandSent b j s) else s)
  | _, _ => .next s

end Sys2Proof.Machine
end

