-- ==== Sys2Proof/Machine/Faults.lean ====
section
/-! DEFINITION. The fault requests (chapter 9). -/

namespace Sys2Proof.Machine

open Host (Outcome)

/-- R162: the faults as they stand. -/
def faultReport (s : State) : FaultReport :=
  { part := s.fm.part, backlog := s.fm.backlog, overflow := s.fm.overflow, queue := s.fm.queue,
    notes := s.fm.notes.toList, haltRecord := s.fm.haltRecord }

/-- R162: FAULT_READ. -/
def faultRead (s : State) : Answer := { status := .ok, payload := .faults (faultReport s), state := s }

/-- FAULT_READ (R162). -/
def execFaultRead (tag : Byte) (s : State) : Outcome State Fault Refusal := .next (request .faultRead tag faultRead s)

/-- R160: a record leaves the queue; where three are left the backlog is cleared and the overflow count set to 0. -/
def acknowledge (number : Nat) (s : State) : State :=
  let queue := s.fm.queue.filter (·.record.number != number)
  let t := { s with fm := { s.fm with queue := queue } }
  if s.fm.backlog && queue.length = 3 then
    settle (askPart (evaluatePermit { t with fm := { t.fm with backlog := false, overflow := 0 } }))
  else t

/-- R160: FAULT_ACK with a fault number. The reply's figures are formed before what the reopened intake link does in the
same event (DESIGN CHOICE, log 47). -/
def faultAck (number : Nat) (s : State) : Answer :=
  if number = 0 then refuse .badField s
  else if !(s.fm.queue.any (·.record.number == number)) then refuse .wrongState s
  else
    let left := (s.fm.queue.filter (·.record.number != number)).length
    { status := .ok, payload := .acknowledged left (s.fm.backlog && left != 3) s.fm.overflow, state := acknowledge number s }

/-- FAULT_ACK with a fault number (R160). -/
def execFaultAck (tag : Byte) (number : Nat) (s : State) : Outcome State Fault Refusal :=
  .next (request .faultAck tag (faultAck number) s)

/-- R168: FAULT_ACK with HALT_RECORD. -/
def haltRecordAck (s : State) : Answer :=
  if s.fm.haltRecord.isNone then refuse .wrongState s
  else { status := .ok, state := askPart (clearHaltRecord s) }

/-- FAULT_ACK with HALT_RECORD (R168). -/
def execFaultAckHaltRecord (tag : Byte) (s : State) : Outcome State Fault Refusal :=
  .next (request .faultAck tag haltRecordAck s)

/-- R163: a job's last fault, and whether it stands in the fault queue. -/
def senseReport (s : State) (j : Job) : Option (JobRecord × Bool) :=
  j.lastFault.map fun r => (r, s.fm.queue.any (·.record == r))

/-- R163: SENSE. -/
def sense (handle : Nat) (s : State) : Answer :=
  onJob handle (fun j s => { status := .ok, payload := .sense (senseReport s j), state := s }) s

/-- SENSE (R163). -/
def execSense (tag : Byte) (handle : Nat) (s : State) : Outcome State Fault Refusal :=
  .next (request .sense tag (sense handle) s)

end Sys2Proof.Machine
end

