-- ==== Sys2Proof/Machine/Media.lean ====
section
/-! DEFINITION. The intake events, the completions of the media port, and the spool and scrub requests (chapters 6
and 8). -/

namespace Sys2Proof.Machine

open Host (Outcome)

/-! ### Intake events -/

/-- INTAKE_BAND (R21): a band waits at the link and is taken when the link takes bands (log 14). -/
def execIntakeBand (b : Band) (s : State) : Outcome State Fault Refusal :=
  .next (if s.powered then settle { s with jt := { s.jt with waiting := s.jt.waiting ++ [b] } } else s)

/-- R25: the expired hold aborts the held band's job; the band is discarded without a note. -/
def abortHeld (s : State) : State :=
  match s.jt.held with
  | some h =>
    if h.reason = .room then
      abortJob .spoolFull .spoolFull h.band.handle h.band.page 0 { s with jt := { s.jt with held := none } }
    else s
  | none => s

/-- R118: the expired wait aborts the image's job. The record's page is that of the job's held band, or 0 (log 20). -/
def abortImage (heldPage : Nat) (s : State) : State :=
  match s.smc.programming with
  | some p =>
    if p.phase = .needsBlock then abortJob .spoolFull .spoolFull p.handle heldPage 0 s else s
  | none => s

/-- The page of the band a job has held; 0 where it has none (log 20). -/
def heldPageOf (s : State) (handle : Nat) : Nat :=
  match s.jt.held with
  | some h => if h.band.handle = handle then h.band.page else 0
  | none => 0

/-- The job whose band is held for room. -/
def roomHolder (s : State) : Option Nat :=
  match s.jt.held with
  | some h => if h.reason = .room then some h.band.handle else none
  | none => none

/-- The job whose image waits for a block. -/
def imageHolder (s : State) : Option Nat :=
  match s.smc.programming with
  | some p => if p.phase = .needsBlock then some p.handle else none
  | none => none

/-- R25, R118: the intake stall timer expires. A band held for the image buffer whose own job the expiry of R118 aborts is
discarded by that job's close, with the STRAY_BAND note of R25 (DESIGN CHOICE, log 46). -/
def expireStall (s : State) : State :=
  let s := { s with jt := { s.jt with stallTimer := none } }
  match imageHolder s with
  | some h => if roomHolder s = some h then abortHeld s else abortHeld (abortImage (heldPageOf s h) s)
  | none => abortHeld s

/-- INTAKE_STALL_EXPIRY (R25, R118); it acts only when it is due (log 3). -/
def execIntakeStallExpiry (s : State) : Outcome State Fault Refusal :=
  .next (if s.powered && s.jt.stallTimer.any (· ≤ nowMs s) then settle (expireStall s) else s)

/-! ### A read (R122 to R125, R136, R137) -/

/-- The result of reading one codeword: corrected, corrected only on a reread, or uncorrectable (R123, R124). -/
inductive CodewordResult | corrected (bits : Nat) | reread (bits : Nat) | uncorrectable
  deriving DecidableEq, Repr, Inhabited

/-- R124: the outcome of a codeword from its first read and its rereads, of which so many are allowed; a codeword not
listed read clean (log 28). -/
def codewordResult (retries : Nat) (outcomes : List (Option Nat)) : CodewordResult :=
  match outcomes with
  | [] => .corrected 0
  | some n :: _ => .corrected n
  | none :: rereads =>
    match (rereads.take retries).findSome? id with
    | some n => .reread n
    | none => .uncorrectable

/-- The results of the codewords of a band with their blocks, in the order read (R122). -/
def bandResults (retries : Nat) (blocks : List Nat) (codewords : List (List (Option Nat))) : List (Nat × CodewordResult) :=
  (List.range blocks.length).map fun k => (blocks.getD k 0, codewordResult retries (codewords.getD k []))

/-- R124: the read ends at the first uncorrectable codeword: what was read before it, and its block. -/
def readUpTo : List (Nat × CodewordResult) → List (Nat × CodewordResult) × Option Nat
  | [] => ([], none)
  | (b, .uncorrectable) :: _ => ([], some b)
  | r :: rest => (r :: (readUpTo rest).1, (readUpTo rest).2)

/-- The bits corrected in a codeword. -/
def bitsOf : CodewordResult → Nat
  | .corrected n => n
  | .reread n => n
  | .uncorrectable => 0

/-- R123: a codeword flags its block weak. -/
def flagsWeak (weakLimit : Nat) : CodewordResult → Bool
  | .corrected n => n ≥ weakLimit
  | .reread _ => true
  | .uncorrectable => false

/-- R123: a block read is flagged weak where its codewords call for it, with its note at the setting of the flag. -/
def findWeak (weakLimit : Nat) (results : List (Nat × CodewordResult)) (s : State) (block : Nat) : State :=
  let own := (results.filter (·.1 == block)).map (·.2)
  if own.any (flagsWeak weakLimit) && !(s.smc.weak.contains block) then
    raiseNote (.eccWeak block ((own.map bitsOf).foldl max 0)) { s with smc := { s.smc with weak := s.smc.weak ++ [block] } }
  else s

/-- The results of a read for the one who asked (R122 to R125, R133). -/
inductive ReadResult
  | data (plain : List Byte)
  | failed (block : Nat)
  | noKey
  deriving DecidableEq, Repr, Inhabited

/-- The job a read belongs to is not closed. -/
def readJobLive (s : State) (handle : Nat) : Bool := (jobOf s.jt handle).any isLive

/-- R124: a block is unreadable. -/
def findUnreadable (q : ReadRequest) (block : Nat) (s : State) : State :=
  let fresh := (markOf s.smc block).isNone
  let s := { s with smc := markBlock .media block s.smc }
  if readJobLive s q.handle then
    let s := flagPage q.handle q.page s
    if fresh then raiseJobFault (jobFault .imageUnreadable q.handle q.page block) s else s
  else s

/-- R125, R137: a band failed its tag. -/
def findTampered (q : ReadRequest) (place : BandPlace) (s : State) : State :=
  let s := { s with smc := (placeBlocks place).foldl (fun m b => markBlock .cipher b m) s.smc }
  let s := flagPage q.handle q.page s
  if readJobLive s q.handle then raiseJobFault (jobFault .imageTampered q.handle q.page place.block) s else s

/-- R122, R124: what a read's codewords come to: those read, and the block of the first uncorrectable one. -/
def codewordsRead (place : BandPlace) (retries : Nat) (r : BandRead) : List (Nat × CodewordResult) × Option Nat :=
  readUpTo (bandResults retries (placeCodewords place) r.codewords)

/-- R122, R136: a read with every codeword clean or corrected delivers the band at its stored length. Bytes given beyond it
are none of the band's, and bytes not given are free (DESIGN CHOICE, log 28). -/
def bandDelivered (instant length : Nat) (given : List Byte) : List Byte :=
  given.take length ++ (List.range (length - given.length)).map fun k => Config.freeRead instant (given.length + k)

/-- R122 to R125, R133, R136: the findings of a read, and its result. -/
def judgeRead (q : ReadRequest) (place : BandPlace) (retries weakLimit : Nat) (r : BandRead) (s : State) :
    ReadResult × State :=
  let (read, dead) := codewordsRead place retries r
  let s := (placeBlocks place).foldl (findWeak weakLimit read) s
  match dead with
  | some block => (.failed block, findUnreadable q block s)
  | none =>
    match liveKey s q.handle with
    | none => (.noKey, s)
    | some k =>
      match openBand k q.page q.index (bandDelivered s.clock place.length r.stored) with
      | some plain => (.data plain, s)
      | none => (.failed place.block, findTampered q place s)

/-- R56: a staging entry that takes a band goes on with the next band, the next side, or its figures. -/
def advanceStaging (j : Job) (e : StagingEntry) (side band : Nat) (plain : List Byte) (s : State) : StagingEntry × State :=
  let e := { e with image := e.image.modify side fun bands => bands ++ [plain] }
  let next := match e.sides[side]? with
    | some (.page n _) => if band < bandsOf j n then some (side, n, band + 1) else (sideFrom e.sides (side + 1)).map fun p => (p.1, p.2, 1)
    | _ => none
  match next with
  | some (side, page, band) =>
    let (marked, s) := beginRead .staging j.handle page band s
    ({ e with state := readingState side band page marked }, s)
  | none => ({ e with state := .ready (sheetFigures s j e.sides) }, s)

/-- The staging entry in READING takes a new content. -/
def replaceReading (e : StagingEntry) (entries : List StagingEntry) : List StagingEntry :=
  entries.map fun x => if isReading x then e else x

/-- R56, R58: the result of a staging read reaches its entry. -/
def stagingTakes (q : ReadRequest) (result : ReadResult) (s : State) : State :=
  match s.spm.staging.find? isReading, jobOf s.jt q.handle with
  | some e, some j =>
    match e.state, result with
    | .reading side band, .data plain =>
      let (e, s) := advanceStaging j e side band plain s
      { s with spm := { s.spm with staging := replaceReading e s.spm.staging } }
    | .reading _ _, .failed block =>
      { s with spm := { s.spm with staging := replaceReading { e with state := .failed q.page block } s.spm.staging } }
    | _, _ => s
  | _, _ => s

/-- R27: a band goes out under its header. -/
def exportBand (instant : Nat) (j : Job) (page index : Nat) (plain : List Byte) : ExportBand :=
  { page := page, index := index, lastBand := isPageEnd j page index, lastPage := isJobEnd j page index,
    coverage := outCoverage j page index, header := bandHeader instant j page index plain.length, data := plain }

/-- R27, R28: the result of an export read. -/
def exportTakes (q : ReadRequest) (result : ReadResult) (s : State) : State :=
  match jobOf s.jt q.handle, result with
  | some j, .data plain => { s with jt := { s.jt with exportPhase := .sending (exportBand s.clock j q.page q.index plain) } }
  | some _, .failed _ => stallActive .image q.handle (q.page - 1) s
  | _, _ => s

/-- The result of a read goes to the one who asked, unless it has given it up (R122). -/
def handResult (q : ReadRequest) (result : ReadResult) (s : State) : State :=
  if q.dropped then s
  else match q.reader with
    | .staging => stagingTakes q result s
    | .exporter => exportTakes q result s

/-- The operation in flight has ended. -/
def endPortFlight (s : State) : State := { s with smc := { s.smc with inFlight := none } }

/-- READ_COMPLETE (R122 to R125); without a read in flight it has no effect (log 3). -/
def execReadComplete (r : BandRead) (s : State) : Outcome State Fault Refusal :=
  match s.smc.inFlight with
  | some (.read q place _ retries weakLimit) =>
    if !s.powered then .next s
    else
      let (result, t) := judgeRead q place retries weakLimit r (endPortFlight s)
      .next (settle (handResult q result t))
  | _ => .next s

/-! ### A program (R117 to R120) -/

/-- R118: a first failure: a remap and a second attempt, or a move to a fresh block, now or when there is room. -/
def firstFailure (p : ProgrammingImage) (s : State) : State :=
  match remapBlock p.block s with
  | some t =>
    enterOp (.program p.handle p.block true)
      { t with smc := { t.smc with programming := some { p with second := true, phase := .waiting } } }
  | none =>
    let t := { s with smc := { s.smc with programming := some { p with phase := .needsBlock } } }
    match moveImage t with
    | some u => u
    | none =>
      if t.jt.stallTimer.isSome then t
      else { t with jt := { t.jt with stallTimer := some (nowMs t + t.settings.limits.intakeStallLimit * 1000) } }

/-- R119, R24: the page in intake: the page expected next, so between two pages the one not yet begun; 0 where the job is
no longer in intake (DESIGN CHOICE, log 20). -/
def pageInIntake (j : Job) : Nat := (j.expected.map (·.1)).getD 0

/-- R119: a second failure: the block is remapped or retired, and the job is aborted. The note of the block's handling is
made before the MEDIA_WRITE record (DESIGN CHOICE, log 51). -/
def secondFailure (p : ProgrammingImage) (s : State) : State :=
  let s := { s with smc := { s.smc with programming := none } }
  let s := match remapBlock p.block s with
    | some t => t
    | none => retireBlock .program p.block s
  let page := ((jobOf s.jt p.handle).map pageInIntake).getD 0
  abortJob .mediaWrite .mediaWrite p.handle page p.block s

/-- R120: a program that failed for a closed job: its block is remapped, or retired and taken off the scrub list. -/
def closedJobFailure (block : Nat) (s : State) : State :=
  match remapBlock block s with
  | some t => t
  | none =>
    let s := if s.se.work.any (·.block = block) then
        { s with se := { s.se with work := none }, smc := { s.smc with ops := s.smc.ops.filter (· != .erase block) } }
      else s
    retireScrubbed .program block s

/-- R117 to R120: a program ends. -/
def endProgram (handle block : Nat) (second ok : Bool) (s : State) : State :=
  let s := endPortFlight s
  let image := s.smc.programming
  let s := { s with smc := { s.smc with programming := none } }
  if readJobLive s handle then
    match image with
    | some p => if ok then s else if second then secondFailure p s else firstFailure p s
    | none => s
  else if ok then s
  else closedJobFailure block s

/-- PROGRAM_COMPLETE (R117 to R120); without a program in flight it has no effect (log 3). -/
def execProgramComplete (ok : Bool) (s : State) : Outcome State Fault Refusal :=
  match s.smc.inFlight with
  | some (.program handle block second _) => if s.powered then .next (settle (endProgram handle block second ok s)) else .next s
  | _ => .next s

/-! ### Erase and verify (R145 to R148, R151) -/

/-- SE has no block in work. -/
def endWork (s : State) : State := { s with se := { s.se with work := none } }

/-- R145, R146: the block in work begins an erase or a verify. -/
def workOn (block : Nat) (verifying second : Bool) (s : State) : State :=
  enterOp (if verifying then .verify block else .erase block)
    { s with se := { s.se with work := some { block := block, verifying := verifying, second := second } } }

/-- R146: a failed pass of the block in work. -/
def failedPass (w : BlockInWork) (s : State) : State :=
  if !w.second then workOn w.block false true s
  else match remapBlock w.block s with
    | some t => workOn w.block false false t
    | none => endWork (retireScrubbed .scrub w.block s)

/-- R145, R113: the block returns CLEAN to the tail of the free list. SE's report of R143 frees the slot of a
job whose last block this was, with its JOB_STATE notice, before JT stores a band held for want of a block (R25), with its
PAGE_STORED notice: R145 names both and orders neither (DESIGN CHOICE, log 62). -/
def returnClean (block : Nat) (s : State) : State :=
  let s := setDefects { s.smc.defects with clean := insertNumber block s.smc.defects.clean } s
  let s := { s with smc := { clearMark block s.smc with free := s.smc.free ++ [block] } }
  leaveScrub block (endWork (countReturned s))

/-- R145, R147: an erase of the block in work ends. -/
def endErase (w : BlockInWork) (ok : Bool) (s : State) : State :=
  if s.smc.weak.contains w.block then endWork (retireScrubbed .weak w.block s)
  else if ok then workOn w.block true w.second s
  else failedPass w s

/-- R145: a verify passes where every byte of the 256 codewords and the spare area reads FFh. -/
def verifyPasses (r : VerifyRead) : Bool := r.data.all (·.2 = 0xFF) && r.spare.all (·.2 = 0xFF)

/-- R145, R147: a verify of the block in work ends. -/
def endVerify (w : BlockInWork) (ok : Bool) (s : State) : State :=
  if s.smc.weak.contains w.block then endWork (retireScrubbed .weak w.block s)
  else if ok then returnClean w.block s
  else failedPass w s

/-- ERASE_COMPLETE (R145); after a halt the outcome is not acted on (R151); without an erase in flight it has no effect
(log 3). -/
def execEraseComplete (ok : Bool) (s : State) : Outcome State Fault Refusal :=
  match s.smc.inFlight with
  | some (.erase _ _) =>
    if !s.powered then .next s
    else match s.se.work with
      | some w => .next (settle (endErase w ok (endPortFlight s)))
      | none => .next (settle (endPortFlight s))
  | _ => .next s

/-- VERIFY_COMPLETE (R145) with what the verify read (log 43); after a halt the outcome is not acted on (R151); without a verify in flight it has no effect
(log 3). -/
def execVerifyComplete (r : VerifyRead) (s : State) : Outcome State Fault Refusal :=
  match s.smc.inFlight with
  | some (.verify _ _) =>
    if !s.powered then .next s
    else match s.se.work with
      | some w => .next (settle (endVerify w (verifyPasses r) (endPortFlight s)))
      | none => .next (settle (endPortFlight s))
  | _ => .next s

/-! ### Requests (R128, R129, R153) -/

/-- R128: a buffer image as reported. -/
def fillingReport (f : FillingImage) : ImageReport := { handle := f.handle, block := f.block, filled := f.filled }

/-- R128: the programming image as reported, with its attempt and phase. An image that waits for a block (R118) has no
program: it is reported so, with the attempt that failed (DESIGN CHOICE, log 52). -/
def programmingReport (p : ProgrammingImage) : ImageReport × Bool × ProgramPhase :=
  ({ handle := p.handle, block := p.block, filled := p.filled }, p.second, p.phase)

/-- R128: one block as reported. -/
def blockReport (s : State) (block : Nat) : BlockReport :=
  { state := blockState s block, weak := s.smc.weak.contains block, marked := markOf s.smc block,
    physical := resolve s.smc.defects block, handle := ownerOfBlock s.jt block }

/-- R128: the spool as it stands. -/
def spoolReport (s : State) (block : Option Nat) : SpoolReport :=
  { clean := s.smc.free.length, allocated := ((allJobs s.jt).map fun j => (j.extents.map (·.count)).sum).sum,
    dirty := s.se.list.length, retired := s.smc.defects.retired.length, free := s.smc.free.length,
    scrub := s.se.list.length, weak := s.smc.weak.length, marked := s.smc.marked.length,
    remaps := s.smc.defects.remap.length, spares := unusedSpares s.smc.defects,
    filling := s.smc.filling.map fillingReport, programming := s.smc.programming.map programmingReport,
    class1 := s.smc.ops.countP (classOf · == 1), class2 := s.smc.ops.countP (classOf · == 2),
    class3 := s.smc.ops.countP (classOf · == 3), flight := s.smc.inFlight.map flightClass,
    block := block.map (blockReport s) }

/-- R128: SPOOL_READ. -/
def spoolRead (block : Option Nat) (s : State) : Answer :=
  if block.all (· < Config.logicalBlocks) then { status := .ok, payload := .spool (spoolReport s block), state := s }
  else refuse .badField s

/-- SPOOL_READ (R128). -/
def execSpoolRead (tag : Byte) (block : Option Nat) (s : State) : Outcome State Fault Refusal :=
  .next (request .spoolRead tag (spoolRead block) s)

/-- R129: a CLEAN block leaves the free list and is retired. -/
def retireClean (block : Nat) (s : State) : State :=
  let s := setDefects { s.smc.defects with clean := s.smc.defects.clean.erase block } s
  retireBlock .host block { s with smc := { s.smc with free := s.smc.free.erase block } }

/-- R129: BLOCK_RETIRE. -/
def blockRetire (block : Nat) (s : State) : Answer :=
  if block ≥ Config.logicalBlocks then refuse .badField s
  else match blockState s block with
    | .retired => { status := .ok, state := s }
    | .clean => { status := .ok, state := retireClean block s }
    | .allocated =>
      { status := .accepted,
        state := if s.smc.weak.contains block then s else { s with smc := { s.smc with weak := s.smc.weak ++ [block] } } }
    | .dirty =>
      { status := .accepted,
        state := if s.smc.weak.contains block then s else { s with smc := { s.smc with weak := s.smc.weak ++ [block] } } }

/-- BLOCK_RETIRE (R129). -/
def execBlockRetire (tag : Byte) (block : Nat) (s : State) : Outcome State Fault Refusal :=
  .next (request .blockRetire tag (blockRetire block) s)

/-- R130, R153: a sanitize of a kind begins: the free list goes to the scrub list, and no block is CLEAN. Where no block was,
DEFECTS does not change and is not written (section 6). -/
def beginSanitize (tag : Byte) (wipe : Bool) (s : State) : State :=
  let moved := s.smc.free.map fun b => ({ block := b, origin := .sanitize } : ScrubEntry)
  let s := if s.smc.defects.clean.isEmpty then s else setDefects { s.smc.defects with clean := [] } s
  askPart { s with
    smc := { s.smc with free := [] }
    se := { s.se with list := s.se.list ++ moved, sanitize := some { tag := tag, wipe := wipe } } }

/-- R153: SANITIZE. With no block left to scrub (every block RETIRED) it completes within the request, its DONE and PART
notices ahead of the ACCEPTED reply (DESIGN CHOICE, log 61). -/
def sanitize (tag : Byte) (s : State) : Answer :=
  if s.se.sanitize.isSome then refuse .busy s
  else if (allJobs s.jt).any isLive then refuse .busy s
  else if s.spm.supply.level = some false then refuse .powerLow s
  else { status := .accepted, state := settle (beginSanitize tag false s) }

/-- SANITIZE (R153). -/
def execSanitize (tag : Byte) (s : State) : Outcome State Fault Refusal := .next (request .sanitize tag (sanitize tag) s)

end Sys2Proof.Machine
end

