-- ==== Sys2Proof/Machine/Path.lean ====
section
/-! DEFINITION. The sheet path (chapter 3): the sense channels, the door, edges and deadlines, JAM_CLEAR, PATH_READ
and the engine's request. -/

namespace Sys2Proof.Machine

open Host (Outcome)

/-! ### Sense channels (R48, R49) -/

/-- R48: V_th of a code in 1/256 mV: 3300 mV × (d + 1) / 256. -/
def thresholdVoltage (code : Nat) : Nat := 3300 * (code + 1)

/-- R48: 25 mV in 1/256 mV. -/
def hysteresisBand : Nat := 6400

/-- R48: the comparator result (true for above) from its last value, if it has one. Formed anew with the hysteresis ON it is
above at or above V_th, at the codes 254 and 255 too (DESIGN CHOICE, log 49). -/
def comparator (c : ChannelSettings) (last : Option Bool) (input : Nat) : Bool :=
  let v := thresholdVoltage c.code
  match c.hysteresis, last with
  | true, some true => !(input + hysteresisBand ≤ v)
  | true, some false => input ≥ v + hysteresisBand
  | true, none => input ≥ v
  | false, _ => input ≥ v

/-- R48: the raw level (true for present, or good). -/
def rawLevel (c : ChannelSettings) (above : Bool) : Bool := above == c.highWhenAbove

/-- R48: a filter width in half milliseconds. -/
def filterTicks : FilterWidth → Nat
  | .off => 0
  | .half => 1
  | .one => 2
  | .two => 4

/-- The state of a channel. -/
def channelOf (p : SheetPath) : Channel → SenseChannel
  | .feed => p.feed
  | .exit => p.exit
  | .supply => p.supply

/-- The state of a channel is replaced. -/
def putChannel (ch : Channel) (c : SenseChannel) (s : State) : State :=
  match ch with
  | .feed => { s with spm := { s.spm with feed := c } }
  | .exit => { s with spm := { s.spm with exit := c } }
  | .supply => { s with spm := { s.spm with supply := c } }

/-- The settings of a channel. -/
def channelSettings (g : Settings) : Channel → ChannelSettings
  | .feed => g.feed
  | .exit => g.exit
  | .supply => g.supply

/-- The settings of a channel are replaced. -/
def putChannelSettings (ch : Channel) (c : ChannelSettings) (g : Settings) : Settings :=
  match ch with
  | .feed => { g with feed := c }
  | .exit => { g with exit := c }
  | .supply => { g with supply := c }

/-- R49: a channel with a new comparator result: the filter wait runs while the raw level differs from the filtered
level, and is dropped where they agree. A wait already running keeps its start, also where SENSE_SET formed the result anew
(R50; DESIGN CHOICE, log 48). A channel without a level (R69) keeps none. -/
def watchLevel (g : ChannelSettings) (clock : Nat) (above : Bool) (c : SenseChannel) : SenseChannel :=
  match c.level with
  | none => c
  | some level =>
    { c with above := some above, since := if rawLevel g above = level then none else some (c.since.getD clock) }

/-- R49: at start-up the filtered level is set to the raw level, without a wait and without an edge. -/
def initialLevel (g : ChannelSettings) (c : SenseChannel) : SenseChannel :=
  let above := comparator g none c.input
  { c with above := some above, level := some (rawLevel g above), since := none }

/-- R49: the raw level has held a value other than the filtered level for the filter width. -/
def edgeDue (s : State) (ch : Channel) : Bool :=
  (channelOf s.spm ch).since.any fun t => t + filterTicks (channelSettings s.settings ch).filter ≤ s.clock

/-! ### Edges (R61 to R63) -/

/-- R61: the oldest GRANTED sheet of a queue enters; the sheet entered and the queue after it. -/
def enterOldest (now : Nat) : List Sheet → Option (Sheet × List Sheet)
  | [] => none
  | sh :: rest =>
    if sh.entered then (enterOldest now rest).map fun r => (r.1, sh :: r.2)
    else some (sh, { sh with entered := true, deadline := now + sh.transit } :: rest)

/-- R61, R63: a FEED leading edge with the path CLEAR and the part RUNNING. -/
def feedEdge (s : State) : State :=
  match enterOldest (nowMs s) s.spm.sheets with
  | some (sh, sheets) => settle (enterCartridges sh { s with spm := { s.spm with sheets := sheets } })
  | none => settle (declareJam .strayEntry s)

/-- R9: JT's exit report. -/
def reportExit (sh : Sheet) (s : State) : State :=
  match jobOf s.jt sh.handle with
  | none => s
  | some j =>
    let j := { j with
      delivered := satAdd j.delivered 1 Config.counterMax, inFlight := j.inFlight - 1,
      charged := satAdd j.charged sh.cost Config.counterMax }
    let s := setJob j s
    match j.state with
    | .draining reason =>
      if j.inFlight = 0 then closeJob (match reason with | .ends => .completed | .cancel => .cancelled) j.handle s else s
    | _ => s

/-- R62: the SHEET_DONE notice of a delivered sheet. -/
def sheetDone (sh : Sheet) : Notice :=
  .sheetDone { handle := sh.handle, index := sh.index, cost := sh.cost, sides := imageSides sh.sides, nonGenuine := sh.nonGenuine }

/-- R62: the head of the sheet queue is delivered. A sheet left in the path by a STORE_WIPE is charged to the account that bears
its owner's ID by then, if any (DEDUCED, log 39). -/
def deliver (sh : Sheet) (rest : List Sheet) (s : State) : State :=
  let s := { s with spm := { s.spm with sheets := rest } }
  let s := updateAccount sh.owner (charge sh.cost sh.sides sh.nonGenuine) s
  settle (emit (sheetDone sh) (reportExit sh s))

/-- R62, R63: an EXIT leading edge with the path CLEAR and the part RUNNING. -/
def exitEdge (s : State) : State :=
  match s.spm.sheets with
  | [] => settle (declareJam .strayExit s)
  | sh :: rest => if sh.entered then deliver sh rest s else settle (declareJam .sequence s)

/-- R61, R62, R66, R69, R166: a leading edge acts while the path is CLEAR and the part is RUNNING. -/
def trackingOn (s : State) : Bool := !s.spm.jammed && s.fm.part = .running

/-- R52: a SUPPLY edge: the permit is evaluated and a PART notice asked for. -/
def supplyEdge (s : State) : State := settle (askPart (evaluatePermit s))

/-- R49: the filtered level of a channel changes, and the edge acts. -/
def takeEdge (ch : Channel) (s : State) : State :=
  let c := channelOf s.spm ch
  let level := !(c.level.getD false)
  let s := putChannel ch { c with level := some level, since := none } s
  match ch with
  | .feed => if level && trackingOn s then feedEdge s else s
  | .exit => if level && trackingOn s then exitEdge s else s
  | .supply => supplyEdge s

/-- R49: with the filter OFF the filtered level follows the raw level at once (log 12). -/
def followRaw (ch : Channel) (s : State) : State :=
  if (channelOf s.spm ch).since.isSome && (channelSettings s.settings ch).filter = .off then takeEdge ch s else s

/-- RAW_LEVEL_CHANGE (R49): the input of a channel changes; the comparator result follows while the part is powered. -/
def execRawLevelChange (ch : Channel) (input : Nat) (s : State) : Outcome State Fault Refusal :=
  let c := { channelOf s.spm ch with input := input }
  let g := channelSettings s.settings ch
  if s.powered then
    .next (followRaw ch (putChannel ch (watchLevel g s.clock (comparator g c.above input) c) s))
  else .next (putChannel ch c s)

/-- An edge command acts where the channel reads the level the edge leaves and the edge is due (log 3). -/
def edgeCommand (ch : Channel) (level : Bool) (s : State) : State :=
  if s.powered && (channelOf s.spm ch).level = some level && edgeDue s ch then takeEdge ch s else s

/-- FEED_LEADING_EDGE (R61, R63). -/
def execFeedLeadingEdge (s : State) : Outcome State Fault Refusal := .next (edgeCommand .feed false s)

/-- EXIT_LEADING_EDGE (R62, R63). -/
def execExitLeadingEdge (s : State) : Outcome State Fault Refusal := .next (edgeCommand .exit false s)

/-- The channel of a paper sensor. -/
def sensorChannel : PaperSensor → Channel
  | .feed => .feed
  | .exit => .exit

/-- TRAILING_EDGE (R49): only the filtered level changes. -/
def execTrailingEdge (sensor : PaperSensor) (s : State) : Outcome State Fault Refusal :=
  .next (edgeCommand (sensorChannel sensor) true s)

/-- SUPPLY_EDGE (R52): the filtered level changes either way. -/
def execSupplyEdge (s : State) : Outcome State Fault Refusal :=
  .next (if s.powered && edgeDue s .supply then takeEdge .supply s else s)

/-- R64: a sheet of a stage has reached its deadline. -/
def deadlineDue (entered : Bool) (s : State) : Bool :=
  s.spm.sheets.any fun sh => sh.entered = entered && sh.deadline ≤ nowMs s

/-- ENTRY_LATE (R64); it acts only when it is due (log 3). -/
def execEntryLate (s : State) : Outcome State Fault Refusal :=
  .next (if s.powered && trackingOn s && deadlineDue false s then settle (declareJam .entryLate s) else s)

/-- EXIT_LATE (R64); it acts only when it is due (log 3). -/
def execExitLate (s : State) : Outcome State Fault Refusal :=
  .next (if s.powered && trackingOn s && deadlineDue true s then settle (declareJam .exitLate s) else s)

/-- SHEET_REQUEST (R54, R66, R181); HALTED included, the request becomes or stays pending. -/
def execSheetRequest (s : State) : Outcome State Fault Refusal :=
  .next (if s.powered && !s.spm.requestPending then settle { s with spm := { s.spm with requestPending := true } } else s)

/-! ### Requests -/

/-- R50: SENSE_SET. R50 has accepted settings written to SETTINGS; R179 has a setting request write where a value changed. Where
the four values equal those held, SETTINGS is written all the same (DESIGN CHOICE, log 63). -/
def senseSet (channel code hysteresis filter polarity : Nat) (s : State) : Answer :=
  match senseSetFields channel code hysteresis filter polarity with
  | none => refuse .badField s
  | some (ch, g) =>
    if (locksOf s).settings then refuse .locked s
    else if ch ≠ .supply ∧ s.spm.sheets ≠ [] then refuse .busy s
    else
      let t := setSettings (putChannelSettings ch g s.settings) s
      let c := channelOf t.spm ch
      { status := .ok, state := followRaw ch (putChannel ch (watchLevel g t.clock (comparator g none c.input) c) t) }

/-- SENSE_SET (R50). -/
def execSenseSet (tag : Byte) (channel code hysteresis filter polarity : Nat) (s : State) : Outcome State Fault Refusal :=
  .next (request .senseSet tag (senseSet channel code hysteresis filter polarity) s)

/-- R51: a report of OPEN. With no sheet in the path the PART notice stands behind the CART_STATE notices of R103 (DESIGN
CHOICE, log 58). -/
def doorOpen (s : State) : Answer :=
  if s.spm.doorOpen then { status := .ok, state := s }
  else
    let t := cartridgesDoorOpen (evaluatePermit { s with spm := { s.spm with doorOpen := true } })
    let t := if t.spm.sheets.isEmpty then askPart t else declareJam .door t
    { status := .ok, state := settle t }

/-- DOOR_STATE with OPEN (R51). -/
def execDoorStateOpen (tag : Byte) (s : State) : Outcome State Fault Refusal :=
  .next (request .doorState tag doorOpen s)

/-- R51, R104: a report of CLOSED. -/
def doorClosed (s : State) : Answer :=
  if s.spm.doorOpen then
    { status := .ok,
      state := settle (askPart (queueAll (evaluatePermit { s with spm := { s.spm with doorOpen := false } }))) }
  else { status := .ok, state := s }

/-- DOOR_STATE with CLOSED (R51). -/
def execDoorStateClosed (tag : Byte) (s : State) : Outcome State Fault Refusal :=
  .next (request .doorState tag doorClosed s)

/-- The jam rank of a job. -/
def jamRank (j : Job) : Nat :=
  match j.state with
  | .stalled (.jam rank) _ _ => rank
  | _ => 0

/-- A job joins a list in ascending jam rank. -/
def insertByRank (j : Job) : List Job → List Job
  | [] => [j]
  | k :: rest => if jamRank j ≤ jamRank k then j :: k :: rest else k :: insertByRank j rest

/-- R13: the jobs in STALLED(JAM) in ascending jam rank. -/
def jammedJobs (jt : JobTable) : List Job := ((allJobs jt).filter (jamRank · > 0)).foldr insertByRank []

/-- R13: the jammed jobs return to the head of the ENGINE queue, the ACTIVE job directly behind them. Their JOB_STATE notices come
from the back of the queue to its head: the ACTIVE job's first, rank 1's last (DESIGN CHOICE, log 58). -/
def returnJammed (s : State) : State :=
  let jammed := jammedJobs s.jt
  if jammed.isEmpty then s
  else
    let s := match activeJob s .engine with
      | some j => queueHead j (leaveActive j s)
      | none => s
    jammed.foldr (fun j s => queueHead j s) s

/-- R67: JAM_CLEAR. The PART notice stands behind the JOB_STATE notices of the jobs returned (DESIGN CHOICE, log 58). -/
def jamClear (s : State) : Answer :=
  if !s.spm.jammed then refuse .wrongState s
  else if s.spm.doorOpen then refuse .wrongState s
  else if s.spm.feed.level = some true ∨ s.spm.exit.level = some true then refuse .sensorBusy s
  else
    let t := returnJammed (evaluatePermit { s with spm := { s.spm with jammed := false } })
    { status := .ok, state := settle (askPart t) }

/-- JAM_CLEAR (R67). -/
def execJamClear (tag : Byte) (s : State) : Outcome State Fault Refusal := .next (request .jamClear tag jamClear s)

/-- R68: a channel as reported. -/
def channelReport (s : State) (ch : Channel) : ChannelReport :=
  { settings := channelSettings s.settings ch, level := (channelOf s.spm ch).level }

/-- R68: a staging entry as reported. -/
def stageReport (e : StagingEntry) : Nat × Nat × StageReport :=
  (e.handle, e.index, match e.state with
    | .reading _ _ => .reading
    | .ready _ => .ready
    | .failed page block => .failed page block)

/-- R68: the path as it stands. -/
def pathReport (s : State) : PathReport :=
  { jammed := s.spm.jammed, jam := s.spm.jam, doorOpen := s.spm.doorOpen, feedPermit := s.spm.feedPermit,
    feed := channelReport s .feed, exit := channelReport s .exit, supply := channelReport s .supply,
    pending := s.spm.requestPending, staging := s.spm.staging.map stageReport,
    sheets := s.spm.sheets.map fun sh =>
      { handle := sh.handle, index := sh.index, entered := sh.entered, cost := sh.cost, nonGenuine := sh.nonGenuine,
        msLeft := sh.deadline - nowMs s } }

/-- R68: PATH_READ. -/
def pathRead (s : State) : Answer := { status := .ok, payload := .path (pathReport s), state := s }

/-- PATH_READ (R68). -/
def execPathRead (tag : Byte) (s : State) : Outcome State Fault Refusal := .next (request .pathRead tag pathRead s)

end Sys2Proof.Machine
end

