-- ==== Sys2Proof/Machine/Prices.lean ====
section
/-! DEFINITION. The settings requests of chapter 4 and LIMITS_SET (R180). -/

namespace Sys2Proof.Machine

open Host (Outcome)

/-- R83, R57: a staging-settings change. -/
def stagingChange (changed : Bool) (s : State) : State := if changed then settle (discardStaging s) else s

/-- R81: PRICE_SET. -/
def priceSet (f : PriceFields) (s : State) : Answer :=
  if !priceFieldsInRange f then refuse .badField s
  else if priceFieldsAbsent f then { status := .ok, payload := .prices s.settings.price, state := s }
  else if (locksOf s).settings then refuse .locked s
  else
    let old := s.settings.price
    let new := applyPrice f old
    let t := if new = old then s else setSettings { s.settings with price := new } s
    { status := .ok, payload := .prices new,
      state := stagingChange ({ new with scanRate := old.scanRate } != old) t }

/-- PRICE_SET (R81). -/
def execPriceSet (tag : Byte) (f : PriceFields) (s : State) : Outcome State Fault Refusal :=
  .next (request .priceSet tag (priceSet f) s)

/-- R90: the level class of a slot is formed anew under a new low_mark_pct; a change of class is notified. The pending
deduction has not changed, and no mirror reaches 0 by it, so no write-back falls due (R99). -/
def reclass (s : State) (i : Fin 4) : State :=
  match (slotRecord s i).level with
  | some l =>
    if holdsVerified (slotRecord s i) then
      let c := formLevel s.settings.meter.lowMarkPct l.mirror l.pending (slotRecord s i)
      let t := putSlot i c s
      if classOfSlot c = some l.cls then t else askCartState i t
    else s
  | none => s

/-- R82, R83: MU hands CBC the values that changed: the low mark, then the write-back tests, then the re-authentication
tests, each slot by slot in the order K, C, M, Y (DESIGN CHOICE, log 50). -/
def handToCartridges (old new : MeterSettings) (s : State) : State :=
  let s := if new.lowMarkPct = old.lowMarkPct then s else cartSlots.foldl reclass s
  let s := if new.writebackPct = old.writebackPct then s else cartSlots.foldl (fun s i => writeBackTest i false s) s
  if new.reauthInterval = old.reauthInterval then s else cartSlots.foldl reauthTest s

/-- R82: METER_SET. -/
def meterSet (f : MeterFields) (s : State) : Answer :=
  if !meterFieldsInRange f then refuse .badField s
  else if meterFieldsAbsent f then { status := .ok, payload := .meters s.settings.meter, state := s }
  else if (locksOf s).settings then refuse .locked s
  else
    let old := s.settings.meter
    let new := applyMeter f old
    if new = old then { status := .ok, payload := .meters new, state := s }
    else
      let t := handToCartridges old new (setSettings { s.settings with meter := new } s)
      let t := if new.idleLoss = old.idleLoss then t else discardStaging t
      { status := .ok, payload := .meters new, state := settle t }

/-- METER_SET (R82). -/
def execMeterSet (tag : Byte) (f : MeterFields) (s : State) : Outcome State Fault Refusal :=
  .next (request .meterSet tag (meterSet f) s)

/-- R71: the media table as the reply carries it. -/
def mediaLines (table : List MediaEntry) : List MediaLine :=
  table.zipIdx.map fun (e, code) => { code := code, area := e.area, large := isLarge e.area, transit := e.transit }

/-- R71: MEDIA_SET. -/
def mediaSet (code : Nat) (area transit : Option Nat) (s : State) : Answer :=
  if !mediaFieldsInRange code area transit then refuse .badField s
  else if area.isNone && transit.isNone then { status := .ok, payload := .media (mediaLines s.settings.media), state := s }
  else if (locksOf s).settings then refuse .locked s
  else
    let old := mediaOf s.settings code
    let new : MediaEntry := { area := area.getD old.area, transit := transit.getD old.transit }
    let table := s.settings.media.set code new
    { status := .ok, payload := .media (mediaLines table),
      state := if new = old then s else stagingChange true (setSettings { s.settings with media := table } s) }

/-- MEDIA_SET (R71). -/
def execMediaSet (tag : Byte) (code : Nat) (area transit : Option Nat) (s : State) : Outcome State Fault Refusal :=
  .next (request .mediaSet tag (mediaSet code area transit) s)

/-- R180: LIMITS_SET. -/
def limitsSet (f : LimitFields) (s : State) : Answer :=
  if !limitFieldsInRange f then refuse .badField s
  else if limitFieldsAbsent f then { status := .ok, payload := .limits s.settings.limits, state := s }
  else if (locksOf s).settings then refuse .locked s
  else
    let new := applyLimits f s.settings.limits
    { status := .ok, payload := .limits new,
      state := if new = s.settings.limits then s else setSettings { s.settings with limits := new } s }

/-- LIMITS_SET (R180). -/
def execLimitsSet (tag : Byte) (f : LimitFields) (s : State) : Outcome State Fault Refusal :=
  .next (request .limitsSet tag (limitsSet f) s)

end Sys2Proof.Machine
end

