-- ==== Sys2Proof/Machine/StartUp.lean ====
section
/-! DEFINITION. Power, reset and start-up (section 10.5): the values after start-up, the seven steps, and the loss of
power. -/

namespace Sys2Proof.Machine

open Host (Outcome)

/-! ### The beginning of a start-up (R181, R194) -/

/-- R69: a channel keeps only its input until its settings are loaded. -/
def blindChannel (c : SenseChannel) : SenseChannel := { input := c.input }

/-- R194: the outgoing list after the beginning of a start-up, with the entries kept. -/
def restartLink (kept : List Entry) (l : LinkInterface) : LinkInterface :=
  { out := kept, attn := !kept.isEmpty, transfer := l.transfer.map fun t => { t with cut := true } }

/-- R194: a DONE notice, which a RESTART keeps. -/
def isDone : Entry → Bool
  | .notice (.done _ _ _) => true
  | _ => false

/-- R181: every volatile piece of state at its value after start-up. What stands outside the part stays: the inputs, the
bands that wait at the link, the store, and the model's inputs (logs 11, 14). -/
def afterStartUp (kept : List Entry) (s : State) : State :=
  { powered := s.powered
    lif := restartLink kept s.lif
    jt := { waiting := s.jt.waiting }
    spm := { feed := blindChannel s.spm.feed, exit := blindChannel s.spm.exit, supply := blindChannel s.spm.supply }
    bc := { stuck := s.bc.stuck }
    ps := { s.ps with loadedKeys := none, results := {}, journal := [] }
    noise := s.noise
    noiseTaken := s.noiseTaken
    pending := s.pending }

/-- R181: a start-up begins. The PART notice that the change to STARTING asks for (R155, R192) falls to the emptying of the
outgoing list in the same event (R194, log 42). -/
def beginStartUp (wipe : Bool) (tag : Option Byte) (kept : List Entry) (s : State) : State :=
  { afterStartUp kept s with startUp := some { step := 1, wipe := wipe, tag := tag } }

/-- R171: a write that was not begun is not there: its partition holds what it held before. -/
def undoWrite (ps : Store) : StoreWrite → Store
  | .accounts before => { ps with accounts := before }
  | .defects before => { ps with defects := before }
  | .settings before => { ps with settings := before }
  | .history before => { ps with history := before }
  | .keys before => { ps with keys := before }
  | .halt before => { ps with halt := before }

/-- R171: a write cut short leaves its partition with content and integrity word that do not agree. -/
def tearWrite (ps : Store) : StoreWrite → Store
  | .accounts _ => { ps with accounts := .broken }
  | .defects _ => { ps with defects := .broken }
  | .settings _ => { ps with settings := .broken }
  | .history _ => { ps with history := .broken }
  | .keys _ => { ps with keys := .broken }
  | .halt _ => { ps with halt := .broken }

/-- R171: an interruption among the writes of an event: those after it were not begun, the one it falls within is cut
short, those before it stand (log 24). -/
def cutStore (cut : StoreCut) (ps : Store) : Store :=
  let undone := (ps.journal.take cut.undone).foldl undoWrite ps
  let torn := if cut.torn then (ps.journal.drop cut.undone).head? else none
  { torn.elim undone (tearWrite undone) with journal := [] }

/-- R171, R113: a command's event begins: the store writes of the commands before it are in force, whatever comes. Only
POWER_LOSS and RESET_INPUT find the writes of the command before them, within whose event they fall (log 24). R4: no job is
closed in it yet (log 70). -/
def beginEvent (c : Instr) (s : State) : State :=
  let s := { s with jt := { s.jt with closedNow := [] } }
  match c with
  | .powerLoss _ => s
  | .resetInput _ => s
  | _ => { s with ps := { s.ps with journal := [] } }

/-- POWER_ON (R181, R194). -/
def execPowerOn (s : State) : Outcome State Fault Refusal :=
  .next { beginStartUp false none [] s with powered := true }

/-- RESET_INPUT (R181, R194, R171). -/
def execResetInput (cut : StoreCut) (s : State) : Outcome State Fault Refusal :=
  .next (if s.powered then beginStartUp false none [] { s with ps := cutStore cut s.ps } else s)

/-- R171: power is lost: all activity stops, a transfer in progress is gone, and what remains is the store (log 2). -/
def losePower (cut : StoreCut) (s : State) : State :=
  { afterStartUp [] { s with ps := cutStore cut s.ps, lif := { s.lif with transfer := none } } with powered := false }

/-- POWER_LOSS (R171). -/
def execPowerLoss (cut : StoreCut) (s : State) : Outcome State Fault Refusal :=
  .next (if s.powered then losePower cut s else s)

/-! ### RESTART (R184) -/

/-- R184, R194: an accepted RESTART begins a start-up that keeps the unread DONE notices; its reply follows them. -/
def restartWith (wipe : Bool) (tag : Byte) (s : State) : Answer :=
  { status := .accepted, state := beginStartUp wipe (some tag) (s.lif.out.filter isDone) s }

/-- R184: RESTART with mode NORMAL. -/
def restartNormal (tag : Byte) (s : State) : Answer := restartWith false tag s

/-- RESTART with mode NORMAL (R184). -/
def execRestart (tag : Byte) (s : State) : Outcome State Fault Refusal :=
  .next (request .restart tag (restartNormal tag) s)

/-- R184: RESTART with mode WIPE, taken only while HALTED. -/
def restartWipe (tag : Byte) (s : State) : Answer :=
  if s.fm.part = .halted then restartWith true tag s else refuse .wrongState s

/-- RESTART with mode WIPE (R184). -/
def execRestartWipe (tag : Byte) (s : State) : Outcome State Fault Refusal :=
  .next (request .restart tag (restartWipe tag) s)

/-! ### Step 1: the store (R172, R173, R184) -/

/-- R172, R173: what the check of a partition finds. -/
inductive Checked (α : Type)
  | blank
  | passed (content : α)
  | failed
  deriving DecidableEq, Repr, Inhabited

/-- R172, R173: a partition is checked: its integrity word is compared with the one its content forms. damaged says that
its content was found changed since its last write; one that stands blank is taken as blank whatever damaged says (DESIGN CHOICE,
log 23). -/
def checkPartition {α : Type} (form : α → Content) (damaged : Bool) : Partition α → Checked α
  | .blank => .blank
  | .holds content word => if damaged || word != wordOf (form content) then .failed else .passed content
  | .broken => .failed

/-- The result of a check is noted for STORE_READ (R178). -/
def noteResult (f : CheckResults → CheckResults) (s : State) : State := { s with ps := { s.ps with results := f s.ps.results } }

/-- R49: each channel takes its initial level from its settings. -/
def takeInitialLevels (s : State) : State :=
  { s with spm := { s.spm with
      feed := initialLevel s.settings.feed s.spm.feed
      exit := initialLevel s.settings.exit s.spm.exit
      supply := initialLevel s.settings.supply s.spm.supply } }

/-- R173: the record with which a HALT partition that fails is rewritten. -/
def lostHaltRecord : HaltRecord :=
  { cause := .storeCheck .halt, phase := .starting, instant := 0, jobsClosed := 0, halts := 1 }

/-- R173: HALT. A record rewritten is a change of the halt record, for which FM asks for a PART notice (R192). -/
def checkHalt (damaged : List PartitionId) (s : State) : State :=
  match checkPartition .halt (damaged.contains .halt) s.ps.halt with
  | .blank => noteResult (fun r => { r with halt := some .blank }) s
  | .passed h => noteResult (fun r => { r with halt := some .passed }) { s with fm := { s.fm with haltRecord := some h } }
  | .failed => noteResult (fun r => { r with halt := some .recorded }) (askPart (setHaltRecord lostHaltRecord s))

/-- R173, R172: SETTINGS. -/
def checkSettings (damaged : List PartitionId) (s : State) : State :=
  takeInitialLevels (match checkPartition .settings (damaged.contains .settings) s.ps.settings with
    | .blank => noteResult (fun r => { r with settings := some .blank }) (setSettings {} s)
    | .passed g => noteResult (fun r => { r with settings := some .passed }) { s with settings := g }
    | .failed => noteResult (fun r => { r with settings := some .defaults }) (raiseNote .settingsRestored (setSettings {} s)))

/-- R173: HISTORY is loaded at step 5; a failure empties it here. -/
def checkHistory (damaged : List PartitionId) (s : State) : State :=
  match checkPartition .history (damaged.contains .history) s.ps.history with
  | .blank => noteResult (fun r => { r with history := some .blank }) s
  | .passed _ => noteResult (fun r => { r with history := some .passed }) s
  | .failed => noteResult (fun r => { r with history := some .emptied }) (raiseNote .historyCleared (setHistory [] 0 s))

/-- R173: a partition of the three whose failure halts the part. -/
def haltOnFailure (p : PartitionId) (s : State) : State := haltPart (.storeCheck p) s

/-- R173: ACCOUNTS, then the partitions after it where it does not fail. -/
def checkAccounts (damaged : List PartitionId) (after : State → State) (s : State) : State :=
  match checkPartition .accounts (damaged.contains .accounts) s.ps.accounts with
  | .blank => after (noteResult (fun r => { r with accounts := some .blank }) s)
  | .passed _ => after (noteResult (fun r => { r with accounts := some .passed }) s)
  | .failed => haltOnFailure .accounts s

/-- R173: KEYS, loaded at its check; where it fails it is not loaded, and STATUS reports no lock states (DESIGN CHOICE,
log 55). -/
def checkKeys (damaged : List PartitionId) (after : State → State) (s : State) : State :=
  match checkPartition .keys (damaged.contains .keys) s.ps.keys with
  | .blank => after (noteResult (fun r => { r with keys := some .blank }) { s with ps := { s.ps with loadedKeys := some {} } })
  | .passed k => after (noteResult (fun r => { r with keys := some .passed }) { s with ps := { s.ps with loadedKeys := some k } })
  | .failed => haltOnFailure .keys s

/-- R173: DEFECTS. -/
def checkDefects (damaged : List PartitionId) (after : State → State) (s : State) : State :=
  match checkPartition .defects (damaged.contains .defects) s.ps.defects with
  | .blank => after (noteResult (fun r => { r with defects := some .blank }) s)
  | .passed _ => after (noteResult (fun r => { r with defects := some .passed }) s)
  | .failed => haltOnFailure .defects s

/-- The start-up goes on to a step. -/
def toStep (n : Nat) (s : State) : State := { s with startUp := s.startUp.map fun u => { u with step := n } }

/-- R173: the check of every partition in order. -/
def checkStore (damaged : List PartitionId) (s : State) : State :=
  checkAccounts damaged (checkKeys damaged (checkDefects damaged (toStep 2)))
    (checkHistory damaged (checkSettings damaged (checkHalt damaged s)))

/-- R184, R168: HALT at a wipe restart: rewritten blank, with a PART notice where a record was there to be cleared (R192). -/
def wipeHalt (s : State) : State :=
  let t := clearHaltRecord s
  if s.ps.halt = .blank then t else askPart t

/-- R184: DEFECTS at a wipe restart: kept without its clean map, or rewritten blank where it fails; with its result. -/
def wipeDefects (damaged : Bool) (ps : Store) : CheckResult × Store :=
  match checkPartition .defects damaged ps.defects with
  | .passed d => (.passed, writeDefects (written .defects { d with clean := [] }) ps)
  | .blank => (.blank, ps)
  | .failed => (.wiped, writeDefects .blank ps)

/-- R184: the store at a wipe restart: every partition but DEFECTS rewritten blank and taken so, and SETTINGS with its defaults
then written (R172). The writes come in the order in which R173 checks the partitions, DEFECTS last (DESIGN CHOICE, log 66). -/
def wipeStore (damaged : List PartitionId) (s : State) : State :=
  let s := wipeHalt s
  let ps := writeSettings (written .settings {}) (writeSettings .blank s.ps)
  let ps := writeKeys .blank (writeAccounts .blank (writeHistory .blank ps))
  let (result, ps) := wipeDefects (damaged.contains .defects) ps
  let results : CheckResults :=
    { accounts := some .wiped, defects := some result, settings := some .wiped, history := some .wiped,
      keys := some .wiped, halt := some .wiped }
  toStep 2 (takeInitialLevels { s with settings := {}, ps := { ps with loadedKeys := some {}, results := results } })

/-! ### Step 2: the tests (R141) -/

/-- R141: a device key is drawn where KEYS holds none. -/
def drawDeviceKey (s : State) : State :=
  if (keysOf s).device.isSome then s
  else match draw32 s with
    | (.error test, s) => haltPart (.randomSource test .deviceKey) s
    | (.ok key, s) => setKeys { keysOf s with device := some key } s

/-- R141: the 4096 raw samples of the start-up test: those the source delivered, and behind them free values (log 7). -/
def startUpSamples (k : Nat) (delivered : List Byte) : List Byte :=
  delivered.take Config.testSamples
    ++ (List.range (Config.testSamples - delivered.length)).map (Config.freeSample k)

/-- R141: the random source test: fresh health tests over 4096 samples, four windows of 1024, and one output of 32 bytes. -/
def testSource (s : State) : Option HealthTest × State :=
  let (n, s) := takeNoise s
  let (h, failure) := testNoise (startUpSamples s.noiseTaken n.samples) [firstHalf n.output, secondHalf n.output] {}
  (failure, { s with bc := { s.bc with health := h } })

/-- R141: the cipher self-test, then the random source test, then the device key. -/
def runTests (cipherOk : Bool) (s : State) : State :=
  if !cipherOk then haltPart (.cipherSelftest .startUp) s
  else match testSource s with
    | (some test, s) => haltPart (.randomSource test .startUpTest) s
    | (none, s) => toStep 3 (drawDeviceKey { s with bc := { s.bc with serving := true } })

/-! ### Steps 3 to 6 (R182) -/

/-- The content of a partition that was blank or passed its check. -/
def contentOf {α : Type} (empty : α) : Partition α → α
  | .holds content _ => content
  | .blank => empty
  | .broken => empty

/-- R30: AT loads the account table; a change is written back. -/
def loadAccounts (s : State) : State :=
  let table := contentOf [] s.ps.accounts
  let loaded := table.map (loadAccount s.settings.limits.lockoutTime)
  toStep 4 (if loaded = table then { s with accounts := table } else setAccounts loaded s)

/-- R114: the blocks of the start-up sweep: every block neither clean nor retired, in ascending order. Both sets are
ascending lists, so one pass goes through all three. -/
def sweepFrom : Nat → Nat → List Nat → List Nat → List Nat
  | 0, _, _, _ => []
  | n + 1, b, clean, retired =>
    let clean := clean.dropWhile (· < b)
    let retired := retired.dropWhile (· < b)
    if clean.head? = some b || retired.head? = some b then sweepFrom n (b + 1) clean retired
    else b :: sweepFrom n (b + 1) clean retired

/-- R114, R152: SMC builds the free list and the scrub list from DEFECTS. -/
def buildSpool (s : State) : State :=
  let d := contentOf {} s.ps.defects
  let sweep := sweepFrom Config.logicalBlocks 0 d.clean d.retired
  toStep 5 { s with
    smc := { s.smc with defects := d, free := d.clean, sweepCount := sweep.length }
    se := { s.se with list := sweep.map fun b => { block := b, origin := .sweep } } }

/-- R109: CBC loads the history and queues a RESYNC and the four AUTH items, and begins serving them. -/
def loadCartridges (s : State) : State :=
  let h := contentOf {} s.ps.history
  settle (toStep 6 (queueAll { s with cbc := { s.cbc with history := h.entries, lifetime := h.lifetime } }))

/-- R69: SPM sets the path CLEAR with no jam record and the door closed. -/
def clearPath (s : State) : State := toStep 7 { s with spm := { s.spm with jammed := false, jam := none, doorOpen := false } }

/-! ### Step 7: the entry into RUNNING (R183) -/

/-- R183: the part enters RUNNING. PREVIOUS_HALT, PART and DONE stand in the order in which R183 lists them, and before the notices
of what the entry sets off, the STRAY_BAND notes of the bands that wait at the link among them (DESIGN CHOICE, log 58). -/
def enterRunning (s : State) : State :=
  let ended := s.startUp
  let s := evaluatePermit { s with startUp := none, fm := { s.fm with part := .running } }
  let s := match s.fm.haltRecord with
    | some h => raiseNote (.previousHalt h) s
    | none => s
  settle (reportStartUp false ended (askPart s))

/-- R182: the work of a step, done as the step ends. -/
def endStep (u : StartUp) (finding : StepFinding) (s : State) : State :=
  match u.step with
  | 1 => if u.wipe then wipeStore finding.damaged s else checkStore finding.damaged s
  | 2 => runTests finding.cipherOk s
  | 3 => loadAccounts s
  | 4 => buildSpool s
  | 5 => loadCartridges s
  | 6 => clearPath s
  | _ => enterRunning s

/-- START_UP_STEP_END (R182); without a start-up it has no effect (log 3). -/
def execStartUpStepEnd (finding : StepFinding) (s : State) : Outcome State Fault Refusal :=
  match s.startUp with
  | some u => .next (if s.powered then endStep u finding s else s)
  | none => .next s

end Sys2Proof.Machine
end

