-- ==== Sys2Proof/Machine/Stores.lean ====
section
/-! DEFINITION. The store requests (chapter 10) and STATUS (R193). -/

namespace Sys2Proof.Machine

open Host (Outcome)

/-- R175: the locks with a set of them set. -/
def setLocks (named held : Locks) : Locks :=
  { settings := held.settings || named.settings, keys := held.keys || named.keys, audit := held.audit || named.audit }

/-- R175: STORE_LOCK. -/
def storeLock (locks : Nat) (s : State) : Answer :=
  match lockSet locks with
  | none => refuse .badField s
  | some named =>
    let new := setLocks named (locksOf s)
    { status := .ok, payload := .locks new,
      state := if new = locksOf s then s else setKeys { keysOf s with locks := new } s }

/-- STORE_LOCK (R175). -/
def execStoreLock (tag : Byte) (locks : Nat) (s : State) : Outcome State Fault Refusal :=
  .next (request .storeLock tag (storeLock locks) s)

/-- R178: the partitions the wipe rewrites report WIPED. -/
def wipedResults (r : CheckResults) : CheckResults :=
  { r with accounts := some .wiped, settings := some .wiped, history := some .wiped, keys := some .wiped, halt := some .wiped }

/-- R177, R50: a channel takes its default settings; the raw level that follows is filtered against the level held. -/
def rewatch (ch : Channel) (s : State) : State :=
  let c := channelOf s.spm ch
  let g := channelSettings s.settings ch
  putChannel ch (watchLevel g s.clock (comparator g none c.input) c) s

/-- R176, R177: the content of the store is wiped, partition by partition in the order of R176, and each block takes up
the wiped content. -/
def wipeContent (deviceKey : Key) (s : State) : State :=
  let s := setAccounts [] (setKeys { device := some deviceKey } s)
  let s := setSettings {} (cartridgesWipe s)
  let s := clearHaltRecord (rewatch .supply (rewatch .exit (rewatch .feed s)))
  { s with ps := { s.ps with results := wipedResults s.ps.results } }

/-- R176: STORE_WIPE. With every block RETIRED its sanitize completes within the request (DESIGN CHOICE, log 61). -/
def storeWipe (tag : Byte) (s : State) : Answer :=
  if (allJobs s.jt).length > 0 then refuse .busy s
  else if s.se.sanitize.isSome then refuse .busy s
  else if s.spm.supply.level = some false then refuse .powerLow s
  else match draw32 s with
    | (.error test, t) => refuse .halted (haltPart (.randomSource test .deviceKey) t)
    | (.ok key, t) => { status := .accepted, state := settle (beginSanitize tag true (wipeContent key t)) }

/-- STORE_WIPE (R176). -/
def execStoreWipe (tag : Byte) (s : State) : Outcome State Fault Refusal := .next (request .storeWipe tag (storeWipe tag) s)

/-- R178: the store as it stands. -/
def storeReport (s : State) : StoreReport :=
  { results := s.ps.results, sizes := Config.partitionSizes, accounts := s.accounts.length, remaps := s.smc.defects.remap.length,
    retired := s.smc.defects.retired.length, clean := s.smc.defects.clean.length, history := s.cbc.history.length,
    lifetime := s.cbc.lifetime, familyKeys := (keysOf s).family.toList.map (·.isSome),
    deviceKey := (keysOf s).device.isSome, locks := locksOf s, haltRecord := s.fm.haltRecord.isSome,
    limits := s.settings.limits }

/-- R178: STORE_READ. -/
def storeRead (s : State) : Answer := { status := .ok, payload := .store (storeReport s), state := s }

/-- STORE_READ (R178). -/
def execStoreRead (tag : Byte) (s : State) : Outcome State Fault Refusal := .next (request .storeRead tag storeRead s)

/-- The number of jobs in a state. -/
def countStage (s : State) (p : JobState → Bool) : Nat := (allJobs s.jt).countP fun j => p j.state

/-- R193: the number of jobs in each job state. -/
def jobCounts (s : State) : JobCounts :=
  { free := Config.jobSlots - (allJobs s.jt).length
    intake := countStage s fun | .intake => true | _ => false
    held := countStage s fun | .held _ => true | _ => false
    queued := countStage s fun | .queued => true | _ => false
    active := countStage s fun | .active => true | _ => false
    stalled := countStage s fun | .stalled _ _ _ => true | _ => false
    draining := countStage s fun | .draining _ => true | _ => false
    scrub := countStage s fun | .scrub _ => true | _ => false }

/-- R193: the number of LIVE key slots. -/
def liveKeys (s : State) : Nat := s.bc.keys.toList.countP (·.isSome)

/-- R193: the part-wide status as it stands. The lock states are those in force, with the changes of STORE_LOCK and STORE_WIPE since
KEYS was loaded, and none also after a halt because KEYS itself failed its check (DESIGN CHOICE, log 55). -/
def statusReport (s : State) : StatusReport :=
  { part := s.fm.part, uptime := nowMs s, haltRecord := s.fm.haltRecord, backlog := s.fm.backlog,
    overflow := s.fm.overflow, faults := s.fm.queue.length, liveKeys := liveKeys s, jobs := jobCounts s,
    sweepCount := s.smc.sweepCount, sanitizing := s.se.sanitize.isSome, scrub := s.se.list.length,
    feedPermit := s.spm.feedPermit, jammed := s.spm.jammed, doorOpen := s.spm.doorOpen,
    supplyGood := s.spm.supply.level, locks := s.ps.loadedKeys.map (·.locks), overrun := s.lif.overrun,
    frameErrors := s.lif.frameErrors, dropped := s.lif.dropped, replies := unreadReplies s.lif,
    notices := noticeEntries s.lif }

/-- R193: STATUS: the reply is formed, then the flag is cleared and both counts are set to 0. -/
def status (s : State) : Answer :=
  { status := .ok, payload := .status (statusReport s),
    state := { s with lif := { s.lif with overrun := false, frameErrors := 0, dropped := 0 } } }

/-- STATUS (R193). -/
def execStatus (tag : Byte) (s : State) : Outcome State Fault Refusal := .next (request .status tag status s)

end Sys2Proof.Machine
end

