-- ==== Sys2Proof/Machine/Frame.lean ====
section
/-! DEFINITION. The frames of the host link (sections 11.2 and 11.6): the fields of each request's payload, and the
owner a well-formed request is handed to. -/

namespace Sys2Proof.Machine

/-- The owner of a request, or the status that step 2 or 3 of R189 answers. -/
abbrev Parsed := Except Status (State → Answer)

/-- A field of n bytes at a place of a request's payload, as a number. R195 gives its length; that its bytes are little-endian, as
section 11.2 has those of a header field, is a DESIGN CHOICE (log 67). -/
def fieldAt (payload : List Byte) (i n : Nat) : Nat := leValue (slice payload i n)

/-- R37: a 4-byte signed amount. -/
def signedAt (payload : List Byte) (i : Nat) : Int := (BitVec.ofNat 32 (fieldAt payload i 4)).toInt

/-- R195: a PIN takes 8 bytes, its characters followed by 00h bytes. -/
def pinAt (payload : List Byte) (i : Nat) : List Byte := ((slice payload i 8).reverse.dropWhile (· = 0)).reverse

/-- A fixed payload length. -/
def ofLength (n : Nat) (payload : List Byte) (owner : State → Answer) : Parsed :=
  if payload.length = n then .ok owner else .error .badLength

/-- The presence bit of an optional field. -/
def present (payload : List Byte) (i : Nat) : Bool := (payload.headD 0).getLsbD i

/-- R189 step 2: the presence byte has a bit set for no field of a kind of n fields. -/
def presenceWrong (payload : List Byte) (n : Nat) : Bool := (payload.headD 0).toNat ≥ 2 ^ n

/-- The number of optional fields present among the first n. -/
def presentBefore (payload : List Byte) (n : Nat) : Nat := (List.range n).countP (present payload)

/-- R195: the i-th optional 2-byte field after a presence byte and some fixed bytes. -/
def optionalAt (payload : List Byte) (fixed i : Nat) : Option Nat :=
  if present payload i then some (fieldAt payload (fixed + 2 * presentBefore payload i) 2) else none

/-- R189 steps 2 and 3 for a kind of n optional 2-byte fields behind some fixed bytes, the presence byte among them. -/
def ofOptional (fixed n : Nat) (payload : List Byte) (owner : State → Answer) : Parsed :=
  if payload.isEmpty then .error .badLength
  else if presenceWrong payload n then .error .badField
  else ofLength (fixed + 2 * presentBefore payload n) payload owner

/-- ACCT_CREATE: presence byte (bit 0 the PIN), ID, overdraft limit, colour right, PIN (R36, R195). -/
def parseAcctCreate (p : List Byte) : Parsed :=
  if p.isEmpty then .error .badLength
  else if presenceWrong p 1 then .error .badField
  else ofLength (if present p 0 then 16 else 8) p
    (acctCreate (fieldAt p 1 2) (fieldAt p 3 4) (fieldAt p 7 1) (if present p 0 then some (pinAt p 8) else none))

/-- The offset of the i-th optional field of ACCT_SET: overdraft 4 bytes, colour right 1, standing 1, PIN action. -/
def acctSetOffset (p : List Byte) (i : Nat) : Nat :=
  3 + (if i > 0 && present p 0 then 4 else 0) + (if i > 1 && present p 1 then 1 else 0)
    + (if i > 2 && present p 2 then 1 else 0)

/-- The PIN action of ACCT_SET: set 0 with its PIN, clear 1 (R195, log 21). -/
def acctSetPin (p : List Byte) : Option PinAction :=
  if present p 3 then
    if fieldAt p (acctSetOffset p 3) 1 = 0 then some (.set (pinAt p (acctSetOffset p 3 + 1))) else some .clear
  else none

/-- ACCT_SET: presence byte, ID, and the fields present (section 2.5, R195). -/
def parseAcctSet (p : List Byte) : Parsed :=
  if p.isEmpty then .error .badLength
  else if presenceWrong p 4 then .error .badField
  else
    let base := acctSetOffset p 3
    if present p 3 && p.length ≤ base then .error .badLength
    else if present p 3 && fieldAt p base 1 > 1 then .error .badField
    else ofLength (base + if present p 3 then (if fieldAt p base 1 = 0 then 9 else 1) else 0) p
      (acctSet (fieldAt p 1 2)
        (if present p 0 then some (fieldAt p (acctSetOffset p 0) 4) else none)
        (if present p 1 then some (fieldAt p (acctSetOffset p 1) 1) else none)
        (if present p 2 then some (fieldAt p (acctSetOffset p 2) 1) else none)
        (acctSetPin p))

/-- DOOR_STATE: OPEN 0, CLOSED 1, any other value refused with BAD_FIELD (R51). -/
def doorOwner (value : Nat) : State → Answer :=
  if value = 0 then doorOpen else if value = 1 then doorClosed else refuse .badField

/-- PRICE_SET (R81). -/
def parsePriceSet (p : List Byte) : Parsed :=
  ofOptional 1 8 p (priceSet
    { stdMono := optionalAt p 1 0, stdColour := optionalAt p 1 1, largeMono := optionalAt p 1 2,
      largeColour := optionalAt p 1 3, duplexPct := optionalAt p 1 4, heavyThreshold := optionalAt p 1 5,
      heavySurcharge := optionalAt p 1 6, scanRate := optionalAt p 1 7 })

/-- METER_SET (R82). -/
def parseMeterSet (p : List Byte) : Parsed :=
  ofOptional 1 5 p (meterSet
    { colourThreshold := optionalAt p 1 0, idleLoss := optionalAt p 1 1, lowMarkPct := optionalAt p 1 2,
      writebackPct := optionalAt p 1 3, reauthInterval := optionalAt p 1 4 })

/-- LIMITS_SET (R180). -/
def parseLimitsSet (p : List Byte) : Parsed :=
  ofOptional 1 6 p (limitsSet
    { holdLimit := optionalAt p 1 0, lockoutTime := optionalAt p 1 1, intakeStallLimit := optionalAt p 1 2,
      entryLimit := optionalAt p 1 3, readRetries := optionalAt p 1 4, weakLimit := optionalAt p 1 5 })

/-- FAULT_ACK: selector 0 with a fault number, or 1 HALT_RECORD (R160, R195). -/
def faultAckOwner (selector number : Nat) : State → Answer :=
  if selector = 0 then faultAck number else if selector = 1 then haltRecordAck else refuse .badField

/-- RESTART: NORMAL 0, WIPE 1, any other value refused with BAD_FIELD (R184). -/
def restartOwner (tag : Byte) (mode : Nat) : State → Answer :=
  if mode = 0 then restartNormal tag else if mode = 1 then restartWipe tag else refuse .badField

/-- R189 steps 2 and 3, R195: the fields of a request's payload, and its owner. -/
def parsePayload (k : RequestKind) (tag : Byte) (p : List Byte) : Parsed :=
  match k with
  | .acctCreate => parseAcctCreate p
  | .acctDelete => ofLength 2 p (acctDelete (fieldAt p 0 2))
  | .acctCredit => ofLength 6 p (acctCredit (fieldAt p 0 2) (signedAt p 2))
  | .acctSet => parseAcctSet p
  | .acctRead => ofLength 2 p (acctRead (fieldAt p 0 2))
  | .acctList => ofLength 2 p (acctList (fieldAt p 0 2))
  | .acctUnlock => ofLength 2 p (acctUnlock (fieldAt p 0 2))
  | .countersClear => ofLength 2 p (countersClear (fieldAt p 0 2))
  | .jobOpen =>
    ofLength 8 p (jobOpen (fieldAt p 0 1) (fieldAt p 1 2) (fieldAt p 3 1) (fieldAt p 4 1) (fieldAt p 5 1) (fieldAt p 6 2))
  | .jobRelease => ofLength 10 p (jobRelease (fieldAt p 0 2) (pinAt p 2))
  | .jobCancel => ofLength 2 p (jobCancel (fieldAt p 0 2))
  | .jobPause => ofLength 2 p (jobPause (fieldAt p 0 2))
  | .jobResume => ofLength 2 p (jobResume (fieldAt p 0 2))
  | .jobSkipPage => ofLength 4 p (jobSkipPage (fieldAt p 0 2) (fieldAt p 2 2))
  | .jobRead => ofLength 4 p (jobRead (fieldAt p 0 2) (fieldAt p 2 2))
  | .senseSet =>
    ofLength 5 p (senseSet (fieldAt p 0 1) (fieldAt p 1 1) (fieldAt p 2 1) (fieldAt p 3 1) (fieldAt p 4 1))
  | .doorState => ofLength 1 p (doorOwner (fieldAt p 0 1))
  | .jamClear => ofLength 0 p jamClear
  | .pathRead => ofLength 0 p pathRead
  | .priceSet => parsePriceSet p
  | .meterSet => parseMeterSet p
  | .mediaSet => ofOptional 2 2 p (mediaSet (fieldAt p 1 1) (optionalAt p 2 0) (optionalAt p 2 1))
  | .cartRead => ofLength 2 p (cartRead (fieldAt p 0 1) (fieldAt p 1 1))
  | .cartReauth => ofLength 1 p (cartReauth (fieldAt p 0 1))
  | .policySet => ofLength 1 p (policySet (fieldAt p 0 1))
  | .familyKeyLoad =>
    if p.isEmpty then .error .badLength else .ok (familyKeyLoad (fieldAt p 0 1) (p.drop 1))
  | .spoolRead => ofOptional 1 1 p (spoolRead (optionalAt p 1 0))
  | .blockRetire => ofLength 2 p (blockRetire (fieldAt p 0 2))
  | .sanitize => ofLength 0 p (sanitize tag)
  | .faultRead => ofLength 0 p faultRead
  | .faultAck => ofLength 3 p (faultAckOwner (fieldAt p 0 1) (fieldAt p 1 2))
  | .sense => ofLength 2 p (sense (fieldAt p 0 2))
  | .storeLock => ofLength 1 p (storeLock (fieldAt p 0 1))
  | .storeWipe => ofLength 0 p (storeWipe tag)
  | .storeRead => ofLength 0 p storeRead
  | .limitsSet => parseLimitsSet p
  | .status => ofLength 0 p status
  | .restart => ofLength 1 p (restartOwner tag (fieldAt p 0 1))

end Sys2Proof.Machine
end

