-- ==== Sys2Proof/Machine/Link.lean ====
section
/-! DEFINITION. LIF (chapter 11): transfers, the frames the part sends, the examination of the host's frame and its
dispatch. -/

namespace Sys2Proof.Machine

open Host (Outcome)

/-! ### The frames the part sends (section 11.2) -/

/-- R195: the kind byte of a notice. -/
def noticeKind : Notice → Byte
  | .jobState _ _ => 0x80
  | .cartState _ => 0x81
  | .faultQueued _ => 0x82
  | .faultNote _ => 0x82
  | .part _ => 0x83
  | .sheetDone _ => 0x84
  | .pageStored _ _ => 0x85
  | .done _ _ _ => 0x86

/-- The tag byte of an entry: the request's for a reply and a DONE notice, 00h for every other notice. -/
def entryTag : Entry → Byte
  | .reply r => r.tag
  | .notice (.done tag _ _) => tag
  | .notice _ => 0

/-- The status byte of an entry: for a DONE notice OK or HALTED. -/
def entryStatus : Entry → Byte
  | .reply r => r.status
  | .notice (.done _ true _) => statusByte .halted
  | .notice _ => 0

/-- The payload bytes of an entry: none for an empty payload, the kind byte for LINK_ERROR, and otherwise bytes the spec
does not lay out (log 5). -/
def entryPayload : Entry → List Byte
  | .reply r =>
    match r.payload with
    | .empty => []
    | .linkError kind => [kind]
    | _ => (payloadBytes (.reply r)).take 1024
  | .notice n => (payloadBytes (.notice n)).take 1024

/-- The type and kind bytes of an entry. -/
def entryKind : Entry → List Byte
  | .reply r => [0x02, r.kind]
  | .notice n => [0x03, noticeKind n]

/-- The bytes before the frame check. -/
def frameBody (e : Entry) (remaining : Nat) : List Byte :=
  let payload := entryPayload e
  [0xA5] ++ entryKind e ++ [entryTag e] ++ leBytes 2 payload.length ++ [entryStatus e, BitVec.ofNat 8 remaining] ++ payload

/-- Section 11.2: the frame of an entry, its check high byte first. -/
def frameOf (e : Entry) (remaining : Nat) : List Byte :=
  frameBody e remaining ++ bytesOf 2 (frameCheck (frameBody e remaining))

/-! ### The beginning of a transfer (R185) -/

/-- R185: the transfer that begins: it sends the oldest unread entry, or 00h throughout. -/
def beginTransfer (l : LinkInterface) : LinkInterface :=
  match l.out with
  | e :: rest => { l with transfer := some { frame := frameOf e rest.length, sending := true } }
  | [] => { l with transfer := some { frame := [], sending := false } }

/-- TRANSFER_START (R185); with a transfer in progress it has no effect (log 3). -/
def execTransferStart (s : State) : Outcome State Fault Refusal :=
  .next (if s.powered && s.lif.transfer.isNone then { s with lif := beginTransfer s.lif } else s)

/-! ### The host's frame (R187 to R189) -/

/-- What R187 finds in the host's bytes. -/
inductive HostFrame
  | nothing
  | wrong (cause : LinkErrorCause) (tag kind : Byte)
  | wellFormed (type kind tag : Byte) (payload : List Byte)
  deriving DecidableEq, Repr, Inhabited

/-- R187: the host's bytes are examined in order. A transfer with no byte ended before byte 7 was received. -/
def examine (bytes : List Byte) : HostFrame :=
  match bytes.head? with
  | none => .wrong .dropped 0 0
  | some first =>
    if first = 0x00 then .nothing
    else
      let kind := bytes.getD 2 0
      let tag := bytes.getD 3 0
      let n := fieldAt bytes 4 2
      if first ≠ 0x5A ∨ bytes.length < 8 then .wrong .dropped tag kind
      else if n > 1024 then .wrong .oversize tag kind
      else if bytes.length < 10 + n then .wrong .short tag kind
      else if slice bytes (8 + n) 2 ≠ bytesOf 2 (frameCheck (bytes.take (8 + n))) then .wrong .check tag kind
      else .wellFormed (bytes.getD 1 0) kind tag (slice bytes 8 n)

/-- R187: a frame error is counted. -/
def countFrameError (s : State) : State := { s with lif := { s.lif with frameErrors := satAdd s.lif.frameErrors 1 65535 } }

/-- R187, R188: a frame with an error is dropped and counted, or answered by LINK_ERROR and counted, or discarded where
eight replies are unread. -/
def takeWrong (cause : LinkErrorCause) (tag kind : Byte) (s : State) : State :=
  match linkCauseByte cause with
  | none => countFrameError s
  | some c =>
    if unreadReplies s.lif ≥ 8 then overrun s
    else pushReply { kind := 0, tag := tag, status := c, payload := .linkError kind } (countFrameError s)

/-- R188, R189 step 1: a well-formed frame that names no request. -/
def takeUnknown (tag kind : Byte) (s : State) : State :=
  if unreadReplies s.lif ≥ 8 then overrun s
  else reply kind tag (refuse .unknownKind s)

/-- R188, R189: a well-formed frame. -/
def dispatch (type kind tag : Byte) (payload : List Byte) (s : State) : State :=
  match kindOfByte kind with
  | none => takeUnknown tag kind s
  | some k =>
    if type ≠ 0x01 then takeUnknown tag kind s
    else match parsePayload k tag payload with
      | .error c => if unreadReplies s.lif ≥ 8 then overrun s else reply (kindByte k) tag (refuse c s)
      | .ok owner => request k tag owner s

/-- R187 to R189: the host's bytes are taken. -/
def takeBytes (bytes : List Byte) (s : State) : State :=
  match examine bytes with
  | .nothing => s
  | .wrong cause tag kind => takeWrong cause tag kind s
  | .wellFormed type kind tag payload => dispatch type kind tag payload s

/-- R185: the entry sent is read: every byte of its frame was clocked and its content was not replaced, and no start-up
fell within the transfer (R194). -/
def entryRead (t : Transfer) (clocked : Nat) : Bool := t.sending && !t.replaced && !t.cut && t.frame.length ≤ clocked

/-- R185, R186: the transfer ends; an entry that is read leaves the list, and ATTN falls with the last. -/
def endTransfer (t : Transfer) (clocked : Nat) (l : LinkInterface) : LinkInterface :=
  let out := if entryRead t clocked then l.out.tail else l.out
  { l with out := out, attn := !out.isEmpty, transfer := none }

/-- TRANSFER_END (R185 to R189); without a transfer it has no effect (log 3). The entry sent is read before the host's bytes
are taken (DESIGN CHOICE, log 54). The host's bytes of a transfer in which a start-up began are not taken (R194). -/
def execTransferEnd (bytes : List Byte) (s : State) : Outcome State Fault Refusal :=
  match s.lif.transfer with
  | some t =>
    if s.powered then
      let ended := { s with lif := endTransfer t bytes.length s.lif }
      .next (if t.cut then ended else takeBytes bytes ended)
    else .next s
  | none => .next s

/-- LINK_ERROR (R187): a host frame with an error, as if taken at the end of a transfer (log 4). -/
def execLinkError (cause : LinkErrorCause) (tag kind : Byte) (s : State) : Outcome State Fault Refusal :=
  .next (if s.powered then takeWrong cause tag kind s else s)

/-- LINK_OVERRUN (R188): a frame taken while eight replies are unread; with fewer it has no effect (log 3). -/
def execLinkOverrun (s : State) : Outcome State Fault Refusal :=
  .next (if s.powered && unreadReplies s.lif ≥ 8 then overrun s else s)

/-- UNKNOWN_KIND (R189 step 1): a well-formed frame that names no request (log 4). -/
def execUnknownKind (tag kind : Byte) (s : State) : Outcome State Fault Refusal :=
  .next (if s.powered then takeUnknown tag kind s else s)

end Sys2Proof.Machine
end

