-- ==== Sys2Proof/Machine/Dispatch.lean ====
section
/-! DEFINITION. One arm for each command: a direct call of its meaning. -/

namespace Sys2Proof.Machine

/-- The effect of a command on everything but the queue. -/
def exec (i : Instr) (s : State) : Host.Outcome State Fault Refusal :=
  match i with
  | .powerOn => Sys2Proof.Machine.execPowerOn s
  | .resetInput cut => Sys2Proof.Machine.execResetInput cut s
  | .transferStart => Sys2Proof.Machine.execTransferStart s
  | .transferEnd bytes => Sys2Proof.Machine.execTransferEnd bytes s
  | .linkError cause tag kind => Sys2Proof.Machine.execLinkError cause tag kind s
  | .linkOverrun => Sys2Proof.Machine.execLinkOverrun s
  | .unknownKind tag kind => Sys2Proof.Machine.execUnknownKind tag kind s
  | .acctCreate tag id overdraft colour pin => Sys2Proof.Machine.execAcctCreate tag id overdraft colour pin s
  | .acctDelete tag id => Sys2Proof.Machine.execAcctDelete tag id s
  | .acctCredit tag id amount => Sys2Proof.Machine.execAcctCredit tag id amount s
  | .acctSet tag id overdraft colour standing pin => Sys2Proof.Machine.execAcctSet tag id overdraft colour standing pin s
  | .acctRead tag id => Sys2Proof.Machine.execAcctRead tag id s
  | .acctList tag start => Sys2Proof.Machine.execAcctList tag start s
  | .acctUnlock tag id => Sys2Proof.Machine.execAcctUnlock tag id s
  | .countersClear tag id => Sys2Proof.Machine.execCountersClear tag id s
  | .jobOpen tag kind owner privacy media sides copies => Sys2Proof.Machine.execJobOpen tag kind owner privacy media sides copies s
  | .jobRelease tag handle pin => Sys2Proof.Machine.execJobRelease tag handle pin s
  | .jobCancel tag handle => Sys2Proof.Machine.execJobCancel tag handle s
  | .jobPause tag handle => Sys2Proof.Machine.execJobPause tag handle s
  | .jobResume tag handle => Sys2Proof.Machine.execJobResume tag handle s
  | .jobSkipPage tag handle page => Sys2Proof.Machine.execJobSkipPage tag handle page s
  | .jobRead tag handle first => Sys2Proof.Machine.execJobRead tag handle first s
  | .senseSet tag channel code hysteresis filter polarity => Sys2Proof.Machine.execSenseSet tag channel code hysteresis filter polarity s
  | .doorStateOpen tag => Sys2Proof.Machine.execDoorStateOpen tag s
  | .doorStateClosed tag => Sys2Proof.Machine.execDoorStateClosed tag s
  | .jamClear tag => Sys2Proof.Machine.execJamClear tag s
  | .pathRead tag => Sys2Proof.Machine.execPathRead tag s
  | .priceSet tag f => Sys2Proof.Machine.execPriceSet tag f s
  | .meterSet tag f => Sys2Proof.Machine.execMeterSet tag f s
  | .mediaSet tag code area transit => Sys2Proof.Machine.execMediaSet tag code area transit s
  | .cartRead tag selector start => Sys2Proof.Machine.execCartRead tag selector start s
  | .cartReauth tag slot => Sys2Proof.Machine.execCartReauth tag slot s
  | .policySet tag policy => Sys2Proof.Machine.execPolicySet tag policy s
  | .familyKeyLoad tag family key => Sys2Proof.Machine.execFamilyKeyLoad tag family key s
  | .spoolRead tag block => Sys2Proof.Machine.execSpoolRead tag block s
  | .blockRetire tag block => Sys2Proof.Machine.execBlockRetire tag block s
  | .sanitize tag => Sys2Proof.Machine.execSanitize tag s
  | .faultRead tag => Sys2Proof.Machine.execFaultRead tag s
  | .faultAck tag number => Sys2Proof.Machine.execFaultAck tag number s
  | .faultAckHaltRecord tag => Sys2Proof.Machine.execFaultAckHaltRecord tag s
  | .sense tag handle => Sys2Proof.Machine.execSense tag handle s
  | .storeLock tag locks => Sys2Proof.Machine.execStoreLock tag locks s
  | .storeWipe tag => Sys2Proof.Machine.execStoreWipe tag s
  | .storeRead tag => Sys2Proof.Machine.execStoreRead tag s
  | .limitsSet tag f => Sys2Proof.Machine.execLimitsSet tag f s
  | .status tag => Sys2Proof.Machine.execStatus tag s
  | .restart tag => Sys2Proof.Machine.execRestart tag s
  | .restartWipe tag => Sys2Proof.Machine.execRestartWipe tag s
  | .rawLevelChange channel input => Sys2Proof.Machine.execRawLevelChange channel input s
  | .feedLeadingEdge => Sys2Proof.Machine.execFeedLeadingEdge s
  | .exitLeadingEdge => Sys2Proof.Machine.execExitLeadingEdge s
  | .trailingEdge sensor => Sys2Proof.Machine.execTrailingEdge sensor s
  | .supplyEdge => Sys2Proof.Machine.execSupplyEdge s
  | .entryLate => Sys2Proof.Machine.execEntryLate s
  | .exitLate => Sys2Proof.Machine.execExitLate s
  | .sheetRequest => Sys2Proof.Machine.execSheetRequest s
  | .intakeBand band => Sys2Proof.Machine.execIntakeBand band s
  | .intakeStallExpiry => Sys2Proof.Machine.execIntakeStallExpiry s
  | .holdExpiry handle => Sys2Proof.Machine.execHoldExpiry handle s
  | .lockoutExpiry id => Sys2Proof.Machine.execLockoutExpiry id s
  | .readComplete read => Sys2Proof.Machine.execReadComplete read s
  | .exportBandSent => Sys2Proof.Machine.execExportBandSent s
  | .programComplete ok => Sys2Proof.Machine.execProgramComplete ok s
  | .eraseComplete ok => Sys2Proof.Machine.execEraseComplete ok s
  | .verifyComplete read => Sys2Proof.Machine.execVerifyComplete read s
  | .probeComplete acknowledged => Sys2Proof.Machine.execProbeComplete acknowledged s
  | .readRecordComplete record => Sys2Proof.Machine.execReadRecordComplete record s
  | .challengeComplete reply => Sys2Proof.Machine.execChallengeComplete reply s
  | .decrementComplete level reply => Sys2Proof.Machine.execDecrementComplete level reply s
  | .resyncComplete => Sys2Proof.Machine.execResyncComplete s
  | .busTransactionFail => Sys2Proof.Machine.execBusTransactionFail s
  | .clockStretchLimit => Sys2Proof.Machine.execClockStretchLimit s
  | .startUpStepEnd finding => Sys2Proof.Machine.execStartUpStepEnd finding s
  | .powerLoss cut => Sys2Proof.Machine.execPowerLoss cut s

end Sys2Proof.Machine
end

