-- ==== Sys2Proof/Machine/Step.lean ====
section
/-! DEFINITION. One step: the command at the front of the queue, or half a millisecond of time on an empty queue. -/

namespace Sys2Proof.Machine

/-- 00_scope section 4, "Time": half a millisecond passes while the part is powered (log 1), and the store writes of the
event that is over stand whole (R171, log 24). -/
def tick (s : State) : State :=
  if s.powered then { s with clock := s.clock + 1, ps := { s.ps with journal := [] } } else s

/-- One step: the command at the front of the queue runs on the queue's rest, as an event of its own. -/
def step (s : State) : Host.Outcome State Fault Refusal :=
  match s.pending with
  | c :: rest => exec c (beginEvent c { s with pending := rest })
  | [] => .next (tick s)

/-- The command a word spells is put at the front of the queue; no word spells one (Decode.lean). -/
def State.withFetchWord (s : State) (nbits w : Nat) : State :=
  match decodeTableWord nbits w with
  | some c => { s with pending := c :: s.pending }
  | none => s

end Sys2Proof.Machine
end

