-- ==== Sys2Proof/Safety.lean ====
section
/-! DEFINITION. What counts as a safe state, in the terms the statements use: the bounds the spec puts on the outgoing
list, the account table, the fault queue, the history table, the sheet queue and the job table, the feed permit, and the
agreement of the store with the working copies. -/

namespace Sys2Proof.Machine

/-- The part is powered and RUNNING and has a place for a reply: requests reach their owners (R188, R189). -/
def Serving (s : State) : Prop := s.powered = true ∧ s.fm.part = .running ∧ unreadReplies s.lif < 8

/-- A state with the reply of a request at the tail of the outgoing list (R189, R190). -/
def answered (k : RequestKind) (tag : Byte) (c : Status) (p : Payload) (s : State) : State :=
  pushReply { kind := kindByte k, tag := tag, status := statusByte c, payload := p } s

/-- The number of progress entries of the outgoing list (section 11.4). -/
def progressEntries (l : LinkInterface) : Nat := l.out.countP fun e => !isReply e && (entrySubject e).isNone

/-- The subjects of the notices held in the outgoing list. -/
def subjects (l : LinkInterface) : List Subject := l.out.filterMap entrySubject

/-- The outgoing list keeps its bounds: ATTN is up while it holds an entry (R186), at most eight replies (R188), at most
48 progress entries and one entry for each subject (R191), and the counts stay in their ranges (R187, R191). -/
def LinkOk (l : LinkInterface) : Prop :=
  l.attn = !l.out.isEmpty ∧ unreadReplies l ≤ 8 ∧ progressEntries l ≤ 48 ∧ (subjects l).Nodup
    ∧ (∀ p, Subject.faultPlace p ∈ subjects l → p < 4) ∧ l.frameErrors ≤ 65535 ∧ l.dropped ≤ 65535

/-- A record keeps the ranges of section 2.1. -/
def AccountOk (a : Account) : Prop :=
  1 ≤ a.id ∧ a.id ≤ 65535 ∧ a.balance ≤ 2000000000 ∧ a.overdraft ≤ 1000000 ∧ a.pinFailures ≤ 5
    ∧ a.counters.monoSides ≤ 4294967295 ∧ a.counters.colourSides ≤ 4294967295 ∧ a.counters.sheets ≤ 4294967295
    ∧ a.counters.scanSides ≤ 4294967295 ∧ a.counters.nonGenuine ≤ 4294967295 ∧ a.counters.shortfall ≤ 4294967295

/-- R29, section 2.1: at most 2048 records, in ascending order of ID with no ID twice, each in its ranges. -/
def TableOk (table : List Account) : Prop :=
  table.length ≤ 2048 ∧ (table.map (·.id)).Pairwise (· < ·) ∧ ∀ a ∈ table, AccountOk a

/-- The account tables the store holds: the one of ACCOUNTS, and those a cut among the writes of the instant would bring
back (R171, log 24). -/
def storedTables (ps : Store) : List (List Account) :=
  (tableOf ps.accounts).toList ++ ps.journal.filterMap fun w => match w with
    | .accounts before => tableOf before
    | _ => none
where
  /-- The table of a partition that holds one. -/
  tableOf : Partition (List Account) → Option (List Account)
    | .holds table _ => some table
    | _ => none

/-- The account table, and those the store holds. -/
def AccountsOk (s : State) : Prop := TableOk s.accounts ∧ ∀ t ∈ storedTables s.ps, TableOk t

/-- The fault queue keeps its bounds (R157 to R160): at most four records, each at a place of its own and with a number
of its own in 1..65535; the backlog stands only over four records, and an overflow only under the backlog. -/
def FaultsOk (fm : FaultMonitor) : Prop :=
  fm.queue.length ≤ 4 ∧ (fm.queue.map (·.place)).Nodup ∧ (∀ q ∈ fm.queue, q.place < 4)
    ∧ (fm.queue.map (·.record.number)).Nodup ∧ (∀ q ∈ fm.queue, 1 ≤ q.record.number ∧ q.record.number ≤ 65535)
    ∧ 1 ≤ fm.nextNumber ∧ fm.nextNumber ≤ 65535 ∧ (fm.backlog = true → fm.queue.length = 4)
    ∧ (fm.backlog = false → fm.overflow = 0) ∧ fm.overflow ≤ 255

/-- Section 5.6, R98: at most 32 entries, no two of one serial, and the lifetime count in its range. -/
def HistoryContent.Ok (h : HistoryContent) : Prop :=
  h.entries.length ≤ 32 ∧ (h.entries.map (·.serial)).Nodup ∧ h.lifetime ≤ 4294967295

/-- The histories the store holds: the one of HISTORY, and those a cut among the writes of the instant would bring back. -/
def storedHistories (ps : Store) : List HistoryContent :=
  (historyOf ps.history).toList ++ ps.journal.filterMap fun w => match w with
    | .history before => historyOf before
    | _ => none
where
  /-- The history of a partition that holds one. -/
  historyOf : Partition HistoryContent → Option HistoryContent
    | .holds content _ => some content
    | _ => none

/-- The history table, and those the store holds. -/
def HistoryOk (s : State) : Prop :=
  HistoryContent.Ok { entries := s.cbc.history, lifetime := s.cbc.lifetime } ∧ ∀ h ∈ storedHistories s.ps, h.Ok

/-- Section 3.4: at most six sheets, the ENTERED ones in front of the GRANTED ones. -/
def SheetsOk (s : State) : Prop :=
  s.spm.sheets.length ≤ 6 ∧ s.spm.sheets.Pairwise fun a b => b.entered = true → a.entered = true

/-- R52: the permit is up exactly while the path is CLEAR, the door closed, SUPPLY good, the part RUNNING and no backlog set;
and a start-up in progress has the part STARTING. -/
def PermitOk (s : State) : Prop :=
  (s.spm.feedPermit = true ↔ s.spm.jammed = false ∧ s.spm.doorOpen = false ∧ s.spm.supply.level = some true
      ∧ s.fm.part = .running ∧ s.fm.backlog = false)
    ∧ (s.startUp.isSome = true → s.fm.part = .starting)

/-- A partition is blank or written whole: it would pass its check (R172, R173). -/
def Whole {α : Type} (form : α → Content) (p : Partition α) : Prop := p = .blank ∨ ∃ content, p = written form content

/-- A partition that is not blank fails its check: its content was found changed since its last write (log 23), its integrity
word is not the one its content forms, or a write to it was cut short (R171, R173). -/
def Fails {α : Type} (form : α → Content) (damaged : Prop) (p : Partition α) : Prop :=
  p = .broken ∨ ∃ content word, p = .holds content word ∧ (damaged ∨ word ≠ wordOf (form content))

/-- A partition holds a content: written so, or blank where the content is the empty form (R172). -/
def Stands {α : Type} (form : α → Content) (p : Partition α) (empty content : α) : Prop :=
  p = written form content ∨ (p = .blank ∧ content = empty)

/-- The step of the start-up in progress; 8 once the part is RUNNING, 0 where it is neither (R182). -/
def loadStage (s : State) : Nat :=
  match s.startUp with
  | some u => u.step
  | none => if s.fm.part = .running then 8 else 0

/-- HALT holds the halt record (R168, R172). -/
def HaltStands (s : State) : Prop :=
  match s.fm.haltRecord with
  | some h => s.ps.halt = written .halt h
  | none => s.ps.halt = .blank

/-- R170, R171, R182: the partitions that a start-up has loaded by a step hold their working copies. -/
def Agrees (step : Nat) (s : State) : Prop :=
  (2 ≤ step → s.ps.settings = written .settings s.settings ∧ HaltStands s
      ∧ ∃ k, s.ps.loadedKeys = some k ∧ Stands .keys s.ps.keys {} k)
    ∧ (4 ≤ step → Stands .accounts s.ps.accounts [] s.accounts)
    ∧ (5 ≤ step → Stands .defects s.ps.defects {} s.smc.defects)
    ∧ (6 ≤ step → Stands .history s.ps.history {} { entries := s.cbc.history, lifetime := s.cbc.lifetime })

/-- R170, R171: from the step that loads it on, each partition holds its working copy (R182); before that the three whose
failure halts the part, and HISTORY, have passed their checks. -/
def StoreOk (s : State) : Prop :=
  Agrees (loadStage s) s
    ∧ (2 ≤ loadStage s → Whole .accounts s.ps.accounts ∧ Whole .defects s.ps.defects ∧ Whole .history s.ps.history)
    ∧ (s.startUp.isSome = true → s.fm.part = .starting ∧ 1 ≤ loadStage s ∧ (loadStage s = 1 → s.fm.haltRecord = none))

/-- A step of the last start-up is behind the part, or the part is HALTED (R182, R164). -/
def Behind (step : Nat) (s : State) : Prop := s.fm.part = .halted ∨ step ≤ loadStage s

/-- The jobs a destination's queue and its ACTIVE place hold (section 1.3). -/
def QueueOk (jt : JobTable) (d : Destination) : Prop :=
  (queueOf jt d).waiting.Nodup
    ∧ (∀ h, h ∈ (queueOf jt d).waiting ↔ ∃ j, jobOf jt h = some j ∧ j.state = .queued ∧ destinationOf j.kind = d)
    ∧ (∀ h, (queueOf jt d).active = some h ↔ ∃ j, jobOf jt h = some j ∧ j.state = .active ∧ destinationOf j.kind = d)

/-- A slot's job bears the slot's handle (R1), and the slot's key is LIVE, under that handle, exactly while the job is in one
of the six live states (R131). -/
def SlotOk (s : State) (i : Fin 64) : Prop :=
  (s.jt.slots.get i).generation < 256
    ∧ (∀ j, (s.jt.slots.get i).job = some j → j.handle = (s.jt.slots.get i).generation * 64 + i)
    ∧ ((s.bc.keys.get i).isSome = true ↔ ∃ j, (s.jt.slots.get i).job = some j ∧ isLive j = true)
    ∧ ∀ j k, (s.jt.slots.get i).job = some j → s.bc.keys.get i = some k → k.handle = j.handle

/-- Sections 1.1 and 1.3, R131: the slots, the queues with at most one ACTIVE job for each destination, and the two pools; a
band that waits for room has the page entry it will open. -/
def JobsOk (s : State) : Prop :=
  (∀ i, SlotOk s i) ∧ QueueOk s.jt .engine ∧ QueueOk s.jt .exporter ∧ pagesUsed s.jt ≤ 8192 ∧ extentsUsed s.jt ≤ 4096
    ∧ ∀ h, s.jt.held = some h → h.band.index = 1 → pagesUsed s.jt < 8192

/-! ### The logical blocks (section 6.2) -/

/-- R112: the logical blocks of the four collections: the free list, the jobs' extent lists, the scrub list and the retired
set. -/
def collected (s : State) : List Nat :=
  s.smc.free ++ (allJobs s.jt).flatMap (fun j => extentBlocks j.extents) ++ s.se.list.map (·.block) ++ s.smc.defects.retired

/-- R112, R113: once a start-up has built them (R114), each logical block is in exactly one of the four collections; before
that they are empty, and a halt leaves them as they stand (R151). -/
def CollectedOk (s : State) : Prop :=
  (5 ≤ loadStage s → (collected s).Perm (List.range Config.logicalBlocks))
    ∧ (loadStage s < 5 → collected s = [] ∨ s.fm.part = .halted ∧ (collected s).Perm (List.range Config.logicalBlocks))
    ∧ (s.startUp.isSome = true → s.fm.part = .starting ∧ 1 ≤ loadStage s)

/-- R110, R113: a clean map and a retired set in ascending order, of logical blocks, with no block in both. -/
def DefectsOk (d : Defects) : Prop :=
  d.clean.Pairwise (· < ·) ∧ d.retired.Pairwise (· < ·)
    ∧ (∀ b ∈ d.clean, b < Config.logicalBlocks ∧ b ∉ d.retired) ∧ ∀ b ∈ d.retired, b < Config.logicalBlocks

/-- The contents of DEFECTS the store holds: the one of DEFECTS, and those a cut among the writes of the instant would bring
back (R171, log 24). -/
def storedDefects (ps : Store) : List Defects :=
  (defectsOf ps.defects).toList ++ ps.journal.filterMap fun w => match w with
    | .defects before => defectsOf before
    | _ => none
where
  /-- The content of a partition that holds one. -/
  defectsOf : Partition Defects → Option Defects
    | .holds content _ => some content
    | _ => none

/-- R113: the clean map is the free list, and every content of DEFECTS that the store holds keeps its form. -/
def MapOk (s : State) : Prop :=
  DefectsOk s.smc.defects ∧ (∀ b, b ∈ s.smc.defects.clean ↔ b ∈ s.smc.free) ∧ ∀ d ∈ storedDefects s.ps, DefectsOk d

/-- A block is in the extent list of the job a handle names. -/
def Owns (s : State) (handle block : Nat) : Prop := ∃ j, jobOf s.jt handle = some j ∧ block ∈ extentBlocks j.extents

/-- A block of a closed job is on the scrub list (R5, R142). -/
def HandedOver (s : State) (handle block : Nat) : Prop := { block := block, origin := .job handle } ∈ s.se.list

/-- The operation is a program (R126). -/
def isProgram : PortOp → Bool
  | .program _ _ _ => true
  | _ => false

/-- R116 to R120: an image is that of a block of its job, and the two are of different blocks; a program that waits is the
programming image's; with a program in flight that image is in flight, but in a halted part (R127), and the program is that
image's or one of a closed job (R120). -/
def ImagesOk (s : State) : Prop :=
  (∀ f, s.smc.filling = some f → Owns s f.handle f.block)
    ∧ (∀ p, s.smc.programming = some p → p.phase ≠ .inFlight →
        Owns s p.handle p.block ∧ ∀ f, s.smc.filling = some f → f.block ≠ p.block)
    ∧ (∀ handle block second, .program handle block second ∈ s.smc.ops →
        ∃ p, s.smc.programming = some p ∧ p.phase = .waiting ∧ p.handle = handle ∧ p.block = block)
    ∧ (s.smc.ops.filter isProgram).length ≤ 1
    ∧ ∀ handle block second physical, s.smc.inFlight = some (.program handle block second physical) →
        (match s.smc.programming with
          | some p => p.phase = .inFlight
          | none => s.fm.part = .halted)
        ∧ (HandedOver s handle block
            ∨ Owns s handle block ∧ (∀ f, s.smc.filling = some f → f.block ≠ block)
              ∧ ∀ p, s.smc.programming = some p → p.handle = handle ∧ p.block = block)

/-- R5, R142 to R144: a job in SCRUB holds no extent, an entry a job left is that of a job in SCRUB, and the block in work is
on the list. -/
def ScrubOk (s : State) : Prop :=
  (∀ j ∈ allJobs s.jt, isLive j = false → j.extents = [])
    ∧ (∀ e ∈ s.se.list, ∀ handle, e.origin = .job handle → ∃ j, jobOf s.jt handle = some j ∧ isLive j = false)
    ∧ ∀ w, s.se.work = some w → w.block ∈ s.se.list.map (·.block)

/-- R112, R113: each logical block is in exactly one collection, the clean map is the free list, and what the images, the
port and the scrub hold are blocks of the collections they belong to. -/
def BlocksOk (s : State) : Prop := CollectedOk s ∧ MapOk s ∧ ImagesOk s ∧ ScrubOk s

/-! ### Commands by what they are -/

/-- The request kind and tag of a command that is a request of the catalogue of R195. -/
def requestOf : Instr → Option (RequestKind × Byte)
  | .acctCreate tag _ _ _ _ => some (.acctCreate, tag)
  | .acctDelete tag _ => some (.acctDelete, tag)
  | .acctCredit tag _ _ => some (.acctCredit, tag)
  | .acctSet tag _ _ _ _ _ => some (.acctSet, tag)
  | .acctRead tag _ => some (.acctRead, tag)
  | .acctList tag _ => some (.acctList, tag)
  | .acctUnlock tag _ => some (.acctUnlock, tag)
  | .countersClear tag _ => some (.countersClear, tag)
  | .jobOpen tag _ _ _ _ _ _ => some (.jobOpen, tag)
  | .jobRelease tag _ _ => some (.jobRelease, tag)
  | .jobCancel tag _ => some (.jobCancel, tag)
  | .jobPause tag _ => some (.jobPause, tag)
  | .jobResume tag _ => some (.jobResume, tag)
  | .jobSkipPage tag _ _ => some (.jobSkipPage, tag)
  | .jobRead tag _ _ => some (.jobRead, tag)
  | .senseSet tag _ _ _ _ _ => some (.senseSet, tag)
  | .doorStateOpen tag => some (.doorState, tag)
  | .doorStateClosed tag => some (.doorState, tag)
  | .jamClear tag => some (.jamClear, tag)
  | .pathRead tag => some (.pathRead, tag)
  | .priceSet tag _ => some (.priceSet, tag)
  | .meterSet tag _ => some (.meterSet, tag)
  | .mediaSet tag _ _ _ => some (.mediaSet, tag)
  | .cartRead tag _ _ => some (.cartRead, tag)
  | .cartReauth tag _ => some (.cartReauth, tag)
  | .policySet tag _ => some (.policySet, tag)
  | .familyKeyLoad tag _ _ => some (.familyKeyLoad, tag)
  | .spoolRead tag _ => some (.spoolRead, tag)
  | .blockRetire tag _ => some (.blockRetire, tag)
  | .sanitize tag => some (.sanitize, tag)
  | .faultRead tag => some (.faultRead, tag)
  | .faultAck tag _ => some (.faultAck, tag)
  | .faultAckHaltRecord tag => some (.faultAck, tag)
  | .sense tag _ => some (.sense, tag)
  | .storeLock tag _ => some (.storeLock, tag)
  | .storeWipe tag => some (.storeWipe, tag)
  | .storeRead tag => some (.storeRead, tag)
  | .limitsSet tag _ => some (.limitsSet, tag)
  | .status tag => some (.status, tag)
  | .restart tag => some (.restart, tag)
  | .restartWipe tag => some (.restart, tag)
  | .powerOn | .resetInput _ | .transferStart | .transferEnd _ | .linkError _ _ _ | .linkOverrun | .unknownKind _ _
  | .rawLevelChange _ _ | .feedLeadingEdge | .exitLeadingEdge | .trailingEdge _ | .supplyEdge | .entryLate | .exitLate
  | .sheetRequest | .intakeBand _ | .intakeStallExpiry | .holdExpiry _ | .lockoutExpiry _ | .readComplete _
  | .exportBandSent | .programComplete _ | .eraseComplete _ | .verifyComplete _ | .probeComplete _
  | .readRecordComplete _ | .challengeComplete _ | .decrementComplete _ _ | .resyncComplete | .busTransactionFail
  | .clockStretchLimit | .startUpStepEnd _ | .powerLoss _ => none

/-! ### The frames of requests (R195) -/

/-- R195: the presence byte: bit i marks the i-th optional field as present. -/
def presenceByte (present : List Bool) : Byte := BitVec.ofNat 8 (present.foldr (fun b n => b.toNat + 2 * n) 0)

/-- R195: the optional 2-byte fields that are present. -/
def presentFields (fields : List (Option Nat)) : List Byte := fields.flatMap fun f => (f.map (leBytes 2)).getD []

/-- R195: the payload of a kind of optional 2-byte fields behind some fixed bytes. -/
def optionalPayload (fixed : List Byte) (fields : List (Option Nat)) : List Byte :=
  presenceByte (fields.map (·.isSome)) :: fixed ++ presentFields fields

/-- R195: a PIN takes 8 bytes, its characters followed by 00h bytes. -/
def pinBytes (pin : List Byte) : List Byte := pin ++ List.replicate (8 - pin.length) 0

/-- R195: the bytes of the PIN action of ACCT_SET: set 0 with its PIN, clear 1 (log 21). -/
def pinActionBytes : PinAction → List Byte
  | .set pin => 0 :: pinBytes pin
  | .clear => [1]

/-- R195: the payload bytes of a request: the fields in the order its rule names them, little-endian (DESIGN CHOICE,
log 67). -/
def requestPayload : Instr → List Byte
  | .acctCreate _ id overdraft colour pin =>
    presenceByte [pin.isSome] :: leBytes 2 id ++ leBytes 4 overdraft ++ leBytes 1 colour ++ (pin.map pinBytes).getD []
  | .acctDelete _ id => leBytes 2 id
  | .acctCredit _ id amount => leBytes 2 id ++ leBytes 4 (BitVec.ofInt 32 amount).toNat
  | .acctSet _ id overdraft colour standing pin =>
    presenceByte [overdraft.isSome, colour.isSome, standing.isSome, pin.isSome] :: leBytes 2 id
      ++ (overdraft.map (leBytes 4)).getD [] ++ (colour.map (leBytes 1)).getD [] ++ (standing.map (leBytes 1)).getD []
      ++ (pin.map pinActionBytes).getD []
  | .acctRead _ id => leBytes 2 id
  | .acctList _ start => leBytes 2 start
  | .acctUnlock _ id => leBytes 2 id
  | .countersClear _ id => leBytes 2 id
  | .jobOpen _ kind owner privacy media sides copies =>
    leBytes 1 kind ++ leBytes 2 owner ++ leBytes 1 privacy ++ leBytes 1 media ++ leBytes 1 sides ++ leBytes 2 copies
  | .jobRelease _ handle pin => leBytes 2 handle ++ pinBytes pin
  | .jobCancel _ handle => leBytes 2 handle
  | .jobPause _ handle => leBytes 2 handle
  | .jobResume _ handle => leBytes 2 handle
  | .jobSkipPage _ handle page => leBytes 2 handle ++ leBytes 2 page
  | .jobRead _ handle first => leBytes 2 handle ++ leBytes 2 first
  | .senseSet _ channel code hysteresis filter polarity =>
    leBytes 1 channel ++ leBytes 1 code ++ leBytes 1 hysteresis ++ leBytes 1 filter ++ leBytes 1 polarity
  | .doorStateOpen _ => [0]
  | .doorStateClosed _ => [1]
  | .priceSet _ f =>
    optionalPayload [] [f.stdMono, f.stdColour, f.largeMono, f.largeColour, f.duplexPct, f.heavyThreshold, f.heavySurcharge,
      f.scanRate]
  | .meterSet _ f => optionalPayload [] [f.colourThreshold, f.idleLoss, f.lowMarkPct, f.writebackPct, f.reauthInterval]
  | .mediaSet _ code area transit => optionalPayload (leBytes 1 code) [area, transit]
  | .cartRead _ selector start => leBytes 1 selector ++ leBytes 1 start
  | .cartReauth _ slot => leBytes 1 slot
  | .policySet _ policy => leBytes 1 policy
  | .familyKeyLoad _ family key => leBytes 1 family ++ key
  | .spoolRead _ block => optionalPayload [] [block]
  | .blockRetire _ block => leBytes 2 block
  | .faultAck _ number => 0 :: leBytes 2 number
  | .faultAckHaltRecord _ => [1, 0, 0]
  | .sense _ handle => leBytes 2 handle
  | .storeLock _ locks => leBytes 1 locks
  | .limitsSet _ f =>
    optionalPayload [] [f.holdLimit, f.lockoutTime, f.intakeStallLimit, f.entryLimit, f.readRetries, f.weakLimit]
  | .restart _ => [0]
  | .restartWipe _ => [1]
  | .jamClear _ | .pathRead _ | .sanitize _ | .faultRead _ | .storeWipe _ | .storeRead _ | .status _ => []
  | .powerOn | .resetInput _ | .transferStart | .transferEnd _ | .linkError _ _ _ | .linkOverrun | .unknownKind _ _
  | .rawLevelChange _ _ | .feedLeadingEdge | .exitLeadingEdge | .trailingEdge _ | .supplyEdge | .entryLate | .exitLate
  | .sheetRequest | .intakeBand _ | .intakeStallExpiry | .holdExpiry _ | .lockoutExpiry _ | .readComplete _
  | .exportBandSent | .programComplete _ | .eraseComplete _ | .verifyComplete _ | .probeComplete _
  | .readRecordComplete _ | .challengeComplete _ | .decrementComplete _ _ | .resyncComplete | .busTransactionFail
  | .clockStretchLimit | .startUpStepEnd _ | .powerLoss _ => []

/-- The requests that only report: their rules give them no effect but the reply. -/
def reportsOnly : RequestKind → Bool
  | .acctRead | .acctList | .jobRead | .pathRead | .cartRead | .spoolRead | .faultRead | .sense | .storeRead => true
  | _ => false

/-- The channel's raw level has held a value other than the filtered level for the filter width (R49). -/
def EdgeDue (s : State) (ch : Channel) : Prop :=
  ∃ since, (channelOf s.spm ch).since = some since ∧ since + filterTicks (channelSettings s.settings ch).filter ≤ s.clock

/-- The channel's filtered level has just become a value (R49). -/
def levelTaken (ch : Channel) (level : Bool) (s : State) : State :=
  putChannel ch { channelOf s.spm ch with level := some level, since := none } s

/-- The reserved amount the sheets in the path stand for (R32 to R34). -/
def reservedFor (id : Nat) (sheets : List Sheet) : Nat := ((sheets.filter (·.owner == id)).map (·.cost)).sum

/-- R31: available credits are 0 or more for every account, so that no balance is below -1000000 (section 2.1); what an
account has reserved is the cost of its sheets in the path, and only a sheet that costs nothing can lack an account; the
tables the store holds keep the bound, and no sheet is in the path of a part that is starting up. -/
def LedgerOk (s : State) : Prop :=
  AccountsOk s
    ∧ (∀ a ∈ s.accounts, 0 ≤ available a ∧ -1000000 ≤ a.balance ∧ a.reserved = reservedFor a.id s.spm.sheets)
    ∧ (∀ sh ∈ s.spm.sheets, 0 < sh.cost → ∃ a ∈ s.accounts, a.id = sh.owner)
    ∧ (∀ t ∈ storedTables s.ps, ∀ a ∈ t, 0 ≤ available a)
    ∧ (s.startUp.isSome = true → s.fm.part = .starting ∧ s.spm.sheets = [])

/-- A host frame of the form of section 11.2: start, type, kind, tag, payload length, two bytes that the part does not
examine, the payload and the frame check, high byte first. -/
def hostFrame (type kind tag x y : Byte) (payload : List Byte) : List Byte :=
  let body := [0x5A, type, kind, tag] ++ leBytes 2 payload.length ++ [x, y] ++ payload
  body ++ bytesOf 2 (frameCheck body)

/-- A host's bytes are a well-formed STORE_WIPE frame: type 01h, kind 22h (R187, R195). -/
def wipeFrame (bytes : List Byte) : Bool :=
  match examine bytes with
  | .wellFormed type kind _ _ => type = 0x01 && kind = 0x22
  | _ => false

/-- The next command is a STORE_WIPE, or the end of a transfer that takes the frame of one. -/
def wipeNext (s : State) : Bool :=
  match s.pending with
  | .storeWipe _ :: _ => true
  | .transferEnd bytes :: _ => s.lif.transfer.any (!·.cut) && wipeFrame bytes
  | _ => false

end Sys2Proof.Machine
end

