-- ==== Sys2Proof/WellFormed.lean ====
section
/-! DEFINITION. Which commands the interfaces of the part can carry: the fields of a request fit the widths of R195,
a band header's fields fit section 1.6, a cartridge record has 22 bytes, a verify reads within the block, ECC corrects at most 8 bits (R110). -/

namespace Sys2Proof

/-- The value fits one byte. -/
def fitsByte (n : Nat) : Bool := n < 256
/-- The value fits two bytes. -/
def fitsTwoBytes (n : Nat) : Bool := n < 65536
/-- The value fits four bytes. -/
def fitsFourBytes (n : Nat) : Bool := n < 4294967296
/-- The field is absent or fits two bytes. -/
def optFitsTwoBytes (n : Option Nat) : Bool := n.all fitsTwoBytes

/-- A PIN takes 8 bytes, its characters followed by 00h bytes (R195): at most 8 characters, the last not 00h. -/
def pinFits (pin : List Byte) : Bool := pin.length ≤ 8 && pin.getLast? != some 0

/-- The band header's fields fit their bytes (section 1.6). -/
def Band.fits (b : Band) : Bool :=
  fitsByte b.version && fitsByte b.flags && fitsTwoBytes b.handle && fitsTwoBytes b.page && fitsTwoBytes b.index
    && fitsFourBytes b.length && fitsTwoBytes b.covK && fitsTwoBytes b.covC && fitsTwoBytes b.covM
    && fitsTwoBytes b.covY

/-- No codeword reports more corrected bits than ECC corrects (R110). -/
def BandRead.fits (r : BandRead) : Bool := r.codewords.all fun c => c.all fun o => o.all (· ≤ 8)

/-- A byte of a verify lies within the 131,072 data bytes (section 6.1); the spec gives the spare area no size. -/
def VerifyRead.fits (r : VerifyRead) : Bool := r.data.all (·.1 < 131072)

/-- The command is one the part's interfaces can carry. -/
def Instr.wellFormed : Instr → Bool
  | .powerOn => true
  | .resetInput _ => true
  | .transferStart => true
  | .transferEnd _ => true
  | .linkError _ _ _ => true
  | .linkOverrun => true
  | .unknownKind _ _ => true
  | .acctCreate _ id overdraft colour pin =>
      fitsTwoBytes id && fitsFourBytes overdraft && fitsByte colour && pin.all pinFits
  | .acctDelete _ id => fitsTwoBytes id
  | .acctCredit _ id amount => fitsTwoBytes id && decide (-2147483648 ≤ amount) && decide (amount < 2147483648)
  | .acctSet _ id overdraft colour standing pin =>
      fitsTwoBytes id && overdraft.all fitsFourBytes && colour.all fitsByte && standing.all fitsByte
        && pin.all fun a => match a with
          | .set p => pinFits p
          | .clear => true
  | .acctRead _ id => fitsTwoBytes id
  | .acctList _ start => fitsTwoBytes start
  | .acctUnlock _ id => fitsTwoBytes id
  | .countersClear _ id => fitsTwoBytes id
  | .jobOpen _ kind owner privacy media sides copies =>
      fitsByte kind && fitsTwoBytes owner && fitsByte privacy && fitsByte media && fitsByte sides
        && fitsTwoBytes copies
  | .jobRelease _ handle pin => fitsTwoBytes handle && pinFits pin
  | .jobCancel _ handle => fitsTwoBytes handle
  | .jobPause _ handle => fitsTwoBytes handle
  | .jobResume _ handle => fitsTwoBytes handle
  | .jobSkipPage _ handle page => fitsTwoBytes handle && fitsTwoBytes page
  | .jobRead _ handle first => fitsTwoBytes handle && fitsTwoBytes first
  | .senseSet _ channel code hysteresis filter polarity =>
      fitsByte channel && fitsByte code && fitsByte hysteresis && fitsByte filter && fitsByte polarity
  | .doorStateOpen _ => true
  | .doorStateClosed _ => true
  | .jamClear _ => true
  | .pathRead _ => true
  | .priceSet _ f =>
      optFitsTwoBytes f.stdMono && optFitsTwoBytes f.stdColour && optFitsTwoBytes f.largeMono
        && optFitsTwoBytes f.largeColour && optFitsTwoBytes f.duplexPct && optFitsTwoBytes f.heavyThreshold
        && optFitsTwoBytes f.heavySurcharge && optFitsTwoBytes f.scanRate
  | .meterSet _ f =>
      optFitsTwoBytes f.colourThreshold && optFitsTwoBytes f.idleLoss && optFitsTwoBytes f.lowMarkPct
        && optFitsTwoBytes f.writebackPct && optFitsTwoBytes f.reauthInterval
  | .mediaSet _ code area transit => fitsByte code && optFitsTwoBytes area && optFitsTwoBytes transit
  | .cartRead _ selector start => fitsByte selector && fitsByte start
  | .cartReauth _ slot => fitsByte slot
  | .policySet _ policy => fitsByte policy
  | .familyKeyLoad _ family key => fitsByte family && decide (key.length ≤ 1023)
  | .spoolRead _ block => optFitsTwoBytes block
  | .blockRetire _ block => fitsTwoBytes block
  | .sanitize _ => true
  | .faultRead _ => true
  | .faultAck _ number => fitsTwoBytes number
  | .faultAckHaltRecord _ => true
  | .sense _ handle => fitsTwoBytes handle
  | .storeLock _ locks => fitsByte locks
  | .storeWipe _ => true
  | .storeRead _ => true
  | .limitsSet _ f =>
      optFitsTwoBytes f.holdLimit && optFitsTwoBytes f.lockoutTime && optFitsTwoBytes f.intakeStallLimit
        && optFitsTwoBytes f.entryLimit && optFitsTwoBytes f.readRetries && optFitsTwoBytes f.weakLimit
  | .status _ => true
  | .restart _ => true
  | .restartWipe _ => true
  | .rawLevelChange _ input => decide (input ≤ 844800)
  | .feedLeadingEdge => true
  | .exitLeadingEdge => true
  | .trailingEdge _ => true
  | .supplyEdge => true
  | .entryLate => true
  | .exitLate => true
  | .sheetRequest => true
  | .intakeBand band => band.fits
  | .intakeStallExpiry => true
  | .holdExpiry handle => fitsTwoBytes handle
  | .lockoutExpiry id => fitsTwoBytes id
  | .readComplete read => read.fits
  | .exportBandSent => true
  | .programComplete _ => true
  | .eraseComplete _ => true
  | .verifyComplete read => read.fits
  | .probeComplete _ => true
  | .readRecordComplete record => record.length == 22
  | .challengeComplete _ => true
  | .decrementComplete _ _ => true
  | .resyncComplete => true
  | .busTransactionFail => true
  | .clockStretchLimit => true
  | .startUpStepEnd _ => true
  | .powerLoss _ => true

end Sys2Proof
end

