-- ==== Sys2Proof/Certificates/Slice0/Obligations.lean ====
section
/-! DEFINITION. The statements for the provers. A statement about a request says what it answers and leaves while the part
serves requests (Serving: powered, RUNNING, fewer than eight unread replies); what follows by itself within the same event
is settle, of which StepRunsFrontCommand says what it does. -/

open Sys2Proof Sys2Proof.Machine

/-! ### The step and reset -/

/-- The block's step: the command at the front of the queue runs on the queue's rest. R171, R113: the store writes of the
commands before it are in force by then, so its event begins with none at stake; POWER_LOSS and RESET_INPUT alone find those of
the command before them (the model's choice as to form, log 24). No job is closed in it yet (log 70). On an empty queue half a
millisecond of uptime passes, with which the store writes stand whole, and nothing else (the model's choice, logs 1 and 24). What
a command makes due is begun within its event, by settle: nothing while HALTED, the bus alone while STARTING, and while RUNNING
the first action due, again and again until none is, in an order and up to a bound that are the model's choice (log 27). -/
def Obligations.StepRunsFrontCommand : Prop :=
  (∀ (c : Instr) (rest : List Instr) (s : State),
    let front : State := { s with pending := c :: rest }
    let begun : State := { s with pending := rest, jt := { s.jt with closedNow := [] } }
    (s.ps.journal = [] → s.jt.closedNow = [] → step front = exec c { s with pending := rest })
      ∧ ((∀ cut, c ≠ .powerLoss cut ∧ c ≠ .resetInput cut) →
        step front = exec c { begun with ps := { s.ps with journal := [] } })
      ∧ ∀ cut, c = .powerLoss cut ∨ c = .resetInput cut → step front = exec c begun)
    ∧ (∀ s : State, s.pending = [] → step s =
        .next (if s.powered then { s with clock := s.clock + 1, ps := { s.ps with journal := [] } } else s))
    ∧ ∀ s : State,
        (s.fm.part = .halted → nextAction s = none)
        ∧ (s.fm.part = .starting → nextAction s = startBus s)
        ∧ (s.fm.part = .running → nextAction s =
            [endMarkedRead s, moveImage s, handOn s, retryHeld s, takeWaiting s, activate .engine s, drain s,
              activate .exporter s, startExport s, failStaging s, startStaging s, grantAttempt s, takeScrub s,
              finishSanitize s, startBus s, startPort s].findSome? id)
        ∧ ∃ (n : Nat) (run : Nat → State), run 0 = s ∧ (∀ k, k < n → nextAction (run k) = some (run (k + 1)))
            ∧ settle s = run n
            ∧ (nextAction (settle s) = none ∨ n = 4096 + 16 * s.jt.waiting.length)

/-- R181, R182: the part right after reset is STARTING in step 1, every volatile piece of state empty; that the store is blank is
the model's choice (log 10). Every invariant the statements below carry from step to step holds there. -/
def Obligations.ResetState : Prop :=
  (State.reset.powered = true ∧ State.reset.fm.part = .starting
      ∧ State.reset.startUp = some { step := 1, wipe := false, tag := none } ∧ nowMs State.reset = 0
      ∧ State.reset.lif.out = [] ∧ State.reset.lif.attn = false ∧ State.reset.lif.transfer = none
      ∧ State.reset.lif.overrun = false ∧ State.reset.lif.frameErrors = 0 ∧ State.reset.lif.dropped = 0
      ∧ (∀ i : Fin 64, State.reset.jt.slots.get i = { generation := 0, job := none } ∧ State.reset.bc.keys.get i = none)
      ∧ State.reset.jt.engine = { waiting := [], active := none } ∧ State.reset.jt.exporter = { waiting := [], active := none }
      ∧ State.reset.jt.held = none ∧ State.reset.jt.stallTimer = none ∧ State.reset.accounts = []
      ∧ State.reset.spm.sheets = [] ∧ State.reset.spm.staging = [] ∧ State.reset.spm.requestPending = false
      ∧ State.reset.spm.feedPermit = false ∧ State.reset.spm.jammed = false ∧ State.reset.spm.doorOpen = false
      ∧ (∀ i : Fin 4, (State.reset.cbc.slots.get i).verification = .unverified)
      ∧ State.reset.cbc.flight = none ∧ State.reset.cbc.work = []
      ∧ State.reset.smc.ops = [] ∧ State.reset.smc.inFlight = none ∧ State.reset.se.list = []
      ∧ State.reset.fm.queue = [] ∧ State.reset.fm.overflow = 0 ∧ State.reset.fm.backlog = false
      ∧ State.reset.fm.nextNumber = 1 ∧ State.reset.ps = {})
    ∧ (LinkOk State.reset.lif ∧ AccountsOk State.reset ∧ LedgerOk State.reset ∧ FaultsOk State.reset.fm ∧ HistoryOk State.reset
        ∧ SheetsOk State.reset ∧ PermitOk State.reset ∧ StoreOk State.reset ∧ JobsOk State.reset ∧ BlocksOk State.reset)

/-! ### Invariants that every step keeps -/

/-- R186, R187, R188, R191: ATTN follows the outgoing list, which keeps its bounds. -/
def Obligations.LinkKept : Prop :=
  ∀ s t : State, LinkOk s.lif → step s = .next t → LinkOk t.lif

/-- R29 and the bounds of section 2.1, but for the lower bound of the balance, which LedgerKept keeps. -/
def Obligations.AccountsKept : Prop :=
  ∀ s t : State, AccountsOk s → step s = .next t → AccountsOk t

/-- R31: no account's available credits ever fall below 0, so that no balance falls below -1000000 (section 2.1). A STORE_WIPE,
sent directly or as a frame, is taken with no sheet in the path (R177, log 39). -/
def Obligations.LedgerKept : Prop :=
  ∀ s t : State, LedgerOk s → (wipeNext s = true → s.spm.sheets = []) → step s = .next t → LedgerOk t

/-- R157 to R160: the fault queue keeps its bounds, places and numbers. Section 5.6, R96, R98: so does the history table. -/
def Obligations.FaultsAndHistoryKept : Prop :=
  ∀ s t : State, step s = .next t → (FaultsOk s.fm → FaultsOk t.fm) ∧ (HistoryOk s → HistoryOk t)

/-- Section 3.4, R59: the sheet queue keeps its bound and its order. R52: the feed permit is up exactly while its five
conditions hold. -/
def Obligations.SheetPathKept : Prop :=
  ∀ s t : State, step s = .next t → (SheetsOk s → SheetsOk t) ∧ (PermitOk s → PermitOk t)

/-- R170, R171, R182: the store follows the working copies from the step that loads them on, and a halt breaks nothing of the
agreement there was (R164). -/
def Obligations.StoreKept : Prop :=
  ∀ s t : State, StoreOk s → step s = .next t →
    StoreOk t ∧ ∀ n, Behind n s → Agrees n s → Behind n t → Agrees n t

/-- Sections 1.1 and 1.3, R1, R131: the slots with their handles and keys, the queues with at most one ACTIVE job each, and the
two pools. -/
def Obligations.JobTableKept : Prop :=
  ∀ s t : State, JobsOk s → step s = .next t → JobsOk t

/-- R112, R113: from the step of a start-up that builds them (R114) on, each logical block is in exactly one of the free list,
the extent lists of the jobs, the scrub list and the retired set, a block of a job's extent lists in one place of one list;
the clean map is the free list, and in ascending order, also in the contents of DEFECTS that the store holds or a cut would
bring back (log 24). With R116 to R120 and R142 to R144: the images and the program that waits or is in flight are of blocks of
their jobs, no two of one block, and what the scrub works on is on its list. -/
def Obligations.BlocksKept : Prop :=
  ∀ s t : State, JobsOk s → BlocksOk s → step s = .next t → BlocksOk t

/-! ### All commands at once -/

/-- R191, section 11.4: a notice with a subject replaces the entry of that subject in its place, marking a transfer that is
sending it (R185), or joins the tail; a progress notice joins the tail while fewer than 48 notice entries are held, and is
dropped and counted otherwise. R53, R192: what a PART notice carries. -/
def Obligations.NoticesAdmitted : Prop :=
  (∀ (n : Notice) (s : State),
      let l := s.lif
      let added : LinkInterface := { l with out := l.out ++ [.notice n], attn := true }
      (noticeSubject n = none →
          (noticeEntries l < 48 → emit n s = { s with lif := added })
          ∧ (48 ≤ noticeEntries l → emit n s = { s with lif := { l with dropped := min (l.dropped + 1) 65535 } }))
      ∧ ∀ sub, noticeSubject n = some sub →
          ((∀ e ∈ l.out, entrySubject e ≠ some sub) → emit n s = { s with lif := added })
          ∧ ∀ front e back, l.out = front ++ e :: back → entrySubject e = some sub →
              (∀ x ∈ front, entrySubject x ≠ some sub) → emit n s = { s with lif := { l with
                out := front ++ .notice n :: back
                transfer := l.transfer.map fun x =>
                  { x with replaced := x.replaced || (x.sending && front.isEmpty) } } })
    ∧ (∀ (r : Reply) (slot : Fin 64) (job : JobNotice) (cart : CartNotice) (q : QueuedFault) (note : NoteRecord)
        (part : PartNotice) (sheet : SheetDone) (handle page returned retired : Nat) (tag : Byte) (halted wipe : Bool),
        entrySubject (.reply r) = none ∧ noticeSubject (.jobState slot job) = some (.jobSlot slot)
          ∧ noticeSubject (.cartState cart) = some (.cartSlot cart.slot) ∧ noticeSubject (.faultQueued q) = some (.faultPlace q.place)
          ∧ noticeSubject (.faultNote note) = none ∧ noticeSubject (.part part) = some .part
          ∧ noticeSubject (.sheetDone sheet) = none ∧ noticeSubject (.pageStored handle page) = none
          ∧ noticeSubject (.done tag halted (.sanitize wipe returned retired)) = some .sanitize
          ∧ noticeSubject (.done tag halted .restart) = some .restart)
    ∧ ∀ s : State, askPart s = emit (.part
        { part := s.fm.part, haltRecord := s.fm.haltRecord, backlog := s.fm.backlog, overflow := s.fm.overflow
          sweepCount := s.smc.sweepCount, sanitizing := s.se.sanitize.isSome, jammed := s.spm.jammed
          jamCause := s.spm.jam.map (·.cause), doorOpen := s.spm.doorOpen, supplyGood := s.spm.supply.level
          feedPermit := s.spm.feedPermit, sheets := s.spm.sheets.length }) s

/-- R188, steps 4 and 5 of R189, R167: a request taken with eight replies unread, while STARTING, or while HALTED. The model's
choice (log 2): without power only POWER_ON and the sense inputs act. -/
def Obligations.RequestsTurnedAway : Prop :=
  (∀ (c : Instr) (s : State), s.powered = false → c ≠ .powerOn → (∀ ch v, c ≠ .rawLevelChange ch v) →
    exec c s = .next s)
  ∧ ∀ (c : Instr) (k : RequestKind) (tag : Byte) (s : State), requestOf c = some (k, tag) → s.powered = true →
    (8 ≤ unreadReplies s.lif → exec c s = .next { s with lif := { s.lif with overrun := true } })
      ∧ (unreadReplies s.lif < 8 → s.fm.part = .starting → exec c s = .next (answered k tag .starting .empty s))
      ∧ (unreadReplies s.lif < 8 → s.fm.part = .halted → k ≠ .status → k ≠ .faultRead → k ≠ .restart →
          exec c s = .next (answered k tag .halted .empty s))


/-- R20, R29, R46, R68, R108, R128, R162, R163, R178: a request that reports changes nothing but the outgoing list, to
which it adds its reply, or the link-overrun flag (R188). -/
def Obligations.ReportsChangeNothing : Prop :=
  ∀ (c : Instr) (k : RequestKind) (tag : Byte) (s t : State), requestOf c = some (k, tag) → reportsOnly k = true →
    exec c s = .next t →
      t = s ∨ t = { s with lif := { s.lif with overrun := true } }
        ∨ ∃ r : Reply, t = { s with lif := { s.lif with out := s.lif.out ++ [.reply r], attn := true } }

/-- R40, R131, R178: two parts that differ only in the values of their family, device and job keys and of their PIN check values,
each present in the same places, and in the partitions that hold them, answer every request that only reports, and STATUS,
alike: no key and no check value is read back. -/
def Obligations.KeysAreNotReadBack : Prop :=
  ∀ (c : Instr) (k : RequestKind) (tag : Byte) (s : State) (check : Digest → Digest) (jobKeys : Vector (Option LiveKey) 64)
    (store : Store), requestOf c = some (k, tag) → (reportsOnly k = true ∨ k = .status) →
    (∀ i : Fin 64, (jobKeys.get i).isSome = (s.bc.keys.get i).isSome) →
    store.results = s.ps.results →
    ((s.ps.loadedKeys = none ∧ store.loadedKeys = none) ∨ ∃ held other, s.ps.loadedKeys = some held
      ∧ store.loadedKeys = some other ∧ (∀ i : Fin 4, (other.family.get i).isSome = (held.family.get i).isSome)
      ∧ other.device.isSome = held.device.isSome ∧ other.locks = held.locks) →
      let t := { s with ps := store, bc := { s.bc with keys := jobKeys }
                        accounts := s.accounts.map fun a => { a with pinCheck := a.pinCheck.map check } }
      ∀ u, exec c s = .next u → ∃ v, exec c t = .next v ∧ v.lif = u.lif

/-! ### Requests that report -/

/-- R1, R20, R29, R46, R68, R108, R110, R112, R128, R162, R163, R178, R193: the requests that report say what stands. FAULT_READ
and STATUS are served while HALTED too, and STATUS clears its flag and counts. The model's choices: JOB_READ carries
every entry of the extent list (log 59) and 0 for the model's own number of a stall (log 26), SPOOL_READ reports an image that
waits for a block as a phase of its own (log 52), STATUS has the lock states in force, and none where no KEYS is loaded, also where KEYS itself
failed (log 55); that CART_READ's selector 4 is HISTORY is DEDUCED (log 21). -/
def Obligations.ReadsReport : Prop :=
  ((∀ (tag : Byte) (s : State), Serving s →
      (∀ id a, findAccount id s.accounts = some a →
        exec (.acctRead tag id) s = .next (answered .acctRead tag .ok (.account
          { account := { a with pinCheck := none }
            hasPin := a.pinCheck.isSome
            available := a.balance + a.overdraft - a.reserved
            toEnd := match a.standing with
              | .lockedOut ends => some (ends - nowSeconds s)
              | _ => none
            jobs := (allJobs s.jt).countP (·.owner == a.id) }) s))
        ∧ (∀ id, findAccount id s.accounts = none →
            exec (.acctRead tag id) s = .next (answered .acctRead tag .noAccount .empty s))
        ∧ ∀ start, exec (.acctList tag start) s = .next (answered .acctList tag .ok
            (.accountList (((s.accounts.filter (·.id ≥ start)).map (·.id)).take 32) s.accounts.length
              (((s.accounts.filter (·.id ≥ start)).map (·.id)).length > 32)) s))
    ∧ (∀ (tag : Byte) (handle first : Nat) (s : State), Serving s →
        (∀ j, jobOf s.jt handle = some j → 1 ≤ first →
          exec (.jobRead tag handle first) s = .next (answered .jobRead tag .ok (.job
            { job := { j with
                state := match j.state with
                  | .stalled cause time _ => .stalled cause time 0
                  | other => other
                pages := [], expected := none }
              pages := j.pages.length
              blocks := (j.extents.map (·.count)).sum
              list := ((((List.range j.pages.length).map (· + 1)).zip j.pages).drop (first - 1)).take 16 }) s))
          ∧ (∀ j, jobOf s.jt handle = some j → first = 0 →
              exec (.jobRead tag handle first) s = .next (answered .jobRead tag .badField .empty s))
          ∧ (∀ j, jobOf s.jt handle = some j →
              exec (.sense tag handle) s = .next (answered .sense tag .ok
                (.sense (j.lastFault.map fun r => (r, s.fm.queue.any (·.record == r)))) s))
          ∧ (jobOf s.jt handle = none →
              exec (.jobRead tag handle first) s = .next (answered .jobRead tag .noJob .empty s)
                ∧ exec (.sense tag handle) s = .next (answered .sense tag .noJob .empty s))))
    ∧ (∀ (tag : Byte) (s : State),
      (Serving s → exec (.pathRead tag) s = .next (answered .pathRead tag .ok (.path
        { jammed := s.spm.jammed, jam := s.spm.jam, doorOpen := s.spm.doorOpen, feedPermit := s.spm.feedPermit
          feed := { settings := s.settings.feed, level := s.spm.feed.level }
          exit := { settings := s.settings.exit, level := s.spm.exit.level }
          supply := { settings := s.settings.supply, level := s.spm.supply.level }
          pending := s.spm.requestPending
          staging := s.spm.staging.map stageReport
          sheets := s.spm.sheets.map fun sh =>
            { handle := sh.handle, index := sh.index, entered := sh.entered, cost := sh.cost, nonGenuine := sh.nonGenuine
              msLeft := sh.deadline - nowMs s } }) s))
        ∧ (s.powered = true → s.fm.part ≠ .starting → unreadReplies s.lif < 8 →
            exec (.faultRead tag) s = .next (answered .faultRead tag .ok (.faults
              { part := s.fm.part, backlog := s.fm.backlog, overflow := s.fm.overflow, queue := s.fm.queue
                notes := s.fm.notes.toList, haltRecord := s.fm.haltRecord }) s))
        ∧ (Serving s → exec (.storeRead tag) s = .next (answered .storeRead tag .ok (.store
            { results := s.ps.results, sizes := [192, 32, 16, 8, 4, 4], accounts := s.accounts.length, remaps := s.smc.defects.remap.length
              retired := s.smc.defects.retired.length, clean := s.smc.defects.clean.length
              history := s.cbc.history.length, lifetime := s.cbc.lifetime
              familyKeys := (keysOf s).family.toList.map (·.isSome), deviceKey := (keysOf s).device.isSome
              locks := (keysOf s).locks, haltRecord := s.fm.haltRecord.isSome, limits := s.settings.limits }) s)))
    ∧ (∀ (tag : Byte) (selector start : Nat) (block : Option Nat) (s : State), Serving s →
        (∀ i : Fin 4, selector = i.val → exec (.cartRead tag selector start) s =
          .next (answered .cartRead tag .ok (.cartridge
            { slot := { s.cbc.slots.get i with drawing := [] }, drawing := (s.cbc.slots.get i).drawing.length
              authBusy := authBusy s i, writeBusy := s.cbc.work.contains (.writeBack i) || writeBackInFlight s i
              allow := s.settings.allow, lifetime := s.cbc.lifetime }) s))
          ∧ (selector = 4 → start ≤ 31 → exec (.cartRead tag selector start) s =
              .next (answered .cartRead tag .ok (.history s.cbc.history.length ((s.cbc.history.drop start).take 8)) s))
          ∧ (4 < selector ∨ (selector = 4 ∧ 31 < start) → exec (.cartRead tag selector start) s =
              .next (answered .cartRead tag .badField .empty s))
          ∧ ((∀ b, block = some b → b < 30720) → exec (.spoolRead tag block) s =
              .next (answered .spoolRead tag .ok (.spool
                { clean := s.smc.free.length, allocated := ((allJobs s.jt).map fun j => (j.extents.map (·.count)).sum).sum
                  dirty := s.se.list.length, retired := s.smc.defects.retired.length, free := s.smc.free.length
                  scrub := s.se.list.length, weak := s.smc.weak.length, marked := s.smc.marked.length
                  remaps := s.smc.defects.remap.length, spares := 2048 - s.smc.defects.remap.length
                  filling := s.smc.filling.map fun f => { handle := f.handle, block := f.block, filled := f.filled }
                  programming := s.smc.programming.map fun p =>
                    ({ handle := p.handle, block := p.block, filled := p.filled }, p.second, p.phase)
                  class1 := s.smc.ops.countP (classOf · == 1), class2 := s.smc.ops.countP (classOf · == 2)
                  class3 := s.smc.ops.countP (classOf · == 3), flight := s.smc.inFlight.map flightClass
                  block := block.map fun b =>
                    { state := blockState s b, weak := s.smc.weak.contains b, marked := markOf s.smc b
                      physical := resolve s.smc.defects b, handle := ownerOfBlock s.jt b } }) s))
          ∧ ((∃ b, block = some b ∧ 30720 ≤ b) → exec (.spoolRead tag block) s =
              .next (answered .spoolRead tag .badField .empty s)))
    ∧ (∀ (tag : Byte) (s : State), s.powered = true → s.fm.part ≠ .starting → unreadReplies s.lif < 8 →
        let count (p : JobState → Bool) := (allJobs s.jt).countP fun j => p j.state
        exec (.status tag) s = .next (answered .status tag .ok (.status
          { part := s.fm.part, uptime := nowMs s, haltRecord := s.fm.haltRecord, backlog := s.fm.backlog
            overflow := s.fm.overflow, faults := s.fm.queue.length, liveKeys := s.bc.keys.toList.countP (·.isSome)
            jobs :=
              { free := 64 - (allJobs s.jt).length
                intake := count fun | .intake => true | _ => false
                held := count fun | .held _ => true | _ => false
                queued := count fun | .queued => true | _ => false
                active := count fun | .active => true | _ => false
                stalled := count fun | .stalled _ _ _ => true | _ => false
                draining := count fun | .draining _ => true | _ => false
                scrub := count fun | .scrub _ => true | _ => false }
            sweepCount := s.smc.sweepCount, sanitizing := s.se.sanitize.isSome, scrub := s.se.list.length
            feedPermit := s.spm.feedPermit, jammed := s.spm.jammed, doorOpen := s.spm.doorOpen
            supplyGood := s.spm.supply.level, locks := s.ps.loadedKeys.map (·.locks), overrun := s.lif.overrun
            frameErrors := s.lif.frameErrors, dropped := s.lif.dropped, replies := unreadReplies s.lif
            notices := noticeEntries s.lif })
          { s with lif := { s.lif with overrun := false, frameErrors := 0, dropped := 0 } }))
    ∧ (∀ (block : Nat) (s : State),
        (blockState s block = .retired ↔ block ∈ s.smc.defects.retired)
          ∧ (blockState s block = .clean ↔ block ∉ s.smc.defects.retired ∧ block ∈ s.smc.free)
          ∧ (blockState s block = .allocated ↔ block ∉ s.smc.defects.retired ∧ block ∉ s.smc.free
            ∧ (∀ e ∈ s.se.list, e.block ≠ block) ∧ ∃ j ∈ allJobs s.jt, ∃ e ∈ j.extents, e.first ≤ block ∧ block < e.first + e.count)
          ∧ (∀ spare, (block, spare) ∈ s.smc.defects.remap → (∀ x ∈ s.smc.defects.remap, x.1 = block → x.2 = spare) →
            resolve s.smc.defects block = spare)
          ∧ ((∀ x ∈ s.smc.defects.remap, x.1 ≠ block) → resolve s.smc.defects block = block))

/-! ### Account requests -/

/-- R36, R47: ACCT_CREATE in the order of its tests, and ACCT_DELETE. -/
def Obligations.AcctCreateAndDelete : Prop :=
  (∀ (tag : Byte) (id overdraft colour : Nat) (pin : Option (List Byte)) (s : State), Serving s →
    ((id = 0 ∨ 65535 < id ∨ 1000000 < overdraft ∨ 1 < colour ∨ ∃ p, pin = some p ∧ validPin p = false) →
      exec (.acctCreate tag id overdraft colour pin) s = .next (answered .acctCreate tag .badField .empty s))
      ∧ (1 ≤ id → id ≤ 65535 → overdraft ≤ 1000000 → colour ≤ 1 → (∀ p, pin = some p → validPin p = true) →
          ((findAccount id s.accounts).isSome = true →
            exec (.acctCreate tag id overdraft colour pin) s = .next (answered .acctCreate tag .wrongState .empty s))
          ∧ (findAccount id s.accounts = none → 2048 ≤ s.accounts.length →
            exec (.acctCreate tag id overdraft colour pin) s = .next (answered .acctCreate tag .full .empty s))
          ∧ (findAccount id s.accounts = none → s.accounts.length < 2048 →
            exec (.acctCreate tag id overdraft colour pin) s = .next (answered .acctCreate tag .ok .empty
              (setAccounts (insertAccount
                { id := id, standing := .active, balance := 0, overdraft := overdraft, reserved := 0
                  colourRight := decide (colour = 1), pinCheck := pin.map (pinCheckValue (deviceKeyOf s))
                  pinFailures := 0, counters := { monoSides := 0, colourSides := 0, sheets := 0, scanSides := 0,
                                                  nonGenuine := 0, shortfall := 0 } } s.accounts) s)))))
    ∧ (∀ (tag : Byte) (id : Nat) (s : State), Serving s →
        (findAccount id s.accounts = none →
          exec (.acctDelete tag id) s = .next (answered .acctDelete tag .noAccount .empty s))
          ∧ ∀ a, findAccount id s.accounts = some a →
            (((∃ j ∈ allJobs s.jt, j.owner = id) ∨ a.reserved ≠ 0) →
              exec (.acctDelete tag id) s = .next (answered .acctDelete tag .busy .empty s))
            ∧ ((∀ j ∈ allJobs s.jt, j.owner ≠ id) → a.reserved = 0 →
              exec (.acctDelete tag id) s = .next (answered .acctDelete tag .ok (.deleted a.balance a.counters)
                (setAccounts (s.accounts.filter (·.id != id)) s))))

/-- R37: ACCT_CREDIT by the sign of the amount; a balance that rose is reported for R11. That the reply's figures are those
before what the requeue sets off is the model's choice (log 47). -/
def Obligations.AcctCreditMovesBalance : Prop :=
  ∀ (tag : Byte) (id : Nat) (amount : Int) (s : State), Serving s →
    ((amount < -2000000000 ∨ 2000000000 < amount) →
      exec (.acctCredit tag id amount) s = .next (answered .acctCredit tag .badField .empty s))
      ∧ (-2000000000 ≤ amount → amount ≤ 2000000000 → findAccount id s.accounts = none →
          exec (.acctCredit tag id amount) s = .next (answered .acctCredit tag .noAccount .empty s))
      ∧ ∀ a, findAccount id s.accounts = some a → -2000000000 ≤ amount → amount ≤ 2000000000 →
        (0 < amount → a.balance < min (a.balance + amount) 2000000000 →
          exec (.acctCredit tag id amount) s = .next (answered .acctCredit tag .ok
            (.credit (min (a.balance + amount) 2000000000)
              (min (a.balance + amount) 2000000000 + a.overdraft - a.reserved) (a.balance + amount > 2000000000))
            (settle (creditRose id
              (updateAccount id (fun b => { b with balance := min (b.balance + amount) 2000000000 }) s)))))
        ∧ (0 < amount → a.balance = 2000000000 →
          exec (.acctCredit tag id amount) s = .next (answered .acctCredit tag .ok
            (.credit 2000000000 (available a) true) s))
        ∧ (amount = 0 → exec (.acctCredit tag id amount) s = .next (answered .acctCredit tag .ok
            (.credit a.balance (available a) false) s))
        ∧ (amount < 0 → -amount ≤ available a →
          exec (.acctCredit tag id amount) s = .next (answered .acctCredit tag .ok
            (.credit (a.balance + amount) (a.balance + amount + a.overdraft - a.reserved) false)
            (updateAccount id (fun b => { b with balance := b.balance + amount }) s)))
        ∧ (amount < 0 → available a < -amount →
          exec (.acctCredit tag id amount) s = .next (answered .acctCredit tag .insufficient .empty s))

/-- R38 to R40: ACCT_SET in the order of its tests; an accepted one applies all its fields together, field by field as the
second part says, and reports what R11 requeues for, the CREDIT jobs before the ACCOUNT jobs where it does both (the model's
choice, log 45). One that carries no field changes nothing, also in the store. R30: a change of a record is written to ACCOUNTS,
and what leaves the table as it stood writes nothing. -/
def Obligations.AcctSetApplies : Prop :=
  (∀ (tag : Byte) (id : Nat) (overdraft colour standing : Option Nat) (pin : Option PinAction) (s : State), Serving s →
      (((∃ l, overdraft = some l ∧ 1000000 < l) ∨ (∃ c, colour = some c ∧ 1 < c) ∨ (∃ c, standing = some c ∧ 1 < c)
          ∨ ∃ p, pin = some (.set p) ∧ validPin p = false) →
        exec (.acctSet tag id overdraft colour standing pin) s = .next (answered .acctSet tag .badField .empty s))
        ∧ ((∀ l, overdraft = some l → l ≤ 1000000) → (∀ c, colour = some c → c ≤ 1) → (∀ c, standing = some c → c ≤ 1) →
            (∀ p, pin = some (.set p) → validPin p = true) →
            (findAccount id s.accounts = none →
              exec (.acctSet tag id overdraft colour standing pin) s = .next (answered .acctSet tag .noAccount .empty s))
            ∧ ∀ a, findAccount id s.accounts = some a →
              ((∃ ends, a.standing = .lockedOut ends) → standing = some 0 →
                exec (.acctSet tag id overdraft colour standing pin) s = .next (answered .acctSet tag .lockedOut .empty s))
              ∧ (¬ ((∃ ends, a.standing = .lockedOut ends) ∧ standing = some 0) →
                (∃ l, overdraft = some l ∧ a.balance - a.reserved < -(l : Int)) →
                exec (.acctSet tag id overdraft colour standing pin) s = .next (answered .acctSet tag .insufficient .empty s))
              ∧ (¬ ((∃ ends, a.standing = .lockedOut ends) ∧ standing = some 0) →
                (∀ l, overdraft = some l → -(l : Int) ≤ a.balance - a.reserved) →
                let b := applyAcctSet s overdraft colour standing pin a
                let changed := updateAccount id (applyAcctSet s overdraft colour standing pin) s
                let raised := a.overdraft < b.overdraft
                let lifted := (a.standing = .suspended ∧ b.standing = .active)
                  ∨ (a.colourRight = false ∧ b.colourRight = true ∧ b.standing ≠ .suspended)
                (¬ raised → ¬ lifted →
                  exec (.acctSet tag id overdraft colour standing pin) s = .next (answered .acctSet tag .ok .empty changed))
                ∧ (raised → ¬ lifted →
                  exec (.acctSet tag id overdraft colour standing pin) s =
                    .next (answered .acctSet tag .ok .empty (settle (creditRose id changed))))
                ∧ (¬ raised → lifted →
                  exec (.acctSet tag id overdraft colour standing pin) s =
                    .next (answered .acctSet tag .ok .empty (settle (barrierGone id changed))))
                ∧ (raised → lifted →
                  exec (.acctSet tag id overdraft colour standing pin) s =
                    .next (answered .acctSet tag .ok .empty (settle (barrierGone id (creditRose id changed))))))))
    ∧ (∀ (s : State) (overdraft colour standing : Option Nat) (pin : Option PinAction) (a : Account),
        (∀ c, colour = some c → c ≤ 1) → (∀ c, standing = some c → c ≤ 1) →
        ¬ ((∃ ends, a.standing = .lockedOut ends) ∧ standing = some 0) →
        let b := applyAcctSet s overdraft colour standing pin a
        b.id = a.id ∧ b.balance = a.balance ∧ b.reserved = a.reserved ∧ b.counters = a.counters
          ∧ b.overdraft = overdraft.getD a.overdraft
          ∧ b.colourRight = (match colour with
              | some c => decide (c = 1)
              | none => a.colourRight)
          ∧ b.standing = (match standing with
              | some 0 => .active
              | some _ => .suspended
              | none => a.standing)
          ∧ b.pinCheck = (match pin with
              | some (.set p) => some (pinCheckValue (deviceKeyOf s) p)
              | some .clear => none
              | none => a.pinCheck)
          ∧ b.pinFailures = (match pin, standing, a.standing with
              | some _, _, _ => 0
              | none, some 1, .lockedOut _ => 0
              | none, _, _ => a.pinFailures))
    ∧ (∀ (tag : Byte) (id : Nat) (s : State) (a : Account), Serving s → findAccount id s.accounts = some a →
        exec (.acctSet tag id none none none none) s = .next (answered .acctSet tag .ok .empty s))
    ∧ ∀ (id : Nat) (f : Account → Account) (s : State),
        let table := s.accounts.map fun a => if a.id = id then f a else a
        (table = s.accounts → updateAccount id f s = s)
          ∧ (table ≠ s.accounts → updateAccount id f s = { s with
              accounts := table
              ps := { s.ps with accounts := written .accounts table, journal := .accounts s.ps.accounts :: s.ps.journal } })

/-- R43, R45: ACCT_UNLOCK and COUNTERS_CLEAR. -/
def Obligations.UnlockAndCountersClear : Prop :=
  (∀ (tag : Byte) (id : Nat) (s : State), Serving s →
    (findAccount id s.accounts = none →
      exec (.acctUnlock tag id) s = .next (answered .acctUnlock tag .noAccount .empty s))
      ∧ ∀ a, findAccount id s.accounts = some a →
        exec (.acctUnlock tag id) s = .next (answered .acctUnlock tag .ok
          (.standing (match a.standing with
            | .lockedOut _ => .active
            | .active => .active
            | .suspended => .suspended))
          (updateAccount id (fun b => { b with
            standing := match b.standing with
              | .lockedOut _ => .active
              | .active => .active
              | .suspended => .suspended
            pinFailures := 0 }) s)))
    ∧ (∀ (tag : Byte) (id : Nat) (s : State), Serving s →
    ((locksOf s).audit = true →
      exec (.countersClear tag id) s = .next (answered .countersClear tag .locked .empty s))
      ∧ ((locksOf s).audit = false → findAccount id s.accounts = none →
          exec (.countersClear tag id) s = .next (answered .countersClear tag .noAccount .empty s))
      ∧ ((locksOf s).audit = false → ∀ a, findAccount id s.accounts = some a →
          exec (.countersClear tag id) s = .next (answered .countersClear tag .ok (.counters a.counters)
            (updateAccount id (fun b => { b with counters :=
              { monoSides := 0, colourSides := 0, sheets := 0, scanSides := 0, nonGenuine := 0, shortfall := 0 } }) s))))

/-- R19, R42: HOLD_EXPIRY closes a HELD job EXPIRED and LOCKOUT_EXPIRY ends a lockout, HALTED included, each from its deadline
on. R64: the deadline of a sheet reached while the path is CLEAR is a jam. Before its deadline each command has no effect
(the model's choice, log 3). R54: a SHEET_REQUEST becomes the pending request, and one that meets a pending request changes
nothing. -/
def Obligations.DeadlinesAct : Prop :=
  (∀ (id : Nat) (s : State) (a : Account) (ends : Nat), s.powered = true → findAccount id s.accounts = some a →
      a.standing = .lockedOut ends →
        (ends ≤ nowSeconds s → exec (.lockoutExpiry id) s = .next (updateAccount id (fun b => { b with
          standing := match b.standing with
            | .lockedOut _ => .active
            | .active => .active
            | .suspended => .suspended
          pinFailures := 0 }) s))
        ∧ (nowSeconds s < ends → exec (.lockoutExpiry id) s = .next s))
    ∧ (∀ (handle deadline : Nat) (j : Job) (s : State), s.powered = true → jobOf s.jt handle = some j → j.state = .held deadline →
        (deadline ≤ nowSeconds s → exec (.holdExpiry handle) s = .next (settle (closeJob .expired handle s)))
          ∧ (nowSeconds s < deadline → exec (.holdExpiry handle) s = .next s))
    ∧ (∀ s : State, s.powered = true → s.spm.jammed = false → s.fm.part = .running →
      ((∃ sh ∈ s.spm.sheets, sh.entered = false ∧ sh.deadline ≤ nowMs s) →
        exec .entryLate s = .next (settle (declareJam .entryLate s)))
        ∧ ((∃ sh ∈ s.spm.sheets, sh.entered = true ∧ sh.deadline ≤ nowMs s) →
          exec .exitLate s = .next (settle (declareJam .exitLate s)))
        ∧ ((∀ sh ∈ s.spm.sheets, nowMs s < sh.deadline) → exec .entryLate s = .next s ∧ exec .exitLate s = .next s))
    ∧ (∀ s : State, s.powered = true →
        (s.spm.requestPending = true → exec .sheetRequest s = .next s)
          ∧ (s.spm.requestPending = false →
            exec .sheetRequest s = .next (settle { s with spm := { s.spm with requestPending := true } })))

/-- R32 to R35, R44, R80: the answers to a reservation request in their order; a charge leaves available credits unchanged; a scan
charge takes no more than they are. What a delivery and a scanned page make of the record, each counter saturating. -/
def Obligations.CreditsArithmetic : Prop :=
  (∀ (a : Account) (cost : Nat) (colour : Bool), 0 ≤ available a →
      (reservationAnswer a cost colour = .account ↔ a.standing = .suspended ∨ (colour = true ∧ a.colourRight = false))
        ∧ (reservationAnswer a cost colour = .credit ↔
            ¬ (a.standing = .suspended ∨ (colour = true ∧ a.colourRight = false)) ∧ available a < cost)
        ∧ (reservationAnswer a cost colour = .reserved →
            0 ≤ available (reserve cost a) ∧ available (release cost (reserve cost a)) = available a))
    ∧ (∀ (a : Account) (cost due : Nat) (sides : List Side) (nonGenuine : Bool),
        (cost ≤ a.reserved → available (charge cost sides nonGenuine a) = available a
            ∧ (charge cost sides nonGenuine a).balance = a.balance - cost)
          ∧ (0 ≤ available a → 0 ≤ available (scanCharge due (scanTaken due (available a)) a)
            ∧ ((scanTaken due (available a) : Nat) : Int) = min (due : Int) (available a)))
    ∧ ∀ (a : Account) (cost due taken : Nat) (sides : List Side) (nonGenuine : Bool),
        let up (count rise : Nat) : Nat := min (count + rise) 4294967295
        let mono := sides.countP fun | .page _ .mono => true | _ => false
        let colour := sides.countP fun | .page _ .colour => true | _ => false
        charge cost sides nonGenuine a = { a with
            balance := a.balance - cost
            reserved := a.reserved - cost
            counters :=
              { sheets := up a.counters.sheets 1, monoSides := up a.counters.monoSides mono
                colourSides := up a.counters.colourSides colour
                nonGenuine := up a.counters.nonGenuine (if nonGenuine then mono + colour else 0)
                scanSides := a.counters.scanSides, shortfall := a.counters.shortfall } }
          ∧ scanCharge due taken a = { a with
              balance := a.balance - taken
              counters := { a.counters with
                scanSides := up a.counters.scanSides 1, shortfall := up a.counters.shortfall (due - taken) } }

/-! ### Job requests -/

/-- R2, R132: JOB_OPEN takes the lowest-numbered FREE slot and gives it a fresh key; a draw that fails halts the part. R140: a
sample that ends a run of 32 or is the 401st of its value in its window of 1024 fails the draw (one that does both fails it as
REPETITION, the model's choice, log 60); samples pass where neither stands anywhere in what was sampled since the tests began;
16 bytes of output equal to those before them fail it. A draw uses up its noise, and the tests carry on from it (what the source
delivers is free, log 7). -/
def Obligations.JobOpenFillsSlot : Prop :=
  (∀ (tag : Byte) (kind owner privacy media sides copies : Nat) (k : JobKind) (priv duplex : Bool) (a : Account) (i : Fin 64)
    (s : State), Serving s → jobOpenFields kind owner privacy media sides copies = some (k, priv, duplex) →
    findAccount owner s.accounts = some a → a.standing ≠ .suspended → s.se.sanitize = none →
    (s.jt.slots.get i).job = none → (∀ n : Fin 64, n < i → (s.jt.slots.get n).job.isSome = true) →
      (∀ key t, draw32 s = (.ok key, t) →
        let handle := (s.jt.slots.get i).generation * 64 + i
        let job : Job :=
          { handle := handle, kind := k, owner := owner, priv := priv, media := media, duplex := duplex, copies := copies
            state := .intake, expected := some (1, 1), pages := [], extents := [], nextSheet := 0, delivered := 0
            inFlight := 0, charged := 0, lastFault := none }
        exec (.jobOpen tag kind owner privacy media sides copies) s = .next (answered .jobOpen tag .ok (.handle handle)
          (askJobState job { t with
            jt := putJob job t.jt
            bc := { t.bc with keys := t.bc.keys.set i (some
              { handle := handle, jobKey := key, encKey := deriveEncKey key, tagKey := deriveTagKey key }) } })))
      ∧ (∀ test t, draw32 s = (.error test, t) →
        exec (.jobOpen tag kind owner privacy media sides copies) s = .next (answered .jobOpen tag .halted .empty
          (haltPart (.randomSource test .jobKey) t))))
  ∧ (∀ (b : Byte) (rest : List Byte) (h : Health),
      let run : Nat := match h.run with
        | some (v, n) => if v = b then n + 1 else 1
        | none => 1
      let window := b :: h.window
      testSample h b = ({ h with run := some (b, run), window := if window.length < 1024 then window else [] },
          if 32 ≤ run then some .repetition else if 400 < window.count b then some .proportion else none)
        ∧ testSamples [] h = (h, none)
        ∧ testSamples (b :: rest) h =
            (if (testSample h b).2 = none then testSamples rest (testSample h b).1 else testSample h b))
  ∧ (∀ past samples : List Byte, (testSamples past {}).2 = none →
      ((testSamples samples (testSamples past {}).1).2 = none ↔
        (∀ b, ¬ List.replicate 32 b <:+: past ++ samples)
          ∧ ∀ k b, (((past ++ samples).drop (1024 * k)).take 1024).count b ≤ 400))
  ∧ ∀ s : State,
      let noise : Noise := match s.noise with
        | n :: _ => n
        | [] => Config.freeNoise s.noiseTaken
      let used : State := match s.noise with
        | _ :: rest => { s with noise := rest }
        | [] => { s with noiseTaken := s.noiseTaken + 1 }
      let left (h : Health) : State := { used with bc := { s.bc with health := h } }
      let sampled := testSamples noise.samples s.bc.health
      let first : Digest := noise.output.extractLsb' 128 128
      let second : Digest := noise.output.extractLsb' 0 128
      (∀ test, sampled.2 = some test → draw32 s = (.error test, left sampled.1) ∧ draw16 s = (.error test, left sampled.1))
      ∧ (sampled.2 = none →
          (s.bc.health.last = some first →
            draw32 s = (.error .output, left sampled.1) ∧ draw16 s = (.error .output, left sampled.1))
          ∧ (s.bc.health.last ≠ some first →
            let halfway : Health := { sampled.1 with last := some first }
            draw16 s = (.ok first, left halfway)
              ∧ (second = first → draw32 s = (.error .output, left halfway))
              ∧ (second ≠ first → draw32 s = (.ok noise.output, left { halfway with last := some second }))))

/-- R1, R2, R14 to R18: the refusals of the job requests, those of JOB_OPEN in their order; nothing changes. That JOB_SKIP_PAGE
tests the job's state before the page, so that an INTAKE, ACTIVE, DRAINING or SCRUB job is WRONG_STATE whatever the page, is
the model's choice (log 29). -/
def Obligations.JobRefusals : Prop :=
  (∀ (tag : Byte) (kind owner privacy media sides copies : Nat) (s : State), Serving s →
      ((2 < kind ∨ 1 < privacy ∨ 1 < sides ∨ owner = 0 ∨ 65535 < owner ∨ 15 < media ∨ copies = 0 ∨ 999 < copies
          ∨ (kind = 2 ∧ (privacy = 0 ∨ copies ≠ 1))) →
        exec (.jobOpen tag kind owner privacy media sides copies) s = .next (answered .jobOpen tag .badField .empty s))
        ∧ (kind ≤ 2 → privacy ≤ 1 → sides ≤ 1 → 1 ≤ owner → owner ≤ 65535 → media ≤ 15 → 1 ≤ copies → copies ≤ 999 →
            (kind = 2 → privacy = 1 ∧ copies = 1) →
            (findAccount owner s.accounts = none →
              exec (.jobOpen tag kind owner privacy media sides copies) s = .next (answered .jobOpen tag .noAccount .empty s))
            ∧ ∀ a, findAccount owner s.accounts = some a →
              (a.standing = .suspended →
                exec (.jobOpen tag kind owner privacy media sides copies) s = .next (answered .jobOpen tag .wrongState .empty s))
              ∧ (a.standing ≠ .suspended → s.se.sanitize.isSome = true →
                exec (.jobOpen tag kind owner privacy media sides copies) s = .next (answered .jobOpen tag .busy .empty s))
              ∧ (a.standing ≠ .suspended → s.se.sanitize = none → (∀ n : Fin 64, (s.jt.slots.get n).job.isSome = true) →
                exec (.jobOpen tag kind owner privacy media sides copies) s = .next (answered .jobOpen tag .full .empty s))))
    ∧ (∀ (tag : Byte) (handle page : Nat) (pin : List Byte) (s : State), Serving s →
        (jobOf s.jt handle = none →
          exec (.jobRelease tag handle pin) s = .next (answered .jobRelease tag .noJob .empty s)
            ∧ exec (.jobCancel tag handle) s = .next (answered .jobCancel tag .noJob .empty s)
            ∧ exec (.jobPause tag handle) s = .next (answered .jobPause tag .noJob .empty s)
            ∧ exec (.jobResume tag handle) s = .next (answered .jobResume tag .noJob .empty s)
            ∧ exec (.jobSkipPage tag handle page) s = .next (answered .jobSkipPage tag .noJob .empty s))
          ∧ ∀ j, jobOf s.jt handle = some j →
            (validPin pin = false →
              exec (.jobRelease tag handle pin) s = .next (answered .jobRelease tag .badField .empty s))
            ∧ (validPin pin = true → (∀ deadline, j.state ≠ .held deadline) →
              exec (.jobRelease tag handle pin) s = .next (answered .jobRelease tag .wrongState .empty s))
            ∧ ((∃ outcome, j.state = .scrub outcome) →
              exec (.jobCancel tag handle) s = .next (answered .jobCancel tag .wrongState .empty s))
            ∧ ((j.state = .intake ∨ (∃ d, j.state = .held d) ∨ (∃ r, j.state = .draining r) ∨ (∃ o, j.state = .scrub o)
                ∨ (∃ rank time order, j.state = .stalled (.jam rank) time order)
                ∨ ∃ time order, j.state = .stalled .image time order) →
              exec (.jobPause tag handle) s = .next (answered .jobPause tag .wrongState .empty s)
                ∧ exec (.jobResume tag handle) s = .next (answered .jobResume tag .wrongState .empty s))
            ∧ ((j.state = .queued ∨ j.state = .active) →
              exec (.jobResume tag handle) s = .next (answered .jobResume tag .wrongState .empty s))
            ∧ ((j.state = .intake ∨ j.state = .active ∨ (∃ r, j.state = .draining r) ∨ ∃ o, j.state = .scrub o) →
              exec (.jobSkipPage tag handle page) s = .next (answered .jobSkipPage tag .wrongState .empty s)))

/-- R18, R41: JOB_RELEASE of a HELD job with a well-formed PIN, and what a mismatch makes of the record. -/
def Obligations.JobReleaseComparesPin : Prop :=
  (∀ (tag : Byte) (handle deadline : Nat) (pin : List Byte) (j : Job) (a : Account) (s : State), Serving s →
      jobOf s.jt handle = some j → validPin pin = true → j.state = .held deadline → findAccount j.owner s.accounts = some a →
        (a.standing = .suspended →
          exec (.jobRelease tag handle pin) s = .next (answered .jobRelease tag .wrongState .empty s))
        ∧ ((∃ ends, a.standing = .lockedOut ends) →
          exec (.jobRelease tag handle pin) s = .next (answered .jobRelease tag .lockedOut .empty s))
        ∧ (a.standing = .active → a.pinCheck = none →
          exec (.jobRelease tag handle pin) s = .next (answered .jobRelease tag .noPin .empty s))
        ∧ (a.standing = .active → ∀ check, a.pinCheck = some check →
          (pinCheckValue (deviceKeyOf s) pin ≠ check →
            exec (.jobRelease tag handle pin) s = .next (answered .jobRelease tag .pinWrong .empty
              (updateAccount a.id (pinFailed (nowSeconds s) s.settings.limits.lockoutTime) s)))
          ∧ (pinCheckValue (deviceKeyOf s) pin = check → (∃ p ∈ j.pages, p.cls = some .colour) → a.colourRight = false →
            exec (.jobRelease tag handle pin) s = .next (answered .jobRelease tag .noColourRight .empty
              (updateAccount a.id (fun b => { b with pinFailures := 0 }) s)))
          ∧ (pinCheckValue (deviceKeyOf s) pin = check → ((∀ p ∈ j.pages, p.cls ≠ some .colour) ∨ a.colourRight = true) →
            exec (.jobRelease tag handle pin) s = .next (answered .jobRelease tag .ok .empty
              (settle (queueTail j (updateAccount a.id (fun b => { b with pinFailures := 0 }) s)))))))
    ∧ (∀ (now minutes : Nat) (a : Account), a.standing = .active → a.pinFailures ≤ 4 →
        (a.pinFailures < 4 → pinFailed now minutes a = { a with pinFailures := a.pinFailures + 1 })
          ∧ (a.pinFailures = 4 → pinFailed now minutes a =
              { a with pinFailures := 5, standing := .lockedOut (now + minutes * 60) }))

/-- R16: JOB_CANCEL by the job's state. R7, R14, R15, R17, R28: JOB_PAUSE and JOB_RESUME where they are accepted (a resumed job
goes to the tail of its destination's queue), and JOB_SKIP_PAGE of a HELD, QUEUED or STALLED job. R10, R11: a stall of the
ACTIVE job, and the jobs that a report of credits, standing or supply returns to the tail in the order of their stalls. -/
def Obligations.JobRequestsAct : Prop :=
  (∀ (tag : Byte) (handle : Nat) (j : Job) (s : State), Serving s → jobOf s.jt handle = some j →
    ((j.state = .intake ∨ ∃ deadline, j.state = .held deadline) →
      exec (.jobCancel tag handle) s = .next (answered .jobCancel tag .ok .empty (settle (closeJob .cancelled j.handle s))))
      ∧ ((j.state = .queued ∨ (∃ cause time order, j.state = .stalled cause time order)
          ∨ (j.state = .active ∧ ((∀ b, s.jt.exportPhase ≠ .sending b) ∨ s.jt.exporter.active ≠ some j.handle))) →
        (j.inFlight = 0 → exec (.jobCancel tag handle) s =
          .next (answered .jobCancel tag .ok .empty (settle (closeJob .cancelled j.handle s))))
        ∧ (j.inFlight ≠ 0 → exec (.jobCancel tag handle) s = .next (answered .jobCancel tag .ok .empty
            (settle (moveJob { j with state := .draining .cancel } (leavePlace j s))))))
      ∧ (j.state = .active → ∀ b, s.jt.exportPhase = .sending b → s.jt.exporter.active = some j.handle →
          exec (.jobCancel tag handle) s = .next (answered .jobCancel tag .ok .empty
            { s with jt := { s.jt with exportPhase := .sending { b with cancelling := true } } }))
      ∧ (j.state = .draining .ends → exec (.jobCancel tag handle) s =
          .next (answered .jobCancel tag .ok .empty (moveJob { j with state := .draining .cancel } s)))
      ∧ (j.state = .draining .cancel → exec (.jobCancel tag handle) s = .next (answered .jobCancel tag .ok .empty s))
      ∧ ((∃ outcome, j.state = .scrub outcome) →
          exec (.jobCancel tag handle) s = .next (answered .jobCancel tag .wrongState .empty s)))
    ∧ ((∀ (tag : Byte) (handle : Nat) (j : Job) (s : State), Serving s → jobOf s.jt handle = some j →
      (j.state = .queued → exec (.jobPause tag handle) s =
        .next (answered .jobPause tag .ok .empty (stallJob .paused j (unqueue j s))))
        ∧ (j.state = .active → ((∀ b, s.jt.exportPhase ≠ .sending b) ∨ s.jt.exporter.active ≠ some j.handle) → exec (.jobPause tag handle) s =
            .next (answered .jobPause tag .ok .empty (settle (stallJob .paused j (leaveActive j s)))))
        ∧ (j.state = .active → ∀ b, s.jt.exportPhase = .sending b → s.jt.exporter.active = some j.handle →
            exec (.jobPause tag handle) s = .next (answered .jobPause tag .ok .empty
              { s with jt := { s.jt with exportPhase := .sending { b with pausing := true } } }))
        ∧ (∀ cause time order, j.state = .stalled cause time order → (cause = .credit ∨ cause = .supply ∨ cause = .account) →
            exec (.jobPause tag handle) s = .next (answered .jobPause tag .ok .empty (stallJob .paused j s)))
        ∧ (∀ time order, j.state = .stalled .paused time order →
            exec (.jobPause tag handle) s = .next (answered .jobPause tag .ok .empty s)))
    ∧ (∀ (tag : Byte) (handle time order : Nat) (cause : StallCause) (j : Job) (s : State), Serving s →
        jobOf s.jt handle = some j → j.state = .stalled cause time order →
        (cause = .paused ∨ cause = .credit ∨ cause = .supply ∨ cause = .account) →
          let d := destinationOf j.kind
          let queued := { s with jt := putQueue d { waiting := (queueOf s.jt d).waiting ++ [j.handle]
                                                    active := (queueOf s.jt d).active } s.jt }
          exec (.jobResume tag handle) s =
            .next (answered .jobResume tag .ok .empty (settle (moveJob { j with state := .queued } queued)))))
    ∧ (∀ (tag : Byte) (handle page : Nat) (j : Job) (s : State), Serving s → jobOf s.jt handle = some j →
        ((∃ deadline, j.state = .held deadline) ∨ j.state = .queued
          ∨ ∃ cause time order, j.state = .stalled cause time order) →
          ((page = 0 ∨ j.pages.length < page) →
            exec (.jobSkipPage tag handle page) s = .next (answered .jobSkipPage tag .badField .empty s))
          ∧ ∀ p, 1 ≤ page → j.pages[page - 1]? = some p →
            let flagged : Job := { j with pages := j.pages.set (page - 1) { p with skipped := true } }
            (p.skipped = true →
              exec (.jobSkipPage tag handle page) s = .next (answered .jobSkipPage tag .ok .empty s))
            ∧ (p.skipped = false → (∀ time order, j.state ≠ .stalled .image time order) →
              exec (.jobSkipPage tag handle page) s = .next (answered .jobSkipPage tag .ok .empty (setJob flagged s)))
            ∧ (p.skipped = false → (∃ time order, j.state = .stalled .image time order) →
              exec (.jobSkipPage tag handle page) s = .next (answered .jobSkipPage tag .ok .empty
                (settle (queueHead flagged s)))))
    ∧ (∀ (cause : StallCause) (handle next : Nat) (j : Job) (s : State), jobOf s.jt handle = some j →
        (j.state ≠ .active → stallActive cause handle next s = s)
        ∧ (j.state = .active → stallActive cause handle next s =
            moveJob { j with nextSheet := next, state := .stalled cause (nowMs s) s.jt.stallSeq }
              (let left := leaveActive j s
               { left with jt := { left.jt with stallSeq := s.jt.stallSeq + 1 } })))
    ∧ ∀ (owner : Nat) (s : State),
        let returned (cause : StallCause) (mine : Job → Prop) (t : State) : Prop := ∃ jobs : List Job,
          jobs.Nodup ∧ (∀ j, j ∈ jobs ↔ j ∈ allJobs s.jt ∧ mine j ∧ ∃ time order, j.state = .stalled cause time order)
            ∧ jobs.Pairwise (fun a b => ∀ c ta oa d tb ob, a.state = .stalled c ta oa → b.state = .stalled d tb ob →
                ta < tb ∨ (ta = tb ∧ oa ≤ ob))
            ∧ t = jobs.foldl (fun u j =>
                let d := destinationOf j.kind
                let q : Queue := { waiting := (queueOf u.jt d).waiting ++ [j.handle], active := (queueOf u.jt d).active }
                moveJob { j with state := .queued } { u with jt := putQueue d q u.jt }) s
        (∀ i, SlotOk s i) →
          returned .credit (fun j => j.owner = owner) (creditRose owner s)
            ∧ returned .account (fun j => j.owner = owner) (barrierGone owner s) ∧ returned .supply (fun _ => True) (supplyCame s)

/-- R27, R28: the end of a band on the EXPORT channel: the last band of a page counts the page; a cancel or a pause that waited
is taken; otherwise the next band is read, or stalls the job where its block is marked (R121). That the page is counted before a
waiting cancel or pause is taken is DEDUCED (log 18). R27, R60, section 1.6: the 20 bytes of the header under which a band goes
out. Of a band that is not the last of its page the coverage bytes are free, and LAST_PAGE as in R27 on both channels is DEDUCED
(log 30). R27: the ACTIVE job with nothing read or sent begins its first page not SKIPPED, stalls where its first band occupies
a marked block, or is closed COMPLETED. R121: the first marked block of a band, and a waiting read whose band has come to occupy
one. R28, R122, R133: an unfavourable read stalls the job at its page; a read without a key, or one given up, hands nothing on.
-/
def Obligations.ExportBandEnds : Prop :=
  (∀ (s : State) (j : Job), activeJob s .exporter = some j →
    let kept (n : Nat) : Prop := ∃ p, 1 ≤ n ∧ j.pages[n - 1]? = some p ∧ p.skipped = false
    (s.jt.exportPhase ≠ .idle → startExport s = none)
    ∧ (s.jt.exportPhase = .idle → (∀ n, j.nextSheet < n → ¬ kept n) → startExport s = some (closeJob .completed j.handle s))
    ∧ ∀ page, s.jt.exportPhase = .idle → j.nextSheet < page → kept page → (∀ n, j.nextSheet < n → n < page → ¬ kept n) →
        (markedBlock s j.handle page 1 = none → startExport s =
          some (let reading := enterOp (.read { reader := .exporter, handle := j.handle, page := page, index := 1 }) s
                { reading with jt := { reading.jt with exportPhase := .reading page 1 } }))
        ∧ ∀ b, markedBlock s j.handle page 1 = some b → startExport s =
            some (stallActive .image j.handle (page - 1) (flagPage j.handle page s)))
  ∧ (∀ s : State, activeJob s .exporter = none → startExport s = none)
  ∧ (∀ (s : State) (j : Job) (handle page index : Nat) (p : BandPlace), jobOf s.jt handle = some j →
      placeOf s.smc j page index = some p →
      (∀ o, markOf s.smc p.block = some o → markedBlock s handle page index = some p.block)
      ∧ (∀ b o, markOf s.smc p.block = none → p.next = some b → markOf s.smc b = some o →
          markedBlock s handle page index = some b)
      ∧ (markOf s.smc p.block = none → (∀ b, p.next = some b → markOf s.smc b = none) →
          markedBlock s handle page index = none))
  ∧ (∀ s : State,
      let clear (q : ReadRequest) : Prop := markedBlock s q.handle q.page q.index = none
      ((∀ q, .read q ∈ s.smc.ops → clear q) → endMarkedRead s = none)
      ∧ ∀ front q back b, s.smc.ops = front ++ .read q :: back → (∀ x, .read x ∈ front → clear x) →
          markedBlock s q.handle q.page q.index = some b →
          let flagged := flagPage q.handle q.page { s with smc := { s.smc with ops := front ++ back } }
          (q.reader = .staging → endMarkedRead s = some { flagged with spm := { flagged.spm with
            staging := s.spm.staging.map fun e => match e.state with
              | .reading _ _ => { e with state := .failed q.page b }
              | _ => e } })
          ∧ (q.reader = .exporter → endMarkedRead s = some (stallActive .image q.handle (q.page - 1) flagged)))
  ∧ (∀ (q : ReadRequest) (s : State),
      handResult q .noKey s = s
      ∧ (q.dropped = true → ∀ result, handResult q result s = s)
      ∧ ∀ j, jobOf s.jt q.handle = some j → q.reader = .exporter → q.dropped = false →
        (∀ block, handResult q (.failed block) s = stallActive .image q.handle (q.page - 1) s)
        ∧ ∀ plain, ∃ e, handResult q (.data plain) s = { s with jt := { s.jt with exportPhase := .sending e } }
          ∧ e.page = q.page ∧ e.index = q.index ∧ e.data = plain ∧ e.pausing = false ∧ e.cancelling = false
          ∧ e.header = bandHeader s.clock j q.page q.index plain.length
          ∧ ∀ p, 1 ≤ q.page → j.pages[q.page - 1]? = some p → (e.lastBand = true ↔ q.index = p.bands))
  ∧ ∀ (b : ExportBand) (j : Job) (s : State), s.powered = true → s.jt.exportPhase = .sending b →
    activeJob s .exporter = some j →
      let counted : Job := if b.lastBand then
          { j with delivered := min (j.delivered + 1) 4294967295, nextSheet := b.page } else j
      let idle := setJob counted { s with jt := { s.jt with exportPhase := .idle } }
      (b.cancelling = true → exec .exportBandSent s = .next (settle (closeJob .cancelled j.handle idle)))
      ∧ (b.cancelling = false → b.pausing = true →
          exec .exportBandSent s = .next (settle (stallJob .paused counted (leaveActive counted idle))))
      ∧ (b.cancelling = false → b.pausing = false → b.lastBand = true → exec .exportBandSent s = .next (settle idle))
      ∧ (b.cancelling = false → b.pausing = false → b.lastBand = false → markedBlock idle j.handle b.page (b.index + 1) = none →
          exec .exportBandSent s = .next (settle
            (let reading := enterOp (.read { reader := .exporter, handle := j.handle, page := b.page, index := b.index + 1 }) idle
             { reading with jt := { reading.jt with exportPhase := .reading b.page (b.index + 1) } })))
      ∧ (b.cancelling = false → b.pausing = false → b.lastBand = false →
          (∃ block, markedBlock idle j.handle b.page (b.index + 1) = some block) →
          exec .exportBandSent s = .next (settle (stallActive .image j.handle (b.page - 1) (flagPage j.handle b.page idle))))
      ∧ ∀ (instant page index length : Nat) (p : PageEntry), 1 ≤ page → j.pages[page - 1]? = some p →
          let endsPage : Prop := index = p.bands
          let endsJob : Prop := endsPage ∧ ∀ n later, page < n → j.pages[n - 1]? = some later → later.skipped = true
          ∃ (flags : Nat) (coverage : List Byte),
            bandHeader instant j page index length = [1, BitVec.ofNat 8 flags] ++ leBytes 2 j.handle ++ leBytes 2 page
              ++ leBytes 2 index ++ leBytes 4 length ++ coverage
            ∧ coverage.length = 8 ∧ flags < 4 ∧ (flags % 2 = 1 ↔ endsPage) ∧ (2 ≤ flags ↔ endsJob)
            ∧ (endsPage → coverage = leBytes 2 p.coverage.k ++ leBytes 2 p.coverage.c ++ leBytes 2 p.coverage.m
                ++ leBytes 2 p.coverage.y)

/-- R5, R131, R138: a close zeroizes the job's key slot, empties its lists, hands its blocks to the tail of the scrub list in
extent order (R142) and leaves it in SCRUB with its outcome; the slot is freed, or kept by the scrub list, after that, and a key
slot that does not read back as zero halts the part (that a slot does not is an input of the model, log 13). R118, R120, R122:
its images and its reads, of which one that waits is withdrawn (DEDUCED, log 17). R99: its handle leaves the drawing lists, and a DRAINING job's slots queue their write-backs, in the
order K, C, M, Y (the model's choice, log 50). The close is kept in mind for the rest of the event (log 70). -/
def Obligations.CloseZeroizesKey : Prop :=
  ∀ (outcome : JobOutcome) (handle : Nat) (j : Job) (s : State), jobOf s.jt handle = some j → j.handle = handle →
    isLive j = true →
      let t := closeCore outcome handle s
      t.bc.keys.get (slotOf handle) = none
        ∧ (∀ i : Fin 64, i ≠ slotOf handle → t.bc.keys.get i = s.bc.keys.get i)
        ∧ t.jt.closedNow = handle :: s.jt.closedNow
        ∧ jobOf t.jt handle = some { j with state := .scrub outcome, expected := none, pages := [], extents := [] }
        ∧ (∀ e ∈ s.se.list, e ∈ t.se.list)
        ∧ (∀ b ∈ extentBlocks j.extents,
            b ∈ t.smc.defects.retired ∨ ({ block := b, origin := .job handle } : ScrubEntry) ∈ t.se.list)
        ∧ t.se.list = s.se.list ++ ((extentBlocks j.extents).filter fun b => !t.smc.defects.retired.contains b).map
            (fun b => { block := b, origin := .job handle })
        ∧ ((slotOf handle).val ∉ s.bc.stuck → closeJob outcome handle s = reportScrubbed handle t)
        ∧ ((slotOf handle).val ∈ s.bc.stuck → closeJob outcome handle s = haltPart (.cipherSelftest .readBack) t)
        ∧ (∀ f, s.smc.filling = some f → f.handle = handle → t.smc.filling = none)
        ∧ (∀ q, .read q ∈ t.smc.ops → q.handle ≠ handle)
        ∧ (∀ p, s.smc.programming = some p → p.handle = handle →
            (p.phase = .waiting → t.smc.programming = none ∧ ∀ b second, .program handle b second ∉ t.smc.ops)
            ∧ (p.phase = .inFlight → t.smc.programming = some p)
            ∧ (p.phase = .needsBlock → t.smc.programming = none ∧ p.block ∈ t.smc.defects.retired))
        ∧ (∀ i : Fin 4, t.cbc.slots.get i =
            { s.cbc.slots.get i with drawing := (s.cbc.slots.get i).drawing.erase handle })
        ∧ (s.fm.part ≠ .halted → ∃ writes : List (Fin 4), writes.Pairwise (· < ·)
            ∧ (∀ i : Fin 4, i ∈ writes ↔ (∃ r, j.state = .draining r) ∧ handle ∈ (s.cbc.slots.get i).drawing
                ∧ ((s.cbc.slots.get i).verification = .genuine ∨ ∃ r, (s.cbc.slots.get i).verification = .suspect r)
                ∧ (∃ l, (s.cbc.slots.get i).level = some l ∧ 0 < l.pending) ∧ .writeBack i ∉ s.cbc.work)
            ∧ t.cbc.work = s.cbc.work ++ writes.map .writeBack)
        ∧ t.accounts = s.accounts ∧ t.settings = s.settings ∧ t.fm.queue = s.fm.queue

/-- R7, R8: the next sheet of a job is the first of its sequence, from an index on, with a page side not SKIPPED; the head of a
queue becomes ACTIVE; an ACTIVE ENGINE job with no such sheet left drains, or is closed COMPLETED. That a page without a class
counts as blank is the model's choice (log 40). -/
def Obligations.SheetSequence : Prop :=
  (∀ (j : Job) (start index : Nat),
      let perCopy := if j.duplex then (j.pages.length + 1) / 2 else j.pages.length
      let printed (page : Nat) : Prop := ∃ p cls, 1 ≤ page ∧ j.pages[page - 1]? = some p ∧ p.skipped = false ∧ p.cls = some cls
      let remains (i : Nat) : Prop := start ≤ i ∧ i < j.copies * perCopy
        ∧ if j.duplex then printed (2 * (i % perCopy) + 1) ∨ printed (2 * (i % perCopy) + 2) else printed (i % perCopy + 1)
      (sheetFrom j start = some index ↔ remains index ∧ ∀ k, remains k → index ≤ k)
        ∧ (sheetFrom j start = none ↔ ∀ k, ¬ remains k))
    ∧ (∀ (d : Destination) (s : State) (h : Nat) (rest : List Nat) (j : Job), (queueOf s.jt d).waiting = h :: rest →
        jobOf s.jt h = some j →
        ((queueOf s.jt d).active = none → activate d s = some (moveJob { j with state := .active }
          { s with jt := putQueue d { waiting := rest, active := some h } s.jt }))
        ∧ ((queueOf s.jt d).active ≠ none → activate d s = none))
    ∧ ∀ (s : State) (j : Job), activeJob s .engine = some j →
        (sheetFrom j j.nextSheet = none → j.inFlight = 0 → drain s = some (closeJob .completed j.handle s))
        ∧ (sheetFrom j j.nextSheet = none → 0 < j.inFlight →
            drain s = some (moveJob { j with state := .draining .ends } (leaveActive j s)))
        ∧ (sheetFrom j j.nextSheet ≠ none → drain s = none)

/-- R3, R6, R143: a SCRUB job with no block left on the scrub list frees its slot: the generation goes up by 1 modulo 256, the old
handle names no job, and its last notice carries the outcome; one with a block left keeps it. That the last notice carries
no other field is DEDUCED (log 22). -/
def Obligations.SlotsAreFreed : Prop :=
  ∀ (handle : Nat) (outcome : JobOutcome) (j : Job) (s : State), s.fm.part = .running → jobOf s.jt handle = some j →
    j.state = .scrub outcome →
      ((∃ e ∈ s.se.list, e.origin = .job handle) → reportScrubbed handle s = s)
      ∧ ((∀ e ∈ s.se.list, e.origin ≠ .job handle) →
          let t := reportScrubbed handle s
          t.jt.slots.get (slotOf handle) = { generation := (handle / 64 + 1) % 256, job := none }
            ∧ jobOf t.jt handle = none
            ∧ (∀ i : Fin 64, i ≠ slotOf handle → t.jt.slots.get i = s.jt.slots.get i)
            ∧ (Entry.notice (.jobState (slotOf handle) { handle := handle, stage := .freed outcome, tallies := none }) ∈ t.lif.out)
            ∧ t.se = s.se ∧ t.smc = s.smc ∧ t.accounts = s.accounts ∧ t.bc = s.bc)

/-! ### The sheet path -/

/-- R48, R49: the comparator, in 1/256 mV (the threshold is 3300 mV × (d + 1) / 256 and the hysteresis 25 mV either way). A change
of an input is compared, and the filter wait runs while the raw level differs from the filtered level; with the filter OFF
the level follows within the event (log 12), and the result formed anew with the hysteresis ON is above at or above the
threshold at the codes 254 and 255 too (log 49). Without power (the model's choice, log 2) or before start-up step 1 only the
input moves. -/
def Obligations.RawLevelIsWatched : Prop :=
  (∀ (c : ChannelSettings) (input : Nat),
      (c.hysteresis = false → ∀ last, comparator c last input = decide (3300 * (c.code + 1) ≤ input))
        ∧ (c.hysteresis = true →
            comparator c none input = decide (3300 * (c.code + 1) ≤ input)
            ∧ (comparator c (some false) input = true ↔ 3300 * (c.code + 1) + 25 * 256 ≤ input)
            ∧ (comparator c (some true) input = false ↔ input + 25 * 256 ≤ 3300 * (c.code + 1)))
        ∧ (rawLevel c true = c.highWhenAbove ∧ rawLevel c false = !c.highWhenAbove))
    ∧ (∀ (ch : Channel) (input : Nat) (s : State),
        let c := channelOf s.spm ch
        let g := channelSettings s.settings ch
        let above := comparator g c.above input
        (s.powered = true → ∀ level, c.level = some level →
            (rawLevel g above = level → exec (.rawLevelChange ch input) s =
              .next (putChannel ch { input := input, above := some above, level := some level, since := none } s))
            ∧ (rawLevel g above ≠ level → g.filter ≠ .off → exec (.rawLevelChange ch input) s =
              .next (putChannel ch
                { input := input, above := some above, level := some level, since := some (c.since.getD s.clock) } s))
            ∧ (rawLevel g above ≠ level → g.filter = .off → exec (.rawLevelChange ch input) s =
              .next (takeEdge ch (putChannel ch
                { input := input, above := some above, level := some level, since := some (c.since.getD s.clock) } s))))
          ∧ ((s.powered = false ∨ c.level = none) → c.since = none → exec (.rawLevelChange ch input) s =
              .next (putChannel ch { c with input := input } s)))

/-- R50: SENSE_SET loads a channel's settings, forms the comparator result anew, and is refused as R50 says. The model's
choices: a filter wait already running keeps its start (log 48), with the filter OFF the level follows within the event (log
12), and SETTINGS is written also where the four values equal those held (log 63). -/
def Obligations.SenseSetLoads : Prop :=
  ∀ (tag : Byte) (channel code hysteresis filter polarity : Nat) (s : State), Serving s →
    ((2 < channel ∨ 255 < code ∨ 1 < hysteresis ∨ 3 < filter ∨ 1 < polarity) →
      exec (.senseSet tag channel code hysteresis filter polarity) s = .next (answered .senseSet tag .badField .empty s))
      ∧ ∀ ch g, senseSetFields channel code hysteresis filter polarity = some (ch, g) →
        ((locksOf s).settings = true →
          exec (.senseSet tag channel code hysteresis filter polarity) s = .next (answered .senseSet tag .locked .empty s))
        ∧ ((locksOf s).settings = false → ch ≠ .supply → s.spm.sheets ≠ [] →
          exec (.senseSet tag channel code hysteresis filter polarity) s = .next (answered .senseSet tag .busy .empty s))
        ∧ ((locksOf s).settings = false → (ch = .supply ∨ s.spm.sheets = []) →
          ∀ level, (channelOf s.spm ch).level = some level → g.filter ≠ .off →
            let above := comparator g none (channelOf s.spm ch).input
            exec (.senseSet tag channel code hysteresis filter polarity) s = .next (answered .senseSet tag .ok .empty
              (putChannel ch { input := (channelOf s.spm ch).input, above := some above, level := some level
                               since := if rawLevel g above = level then none
                                 else some ((channelOf s.spm ch).since.getD s.clock) }
                (setSettings (putChannelSettings ch g s.settings) s))))
        ∧ ((locksOf s).settings = false → (ch = .supply ∨ s.spm.sheets = []) →
          ∀ level, (channelOf s.spm ch).level = some level → g.filter = .off →
            let above := comparator g none (channelOf s.spm ch).input
            let set (since : Option Nat) : State := putChannel ch
              { input := (channelOf s.spm ch).input, above := some above, level := some level, since := since }
              (setSettings (putChannelSettings ch g s.settings) s)
            (rawLevel g above = level →
              exec (.senseSet tag channel code hysteresis filter polarity) s = .next (answered .senseSet tag .ok .empty (set none)))
            ∧ (rawLevel g above ≠ level →
              exec (.senseSet tag channel code hysteresis filter polarity) s = .next (answered .senseSet tag .ok .empty
                (takeEdge ch (set (some ((channelOf s.spm ch).since.getD s.clock)))))))

/-- R49, R52, R66, R69, R166: TRAILING_EDGE changes the filtered level alone, as does a leading edge while the path is JAMMED or
the part is not RUNNING; SUPPLY_EDGE changes it either way, evaluates the permit and asks for a PART notice. That an edge which
is not due has no effect is the model's choice (log 3). -/
def Obligations.LevelEdges : Prop :=
  (∀ (sensor : PaperSensor) (s : State), s.powered = true →
      ((channelOf s.spm (sensorChannel sensor)).level = some true → EdgeDue s (sensorChannel sensor) →
        exec (.trailingEdge sensor) s = .next (levelTaken (sensorChannel sensor) false s))
        ∧ (∀ level, s.spm.supply.level = some level → EdgeDue s .supply →
            exec .supplyEdge s = .next (settle (askPart (evaluatePermit (levelTaken .supply (!level) s)))))
        ∧ (¬ EdgeDue s (sensorChannel sensor) → exec (.trailingEdge sensor) s = .next s)
        ∧ (¬ EdgeDue s .supply → exec .supplyEdge s = .next s)
        ∧ ((¬ EdgeDue s .feed ∨ s.spm.feed.level ≠ some false) → exec .feedLeadingEdge s = .next s)
        ∧ ((¬ EdgeDue s .exit ∨ s.spm.exit.level ≠ some false) → exec .exitLeadingEdge s = .next s)
        ∧ ((channelOf s.spm (sensorChannel sensor)).level ≠ some true → exec (.trailingEdge sensor) s = .next s))
    ∧ (∀ s : State, s.powered = true → (s.spm.jammed = true ∨ s.fm.part ≠ .running) →
        (s.spm.feed.level = some false → EdgeDue s .feed → exec .feedLeadingEdge s = .next (levelTaken .feed true s))
          ∧ (s.spm.exit.level = some false → EdgeDue s .exit → exec .exitLeadingEdge s = .next (levelTaken .exit true s)))

/-- R61 to R63: FEED_LEADING_EDGE enters the oldest GRANTED sheet, and with none GRANTED it is a jam; EXIT_LEADING_EDGE delivers
the head of the sheet queue where it is ENTERED, and is a jam otherwise. R9: what an exit makes of the job's record, that of a
job in SCRUB too, and nothing once its slot is FREE (DEDUCED, log 19). R96 to R99: what an entry makes of the cartridges and of
their history entries, which are stamped with the lifetime count as it stands after the sheet (the model's choice, log 56); the
write-backs join the list in the order K, C, M, Y, and the authentications in the same order behind them (the model's choice,
log 50); that the job joins the drawing list where the mirror is empty is DEDUCED (log 38). -/
def Obligations.LeadingEdges : Prop :=
  (∀ s : State, s.powered = true → s.spm.feed.level = some false → EdgeDue s .feed → s.spm.jammed = false →
    s.fm.part = .running →
      (∀ front sh back, s.spm.sheets = front ++ sh :: back → (∀ x ∈ front, x.entered = true) → sh.entered = false →
        let t := levelTaken .feed true s
        exec .feedLeadingEdge s = .next (settle (enterCartridges sh { t with spm := { t.spm with
          sheets := front ++ { sh with entered := true, deadline := nowMs s + sh.transit } :: back } })))
      ∧ ((∀ x ∈ s.spm.sheets, x.entered = true) →
        exec .feedLeadingEdge s = .next (settle (declareJam .strayEntry (levelTaken .feed true s)))))
    ∧ (∀ s : State, s.powered = true → s.spm.exit.level = some false → EdgeDue s .exit → s.spm.jammed = false →
        s.fm.part = .running →
          let t := levelTaken .exit true s
          (∀ sh rest, s.spm.sheets = sh :: rest → sh.entered = true →
            exec .exitLeadingEdge s = .next (settle (emit (.sheetDone
                { handle := sh.handle, index := sh.index, cost := sh.cost, sides := imageSides sh.sides
                  nonGenuine := sh.nonGenuine })
              (reportExit sh (updateAccount sh.owner (charge sh.cost sh.sides sh.nonGenuine)
                { t with spm := { t.spm with sheets := rest } })))))
          ∧ (∀ sh rest, s.spm.sheets = sh :: rest → sh.entered = false →
            exec .exitLeadingEdge s = .next (settle (declareJam .sequence t)))
          ∧ (s.spm.sheets = [] → exec .exitLeadingEdge s = .next (settle (declareJam .strayExit t))))
    ∧ (∀ (sh : Sheet) (s : State),
        (jobOf s.jt sh.handle = none → reportExit sh s = s)
        ∧ ∀ j, jobOf s.jt sh.handle = some j → j.handle = sh.handle →
          let counted : State := setJob { j with
            delivered := min (j.delivered + 1) 4294967295, inFlight := j.inFlight - 1
            charged := min (j.charged + sh.cost) 4294967295 } s
          (((∀ r, j.state ≠ .draining r) ∨ 1 < j.inFlight) → reportExit sh s = counted)
          ∧ (j.state = .draining .ends → j.inFlight ≤ 1 → reportExit sh s = closeJob .completed sh.handle counted)
          ∧ (j.state = .draining .cancel → j.inFlight ≤ 1 → reportExit sh s = closeJob .cancelled sh.handle counted))
    ∧ ∀ (sh : Sheet) (s : State), s.fm.part ≠ .halted →
        let t := enterCartridges sh s
        let required (i : Fin 4) : Prop := ∃ n cls, Side.page n cls ∈ sh.sides ∧ (i = 0 ∨ cls = .colour)
        let old (i : Fin 4) : CartSlot := s.cbc.slots.get i
        let new (i : Fin 4) : CartSlot := t.cbc.slots.get i
        let verified (i : Fin 4) : Prop := (old i).verification = .genuine ∨ ∃ r, (old i).verification = .suspect r
        let full (i : Fin 4) : Nat := match (old i).figures with
          | some f => f.full
          | none => 0
        let draws (i : Fin 4) (l : CartLevel) : Prop := verified i ∧ 0 < planeOf sh.demand i ∧ (old i).level = some l
        let since (i : Fin 4) : Nat := min ((old i).sheetsSince + 1) 65535
        t.cbc.lifetime = min (s.cbc.lifetime + 1) 4294967295
          ∧ (∀ i,
              new i = { old i with level := (new i).level, drawing := (new i).drawing, sheetsSince := (new i).sheetsSince }
              ∧ (required i → (new i).sheetsSince = since i) ∧ (¬ required i → (new i).sheetsSince = (old i).sheetsSince)
              ∧ (∀ l, draws i l → sh.handle ∈ (new i).drawing ∧
                  let taken := min (planeOf sh.demand i) l.mirror
                  (new i).level = some { mirror := l.mirror - taken, pending := l.pending + taken
                                         cls := levelClass (l.mirror - taken) (full i) s.settings.meter.lowMarkPct })
              ∧ ((∀ l, ¬ draws i l) → (new i).level = (old i).level ∧ (new i).drawing = (old i).drawing))
          ∧ (∃ writes auths : List (Fin 4), writes.Pairwise (· < ·) ∧ auths.Pairwise (· < ·)
              ∧ (∀ i, i ∈ writes ↔ .writeBack i ∉ s.cbc.work ∧ ∃ l, draws i l ∧
                  let taken := min (planeOf sh.demand i) l.mirror
                  0 < l.pending + taken ∧ (max 1 (full i * s.settings.meter.writebackPct / 100) ≤ l.pending + taken
                    ∨ (l.mirror - taken = 0 ∧ l.cls ≠ .exhausted)))
              ∧ (∀ i, i ∈ auths ↔ .auth i ∉ s.cbc.work ∧ required i ∧ verified i ∧ s.settings.meter.reauthInterval ≤ since i)
              ∧ t.cbc.work = s.cbc.work ++ writes.map .writeBack ++ auths.map .auth)
          ∧ (∀ i l serial, draws i l → (old i).serial = some serial → (∀ k, k ≠ i → (old k).serial ≠ some serial) →
              ∃ e ∈ t.cbc.history, e.serial = serial ∧ e.colour = i ∧ e.lastSeen = t.cbc.lifetime ∧
                let taken := min (planeOf sh.demand i) l.mirror
                e.level = l.mirror - taken ∧ e.pending = l.pending + taken)
          ∧ ((∀ i l, ¬ draws i l) → t.cbc.history = s.cbc.history)
          ∧ t.accounts = s.accounts ∧ t.jt = s.jt ∧ t.spm = s.spm ∧ t.smc = s.smc ∧ t.fm = s.fm

/-- R55 to R58, R10, R75, R79: staging begins the next sheet of the ACTIVE ENGINE job while the path is CLEAR, with fewer than two
entries held and none READING or FAILED; a band read leads to the next band, the next side with a page, or READY with MU's
figures; a marked block or an unfavourable read makes the entry FAILED, and a FAILED entry that is the oldest stalls the job.
Discarding staging withdraws its waiting reads (DEDUCED, log 17), and a read in flight reaches no one. -/
def Obligations.StagingReads : Prop :=
  (∀ s : State,
      ((s.spm.jammed = true ∨ 2 ≤ s.spm.staging.length ∨ activeJob s .engine = none
          ∨ ∃ e ∈ s.spm.staging, ∀ f, e.state ≠ .ready f) → startStaging s = none)
      ∧ ∀ j, activeJob s .engine = some j → s.spm.jammed = false → s.spm.staging.length < 2 →
          (∀ e ∈ s.spm.staging, ∃ f, e.state = .ready f) →
          let start := match s.spm.staging.getLast? with
            | some e => e.index + 1
            | none => j.nextSheet
          (sheetFrom j start = none → startStaging s = none)
          ∧ ∀ index front page cls back, sheetFrom j start = some index → sidesOf j index = front ++ .page page cls :: back →
              (∀ side ∈ front, side = .blank) →
              let staged (state : StageState) (u : State) : State := { u with spm := { u.spm with
                staging := u.spm.staging ++ [{ handle := j.handle, index := index, sides := sidesOf j index
                                               image := (sidesOf j index).map fun _ => [], state := state }] } }
              (markedBlock s j.handle page 1 = none → startStaging s = some (staged (.reading front.length 1)
                (enterOp (.read { reader := .staging, handle := j.handle, page := page, index := 1 }) s)))
              ∧ ∀ b, markedBlock s j.handle page 1 = some b →
                  startStaging s = some (staged (.failed page b) (flagPage j.handle page s)))
    ∧ (∀ (q : ReadRequest) (j : Job) (front back : List StagingEntry) (e : StagingEntry) (side band : Nat) (s : State),
        q.reader = .staging → q.dropped = false → jobOf s.jt q.handle = some j → s.spm.staging = front ++ e :: back →
        e.state = .reading side band → (∀ x ∈ front ++ back, ∀ a b, x.state ≠ .reading a b) →
          let put (x : StagingEntry) (u : State) : State := { u with spm := { u.spm with staging := front ++ x :: back } }
          (∀ block, handResult q (.failed block) s = put { e with state := .failed q.page block } s)
          ∧ ∀ plain n cls p, e.sides[side]? = some (.page n cls) → 1 ≤ n → j.pages[n - 1]? = some p →
              let taken : StagingEntry := { e with image := e.image.modify side fun bands => bands ++ [plain] }
              let goesOn (place page index : Nat) : Prop :=
                (markedBlock s j.handle page index = none → handResult q (.data plain) s = put { taken with state := .reading place index }
                  (enterOp (.read { reader := .staging, handle := j.handle, page := page, index := index }) s))
                ∧ ∀ b, markedBlock s j.handle page index = some b → handResult q (.data plain) s =
                    put { taken with state := .failed page b } (flagPage j.handle page s)
              (band < p.bands → goesOn side n (band + 1))
              ∧ (p.bands ≤ band → ∀ k m other, side < k → e.sides[k]? = some (.page m other) →
                  (∀ i, side < i → i < k → e.sides[i]? = some .blank) → goesOn k m 1)
              ∧ (p.bands ≤ band → (∀ k m other, side < k → e.sides[k]? ≠ some (.page m other)) →
                  handResult q (.data plain) s = put { taken with state := .ready (sheetFigures s j e.sides) } s))
    ∧ (∀ (j : Job) (sides : List Side) (s : State),
        let media := s.settings.media.getD j.media { area := 624, transit := 3000 }
        let f := sheetFigures s j sides
        f.transit = media.transit ∧ f.cost = sheetCost s.settings.price j media.area sides
          ∧ ∀ i : Fin 4, planeOf f.demand i = (sides.map (sideDemand j media.area
              (match (s.cbc.slots.get i).figures with
                | some held => held.density
                | none => 255) s.settings.meter.idleLoss i)).sum)
    ∧ (∀ s : State,
        (∀ e rest page block, s.spm.staging = e :: rest → e.state = .failed page block →
          failStaging s = some (stallActive .image e.handle e.index s))
        ∧ ((∀ e, s.spm.staging.head? = some e → ∀ page block, e.state ≠ .failed page block) → failStaging s = none))
    ∧ ∀ s : State,
        let t := discardStaging s
        t.spm = { s.spm with staging := [] }
          ∧ (∀ op, op ∈ t.smc.ops ↔ op ∈ s.smc.ops ∧ ∀ q, op = .read q → q.reader ≠ .staging)
          ∧ (∀ q place physical retries weakLimit, s.smc.inFlight = some (.read q place physical retries weakLimit) →
              q.reader = .staging → t.smc.inFlight = some (.read { q with dropped := true } place physical retries weakLimit)
                ∧ ∀ result u, handResult { q with dropped := true } result u = u)
          ∧ t.jt = s.jt ∧ t.accounts = s.accounts ∧ t.cbc = s.cbc ∧ t.fm = s.fm ∧ t.lif = s.lif ∧ t.smc.defects = s.smc.defects
          ∧ t.smc.marked = s.smc.marked ∧ t.smc.weak = s.smc.weak

/-- R59, R60: a grant attempt of a READY entry in the order of its tests; it waits, stalls the job, or grants the sheet. Without a
request, a permit or room in the sheet queue there is none. R91: a slot is usable with a GENUINE cartridge, or a SUSPECT one under
ALLOW, that is not EXHAUSTED. The sheet goes out on the ENGINE channel with each band under its header (R60, section 1.6). -/
def Obligations.SheetGrants : Prop :=
  ∀ (s : State) (e : StagingEntry) (rest : List StagingEntry) (f : Figures) (j : Job) (a : Account),
    s.spm.staging = e :: rest → e.state = .ready f → jobOf s.jt e.handle = some j → j.handle = e.handle →
    findAccount j.owner s.accounts = some a →
      let needs (i : Fin 4) : Prop := ∃ n cls, Side.page n cls ∈ e.sides ∧ (i = 0 ∨ cls = .colour)
      let colour : Prop := ∃ n, Side.page n .colour ∈ e.sides
      let usable (i : Fin 4) : Prop := (∃ l, (s.cbc.slots.get i).level = some l ∧ l.cls ≠ .exhausted)
        ∧ ((s.cbc.slots.get i).verification = .genuine
          ∨ ((∃ r, (s.cbc.slots.get i).verification = .suspect r) ∧ s.settings.allow = true))
      ((s.spm.requestPending = false ∨ s.spm.feedPermit = false ∨ 6 ≤ s.spm.sheets.length) → grantAttempt s = none)
      ∧ (s.spm.requestPending = true → s.spm.feedPermit = true → s.spm.sheets.length < 6 →
          ((∃ i, needs i ∧ (s.cbc.slots.get i).verification = .unverified) → grantAttempt s = none)
          ∧ ((∀ i, needs i → (s.cbc.slots.get i).verification ≠ .unverified) →
              (∃ i, needs i ∧ ¬ usable i) →
                grantAttempt s = some (stallActive .supply e.handle e.index s))
          ∧ ((∀ i, needs i → usable i
                ∧ (s.cbc.slots.get i).verification ≠ .unverified) →
              (a.standing = .suspended ∨ (colour ∧ a.colourRight = false) →
                grantAttempt s = some (stallActive .account e.handle e.index s))
              ∧ (¬ (a.standing = .suspended ∨ (colour ∧ a.colourRight = false)) → available a < f.cost →
                grantAttempt s = some (stallActive .credit e.handle e.index s))
              ∧ (¬ (a.standing = .suspended ∨ (colour ∧ a.colourRight = false)) → (f.cost : Int) ≤ available a →
                ∃ t suspect, grantAttempt s = some t
                  ∧ (suspect = true ↔ ∃ i reason, needs i ∧ (s.cbc.slots.get i).verification = .suspect reason)
                  ∧ t.spm.sheets = s.spm.sheets ++ [{ handle := e.handle, owner := j.owner, index := e.index, sides := e.sides
                                                      cost := f.cost, demand := f.demand, transit := f.transit
                                                      nonGenuine := suspect, entered := false
                                                      deadline := nowMs s + s.settings.limits.entryLimit }]
                  ∧ t.spm.staging = rest ∧ t.spm.requestPending = false
                  ∧ t.spm.engineOut = some
                      { handle := e.handle, index := e.index, sides := e.sides
                        image := List.zipWith (fun side bands => match side with
                          | .blank => []
                          | .page n _ => bands.mapIdx fun k data =>
                              { header := bandHeader s.clock j n (k + 1) data.length, data := data }) e.sides e.image }
                  ∧ jobOf t.jt e.handle = some { j with nextSheet := e.index + 1, inFlight := j.inFlight + 1 }
                  ∧ t.accounts = s.accounts.map (fun b => if b.id = j.owner then { b with reserved := b.reserved + f.cost } else b)
                  ∧ t.settings = s.settings ∧ t.cbc = s.cbc ∧ t.smc = s.smc ∧ t.fm = s.fm)))

/-- R65, R34: a jam leaves the path JAMMED with its record, no sheet, nothing staged and no permit, and every reservation of the
sheets it removed is given back. R12: each job that had sheets removed, by its state: in-flight 0 and the next sheet at the
oldest removed one; STALLED(JAM) under the ranks 1, 2, … in the order of those sheets, or STALLED(PAUSED) as it was;
DRAINING(CANCEL) closed; one in SCRUB keeps its state and its next sheet (the model's choice, log 65). The PART notice is
asked for last, after what the releases and the listed jobs make of the state (the model's choice, log 36). -/
def Obligations.JamEmptiesPath : Prop :=
  ∀ (cause : JamCause) (s : State),
    let t := declareJam cause s
    t.spm.jammed = true ∧ t.spm.sheets = [] ∧ t.spm.staging = [] ∧ t.spm.feedPermit = false
      ∧ (∃ record, t.spm.jam = some record ∧ record.cause = cause ∧ record.instant = nowMs s
          ∧ record.removed = s.spm.sheets.length ∧ ∀ sh ∈ s.spm.sheets, sh.handle ∈ record.handles)
      ∧ t.accounts = s.accounts.map (fun a => { a with
          reserved := s.spm.sheets.foldl (fun r sh => if sh.owner = a.id then r - sh.cost else r) a.reserved })
      ∧ ((∀ i, SlotOk s i) → s.bc.stuck = [] → ∀ front sh back j, s.spm.sheets = front ++ sh :: back →
          (∀ x ∈ front, x.handle ≠ sh.handle) → jobOf s.jt sh.handle = some j →
          let stalls (h : Nat) : Bool := (jobOf s.jt h).any fun k => match k.state with
            | .scrub _ => false
            | .draining .cancel => false
            | .stalled .paused _ _ => false
            | _ => true
          let rank := 1 + (front.map (·.handle)).eraseDups.countP stalls
          (∀ o, j.state = .scrub o → jobOf t.jt sh.handle = some { j with inFlight := 0 })
          ∧ (j.state = .draining .cancel → t.bc.keys.get (slotOf sh.handle) = none
              ∧ ∀ k, jobOf t.jt sh.handle = some k → k.state = .scrub .cancelled)
          ∧ (∀ time order, j.state = .stalled .paused time order →
              jobOf t.jt sh.handle = some { j with inFlight := 0, nextSheet := sh.index })
          ∧ (stalls sh.handle = true → ∃ order, jobOf t.jt sh.handle = some { j with
              inFlight := 0, nextSheet := sh.index, state := .stalled (.jam rank) (nowMs s) order }))
      ∧ (let record : JamRecord := { cause := cause, instant := nowMs s, removed := s.spm.sheets.length
                                     handles := (jamList s.spm.sheets).map (·.1) }
         let jammed := evaluatePermit { s with spm := { s.spm with jammed := true, jam := some record, sheets := [] } }
         let emptied := discardStaging (releaseSheets s.spm.sheets jammed)
         let reported := (releasedOwners s.spm.sheets).foldl (fun u owner => creditRose owner u) emptied
         emptied.lif = s.lif ∧ t = askPart ((jamList s.spm.sheets).foldl jamJob (1, reported)).2)

/-- R51, R67: the first DOOR_STATE report of OPEN and of CLOSED, a repeated report, and JAM_CLEAR with its refusals in their order.
R103, R104: what an opening leaves of the cartridges, and the items a closing queues. R13: the jammed jobs return to the head of
the ENGINE queue by rank, the ACTIVE job directly behind them. The PART notice of an opening and of a clear comes last, and at
a clear the notices of the returned jobs come from the back of the queue to its head (the model's choice, log 58). -/
def Obligations.DoorAndJamClear : Prop :=
  (∀ (tag : Byte) (s : State), Serving s →
      let items : List WorkItem := [.resync, .auth 0, .auth 1, .auth 2, .auth 3]
      (s.spm.doorOpen = true →
        exec (.doorStateOpen tag) s = .next (answered .doorState tag .ok .empty s)
          ∧ exec (.doorStateClosed tag) s = .next (answered .doorState tag .ok .empty
              (settle (askPart (evaluatePermit { s with
                spm := { s.spm with doorOpen := false }
                cbc := { s.cbc with
                  work := s.cbc.work ++ items.filter fun w => !s.cbc.work.contains w } })))))
        ∧ (s.spm.doorOpen = false →
            exec (.doorStateClosed tag) s = .next (answered .doorState tag .ok .empty s)
              ∧ (s.spm.sheets = [] → exec (.doorStateOpen tag) s = .next (answered .doorState tag .ok .empty
                  (settle (askPart (cartridgesDoorOpen (evaluatePermit { s with spm := { s.spm with doorOpen := true } }))))))
              ∧ (s.spm.sheets ≠ [] → exec (.doorStateOpen tag) s = .next (answered .doorState tag .ok .empty
                  (settle (declareJam .door
                    (cartridgesDoorOpen (evaluatePermit { s with spm := { s.spm with doorOpen := true } }))))))))
    ∧ (∀ (tag : Byte) (s : State), Serving s →
        ((s.spm.jammed = false ∨ s.spm.doorOpen = true) →
          exec (.jamClear tag) s = .next (answered .jamClear tag .wrongState .empty s))
          ∧ (s.spm.jammed = true → s.spm.doorOpen = false → (s.spm.feed.level = some true ∨ s.spm.exit.level = some true) →
            exec (.jamClear tag) s = .next (answered .jamClear tag .sensorBusy .empty s))
          ∧ (s.spm.jammed = true → s.spm.doorOpen = false → s.spm.feed.level ≠ some true → s.spm.exit.level ≠ some true →
            exec (.jamClear tag) s = .next (answered .jamClear tag .ok .empty (settle (askPart (returnJammed
              (evaluatePermit { s with spm := { s.spm with jammed := false } })))))))
    ∧ (∀ s : State,
        let t := cartridgesDoorOpen s
        t.cbc.flight = none ∧ t.cbc.work = [] ∧ t.accounts = s.accounts ∧ t.jt = s.jt ∧ t.spm = s.spm ∧ t.smc = s.smc ∧ t.fm = s.fm
          ∧ t.cbc.lifetime = s.cbc.lifetime
          ∧ ∀ i : Fin 4,
              let old := s.cbc.slots.get i
              let verified : Prop := old.verification = .genuine ∨ ∃ r, old.verification = .suspect r
              let new := t.cbc.slots.get i
              new = { old with verification := .unverified, failures := 0, level := new.level, drawing := new.drawing }
                ∧ (verified → new.level = none ∧ new.drawing = [])
                ∧ (¬ verified → new.level = old.level ∧ new.drawing = old.drawing)
                ∧ (∃ c, Entry.notice (.cartState c) ∈ t.lif.out ∧ c.slot = i ∧ c.verification = .unverified
                    ∧ c.mirror = new.level.map (·.mirror))
                ∧ (verified → ∀ serial l, old.serial = some serial → old.level = some l →
                    (∀ k : Fin 4, k ≠ i → (s.cbc.slots.get k).serial ≠ some serial) →
                    ∃ e ∈ t.cbc.history, e.serial = serial ∧ e.level = l.mirror ∧ e.pending = l.pending))
    ∧ ∀ s : State, (∀ i, SlotOk s i) →
        (∀ j ∈ allJobs s.jt, (∃ rank time order, j.state = .stalled (.jam rank) time order) → destinationOf j.kind = .engine) →
        (∀ j, activeJob s .engine = some j → j.state = .active ∧ destinationOf j.kind = .engine) →
          let t := returnJammed s
          ∃ jammed : List Job, jammed.Nodup
            ∧ (∀ j, j ∈ jammed ↔ j ∈ allJobs s.jt ∧ ∃ rank time order, j.state = .stalled (.jam rank) time order ∧ 0 < rank)
            ∧ jammed.Pairwise (fun a b => ∀ m tm om n tn on, a.state = .stalled (.jam m) tm om → b.state = .stalled (.jam n) tn on →
                m ≤ n)
            ∧ (jammed = [] → t = s)
            ∧ (jammed ≠ [] →
                t.jt.engine.waiting = jammed.map (·.handle) ++ ((activeJob s .engine).map (·.handle)).toList ++ s.jt.engine.waiting
                ∧ ((activeJob s .engine).isSome = true → t.jt.engine.active = none ∧ t.spm.staging = [])
                ∧ ∀ j, (j ∈ jammed ∨ activeJob s .engine = some j) → jobOf t.jt j.handle = some { j with state := .queued })

/-! ### The meter -/

/-- R72 to R74, R76 to R78, R90, R96, R97, R102: the class of a page and the coverage kept; a plane's demand is rounded up and
has the idle loss added, on the planes the side's class runs; a side costs at most 10000, a back side its percentage rounded
half up, and a sheet the front in full and the back at its percentage, at most 20000; the level class; what a sheet's entry
takes from a slot, adds to its pending deduction and writes into the history; the history with an entry created or updated, and
the one it evicts; what a write-back that took an amount off a cartridge of a level leaves. That the job joins the drawing list
where an empty mirror gave nothing is DEDUCED (log 38). -/
def Obligations.MeterFigures : Prop :=
  ((∀ (threshold : Nat) (c : Planes),
    (classifyPage threshold c = .colour ↔ threshold ≤ c.c ∨ threshold ≤ c.m ∨ threshold ≤ c.y)
      ∧ storedCoverage .colour c = c ∧ storedCoverage .mono c = { k := c.k, c := 0, m := 0, y := 0 })
  ∧ (∀ coverage area density idle : Nat, ∃ units, planeDemand coverage area density idle = units + idle
      ∧ coverage * area * density ≤ units * 10000 ∧ units * 10000 < coverage * area * density + 10000)
  ∧ (∀ (p : PriceSettings) (area : Nat) (cls : SideClass) (c : Planes),
      let price := match decide (650 < area), cls with
        | false, .mono => p.stdMono
        | false, .colour => p.stdColour
        | true, .mono => p.largeMono
        | true, .colour => p.largeColour
      (c.k + c.c + c.m + c.y ≤ p.heavyThreshold → sideCost p area cls c = min price 10000)
        ∧ (p.heavyThreshold < c.k + c.c + c.m + c.y → sideCost p area cls c = min (price + p.heavySurcharge) 10000))
  ∧ (∀ pct cost : Nat, 100 * backCost pct cost ≤ cost * pct + 50 ∧ cost * pct + 50 < 100 * backCost pct cost + 100)
  ∧ (∀ (j : Job) (area density idle : Nat) (i : Fin 4), sideDemand j area density idle i .blank = 0
      ∧ ∀ (page : Nat) (p : PageEntry), 1 ≤ page → j.pages[page - 1]? = some p →
        sideDemand j area density idle i (.page page .colour) = planeDemand (planeOf p.coverage i) area density idle
          ∧ (i = 0 → sideDemand j area density idle i (.page page .mono) = planeDemand p.coverage.k area density idle)
          ∧ (i ≠ 0 → sideDemand j area density idle i (.page page .mono) = 0))
  ∧ (∀ (p : PriceSettings) (j : Job) (area : Nat),
      let inFull (side : Side) : Nat := match side with
        | .blank => 0
        | .page page cls => ((j.pages[page - 1]?).map fun e => sideCost p area cls e.coverage).getD 0
      (∀ front, (∀ page cls, front = .page page cls → 1 ≤ page) → sheetCost p j area [front] = inFull front
        ∧ ∀ back, (∀ page cls, back = .page page cls → 1 ≤ page) →
          sheetCost p j area [front, back] = inFull front + backCost p.duplexPct (inFull back)))
  ∧ ∀ (p : PriceSettings) (j : Job) (area : Nat) (sides : List Side), sides.length ≤ 2 → p.duplexPct ≤ 100 →
      sheetCost p j area sides ≤ 20000)
    ∧ ((∀ mirror full pct : Nat,
        (levelClass mirror full pct = .exhausted ↔ mirror = 0)
          ∧ (levelClass mirror full pct = .low ↔ 0 < mirror ∧ mirror * 100 ≤ full * pct)
          ∧ (levelClass mirror full pct = .ok ↔ 0 < mirror ∧ full * pct < mirror * 100))
      ∧ (∀ (handle : Nat) (demand : Planes) (s : State) (i : Fin 4) (l : CartLevel),
          (s.cbc.slots.get i).level = some l → holdsVerified (s.cbc.slots.get i) = true → 0 < planeOf demand i →
            let t := deductPlane handle demand s i
            let taken := min (planeOf demand i) l.mirror
            (t.cbc.slots.get i).level = some { mirror := l.mirror - taken, pending := l.pending + taken
                                               cls := levelClass (l.mirror - taken) (fullOf (s.cbc.slots.get i))
                                                 s.settings.meter.lowMarkPct }
              ∧ handle ∈ (t.cbc.slots.get i).drawing
              ∧ ((s.cbc.slots.get i).serial = none → t.cbc.history = s.cbc.history)
              ∧ (∀ serial, (s.cbc.slots.get i).serial = some serial → t.cbc.history = putHistory (heldSerials s.cbc)
                  { serial := serial, family := (s.cbc.slots.get i).family.getD 0, colour := i, level := l.mirror - taken
                    pending := l.pending + taken, lastSeen := s.cbc.lifetime
                    suspect := (s.cbc.history.find? (·.serial == serial)).any (·.suspect) } s.cbc.history)
              ∧ (∀ k : Fin 4, k ≠ i → t.cbc.slots.get k = s.cbc.slots.get k)
              ∧ t.accounts = s.accounts ∧ t.jt = s.jt ∧ t.spm = s.spm ∧ t.smc = s.smc ∧ t.se = s.se)
      ∧ (∀ (held : List Serial) (e : HistoryEntry) (entries : List HistoryEntry),
          ((∃ x ∈ entries, x.serial = e.serial) → putHistory held e entries = e :: entries.filter (·.serial != e.serial))
          ∧ ((∀ x ∈ entries, x.serial ≠ e.serial) →
            (entries.length < 32 → putHistory held e entries = e :: entries)
            ∧ (32 ≤ entries.length → ∀ front x back, entries = front ++ x :: back → x.serial ∉ held →
                (∀ y ∈ back, y.serial ∈ held) → putHistory held e entries = e :: (front ++ back))))
      ∧ (∀ (c : Cartridges) (serial : Serial), serial ∈ heldSerials c ↔ ∃ i : Fin 4, (c.slots.get i).serial = some serial)
      ∧ (∀ mirror pending amount level : Nat,
          let after := settleWriteBack mirror pending amount level
          after.1 ≤ mirror ∧ after.2 ≤ pending ∧ after.1 + after.2 ≤ level
            ∧ (amount = pending → after = (min mirror level, 0))
            ∧ (amount ≤ pending → level = mirror + (pending - amount) → after = (mirror, pending - amount))))

/-! ### Settings -/

/-- R71, R81 to R83, R180, section 4.6: PRICE_SET, METER_SET, MEDIA_SET and LIMITS_SET: the ranges, a request without a value,
the lock, and an accepted request. R83: what METER_SET hands to the cartridges: the level classes under a new low mark, and then
the WRITE_BACK and the AUTH items that new values make due, each in the order K, C, M, Y (the model's choice, log 50). -/
def Obligations.SettingsRequests : Prop :=
  ∀ (tag : Byte) (s : State), Serving s →
    (∀ f : PriceFields,
      (priceFieldsInRange f = true ↔ (∀ v, f.stdMono = some v ∨ f.stdColour = some v ∨ f.largeMono = some v
          ∨ f.largeColour = some v → v ≤ 10000) ∧ (∀ v, f.duplexPct = some v → v ≤ 100)
          ∧ (∀ v, f.heavyThreshold = some v → v ≤ 40000) ∧ ∀ v, f.heavySurcharge = some v ∨ f.scanRate = some v → v ≤ 1000)
      ∧ (priceFieldsInRange f = false → exec (.priceSet tag f) s = .next (answered .priceSet tag .badField .empty s))
      ∧ (priceFieldsInRange f = true → f ≠ {} → (locksOf s).settings = true →
          exec (.priceSet tag f) s = .next (answered .priceSet tag .locked .empty s))
      ∧ (priceFieldsInRange f = true → (f = {} ∨ (locksOf s).settings = false) →
          let old := s.settings.price
          let new : PriceSettings :=
            { stdMono := f.stdMono.getD old.stdMono, stdColour := f.stdColour.getD old.stdColour
              largeMono := f.largeMono.getD old.largeMono, largeColour := f.largeColour.getD old.largeColour
              duplexPct := f.duplexPct.getD old.duplexPct, heavyThreshold := f.heavyThreshold.getD old.heavyThreshold
              heavySurcharge := f.heavySurcharge.getD old.heavySurcharge, scanRate := f.scanRate.getD old.scanRate }
          (new = old → exec (.priceSet tag f) s = .next (answered .priceSet tag .ok (.prices new) s))
          ∧ (new ≠ old → { new with scanRate := old.scanRate } = old → exec (.priceSet tag f) s =
              .next (answered .priceSet tag .ok (.prices new) (setSettings { s.settings with price := new } s)))
          ∧ ({ new with scanRate := old.scanRate } ≠ old → exec (.priceSet tag f) s =
              .next (answered .priceSet tag .ok (.prices new)
                (settle (discardStaging (setSettings { s.settings with price := new } s)))))))
    ∧ (∀ f : MeterFields,
      (meterFieldsInRange f = true ↔ (∀ v, f.colourThreshold = some v → 1 ≤ v ∧ v ≤ 10000)
          ∧ (∀ v, f.idleLoss = some v → v ≤ 50) ∧ (∀ v, f.lowMarkPct = some v → 1 ≤ v ∧ v ≤ 50)
          ∧ (∀ v, f.writebackPct = some v → 1 ≤ v ∧ v ≤ 10) ∧ ∀ v, f.reauthInterval = some v → 100 ≤ v ∧ v ≤ 65535)
      ∧ (meterFieldsInRange f = false → exec (.meterSet tag f) s = .next (answered .meterSet tag .badField .empty s))
      ∧ (meterFieldsInRange f = true → f ≠ {} → (locksOf s).settings = true →
          exec (.meterSet tag f) s = .next (answered .meterSet tag .locked .empty s))
      ∧ (meterFieldsInRange f = true → (f = {} ∨ (locksOf s).settings = false) →
          let old := s.settings.meter
          let new : MeterSettings :=
            { colourThreshold := f.colourThreshold.getD old.colourThreshold, idleLoss := f.idleLoss.getD old.idleLoss
              lowMarkPct := f.lowMarkPct.getD old.lowMarkPct, writebackPct := f.writebackPct.getD old.writebackPct
              reauthInterval := f.reauthInterval.getD old.reauthInterval }
          let handed := handToCartridges old new (setSettings { s.settings with meter := new } s)
          (new = old → exec (.meterSet tag f) s = .next (answered .meterSet tag .ok (.meters new) s))
          ∧ (new ≠ old → new.idleLoss = old.idleLoss → exec (.meterSet tag f) s =
              .next (answered .meterSet tag .ok (.meters new) (settle handed)))
          ∧ (new.idleLoss ≠ old.idleLoss → exec (.meterSet tag f) s =
              .next (answered .meterSet tag .ok (.meters new) (settle (discardStaging handed))))))
    ∧ (∀ (code : Nat) (area transit : Option Nat),
      (mediaFieldsInRange code area transit = true ↔ code ≤ 15 ∧ (∀ v, area = some v → 100 ≤ v ∧ v ≤ 1300)
          ∧ ∀ v, transit = some v → 500 ≤ v ∧ v ≤ 10000)
      ∧ (∀ (table : List MediaEntry) (k : Nat) (e : MediaEntry), table[k]? = some e → (mediaLines table)[k]? =
          some { code := k, area := e.area, large := decide (650 < e.area), transit := e.transit })
      ∧ (mediaFieldsInRange code area transit = false →
          exec (.mediaSet tag code area transit) s = .next (answered .mediaSet tag .badField .empty s))
      ∧ (mediaFieldsInRange code area transit = true → area = none → transit = none →
          exec (.mediaSet tag code area transit) s = .next (answered .mediaSet tag .ok (.media (mediaLines s.settings.media)) s))
      ∧ (mediaFieldsInRange code area transit = true → ¬ (area = none ∧ transit = none) →
          ((locksOf s).settings = true →
            exec (.mediaSet tag code area transit) s = .next (answered .mediaSet tag .locked .empty s))
          ∧ ((locksOf s).settings = false →
            let old := s.settings.media.getD code { area := 624, transit := 3000 }
            let new : MediaEntry := { area := area.getD old.area, transit := transit.getD old.transit }
            let table := s.settings.media.set code new
            (new = old → exec (.mediaSet tag code area transit) s = .next (answered .mediaSet tag .ok (.media (mediaLines table)) s))
            ∧ (new ≠ old → exec (.mediaSet tag code area transit) s = .next (answered .mediaSet tag .ok (.media (mediaLines table))
                (settle (discardStaging (setSettings { s.settings with media := table } s))))))))
    ∧ (∀ f : LimitFields,
      (limitFieldsInRange f = true ↔ (∀ v, f.holdLimit = some v ∨ f.lockoutTime = some v → 1 ≤ v ∧ v ≤ 1440)
          ∧ (∀ v, f.intakeStallLimit = some v → 5 ≤ v ∧ v ≤ 300) ∧ (∀ v, f.entryLimit = some v → 200 ≤ v ∧ v ≤ 10000)
          ∧ (∀ v, f.readRetries = some v → v ≤ 3) ∧ ∀ v, f.weakLimit = some v → 1 ≤ v ∧ v ≤ 8)
      ∧ (limitFieldsInRange f = false → exec (.limitsSet tag f) s = .next (answered .limitsSet tag .badField .empty s))
      ∧ (limitFieldsInRange f = true → f ≠ {} → (locksOf s).settings = true →
          exec (.limitsSet tag f) s = .next (answered .limitsSet tag .locked .empty s))
      ∧ (limitFieldsInRange f = true → (f = {} ∨ (locksOf s).settings = false) →
          let old := s.settings.limits
          let new : LimitSettings :=
            { holdLimit := f.holdLimit.getD old.holdLimit, lockoutTime := f.lockoutTime.getD old.lockoutTime
              intakeStallLimit := f.intakeStallLimit.getD old.intakeStallLimit, entryLimit := f.entryLimit.getD old.entryLimit
              readRetries := f.readRetries.getD old.readRetries, weakLimit := f.weakLimit.getD old.weakLimit }
          (new = old → exec (.limitsSet tag f) s = .next (answered .limitsSet tag .ok (.limits new) s))
          ∧ (new ≠ old → exec (.limitsSet tag f) s = .next (answered .limitsSet tag .ok (.limits new)
              (setSettings { s.settings with limits := new } s)))))
    ∧ ∀ (old new : MeterSettings) (s : State), s.fm.part ≠ .halted →
        let t := handToCartridges old new s
        let slot (i : Fin 4) : CartSlot := s.cbc.slots.get i
        let verified (i : Fin 4) : Prop := (slot i).verification = .genuine ∨ ∃ r, (slot i).verification = .suspect r
        let full (i : Fin 4) : Nat := match (slot i).figures with
          | some f => f.full
          | none => 0
        (∀ i : Fin 4, (new.lowMarkPct ≠ old.lowMarkPct ∧ verified i → t.cbc.slots.get i = { slot i with
              level := (slot i).level.map fun l => { l with cls := levelClass l.mirror (full i) s.settings.meter.lowMarkPct } })
            ∧ (¬ (new.lowMarkPct ≠ old.lowMarkPct ∧ verified i) → t.cbc.slots.get i = slot i)
            ∧ ((t.cbc.slots.get i).level ≠ (slot i).level → ∃ c, Entry.notice (.cartState c) ∈ t.lif.out ∧ c.slot = i
                ∧ c.cls = (t.cbc.slots.get i).level.map (·.cls)))
          ∧ ((∀ i, (t.cbc.slots.get i).level = (slot i).level) → t.lif = s.lif)
          ∧ (∃ writes auths : List (Fin 4), writes.Pairwise (· < ·) ∧ auths.Pairwise (· < ·)
              ∧ (∀ i, i ∈ writes ↔ new.writebackPct ≠ old.writebackPct ∧ verified i ∧ .writeBack i ∉ s.cbc.work
                  ∧ ∃ l, (slot i).level = some l ∧ 0 < l.pending ∧ max 1 (full i * s.settings.meter.writebackPct / 100) ≤ l.pending)
              ∧ (∀ i, i ∈ auths ↔ new.reauthInterval ≠ old.reauthInterval ∧ verified i ∧ .auth i ∉ s.cbc.work
                  ∧ s.settings.meter.reauthInterval ≤ (slot i).sheetsSince)
              ∧ t.cbc.work = s.cbc.work ++ writes.map .writeBack ++ auths.map .auth)
          ∧ t.accounts = s.accounts ∧ t.jt = s.jt ∧ t.spm = s.spm ∧ t.settings = s.settings ∧ t.ps = s.ps

/-! ### Cartridges -/

/-- R105, R106, R107: CART_REAUTH, POLICY_SET and FAMILY_KEY_LOAD in the order of their tests. R91: what makes a slot usable under a
policy. R107: the slots that a loaded key tries again, in the order K, C, M, Y (the model's choice, log 50). -/
def Obligations.CartridgeRequests : Prop :=
  ∀ (tag : Byte) (s : State), Serving s →
    let usable (allow : Bool) (i : Fin 4) : Prop := (∃ l, (s.cbc.slots.get i).level = some l ∧ l.cls ≠ .exhausted)
      ∧ ((s.cbc.slots.get i).verification = .genuine ∨ ((∃ r, (s.cbc.slots.get i).verification = .suspect r) ∧ allow = true))
    (∀ slot, 3 < slot → exec (.cartReauth tag slot) s = .next (answered .cartReauth tag .badField .empty s))
    ∧ (∀ i : Fin 4,
        (s.spm.doorOpen = true → exec (.cartReauth tag i) s = .next (answered .cartReauth tag .wrongState .empty s))
        ∧ (s.spm.doorOpen = false → authBusy s i = true →
            exec (.cartReauth tag i) s = .next (answered .cartReauth tag .busy .empty s))
        ∧ (s.spm.doorOpen = false → authBusy s i = false →
            exec (.cartReauth tag i) s = .next (answered .cartReauth tag .accepted .empty
              (settle (queueItem (.auth i) (putSlot i { s.cbc.slots.get i with failures := 0 } s))))))
    ∧ (∀ policy, 1 < policy → exec (.policySet tag policy) s = .next (answered .policySet tag .badField .empty s))
    ∧ (∀ policy, policy ≤ 1 →
        ((locksOf s).settings = true → exec (.policySet tag policy) s = .next (answered .policySet tag .locked .empty s))
        ∧ ((locksOf s).settings = false → s.settings.allow = decide (policy = 1) →
            exec (.policySet tag policy) s = .next (answered .policySet tag .ok .empty s))
        ∧ ((locksOf s).settings = false → s.settings.allow ≠ decide (policy = 1) →
            let set := setSettings { s.settings with allow := decide (policy = 1) } s
            ((∃ i : Fin 4, ¬ usable s.settings.allow i ∧ usable (decide (policy = 1)) i) →
              exec (.policySet tag policy) s = .next (answered .policySet tag .ok .empty (settle (supplyCame set))))
            ∧ (¬ (∃ i : Fin 4, ¬ usable s.settings.allow i ∧ usable (decide (policy = 1)) i) →
              exec (.policySet tag policy) s = .next (answered .policySet tag .ok .empty set))))
    ∧ (∀ family key, (3 < family ∨ key.length ≠ 32) →
        exec (.familyKeyLoad tag family key) s = .next (answered .familyKeyLoad tag .badField .empty s))
    ∧ (∀ (family : Fin 4) (key : List Byte), key.length = 32 →
        ((locksOf s).keys = true →
          exec (.familyKeyLoad tag family key) s = .next (answered .familyKeyLoad tag .locked .empty s))
        ∧ ((locksOf s).keys = false →
          let loaded := setKeys { keysOf s with family := (keysOf s).family.set family (some (BitVec.ofNat 256 (beValue key))) } s
          (s.spm.doorOpen = true →
            exec (.familyKeyLoad tag family key) s = .next (answered .familyKeyLoad tag .ok .empty loaded))
          ∧ (s.spm.doorOpen = false →
            ∃ again : List (Fin 4), again.Pairwise (· < ·)
              ∧ (∀ i, i ∈ again ↔ (s.cbc.slots.get i).family = some family ∧ .auth i ∉ s.cbc.work
                  ∧ ((s.cbc.slots.get i).verification = .genuine ∨ (∃ r, (s.cbc.slots.get i).verification = .suspect r)
                    ∨ (s.cbc.slots.get i).verification = .rejected .unknownFamily))
              ∧ exec (.familyKeyLoad tag family key) s = .next (answered .familyKeyLoad tag .ok .empty
                  (settle { loaded with cbc := { s.cbc with work := s.cbc.work ++ again.map .auth } })))))

/-- R85, R87, R92, R93, R101: the ends of the bus transactions, each with the transaction it ends in flight. A record that
does not have the 22 bytes of section 5.3 is no record the bus delivers (log 28), and that the reply of a DECREMENT is checked
under the key held since its start is the model's choice (log 33). So is that a slot keeps the serial and family it had until its AUTH ends with a result (log 69). -/
def Obligations.BusTransactions : Prop :=
  ∀ (i : Fin 4) (s : State), s.powered = true →
    (s.cbc.flight = some (.probe i) →
      exec (.probeComplete true) s = .next { s with cbc := { s.cbc with flight := some (.readRecord i) } }
        ∧ exec (.probeComplete false) s = .next (settle (endEmpty i s)))
    ∧ (s.cbc.flight = some (.readRecord i) → ∀ record : List Byte,
        (record.length ≠ 22 → exec (.readRecordComplete record) s = .fault .recordLength)
        ∧ (record.length = 22 →
          (recordByte record 2 ≠ i → exec (.readRecordComplete record) s =
            .next (settle (rejectRead i .wrongColour record (endFlight s))))
          ∧ (recordByte record 2 = i →
            (recordByte record 0 ≠ 1 ∨ 3 < recordByte record 1 ∨ recordByte record 3 = 0
              ∨ familyKey (keysOf s) (recordByte record 1) = none) → exec (.readRecordComplete record) s =
            .next (settle (rejectRead i .unknownFamily record (endFlight s))))
          ∧ (recordByte record 2 = i → recordByte record 0 = 1 → recordByte record 1 ≤ 3 → recordByte record 3 ≠ 0 →
            ∀ k, familyKey (keysOf s) (recordByte record 1) = some k →
              (∀ nonce t, draw16 s = (.ok nonce, t) → exec (.readRecordComplete record) s =
                .next (settle { t with cbc := { t.cbc with
                  flight := some (.challenge i record (cartridgeKey k (recordSerial record)) nonce) } }))
              ∧ (∀ test t, draw16 s = (.error test, t) → exec (.readRecordComplete record) s =
                .next (settle (haltPart (.randomSource test .nonce) t))))))
    ∧ (∀ record key nonce, s.cbc.flight = some (.challenge i record key nonce) → ∀ reply,
        (reply = cartridgeTag key nonce (recordSerial record) (slice record 16 4) →
          exec (.challengeComplete reply) s = .next (settle (completeAuth i record (endFlight s))))
        ∧ (reply ≠ cartridgeTag key nonce (recordSerial record) (slice record 16 4) →
          exec (.challengeComplete reply) s = .next (settle (rejectRead i .tag record (endFlight s)))))
    ∧ (∀ amount key serial nonce, s.cbc.flight = some (.decrement i amount (some key) nonce) →
        (s.cbc.slots.get i).serial = some serial → ∀ (level : BitVec 32) (reply : Digest),
        let answeredSlot := putSlot i { s.cbc.slots.get i with failures := 0 } (endFlight s)
        (reply = cartridgeTag key nonce serial (leBytes 4 level.toNat) →
          exec (.decrementComplete level reply) s = .next (settle (completeWriteBack i amount level.toNat answeredSlot)))
        ∧ (reply ≠ cartridgeTag key nonce serial (leBytes 4 level.toNat) →
          exec (.decrementComplete level reply) s = .next (settle (endUnverified i (.rejected .tag) answeredSlot))))
    ∧ (s.cbc.flight = some .resync → exec .resyncComplete s = .next (settle (endFlight s)))
    ∧ (∀ item : WorkItem, ((s.cbc.flight = some (.readRecord i) ∧ item = .auth i)
          ∨ (∃ record key nonce, s.cbc.flight = some (.challenge i record key nonce) ∧ item = .auth i)
          ∨ ∃ amount key nonce, s.cbc.flight = some (.decrement i amount key nonce) ∧ item = .writeBack i) →
        let counted := putSlot i { s.cbc.slots.get i with failures := (s.cbc.slots.get i).failures + 1 } (endFlight s)
        ((s.cbc.slots.get i).failures < 2 →
          exec .busTransactionFail s = .next (settle (queueItem item counted))
            ∧ exec .clockStretchLimit s = .next (settle (queueItem item counted)))
        ∧ (2 ≤ (s.cbc.slots.get i).failures →
          let ended := endUnverified i .commFail counted
          let dropped := { ended with cbc := { ended.cbc with
            work := ended.cbc.work.filter fun w => w != .auth i && w != .writeBack i } }
          exec .busTransactionFail s = .next (settle dropped) ∧ exec .clockStretchLimit s = .next (settle dropped)))

/-- R89, R90, R92 to R96, R99, R101, R102: what the ends of an AUTH and of a WRITE_BACK leave of the slot, of its history entry,
of the work list and of the staging, and what they report. The verification of a slot is told by a CART_STATE notice, and behind
it by a note where it has changed to SUSPECT or REJECTED (the order is the model's choice, log 58). -/
def Obligations.VerificationsEnd : Prop :=
  ∀ (i : Fin 4) (s : State),
    let old := s.cbc.slots.get i
    let verified : Prop := old.verification = .genuine ∨ ∃ r, old.verification = .suspect r
    let can (c : CartSlot) : Prop := (∃ l, c.level = some l ∧ l.cls ≠ .exhausted)
      ∧ (c.verification = .genuine ∨ ((∃ r, c.verification = .suspect r) ∧ s.settings.allow = true))
    let content (c : CartSlot) : CartNotice :=
      { slot := i, verification := c.verification, cls := c.level.map (·.cls), serial := c.serial
        mirror := c.level.map (·.mirror), pending := c.level.map (·.pending) }
    let told (c : CartSlot) : State :=
      let asked := emit (.cartState (content c)) s
      if old.verification = c.verification then asked
      else match c.verification with
        | .suspect r => raiseNote (.cartSuspect i c.serial r) asked
        | .rejected r => raiseNote (.cartRejected i c.serial r) asked
        | _ => asked
    let remembered (serial : Serial) (family : Option Nat) (l : CartLevel) (rise : Prop) (t : State) : Prop :=
      ∃ e rest, t.cbc.history = e :: rest ∧ e.serial = serial ∧ e.family = family.getD 0 ∧ e.colour = i ∧ e.level = l.mirror
        ∧ e.pending = l.pending ∧ e.lastSeen = s.cbc.lifetime
        ∧ (e.suspect = true ↔ rise ∨ ∃ h, s.cbc.history.find? (·.serial == serial) = some h ∧ h.suspect = true)
        ∧ ∀ x ∈ rest, x ∈ s.cbc.history ∧ x.serial ≠ serial
    let writesBack (due : Prop) (t : State) : Prop :=
      (due → s.fm.part ≠ .halted → .writeBack i ∉ s.cbc.work → t.cbc.work = s.cbc.work ++ [.writeBack i])
        ∧ ((¬ due ∨ .writeBack i ∈ s.cbc.work) → t.cbc.work = s.cbc.work)
    let rest (t : State) : Prop := (∀ k : Fin 4, k ≠ i → t.cbc.slots.get k = s.cbc.slots.get k) ∧ t.cbc.lifetime = s.cbc.lifetime
      ∧ t.accounts = s.accounts ∧ t.settings = s.settings ∧ t.bc = s.bc ∧ t.se = s.se ∧ t.smc.defects = s.smc.defects
    let ended (t : State) (v : Verification) (serial : Option Serial) (family : Option Nat) (failures : Nat) : Prop :=
      let c := t.cbc.slots.get i
      c = { old with verification := v, serial := serial, family := family, failures := failures, figures := none
                     level := c.level, drawing := c.drawing }
        ∧ (verified → c.level = none ∧ c.drawing = [] ∧ t.cbc.work = s.cbc.work.filter (· != .writeBack i)
            ∧ ∀ sr l, old.serial = some sr → old.level = some l → remembered sr old.family l False t)
        ∧ (¬ verified → c.level = old.level ∧ c.drawing = old.drawing ∧ t.cbc.work = s.cbc.work ∧ t.cbc.history = s.cbc.history)
        ∧ (old.figures ≠ none → t.spm.staging = []) ∧ (old.figures = none → t.spm.staging = s.spm.staging)
        ∧ t.lif = (told c).lif ∧ t.fm = (told c).fm ∧ t.jt = s.jt ∧ rest t
    (∀ record : List Byte,
        let t := completeAuth i record s
        let c := t.cbc.slots.get i
        let serial := recordSerial record
        let known := s.cbc.history.find? (·.serial == serial)
        let result : Verification :=
          if checkWord record ≠ recordCheck record then .suspect .checksum
          else match known with
            | some e => if e.suspect = true ∨ e.level + e.pending < recordLevel record then .suspect .levelRise else .genuine
            | none => .genuine
        let mirror := match known with
          | some e => min (recordLevel record) e.level
          | none => recordLevel record
        let pending := recordLevel record - mirror
        let level : CartLevel :=
          { mirror := mirror, pending := pending, cls := levelClass mirror (recordFull record) s.settings.meter.lowMarkPct }
        c = { verification := result, serial := some serial, family := some (recordByte record 1)
              figures := some { density := recordByte record 3, full := recordFull record }, level := some level
              sheetsSince := 0, failures := 0, drawing := if old.serial = some serial then old.drawing else [] }
          ∧ remembered serial (some (recordByte record 1)) level (result = .suspect .levelRise) t
          ∧ writesBack (0 < pending ∧ (max 1 (recordFull record * s.settings.meter.writebackPct / 100) ≤ pending
              ∨ (mirror = 0 ∧ old.level.map (·.cls) ≠ some .exhausted))) t
          ∧ (old.figures.map (·.density) ≠ some (recordByte record 3) → t.spm.staging = [])
          ∧ (old.figures.map (·.density) = some (recordByte record 3) → t.spm.staging = s.spm.staging)
          ∧ (¬ can old ∧ can c → t.lif = (supplyCame (told c)).lif ∧ t.jt = (supplyCame s).jt)
          ∧ (¬ (¬ can old ∧ can c) → t.lif = (told c).lif ∧ t.jt = s.jt)
          ∧ t.fm = (told c).fm ∧ rest t)
    ∧ (∀ (record : List Byte) (reason : RejectReason), ended (rejectRead i reason record s) (.rejected reason)
        (some (recordSerial record)) (some (recordByte record 1)) 0)
    ∧ (∀ v : Verification, ended (endUnverified i v s) v old.serial old.family old.failures)
    ∧ (ended (endEmpty i s) .empty none none 0 ∧ (endEmpty i s).cbc.flight = none)
    ∧ ∀ amount level : Nat,
        let t := completeWriteBack i amount level s
        (old.level = none → t = s)
        ∧ ∀ l, old.level = some l →
            let full := match old.figures with
              | some f => f.full
              | none => 0
            let after := settleWriteBack l.mirror l.pending amount (min level full)
            let new : CartLevel := { mirror := after.1, pending := after.2, cls := levelClass after.1 full s.settings.meter.lowMarkPct }
            let c := t.cbc.slots.get i
            c = { old with level := some new, drawing := if after.2 = 0 then [] else old.drawing }
              ∧ (∀ serial, old.serial = some serial → remembered serial old.family new False t)
              ∧ (old.serial = none → t.cbc.history = s.cbc.history)
              ∧ (new.cls = l.cls → t.lif = s.lif) ∧ (new.cls ≠ l.cls → t.lif = (emit (.cartState (content c)) s).lif)
              ∧ writesBack (verified ∧ 0 < after.2 ∧ (max 1 (full * s.settings.meter.writebackPct / 100) ≤ after.2
                  ∨ (after.1 = 0 ∧ l.cls ≠ .exhausted))) t
              ∧ t.fm = s.fm ∧ t.jt = s.jt ∧ t.spm = s.spm ∧ rest t

/-- R88: the check word of a record and the word it carries, which step 4 of R93 compares; the full and the reported level; and a
record that cannot be used. -/
def Obligations.RecordFigures : Prop :=
  ∀ record : List Byte, record.length = 22 →
    let byte (n : Nat) := (record.getD n 0).toNat
    checkWord record = ((List.range 7).foldl (fun sum i => (sum + byte (2 * i) + 256 * byte (2 * i + 1)) % 65536) (byte 14)) % 65536
      ∧ recordCheck record = byte 20 + 256 * byte 21
      ∧ (∀ n b, 15 ≤ n → n ≤ 19 → checkWord (record.set n b) = checkWord record)
      ∧ (∀ h, checkWord record ≠ recordCheck record → authResult record h = .suspect .checksum)
      ∧ recordFull record = byte 12 + 256 * byte 13 + 65536 * byte 14 ∧ recordFull record ≤ 16777215
      ∧ recordLevel record = min (byte 16 + 256 * byte 17 + 65536 * byte 18 + 16777216 * byte 19) (recordFull record)
      ∧ (∀ (i : Fin 4) (s : State), byte 2 = i → (byte 0 ≠ 1 ∨ 3 < byte 1 ∨ byte 3 = 0) →
          takeRecord i record s = rejectRead i .unknownFamily record (endFlight s))

/-- R126: the port's next operation is the eligible one of the lowest class, reads before programs before erases and verifies,
entered first within it. R121, R150: only a read of a block whose image is in the buffer, and an erase with the supply low, are
held back. R110, R180: what the start of an operation fixes. R86, R92, R100, R101: the bus list takes an item once and serves
its head, a WRITE_BACK with the whole pending deduction under the key its cartridge has at the start (the model's choice, log
33); one of a slot that no longer holds a verified cartridge, or with nothing pending, ends with no transaction. R140: a nonce
whose draw fails halts the part. -/
def Obligations.PortAndBusOrder : Prop :=
  (∀ (s : State) (op : PortOp),
      (chooseOp s = some op →
        eligible s op = true ∧ (∀ o ∈ s.smc.ops, eligible s o = true → classOf op ≤ classOf o)
          ∧ ∃ front back, s.smc.ops = front ++ op :: back ∧ ∀ o ∈ front, eligible s o = true → classOf op < classOf o)
      ∧ (chooseOp s = none → op ∈ s.smc.ops → eligible s op = false)
      ∧ (∀ handle block second, eligible s (.program handle block second) = true ∧ eligible s (.verify block) = true
          ∧ (eligible s (.erase block) = true ↔ s.spm.supply.level ≠ some false)
          ∧ classOf (.program handle block second) = 2 ∧ classOf (.erase block) = 3 ∧ classOf (.verify block) = 3)
      ∧ ∀ q, classOf (.read q) = 1
          ∧ (∀ j p, jobOf s.jt q.handle = some j → placeOf s.smc j q.page q.index = some p →
            (eligible s (.read q) = true ↔ ∀ b, (b = p.block ∨ p.next = some b) →
              (∀ f, s.smc.filling = some f → f.block ≠ b) ∧ ∀ f, s.smc.programming = some f → f.block ≠ b)))
    ∧ (∀ s : State,
        ((s.smc.inFlight ≠ none ∨ s.fm.part = .halted ∨ chooseOp s = none) → startPort s = none)
        ∧ ∀ op, s.smc.inFlight = none → s.fm.part ≠ .halted → chooseOp s = some op →
          let started (f : PortFlight) : State := { s with smc := { s.smc with ops := s.smc.ops.erase op, inFlight := some f } }
          (∀ q j p, op = .read q → jobOf s.jt q.handle = some j → placeOf s.smc j q.page q.index = some p →
            startPort s = some (started (.read q p ((p.block :: p.next.toList).map (resolve s.smc.defects))
              s.settings.limits.readRetries s.settings.limits.weakLimit)))
          ∧ (∀ handle block second, op = .program handle block second → startPort s =
              (let t := started (.program handle block second (resolve s.smc.defects block))
               some { t with smc := { t.smc with
                programming := s.smc.programming.map fun p => { p with phase := .inFlight } } }))
          ∧ (∀ block, op = .erase block → startPort s = some (started (.erase block (resolve s.smc.defects block))))
          ∧ ∀ block, op = .verify block → startPort s = some (started (.verify block (resolve s.smc.defects block))))
    ∧ ∀ (s : State) (item : WorkItem) (rest : List WorkItem), s.fm.part ≠ .halted →
        (item ∈ s.cbc.work → queueItem item s = s)
        ∧ (item ∉ s.cbc.work → queueItem item s = { s with cbc := { s.cbc with work := s.cbc.work ++ [item] } })
        ∧ (s.cbc.flight ≠ none → startBus s = none)
        ∧ (s.cbc.flight = none → s.cbc.work = item :: rest →
            let left := { s with cbc := { s.cbc with work := rest } }
            (item = .resync → startBus s = some { left with cbc := { left.cbc with flight := some .resync } })
            ∧ (∀ i, item = .auth i → startBus s = some { left with cbc := { left.cbc with flight := some (.probe i) } })
            ∧ (∀ i l nonce t, item = .writeBack i → (s.cbc.slots.get i).level = some l →
                holdsVerified (s.cbc.slots.get i) = true → 0 < l.pending → draw16 left = (.ok nonce, t) →
                let key := match (s.cbc.slots.get i).serial, (s.cbc.slots.get i).family.bind (familyKey (keysOf s)) with
                  | some serial, some k => some (cartridgeKey k serial)
                  | _, _ => none
                startBus s = some { t with cbc := { t.cbc with flight := some (.decrement i l.pending key nonce) } })
            ∧ (∀ i l test t, item = .writeBack i → (s.cbc.slots.get i).level = some l →
                holdsVerified (s.cbc.slots.get i) = true → 0 < l.pending → draw16 left = (.error test, t) →
                startBus s = some (haltPart (.randomSource test .nonce) t))
            ∧ ∀ i, item = .writeBack i → (holdsVerified (s.cbc.slots.get i) = false
                ∨ ∀ l, (s.cbc.slots.get i).level = some l → l.pending = 0) → startBus s = some left)

/-! ### Spool, scrub and media port -/

/-- R129, R130, R153, R176, R177: BLOCK_RETIRE by the block's state; SANITIZE and STORE_WIPE in the order of their tests; what the
beginning of a sanitize does, and what a wipe leaves of the store's content, of the bus and of the slots, whose notices and
authentications come in the order K, C, M, Y (the model's choice, log 50), the notices of the slots before the PART notice of the
sanitize (the model's choice, log 58). A sanitize with no block to scrub completes within
its request (the model's choice, log 61). Which check results read WIPED is DEDUCED (log 34). -/
def Obligations.RetireSanitizeWipe : Prop :=
  (∀ (tag : Byte) (s : State), Serving s →
      (∀ block, 30720 ≤ block → exec (.blockRetire tag block) s = .next (answered .blockRetire tag .badField .empty s))
      ∧ (∀ block, block < 30720 →
          (blockState s block = .retired →
            exec (.blockRetire tag block) s = .next (answered .blockRetire tag .ok .empty s))
          ∧ (blockState s block = .clean →
            let taken := { setDefects { s.smc.defects with clean := s.smc.defects.clean.erase block } s with
              smc := { s.smc with defects := { s.smc.defects with clean := s.smc.defects.clean.erase block },
                                  free := s.smc.free.erase block } }
            exec (.blockRetire tag block) s = .next (answered .blockRetire tag .ok .empty (retireBlock .host block taken)))
          ∧ ((blockState s block = .allocated ∨ blockState s block = .dirty) → block ∉ s.smc.weak →
            exec (.blockRetire tag block) s = .next (answered .blockRetire tag .accepted .empty
              { s with smc := { s.smc with weak := s.smc.weak ++ [block] } }))
          ∧ ((blockState s block = .allocated ∨ blockState s block = .dirty) → block ∈ s.smc.weak →
            exec (.blockRetire tag block) s = .next (answered .blockRetire tag .accepted .empty s)))
      ∧ ((s.se.sanitize.isSome = true ∨ ∃ j ∈ allJobs s.jt, isLive j = true) →
          exec (.sanitize tag) s = .next (answered .sanitize tag .busy .empty s))
      ∧ (s.se.sanitize = none → (∀ j ∈ allJobs s.jt, isLive j = false) → s.spm.supply.level = some false →
          exec (.sanitize tag) s = .next (answered .sanitize tag .powerLow .empty s))
      ∧ (s.se.sanitize = none → (∀ j ∈ allJobs s.jt, isLive j = false) → s.spm.supply.level ≠ some false →
          exec (.sanitize tag) s = .next (answered .sanitize tag .accepted .empty (settle (beginSanitize tag false s))))
      ∧ ((allJobs s.jt ≠ [] ∨ s.se.sanitize.isSome = true) →
          exec (.storeWipe tag) s = .next (answered .storeWipe tag .busy .empty s))
      ∧ (allJobs s.jt = [] → s.se.sanitize = none →
          (s.spm.supply.level = some false →
            exec (.storeWipe tag) s = .next (answered .storeWipe tag .powerLow .empty s))
          ∧ (s.spm.supply.level ≠ some false →
            (∀ test t, draw32 s = (.error test, t) → exec (.storeWipe tag) s = .next (answered .storeWipe tag .halted .empty
              (haltPart (.randomSource test .deviceKey) t)))
            ∧ ∀ key t, draw32 s = (.ok key, t) → exec (.storeWipe tag) s = .next (answered .storeWipe tag .accepted .empty
              (settle (beginSanitize tag true (wipeContent key t))))))
      ∧ ∀ (wipe : Bool) (u : State),
          let t := beginSanitize tag wipe u
          t.smc.free = [] ∧ t.smc.defects.clean = [] ∧ t.smc.defects.retired = u.smc.defects.retired
            ∧ t.se.list = u.se.list ++ u.smc.free.map (fun b => { block := b, origin := .sanitize })
            ∧ t.se.sanitize = some { tag := tag, wipe := wipe, returned := 0, retired := 0 } ∧ t.jt = u.jt)
    ∧ (∀ (key : Key) (s : State),
        let t := wipeContent key s
        t.accounts = [] ∧ t.ps.accounts = written .accounts [] ∧ t.settings = {} ∧ t.ps.settings = written .settings {} ∧ t.cbc.history = []
          ∧ t.cbc.lifetime = 0 ∧ t.ps.history = written .history { entries := [], lifetime := 0 } ∧ t.ps.halt = .blank
          ∧ t.fm.haltRecord = none
          ∧ (let fresh : KeysContent := { family := Vector.replicate 4 none, device := some key
                                          locks := { settings := false, keys := false, audit := false } }
             t.ps.loadedKeys = some fresh ∧ t.ps.keys = written .keys fresh)
          ∧ t.ps.defects = s.ps.defects ∧ t.smc.defects = s.smc.defects ∧ t.fm.queue = s.fm.queue
          ∧ t.fm.overflow = s.fm.overflow ∧ (∀ i : Fin 4, holdsVerified (t.cbc.slots.get i) = false)
          ∧ t.cbc.flight = none
          ∧ (s.fm.part ≠ .halted → t.cbc.work =
              if s.spm.doorOpen then [] else [.resync, .auth 0, .auth 1, .auth 2, .auth 3])
          ∧ (∀ i : Fin 4,
              let old := s.cbc.slots.get i
              (holdsVerified old = false → t.cbc.slots.get i = { old with failures := 0 })
              ∧ (holdsVerified old = true →
                  t.cbc.slots.get i = { old with
                    verification := .unverified, failures := 0, figures := none, level := none, drawing := [] }
                  ∧ Entry.notice (.cartState { slot := i, verification := .unverified, cls := none, serial := old.serial
                                               mirror := none, pending := none }) ∈ t.lif.out))
          ∧ t.ps.results = { s.ps.results with
              accounts := some .wiped, settings := some .wiped, history := some .wiped, keys := some .wiped, halt := some .wiped })
    ∧ (∀ (tag : Byte) (wipe : Bool) (s : State), Entry.notice (.part (partContent (beginSanitize tag wipe s)))
        ∈ (beginSanitize tag wipe s).lif.out)

/-- R144, R151: the scrub takes the head of its list into work with an erase, first attempt, while the part is RUNNING. R154: a
sanitize completes where the list is empty with no block in work, with a DONE notice of its tag, kind and counts and a PART
notice behind it (the order is the model's choice, log 58, as is completing one that begins with an empty list, log 61); a halt
ends it unfinished. R112, R143: an entry that leaves the list; a retirement, whose BLOCK_RETIRED note comes before the notice of a
slot it frees (the model's choice, log 58); and a block returned CLEAN, whose entry leaves the list, which frees the slot of a job
whose last block it was, with its JOB_STATE notice (before a held band is stored: the model's choice, log 62), and no other. -/
def Obligations.ScrubAndSanitize : Prop :=
  (∀ s : State,
      ((s.fm.part ≠ .running ∨ s.se.work ≠ none ∨ s.se.list = []) → takeScrub s = none)
      ∧ (∀ e rest, s.fm.part = .running → s.se.work = none → s.se.list = e :: rest → takeScrub s = some { s with
          se := { s.se with work := some { block := e.block, verifying := false, second := false } }
          smc := { s.smc with ops := s.smc.ops ++ [.erase e.block] } })
      ∧ ((s.se.sanitize = none ∨ s.se.list ≠ [] ∨ s.se.work ≠ none) → finishSanitize s = none)
      ∧ ∀ z, s.se.sanitize = some z →
          let finished (halted : Bool) : State := emit (.done z.tag halted (.sanitize z.wipe z.returned z.retired))
            { s with se := { s.se with sanitize := none } }
          (s.se.list = [] → s.se.work = none → finishSanitize s = some (askPart (finished false))) ∧ endSanitize true s = finished true)
    ∧ (∀ (block : Nat) (s : State),
        ((∀ e ∈ s.se.list, e.block ≠ block) → leaveScrub block s = s)
        ∧ ∀ e, s.se.list.find? (·.block == block) = some e →
            let left := { s with se := { s.se with list := s.se.list.filter (·.block != block) } }
            (∀ handle, e.origin = .job handle → leaveScrub block s = reportScrubbed handle left)
            ∧ ((e.origin = .sweep ∨ e.origin = .sanitize) → leaveScrub block s = left))
    ∧ (∀ (cause : RetireCause) (block : Nat) (s : State),
        let t := retireBlock cause block s
        let noted := raiseNote (.blockRetired block cause) s
        (∀ n, n ∈ t.smc.defects.retired ↔ n = block ∨ n ∈ s.smc.defects.retired)
          ∧ t.smc.defects.remap = s.smc.defects.remap ∧ t.smc.defects.clean = s.smc.defects.clean
          ∧ t.ps.defects = written .defects t.smc.defects ∧ t.smc.weak = s.smc.weak.erase block ∧ bandMapOf t.smc block = []
          ∧ t.fm = noted.fm ∧ t.lif = noted.lif ∧ t.jt = s.jt ∧ t.se = s.se ∧ t.smc.free = s.smc.free
          ∧ retireScrubbed cause block s = leaveScrub block { t with
              se := { s.se with sanitize := s.se.sanitize.map fun z => { z with retired := z.retired + 1 } } })
    ∧ ∀ (block : Nat) (s : State),
        let t := returnClean block s
        t.smc.free = s.smc.free ++ [block] ∧ (∀ n, n ∈ t.smc.defects.clean ↔ n = block ∨ n ∈ s.smc.defects.clean)
          ∧ t.smc.defects.retired = s.smc.defects.retired ∧ t.smc.defects.remap = s.smc.defects.remap
          ∧ t.ps.defects = written .defects t.smc.defects
          ∧ markOf t.smc block = none ∧ (∀ b, b ≠ block → markOf t.smc b = markOf s.smc b)
          ∧ t.se = { list := s.se.list.filter (·.block != block), work := none
                     sanitize := s.se.sanitize.map fun z => { z with returned := z.returned + 1 } }
          ∧ t.fm = s.fm ∧ t.accounts = s.accounts
          ∧ (let defects := { s.smc.defects with clean := insertNumber block s.smc.defects.clean }
             let made := { setDefects defects s with
               smc := { s.smc with defects := defects, marked := s.smc.marked.filter (·.1 != block), free := s.smc.free ++ [block] }
               se := { s.se with work := none
                                 sanitize := s.se.sanitize.map fun z => { z with returned := z.returned + 1 } } }
             t = leaveScrub block made)
          ∧ (∀ e handle j outcome, s.se.list.find? (·.block == block) = some e → e.origin = .job handle → s.fm.part = .running →
              jobOf s.jt handle = some j → j.state = .scrub outcome →
              ((∀ x ∈ s.se.list, x.block ≠ block → x.origin ≠ .job handle) →
                t.jt = { s.jt with slots := s.jt.slots.set (slotOf handle) { generation := (handle / 64 + 1) % 256, job := none } }
                  ∧ t.lif = (emit (.jobState (slotOf handle) { handle := handle, stage := .freed outcome, tallies := none }) s).lif)
              ∧ ((∃ x ∈ s.se.list, x.block ≠ block ∧ x.origin = .job handle) → t.jt = s.jt ∧ t.lif = s.lif))
          ∧ ((∀ e, s.se.list.find? (·.block == block) = some e → e.origin = .sweep ∨ e.origin = .sanitize) →
              t.jt = s.jt ∧ t.lif = s.lif)

/-- R21 to R25, R118: a band waits at the link, in a queue of its own (the model's choice, log 14), and is taken where the link
takes bands; a taken band that is stray, malformed, out of sequence or beyond the page pool, and one that is accepted, which is
stored or held; the intake stall timer, before which INTAKE_STALL_EXPIRY has no effect (the model's choice, log 3). R25, R118:
what the expiry aborts. A SPOOL_FULL record of an image that waits names the page of the band its job has held, or 0 (the
model's choice, log 20), and a band of that job held for the image buffer is discarded by the close, with a note (the model's
choice, log 46). -/
def Obligations.IntakeBands : Prop :=
  ∀ (b : Band) (s : State),
    (s.powered = true → exec (.intakeBand b) s =
      .next (settle { s with jt := { s.jt with waiting := s.jt.waiting ++ [b] } }))
    ∧ (jobOf s.jt b.handle = none → takeBand b s = raiseNote (.strayBand b.handle) s)
    ∧ (∀ j, jobOf s.jt b.handle = some j →
        (j.state ≠ .intake → takeBand b s = raiseNote (.strayBand b.handle) s)
        ∧ (j.state = .intake → (malformed b = true ∨ j.expected ≠ some (b.page, b.index)) →
          takeBand b s = closeJob (.aborted .intakeFormat) b.handle (raiseJobFault
            { code := .intakeFormat, handle := b.handle, page := b.page, block := 0, addrValid := false } s))
        ∧ (j.state = .intake → malformed b = false → j.expected = some (b.page, b.index) → b.index = 1 →
          8192 ≤ pagesUsed s.jt →
          takeBand b s = closeJob (.aborted .pagePool) b.handle (raiseJobFault
            { code := .pagePool, handle := b.handle, page := b.page, block := 0, addrValid := false } s)))
    ∧ (∀ j key, jobOf s.jt b.handle = some j → j.state = .intake → malformed b = false → j.expected = some (b.page, b.index) →
        (b.index = 1 → pagesUsed s.jt < 8192) → liveKey s b.handle = some key →
        (∀ t, storeBand b key j s = .stored t → takeBand b s = finishBand b t)
        ∧ ∀ reason t, storeBand b key j s = .held reason t → takeBand b s = holdBand b reason t)
    ∧ (∀ rest, s.jt.waiting = b :: rest →
        let takes : Prop := s.fm.part = .running ∧ s.fm.backlog = false ∧ s.jt.held = none
          ∧ (∀ f, s.smc.filling = some f → f.handedOn = false) ∧ ∀ p, s.smc.programming = some p → p.phase ≠ .needsBlock
        (takes → takeWaiting s = some (takeBand b { s with jt := { s.jt with waiting := rest } }))
        ∧ (¬ takes → takeWaiting s = none))
    ∧ (malformed b = false ↔ b.version = 1 ∧ b.flags < 4 ∧ (isLastPage b = true → isLastBand b = true) ∧ 1 ≤ b.length
        ∧ b.length ≤ 65536 ∧ b.payload.length = b.length ∧ ¬ (b.page = 2000 ∧ isLastBand b = true ∧ isLastPage b = false)
        ∧ ¬ (b.index = 255 ∧ isLastBand b = false)
        ∧ (isLastBand b = true → b.covK ≤ 10000 ∧ b.covC ≤ 10000 ∧ b.covM ≤ 10000 ∧ b.covY ≤ 10000))
    ∧ (∀ due, s.powered = true → s.jt.stallTimer = some due →
        (nowMs s < due → exec .intakeStallExpiry s = .next s)
        ∧ (due ≤ nowMs s → exec .intakeStallExpiry s = .next (settle (expireStall s))))
    ∧ (let stopped : State := { s with jt := { s.jt with stallTimer := none } }
       let without (u : State) : State := { u with jt := { u.jt with held := none } }
       let aborted (handle page : Nat) (u : State) : State := closeJob (.aborted .spoolFull) handle (raiseJobFault
         { code := .spoolFull, handle := handle, page := page, block := 0, addrValid := false } u)
       ((∀ p, s.smc.programming = some p → p.phase ≠ .needsBlock) →
          (∀ h, s.jt.held = some h → h.reason = .room → expireStall s = aborted h.band.handle h.band.page (without stopped))
          ∧ ((∀ h, s.jt.held = some h → h.reason = .image) → expireStall s = stopped))
       ∧ ∀ p, s.smc.programming = some p → p.phase = .needsBlock →
          ((∀ h, s.jt.held = some h → h.reason = .image ∧ h.band.handle ≠ p.handle) → expireStall s = aborted p.handle 0 stopped)
          ∧ ∀ h, s.jt.held = some h →
            (h.reason = .room → h.band.handle = p.handle → expireStall s = aborted p.handle h.band.page (without stopped))
            ∧ (h.reason = .image → h.band.handle = p.handle → expireStall s = aborted p.handle h.band.page stopped)
            ∧ (h.reason = .room → h.band.handle ≠ p.handle → (slotOf p.handle).val ∉ s.bc.stuck →
              expireStall s = aborted h.band.handle h.band.page (without (aborted p.handle 0 stopped))))

/-- R24, R115 to R117: a stored band is laid down in the job's filling image where it fits, goes on in a new block otherwise,
and is held for room (R25) or for the image buffer (log 15); a full image, or another job's, is handed on, and becomes the
programming image, with its program entered, as soon as there is none. R23: the page opens
with its first stored band, and not while that band is held (DEDUCED, log 16), counts its bands and closes; R35: its scan
charge. R26: the end of intake. R25: the hold and its timer; a hold that turns from the image buffer to room begins its timer then,
and one that turns from room to the buffer has none (the model's choice, log 68). -/
def Obligations.BandsAreStored : Prop :=
  (∀ (b : Band) (key : LiveKey) (j : Job) (s : State), jobOf s.jt b.handle = some j → j.handle = b.handle →
    let size := b.length + 16
    let stored := sealBand key b.page b.index b.payload
    let entry (offset : Nat) : BandEntry := { page := b.page, index := b.index, offset := offset, length := size }
    let grown (block : Nat) : List Extent := match j.extents.getLast? with
      | some e => if e.first + e.count = block then j.extents.dropLast ++ [{ first := e.first, count := e.count + 1 }]
          else j.extents ++ [{ first := block, count := 1 }]
      | none => [{ first := block, count := 1 }]
    let opened (extents : List Extent) (block offset : Nat) (t : State) : Prop :=
      ∃ fresh : List PageEntry, jobOf t.jt b.handle = some { j with extents := extents, pages := j.pages ++ fresh }
        ∧ (b.index ≠ 1 → fresh = [])
        ∧ (b.index = 1 → ∃ x o, fresh = [{ extent := x, offset := o }]
            ∧ ∀ n e, extents[n]? = some e → e.first ≤ block → block < e.first + e.count →
                (∀ m f, m < n → extents[m]? = some f → ¬ (f.first ≤ block ∧ block < f.first + f.count)) →
                x = n ∧ o = (block - e.first) * 131072 + offset)
    let current (f : FillingImage) : Prop := s.smc.filling = some f ∧ f.handle = b.handle ∧ f.handedOn = false
      ∧ (bandMapOf s.smc f.block).length < 64
    let room : Prop := ∃ block rest, s.smc.free = block :: rest
      ∧ ((grown block).length = j.extents.length ∨ extentsUsed s.jt < 4096)
    (∀ f, s.smc.filling = some f → f.handedOn = false → (f.handle ≠ b.handle ∨ 64 ≤ (bandMapOf s.smc f.block).length) →
        storeBand b key j s = storeBand b key j (ceaseFilling s))
    ∧ (∀ f, current f → f.filled + size ≤ 131072 →
        let image : FillingImage := { f with filled := f.filled + size, data := f.data ++ stored }
        ∃ t, storeBand b key j s = .stored t ∧ opened j.extents f.block f.filled t
          ∧ bandMapOf t.smc f.block = bandMapOf s.smc f.block ++ [entry f.filled]
          ∧ t.smc.free = s.smc.free ∧ t.smc.defects = s.smc.defects
          ∧ (f.filled + size < 131072 → t.smc.filling = some image ∧ t.smc.programming = s.smc.programming
            ∧ t.smc.ops = s.smc.ops)
          ∧ (f.filled + size = 131072 → s.smc.programming = none → t.smc.filling = none
            ∧ t.smc.programming = some { handle := f.handle, block := f.block, filled := 131072, data := image.data }
            ∧ t.smc.ops = s.smc.ops ++ [.program f.handle f.block false])
          ∧ (f.filled + size = 131072 → s.smc.programming ≠ none → t.smc.filling = some { image with handedOn := true }
            ∧ t.smc.programming = s.smc.programming ∧ t.smc.ops = s.smc.ops))
    ∧ ((s.smc.filling = none ∨ (∃ f, s.smc.filling = some f ∧ f.handedOn = true) ∨ ∃ f, current f ∧ 131072 < f.filled + size) →
        ¬ room → storeBand b key j s = .held .room s)
    ∧ (room → ((∃ f, s.smc.filling = some f ∧ f.handedOn = true)
          ∨ ((∃ f, current f ∧ 131072 < f.filled + size) ∧ s.smc.programming ≠ none)) → storeBand b key j s = .held .image s)
    ∧ (room → ∀ block rest, s.smc.free = block :: rest →
        let taken (t : State) : Prop := t.smc.free = rest
          ∧ t.smc.defects = { s.smc.defects with clean := s.smc.defects.clean.erase block }
        (s.smc.filling = none → ∃ t, storeBand b key j s = .stored t ∧ taken t ∧ opened (grown block) block 0 t
          ∧ bandMapOf t.smc block = bandMapOf s.smc block ++ [entry 0] ∧ t.smc.programming = s.smc.programming
          ∧ t.smc.filling = some { handle := b.handle, block := block, filled := size, data := stored })
        ∧ ∀ f, current f → 131072 < f.filled + size → s.smc.programming = none →
            let left := 131072 - f.filled
            ∃ t, storeBand b key j s = .stored t ∧ taken t ∧ opened (grown block) f.block f.filled t
              ∧ bandMapOf t.smc f.block = bandMapOf s.smc f.block ++ [entry f.filled]
              ∧ t.smc.programming = some { handle := f.handle, block := f.block, filled := 131072
                                           data := f.data ++ stored.take left }
              ∧ t.smc.ops = s.smc.ops ++ [.program f.handle f.block false]
              ∧ t.smc.filling = some { handle := b.handle, block := block, filled := size - left, data := stored.drop left }))
  ∧ (∀ (f : FillingImage) (s : State), s.smc.filling = some f →
      (s.smc.programming = none → ceaseFilling s = { s with smc := { s.smc with
          filling := none, ops := s.smc.ops ++ [.program f.handle f.block false]
          programming := some { handle := f.handle, block := f.block, filled := f.filled, data := f.data } } })
      ∧ (s.smc.programming ≠ none → ceaseFilling s = { s with smc := { s.smc with filling := some { f with handedOn := true } } })
      ∧ (f.handedOn = true → s.smc.programming = none → handOn s = some { s with smc := { s.smc with
          filling := none, ops := s.smc.ops ++ [.program f.handle f.block false]
          programming := some { handle := f.handle, block := f.block, filled := f.filled, data := f.data } } })
      ∧ ((f.handedOn = false ∨ s.smc.programming ≠ none) → handOn s = none))
  ∧ (∀ (b : Band) (j : Job) (front : List PageEntry) (p : PageEntry) (s : State), jobOf s.jt b.handle = some j →
      j.handle = b.handle → j.pages = front ++ [p] →
      let counted : PageEntry := { p with bands := p.bands + 1, bytes := p.bytes + b.length }
      let coverage : Planes := { k := b.covK, c := b.covC, m := b.covM, y := b.covY }
      let cls := classifyPage s.settings.meter.colourThreshold coverage
      let closed : Job := { j with pages := front ++ [{ counted with coverage := storedCoverage cls coverage, cls := some cls }]
                                   expected := some (b.page + 1, 1) }
      (b.flags % 2 = 0 → finishBand b s =
        setJob { j with pages := front ++ [counted], expected := some (b.page, b.index + 1) } s)
      ∧ (b.flags = 1 → j.kind = .print → finishBand b s = emit (.pageStored b.handle b.page) (setJob closed s))
      ∧ (b.flags = 1 → j.kind ≠ .print → ∀ a, findAccount j.owner s.accounts = some a →
        let due := s.settings.price.scanRate
        let taken := min due (available a).toNat
        let noted := if taken < due then raiseNote (.scanShortfall j.owner b.handle b.page (due - taken)) s else s
        let t := finishBand b s
        t.accounts = s.accounts.map (fun x => if x.id = j.owner then scanCharge due taken x else x)
          ∧ jobOf t.jt b.handle = some { closed with charged := min (j.charged + taken) 4294967295 }
          ∧ t.fm = noted.fm ∧ t.lif = (emit (.pageStored b.handle b.page) noted).lif ∧ t.smc = s.smc ∧ t.spm = s.spm)
      ∧ (b.flags = 3 → finishBand b s = endIntake b.handle (finishBand { b with flags := 1 } s)))
  ∧ (∀ (handle : Nat) (j : Job) (s : State), jobOf s.jt handle = some j → j.handle = handle →
      let done : Job := { j with expected := none }
      let ended := setJob done
        (if s.smc.filling.any (fun f => f.handle == handle && !f.handedOn) then ceaseFilling s else s)
      let colour : Prop := ∃ p ∈ j.pages, p.cls = some .colour
      let right : Prop := ∃ a, findAccount j.owner s.accounts = some a ∧ a.colourRight = true
      let q := queueOf s.jt (destinationOf j.kind)
      (j.priv = true → endIntake handle s =
        moveJob { done with state := .held (nowSeconds s + s.settings.limits.holdLimit * 60) } ended)
      ∧ (j.priv = false → colour → ¬ right → endIntake handle s = closeJob (.aborted .noColourRight) handle ended)
      ∧ (j.priv = false → (¬ colour ∨ right) → endIntake handle s = moveJob { done with state := .queued } { ended with
          jt := putQueue (destinationOf j.kind) { waiting := q.waiting ++ [handle], active := q.active } ended.jt }))
  ∧ (∀ (b : Band) (s : State),
      holdBand b .room s = { s with jt := { s.jt with
          held := some { band := b, reason := .room }
          stallTimer := some (s.jt.stallTimer.getD (nowMs s + s.settings.limits.intakeStallLimit * 1000)) } }
      ∧ holdBand b .image s = { s with jt := { s.jt with
          held := some { band := b, reason := .image }
          stallTimer := if s.smc.programming.any (·.phase = .needsBlock) then s.jt.stallTimer else none } })
  ∧ ∀ (h : HeldBand) (j : Job) (key : LiveKey) (s : State), s.jt.held = some h → jobOf s.jt h.band.handle = some j →
      j.state = .intake → liveKey s h.band.handle = some key →
        (∀ t, storeBand h.band key j { s with jt := { s.jt with held := none } } = .stored t →
          ((∀ p, t.smc.programming = some p → p.phase ≠ .needsBlock) → retryHeld s =
            some (finishBand h.band { t with jt := { t.jt with stallTimer := none } }))
          ∧ ((∃ p, t.smc.programming = some p ∧ p.phase = .needsBlock) → retryHeld s = some (finishBand h.band t)))
        ∧ ∀ reason t, storeBand h.band key j { s with jt := { s.jt with held := none } } = .held reason t →
          (reason = h.reason → retryHeld s = none) ∧ (reason ≠ h.reason → retryHeld s = some (holdBand h.band reason t))

/-- R122 to R125, R133, R136, R137: what a read comes to. Its codewords are taken in order, one uncorrectable read again up to
the retry limit of the read's start; the first that stays uncorrectable ends the read, and its block is unreadable. A read with
none delivers the stored band, which goes to the one who asked where its tag agrees, and is found tampered where it does not;
with no key there is no comparison. A block whose corrections reach the weak limit, or were reread, is flagged weak. R134: the
band is cut into cipher blocks of 16 bytes, each encrypted under the tweak of its page, index and number, a partial one
completed from the ciphertext of the block before it (where the two ciphertexts stand is the model's choice, log 6), and the
length stays. R134, R135: opening a sealed band under its page and index gives the band back. A read delivers the band at its
stored length; the bytes of it that the command does not give are free (the model's choice, log 28). The notes of its weak blocks
come first, in the order of the blocks, and the record of an unreadable or tampered image after them (the model's choice, log
58). -/
def Obligations.ReadsOpenSealedBands : Prop :=
  (∀ (q : ReadRequest) (place : BandPlace) (physical : List Nat) (retries weakLimit : Nat) (r : BandRead) (s : State),
      s.powered = true → s.smc.inFlight = some (.read q place physical retries weakLimit) →
        let idle := { s with smc := { s.smc with inFlight := none } }
        let blocks := placeCodewords place
        let outcomes (k : Nat) : List (Option Nat) := r.codewords.getD k []
        let dead (k : Nat) : Prop := k < blocks.length ∧ outcomes k ≠ [] ∧ ∀ x ∈ (outcomes k).take (retries + 1), x = none
        let weakened (n : Nat) : State := (placeBlocks place).foldl (findWeak weakLimit
          ((List.range n).map fun k => (blocks.getD k 0, codewordResult retries (outcomes k)))) idle
        let whole := weakened blocks.length
        ((∀ k, ¬ dead k) → ∃ band : List Byte, band.length = place.length ∧ (∀ n, n < place.length → n < r.stored.length →
              band[n]? = r.stored[n]?)
          ∧ (liveKey s q.handle = none → exec (.readComplete r) s = .next (settle (handResult q .noKey whole)))
          ∧ ∀ key, liveKey s q.handle = some key →
            (∀ plain, openBand key q.page q.index band = some plain →
              exec (.readComplete r) s = .next (settle (handResult q (.data plain) whole)))
            ∧ (openBand key q.page q.index band = none →
              exec (.readComplete r) s = .next (settle (handResult q (.failed place.block) (findTampered q place whole)))))
        ∧ ∀ k, dead k → (∀ m, m < k → ¬ dead m) → exec (.readComplete r) s = .next (settle
            (handResult q (.failed (blocks.getD k 0)) (findUnreadable q (blocks.getD k 0) (weakened k)))))
  ∧ (∀ (retries n : Nat) (rereads : List (Option Nat)),
      codewordResult retries [] = .corrected 0 ∧ codewordResult retries (some n :: rereads) = .corrected n
        ∧ (∀ k, k < retries → rereads[k]? = some (some n) → (∀ m, m < k → rereads[m]? = some none) →
          codewordResult retries (none :: rereads) = .reread n)
        ∧ ((∀ x ∈ rereads.take retries, x = none) → codewordResult retries (none :: rereads) = .uncorrectable))
  ∧ (∀ (limit : Nat) (results : List (Nat × CodewordResult)) (block : Nat) (s : State),
      let weak : Prop := ∃ x ∈ results, x.1 = block ∧ ((∃ n, x.2 = .corrected n ∧ limit ≤ n) ∨ ∃ n, x.2 = .reread n)
      (weak → block ∉ s.smc.weak → ∃ greatest, (greatest = 0 ∨ (block, .corrected greatest) ∈ results
            ∨ (block, .reread greatest) ∈ results)
          ∧ (∀ n, ((block, .corrected n) ∈ results ∨ (block, .reread n) ∈ results) → n ≤ greatest)
          ∧ findWeak limit results s block =
            raiseNote (.eccWeak block greatest) { s with smc := { s.smc with weak := s.smc.weak ++ [block] } })
      ∧ ((¬ weak ∨ block ∈ s.smc.weak) → findWeak limit results s block = s))
  ∧ (∀ (handle page : Nat) (s : State), 1 ≤ page →
      (∀ j, jobOf s.jt handle = some j → flagPage handle page s =
        setJob { j with pages := j.pages.modify (page - 1) fun p => { p with marked := true } } s)
      ∧ (jobOf s.jt handle = none → flagPage handle page s = s))
  ∧ (∀ (q : ReadRequest) (block : Nat) (s : State),
      let live : Prop := ∃ j, jobOf s.jt q.handle = some j ∧ isLive j = true
      let marked : State := { s with smc := { s.smc with marked := s.smc.marked ++ [(block, .media)] } }
      let fault : JobFault :=
        { code := .imageUnreadable, handle := q.handle, page := q.page, block := block, addrValid := true }
      (markOf s.smc block = none → live →
        findUnreadable q block s = raiseJobFault fault (flagPage q.handle q.page marked))
      ∧ (markOf s.smc block ≠ none → live → findUnreadable q block s = flagPage q.handle q.page s)
      ∧ (markOf s.smc block = none → ¬ live → findUnreadable q block s = marked)
      ∧ (markOf s.smc block ≠ none → ¬ live → findUnreadable q block s = s))
  ∧ (∀ (q : ReadRequest) (place : BandPlace) (s : State),
      let live : Prop := ∃ j, jobOf s.jt q.handle = some j ∧ isLive j = true
      let fault : JobFault :=
        { code := .imageTampered, handle := q.handle, page := q.page, block := place.block, addrValid := true }
      ∃ m : List (Nat × MarkOrigin),
        let marked : State := { s with smc := { s.smc with marked := m } }
        (∀ b, (b ∈ placeBlocks place → markOf s.smc b = none → markOf marked.smc b = some .cipher)
            ∧ ((b ∉ placeBlocks place ∨ markOf s.smc b ≠ none) → markOf marked.smc b = markOf s.smc b))
          ∧ (live → findTampered q place s = raiseJobFault fault (flagPage q.handle q.page marked))
          ∧ (¬ live → findTampered q place s = flagPage q.handle q.page marked))
  ∧ ∀ (k : LiveKey) (page index : Nat) (plain : List Byte),
      openBand k page index (sealBand k page index plain) = some plain
        ∧ (sealBand k page index plain).length = plain.length + 16
        ∧ (let cipher := encryptBand k.encKey page index plain
           let block (i : Nat) (bytes : List Byte) : List Byte := encryptBlock k.encKey { page := page, index := index, block := i } bytes
           let piece (i : Nat) (bytes : List Byte) : List Byte := (bytes.drop (16 * i)).take 16
           cipher.length = plain.length
           ∧ sealBand k page index plain = cipher ++ bytesOf 16 (bandTag k.tagKey page index cipher)
           ∧ (plain.length ≤ 16 → cipher = block 0 plain)
           ∧ (∀ i, 16 * i + 16 ≤ plain.length → (plain.length % 16 = 0 ∨ 16 * i + 32 ≤ plain.length) →
              piece i cipher = block i (piece i plain))
           ∧ ∀ i m, 0 < m → m < 16 → plain.length = 16 * i + 16 + m →
              let before := block i (piece i plain)
              piece i cipher = block (i + 1) (plain.drop (16 * i + 16) ++ before.drop m)
                ∧ cipher.drop (16 * i + 16) = before.take m)

/-- R117 to R120, R145 to R148, R151: the ends of a program, an erase and a verify; what a failure leaves is FailuresHandled. A
verify passes where every byte it read of the codewords and of the spare area is FFh; that the command carries those bytes is
the model's choice (log 43). -/
def Obligations.PortOperationsEnd : Prop :=
  ∀ (ok : Bool) (r : VerifyRead) (s : State), s.powered = true →
    (∀ handle block second physical, s.smc.inFlight = some (.program handle block second physical) →
      let idle := { s with smc := { s.smc with inFlight := none, programming := none } }
      (ok = true → exec (.programComplete ok) s = .next (settle idle))
      ∧ (ok = false → ∀ p, s.smc.programming = some p → (∃ j, jobOf s.jt handle = some j ∧ isLive j = true) →
        (second = false → exec (.programComplete ok) s = .next (settle (firstFailure p idle)))
        ∧ (second = true → exec (.programComplete ok) s = .next (settle (secondFailure p idle))))
      ∧ (ok = false → (∀ j, jobOf s.jt handle = some j → isLive j = false) →
        exec (.programComplete ok) s = .next (settle (closedJobFailure block idle))))
    ∧ (∀ block physical w, s.smc.inFlight = some (.erase block physical) → s.se.work = some w →
      let idle := { s with smc := { s.smc with inFlight := none } }
      (w.block ∈ s.smc.weak → exec (.eraseComplete ok) s = .next (settle (endWork (retireScrubbed .weak w.block idle))))
      ∧ (w.block ∉ s.smc.weak → ok = true → exec (.eraseComplete ok) s = .next (settle (enterOp (.verify w.block)
          { idle with se := { idle.se with work := some { block := w.block, verifying := true, second := w.second } } })))
      ∧ (w.block ∉ s.smc.weak → ok = false → exec (.eraseComplete ok) s = .next (settle (failedPass w idle))))
    ∧ (∀ block physical w, s.smc.inFlight = some (.verify block physical) → s.se.work = some w →
      let idle := { s with smc := { s.smc with inFlight := none } }
      (w.block ∈ s.smc.weak → exec (.verifyComplete r) s = .next (settle (endWork (retireScrubbed .weak w.block idle))))
      ∧ (w.block ∉ s.smc.weak → (∀ x ∈ r.data ++ r.spare, x.2 = 0xFF) →
        exec (.verifyComplete r) s = .next (settle (returnClean w.block idle)))
      ∧ (w.block ∉ s.smc.weak → (∃ x ∈ r.data ++ r.spare, x.2 ≠ 0xFF) →
        exec (.verifyComplete r) s = .next (settle (failedPass w idle))))
    ∧ (∀ block physical, s.se.work = none →
      let idle := { s with smc := { s.smc with inFlight := none } }
      (s.smc.inFlight = some (.erase block physical) → exec (.eraseComplete ok) s = .next (settle idle))
      ∧ (s.smc.inFlight = some (.verify block physical) → exec (.verifyComplete r) s = .next (settle idle)))

/-- R111: a remap pairs the lowest-numbered unused spare, with SPARES_LOW at 128, 16 and 0 left, and is refused where the block
has an entry or no spare is left. R118: a first failure of a program remaps, moves the image to a fresh block, or waits with the
intake stall timer, until room arrives. R119: a second one remaps or retires the block and aborts the job, naming the page in
intake (between two pages the one expected next, the model's choice, log 20), with the note of the block's handling before the
record (the model's choice, log 51). R120: a failure for a closed job. R146: a failed pass of the scrub. -/
def Obligations.FailuresHandled : Prop :=
  let paired (block spare : Nat) (s : State) : State :=
    setDefects { s.smc.defects with remap := s.smc.defects.remap ++ [(block, spare)] } s
  (∀ (block : Nat) (s : State), s.smc.defects.remap.length ≤ 2048 →
      (((∃ p ∈ s.smc.defects.remap, p.1 = block) ∨ ∀ n, n < 2048 → ∃ p ∈ s.smc.defects.remap, p.2 = 30720 + n) →
        remapBlock block s = none)
      ∧ ∀ n, (∀ p ∈ s.smc.defects.remap, p.1 ≠ block) → n < 2048 → (∀ p ∈ s.smc.defects.remap, p.2 ≠ 30720 + n) →
          (∀ m, m < n → ∃ p ∈ s.smc.defects.remap, p.2 = 30720 + m) →
          let left := 2047 - s.smc.defects.remap.length
          ((left = 128 ∨ left = 16 ∨ left = 0) →
            remapBlock block s = some (raiseNote (.sparesLow left) (paired block (30720 + n) s)))
          ∧ (left ≠ 128 → left ≠ 16 → left ≠ 0 → remapBlock block s = some (paired block (30720 + n) s)))
  ∧ (∀ (p : ProgrammingImage) (s : State),
      (∀ u, remapBlock p.block s = some u → firstFailure p s = { u with smc := { u.smc with
          ops := u.smc.ops ++ [.program p.handle p.block true]
          programming := some { p with second := true, phase := .waiting } } })
      ∧ ∀ j, jobOf s.jt p.handle = some j → j.handle = p.handle →
          let moves (t : State) : Prop := ∀ fresh rest, s.smc.free = fresh :: rest →
            let extents := cutExtents p.block fresh j.extents
            let noted := raiseNote (.blockRetired p.block .program) s
            t.smc.programming = some { p with block := fresh, second := true, phase := .waiting }
              ∧ t.smc.ops = s.smc.ops ++ [.program p.handle fresh true] ∧ t.smc.free = rest
              ∧ jobOf t.jt p.handle = some { j with extents := extents, pages := j.pages.map (relocate j.extents extents) }
              ∧ (∀ b, b ∈ t.smc.defects.retired ↔ b = p.block ∨ b ∈ s.smc.defects.retired)
              ∧ t.smc.defects.clean = s.smc.defects.clean.erase fresh ∧ t.smc.defects.remap = s.smc.defects.remap
              ∧ t.ps.defects = written .defects t.smc.defects
              ∧ ((∀ b ∈ s.smc.bandMaps, b.1 ≠ fresh) → bandMapOf t.smc fresh = bandMapOf s.smc p.block)
              ∧ ((∀ h, s.jt.held = some h → h.reason ≠ .room) → t.jt.stallTimer = none)
              ∧ ((∃ h, s.jt.held = some h ∧ h.reason = .room) → t.jt.stallTimer = s.jt.stallTimer)
              ∧ t.fm = noted.fm ∧ t.lif = noted.lif
          let room : Prop := ∃ fresh rest, s.smc.free = fresh :: rest ∧ p.block ≠ fresh
            ∧ extentsUsed s.jt + (cutExtents p.block fresh j.extents).length ≤ 4096 + j.extents.length
          let full : Prop := s.smc.free = [] ∨ ∃ fresh rest, s.smc.free = fresh :: rest
            ∧ 4096 + j.extents.length < extentsUsed s.jt + (cutExtents p.block fresh j.extents).length
          (remapBlock p.block s = none → room → moves (firstFailure p s))
          ∧ (s.smc.programming = some p → p.phase = .needsBlock →
              (room → ∃ t, moveImage s = some t ∧ moves t) ∧ (full → moveImage s = none))
          ∧ (remapBlock p.block s = none → full →
            firstFailure p s = { s with
              smc := { s.smc with programming := some { p with phase := .needsBlock } }
              jt := { s.jt with
                stallTimer := some (s.jt.stallTimer.getD (nowMs s + s.settings.limits.intakeStallLimit * 1000)) } }))
  ∧ (∀ (p : ProgrammingImage) (j : Job) (s : State), jobOf s.jt p.handle = some j →
      let dropped := { s with smc := { s.smc with programming := none } }
      let page := match j.expected with
        | some place => place.1
        | none => 0
      let fault : JobFault := { code := .mediaWrite, handle := p.handle, page := page, block := p.block, addrValid := true }
      (∀ u, remapBlock p.block dropped = some u →
        secondFailure p s = closeJob (.aborted .mediaWrite) p.handle (raiseJobFault fault u))
      ∧ (remapBlock p.block dropped = none → secondFailure p s =
        closeJob (.aborted .mediaWrite) p.handle (raiseJobFault fault (retireBlock .program p.block dropped))))
  ∧ (∀ (block : Nat) (s : State),
      (∀ u, remapBlock block s = some u → closedJobFailure block s = u)
      ∧ (remapBlock block s = none →
        ((∀ w, s.se.work = some w → w.block ≠ block) → closedJobFailure block s = retireScrubbed .program block s)
        ∧ ((∃ w, s.se.work = some w ∧ w.block = block) → closedJobFailure block s = retireScrubbed .program block { s with
            se := { s.se with work := none }
            smc := { s.smc with ops := s.smc.ops.filter fun op => decide (op ≠ .erase block) } })))
  ∧ ∀ (w : BlockInWork) (s : State),
      let again (second : Bool) (u : State) : State := { u with
        se := { u.se with work := some { block := w.block, verifying := false, second := second } }
        smc := { u.smc with ops := u.smc.ops ++ [.erase w.block] } }
      (w.second = false → failedPass w s = again true s)
      ∧ (w.second = true → ∀ u, remapBlock w.block s = some u → failedPass w s = again false u)
      ∧ (w.second = true → remapBlock w.block s = none →
        let u := retireScrubbed .scrub w.block s
        failedPass w s = { u with se := { u.se with work := none } })

/-- R118: the extent list with a fresh block in the place of a failed one holds the same blocks in the same order, but for that
one block, and each page's location names the same byte as before. -/
def Obligations.MovedExtentsKeepPlaces : Prop :=
  ∀ (old fresh : Nat) (extents : List Extent),
    (extentBlocks extents).Nodup →
      extentBlocks (cutExtents old fresh extents) = (extentBlocks extents).map (fun b => if b = old then fresh else b)
        ∧ ∀ p : PageEntry,
            linearOf extents p.extent p.offset < (extentBlocks extents).length * 131072 →
            linearOf (cutExtents old fresh extents) (relocate extents (cutExtents old fresh extents) p).extent
              (relocate extents (cutExtents old fresh extents) p).offset = linearOf extents p.extent p.offset

/-! ### Faults and halt -/

/-- R160, R168: FAULT_ACK with a fault number and with HALT_RECORD. That the reply's figures are those before what the reopened
intake link does is the model's choice (log 47). -/
def Obligations.FaultAcknowledged : Prop :=
  ∀ (tag : Byte) (number : Nat) (s : State), Serving s →
    (number = 0 → exec (.faultAck tag number) s = .next (answered .faultAck tag .badField .empty s))
    ∧ (number ≠ 0 → (∀ q ∈ s.fm.queue, q.record.number ≠ number) →
        exec (.faultAck tag number) s = .next (answered .faultAck tag .wrongState .empty s))
    ∧ (number ≠ 0 → (∃ q ∈ s.fm.queue, q.record.number = number) →
        let left := s.fm.queue.filter (·.record.number != number)
        (s.fm.backlog = true → left.length = 3 →
          exec (.faultAck tag number) s = .next (answered .faultAck tag .ok (.acknowledged 3 false s.fm.overflow)
            (settle (askPart (evaluatePermit { s with fm := { s.fm with queue := left, backlog := false, overflow := 0 } })))))
        ∧ ((s.fm.backlog = false ∨ left.length ≠ 3) →
          exec (.faultAck tag number) s = .next (answered .faultAck tag .ok
            (.acknowledged left.length s.fm.backlog s.fm.overflow) { s with fm := { s.fm with queue := left } })))
    ∧ (s.fm.haltRecord = none → exec (.faultAckHaltRecord tag) s = .next (answered .faultAck tag .wrongState .empty s))
    ∧ (s.fm.haltRecord ≠ none → exec (.faultAckHaltRecord tag) s = .next (answered .faultAck tag .ok .empty
        (askPart { s with fm := { s.fm with haltRecord := none }, ps := writeHalt .blank s.ps })))

/-- R157 to R159: a JOB condition makes a record under a number no queued record has, which becomes the job's last fault; it
takes the lowest free place of the fault queue with its notice, or, with four records in it, only counts, and the first such
sets the backlog. R161: a NOTE condition makes a record, counts in its code's tally and sends its notice, and touches nothing
else. -/
def Obligations.FaultConditions : Prop :=
  (∀ (f : JobFault) (s : State), FaultsOk s.fm →
      let t := raiseJobFault f s
      ∃ record : JobRecord, record.fault = f ∧ record.instant = nowMs s ∧ 1 ≤ record.number ∧ record.number ≤ 65535
        ∧ (∀ r ∈ s.fm.queue, r.record.number ≠ record.number)
        ∧ (∀ j, jobOf s.jt f.handle = some j → t.jt = putJob { j with lastFault := some record } s.jt)
        ∧ (jobOf s.jt f.handle = none → t.jt = s.jt)
        ∧ t.fm.notes = s.fm.notes ∧ t.fm.haltRecord = s.fm.haltRecord ∧ t.fm.part = s.fm.part
        ∧ (s.fm.queue.length < 4 → ∃ place, place < 4 ∧ (∀ r ∈ s.fm.queue, r.place ≠ place)
            ∧ (∀ n, n < place → ∃ r ∈ s.fm.queue, r.place = n)
            ∧ t.fm.queue = s.fm.queue ++ [{ place := place, record := record }]
            ∧ t.fm.overflow = s.fm.overflow ∧ t.fm.backlog = s.fm.backlog
            ∧ t.lif = (emit (.faultQueued { place := place, record := record }) s).lif ∧ t.spm = s.spm)
        ∧ (s.fm.queue.length = 4 → t.fm.queue = s.fm.queue ∧ t.fm.overflow = min (s.fm.overflow + 1) 255
            ∧ t.fm.backlog = true ∧ (s.fm.backlog = false → t.spm.feedPermit = false ∧ t.lif = (emit (.part (partContent t)) s).lif)
            ∧ (s.fm.backlog = true → t.lif = s.lif ∧ t.spm = s.spm)))
    ∧ ∀ (n : Note) (s : State), FaultsOk s.fm →
      let t := raiseNote n s
      ∃ record : NoteRecord, record.note = n ∧ record.instant = nowMs s ∧ 1 ≤ record.number ∧ record.number ≤ 65535
        ∧ (∀ r ∈ s.fm.queue, r.record.number ≠ record.number)
        ∧ t.fm.notes.get (noteCode n) = { tally := min ((s.fm.notes.get (noteCode n)).tally + 1) 65535, latest := some record }
        ∧ (∀ c, c ≠ noteCode n → t.fm.notes.get c = s.fm.notes.get c)
        ∧ t.fm.queue = s.fm.queue ∧ t.fm.overflow = s.fm.overflow ∧ t.fm.backlog = s.fm.backlog
        ∧ t.fm.haltRecord = s.fm.haltRecord ∧ t.fm.part = s.fm.part ∧ t.lif = (emit (.faultNote record) s).lif
        ∧ t = { s with fm := t.fm, lif := t.lif }

/-- R164 to R168: what a HALT condition leaves: every key slot ZERO, every live job in SCRUB as ABORTED(HALT) with its lists
empty, no sheet in the path, every reservation released and no permit; nothing waits at the bus or the port, of which neither
starts anything, the scrub stops, and the halt record stands in HALT, of which the jobs closed are the jobs live when the halt
is taken (the model's choice, log 37). What it keeps: the fault queue, the path state, the jam record, the pending request, and
the slot records but for the closed jobs' handles in their drawing lists, which R99 takes out (the model's choice, log 53), and a
job already in SCRUB but for its in-flight count, which is 0 with the queue empty (R9); the note tallies stand but for the notes
of a discarded band or block. What it sends: a JOB_STATE notice for each job closed by it, the DONE
notices and the PART notice, asked for in that order (the model's choice, log 44); and the notice of a job closed before it in the
same event, with sheets in flight, takes its final content (DEDUCED, log 70). -/
def Obligations.HaltStopsThePart : Prop :=
  ∀ (cause : HaltCause) (s : State), s.fm.part ≠ .halted →
    let t := haltPart cause s
    t.fm.part = .halted ∧ (∀ i : Fin 64, t.bc.keys.get i = none) ∧ t.bc.serving = false ∧ t.spm.sheets = []
      ∧ t.spm.staging = [] ∧ t.spm.feedPermit = false ∧ t.cbc.flight = none ∧ t.cbc.work = [] ∧ t.smc.ops = []
      ∧ t.se.work = none ∧ t.se.sanitize = none ∧ t.startUp = none ∧ t.jt.engine = {} ∧ t.jt.exporter = {}
      ∧ t.jt.held = none ∧ t.jt.stallTimer = none ∧ t.smc.filling = none ∧ t.smc.programming = none
      ∧ startPort t = none ∧ takeScrub t = none ∧ startBus t = none
      ∧ t.accounts = s.accounts.map (fun a => { a with
          reserved := s.spm.sheets.foldl (fun r sh => if sh.owner = a.id then r - sh.cost else r) a.reserved })
      ∧ ((∀ i, SlotOk s i) → ∀ j ∈ allJobs s.jt,
          (isLive j = true → jobOf t.jt j.handle = some { j with
              state := .scrub (.aborted .halt), expected := none, pages := [], extents := [], inFlight := 0 }
            ∧ (let tallies : JobTallies := { kind := j.kind, owner := j.owner, pages := 0, delivered := j.delivered,
                                              inFlight := 0, charged := j.charged }
               Entry.notice (.jobState (slotOf j.handle)
                { handle := j.handle, stage := .scrub (.aborted .halt), tallies := some tallies }) ∈ t.lif.out))
          ∧ (isLive j = false → jobOf t.jt j.handle = some { j with inFlight := 0 })
          ∧ (∀ o, j.state = .scrub o → 0 < j.inFlight → j.handle ∈ s.jt.closedNow →
              let tallies : JobTallies := { kind := j.kind, owner := j.owner, pages := j.pages.length, delivered := j.delivered,
                                            inFlight := 0, charged := j.charged }
              Entry.notice (.jobState (slotOf j.handle)
                { handle := j.handle, stage := .scrub o, tallies := some tallies }) ∈ t.lif.out))
      ∧ (∀ j ∈ allJobs t.jt, j.inFlight = 0)
      ∧ (∀ z, s.se.sanitize = some z →
          Entry.notice (.done z.tag true (.sanitize z.wipe z.returned z.retired)) ∈ t.lif.out)
      ∧ (∀ u tag, s.startUp = some u → u.tag = some tag → Entry.notice (.done tag true .restart) ∈ t.lif.out)
      ∧ Entry.notice (.part (partContent t)) ∈ t.lif.out
      ∧ (let live := ((allJobs s.jt).filter isLive).map (·.handle)
         let entered := evaluatePermit { s with
           startUp := none
           fm := { s.fm with part := .halted, nextNumber := takeNumber s.fm % 65535 + 1 }
           bc := { s.bc with keys := Vector.replicate 64 none, serving := false } }
         let closed := live.foldl closeByHalt entered
         let cut : List Job := ((allJobs s.jt).filter fun j =>
           !isLive j && decide (0 < j.inFlight) && s.jt.closedNow.contains j.handle).map fun j => { j with inFlight := 0 }
         let told := cut.foldl (fun v j => askJobState j v) closed
         ∃ u r, u.lif = told.lif ∧ entered.lif = s.lif ∧ u.se.sanitize = s.se.sanitize
           ∧ t = askPart (setHaltRecord r (reportStartUp true s.startUp (endSanitize true u))))
      ∧ t.fm.queue = s.fm.queue ∧ t.fm.overflow = s.fm.overflow ∧ t.fm.backlog = s.fm.backlog
      ∧ (s.jt.held = none → (∀ p, s.smc.programming = some p → p.phase ≠ .needsBlock) → t.fm.notes = s.fm.notes)
      ∧ t.spm.jammed = s.spm.jammed ∧ t.spm.jam = s.spm.jam ∧ t.spm.doorOpen = s.spm.doorOpen
      ∧ t.spm.requestPending = s.spm.requestPending ∧ t.jt.waiting = s.jt.waiting
      ∧ t.cbc.history = s.cbc.history ∧ t.cbc.lifetime = s.cbc.lifetime
      ∧ (∀ i : Fin 4, ∃ d, t.cbc.slots.get i = { s.cbc.slots.get i with drawing := d }
          ∧ d = (allJobs s.jt).foldl (fun held j => if isLive j then held.erase j.handle else held)
            (s.cbc.slots.get i).drawing)
      ∧ (∀ handle block second physical, s.smc.inFlight = some (.program handle block second physical) →
          t.smc.inFlight = s.smc.inFlight)
      ∧ ∃ r, t.fm.haltRecord = some r ∧ t.ps.halt = written .halt r ∧ r.cause = cause ∧ r.phase = s.fm.part
          ∧ r.instant = nowMs s ∧ r.jobsClosed = (allJobs s.jt).countP isLive
          ∧ r.halts = (match s.fm.haltRecord with
            | some before => min (before.halts + 1) 255
            | none => 1)

/-! ### Store, power and start-up -/

/-- R175: STORE_LOCK sets the locks it names, with their write to KEYS, and clears none. Which bit of the byte names which lock
is the model's choice (log 21). -/
def Obligations.StoreLockSets : Prop :=
  (∀ (tag : Byte) (locks : Nat) (s : State), Serving s →
    ((locks = 0 ∨ 7 < locks) → exec (.storeLock tag locks) s = .next (answered .storeLock tag .badField .empty s))
    ∧ (1 ≤ locks → locks ≤ 7 →
        let new : Locks :=
          { settings := (locksOf s).settings || locks.testBit 0, keys := (locksOf s).keys || locks.testBit 1
            audit := (locksOf s).audit || locks.testBit 2 }
        (new = locksOf s → exec (.storeLock tag locks) s = .next (answered .storeLock tag .ok (.locks new) s))
        ∧ (new ≠ locksOf s → exec (.storeLock tag locks) s = .next (answered .storeLock tag .ok (.locks new)
            (setKeys { keysOf s with locks := new } s)))))
    ∧ ∀ (k : KeysContent) (s : State), setKeys k s = { s with ps := { s.ps with
        keys := written .keys k, loadedKeys := some k, journal := .keys s.ps.keys :: s.ps.journal } }

/-- R171, R181, R184, R194: POWER_ON, RESET_INPUT, POWER_LOSS and both forms of RESTART, and what the beginning of a start-up
leaves: the store, the inputs and the DONE notices a RESTART keeps. A cut among the writes of the event it falls within leaves
those not begun as they were, breaks the one it falls within, and keeps those before it. The model's choices: POWER_ON of a
powered part, and what POWER_LOSS leaves (log 2); the bands kept waiting (log 14); a key slot that does not read back as zero,
which stays as it is (log 13); the cut among the writes (log 24); the default settings before step 1 (log 25); no PART notice of
the change to STARTING (log 42). -/
def Obligations.PowerAndRestart : Prop :=
  (∀ s : State, exec .powerOn s = .next { beginStartUp false none [] s with powered := true })
  ∧ (∀ (cut : StoreCut) (s : State), s.powered = true →
      exec (.resetInput cut) s = .next (beginStartUp false none [] { s with ps := cutStore cut s.ps })
        ∧ exec (.powerLoss cut) s = .next { beginStartUp false none []
            { s with ps := cutStore cut s.ps, lif := { s.lif with transfer := none } } with powered := false, startUp := none })
  ∧ (∀ (tag : Byte) (s : State), s.powered = true → unreadReplies s.lif < 8 → s.fm.part ≠ .starting →
      exec (.restart tag) s = .next (answered .restart tag .accepted .empty
        (beginStartUp false (some tag) (s.lif.out.filter isDone) s))
      ∧ (s.fm.part = .halted → exec (.restartWipe tag) s = .next (answered .restart tag .accepted .empty
        (beginStartUp true (some tag) (s.lif.out.filter isDone) s)))
      ∧ (s.fm.part = .running → exec (.restartWipe tag) s = .next (answered .restart tag .wrongState .empty s)))
  ∧ (∀ (wipe : Bool) (tag : Option Byte) (kept : List Entry) (s : State),
      let t := beginStartUp wipe tag kept s
      t.startUp = some { step := 1, wipe := wipe, tag := tag } ∧ nowMs t = 0 ∧ t.fm = {} ∧ t.jt = { waiting := s.jt.waiting }
        ∧ t.accounts = [] ∧ t.settings = {} ∧ t.cbc = {} ∧ t.smc = {} ∧ t.se = {} ∧ (∀ i : Fin 64, t.bc.keys.get i = none)
        ∧ t.bc.serving = false ∧ t.bc.health = {} ∧ t.bc.stuck = s.bc.stuck
        ∧ t.spm.sheets = [] ∧ t.spm.staging = [] ∧ t.spm.requestPending = false ∧ t.spm.feedPermit = false
        ∧ t.spm.jammed = false ∧ t.spm.jam = none ∧ t.spm.doorOpen = false ∧ t.spm.engineOut = none
        ∧ (∀ ch, channelOf t.spm ch = { input := (channelOf s.spm ch).input, above := none, level := none, since := none })
        ∧ t.ps = { s.ps with loadedKeys := none, results := {}, journal := [] }
        ∧ t.lif.out = kept ∧ t.lif.attn = !kept.isEmpty ∧ t.lif.overrun = false ∧ t.lif.frameErrors = 0 ∧ t.lif.dropped = 0
        ∧ t.pending = s.pending
        ∧ t.lif.transfer = s.lif.transfer.map (fun x => { x with cut := true }))
  ∧ (∀ (ps : Store) (cut : StoreCut), ps.journal = [] → cutStore cut ps = ps)
  ∧ (∀ (ps : Store) (w : StoreWrite) (rest : List StoreWrite) (n : Nat) (torn : Bool), ps.journal = w :: rest →
      cutStore { undone := 0, torn := false } ps = { ps with journal := [] }
        ∧ cutStore { undone := 0, torn := true } ps = { tearWrite ps w with journal := [] }
        ∧ cutStore { undone := n + 1, torn := torn } ps =
          cutStore { undone := n, torn := torn } { undoWrite ps w with journal := rest })
  ∧ (∀ (ps : Store) (p : Partition (List Account)), undoWrite ps (.accounts p) = { ps with accounts := p }
      ∧ tearWrite ps (.accounts p) = { ps with accounts := .broken }
      ∧ writeAccounts p ps = { ps with accounts := p, journal := .accounts ps.accounts :: ps.journal })
  ∧ (∀ (ps : Store) (p : Partition Defects), undoWrite ps (.defects p) = { ps with defects := p }
      ∧ tearWrite ps (.defects p) = { ps with defects := .broken }
      ∧ writeDefects p ps = { ps with defects := p, journal := .defects ps.defects :: ps.journal })
  ∧ (∀ (ps : Store) (p : Partition Settings), undoWrite ps (.settings p) = { ps with settings := p }
      ∧ tearWrite ps (.settings p) = { ps with settings := .broken }
      ∧ writeSettings p ps = { ps with settings := p, journal := .settings ps.settings :: ps.journal })
  ∧ (∀ (ps : Store) (p : Partition HistoryContent), undoWrite ps (.history p) = { ps with history := p }
      ∧ tearWrite ps (.history p) = { ps with history := .broken }
      ∧ writeHistory p ps = { ps with history := p, journal := .history ps.history :: ps.journal })
  ∧ (∀ (ps : Store) (p : Partition KeysContent), undoWrite ps (.keys p) = { ps with keys := p }
      ∧ tearWrite ps (.keys p) = { ps with keys := .broken }
      ∧ writeKeys p ps = { ps with keys := p, journal := .keys ps.keys :: ps.journal })
  ∧ ∀ (ps : Store) (p : Partition HaltRecord), undoWrite ps (.halt p) = { ps with halt := p }
      ∧ tearWrite ps (.halt p) = { ps with halt := .broken }
      ∧ writeHalt p ps = { ps with halt := p, journal := .halt ps.halt :: ps.journal }

/-- R30, R49, R69, R109, R114, R141, R172, R173, R182 to R184: the end of each step of a start-up. Step 1 checks the partitions
in their order, each with its result, whatever the others came to: one that passes is loaded as it stands, but for HISTORY,
ACCOUNTS and DEFECTS, which steps 5, 3 and 4 load; a failure restores SETTINGS to its defaults and HISTORY to nothing with their notes,
records a lost halt, and halts the part at ACCOUNTS, KEYS and DEFECTS; a wipe restart rewrites the store, where that a DEFECTS
that passes keeps the result PASSED is DEDUCED (log 34). Step 2 draws a device key where KEYS holds none. The model's choices:
all of a step happens at the command that ends it (log 35); damage and the self-test's outcome come with that command (log 23);
at the entry into RUNNING, PREVIOUS_HALT, PART and DONE come in that order, before what the entry sets off (log 58).
-/
def Obligations.StartUpSteps : Prop :=
  (∀ (u : StartUp) (finding : StepFinding) (s : State), s.powered = true → s.startUp = some u →
      (u.step = 1 → u.wipe = false → exec (.startUpStepEnd finding) s = .next (checkStore finding.damaged s))
      ∧ (u.step = 1 → u.wipe = true → ∃ t result, exec (.startUpStepEnd finding) s = .next t
          ∧ t.startUp = some { u with step := 2 } ∧ t.settings = {} ∧ t.ps.settings = written .settings {}
          ∧ t.ps.accounts = .blank ∧ t.ps.history = .blank ∧ t.ps.keys = .blank ∧ t.ps.halt = .blank
          ∧ t.fm.haltRecord = none ∧ t.fm.notes = s.fm.notes ∧ t.ps.loadedKeys = some {} ∧ t.se = s.se
          ∧ t.ps.results = { accounts := some .wiped, defects := some result, settings := some .wiped
                             history := some .wiped, keys := some .wiped, halt := some .wiped }
          ∧ (s.ps.defects = .blank → t.ps.defects = .blank ∧ result = .blank)
          ∧ (∀ d, s.ps.defects = written .defects d → .defects ∉ finding.damaged →
              t.ps.defects = written .defects { d with clean := [] } ∧ result = .passed)
          ∧ (Fails .defects (.defects ∈ finding.damaged) s.ps.defects → t.ps.defects = .blank ∧ result = .wiped)
          ∧ (s.ps.halt = .blank → t.lif = s.lif)
          ∧ (s.ps.halt ≠ .blank → t.lif = (askPart { s with fm := { s.fm with haltRecord := none } }).lif)
          ∧ t.spm = { s.spm with
              feed := initialLevel {} s.spm.feed, exit := initialLevel {} s.spm.exit
              supply := initialLevel { code := 186, filter := .two } s.spm.supply })
      ∧ (u.step = 2 → finding.cipherOk = false →
          exec (.startUpStepEnd finding) s = .next (haltPart (.cipherSelftest .startUp) s))
      ∧ (u.step = 2 → finding.cipherOk = true →
          (∀ test t, testSource s = (some test, t) →
            exec (.startUpStepEnd finding) s = .next (haltPart (.randomSource test .startUpTest) t))
          ∧ (∀ t, testSource s = (none, t) → s.fm.part ≠ .halted →
            let served := { t with bc := { t.bc with serving := true } }
            let third (v : State) : State := { v with startUp := some { u with step := 3 } }
            ((keysOf s).device ≠ none → exec (.startUpStepEnd finding) s = .next (third served))
            ∧ ((keysOf s).device = none →
              (∀ key v, draw32 served = (.ok key, v) →
                exec (.startUpStepEnd finding) s = .next (third (setKeys { keysOf s with device := some key } v)))
              ∧ ∀ test v, draw32 served = (.error test, v) →
                exec (.startUpStepEnd finding) s = .next (haltPart (.randomSource test .deviceKey) v))))
      ∧ (u.step = 3 → ∀ table, Stands .accounts s.ps.accounts [] table →
          ∃ t, exec (.startUpStepEnd finding) s = .next t ∧ t.startUp = some { u with step := 4 }
            ∧ t.accounts = table.map (fun a => { a with
                reserved := 0
                standing := match a.standing with
                  | .lockedOut _ => .lockedOut (s.settings.limits.lockoutTime * 60)
                  | .active => .active
                  | .suspended => .suspended })
            ∧ Stands .accounts t.ps.accounts [] t.accounts)
      ∧ (u.step = 4 → ∀ d : Defects, Stands .defects s.ps.defects {} d → d.clean.Pairwise (· < ·) → d.retired.Pairwise (· < ·) →
          ∃ t, exec (.startUpStepEnd finding) s = .next t ∧ t.startUp = some { u with step := 5 } ∧ t.smc.free = d.clean
            ∧ t.smc.defects = d ∧ t.smc.sweepCount = t.se.list.length
            ∧ (∀ e ∈ t.se.list, e.origin = .sweep) ∧ (t.se.list.map (·.block)).Pairwise (· < ·)
            ∧ ∀ b, b ∈ t.se.list.map (·.block) ↔ b < 30720 ∧ b ∉ d.clean ∧ b ∉ d.retired)
      ∧ (u.step = 5 → s.fm.part ≠ .halted → s.cbc.work = [] →
          ∀ h : HistoryContent, Stands .history s.ps.history {} h → exec (.startUpStepEnd finding) s = .next (settle { s with
            startUp := some { u with step := 6 }
            cbc := { s.cbc with history := h.entries, lifetime := h.lifetime
                                work := [.resync, .auth 0, .auth 1, .auth 2, .auth 3] } }))
      ∧ (u.step = 6 → exec (.startUpStepEnd finding) s = .next { s with
          startUp := some { u with step := 7 }
          spm := { s.spm with jammed := false, jam := none, doorOpen := false } })
      ∧ (u.step = 7 →
          let permit : Bool := decide (s.spm.jammed = false ∧ s.spm.doorOpen = false ∧ s.spm.supply.level = some true
            ∧ s.fm.backlog = false)
          let running : State :=
            { s with startUp := none, fm := { s.fm with part := .running }, spm := { s.spm with feedPermit := permit } }
          let noted := match s.fm.haltRecord with
            | some h => raiseNote (.previousHalt h) running
            | none => running
          exec (.startUpStepEnd finding) s = .next (settle (match u.tag with
            | some tag => emit (.done tag false .restart) (askPart noted)
            | none => askPart noted))))
    ∧ (∀ (n : Noise) (rest : List Noise) (s : State), s.noise = n :: rest → 4096 ≤ n.samples.length →
        testSource s =
          let tested := testNoise (n.samples.take 4096) [firstHalf n.output, secondHalf n.output] {}
          (tested.2, { s with noise := rest, bc := { s.bc with health := tested.1 } }))
    ∧ (∀ (u : StartUp) (a : List Account) (d : Defects) (g : Settings) (h : HistoryContent) (k : KeysContent) (r : HaltRecord)
        (s : State), s.startUp = some u → s.ps.accounts = written .accounts a → s.ps.defects = written .defects d →
        s.ps.settings = written .settings g → s.ps.history = written .history h → s.ps.keys = written .keys k →
        s.ps.halt = written .halt r →
          let t := checkStore [] s
          t.startUp = some { u with step := 2 } ∧ t.settings = g ∧ t.fm = { s.fm with haltRecord := some r }
            ∧ t.ps = { s.ps with loadedKeys := some k, results := {
                accounts := some .passed, defects := some .passed, settings := some .passed, history := some .passed
                keys := some .passed, halt := some .passed } })
    ∧ ∀ (damaged : List PartitionId) (after : State → State) (s : State),
        let lost : HaltRecord := { cause := .storeCheck .halt, phase := .starting, instant := 0, jobsClosed := 0, halts := 1 }
        checkStore damaged s = checkAccounts damaged (checkKeys damaged (checkDefects damaged (toStep 2)))
            (checkHistory damaged (checkSettings damaged (checkHalt damaged s)))
          ∧ (Fails .halt (.halt ∈ damaged) s.ps.halt →
              let t := checkHalt damaged s
              t.fm = { s.fm with haltRecord := some lost } ∧ t.ps.halt = written .halt lost ∧ t.ps.results.halt = some .recorded
                ∧ t.lif = (askPart { s with fm := { s.fm with haltRecord := some lost } }).lif)
          ∧ (s.ps.halt = .blank → checkHalt damaged s = { s with
              ps := { s.ps with results := { s.ps.results with halt := some .blank } } })
          ∧ (∀ h, s.ps.halt = written .halt h → .halt ∉ damaged → checkHalt damaged s = { s with
              fm := { s.fm with haltRecord := some h }
              ps := { s.ps with results := { s.ps.results with halt := some .passed } } })
          ∧ (s.ps.history = .blank → checkHistory damaged s = { s with
              ps := { s.ps with results := { s.ps.results with history := some .blank } } })
          ∧ (∀ h, s.ps.history = written .history h → .history ∉ damaged → checkHistory damaged s = { s with
              ps := { s.ps with results := { s.ps.results with history := some .passed } } })
          ∧ (Fails .settings (.settings ∈ damaged) s.ps.settings →
              let t := checkSettings damaged s
              let noted := raiseNote .settingsRestored s
              t.settings = {} ∧ t.ps.settings = written .settings {} ∧ t.ps.results.settings = some .defaults
                ∧ t.fm = noted.fm ∧ t.lif = noted.lif)
          ∧ (s.ps.settings = .blank →
              let t := checkSettings damaged s
              t.settings = {} ∧ t.ps.settings = written .settings {} ∧ t.ps.results.settings = some .blank ∧ t.fm = s.fm
                ∧ t.lif = s.lif)
          ∧ (∀ g, s.ps.settings = written .settings g → .settings ∉ damaged →
              let t := checkSettings damaged s
              t = { s with settings := g, spm := t.spm
                           ps := { s.ps with results := { s.ps.results with settings := some .passed } } })
          ∧ (let t := checkSettings damaged s
             t.spm = { s.spm with feed := initialLevel t.settings.feed s.spm.feed
                                  exit := initialLevel t.settings.exit s.spm.exit
                                  supply := initialLevel t.settings.supply s.spm.supply })
          ∧ (Fails .history (.history ∈ damaged) s.ps.history →
              let t := checkHistory damaged s
              let noted := raiseNote .historyCleared s
              t.cbc.history = [] ∧ t.cbc.lifetime = 0 ∧ t.ps.history = written .history { entries := [], lifetime := 0 }
                ∧ t.ps.results.history = some .emptied ∧ t.fm = noted.fm ∧ t.lif = noted.lif)
          ∧ (Fails .accounts (.accounts ∈ damaged) s.ps.accounts →
              checkAccounts damaged after s = haltPart (.storeCheck .accounts) s)
          ∧ (Fails .keys (.keys ∈ damaged) s.ps.keys → checkKeys damaged after s = haltPart (.storeCheck .keys) s)
          ∧ (Fails .defects (.defects ∈ damaged) s.ps.defects → checkDefects damaged after s = haltPart (.storeCheck .defects) s)
          ∧ (s.ps.accounts = .blank → checkAccounts damaged after s = after { s with
              ps := { s.ps with results := { s.ps.results with accounts := some .blank } } })
          ∧ (s.ps.keys = .blank → checkKeys damaged after s = after { s with
              ps := { s.ps with loadedKeys := some {}, results := { s.ps.results with keys := some .blank } } })
          ∧ (s.ps.defects = .blank → checkDefects damaged after s = after { s with
              ps := { s.ps with results := { s.ps.results with defects := some .blank } } })
          ∧ (∀ table, s.ps.accounts = written .accounts table → .accounts ∉ damaged → checkAccounts damaged after s = after { s with
              ps := { s.ps with results := { s.ps.results with accounts := some .passed } } })
          ∧ (∀ k, s.ps.keys = written .keys k → .keys ∉ damaged → checkKeys damaged after s = after { s with
              ps := { s.ps with loadedKeys := some k, results := { s.ps.results with keys := some .passed } } })
          ∧ (∀ d, s.ps.defects = written .defects d → .defects ∉ damaged → checkDefects damaged after s = after { s with
              ps := { s.ps with results := { s.ps.results with defects := some .passed } } })

/-! ### The host link -/

/-- R185, R186: TRANSFER_START sends the oldest unread entry; TRANSFER_END reads it where every byte of its frame was clocked
and its content was not replaced; the host's bytes are then taken (the model's choice of order, log 54), and a transfer without
a byte is a dropped frame (R187). R194: at the end of a transfer in which a start-up began nothing is read and no bytes are
taken. A start in a transfer and an end without one have no effect (the model's choice, log 3). R187, R188, R189: LINK_ERROR,
LINK_OVERRUN and UNKNOWN_KIND. Section 11.2: the frame of an entry, with its check; of the payloads, an empty one and that of
LINK_ERROR are said, and the bytes of the others are open (log 5). R189, R195: the bytes of the status codes and the requests. -/
def Obligations.TransfersAndWrongFrames : Prop :=
  (∀ s : State, s.powered = true →
    (s.lif.transfer = none → ∀ e rest, s.lif.out = e :: rest → exec .transferStart s = .next { s with lif := { s.lif with
        transfer := some { frame := frameOf e rest.length, sending := true, replaced := false, cut := false } } })
    ∧ (s.lif.transfer = none → s.lif.out = [] → exec .transferStart s = .next { s with lif := { s.lif with
        transfer := some { frame := [], sending := false, replaced := false, cut := false } } })
    ∧ (∀ t bytes, s.lif.transfer = some t → t.cut = false →
        (t.sending = true → t.replaced = false → t.frame.length ≤ bytes.length →
          exec (.transferEnd bytes) s = .next (takeBytes bytes { s with lif := { s.lif with
            out := s.lif.out.tail, attn := !s.lif.out.tail.isEmpty, transfer := none } }))
        ∧ ((t.sending = false ∨ t.replaced = true ∨ bytes.length < t.frame.length) →
          exec (.transferEnd bytes) s = .next (takeBytes bytes { s with lif := { s.lif with
            attn := !s.lif.out.isEmpty, transfer := none } })))
    ∧ (∀ t bytes, s.lif.transfer = some t → t.cut = true →
        exec (.transferEnd bytes) s = .next { s with lif := { s.lif with attn := !s.lif.out.isEmpty, transfer := none } })
    ∧ (∀ t, s.lif.transfer = some t → exec .transferStart s = .next s)
    ∧ (∀ bytes, s.lif.transfer = none → exec (.transferEnd bytes) s = .next s)
    ∧ (∀ bytes, bytes.head? = some 0 → takeBytes bytes s = s)
    ∧ takeBytes [] s = { s with lif := { s.lif with frameErrors := min (s.lif.frameErrors + 1) 65535 } })
    ∧ (∀ (tag kind : Byte) (s : State), s.powered = true →
    (exec (.linkError .dropped tag kind) s = .next { s with lif := { s.lif with
        frameErrors := min (s.lif.frameErrors + 1) 65535 } })
    ∧ (∀ cause code, (cause, code) ∈ [(LinkErrorCause.check, (0x01 : Byte)), (.short, 0x02), (.oversize, 0x03)] →
        (unreadReplies s.lif < 8 → exec (.linkError cause tag kind) s = .next { s with lif := { s.lif with
          out := s.lif.out ++ [.reply { kind := 0x00, tag := tag, status := code, payload := .linkError kind }]
          attn := true, frameErrors := min (s.lif.frameErrors + 1) 65535 } })
        ∧ (8 ≤ unreadReplies s.lif →
          exec (.linkError cause tag kind) s = .next { s with lif := { s.lif with overrun := true } }))
    ∧ (8 ≤ unreadReplies s.lif →
        exec .linkOverrun s = .next { s with lif := { s.lif with overrun := true } }
          ∧ exec (.unknownKind tag kind) s = .next { s with lif := { s.lif with overrun := true } })
    ∧ (unreadReplies s.lif < 8 → exec (.unknownKind tag kind) s = .next { s with lif := { s.lif with
        out := s.lif.out ++ [.reply { kind := kind, tag := tag, status := 0x03, payload := .empty }], attn := true } }))
  ∧ (∀ e : Entry, ∃ payload : List Byte, payload.length ≤ 1024
      ∧ (∀ r, e = .reply r → (r.payload = .empty → payload = []) ∧ ∀ kind, r.payload = .linkError kind → payload = [kind])
      ∧ ∀ n : Nat,
        let framed (type kind tag status : Byte) : Prop :=
          let body : List Byte := [0xA5, type, kind, tag, BitVec.ofNat 8 payload.length, BitVec.ofNat 8 (payload.length / 256),
            status, BitVec.ofNat 8 n] ++ payload
          frameOf e n = body ++ [(frameCheck body).extractLsb' 8 8, (frameCheck body).extractLsb' 0 8]
        (∀ r, e = .reply r → framed 0x02 r.kind r.tag r.status)
          ∧ (∀ slot c, e = .notice (.jobState slot c) → framed 0x03 0x80 0x00 0x00)
          ∧ (∀ c, e = .notice (.cartState c) → framed 0x03 0x81 0x00 0x00)
          ∧ (∀ f, e = .notice (.faultQueued f) → framed 0x03 0x82 0x00 0x00)
          ∧ (∀ record, e = .notice (.faultNote record) → framed 0x03 0x82 0x00 0x00)
          ∧ (∀ c, e = .notice (.part c) → framed 0x03 0x83 0x00 0x00)
          ∧ (∀ c, e = .notice (.sheetDone c) → framed 0x03 0x84 0x00 0x00)
          ∧ (∀ handle page, e = .notice (.pageStored handle page) → framed 0x03 0x85 0x00 0x00)
          ∧ ∀ tag halted what, e = .notice (.done tag halted what) →
              framed 0x03 0x86 tag (if halted then 0x12 else 0x00))
  ∧ [Status.ok, .accepted, .badLength, .unknownKind, .badField, .noAccount, .noJob, .wrongState, .busy, .full, .locked, .pinWrong,
      .lockedOut, .noPin, .insufficient, .noColourRight, .sensorBusy, .powerLow, .halted, .starting].map statusByte
      = (List.range 20).map (BitVec.ofNat 8)
  ∧ [RequestKind.acctCreate, .acctDelete, .acctCredit, .acctSet, .acctRead, .acctList, .acctUnlock, .countersClear, .jobOpen,
      .jobRelease, .jobCancel, .jobPause, .jobResume, .jobSkipPage, .jobRead, .senseSet, .doorState, .jamClear, .pathRead,
      .priceSet, .meterSet, .mediaSet, .cartRead, .cartReauth, .policySet, .familyKeyLoad, .spoolRead, .blockRetire, .sanitize,
      .faultRead, .faultAck, .sense, .storeLock, .storeWipe, .storeRead, .limitsSet, .status, .restart].map kindByte
      = (List.range 38).map (fun n => BitVec.ofNat 8 (n + 1))
  ∧ frameCheck [] = 0xFFFF
  ∧ ∀ (bytes : List Byte) (b : Byte),
      let shift (c : BitVec 16) : BitVec 16 := if c.msb then (c <<< 1) ^^^ 0x1021 else c <<< 1
      frameCheck (bytes ++ [b]) = shift^[8] (frameCheck bytes ^^^ (b.zeroExtend 16 <<< 8))

/-- Section 11.2, R187, R195: a host frame is examined as it was made, with its kind, tag and payload, whatever they are; the
host's bytes are examined step by step. R188, R189: a well-formed frame is discarded, answered UNKNOWN_KIND, BAD_FIELD or
BAD_LENGTH, or it is the request whose kind and fields it holds: the frame of a request command does what the command does (log
4). In ACCT_SET a PIN action is 0 to set and 1 to clear (DEDUCED, log 21), and the fields of a payload are little-endian (the model's
choice, log 67). -/
def Obligations.HostFrameExamined : Prop :=
  (∀ (type kind tag x y : Byte) (payload : List Byte), payload.length ≤ 1024 →
    examine (hostFrame type kind tag x y payload) = .wellFormed type kind tag payload)
  ∧ (∀ bytes : List Byte,
      let kind := bytes.getD 2 0
      let tag := bytes.getD 3 0
      let n := (bytes.getD 4 0).toNat + 256 * (bytes.getD 5 0).toNat
      let sent : BitVec 16 := bytes.getD (8 + n) 0 ++ bytes.getD (9 + n) 0
      (bytes = [] → examine bytes = .wrong .dropped 0 0)
      ∧ (bytes.head? = some 0 → examine bytes = .nothing)
      ∧ (∀ first, bytes.head? = some first → first ≠ 0 → (first ≠ 0x5A ∨ bytes.length < 8) →
          examine bytes = .wrong .dropped tag kind)
      ∧ (bytes.head? = some 0x5A → 8 ≤ bytes.length →
          (1024 < n → examine bytes = .wrong .oversize tag kind)
          ∧ (n ≤ 1024 → bytes.length < 10 + n → examine bytes = .wrong .short tag kind)
          ∧ (n ≤ 1024 → 10 + n ≤ bytes.length → frameCheck (bytes.take (8 + n)) ≠ sent → examine bytes = .wrong .check tag kind)
          ∧ (n ≤ 1024 → 10 + n ≤ bytes.length → frameCheck (bytes.take (8 + n)) = sent →
              examine bytes = .wellFormed (bytes.getD 1 0) kind tag ((bytes.drop 8).take n))))
  ∧ (∀ (c : Instr) (k : RequestKind) (tag x y : Byte) (s : State), s.powered = true → c.wellFormed = true →
      requestOf c = some (k, tag) →
      exec c s = .next (takeBytes (hostFrame 0x01 (kindByte k) tag x y (requestPayload c)) s))
  ∧ ∀ (type kind tag x y : Byte) (payload : List Byte) (s : State), s.powered = true → payload.length ≤ 1024 →
      let taken := takeBytes (hostFrame type kind tag x y payload) s
      let bits (n : Nat) : Nat := (List.range n).countP fun i => (payload.headD 0).getLsbD i
      let action := 3 + (if (payload.headD 0).getLsbD 0 then 4 else 0) + (if (payload.headD 0).getLsbD 1 then 1 else 0)
        + (if (payload.headD 0).getLsbD 2 then 1 else 0)
      (8 ≤ unreadReplies s.lif → taken = { s with lif := { s.lif with overrun := true } })
      ∧ (unreadReplies s.lif < 8 →
          ((type ≠ 0x01 ∨ kind = 0 ∨ 0x26 < kind) → taken =
            pushReply { kind := kind, tag := tag, status := 0x03, payload := .empty } s)
          ∧ (type = 0x01 → ∀ k, kind = kindByte k →
            (∀ n, (k, n) ∈ [(RequestKind.acctDelete, 2), (.acctCredit, 6), (.acctRead, 2), (.acctList, 2), (.acctUnlock, 2),
                (.countersClear, 2), (.jobOpen, 8), (.jobRelease, 10), (.jobCancel, 2), (.jobPause, 2), (.jobResume, 2),
                (.jobSkipPage, 4), (.jobRead, 4), (.senseSet, 5), (.doorState, 1), (.jamClear, 0), (.pathRead, 0), (.cartRead, 2),
                (.cartReauth, 1), (.policySet, 1), (.blockRetire, 2), (.sanitize, 0), (.faultRead, 0), (.faultAck, 3), (.sense, 2),
                (.storeLock, 1), (.storeWipe, 0), (.storeRead, 0), (.status, 0), (.restart, 1)] →
              payload.length ≠ n → taken = answered k tag .badLength .empty s)
            ∧ (∀ fixed n, (k, fixed, n) ∈ [(RequestKind.priceSet, 1, 8), (.meterSet, 1, 5), (.mediaSet, 2, 2), (.spoolRead, 1, 1),
                (.limitsSet, 1, 6)] →
              (payload = [] → taken = answered k tag .badLength .empty s)
              ∧ (2 ^ n ≤ (payload.headD 0).toNat → taken = answered k tag .badField .empty s)
              ∧ ((payload.headD 0).toNat < 2 ^ n → payload.length ≠ fixed + 2 * bits n →
                  taken = answered k tag .badLength .empty s))
            ∧ (k = .doorState → s.fm.part = .running → payload.length = 1 → 2 ≤ (payload.headD 0).toNat →
                taken = answered k tag .badField .empty s)
            ∧ (k = .faultAck → s.fm.part = .running → payload.length = 3 → 2 ≤ (payload.headD 0).toNat →
                taken = answered k tag .badField .empty s)
            ∧ (k = .restart → s.fm.part ≠ .starting → payload.length = 1 → 2 ≤ (payload.headD 0).toNat →
                taken = answered k tag .badField .empty s)
            ∧ (k = .familyKeyLoad → payload = [] → taken = answered k tag .badLength .empty s)
            ∧ (k = .acctCreate →
              (payload = [] → taken = answered k tag .badLength .empty s)
              ∧ (2 ≤ (payload.headD 0).toNat → taken = answered k tag .badField .empty s)
              ∧ ((payload.headD 0).toNat < 2 → payload.length ≠ 8 + 8 * bits 1 → taken = answered k tag .badLength .empty s))
            ∧ (k = .acctSet →
              (payload = [] → taken = answered k tag .badLength .empty s)
              ∧ (16 ≤ (payload.headD 0).toNat → taken = answered k tag .badField .empty s)
              ∧ ((payload.headD 0).toNat < 8 → payload.length ≠ action → taken = answered k tag .badLength .empty s)
              ∧ (8 ≤ (payload.headD 0).toNat → (payload.headD 0).toNat < 16 →
                (payload.length ≤ action → taken = answered k tag .badLength .empty s)
                ∧ (∀ b, payload[action]? = some b → (1 < b → taken = answered k tag .badField .empty s)
                  ∧ (b = 0 → payload.length ≠ action + 9 → taken = answered k tag .badLength .empty s)
                  ∧ (b = 1 → payload.length ≠ action + 1 → taken = answered k tag .badLength .empty s))))))
end

