-- ==== Sys2Proof/Laws/State.lean ====
section
/-! SUPPORT. What each named update of State leaves in each field, so that no proof unfolds a record update. -/

namespace Sys2Proof.Machine

/-! ### The writes of the store -/

@[simp] theorem writeAccounts_accounts (p : Partition (List Account)) (ps : Store) : (writeAccounts p ps).accounts = p := rfl
@[simp] theorem writeAccounts_defects (p : Partition (List Account)) (ps : Store) : (writeAccounts p ps).defects = ps.defects := rfl
@[simp] theorem writeAccounts_settings (p : Partition (List Account)) (ps : Store) : (writeAccounts p ps).settings = ps.settings := rfl
@[simp] theorem writeAccounts_history (p : Partition (List Account)) (ps : Store) : (writeAccounts p ps).history = ps.history := rfl
@[simp] theorem writeAccounts_keys (p : Partition (List Account)) (ps : Store) : (writeAccounts p ps).keys = ps.keys := rfl
@[simp] theorem writeAccounts_halt (p : Partition (List Account)) (ps : Store) : (writeAccounts p ps).halt = ps.halt := rfl
@[simp] theorem writeAccounts_loadedKeys (p : Partition (List Account)) (ps : Store) : (writeAccounts p ps).loadedKeys = ps.loadedKeys := rfl
@[simp] theorem writeAccounts_results (p : Partition (List Account)) (ps : Store) : (writeAccounts p ps).results = ps.results := rfl
@[simp] theorem writeAccounts_journal (p : Partition (List Account)) (ps : Store) : (writeAccounts p ps).journal = .accounts ps.accounts :: ps.journal := rfl

@[simp] theorem writeDefects_accounts (p : Partition Defects) (ps : Store) : (writeDefects p ps).accounts = ps.accounts := rfl
@[simp] theorem writeDefects_defects (p : Partition Defects) (ps : Store) : (writeDefects p ps).defects = p := rfl
@[simp] theorem writeDefects_settings (p : Partition Defects) (ps : Store) : (writeDefects p ps).settings = ps.settings := rfl
@[simp] theorem writeDefects_history (p : Partition Defects) (ps : Store) : (writeDefects p ps).history = ps.history := rfl
@[simp] theorem writeDefects_keys (p : Partition Defects) (ps : Store) : (writeDefects p ps).keys = ps.keys := rfl
@[simp] theorem writeDefects_halt (p : Partition Defects) (ps : Store) : (writeDefects p ps).halt = ps.halt := rfl
@[simp] theorem writeDefects_loadedKeys (p : Partition Defects) (ps : Store) : (writeDefects p ps).loadedKeys = ps.loadedKeys := rfl
@[simp] theorem writeDefects_results (p : Partition Defects) (ps : Store) : (writeDefects p ps).results = ps.results := rfl
@[simp] theorem writeDefects_journal (p : Partition Defects) (ps : Store) : (writeDefects p ps).journal = .defects ps.defects :: ps.journal := rfl

@[simp] theorem writeSettings_accounts (p : Partition Settings) (ps : Store) : (writeSettings p ps).accounts = ps.accounts := rfl
@[simp] theorem writeSettings_defects (p : Partition Settings) (ps : Store) : (writeSettings p ps).defects = ps.defects := rfl
@[simp] theorem writeSettings_settings (p : Partition Settings) (ps : Store) : (writeSettings p ps).settings = p := rfl
@[simp] theorem writeSettings_history (p : Partition Settings) (ps : Store) : (writeSettings p ps).history = ps.history := rfl
@[simp] theorem writeSettings_keys (p : Partition Settings) (ps : Store) : (writeSettings p ps).keys = ps.keys := rfl
@[simp] theorem writeSettings_halt (p : Partition Settings) (ps : Store) : (writeSettings p ps).halt = ps.halt := rfl
@[simp] theorem writeSettings_loadedKeys (p : Partition Settings) (ps : Store) : (writeSettings p ps).loadedKeys = ps.loadedKeys := rfl
@[simp] theorem writeSettings_results (p : Partition Settings) (ps : Store) : (writeSettings p ps).results = ps.results := rfl
@[simp] theorem writeSettings_journal (p : Partition Settings) (ps : Store) : (writeSettings p ps).journal = .settings ps.settings :: ps.journal := rfl

@[simp] theorem writeHistory_accounts (p : Partition HistoryContent) (ps : Store) : (writeHistory p ps).accounts = ps.accounts := rfl
@[simp] theorem writeHistory_defects (p : Partition HistoryContent) (ps : Store) : (writeHistory p ps).defects = ps.defects := rfl
@[simp] theorem writeHistory_settings (p : Partition HistoryContent) (ps : Store) : (writeHistory p ps).settings = ps.settings := rfl
@[simp] theorem writeHistory_history (p : Partition HistoryContent) (ps : Store) : (writeHistory p ps).history = p := rfl
@[simp] theorem writeHistory_keys (p : Partition HistoryContent) (ps : Store) : (writeHistory p ps).keys = ps.keys := rfl
@[simp] theorem writeHistory_halt (p : Partition HistoryContent) (ps : Store) : (writeHistory p ps).halt = ps.halt := rfl
@[simp] theorem writeHistory_loadedKeys (p : Partition HistoryContent) (ps : Store) : (writeHistory p ps).loadedKeys = ps.loadedKeys := rfl
@[simp] theorem writeHistory_results (p : Partition HistoryContent) (ps : Store) : (writeHistory p ps).results = ps.results := rfl
@[simp] theorem writeHistory_journal (p : Partition HistoryContent) (ps : Store) : (writeHistory p ps).journal = .history ps.history :: ps.journal := rfl

@[simp] theorem writeKeys_accounts (p : Partition KeysContent) (ps : Store) : (writeKeys p ps).accounts = ps.accounts := rfl
@[simp] theorem writeKeys_defects (p : Partition KeysContent) (ps : Store) : (writeKeys p ps).defects = ps.defects := rfl
@[simp] theorem writeKeys_settings (p : Partition KeysContent) (ps : Store) : (writeKeys p ps).settings = ps.settings := rfl
@[simp] theorem writeKeys_history (p : Partition KeysContent) (ps : Store) : (writeKeys p ps).history = ps.history := rfl
@[simp] theorem writeKeys_keys (p : Partition KeysContent) (ps : Store) : (writeKeys p ps).keys = p := rfl
@[simp] theorem writeKeys_halt (p : Partition KeysContent) (ps : Store) : (writeKeys p ps).halt = ps.halt := rfl
@[simp] theorem writeKeys_loadedKeys (p : Partition KeysContent) (ps : Store) : (writeKeys p ps).loadedKeys = ps.loadedKeys := rfl
@[simp] theorem writeKeys_results (p : Partition KeysContent) (ps : Store) : (writeKeys p ps).results = ps.results := rfl
@[simp] theorem writeKeys_journal (p : Partition KeysContent) (ps : Store) : (writeKeys p ps).journal = .keys ps.keys :: ps.journal := rfl

@[simp] theorem writeHalt_accounts (p : Partition HaltRecord) (ps : Store) : (writeHalt p ps).accounts = ps.accounts := rfl
@[simp] theorem writeHalt_defects (p : Partition HaltRecord) (ps : Store) : (writeHalt p ps).defects = ps.defects := rfl
@[simp] theorem writeHalt_settings (p : Partition HaltRecord) (ps : Store) : (writeHalt p ps).settings = ps.settings := rfl
@[simp] theorem writeHalt_history (p : Partition HaltRecord) (ps : Store) : (writeHalt p ps).history = ps.history := rfl
@[simp] theorem writeHalt_keys (p : Partition HaltRecord) (ps : Store) : (writeHalt p ps).keys = ps.keys := rfl
@[simp] theorem writeHalt_halt (p : Partition HaltRecord) (ps : Store) : (writeHalt p ps).halt = p := rfl
@[simp] theorem writeHalt_loadedKeys (p : Partition HaltRecord) (ps : Store) : (writeHalt p ps).loadedKeys = ps.loadedKeys := rfl
@[simp] theorem writeHalt_results (p : Partition HaltRecord) (ps : Store) : (writeHalt p ps).results = ps.results := rfl
@[simp] theorem writeHalt_journal (p : Partition HaltRecord) (ps : Store) : (writeHalt p ps).journal = .halt ps.halt :: ps.journal := rfl

/-! ### emit -/

@[simp] theorem emit_powered (n : Notice) (s : State) : (emit n s).powered = s.powered := rfl
@[simp] theorem emit_clock (n : Notice) (s : State) : (emit n s).clock = s.clock := rfl
@[simp] theorem emit_startUp (n : Notice) (s : State) : (emit n s).startUp = s.startUp := rfl
@[simp] theorem emit_lif (n : Notice) (s : State) : (emit n s).lif = admitNotice n s.lif := rfl
@[simp] theorem emit_jt (n : Notice) (s : State) : (emit n s).jt = s.jt := rfl
@[simp] theorem emit_accounts (n : Notice) (s : State) : (emit n s).accounts = s.accounts := rfl
@[simp] theorem emit_spm (n : Notice) (s : State) : (emit n s).spm = s.spm := rfl
@[simp] theorem emit_settings (n : Notice) (s : State) : (emit n s).settings = s.settings := rfl
@[simp] theorem emit_cbc (n : Notice) (s : State) : (emit n s).cbc = s.cbc := rfl
@[simp] theorem emit_smc (n : Notice) (s : State) : (emit n s).smc = s.smc := rfl
@[simp] theorem emit_bc (n : Notice) (s : State) : (emit n s).bc = s.bc := rfl
@[simp] theorem emit_se (n : Notice) (s : State) : (emit n s).se = s.se := rfl
@[simp] theorem emit_fm (n : Notice) (s : State) : (emit n s).fm = s.fm := rfl
@[simp] theorem emit_ps (n : Notice) (s : State) : (emit n s).ps = s.ps := rfl
@[simp] theorem emit_noise (n : Notice) (s : State) : (emit n s).noise = s.noise := rfl
@[simp] theorem emit_noiseTaken (n : Notice) (s : State) : (emit n s).noiseTaken = s.noiseTaken := rfl
@[simp] theorem emit_pending (n : Notice) (s : State) : (emit n s).pending = s.pending := rfl

/-! ### pushReply -/

@[simp] theorem pushReply_powered (r : Reply) (s : State) : (pushReply r s).powered = s.powered := rfl
@[simp] theorem pushReply_clock (r : Reply) (s : State) : (pushReply r s).clock = s.clock := rfl
@[simp] theorem pushReply_startUp (r : Reply) (s : State) : (pushReply r s).startUp = s.startUp := rfl
@[simp] theorem pushReply_lif (r : Reply) (s : State) : (pushReply r s).lif = appendEntry (.reply r) s.lif := rfl
@[simp] theorem pushReply_jt (r : Reply) (s : State) : (pushReply r s).jt = s.jt := rfl
@[simp] theorem pushReply_accounts (r : Reply) (s : State) : (pushReply r s).accounts = s.accounts := rfl
@[simp] theorem pushReply_spm (r : Reply) (s : State) : (pushReply r s).spm = s.spm := rfl
@[simp] theorem pushReply_settings (r : Reply) (s : State) : (pushReply r s).settings = s.settings := rfl
@[simp] theorem pushReply_cbc (r : Reply) (s : State) : (pushReply r s).cbc = s.cbc := rfl
@[simp] theorem pushReply_smc (r : Reply) (s : State) : (pushReply r s).smc = s.smc := rfl
@[simp] theorem pushReply_bc (r : Reply) (s : State) : (pushReply r s).bc = s.bc := rfl
@[simp] theorem pushReply_se (r : Reply) (s : State) : (pushReply r s).se = s.se := rfl
@[simp] theorem pushReply_fm (r : Reply) (s : State) : (pushReply r s).fm = s.fm := rfl
@[simp] theorem pushReply_ps (r : Reply) (s : State) : (pushReply r s).ps = s.ps := rfl
@[simp] theorem pushReply_noise (r : Reply) (s : State) : (pushReply r s).noise = s.noise := rfl
@[simp] theorem pushReply_noiseTaken (r : Reply) (s : State) : (pushReply r s).noiseTaken = s.noiseTaken := rfl
@[simp] theorem pushReply_pending (r : Reply) (s : State) : (pushReply r s).pending = s.pending := rfl

/-! ### overrun -/

@[simp] theorem overrun_powered (s : State) : (overrun s).powered = s.powered := rfl
@[simp] theorem overrun_clock (s : State) : (overrun s).clock = s.clock := rfl
@[simp] theorem overrun_startUp (s : State) : (overrun s).startUp = s.startUp := rfl
@[simp] theorem overrun_lif (s : State) : (overrun s).lif = { s.lif with overrun := true } := rfl
@[simp] theorem overrun_jt (s : State) : (overrun s).jt = s.jt := rfl
@[simp] theorem overrun_accounts (s : State) : (overrun s).accounts = s.accounts := rfl
@[simp] theorem overrun_spm (s : State) : (overrun s).spm = s.spm := rfl
@[simp] theorem overrun_settings (s : State) : (overrun s).settings = s.settings := rfl
@[simp] theorem overrun_cbc (s : State) : (overrun s).cbc = s.cbc := rfl
@[simp] theorem overrun_smc (s : State) : (overrun s).smc = s.smc := rfl
@[simp] theorem overrun_bc (s : State) : (overrun s).bc = s.bc := rfl
@[simp] theorem overrun_se (s : State) : (overrun s).se = s.se := rfl
@[simp] theorem overrun_fm (s : State) : (overrun s).fm = s.fm := rfl
@[simp] theorem overrun_ps (s : State) : (overrun s).ps = s.ps := rfl
@[simp] theorem overrun_noise (s : State) : (overrun s).noise = s.noise := rfl
@[simp] theorem overrun_noiseTaken (s : State) : (overrun s).noiseTaken = s.noiseTaken := rfl
@[simp] theorem overrun_pending (s : State) : (overrun s).pending = s.pending := rfl

/-! ### askPart -/

@[simp] theorem askPart_powered (s : State) : (askPart s).powered = s.powered := rfl
@[simp] theorem askPart_clock (s : State) : (askPart s).clock = s.clock := rfl
@[simp] theorem askPart_startUp (s : State) : (askPart s).startUp = s.startUp := rfl
@[simp] theorem askPart_lif (s : State) : (askPart s).lif = admitNotice (.part (partContent s)) s.lif := rfl
@[simp] theorem askPart_jt (s : State) : (askPart s).jt = s.jt := rfl
@[simp] theorem askPart_accounts (s : State) : (askPart s).accounts = s.accounts := rfl
@[simp] theorem askPart_spm (s : State) : (askPart s).spm = s.spm := rfl
@[simp] theorem askPart_settings (s : State) : (askPart s).settings = s.settings := rfl
@[simp] theorem askPart_cbc (s : State) : (askPart s).cbc = s.cbc := rfl
@[simp] theorem askPart_smc (s : State) : (askPart s).smc = s.smc := rfl
@[simp] theorem askPart_bc (s : State) : (askPart s).bc = s.bc := rfl
@[simp] theorem askPart_se (s : State) : (askPart s).se = s.se := rfl
@[simp] theorem askPart_fm (s : State) : (askPart s).fm = s.fm := rfl
@[simp] theorem askPart_ps (s : State) : (askPart s).ps = s.ps := rfl
@[simp] theorem askPart_noise (s : State) : (askPart s).noise = s.noise := rfl
@[simp] theorem askPart_noiseTaken (s : State) : (askPart s).noiseTaken = s.noiseTaken := rfl
@[simp] theorem askPart_pending (s : State) : (askPart s).pending = s.pending := rfl

/-! ### evaluatePermit -/

@[simp] theorem evaluatePermit_powered (s : State) : (evaluatePermit s).powered = s.powered := rfl
@[simp] theorem evaluatePermit_clock (s : State) : (evaluatePermit s).clock = s.clock := rfl
@[simp] theorem evaluatePermit_startUp (s : State) : (evaluatePermit s).startUp = s.startUp := rfl
@[simp] theorem evaluatePermit_lif (s : State) : (evaluatePermit s).lif = s.lif := rfl
@[simp] theorem evaluatePermit_jt (s : State) : (evaluatePermit s).jt = s.jt := rfl
@[simp] theorem evaluatePermit_accounts (s : State) : (evaluatePermit s).accounts = s.accounts := rfl
@[simp] theorem evaluatePermit_spm (s : State) :
    (evaluatePermit s).spm = { s.spm with feedPermit := permitConditions s } := rfl
@[simp] theorem evaluatePermit_settings (s : State) : (evaluatePermit s).settings = s.settings := rfl
@[simp] theorem evaluatePermit_cbc (s : State) : (evaluatePermit s).cbc = s.cbc := rfl
@[simp] theorem evaluatePermit_smc (s : State) : (evaluatePermit s).smc = s.smc := rfl
@[simp] theorem evaluatePermit_bc (s : State) : (evaluatePermit s).bc = s.bc := rfl
@[simp] theorem evaluatePermit_se (s : State) : (evaluatePermit s).se = s.se := rfl
@[simp] theorem evaluatePermit_fm (s : State) : (evaluatePermit s).fm = s.fm := rfl
@[simp] theorem evaluatePermit_ps (s : State) : (evaluatePermit s).ps = s.ps := rfl
@[simp] theorem evaluatePermit_noise (s : State) : (evaluatePermit s).noise = s.noise := rfl
@[simp] theorem evaluatePermit_noiseTaken (s : State) : (evaluatePermit s).noiseTaken = s.noiseTaken := rfl
@[simp] theorem evaluatePermit_pending (s : State) : (evaluatePermit s).pending = s.pending := rfl

/-! ### setJob -/

@[simp] theorem setJob_powered (j : Job) (s : State) : (setJob j s).powered = s.powered := rfl
@[simp] theorem setJob_clock (j : Job) (s : State) : (setJob j s).clock = s.clock := rfl
@[simp] theorem setJob_startUp (j : Job) (s : State) : (setJob j s).startUp = s.startUp := rfl
@[simp] theorem setJob_lif (j : Job) (s : State) : (setJob j s).lif = s.lif := rfl
@[simp] theorem setJob_jt (j : Job) (s : State) : (setJob j s).jt = putJob j s.jt := rfl
@[simp] theorem setJob_accounts (j : Job) (s : State) : (setJob j s).accounts = s.accounts := rfl
@[simp] theorem setJob_spm (j : Job) (s : State) : (setJob j s).spm = s.spm := rfl
@[simp] theorem setJob_settings (j : Job) (s : State) : (setJob j s).settings = s.settings := rfl
@[simp] theorem setJob_cbc (j : Job) (s : State) : (setJob j s).cbc = s.cbc := rfl
@[simp] theorem setJob_smc (j : Job) (s : State) : (setJob j s).smc = s.smc := rfl
@[simp] theorem setJob_bc (j : Job) (s : State) : (setJob j s).bc = s.bc := rfl
@[simp] theorem setJob_se (j : Job) (s : State) : (setJob j s).se = s.se := rfl
@[simp] theorem setJob_fm (j : Job) (s : State) : (setJob j s).fm = s.fm := rfl
@[simp] theorem setJob_ps (j : Job) (s : State) : (setJob j s).ps = s.ps := rfl
@[simp] theorem setJob_noise (j : Job) (s : State) : (setJob j s).noise = s.noise := rfl
@[simp] theorem setJob_noiseTaken (j : Job) (s : State) : (setJob j s).noiseTaken = s.noiseTaken := rfl
@[simp] theorem setJob_pending (j : Job) (s : State) : (setJob j s).pending = s.pending := rfl

/-! ### askJobState -/

@[simp] theorem askJobState_powered (j : Job) (s : State) : (askJobState j s).powered = s.powered := rfl
@[simp] theorem askJobState_clock (j : Job) (s : State) : (askJobState j s).clock = s.clock := rfl
@[simp] theorem askJobState_startUp (j : Job) (s : State) : (askJobState j s).startUp = s.startUp := rfl
@[simp] theorem askJobState_lif (j : Job) (s : State) :
    (askJobState j s).lif = admitNotice (.jobState (slotOf j.handle) (jobContent j)) s.lif := rfl
@[simp] theorem askJobState_jt (j : Job) (s : State) : (askJobState j s).jt = s.jt := rfl
@[simp] theorem askJobState_accounts (j : Job) (s : State) : (askJobState j s).accounts = s.accounts := rfl
@[simp] theorem askJobState_spm (j : Job) (s : State) : (askJobState j s).spm = s.spm := rfl
@[simp] theorem askJobState_settings (j : Job) (s : State) : (askJobState j s).settings = s.settings := rfl
@[simp] theorem askJobState_cbc (j : Job) (s : State) : (askJobState j s).cbc = s.cbc := rfl
@[simp] theorem askJobState_smc (j : Job) (s : State) : (askJobState j s).smc = s.smc := rfl
@[simp] theorem askJobState_bc (j : Job) (s : State) : (askJobState j s).bc = s.bc := rfl
@[simp] theorem askJobState_se (j : Job) (s : State) : (askJobState j s).se = s.se := rfl
@[simp] theorem askJobState_fm (j : Job) (s : State) : (askJobState j s).fm = s.fm := rfl
@[simp] theorem askJobState_ps (j : Job) (s : State) : (askJobState j s).ps = s.ps := rfl
@[simp] theorem askJobState_noise (j : Job) (s : State) : (askJobState j s).noise = s.noise := rfl
@[simp] theorem askJobState_noiseTaken (j : Job) (s : State) : (askJobState j s).noiseTaken = s.noiseTaken := rfl
@[simp] theorem askJobState_pending (j : Job) (s : State) : (askJobState j s).pending = s.pending := rfl

/-! ### moveJob -/

@[simp] theorem moveJob_powered (j : Job) (s : State) : (moveJob j s).powered = s.powered := rfl
@[simp] theorem moveJob_clock (j : Job) (s : State) : (moveJob j s).clock = s.clock := rfl
@[simp] theorem moveJob_startUp (j : Job) (s : State) : (moveJob j s).startUp = s.startUp := rfl
@[simp] theorem moveJob_lif (j : Job) (s : State) :
    (moveJob j s).lif = admitNotice (.jobState (slotOf j.handle) (jobContent j)) s.lif := rfl
@[simp] theorem moveJob_jt (j : Job) (s : State) : (moveJob j s).jt = putJob j s.jt := rfl
@[simp] theorem moveJob_accounts (j : Job) (s : State) : (moveJob j s).accounts = s.accounts := rfl
@[simp] theorem moveJob_spm (j : Job) (s : State) : (moveJob j s).spm = s.spm := rfl
@[simp] theorem moveJob_settings (j : Job) (s : State) : (moveJob j s).settings = s.settings := rfl
@[simp] theorem moveJob_cbc (j : Job) (s : State) : (moveJob j s).cbc = s.cbc := rfl
@[simp] theorem moveJob_smc (j : Job) (s : State) : (moveJob j s).smc = s.smc := rfl
@[simp] theorem moveJob_bc (j : Job) (s : State) : (moveJob j s).bc = s.bc := rfl
@[simp] theorem moveJob_se (j : Job) (s : State) : (moveJob j s).se = s.se := rfl
@[simp] theorem moveJob_fm (j : Job) (s : State) : (moveJob j s).fm = s.fm := rfl
@[simp] theorem moveJob_ps (j : Job) (s : State) : (moveJob j s).ps = s.ps := rfl
@[simp] theorem moveJob_noise (j : Job) (s : State) : (moveJob j s).noise = s.noise := rfl
@[simp] theorem moveJob_noiseTaken (j : Job) (s : State) : (moveJob j s).noiseTaken = s.noiseTaken := rfl
@[simp] theorem moveJob_pending (j : Job) (s : State) : (moveJob j s).pending = s.pending := rfl

/-! ### setAccounts -/

@[simp] theorem setAccounts_powered (table : List Account) (s : State) :
    (setAccounts table s).powered = s.powered := rfl
@[simp] theorem setAccounts_clock (table : List Account) (s : State) : (setAccounts table s).clock = s.clock := rfl
@[simp] theorem setAccounts_startUp (table : List Account) (s : State) :
    (setAccounts table s).startUp = s.startUp := rfl
@[simp] theorem setAccounts_lif (table : List Account) (s : State) : (setAccounts table s).lif = s.lif := rfl
@[simp] theorem setAccounts_jt (table : List Account) (s : State) : (setAccounts table s).jt = s.jt := rfl
@[simp] theorem setAccounts_accounts (table : List Account) (s : State) :
    (setAccounts table s).accounts = table := rfl
@[simp] theorem setAccounts_spm (table : List Account) (s : State) : (setAccounts table s).spm = s.spm := rfl
@[simp] theorem setAccounts_settings (table : List Account) (s : State) :
    (setAccounts table s).settings = s.settings := rfl
@[simp] theorem setAccounts_cbc (table : List Account) (s : State) : (setAccounts table s).cbc = s.cbc := rfl
@[simp] theorem setAccounts_smc (table : List Account) (s : State) : (setAccounts table s).smc = s.smc := rfl
@[simp] theorem setAccounts_bc (table : List Account) (s : State) : (setAccounts table s).bc = s.bc := rfl
@[simp] theorem setAccounts_se (table : List Account) (s : State) : (setAccounts table s).se = s.se := rfl
@[simp] theorem setAccounts_fm (table : List Account) (s : State) : (setAccounts table s).fm = s.fm := rfl
@[simp] theorem setAccounts_ps (table : List Account) (s : State) :
    (setAccounts table s).ps = writeAccounts (written .accounts table) s.ps := rfl
@[simp] theorem setAccounts_noise (table : List Account) (s : State) : (setAccounts table s).noise = s.noise := rfl
@[simp] theorem setAccounts_noiseTaken (table : List Account) (s : State) :
    (setAccounts table s).noiseTaken = s.noiseTaken := rfl
@[simp] theorem setAccounts_pending (table : List Account) (s : State) :
    (setAccounts table s).pending = s.pending := rfl

/-! ### updateAccount -/

theorem updateAccount_same (id : Nat) (f : Account → Account) (s : State) (h : changeAccount id f s.accounts = s.accounts) :
    updateAccount id f s = s := if_pos h
theorem updateAccount_changed (id : Nat) (f : Account → Account) (s : State)
    (h : changeAccount id f s.accounts ≠ s.accounts) :
    updateAccount id f s = setAccounts (changeAccount id f s.accounts) s := if_neg h
/-- R30: the table after a change of a record; ACCOUNTS is written only where the table changed. -/
theorem updateAccount_eq (id : Nat) (f : Account → Account) (s : State) :
    updateAccount id f s = { s with
      accounts := changeAccount id f s.accounts
      ps := if changeAccount id f s.accounts = s.accounts then s.ps
            else writeAccounts (written .accounts (changeAccount id f s.accounts)) s.ps } := by
  by_cases h : changeAccount id f s.accounts = s.accounts
  · simp only [updateAccount_same id f s h, h, if_true]
  · simp only [updateAccount_changed id f s h, if_neg h, setAccounts]
@[simp] theorem updateAccount_powered (id : Nat) (f : Account → Account) (s : State) :
    (updateAccount id f s).powered = s.powered := by rw [updateAccount_eq]
@[simp] theorem updateAccount_clock (id : Nat) (f : Account → Account) (s : State) :
    (updateAccount id f s).clock = s.clock := by rw [updateAccount_eq]
@[simp] theorem updateAccount_startUp (id : Nat) (f : Account → Account) (s : State) :
    (updateAccount id f s).startUp = s.startUp := by rw [updateAccount_eq]
@[simp] theorem updateAccount_lif (id : Nat) (f : Account → Account) (s : State) :
    (updateAccount id f s).lif = s.lif := by rw [updateAccount_eq]
@[simp] theorem updateAccount_jt (id : Nat) (f : Account → Account) (s : State) :
    (updateAccount id f s).jt = s.jt := by rw [updateAccount_eq]
@[simp] theorem updateAccount_spm (id : Nat) (f : Account → Account) (s : State) :
    (updateAccount id f s).spm = s.spm := by rw [updateAccount_eq]
@[simp] theorem updateAccount_settings (id : Nat) (f : Account → Account) (s : State) :
    (updateAccount id f s).settings = s.settings := by rw [updateAccount_eq]
@[simp] theorem updateAccount_cbc (id : Nat) (f : Account → Account) (s : State) :
    (updateAccount id f s).cbc = s.cbc := by rw [updateAccount_eq]
@[simp] theorem updateAccount_smc (id : Nat) (f : Account → Account) (s : State) :
    (updateAccount id f s).smc = s.smc := by rw [updateAccount_eq]
@[simp] theorem updateAccount_bc (id : Nat) (f : Account → Account) (s : State) :
    (updateAccount id f s).bc = s.bc := by rw [updateAccount_eq]
@[simp] theorem updateAccount_se (id : Nat) (f : Account → Account) (s : State) :
    (updateAccount id f s).se = s.se := by rw [updateAccount_eq]
@[simp] theorem updateAccount_fm (id : Nat) (f : Account → Account) (s : State) :
    (updateAccount id f s).fm = s.fm := by rw [updateAccount_eq]
@[simp] theorem updateAccount_noise (id : Nat) (f : Account → Account) (s : State) :
    (updateAccount id f s).noise = s.noise := by rw [updateAccount_eq]
@[simp] theorem updateAccount_noiseTaken (id : Nat) (f : Account → Account) (s : State) :
    (updateAccount id f s).noiseTaken = s.noiseTaken := by rw [updateAccount_eq]
@[simp] theorem updateAccount_pending (id : Nat) (f : Account → Account) (s : State) :
    (updateAccount id f s).pending = s.pending := by rw [updateAccount_eq]
@[simp] theorem updateAccount_accounts (id : Nat) (f : Account → Account) (s : State) :
    (updateAccount id f s).accounts = changeAccount id f s.accounts := by rw [updateAccount_eq]
theorem updateAccount_ps (id : Nat) (f : Account → Account) (s : State) :
    (updateAccount id f s).ps = if changeAccount id f s.accounts = s.accounts then s.ps
      else writeAccounts (written .accounts (changeAccount id f s.accounts)) s.ps := by rw [updateAccount_eq]

/-! ### setDefects -/

@[simp] theorem setDefects_powered (d : Defects) (s : State) : (setDefects d s).powered = s.powered := rfl
@[simp] theorem setDefects_clock (d : Defects) (s : State) : (setDefects d s).clock = s.clock := rfl
@[simp] theorem setDefects_startUp (d : Defects) (s : State) : (setDefects d s).startUp = s.startUp := rfl
@[simp] theorem setDefects_lif (d : Defects) (s : State) : (setDefects d s).lif = s.lif := rfl
@[simp] theorem setDefects_jt (d : Defects) (s : State) : (setDefects d s).jt = s.jt := rfl
@[simp] theorem setDefects_accounts (d : Defects) (s : State) : (setDefects d s).accounts = s.accounts := rfl
@[simp] theorem setDefects_spm (d : Defects) (s : State) : (setDefects d s).spm = s.spm := rfl
@[simp] theorem setDefects_settings (d : Defects) (s : State) : (setDefects d s).settings = s.settings := rfl
@[simp] theorem setDefects_cbc (d : Defects) (s : State) : (setDefects d s).cbc = s.cbc := rfl
@[simp] theorem setDefects_smc (d : Defects) (s : State) : (setDefects d s).smc = { s.smc with defects := d } := rfl
@[simp] theorem setDefects_bc (d : Defects) (s : State) : (setDefects d s).bc = s.bc := rfl
@[simp] theorem setDefects_se (d : Defects) (s : State) : (setDefects d s).se = s.se := rfl
@[simp] theorem setDefects_fm (d : Defects) (s : State) : (setDefects d s).fm = s.fm := rfl
@[simp] theorem setDefects_ps (d : Defects) (s : State) :
    (setDefects d s).ps = writeDefects (written .defects d) s.ps := rfl
@[simp] theorem setDefects_noise (d : Defects) (s : State) : (setDefects d s).noise = s.noise := rfl
@[simp] theorem setDefects_noiseTaken (d : Defects) (s : State) : (setDefects d s).noiseTaken = s.noiseTaken := rfl
@[simp] theorem setDefects_pending (d : Defects) (s : State) : (setDefects d s).pending = s.pending := rfl

/-! ### setSettings -/

@[simp] theorem setSettings_powered (g : Settings) (s : State) : (setSettings g s).powered = s.powered := rfl
@[simp] theorem setSettings_clock (g : Settings) (s : State) : (setSettings g s).clock = s.clock := rfl
@[simp] theorem setSettings_startUp (g : Settings) (s : State) : (setSettings g s).startUp = s.startUp := rfl
@[simp] theorem setSettings_lif (g : Settings) (s : State) : (setSettings g s).lif = s.lif := rfl
@[simp] theorem setSettings_jt (g : Settings) (s : State) : (setSettings g s).jt = s.jt := rfl
@[simp] theorem setSettings_accounts (g : Settings) (s : State) : (setSettings g s).accounts = s.accounts := rfl
@[simp] theorem setSettings_spm (g : Settings) (s : State) : (setSettings g s).spm = s.spm := rfl
@[simp] theorem setSettings_settings (g : Settings) (s : State) : (setSettings g s).settings = g := rfl
@[simp] theorem setSettings_cbc (g : Settings) (s : State) : (setSettings g s).cbc = s.cbc := rfl
@[simp] theorem setSettings_smc (g : Settings) (s : State) : (setSettings g s).smc = s.smc := rfl
@[simp] theorem setSettings_bc (g : Settings) (s : State) : (setSettings g s).bc = s.bc := rfl
@[simp] theorem setSettings_se (g : Settings) (s : State) : (setSettings g s).se = s.se := rfl
@[simp] theorem setSettings_fm (g : Settings) (s : State) : (setSettings g s).fm = s.fm := rfl
@[simp] theorem setSettings_ps (g : Settings) (s : State) :
    (setSettings g s).ps = writeSettings (written .settings g) s.ps := rfl
@[simp] theorem setSettings_noise (g : Settings) (s : State) : (setSettings g s).noise = s.noise := rfl
@[simp] theorem setSettings_noiseTaken (g : Settings) (s : State) : (setSettings g s).noiseTaken = s.noiseTaken := rfl
@[simp] theorem setSettings_pending (g : Settings) (s : State) : (setSettings g s).pending = s.pending := rfl

/-! ### setKeys -/

@[simp] theorem setKeys_powered (k : KeysContent) (s : State) : (setKeys k s).powered = s.powered := rfl
@[simp] theorem setKeys_clock (k : KeysContent) (s : State) : (setKeys k s).clock = s.clock := rfl
@[simp] theorem setKeys_startUp (k : KeysContent) (s : State) : (setKeys k s).startUp = s.startUp := rfl
@[simp] theorem setKeys_lif (k : KeysContent) (s : State) : (setKeys k s).lif = s.lif := rfl
@[simp] theorem setKeys_jt (k : KeysContent) (s : State) : (setKeys k s).jt = s.jt := rfl
@[simp] theorem setKeys_accounts (k : KeysContent) (s : State) : (setKeys k s).accounts = s.accounts := rfl
@[simp] theorem setKeys_spm (k : KeysContent) (s : State) : (setKeys k s).spm = s.spm := rfl
@[simp] theorem setKeys_settings (k : KeysContent) (s : State) : (setKeys k s).settings = s.settings := rfl
@[simp] theorem setKeys_cbc (k : KeysContent) (s : State) : (setKeys k s).cbc = s.cbc := rfl
@[simp] theorem setKeys_smc (k : KeysContent) (s : State) : (setKeys k s).smc = s.smc := rfl
@[simp] theorem setKeys_bc (k : KeysContent) (s : State) : (setKeys k s).bc = s.bc := rfl
@[simp] theorem setKeys_se (k : KeysContent) (s : State) : (setKeys k s).se = s.se := rfl
@[simp] theorem setKeys_fm (k : KeysContent) (s : State) : (setKeys k s).fm = s.fm := rfl
@[simp] theorem setKeys_ps (k : KeysContent) (s : State) :
    (setKeys k s).ps = { writeKeys (written .keys k) s.ps with loadedKeys := some k } := rfl
@[simp] theorem setKeys_noise (k : KeysContent) (s : State) : (setKeys k s).noise = s.noise := rfl
@[simp] theorem setKeys_noiseTaken (k : KeysContent) (s : State) : (setKeys k s).noiseTaken = s.noiseTaken := rfl
@[simp] theorem setKeys_pending (k : KeysContent) (s : State) : (setKeys k s).pending = s.pending := rfl

/-! ### setHistory -/

@[simp] theorem setHistory_powered (entries : List HistoryEntry) (lifetime : Nat) (s : State) :
    (setHistory entries lifetime s).powered = s.powered := rfl
@[simp] theorem setHistory_clock (entries : List HistoryEntry) (lifetime : Nat) (s : State) :
    (setHistory entries lifetime s).clock = s.clock := rfl
@[simp] theorem setHistory_startUp (entries : List HistoryEntry) (lifetime : Nat) (s : State) :
    (setHistory entries lifetime s).startUp = s.startUp := rfl
@[simp] theorem setHistory_lif (entries : List HistoryEntry) (lifetime : Nat) (s : State) :
    (setHistory entries lifetime s).lif = s.lif := rfl
@[simp] theorem setHistory_jt (entries : List HistoryEntry) (lifetime : Nat) (s : State) :
    (setHistory entries lifetime s).jt = s.jt := rfl
@[simp] theorem setHistory_accounts (entries : List HistoryEntry) (lifetime : Nat) (s : State) :
    (setHistory entries lifetime s).accounts = s.accounts := rfl
@[simp] theorem setHistory_spm (entries : List HistoryEntry) (lifetime : Nat) (s : State) :
    (setHistory entries lifetime s).spm = s.spm := rfl
@[simp] theorem setHistory_settings (entries : List HistoryEntry) (lifetime : Nat) (s : State) :
    (setHistory entries lifetime s).settings = s.settings := rfl
@[simp] theorem setHistory_cbc (entries : List HistoryEntry) (lifetime : Nat) (s : State) :
    (setHistory entries lifetime s).cbc = { s.cbc with history := entries, lifetime := lifetime } := rfl
@[simp] theorem setHistory_smc (entries : List HistoryEntry) (lifetime : Nat) (s : State) :
    (setHistory entries lifetime s).smc = s.smc := rfl
@[simp] theorem setHistory_bc (entries : List HistoryEntry) (lifetime : Nat) (s : State) :
    (setHistory entries lifetime s).bc = s.bc := rfl
@[simp] theorem setHistory_se (entries : List HistoryEntry) (lifetime : Nat) (s : State) :
    (setHistory entries lifetime s).se = s.se := rfl
@[simp] theorem setHistory_fm (entries : List HistoryEntry) (lifetime : Nat) (s : State) :
    (setHistory entries lifetime s).fm = s.fm := rfl
@[simp] theorem setHistory_ps (entries : List HistoryEntry) (lifetime : Nat) (s : State) :
    (setHistory entries lifetime s).ps =
      writeHistory (written .history { entries := entries, lifetime := lifetime }) s.ps := rfl
@[simp] theorem setHistory_noise (entries : List HistoryEntry) (lifetime : Nat) (s : State) :
    (setHistory entries lifetime s).noise = s.noise := rfl
@[simp] theorem setHistory_noiseTaken (entries : List HistoryEntry) (lifetime : Nat) (s : State) :
    (setHistory entries lifetime s).noiseTaken = s.noiseTaken := rfl
@[simp] theorem setHistory_pending (entries : List HistoryEntry) (lifetime : Nat) (s : State) :
    (setHistory entries lifetime s).pending = s.pending := rfl

/-! ### setHaltRecord -/

@[simp] theorem setHaltRecord_powered (h : HaltRecord) (s : State) : (setHaltRecord h s).powered = s.powered := rfl
@[simp] theorem setHaltRecord_clock (h : HaltRecord) (s : State) : (setHaltRecord h s).clock = s.clock := rfl
@[simp] theorem setHaltRecord_startUp (h : HaltRecord) (s : State) : (setHaltRecord h s).startUp = s.startUp := rfl
@[simp] theorem setHaltRecord_lif (h : HaltRecord) (s : State) : (setHaltRecord h s).lif = s.lif := rfl
@[simp] theorem setHaltRecord_jt (h : HaltRecord) (s : State) : (setHaltRecord h s).jt = s.jt := rfl
@[simp] theorem setHaltRecord_accounts (h : HaltRecord) (s : State) : (setHaltRecord h s).accounts = s.accounts := rfl
@[simp] theorem setHaltRecord_spm (h : HaltRecord) (s : State) : (setHaltRecord h s).spm = s.spm := rfl
@[simp] theorem setHaltRecord_settings (h : HaltRecord) (s : State) : (setHaltRecord h s).settings = s.settings := rfl
@[simp] theorem setHaltRecord_cbc (h : HaltRecord) (s : State) : (setHaltRecord h s).cbc = s.cbc := rfl
@[simp] theorem setHaltRecord_smc (h : HaltRecord) (s : State) : (setHaltRecord h s).smc = s.smc := rfl
@[simp] theorem setHaltRecord_bc (h : HaltRecord) (s : State) : (setHaltRecord h s).bc = s.bc := rfl
@[simp] theorem setHaltRecord_se (h : HaltRecord) (s : State) : (setHaltRecord h s).se = s.se := rfl
@[simp] theorem setHaltRecord_fm (h : HaltRecord) (s : State) :
    (setHaltRecord h s).fm = { s.fm with haltRecord := some h } := rfl
@[simp] theorem setHaltRecord_ps (h : HaltRecord) (s : State) :
    (setHaltRecord h s).ps = writeHalt (written .halt h) s.ps := rfl
@[simp] theorem setHaltRecord_noise (h : HaltRecord) (s : State) : (setHaltRecord h s).noise = s.noise := rfl
@[simp] theorem setHaltRecord_noiseTaken (h : HaltRecord) (s : State) :
    (setHaltRecord h s).noiseTaken = s.noiseTaken := rfl
@[simp] theorem setHaltRecord_pending (h : HaltRecord) (s : State) : (setHaltRecord h s).pending = s.pending := rfl

/-! ### clearHaltRecord -/

@[simp] theorem clearHaltRecord_powered (s : State) : (clearHaltRecord s).powered = s.powered := rfl
@[simp] theorem clearHaltRecord_clock (s : State) : (clearHaltRecord s).clock = s.clock := rfl
@[simp] theorem clearHaltRecord_startUp (s : State) : (clearHaltRecord s).startUp = s.startUp := rfl
@[simp] theorem clearHaltRecord_lif (s : State) : (clearHaltRecord s).lif = s.lif := rfl
@[simp] theorem clearHaltRecord_jt (s : State) : (clearHaltRecord s).jt = s.jt := rfl
@[simp] theorem clearHaltRecord_accounts (s : State) : (clearHaltRecord s).accounts = s.accounts := rfl
@[simp] theorem clearHaltRecord_spm (s : State) : (clearHaltRecord s).spm = s.spm := rfl
@[simp] theorem clearHaltRecord_settings (s : State) : (clearHaltRecord s).settings = s.settings := rfl
@[simp] theorem clearHaltRecord_cbc (s : State) : (clearHaltRecord s).cbc = s.cbc := rfl
@[simp] theorem clearHaltRecord_smc (s : State) : (clearHaltRecord s).smc = s.smc := rfl
@[simp] theorem clearHaltRecord_bc (s : State) : (clearHaltRecord s).bc = s.bc := rfl
@[simp] theorem clearHaltRecord_se (s : State) : (clearHaltRecord s).se = s.se := rfl
@[simp] theorem clearHaltRecord_fm (s : State) : (clearHaltRecord s).fm = { s.fm with haltRecord := none } := rfl
@[simp] theorem clearHaltRecord_ps (s : State) : (clearHaltRecord s).ps = writeHalt .blank s.ps := rfl
@[simp] theorem clearHaltRecord_noise (s : State) : (clearHaltRecord s).noise = s.noise := rfl
@[simp] theorem clearHaltRecord_noiseTaken (s : State) : (clearHaltRecord s).noiseTaken = s.noiseTaken := rfl
@[simp] theorem clearHaltRecord_pending (s : State) : (clearHaltRecord s).pending = s.pending := rfl

/-! ### putSlot -/

@[simp] theorem putSlot_powered (i : Fin 4) (c : CartSlot) (s : State) : (putSlot i c s).powered = s.powered := rfl
@[simp] theorem putSlot_clock (i : Fin 4) (c : CartSlot) (s : State) : (putSlot i c s).clock = s.clock := rfl
@[simp] theorem putSlot_startUp (i : Fin 4) (c : CartSlot) (s : State) : (putSlot i c s).startUp = s.startUp := rfl
@[simp] theorem putSlot_lif (i : Fin 4) (c : CartSlot) (s : State) : (putSlot i c s).lif = s.lif := rfl
@[simp] theorem putSlot_jt (i : Fin 4) (c : CartSlot) (s : State) : (putSlot i c s).jt = s.jt := rfl
@[simp] theorem putSlot_accounts (i : Fin 4) (c : CartSlot) (s : State) : (putSlot i c s).accounts = s.accounts := rfl
@[simp] theorem putSlot_spm (i : Fin 4) (c : CartSlot) (s : State) : (putSlot i c s).spm = s.spm := rfl
@[simp] theorem putSlot_settings (i : Fin 4) (c : CartSlot) (s : State) : (putSlot i c s).settings = s.settings := rfl
@[simp] theorem putSlot_cbc (i : Fin 4) (c : CartSlot) (s : State) :
    (putSlot i c s).cbc = { s.cbc with slots := s.cbc.slots.set i c } := rfl
@[simp] theorem putSlot_smc (i : Fin 4) (c : CartSlot) (s : State) : (putSlot i c s).smc = s.smc := rfl
@[simp] theorem putSlot_bc (i : Fin 4) (c : CartSlot) (s : State) : (putSlot i c s).bc = s.bc := rfl
@[simp] theorem putSlot_se (i : Fin 4) (c : CartSlot) (s : State) : (putSlot i c s).se = s.se := rfl
@[simp] theorem putSlot_fm (i : Fin 4) (c : CartSlot) (s : State) : (putSlot i c s).fm = s.fm := rfl
@[simp] theorem putSlot_ps (i : Fin 4) (c : CartSlot) (s : State) : (putSlot i c s).ps = s.ps := rfl
@[simp] theorem putSlot_noise (i : Fin 4) (c : CartSlot) (s : State) : (putSlot i c s).noise = s.noise := rfl
@[simp] theorem putSlot_noiseTaken (i : Fin 4) (c : CartSlot) (s : State) :
    (putSlot i c s).noiseTaken = s.noiseTaken := rfl
@[simp] theorem putSlot_pending (i : Fin 4) (c : CartSlot) (s : State) : (putSlot i c s).pending = s.pending := rfl

/-! ### clearBus -/

@[simp] theorem clearBus_powered (s : State) : (clearBus s).powered = s.powered := rfl
@[simp] theorem clearBus_clock (s : State) : (clearBus s).clock = s.clock := rfl
@[simp] theorem clearBus_startUp (s : State) : (clearBus s).startUp = s.startUp := rfl
@[simp] theorem clearBus_lif (s : State) : (clearBus s).lif = s.lif := rfl
@[simp] theorem clearBus_jt (s : State) : (clearBus s).jt = s.jt := rfl
@[simp] theorem clearBus_accounts (s : State) : (clearBus s).accounts = s.accounts := rfl
@[simp] theorem clearBus_spm (s : State) : (clearBus s).spm = s.spm := rfl
@[simp] theorem clearBus_settings (s : State) : (clearBus s).settings = s.settings := rfl
@[simp] theorem clearBus_cbc (s : State) : (clearBus s).cbc = { s.cbc with flight := none, work := [] } := rfl
@[simp] theorem clearBus_smc (s : State) : (clearBus s).smc = s.smc := rfl
@[simp] theorem clearBus_bc (s : State) : (clearBus s).bc = s.bc := rfl
@[simp] theorem clearBus_se (s : State) : (clearBus s).se = s.se := rfl
@[simp] theorem clearBus_fm (s : State) : (clearBus s).fm = s.fm := rfl
@[simp] theorem clearBus_ps (s : State) : (clearBus s).ps = s.ps := rfl
@[simp] theorem clearBus_noise (s : State) : (clearBus s).noise = s.noise := rfl
@[simp] theorem clearBus_noiseTaken (s : State) : (clearBus s).noiseTaken = s.noiseTaken := rfl
@[simp] theorem clearBus_pending (s : State) : (clearBus s).pending = s.pending := rfl

/-! ### endFlight -/

@[simp] theorem endFlight_powered (s : State) : (endFlight s).powered = s.powered := rfl
@[simp] theorem endFlight_clock (s : State) : (endFlight s).clock = s.clock := rfl
@[simp] theorem endFlight_startUp (s : State) : (endFlight s).startUp = s.startUp := rfl
@[simp] theorem endFlight_lif (s : State) : (endFlight s).lif = s.lif := rfl
@[simp] theorem endFlight_jt (s : State) : (endFlight s).jt = s.jt := rfl
@[simp] theorem endFlight_accounts (s : State) : (endFlight s).accounts = s.accounts := rfl
@[simp] theorem endFlight_spm (s : State) : (endFlight s).spm = s.spm := rfl
@[simp] theorem endFlight_settings (s : State) : (endFlight s).settings = s.settings := rfl
@[simp] theorem endFlight_cbc (s : State) : (endFlight s).cbc = { s.cbc with flight := none } := rfl
@[simp] theorem endFlight_smc (s : State) : (endFlight s).smc = s.smc := rfl
@[simp] theorem endFlight_bc (s : State) : (endFlight s).bc = s.bc := rfl
@[simp] theorem endFlight_se (s : State) : (endFlight s).se = s.se := rfl
@[simp] theorem endFlight_fm (s : State) : (endFlight s).fm = s.fm := rfl
@[simp] theorem endFlight_ps (s : State) : (endFlight s).ps = s.ps := rfl
@[simp] theorem endFlight_noise (s : State) : (endFlight s).noise = s.noise := rfl
@[simp] theorem endFlight_noiseTaken (s : State) : (endFlight s).noiseTaken = s.noiseTaken := rfl
@[simp] theorem endFlight_pending (s : State) : (endFlight s).pending = s.pending := rfl

/-! ### enterOp -/

@[simp] theorem enterOp_powered (op : PortOp) (s : State) : (enterOp op s).powered = s.powered := rfl
@[simp] theorem enterOp_clock (op : PortOp) (s : State) : (enterOp op s).clock = s.clock := rfl
@[simp] theorem enterOp_startUp (op : PortOp) (s : State) : (enterOp op s).startUp = s.startUp := rfl
@[simp] theorem enterOp_lif (op : PortOp) (s : State) : (enterOp op s).lif = s.lif := rfl
@[simp] theorem enterOp_jt (op : PortOp) (s : State) : (enterOp op s).jt = s.jt := rfl
@[simp] theorem enterOp_accounts (op : PortOp) (s : State) : (enterOp op s).accounts = s.accounts := rfl
@[simp] theorem enterOp_spm (op : PortOp) (s : State) : (enterOp op s).spm = s.spm := rfl
@[simp] theorem enterOp_settings (op : PortOp) (s : State) : (enterOp op s).settings = s.settings := rfl
@[simp] theorem enterOp_cbc (op : PortOp) (s : State) : (enterOp op s).cbc = s.cbc := rfl
@[simp] theorem enterOp_smc (op : PortOp) (s : State) :
    (enterOp op s).smc = { s.smc with ops := s.smc.ops ++ [op] } := rfl
@[simp] theorem enterOp_bc (op : PortOp) (s : State) : (enterOp op s).bc = s.bc := rfl
@[simp] theorem enterOp_se (op : PortOp) (s : State) : (enterOp op s).se = s.se := rfl
@[simp] theorem enterOp_fm (op : PortOp) (s : State) : (enterOp op s).fm = s.fm := rfl
@[simp] theorem enterOp_ps (op : PortOp) (s : State) : (enterOp op s).ps = s.ps := rfl
@[simp] theorem enterOp_noise (op : PortOp) (s : State) : (enterOp op s).noise = s.noise := rfl
@[simp] theorem enterOp_noiseTaken (op : PortOp) (s : State) : (enterOp op s).noiseTaken = s.noiseTaken := rfl
@[simp] theorem enterOp_pending (op : PortOp) (s : State) : (enterOp op s).pending = s.pending := rfl

/-! ### endPortFlight -/

@[simp] theorem endPortFlight_powered (s : State) : (endPortFlight s).powered = s.powered := rfl
@[simp] theorem endPortFlight_clock (s : State) : (endPortFlight s).clock = s.clock := rfl
@[simp] theorem endPortFlight_startUp (s : State) : (endPortFlight s).startUp = s.startUp := rfl
@[simp] theorem endPortFlight_lif (s : State) : (endPortFlight s).lif = s.lif := rfl
@[simp] theorem endPortFlight_jt (s : State) : (endPortFlight s).jt = s.jt := rfl
@[simp] theorem endPortFlight_accounts (s : State) : (endPortFlight s).accounts = s.accounts := rfl
@[simp] theorem endPortFlight_spm (s : State) : (endPortFlight s).spm = s.spm := rfl
@[simp] theorem endPortFlight_settings (s : State) : (endPortFlight s).settings = s.settings := rfl
@[simp] theorem endPortFlight_cbc (s : State) : (endPortFlight s).cbc = s.cbc := rfl
@[simp] theorem endPortFlight_smc (s : State) : (endPortFlight s).smc = { s.smc with inFlight := none } := rfl
@[simp] theorem endPortFlight_bc (s : State) : (endPortFlight s).bc = s.bc := rfl
@[simp] theorem endPortFlight_se (s : State) : (endPortFlight s).se = s.se := rfl
@[simp] theorem endPortFlight_fm (s : State) : (endPortFlight s).fm = s.fm := rfl
@[simp] theorem endPortFlight_ps (s : State) : (endPortFlight s).ps = s.ps := rfl
@[simp] theorem endPortFlight_noise (s : State) : (endPortFlight s).noise = s.noise := rfl
@[simp] theorem endPortFlight_noiseTaken (s : State) : (endPortFlight s).noiseTaken = s.noiseTaken := rfl
@[simp] theorem endPortFlight_pending (s : State) : (endPortFlight s).pending = s.pending := rfl

/-! ### discardStaging -/

@[simp] theorem discardStaging_powered (s : State) : (discardStaging s).powered = s.powered := rfl
@[simp] theorem discardStaging_clock (s : State) : (discardStaging s).clock = s.clock := rfl
@[simp] theorem discardStaging_startUp (s : State) : (discardStaging s).startUp = s.startUp := rfl
@[simp] theorem discardStaging_lif (s : State) : (discardStaging s).lif = s.lif := rfl
@[simp] theorem discardStaging_jt (s : State) : (discardStaging s).jt = s.jt := rfl
@[simp] theorem discardStaging_accounts (s : State) : (discardStaging s).accounts = s.accounts := rfl
@[simp] theorem discardStaging_spm (s : State) : (discardStaging s).spm = { s.spm with staging := [] } := rfl
@[simp] theorem discardStaging_settings (s : State) : (discardStaging s).settings = s.settings := rfl
@[simp] theorem discardStaging_cbc (s : State) : (discardStaging s).cbc = s.cbc := rfl
@[simp] theorem discardStaging_smc (s : State) : (discardStaging s).smc = dropReads .staging s.smc := rfl
@[simp] theorem discardStaging_bc (s : State) : (discardStaging s).bc = s.bc := rfl
@[simp] theorem discardStaging_se (s : State) : (discardStaging s).se = s.se := rfl
@[simp] theorem discardStaging_fm (s : State) : (discardStaging s).fm = s.fm := rfl
@[simp] theorem discardStaging_ps (s : State) : (discardStaging s).ps = s.ps := rfl
@[simp] theorem discardStaging_noise (s : State) : (discardStaging s).noise = s.noise := rfl
@[simp] theorem discardStaging_noiseTaken (s : State) : (discardStaging s).noiseTaken = s.noiseTaken := rfl
@[simp] theorem discardStaging_pending (s : State) : (discardStaging s).pending = s.pending := rfl

/-! ### zeroize -/

@[simp] theorem zeroize_powered (i : Fin 64) (s : State) : (zeroize i s).powered = s.powered := rfl
@[simp] theorem zeroize_clock (i : Fin 64) (s : State) : (zeroize i s).clock = s.clock := rfl
@[simp] theorem zeroize_startUp (i : Fin 64) (s : State) : (zeroize i s).startUp = s.startUp := rfl
@[simp] theorem zeroize_lif (i : Fin 64) (s : State) : (zeroize i s).lif = s.lif := rfl
@[simp] theorem zeroize_jt (i : Fin 64) (s : State) : (zeroize i s).jt = s.jt := rfl
@[simp] theorem zeroize_accounts (i : Fin 64) (s : State) : (zeroize i s).accounts = s.accounts := rfl
@[simp] theorem zeroize_spm (i : Fin 64) (s : State) : (zeroize i s).spm = s.spm := rfl
@[simp] theorem zeroize_settings (i : Fin 64) (s : State) : (zeroize i s).settings = s.settings := rfl
@[simp] theorem zeroize_cbc (i : Fin 64) (s : State) : (zeroize i s).cbc = s.cbc := rfl
@[simp] theorem zeroize_smc (i : Fin 64) (s : State) : (zeroize i s).smc = s.smc := rfl
@[simp] theorem zeroize_bc (i : Fin 64) (s : State) :
    (zeroize i s).bc = { s.bc with keys := s.bc.keys.set i none } := rfl
@[simp] theorem zeroize_se (i : Fin 64) (s : State) : (zeroize i s).se = s.se := rfl
@[simp] theorem zeroize_fm (i : Fin 64) (s : State) : (zeroize i s).fm = s.fm := rfl
@[simp] theorem zeroize_ps (i : Fin 64) (s : State) : (zeroize i s).ps = s.ps := rfl
@[simp] theorem zeroize_noise (i : Fin 64) (s : State) : (zeroize i s).noise = s.noise := rfl
@[simp] theorem zeroize_noiseTaken (i : Fin 64) (s : State) : (zeroize i s).noiseTaken = s.noiseTaken := rfl
@[simp] theorem zeroize_pending (i : Fin 64) (s : State) : (zeroize i s).pending = s.pending := rfl

/-! ### countRetired -/

@[simp] theorem countRetired_powered (s : State) : (countRetired s).powered = s.powered := rfl
@[simp] theorem countRetired_clock (s : State) : (countRetired s).clock = s.clock := rfl
@[simp] theorem countRetired_startUp (s : State) : (countRetired s).startUp = s.startUp := rfl
@[simp] theorem countRetired_lif (s : State) : (countRetired s).lif = s.lif := rfl
@[simp] theorem countRetired_jt (s : State) : (countRetired s).jt = s.jt := rfl
@[simp] theorem countRetired_accounts (s : State) : (countRetired s).accounts = s.accounts := rfl
@[simp] theorem countRetired_spm (s : State) : (countRetired s).spm = s.spm := rfl
@[simp] theorem countRetired_settings (s : State) : (countRetired s).settings = s.settings := rfl
@[simp] theorem countRetired_cbc (s : State) : (countRetired s).cbc = s.cbc := rfl
@[simp] theorem countRetired_smc (s : State) : (countRetired s).smc = s.smc := rfl
@[simp] theorem countRetired_bc (s : State) : (countRetired s).bc = s.bc := rfl
@[simp] theorem countRetired_se (s : State) :
    (countRetired s).se = { s.se with sanitize := s.se.sanitize.map fun z => { z with retired := z.retired + 1 } } := rfl
@[simp] theorem countRetired_fm (s : State) : (countRetired s).fm = s.fm := rfl
@[simp] theorem countRetired_ps (s : State) : (countRetired s).ps = s.ps := rfl
@[simp] theorem countRetired_noise (s : State) : (countRetired s).noise = s.noise := rfl
@[simp] theorem countRetired_noiseTaken (s : State) : (countRetired s).noiseTaken = s.noiseTaken := rfl
@[simp] theorem countRetired_pending (s : State) : (countRetired s).pending = s.pending := rfl

/-! ### countReturned -/

@[simp] theorem countReturned_powered (s : State) : (countReturned s).powered = s.powered := rfl
@[simp] theorem countReturned_clock (s : State) : (countReturned s).clock = s.clock := rfl
@[simp] theorem countReturned_startUp (s : State) : (countReturned s).startUp = s.startUp := rfl
@[simp] theorem countReturned_lif (s : State) : (countReturned s).lif = s.lif := rfl
@[simp] theorem countReturned_jt (s : State) : (countReturned s).jt = s.jt := rfl
@[simp] theorem countReturned_accounts (s : State) : (countReturned s).accounts = s.accounts := rfl
@[simp] theorem countReturned_spm (s : State) : (countReturned s).spm = s.spm := rfl
@[simp] theorem countReturned_settings (s : State) : (countReturned s).settings = s.settings := rfl
@[simp] theorem countReturned_cbc (s : State) : (countReturned s).cbc = s.cbc := rfl
@[simp] theorem countReturned_smc (s : State) : (countReturned s).smc = s.smc := rfl
@[simp] theorem countReturned_bc (s : State) : (countReturned s).bc = s.bc := rfl
@[simp] theorem countReturned_se (s : State) :
    (countReturned s).se = { s.se with sanitize := s.se.sanitize.map fun z => { z with returned := z.returned + 1 } } := rfl
@[simp] theorem countReturned_fm (s : State) : (countReturned s).fm = s.fm := rfl
@[simp] theorem countReturned_ps (s : State) : (countReturned s).ps = s.ps := rfl
@[simp] theorem countReturned_noise (s : State) : (countReturned s).noise = s.noise := rfl
@[simp] theorem countReturned_noiseTaken (s : State) : (countReturned s).noiseTaken = s.noiseTaken := rfl
@[simp] theorem countReturned_pending (s : State) : (countReturned s).pending = s.pending := rfl

/-! ### endWork -/

@[simp] theorem endWork_powered (s : State) : (endWork s).powered = s.powered := rfl
@[simp] theorem endWork_clock (s : State) : (endWork s).clock = s.clock := rfl
@[simp] theorem endWork_startUp (s : State) : (endWork s).startUp = s.startUp := rfl
@[simp] theorem endWork_lif (s : State) : (endWork s).lif = s.lif := rfl
@[simp] theorem endWork_jt (s : State) : (endWork s).jt = s.jt := rfl
@[simp] theorem endWork_accounts (s : State) : (endWork s).accounts = s.accounts := rfl
@[simp] theorem endWork_spm (s : State) : (endWork s).spm = s.spm := rfl
@[simp] theorem endWork_settings (s : State) : (endWork s).settings = s.settings := rfl
@[simp] theorem endWork_cbc (s : State) : (endWork s).cbc = s.cbc := rfl
@[simp] theorem endWork_smc (s : State) : (endWork s).smc = s.smc := rfl
@[simp] theorem endWork_bc (s : State) : (endWork s).bc = s.bc := rfl
@[simp] theorem endWork_se (s : State) : (endWork s).se = { s.se with work := none } := rfl
@[simp] theorem endWork_fm (s : State) : (endWork s).fm = s.fm := rfl
@[simp] theorem endWork_ps (s : State) : (endWork s).ps = s.ps := rfl
@[simp] theorem endWork_noise (s : State) : (endWork s).noise = s.noise := rfl
@[simp] theorem endWork_noiseTaken (s : State) : (endWork s).noiseTaken = s.noiseTaken := rfl
@[simp] theorem endWork_pending (s : State) : (endWork s).pending = s.pending := rfl

/-! ### toStep -/

@[simp] theorem toStep_powered (n : Nat) (s : State) : (toStep n s).powered = s.powered := rfl
@[simp] theorem toStep_clock (n : Nat) (s : State) : (toStep n s).clock = s.clock := rfl
@[simp] theorem toStep_startUp (n : Nat) (s : State) :
    (toStep n s).startUp = s.startUp.map fun u => { u with step := n } := rfl
@[simp] theorem toStep_lif (n : Nat) (s : State) : (toStep n s).lif = s.lif := rfl
@[simp] theorem toStep_jt (n : Nat) (s : State) : (toStep n s).jt = s.jt := rfl
@[simp] theorem toStep_accounts (n : Nat) (s : State) : (toStep n s).accounts = s.accounts := rfl
@[simp] theorem toStep_spm (n : Nat) (s : State) : (toStep n s).spm = s.spm := rfl
@[simp] theorem toStep_settings (n : Nat) (s : State) : (toStep n s).settings = s.settings := rfl
@[simp] theorem toStep_cbc (n : Nat) (s : State) : (toStep n s).cbc = s.cbc := rfl
@[simp] theorem toStep_smc (n : Nat) (s : State) : (toStep n s).smc = s.smc := rfl
@[simp] theorem toStep_bc (n : Nat) (s : State) : (toStep n s).bc = s.bc := rfl
@[simp] theorem toStep_se (n : Nat) (s : State) : (toStep n s).se = s.se := rfl
@[simp] theorem toStep_fm (n : Nat) (s : State) : (toStep n s).fm = s.fm := rfl
@[simp] theorem toStep_ps (n : Nat) (s : State) : (toStep n s).ps = s.ps := rfl
@[simp] theorem toStep_noise (n : Nat) (s : State) : (toStep n s).noise = s.noise := rfl
@[simp] theorem toStep_noiseTaken (n : Nat) (s : State) : (toStep n s).noiseTaken = s.noiseTaken := rfl
@[simp] theorem toStep_pending (n : Nat) (s : State) : (toStep n s).pending = s.pending := rfl

end Sys2Proof.Machine
end

