-- ==== Sys2Proof/Laws/Blocks.lean ====
section
/-! SUPPORT. The part of State that the logical blocks depend on (section 6.2), as a small state of its own: what every
operation does to the blocks is said on it, and its invariant is that of BlocksOk with what it needs of the job table. -/

namespace Sys2Proof.Machine

/-- What the blocks need of a job. -/
structure Holder where
  handle  : Nat
  state   : JobState
  dest    : Destination
  extents : List Extent

/-- The job's part. -/
def holderOf (j : Job) : Holder := ⟨j.handle, j.state, destinationOf j.kind, j.extents⟩

/-- The holder is not in SCRUB. -/
def Holder.live (j : Holder) : Bool :=
  match j.state with
  | .scrub _ => false
  | _ => true

/-- The part of State that the blocks depend on. programs and flight are the programs alone, as handle and block. -/
@[ext] structure Core where
  gen         : Fin 64 → Nat
  job         : Fin 64 → Option Holder
  queue       : Destination → Queue
  free        : List Nat
  defects     : Defects
  list        : List ScrubEntry
  work        : Option Nat
  filling     : Option (Nat × Nat)
  programming : Option (Nat × Nat × ProgramPhase)
  programs    : List (Nat × Nat)
  flight      : Option (Nat × Nat)
  stored      : List Defects
  part        : PartState
  stage       : Option Nat

/-- The handle and block of a program. -/
def programOf : PortOp → Option (Nat × Nat)
  | .program h b _ => some (h, b)
  | _ => none

/-- The handle and block of a program in flight. -/
def flownOf : PortFlight → Option (Nat × Nat)
  | .program h b _ _ => some (h, b)
  | _ => none

/-- The blocks' part of a state. -/
def core (s : State) : Core where
  gen i := (s.jt.slots.get i).generation
  job i := (s.jt.slots.get i).job.map holderOf
  queue := queueOf s.jt
  free := s.smc.free
  defects := s.smc.defects
  list := s.se.list
  work := s.se.work.map (·.block)
  filling := s.smc.filling.map fun f => (f.handle, f.block)
  programming := s.smc.programming.map fun p => (p.handle, p.block, p.phase)
  programs := s.smc.ops.filterMap programOf
  flight := s.smc.inFlight.bind flownOf
  stored := storedDefects s.ps
  part := s.fm.part
  stage := s.startUp.map (·.step)

namespace Core

/-- The holder a handle names. -/
def Has (c : Core) (h : Nat) (j : Holder) : Prop := c.job (slotOf h) = some j ∧ j.handle = h

/-- The blocks of the extent list of a slot. -/
def held (c : Core) (i : Fin 64) : List Nat := ((c.job i).map fun j => extentBlocks j.extents).getD []

/-- The blocks of all extent lists. -/
def allocated (c : Core) : List Nat := (List.finRange 64).flatMap c.held

/-- The blocks of the four collections. -/
def blocks (c : Core) : List Nat := c.free ++ c.allocated ++ c.list.map (·.block) ++ c.defects.retired

/-- The block is in the extent list of a handle's job. -/
def OwnsBlock (c : Core) (h b : Nat) : Prop := ∃ j, c.Has h j ∧ b ∈ extentBlocks j.extents

/-- The step of the start-up, 8 while RUNNING. -/
def stageOf (c : Core) : Nat :=
  match c.stage with
  | some n => n
  | none => if c.part = .running then 8 else 0

/-- CollectedOk, on the blocks' part of a state. -/
def Counted (c : Core) : Prop :=
  (5 ≤ c.stageOf → c.blocks.Perm (List.range Config.logicalBlocks))
    ∧ (c.stageOf < 5 → c.blocks = [] ∨ c.part = .halted ∧ c.blocks.Perm (List.range Config.logicalBlocks))

end Core

/-- The part of the invariant that speaks of the slots, the queues and the origins of the scrub list. -/
structure HoldersOk (c : Core) : Prop where
  gen : ∀ i, c.gen i < 256
  handle : ∀ i j, c.job i = some j → j.handle = c.gen i * 64 + i
  nodup : ∀ d, (c.queue d).waiting.Nodup
  waiting : ∀ d, ∀ h ∈ (c.queue d).waiting, ∃ j, c.Has h j ∧ j.state = .queued ∧ j.dest = d
  active : ∀ d h, (c.queue d).active = some h → ∃ j, c.Has h j ∧ j.state = .active ∧ j.dest = d
  dead : ∀ i j, c.job i = some j → j.live = false → j.extents = []
  origin : ∀ e ∈ c.list, ∀ h, e.origin = .job h → ∃ j, c.Has h j ∧ j.live = false

/-- The invariant. -/
structure CoreOk (c : Core) : Prop extends HoldersOk c where
  work : ∀ b, c.work = some b → b ∈ c.list.map (·.block)
  filling : ∀ h b, c.filling = some (h, b) → c.OwnsBlock h b
  programming : ∀ h b ph, c.programming = some (h, b, ph) → ph ≠ .inFlight →
    c.OwnsBlock h b ∧ ∀ g b', c.filling = some (g, b') → b' ≠ b
  programs : ∀ h b, (h, b) ∈ c.programs → c.programming = some (h, b, .waiting)
  single : c.programs.length ≤ 1
  flight : ∀ h b, c.flight = some (h, b) →
    ((∃ g b', c.programming = some (g, b', .inFlight)) ∨ c.programming = none ∧ c.part = .halted)
    ∧ (({ block := b, origin := .job h } : ScrubEntry) ∈ c.list
      ∨ c.OwnsBlock h b ∧ (∀ g b', c.filling = some (g, b') → b' ≠ b)
        ∧ ∀ g b' ph, c.programming = some (g, b', ph) → g = h ∧ b' = b)
  defects : DefectsOk c.defects
  clean : ∀ b, b ∈ c.defects.clean ↔ b ∈ c.free
  stored : ∀ d ∈ c.stored, DefectsOk d
  counted : c.Counted
  starting : ∀ n, c.stage = some n → c.part = .starting ∧ 1 ≤ n

end Sys2Proof.Machine
end

