-- ==== Sys2Proof/Laws/BlocksCore.lean ====
section
/-! SUPPORT. What each change of the blocks' part of a state does to its invariant. -/

namespace Sys2Proof.Machine

/-! ### Ascending lists -/

@[simp] theorem mem_insertNumber (n a : Nat) (l : List Nat) : a ∈ insertNumber n l ↔ a = n ∨ a ∈ l := by
  induction l with
  | nil => simp [insertNumber]
  | cons m rest ih =>
    simp only [insertNumber]
    split
    · simp
    · split
      · rename_i h
        subst h
        simp
      · simp [ih]
        tauto

theorem pairwise_insertNumber (n : Nat) {l : List Nat} (h : l.Pairwise (· < ·)) : (insertNumber n l).Pairwise (· < ·) := by
  induction l with
  | nil => simp [insertNumber]
  | cons m rest ih =>
    rw [List.pairwise_cons] at h
    simp only [insertNumber]
    split
    · rename_i hn
      refine List.pairwise_cons.mpr ⟨fun a ha => ?_, List.pairwise_cons.mpr h⟩
      rcases List.mem_cons.mp ha with rfl | ha
      · exact hn
      · exact hn.trans (h.1 a ha)
    · split
      · exact List.pairwise_cons.mpr h
      · refine List.pairwise_cons.mpr ⟨fun a ha => ?_, ih h.2⟩
        rcases (mem_insertNumber n a rest).mp ha with rfl | ha
        · omega
        · exact h.1 a ha

theorem nodup_of_ascending {l : List Nat} (h : l.Pairwise (· < ·)) : l.Nodup := h.imp fun h => h.ne

theorem perm_insertNumber {n : Nat} {l : List Nat} (h : l.Pairwise (· < ·)) (hn : n ∉ l) :
    (insertNumber n l).Perm (n :: l) :=
  (List.perm_ext_iff_of_nodup (nodup_of_ascending (pairwise_insertNumber n h))
    (List.nodup_cons.mpr ⟨hn, nodup_of_ascending h⟩)).mpr (by simp)

/-! ### Slots and handles -/

namespace Core

variable {c : Core}

theorem Has.unique {h : Nat} {j k : Holder} (a : c.Has h j) (b : c.Has h k) : j = k :=
  Option.some.inj (a.1.symm.trans b.1)

/-- A holder takes its place in its slot. -/
def put (j : Holder) (c : Core) : Core := { c with job := Function.update c.job (slotOf j.handle) (some j) }

theorem has_put {j k : Holder} {h : Nat} :
    (c.put j).Has h k ↔ (h = j.handle ∧ k = j) ∨ (slotOf h ≠ slotOf j.handle ∧ c.Has h k) := by
  unfold put Has
  by_cases e : slotOf h = slotOf j.handle
  · simp only [e, Function.update_self, Option.some.injEq, ne_eq, not_true_eq_false, false_and, or_false]
    constructor
    · rintro ⟨rfl, rfl⟩
      exact ⟨rfl, rfl⟩
    · rintro ⟨rfl, rfl⟩
      exact ⟨rfl, rfl⟩
  · simp only [Function.update_of_ne e, ne_eq, e, not_false_eq_true, true_and]
    constructor
    · exact fun h => .inr h
    · rintro (⟨rfl, _⟩ | h)
      · exact absurd rfl e
      · exact h

/-- The holders after one that a handle names is replaced under its handle. -/
theorem has_replaced {j j' k : Holder} {h : Nat} (hj : c.Has h j) (e : j'.handle = h) {g : Nat} :
    (c.put j').Has g k ↔ (g = h ∧ k = j') ∨ (g ≠ h ∧ c.Has g k) := by
  subst e
  rw [has_put]
  refine or_congr Iff.rfl ⟨fun a => ⟨fun b => a.1 (b ▸ rfl), a.2⟩, fun a => ⟨fun b => a.1 ?_, a.2⟩⟩
  have := Option.some.inj ((b ▸ a.2.1 : c.job (slotOf j'.handle) = some k).symm.trans hj.1)
  rw [← a.2.2, this, hj.2]

theorem held_put {j : Holder} {i : Fin 64} :
    (c.put j).held i = if i = slotOf j.handle then extentBlocks j.extents else c.held i := by
  unfold put held
  by_cases e : i = slotOf j.handle
  · simp [e]
  · simp [e]

/-- The blocks of the extent lists after a slot's holder is replaced. -/
theorem allocated_update (f g : Fin 64 → List Nat) (i : Fin 64) (h : ∀ k, k ≠ i → g k = f k) :
    ((List.finRange 64).flatMap g ++ f i).Perm ((List.finRange 64).flatMap f ++ g i) := by
  have key : ∀ l : List (Fin 64), l.Nodup → i ∈ l → (l.flatMap g ++ f i).Perm (l.flatMap f ++ g i) := by
    intro l
    induction l with
    | nil => intro _ h; cases h
    | cons a rest ih =>
      intro hn hm
      rw [List.nodup_cons] at hn
      simp only [List.flatMap_cons]
      by_cases e : a = i
      · subst e
        have : rest.flatMap g = rest.flatMap f :=
          List.flatMap_congr fun k hk => h k (fun e => hn.1 (e ▸ hk))
        rw [this, List.append_assoc, List.append_assoc]
        refine List.perm_append_comm.trans ?_
        rw [List.append_assoc]
        exact (List.perm_append_comm_assoc _ _ _).trans (List.Perm.append_left _ (by rfl))
      · have := ih hn.2 (List.mem_of_ne_of_mem (Ne.symm e) hm)
        rw [h a e, List.append_assoc, List.append_assoc]
        exact this.append_left _
  exact key _ (List.nodup_finRange 64) (List.mem_finRange i)

theorem Has.held {h : Nat} {j : Holder} (a : c.Has h j) : c.held (slotOf h) = extentBlocks j.extents := by
  simp [Core.held, a.1]

theorem allocated_put {h : Nat} {j j' : Holder} (hj : c.Has h j) (e : j'.handle = h) :
    ((c.put j').allocated ++ extentBlocks j.extents).Perm (c.allocated ++ extentBlocks j'.extents) := by
  have := allocated_update c.held (c.put j').held (slotOf h) fun k hk => by rw [held_put, e, if_neg hk]
  rwa [hj.held, held_put, e, if_pos rfl] at this

theorem OwnsBlock.allocated {h b : Nat} (o : c.OwnsBlock h b) : b ∈ c.allocated := by
  obtain ⟨j, hj, hb⟩ := o
  exact List.mem_flatMap.mpr ⟨slotOf h, List.mem_finRange _, hj.held ▸ hb⟩

theorem mem_blocks {b : Nat} :
    b ∈ c.blocks ↔ b ∈ c.free ∨ b ∈ c.allocated ∨ b ∈ c.list.map (·.block) ∨ b ∈ c.defects.retired := by
  simp only [blocks, List.mem_append, or_assoc]

/-- The collections may be rearranged. -/
theorem Counted.of_perm {c c' : Core} (h : c.Counted) (hp : c'.blocks.Perm c.blocks) (hs : c'.stage = c.stage)
    (hq : c'.part = c.part) : c'.Counted := by
  have e : c'.stageOf = c.stageOf := by rw [stageOf, stageOf, hs, hq]
  refine ⟨fun k => hp.trans (h.1 (e ▸ k)), fun k => (h.2 (e ▸ k)).imp (fun z => ?_) fun z => ⟨hq ▸ z.1, hp.trans z.2⟩⟩
  rw [z] at hp
  exact hp.eq_nil

end Core

variable {c : Core}

/-- A block of the collections is there only where they are complete. -/
theorem CoreOk.full (h : CoreOk c) {b : Nat} (hb : b ∈ c.blocks) : c.blocks.Perm (List.range Config.logicalBlocks) := by
  by_cases k : 5 ≤ c.stageOf
  · exact h.counted.1 k
  · rcases h.counted.2 (by omega) with z | z
    · rw [z] at hb
      cases hb
    · exact z.2

theorem CoreOk.lt (h : CoreOk c) {b : Nat} (hb : b ∈ c.blocks) : b < Config.logicalBlocks :=
  List.mem_range.mp ((h.full hb).mem_iff.mp hb)

theorem CoreOk.nodupBlocks (h : CoreOk c) : c.blocks.Nodup := by
  cases e : c.blocks with
  | nil => exact List.nodup_nil
  | cons b rest =>
    rw [← e]
    exact (h.full (b := b) (by simp [e])).nodup_iff.mpr List.nodup_range

theorem CoreOk.free_not (h : CoreOk c) {b : Nat} (hb : b ∈ c.free) :
    b ∉ c.allocated ∧ b ∉ c.list.map (·.block) ∧ b ∉ c.defects.retired := by
  have := h.nodupBlocks
  simp only [Core.blocks, List.nodup_append, List.mem_append] at this
  refine ⟨fun k => ?_, fun k => ?_, fun k => ?_⟩
  · exact this.1.1.2.2 b hb b k rfl
  · exact this.1.2.2 b (.inl hb) b k rfl
  · exact this.2.2 b (.inl (.inl hb)) b k rfl

theorem CoreOk.allocated_not (h : CoreOk c) {b : Nat} (hb : b ∈ c.allocated) :
    b ∉ c.free ∧ b ∉ c.list.map (·.block) ∧ b ∉ c.defects.retired := by
  have := h.nodupBlocks
  simp only [Core.blocks, List.nodup_append, List.mem_append] at this
  refine ⟨fun k => ?_, fun k => ?_, fun k => ?_⟩
  · exact this.1.1.2.2 b k b hb rfl
  · exact this.1.2.2 b (.inr hb) b k rfl
  · exact this.2.2 b (.inl (.inr hb)) b k rfl

theorem CoreOk.list_not (h : CoreOk c) {b : Nat} (hb : b ∈ c.list.map (·.block)) :
    b ∉ c.free ∧ b ∉ c.allocated ∧ b ∉ c.defects.retired := by
  have := h.nodupBlocks
  simp only [Core.blocks, List.nodup_append, List.mem_append] at this
  refine ⟨fun k => ?_, fun k => ?_, fun k => ?_⟩
  · exact this.1.2.2 b (.inl k) b hb rfl
  · exact this.1.2.2 b (.inr k) b hb rfl
  · exact this.2.2 b (.inr hb) b k rfl

theorem CoreOk.nodupFree (h : CoreOk c) : c.free.Nodup := by
  have := h.nodupBlocks
  simp only [Core.blocks, List.nodup_append] at this
  exact this.1.1.1

theorem CoreOk.nodupAllocated (h : CoreOk c) : c.allocated.Nodup := by
  have := h.nodupBlocks
  simp only [Core.blocks, List.nodup_append] at this
  exact this.1.1.2.1

theorem CoreOk.nodupList (h : CoreOk c) : (c.list.map (·.block)).Nodup := by
  have := h.nodupBlocks
  simp only [Core.blocks, List.nodup_append] at this
  exact this.1.2.1

theorem CoreOk.nodupHeld (h : CoreOk c) (i : Fin 64) : (c.held i).Nodup :=
  (List.nodup_flatMap.mp h.nodupAllocated).1 i (List.mem_finRange i)

/-- A block has one owner. -/
theorem CoreOk.owner (h : CoreOk c) {g k b : Nat} (a : c.OwnsBlock g b) (b' : c.OwnsBlock k b) : g = k := by
  obtain ⟨j, hj, hb⟩ := a
  obtain ⟨j', hj', hb'⟩ := b'
  have hs : slotOf g = slotOf k := by
    by_contra ne
    have hd := (List.nodup_flatMap.mp h.nodupAllocated).2
    have : Std.Symm (Function.onFun List.Disjoint c.held) := ⟨fun _ _ h => List.Disjoint.symm h⟩
    exact hd.forall (List.mem_finRange _) (List.mem_finRange _) ne (hj.held ▸ hb) (hj'.held ▸ hb')
  rw [← hj.2, ← hj'.2, Option.some.inj (hj.1.symm.trans (hs ▸ hj'.1))]

/-- An owner is live. -/
theorem CoreOk.live (h : CoreOk c) {g b : Nat} {j : Holder} (hj : c.Has g j) (hb : b ∈ extentBlocks j.extents) :
    j.live = true := by
  cases e : j.live with
  | true => rfl
  | false =>
    rw [h.dead _ _ hj.1 e] at hb
    cases hb

end Sys2Proof.Machine
end

