-- ==== Sys2Proof/Laws/BlocksOps.lean ====
section
/-! SUPPORT. The changes of the blocks' part of a state keep its invariant: moves of jobs between states and queues, blocks
taken, moved, handed over, retired and returned, images and programs, halts and start-ups. -/

namespace Sys2Proof.Machine

variable {c : Core}

namespace Core

/-- A live holder replaced under its handle by one of the same extents: what each handle names after. -/
theorem Has.keep {g x : Nat} {j j' k : Holder} (hj : c.Has g j) (e : j'.handle = g) (hk : c.Has x k) :
    ∃ k', (c.put j').Has x k' ∧ (x ≠ g → k' = k) ∧ (x = g → k' = j' ∧ k = j) := by
  by_cases hx : x = g
  · subst hx
    exact ⟨j', (has_replaced hj e).mpr (.inl ⟨rfl, rfl⟩), fun n => absurd rfl n, fun _ => ⟨rfl, hk.unique hj⟩⟩
  · exact ⟨k, (has_replaced hj e).mpr (.inr ⟨hx, hk⟩), fun _ => rfl, fun n => absurd n hx⟩

/-- What a slot holds after a holder is replaced. -/
theorem slot_put {g : Nat} {j' k : Holder} (e : j'.handle = g) {i : Fin 64} (hk : (c.put j').job i = some k) :
    c.job i = some k ∨ i = slotOf g ∧ k = j' := by
  subst e
  by_cases n : i = slotOf j'.handle
  · subst n
    exact .inr ⟨rfl, by simpa [Core.put] using hk.symm⟩
  · exact .inl (by simpa [Core.put, Function.update_of_ne n] using hk)

theorem owns_put {g x b : Nat} {j j' : Holder} (hj : c.Has g j) (e : j'.handle = g) (hx : j'.extents = j.extents) :
    (c.put j').OwnsBlock x b ↔ c.OwnsBlock x b := by
  constructor
  · rintro ⟨k, hk, hb⟩
    rcases (has_replaced hj e).mp hk with ⟨rfl, rfl⟩ | ⟨_, hk⟩
    · exact ⟨j, hj, hx ▸ hb⟩
    · exact ⟨k, hk, hb⟩
  · rintro ⟨k, hk, hb⟩
    obtain ⟨k', hk', h1, h2⟩ := hj.keep e hk
    refine ⟨k', hk', ?_⟩
    by_cases n : x = g
    · obtain ⟨rfl, rfl⟩ := h2 n
      exact hx ▸ hb
    · exact h1 n ▸ hb

theorem blocks_put {g : Nat} {j j' : Holder} (hj : c.Has g j) (e : j'.handle = g) :
    ((c.put j').blocks ++ extentBlocks j.extents).Perm (c.blocks ++ extentBlocks j'.extents) := by
  have := allocated_put hj e
  simp only [blocks, List.append_assoc]
  refine List.Perm.append_left _ ?_
  have h1 : ((c.put j').allocated ++ (c.list.map (·.block) ++ (c.defects.retired ++ extentBlocks j.extents))).Perm
      ((c.put j').allocated ++ extentBlocks j.extents ++ (c.list.map (·.block) ++ c.defects.retired)) := by
    rw [List.append_assoc]
    refine List.Perm.append_left _ ?_
    rw [← List.append_assoc]
    exact List.perm_append_comm
  refine h1.trans ((this.append_right _).trans ?_)
  rw [List.append_assoc]
  refine List.Perm.append_left _ ?_
  refine List.perm_append_comm.trans ?_
  rw [List.append_assoc]

theorem blocks_put_same {g : Nat} {j j' : Holder} (hj : c.Has g j) (e : j'.handle = g) (hx : j'.extents = j.extents) :
    (c.put j').blocks.Perm c.blocks := by
  have := blocks_put hj e
  rw [hx] at this
  exact (List.perm_append_right_iff _).mp this

end Core

/-- A live job moves to another live state, and the queues follow. -/
theorem CoreOk.moved (h : CoreOk c) {g : Nat} {j : Holder} (hj : c.Has g j) (hl : j.live = true) {st : JobState}
    (hst : Holder.live { j with state := st } = true) (q : Destination → Queue) (hn : ∀ d, (q d).waiting.Nodup)
    (hw : ∀ d, ∀ x ∈ (q d).waiting, x ≠ g ∧ x ∈ (c.queue d).waiting ∨ x = g ∧ st = .queued ∧ d = j.dest)
    (ha : ∀ d x, (q d).active = some x → x ≠ g ∧ (c.queue d).active = some x ∨ x = g ∧ st = .active ∧ d = j.dest) :
    CoreOk (Core.put { j with state := st } { c with queue := q }) := by
  have e : ({ j with state := st } : Holder).handle = g := hj.2
  have hc : ({ c with queue := q } : Core).Has g j := hj
  have own : ∀ x b, (Core.put { j with state := st } { c with queue := q }).OwnsBlock x b ↔ c.OwnsBlock x b :=
    fun x b => Core.owns_put hc e rfl
  have new : (Core.put { j with state := st } { c with queue := q }).Has g { j with state := st } :=
    (Core.has_replaced hc e).mpr (.inl ⟨rfl, rfl⟩)
  have old : ∀ x k, x ≠ g → c.Has x k → (Core.put { j with state := st } { c with queue := q }).Has x k :=
    fun x k n hk => (Core.has_replaced hc e).mpr (.inr ⟨n, hk⟩)
  exact {
    gen := h.gen
    handle := fun i k hk => by
      rcases Core.slot_put e hk with hk | ⟨rfl, rfl⟩
      · exact h.handle i k hk
      · exact h.handle _ j hj.1
    nodup := hn
    waiting := fun d x hx => by
      rcases hw d x hx with ⟨n, hx⟩ | ⟨rfl, hs, hd⟩
      · obtain ⟨k, hk, r⟩ := h.waiting d x hx
        exact ⟨k, old x k n hk, r⟩
      · exact ⟨_, new, hs, hd.symm⟩
    active := fun d x hx => by
      rcases ha d x hx with ⟨n, hx⟩ | ⟨rfl, hs, hd⟩
      · obtain ⟨k, hk, r⟩ := h.active d x hx
        exact ⟨k, old x k n hk, r⟩
      · exact ⟨_, new, hs, hd.symm⟩
    dead := fun i k hk hd => by
      rcases Core.slot_put e hk with hk | ⟨rfl, rfl⟩
      · exact h.dead i k hk hd
      · exact absurd hd (by simp [hst])
    origin := fun x hx y hy => by
      obtain ⟨k, hk, hd⟩ := h.origin x hx y hy
      refine ⟨k, old y k (fun n => ?_) hk, hd⟩
      subst n
      rw [hk.unique hj, hl] at hd
      cases hd
    work := h.work
    filling := fun x b hb => (own x b).mpr (h.filling x b hb)
    programming := fun x b ph hp n => ⟨(own x b).mpr (h.programming x b ph hp n).1, (h.programming x b ph hp n).2⟩
    programs := h.programs
    single := h.single
    flight := fun x b hf => ⟨(h.flight x b hf).1, (h.flight x b hf).2.imp id fun r => ⟨(own x b).mpr r.1, r.2⟩⟩
    defects := h.defects
    clean := h.clean
    stored := h.stored
    counted := h.counted.of_perm (Core.blocks_put_same hc e rfl) rfl rfl
    starting := h.starting }

/-- The queues alone change, to ones that hold less. -/
theorem CoreOk.fewer (h : CoreOk c) (q : Destination → Queue) (hn : ∀ d, (q d).waiting.Nodup)
    (hw : ∀ d, ∀ x ∈ (q d).waiting, x ∈ (c.queue d).waiting)
    (ha : ∀ d x, (q d).active = some x → (c.queue d).active = some x) : CoreOk { c with queue := q } :=
  { h with
    nodup := hn
    waiting := fun d x hx => h.waiting d x (hw d x hx)
    active := fun d x hx => h.active d x (ha d x hx) }

/-- The contents of DEFECTS that the store holds become others of the form. -/
theorem CoreOk.storing (h : CoreOk c) (l : List Defects) (hl : ∀ d ∈ l, DefectsOk d) : CoreOk { c with stored := l } :=
  { h with stored := hl }

theorem CoreOk.workless (h : CoreOk c) : CoreOk { c with work := none } := { h with work := fun _ k => nomatch k }

theorem CoreOk.landed (h : CoreOk c) : CoreOk { c with flight := none } := { h with flight := fun _ _ k => nomatch k }

theorem CoreOk.unfilled (h : CoreOk c) : CoreOk { c with filling := none } :=
  { h with
    filling := fun _ _ k => nomatch k
    programming := fun x b ph hp n => ⟨(h.programming x b ph hp n).1, fun _ _ k => nomatch k⟩
    flight := fun x b hf => ⟨(h.flight x b hf).1, (h.flight x b hf).2.imp id fun r => ⟨r.1, (fun _ _ k => nomatch k), r.2.2⟩⟩ }

/-- SE takes a block of the list into work. -/
theorem CoreOk.worked (h : CoreOk c) {b : Nat} (hb : b ∈ c.list.map (·.block)) : CoreOk { c with work := some b } :=
  { h with work := fun _ k => Option.some.inj k ▸ hb }

/-- A remap changes neither the clean map nor the retired set. -/
theorem CoreOk.remapped (h : CoreOk c) (d : Defects) (hc : d.clean = c.defects.clean) (hr : d.retired = c.defects.retired)
    (l : List Defects) (hl : ∀ d ∈ l, DefectsOk d) : CoreOk { c with defects := d, stored := l } :=
  { h with
    defects := by simpa only [DefectsOk, hc, hr] using h.defects
    clean := by simpa only [hc] using h.clean
    stored := hl
    counted := h.counted.of_perm (by simp only [Core.blocks, Core.allocated, hr]; rfl) rfl rfl }

/-! ### Blocks taken and moved -/

/-- The extent list of a live job changes. -/
theorem HoldersOk.extended (h : HoldersOk c) {g : Nat} {j : Holder} (hj : c.Has g j) (hl : j.live = true) (x : List Extent) :
    HoldersOk (c.put { j with extents := x }) := by
  have e : ({ j with extents := x } : Holder).handle = g := hj.2
  have same : ∀ y k, c.Has y k → ∃ k', (c.put { j with extents := x }).Has y k' ∧ k'.state = k.state ∧ k'.dest = k.dest := by
    intro y k hk
    obtain ⟨k', hk', n, m⟩ := hj.keep e hk
    refine ⟨k', hk', ?_⟩
    by_cases hy : y = g
    · obtain ⟨rfl, rfl⟩ := m hy
      exact ⟨rfl, rfl⟩
    · rw [n hy]
      exact ⟨rfl, rfl⟩
  exact {
    gen := h.gen
    handle := fun i k hk => by
      rcases Core.slot_put e hk with hk | ⟨rfl, rfl⟩
      · exact h.handle i k hk
      · exact h.handle _ j hj.1
    nodup := h.nodup
    waiting := fun q y hy => by
      obtain ⟨k, hk, a, b⟩ := h.waiting q y hy
      obtain ⟨k', hk', a', b'⟩ := same y k hk
      exact ⟨k', hk', a'.trans a, b'.trans b⟩
    active := fun q y hy => by
      obtain ⟨k, hk, a, b⟩ := h.active q y hy
      obtain ⟨k', hk', a', b'⟩ := same y k hk
      exact ⟨k', hk', a'.trans a, b'.trans b⟩
    dead := fun i k hk hd => by
      rcases Core.slot_put e hk with hk | ⟨rfl, rfl⟩
      · exact h.dead i k hk hd
      · exact absurd hd (by simpa [Holder.live] using hl)
    origin := fun y hy z hz => by
      obtain ⟨k, hk, hd⟩ := h.origin y hy z hz
      refine ⟨k, (Core.has_replaced hj e).mpr (.inr ⟨fun n => ?_, hk⟩), hd⟩
      subst n
      rw [hk.unique hj, hl] at hd
      cases hd }

/-- The content of DEFECTS with a block out of the clean map. -/
def uncleaned (b : Nat) (d : Defects) : Defects := { d with clean := d.clean.erase b }

theorem takenDefects (h : CoreOk c) (b : Nat) : DefectsOk (uncleaned b c.defects) :=
  ⟨h.defects.1.sublist List.erase_sublist, h.defects.2.1, fun x hx => h.defects.2.2.1 x (List.mem_of_mem_erase hx), h.defects.2.2.2⟩

theorem taken_clean (h : CoreOk c) {b : Nat} {rest : List Nat} (hf : c.free = b :: rest) (x : Nat) :
    x ∈ c.defects.clean.erase b ↔ x ∈ rest := by
  have hn := h.nodupFree
  rw [hf, List.nodup_cons] at hn
  rw [(nodup_of_ascending h.defects.1).mem_erase_iff, h.clean, hf, List.mem_cons]
  constructor
  · rintro ⟨n, rfl | m⟩
    · exact absurd rfl n
    · exact m
  · exact fun m => ⟨fun e => hn.1 (e ▸ m), .inr m⟩

/-- A block leaves the head of the free list and the clean map, and the filling image becomes that of a block. -/
def Core.taken (b : Nat) (rest : List Nat) (filling : Option (Nat × Nat)) (c : Core) : Core :=
  { c with
    free := rest
    defects := uncleaned b c.defects
    stored := uncleaned b c.defects :: c.stored
    filling := filling }

/-- R115: the head of the free list joins the extent list of a live job, as its filling image. -/
theorem CoreOk.grown (h : CoreOk c) {g : Nat} {j : Holder} (hj : c.Has g j) (hl : j.live = true) {b : Nat} {rest : List Nat}
    (hf : c.free = b :: rest) (x : List Extent) (hx : (extentBlocks x).Perm (b :: extentBlocks j.extents)) :
    CoreOk (Core.put { j with extents := x } (c.taken b rest (some (g, b)))) := by
  set d : Core := c.taken b rest (some (g, b)) with hd
  have e : ({ j with extents := x } : Holder).handle = g := hj.2
  have hc : d.Has g j := hj
  have hb := h.free_not (b := b) (by simp [hf])
  have own : ∀ y b', c.OwnsBlock y b' → (Core.put { j with extents := x } d).OwnsBlock y b' := by
    rintro y b' ⟨k, hk, hb'⟩
    obtain ⟨k', hk', n, m⟩ := hc.keep e hk
    refine ⟨k', hk', ?_⟩
    by_cases hy : y = g
    · obtain ⟨rfl, rfl⟩ := m hy
      exact hx.mem_iff.mpr (List.mem_cons_of_mem _ hb')
    · exact n hy ▸ hb'
  have new : (Core.put { j with extents := x } d).Has g { j with extents := x } := (Core.has_replaced hc e).mpr (.inl ⟨rfl, rfl⟩)
  exact {
    toHoldersOk := HoldersOk.extended (c := d) ⟨h.gen, h.handle, h.nodup, h.waiting, h.active, h.dead, h.origin⟩ hc hl x
    work := h.work
    filling := fun y b' hb' => by
      obtain ⟨rfl, rfl⟩ := Prod.mk.inj (Option.some.inj hb')
      exact ⟨_, new, hx.mem_iff.mpr (List.mem_cons_self ..)⟩
    programming := fun y b' ph hp n => by
      have o := (h.programming y b' ph hp n).1
      refine ⟨own y b' o, fun z b'' hz => ?_⟩
      obtain ⟨rfl, rfl⟩ := Prod.mk.inj (Option.some.inj hz)
      exact fun e => hb.1 (e ▸ o.allocated)
    programs := h.programs
    single := h.single
    flight := fun y b' hy => by
      refine ⟨(h.flight y b' hy).1, (h.flight y b' hy).2.imp id fun r => ⟨own y b' r.1, fun z b'' hz => ?_, r.2.2⟩⟩
      obtain ⟨rfl, rfl⟩ := Prod.mk.inj (Option.some.inj hz)
      exact fun e => hb.1 (e ▸ r.1.allocated)
    defects := takenDefects h b
    clean := taken_clean h hf
    stored := fun y hy => by
      rcases List.mem_cons.mp hy with rfl | hy
      · exact takenDefects h b
      · exact h.stored y hy
    counted := by
      refine h.counted.of_perm (c' := Core.put { j with extents := x } d) ?_ rfl rfl
      have p := Core.blocks_put hc e
      have q : (c.blocks).Perm (b :: d.blocks) := by
        simp only [Core.blocks, hf, hd, Core.taken, List.cons_append]
        rfl
      refine (List.perm_append_right_iff (extentBlocks j.extents)).mp (p.trans ?_)
      refine ((List.perm_append_left_iff d.blocks).mpr hx).trans ?_
      exact (List.perm_middle).trans (q.symm.append_right _)
    starting := h.starting }

/-- The content of DEFECTS with a block in the retired set. -/
def retiredWith (b : Nat) (d : Defects) : Defects := { d with retired := insertNumber b d.retired }

theorem DefectsOk.retiredWith {d : Defects} (h : DefectsOk d) {b : Nat} (hb : b < Config.logicalBlocks) (hn : b ∉ d.clean) :
    DefectsOk (retiredWith b d) :=
  ⟨h.1, pairwise_insertNumber b h.2.1,
    fun x hx => ⟨(h.2.2.1 x hx).1, fun m => ((mem_insertNumber b x _).mp m).elim (fun e => hn (e ▸ hx)) (h.2.2.1 x hx).2⟩,
    fun x hx => ((mem_insertNumber b x _).mp hx).elim (fun e => e ▸ hb) (h.2.2.2 x)⟩

/-- The programming image moves from a block to the head of the free list, and its program is entered. -/
def Core.imageMoved (g old b : Nat) (rest : List Nat) (c : Core) : Core :=
  { c with
    free := rest
    defects := retiredWith old (uncleaned b c.defects)
    stored := retiredWith old (uncleaned b c.defects) :: uncleaned b c.defects :: c.stored
    programming := some (g, b, .waiting)
    programs := c.programs ++ [(g, b)] }

/-- R118: an image that waits for a block moves to a fresh one, and its old block is retired. -/
theorem CoreOk.imageMoved (h : CoreOk c) {g old : Nat} {j : Holder} (hp : c.programming = some (g, old, .needsBlock))
    (hj : c.Has g j) {b : Nat} {rest : List Nat} (hf : c.free = b :: rest) (x : List Extent)
    (hx : (old :: extentBlocks x).Perm (b :: extentBlocks j.extents)) :
    CoreOk (Core.put { j with extents := x } (c.imageMoved g old b rest)) := by
  set d : Core := c.imageMoved g old b rest with hd
  have e : ({ j with extents := x } : Holder).handle = g := hj.2
  have hc : d.Has g j := hj
  have hb := h.free_not (b := b) (by simp [hf])
  have ho := h.programming g old _ hp (by simp)
  have hold := h.allocated_not ho.1.allocated
  have hext : old ∈ extentBlocks j.extents := by
    obtain ⟨k, hk, m⟩ := ho.1
    exact hk.unique hj ▸ m
  have hl := h.live hj hext
  have hne : b ≠ old := fun n => hold.1 (n ▸ (by simp [hf]))
  have hcl : old ∉ (uncleaned b c.defects).clean := fun m => hold.1 ((h.clean old).mp (List.mem_of_mem_erase m))
  have own : ∀ y b', b' ≠ old → c.OwnsBlock y b' → (Core.put { j with extents := x } d).OwnsBlock y b' := by
    rintro y b' hn ⟨k, hk, hb'⟩
    obtain ⟨k', hk', n, m⟩ := hc.keep e hk
    refine ⟨k', hk', ?_⟩
    by_cases hy : y = g
    · obtain ⟨rfl, rfl⟩ := m hy
      exact List.mem_of_ne_of_mem hn (hx.mem_iff.mpr (List.mem_cons_of_mem _ hb'))
    · exact n hy ▸ hb'
  have new : (Core.put { j with extents := x } d).OwnsBlock g b :=
    ⟨_, (Core.has_replaced hc e).mpr (.inl ⟨rfl, rfl⟩),
      List.mem_of_ne_of_mem hne (hx.mem_iff.mpr (List.mem_cons_self ..))⟩
  have none : c.programs = [] := by
    refine List.eq_nil_iff_forall_not_mem.mpr fun y hy => ?_
    have := h.programs y.1 y.2 hy
    rw [hp] at this
    simp at this
  have ok := (takenDefects h b).retiredWith (h.lt (Core.mem_blocks.mpr (.inr (.inl ho.1.allocated)))) hcl
  exact {
    toHoldersOk := HoldersOk.extended (c := d) ⟨h.gen, h.handle, h.nodup, h.waiting, h.active, h.dead, h.origin⟩ hc hl x
    work := h.work
    filling := fun y b' hb' => own y b' (ho.2 y b' hb') (h.filling y b' hb')
    programming := fun y b' ph hy n => by
      obtain ⟨rfl, hz⟩ := Prod.mk.inj (Option.some.inj hy)
      obtain ⟨rfl, rfl⟩ := Prod.mk.inj hz
      exact ⟨new, fun z b'' hz e => hb.1 (e ▸ (h.filling z b'' hz).allocated)⟩
    programs := fun y b' hy => by
      simp only [hd, Core.put, Core.imageMoved, none, List.nil_append, List.mem_singleton, Prod.mk.injEq] at hy
      rw [hy.1, hy.2]
      rfl
    single := by simp [hd, Core.put, Core.imageMoved, none]
    flight := fun y b' hy => by
      have := (h.flight y b' hy).1
      rw [hp] at this
      simp at this
    defects := ok
    clean := taken_clean h hf
    stored := fun y hy => by
      rcases List.mem_cons.mp hy with rfl | hy
      · exact ok
      · rcases List.mem_cons.mp hy with rfl | hy
        · exact takenDefects h b
        · exact h.stored y hy
    counted := by
      refine h.counted.of_perm (c' := Core.put { j with extents := x } d) ?_ rfl rfl
      have p := Core.blocks_put hc e
      have r : (insertNumber old c.defects.retired).Perm (old :: c.defects.retired) :=
        perm_insertNumber h.defects.2.1 hold.2.2
      have q : (b :: d.blocks).Perm (old :: c.blocks) := by
        have e1 : b :: d.blocks = (c.free ++ c.allocated ++ c.list.map (·.block)) ++ insertNumber old c.defects.retired := by
          rw [hf]
          rfl
        have e2 : c.blocks = (c.free ++ c.allocated ++ c.list.map (·.block)) ++ c.defects.retired := rfl
        rw [e1, e2]
        exact (r.append_left _).trans List.perm_middle
      refine (List.perm_append_right_iff (extentBlocks j.extents)).mp (p.trans ?_)
      refine (List.perm_cons old).mp ?_
      refine (List.perm_middle.symm.trans ((List.perm_append_left_iff d.blocks).mpr hx)).trans ?_
      exact List.perm_middle.trans (q.append_right _)
    starting := h.starting }

/-! ### Jobs closed, freed and opened -/

/-- The changes of a close: the job holds nothing, and its blocks that are not retired join the scrub list. -/
def Core.handed (j : Holder) (o : JobOutcome) (c : Core) : Core :=
  Core.put { j with state := .scrub o, extents := [] }
    { c with list := c.list ++ ((extentBlocks j.extents).filter fun b => !(c.defects.retired.contains b)).map
                fun b => { block := b, origin := .job j.handle } }

/-- What stands of the images, the queues and DEFECTS after the first part of a close (R118 to R120). -/
def Core.prepared (q : Destination → Queue) (defects : Defects) (stored : List Defects) (filling : Option (Nat × Nat))
    (programming : Option (Nat × Nat × ProgramPhase)) (programs : List (Nat × Nat)) (c : Core) : Core :=
  { c with
    queue := q
    defects := defects
    stored := stored
    filling := filling
    programming := programming
    programs := programs }

/-- R5: the close of a live job. -/
theorem CoreOk.handed (h : CoreOk c) {g : Nat} {j : Holder} (hj : c.Has g j) (hl : j.live = true) (o : JobOutcome)
    {q : Destination → Queue} {defects : Defects} {stored : List Defects} {filling : Option (Nat × Nat)}
    {programming : Option (Nat × Nat × ProgramPhase)} {programs : List (Nat × Nat)}
    (hn : ∀ d, (q d).waiting.Nodup) (hw : ∀ d, ∀ x ∈ (q d).waiting, x ≠ g ∧ x ∈ (c.queue d).waiting)
    (ha : ∀ d x, (q d).active = some x → x ≠ g ∧ (c.queue d).active = some x)
    (hd : defects = c.defects
      ∨ c.flight = none ∧ ∃ b ∈ extentBlocks j.extents, defects = retiredWith b c.defects)
    (hs : ∀ d ∈ stored, DefectsOk d)
    (hf : ∀ y b, filling = some (y, b) → y ≠ g ∧ c.filling = some (y, b))
    (hp : ∀ y b ph, programming = some (y, b, ph) → c.programming = some (y, b, ph) ∧ (y ≠ g ∨ ph = .inFlight))
    (hi : c.flight ≠ none → programming = c.programming)
    (hr : programs = [] ∨ programs = c.programs ∧ programming = c.programming) :
    CoreOk (Core.handed j o (c.prepared q defects stored filling programming programs)) := by
  set d := c.prepared q defects stored filling programming programs with hdef
  have hfree : ∀ b ∈ extentBlocks j.extents, b ∉ c.free ∧ b ∉ c.list.map (·.block) ∧ b ∉ c.defects.retired :=
    fun b hb => h.allocated_not (Core.OwnsBlock.allocated ⟨j, hj, hb⟩)
  have hlt : ∀ b ∈ extentBlocks j.extents, b < Config.logicalBlocks :=
    fun b hb => h.lt (Core.mem_blocks.mpr (.inr (.inl (Core.OwnsBlock.allocated ⟨j, hj, hb⟩))))
  have e : ({ j with state := .scrub o, extents := [] } : Holder).handle = g := hj.2
  set moved := (extentBlocks j.extents).filter fun b => !(defects.retired.contains b) with hm
  set t : Core := { d with list := d.list ++ moved.map fun b => { block := b, origin := .job j.handle } } with ht
  have hc : t.Has g j := hj
  have goal : Core.handed j o d = t.put { j with state := .scrub o, extents := [] } := rfl
  rw [goal]
  have new : (t.put { j with state := .scrub o, extents := [] }).Has g { j with state := .scrub o, extents := [] } :=
    (Core.has_replaced hc e).mpr (.inl ⟨rfl, rfl⟩)
  have old : ∀ y k, y ≠ g → c.Has y k → (t.put { j with state := .scrub o, extents := [] }).Has y k :=
    fun y k n hk => (Core.has_replaced hc e).mpr (.inr ⟨n, hk⟩)
  have own : ∀ y b, y ≠ g → c.OwnsBlock y b → (t.put { j with state := .scrub o, extents := [] }).OwnsBlock y b :=
    fun y b n ⟨k, hk, hb⟩ => ⟨k, old y k n hk, hb⟩
  have okd : DefectsOk defects := by
    rcases hd with rfl | ⟨_, b, hb, rfl⟩
    · exact h.defects
    · exact h.defects.retiredWith (hlt b hb) fun m => (hfree b hb).1 ((h.clean b).mp m)
  have hcl : defects.clean = c.defects.clean := by
    rcases hd with rfl | ⟨_, b, hb, rfl⟩ <;> rfl
  have hperm : (moved ++ defects.retired).Perm (extentBlocks j.extents ++ c.defects.retired) := by
    rcases hd with rfl | ⟨_, b, hb, rfl⟩
    · rw [hm, List.filter_eq_self.mpr fun b hb => by simpa using (hfree b hb).2.2]
    · have hnd := h.nodupHeld (slotOf g)
      rw [hj.held] at hnd
      have e1 : moved = (extentBlocks j.extents).erase b := by
        rw [hm, hnd.erase_eq_filter]
        refine List.filter_congr fun y hy => ?_
        have := (hfree y hy).2.2
        simp only [retiredWith, List.contains_eq_mem, mem_insertNumber, this, or_false]
        by_cases ey : y = b <;> simp [ey]
      rw [e1]
      refine ((perm_insertNumber h.defects.2.1 (hfree b hb).2.2).append_left _).trans ?_
      refine List.perm_middle.trans ?_
      exact ((List.perm_cons_erase hb).symm.append_right _)
  exact {
    gen := h.gen
    handle := fun i k hk => by
      rcases Core.slot_put e hk with hk | ⟨rfl, rfl⟩
      · exact h.handle i k hk
      · exact h.handle _ j hj.1
    nodup := hn
    waiting := fun d x hx => by
      obtain ⟨k, hk, r⟩ := h.waiting d x (hw d x hx).2
      exact ⟨k, old x k (hw d x hx).1 hk, r⟩
    active := fun d x hx => by
      obtain ⟨k, hk, r⟩ := h.active d x (ha d x hx).2
      exact ⟨k, old x k (ha d x hx).1 hk, r⟩
    dead := fun i k hk hd => by
      rcases Core.slot_put e hk with hk | ⟨rfl, rfl⟩
      · exact h.dead i k hk hd
      · rfl
    origin := fun x hx y hy => by
      rcases List.mem_append.mp hx with hx | hx
      · obtain ⟨k, hk, hd⟩ := h.origin x hx y hy
        refine ⟨k, old y k (fun n => ?_) hk, hd⟩
        subst n
        rw [hk.unique hj, hl] at hd
        cases hd
      · obtain ⟨b, _, rfl⟩ := List.mem_map.mp hx
        have : y = g := by
          simp only [ScrubOrigin.job.injEq] at hy
          rw [← hy, hj.2]
        exact this ▸ ⟨_, new, rfl⟩
    work := fun b hb => by
      simp only [ht, Core.put, List.map_append, List.mem_append]
      exact .inl (h.work b hb)
    filling := fun y b hb => own y b (hf y b hb).1 (h.filling y b (hf y b hb).2)
    programming := fun y b ph hy n => by
      obtain ⟨hy, hg⟩ := hp y b ph hy
      have := h.programming y b ph hy n
      exact ⟨own y b (hg.resolve_right n) this.1, fun z b' hz => this.2 z b' (hf z b' hz).2⟩
    programs := fun y b hy => by
      rcases hr with hr | ⟨hr, hq⟩
      · exact absurd (show (y, b) ∈ programs from hy) (by simp [hr])
      · exact hq.trans (h.programs y b (hr ▸ hy))
    single := by
      rcases hr with hr | ⟨hr, _⟩
      · exact (by simp [hr] : programs.length ≤ 1)
      · exact (hr ▸ h.single : programs.length ≤ 1)
    flight := fun y b hy => by
      have hq : programming = c.programming := hi (by rw [show c.flight = some (y, b) from hy]; simp)
      refine ⟨by simpa only [ht, hdef, Core.put, Core.prepared, hq] using (h.flight y b hy).1, ?_⟩
      rcases (h.flight y b hy).2 with m | ⟨m, n, k⟩
      · exact .inl (List.mem_append.mpr (.inl m))
      · by_cases hyg : y = g
        · subst hyg
          left
          obtain ⟨k', hk', hb⟩ := m
          rw [hk'.unique hj] at hb
          refine List.mem_append.mpr (.inr (List.mem_map.mpr ⟨b, ?_, by rw [hj.2]⟩))
          rcases hd with rfl | ⟨hnone, _⟩
          · exact List.mem_filter.mpr ⟨hb, by simpa using (hfree b hb).2.2⟩
          · rw [show c.flight = some (y, b) from hy] at hnone
            cases hnone
        · exact .inr ⟨own y b hyg m, fun z b' hz => n z b' (hf z b' hz).2, fun z b' ph hz => k z b' ph (hq ▸ hz)⟩
    defects := okd
    clean := fun b => by
      show b ∈ defects.clean ↔ b ∈ c.free
      rw [hcl]
      exact h.clean b
    stored := hs
    counted := by
      refine h.counted.of_perm ?_ rfl rfl
      have p := Core.blocks_put hc e
      refine (List.perm_append_right_iff (extentBlocks j.extents)).mp (p.trans ?_)
      have e1 : t.blocks = c.free ++ c.allocated ++ (c.list.map (·.block)) ++ (moved ++ defects.retired) := by
        simp only [ht, hdef, Core.blocks, Core.prepared, List.map_append, List.map_map, List.append_assoc]
        have : (moved.map ((fun x : ScrubEntry => x.block) ∘ fun b => { block := b, origin := .job j.handle })) = moved := by
          simp [Function.comp_def]
        rw [this]
        rfl
      have e2 : c.blocks = c.free ++ c.allocated ++ (c.list.map (·.block)) ++ c.defects.retired := rfl
      rw [e1, e2, show extentBlocks ([] : List Extent) = [] from rfl, List.append_nil, List.append_assoc _ c.defects.retired]
      exact (hperm.trans List.perm_append_comm).append_left _
    starting := h.starting }

/-- R6: the slot of a job in SCRUB with no entry on the list becomes FREE. -/
theorem CoreOk.freed (h : CoreOk c) {g : Nat} {j : Holder} (hj : c.Has g j) (hl : j.live = false)
    (he : ∀ e ∈ c.list, e.origin ≠ .job g) :
    CoreOk { c with gen := Function.update c.gen (slotOf g) ((c.gen (slotOf g) + 1) % 256), job := Function.update c.job (slotOf g) none } := by
  set d : Core := { c with gen := Function.update c.gen (slotOf g) ((c.gen (slotOf g) + 1) % 256), job := Function.update c.job (slotOf g) none } with hd
  have old : ∀ y k, y ≠ g → c.Has y k → d.Has y k := by
    intro y k n hk
    have hs : slotOf y ≠ slotOf g := fun s => n (by
      have a := hk.1
      rw [s, hj.1] at a
      rw [← hk.2, ← hj.2, Option.some.inj a])
    exact ⟨by simpa [hd, Function.update_of_ne hs] using hk.1, hk.2⟩
  have alive : ∀ y k, c.Has y k → k.live = true → d.Has y k := fun y k hk hv => by
    refine old y k (fun n => ?_) hk
    subst n
    rw [hk.unique hj, hl] at hv
    cases hv
  have own : ∀ y b, c.OwnsBlock y b → d.OwnsBlock y b := fun y b ⟨k, hk, hb⟩ => ⟨k, alive y k hk (h.live hk hb), hb⟩
  have slot : ∀ i k, d.job i = some k → i ≠ slotOf g ∧ c.job i = some k := by
    intro i k hk
    by_cases n : i = slotOf g
    · subst n
      simp [hd] at hk
    · exact ⟨n, by simpa [hd, Function.update_of_ne n] using hk⟩
  exact { h with
    gen := fun i => by
      by_cases n : i = slotOf g
      · subst n
        simpa [hd] using Nat.mod_lt _ (by decide)
      · simpa [hd, Function.update_of_ne n] using h.gen i
    handle := fun i k hk => by
      obtain ⟨n, hk⟩ := slot i k hk
      simpa [hd, Function.update_of_ne n] using h.handle i k hk
    waiting := fun q x hx => by
      obtain ⟨k, hk, r⟩ := h.waiting q x hx
      exact ⟨k, alive x k hk (by simp [Holder.live, r.1]), r⟩
    active := fun q x hx => by
      obtain ⟨k, hk, r⟩ := h.active q x hx
      exact ⟨k, alive x k hk (by simp [Holder.live, r.1]), r⟩
    dead := fun i k hk hv => h.dead i k (slot i k hk).2 hv
    origin := fun e he' y hy => by
      obtain ⟨k, hk, r⟩ := h.origin e he' y hy
      exact ⟨k, old y k (fun n => he e he' (n ▸ hy)) hk, r⟩
    filling := fun y b hb => own y b (h.filling y b hb)
    programming := fun y b ph hp n => ⟨own y b (h.programming y b ph hp n).1, (h.programming y b ph hp n).2⟩
    flight := fun y b hf => ⟨(h.flight y b hf).1, (h.flight y b hf).2.imp id fun r => ⟨own y b r.1, r.2⟩⟩
    counted := by
      refine h.counted.of_perm ?_ rfl rfl
      have he : extentBlocks j.extents = [] := by rw [h.dead _ _ hj.1 hl]; rfl
      have := Core.allocated_update c.held d.held (slotOf g) fun k hk => by
        simp [hd, Core.held, Function.update_of_ne hk]
      rw [hj.held, he, List.append_nil] at this
      have hz : d.held (slotOf g) = [] := by simp [hd, Core.held]
      rw [hz, List.append_nil] at this
      exact ((this.append_left c.free).append_right _).append_right _ }

/-- R2: a job without blocks takes a FREE slot. -/
theorem CoreOk.opened (h : CoreOk c) {i : Fin 64} (hi : c.job i = none) {j : Holder} (hh : j.handle = c.gen i * 64 + i)
    (hx : j.extents = []) (hl : j.live = true) : CoreOk (c.put j) := by
  have hs : slotOf j.handle = i := Fin.ext (by
    have := i.isLt
    simp only [slotOf, hh]
    omega)
  have old : ∀ y k, c.Has y k → (c.put j).Has y k := by
    intro y k hk
    refine Core.has_put.mpr (.inr ⟨fun s => ?_, hk⟩)
    have a := hk.1
    rw [s, hs, hi] at a
    cases a
  have own : ∀ y b, c.OwnsBlock y b → (c.put j).OwnsBlock y b := fun y b ⟨k, hk, hb⟩ => ⟨k, old y k hk, hb⟩
  have slot : ∀ k x, (c.put j).job k = some x → c.job k = some x ∨ k = i ∧ x = j := fun k x hk => by
    have := Core.slot_put (g := j.handle) rfl hk
    rwa [hs] at this
  exact { h with
    gen := h.gen
    handle := fun k x hk => by
      rcases slot k x hk with hk | ⟨rfl, rfl⟩
      · exact h.handle k x hk
      · exact hh
    waiting := fun q x hx => by
      obtain ⟨k, hk, r⟩ := h.waiting q x hx
      exact ⟨k, old x k hk, r⟩
    active := fun q x hx => by
      obtain ⟨k, hk, r⟩ := h.active q x hx
      exact ⟨k, old x k hk, r⟩
    dead := fun k x hk hv => by
      rcases slot k x hk with hk | ⟨rfl, rfl⟩
      · exact h.dead k x hk hv
      · exact hx
    origin := fun e he y hy => by
      obtain ⟨k, hk, r⟩ := h.origin e he y hy
      exact ⟨k, old y k hk, r⟩
    filling := fun y b hb => own y b (h.filling y b hb)
    programming := fun y b ph hp n => ⟨own y b (h.programming y b ph hp n).1, (h.programming y b ph hp n).2⟩
    flight := fun y b hf => ⟨(h.flight y b hf).1, (h.flight y b hf).2.imp id fun r => ⟨own y b r.1, r.2⟩⟩
    counted := by
      refine h.counted.of_perm ?_ rfl rfl
      have := Core.allocated_update c.held (c.put j).held i fun k hk => by rw [Core.held_put, hs, if_neg hk]
      rw [Core.held_put, hs, if_pos rfl, hx, show c.held i = [] by simp [Core.held, hi]] at this
      simp only [show extentBlocks ([] : List Extent) = [] from rfl, List.append_nil] at this
      exact ((this.append_left c.free).append_right _).append_right _ }

end Sys2Proof.Machine
end

