-- ==== Sys2Proof/Laws/BlocksPort.lean ====
section
/-! SUPPORT. The changes of the blocks' part of a state by the port, the scrub, a halt and a start-up keep its invariant. -/

namespace Sys2Proof.Machine

variable {c : Core}

/-! ### Images and programs -/

/-- With a program in flight in a part that is not halted, no program waits. -/
theorem CoreOk.quiet (h : CoreOk c) {g b : Nat} (hf : c.flight = some (g, b)) : c.programs = [] := by
  refine List.eq_nil_iff_forall_not_mem.mpr fun y hy => ?_
  have p := h.programs y.1 y.2 hy
  rcases (h.flight g b hf).1 with ⟨_, _, q⟩ | ⟨q, _⟩ <;> rw [p] at q <;> simp at q

theorem CoreOk.none_waits (h : CoreOk c) (hp : c.programming = none) : c.programs = [] := by
  refine List.eq_nil_iff_forall_not_mem.mpr fun y hy => ?_
  have p := h.programs y.1 y.2 hy
  rw [hp] at p
  cases p

theorem CoreOk.none_flies (h : CoreOk c) (hp : c.programming = none) (hq : c.part ≠ .halted) : c.flight = none := by
  cases e : c.flight with
  | none => rfl
  | some y =>
    rcases (h.flight y.1 y.2 e).1 with ⟨_, _, q⟩ | ⟨_, q⟩
    · rw [hp] at q
      cases q
    · exact absurd q hq

/-- R117: the filling image moves on. -/
theorem CoreOk.movedOn (h : CoreOk c) {g b : Nat} (hf : c.filling = some (g, b)) (hp : c.programming = none)
    (hq : c.part ≠ .halted) :
    CoreOk { c with filling := none, programming := some (g, b, .waiting), programs := c.programs ++ [(g, b)] } :=
  { h with
    filling := fun _ _ k => nomatch k
    programming := fun x y ph e n => by
      obtain ⟨rfl, e'⟩ := Prod.mk.inj (Option.some.inj e)
      obtain ⟨rfl, rfl⟩ := Prod.mk.inj e'
      exact ⟨h.filling _ _ hf, fun _ _ k => nomatch k⟩
    programs := fun x y e => by
      rw [h.none_waits hp, List.nil_append, List.mem_singleton, Prod.mk.injEq] at e
      rw [e.1, e.2]
    single := by simp [h.none_waits hp]
    flight := fun x y e => by
      have := h.none_flies hp hq
      rw [show c.flight = some (x, y) from e] at this
      cases this }

/-- R126: the program that waits starts. -/
theorem CoreOk.started (h : CoreOk c) {g b : Nat} (hm : (g, b) ∈ c.programs) :
    CoreOk { c with programs := [], flight := some (g, b), programming := some (g, b, .inFlight) } := by
  have p := h.programs g b hm
  have o := h.programming g b _ p (by simp)
  exact { h with
    programming := fun x y ph e n => by
      obtain ⟨rfl, e'⟩ := Prod.mk.inj (Option.some.inj e)
      obtain ⟨rfl, rfl⟩ := Prod.mk.inj e'
      exact absurd rfl n
    programs := fun x y e => nomatch e
    single := by simp
    flight := fun x y e => by
      obtain ⟨rfl, rfl⟩ := Prod.mk.inj (Option.some.inj e)
      refine ⟨.inl ⟨_, _, rfl⟩, .inr ⟨o.1, o.2, fun z w ph e => ?_⟩⟩
      obtain ⟨rfl, e'⟩ := Prod.mk.inj (Option.some.inj e)
      exact ⟨rfl, (Prod.mk.inj e').1.symm⟩ }

/-- A program ends, and its image leaves the buffer. -/
theorem CoreOk.ended (h : CoreOk c) {g b : Nat} (hf : c.flight = some (g, b)) :
    CoreOk { c with flight := none, programming := none } :=
  { h with
    programming := fun _ _ _ k => nomatch k
    programs := fun x y e => by rw [h.quiet hf] at e; cases e
    flight := fun _ _ k => nomatch k }

/-- An image is in the buffer again, with a program that waits or without one. -/
theorem CoreOk.kept (h : CoreOk c) {g b : Nat} (hf : c.flight = none) (ho : c.OwnsBlock g b)
    (hn : ∀ x y, c.filling = some (x, y) → y ≠ b) (ph : ProgramPhase) (l : List (Nat × Nat))
    (hl : l = [] ∨ ph = .waiting ∧ l = [(g, b)]) :
    CoreOk { c with programming := some (g, b, ph), programs := l } :=
  { h with
    programming := fun x y q e n => by
      obtain ⟨rfl, e'⟩ := Prod.mk.inj (Option.some.inj e)
      obtain ⟨rfl, rfl⟩ := Prod.mk.inj e'
      exact ⟨ho, hn⟩
    programs := fun x y e => by
      rcases hl with rfl | ⟨rfl, rfl⟩
      · cases e
      · rw [List.mem_singleton, Prod.mk.injEq] at e
        rw [e.1, e.2]
    single := by rcases hl with rfl | ⟨_, rfl⟩ <;> simp
    flight := fun x y e => by
      rw [show c.flight = some (x, y) from e] at hf
      cases hf }

/-! ### Blocks scrubbed, retired and returned -/

/-- A list without one of its entries' blocks. -/
theorem perm_filter_block {l : List ScrubEntry} (hn : (l.map (·.block)).Nodup) {b : Nat} (hb : b ∈ l.map (·.block)) :
    (b :: ((l.filter (·.block != b)).map (·.block))).Perm (l.map (·.block)) := by
  have e : (l.filter (·.block != b)).map (·.block) = (l.map (·.block)).erase b := by
    rw [hn.erase_eq_filter, List.filter_map]
    rfl
  rw [e]
  exact (List.perm_cons_erase hb).symm

/-- An entry leaves the list, whatever becomes of its block. -/
theorem CoreOk.left (h : CoreOk c) (hf : c.flight = none) {b : Nat} (hb : b ∈ c.list.map (·.block)) {w : Option Nat}
    (hw : w = none ∨ w = c.work ∧ c.work ≠ some b) {free : List Nat} {defects : Defects} {stored : List Defects}
    (hd : DefectsOk defects) (hc : ∀ x, x ∈ defects.clean ↔ x ∈ free) (hs : ∀ d ∈ stored, DefectsOk d)
    (hp : (free ++ defects.retired).Perm (b :: (c.free ++ c.defects.retired))) :
    CoreOk { c with list := c.list.filter (·.block != b), work := w, free := free, defects := defects, stored := stored } :=
  { h with
    origin := fun e he => h.origin e (List.mem_of_mem_filter he)
    work := fun x hx => by
      rcases hw with rfl | ⟨rfl, n⟩
      · cases hx
      · obtain ⟨e, he, rfl⟩ := List.mem_map.mp (h.work x hx)
        refine List.mem_map.mpr ⟨e, List.mem_filter.mpr ⟨he, ?_⟩, rfl⟩
        have : e.block ≠ b := fun k => n (k ▸ hx)
        simpa using this
    flight := fun x y e => by
      rw [show c.flight = some (x, y) from e] at hf
      cases hf
    defects := hd
    clean := hc
    stored := hs
    counted := by
      refine h.counted.of_perm ?_ rfl rfl
      have q := perm_filter_block h.nodupList hb
      simp only [Core.blocks]
      refine (List.perm_cons b).mp ?_
      have l1 : ∀ (f a m r : List Nat), (f ++ a ++ m ++ r).Perm ((f ++ r) ++ (a ++ m)) := fun f a m r => by
        rw [List.append_assoc, List.append_assoc, List.append_assoc]
        refine List.Perm.append_left f ?_
        rw [← List.append_assoc]
        exact List.perm_append_comm
      refine ((l1 _ _ _ _).cons b).trans (List.Perm.trans ?_ ((l1 _ _ _ _).cons b).symm)
      have h1 : (b :: (free ++ defects.retired ++ (c.allocated ++ (c.list.filter (·.block != b)).map (·.block)))).Perm
          (free ++ defects.retired ++ (c.allocated ++ c.list.map (·.block))) := by
        refine List.perm_middle.symm.trans (List.Perm.append_left _ ?_)
        exact List.perm_middle.symm.trans (q.append_left _)
      exact h1.trans (hp.append_right _) }

/-- R146 to R148: a block of the scrub list is retired. -/
theorem CoreOk.scrubRetired (h : CoreOk c) (hf : c.flight = none) {b : Nat} (hb : b ∈ c.list.map (·.block)) {w : Option Nat}
    (hw : w = none ∨ w = c.work ∧ c.work ≠ some b) :
    CoreOk { c with list := c.list.filter (·.block != b), work := w, defects := retiredWith b c.defects,
                    stored := retiredWith b c.defects :: c.stored } := by
  have n := h.list_not hb
  have ok := h.defects.retiredWith (h.lt (Core.mem_blocks.mpr (.inr (.inr (.inl hb))))) fun m => n.1 ((h.clean b).mp m)
  refine h.left hf hb hw (free := c.free) ok h.clean (fun d hd => ?_) ?_
  · rcases List.mem_cons.mp hd with rfl | hd
    · exact ok
    · exact h.stored d hd
  · exact ((perm_insertNumber h.defects.2.1 n.2.2).append_left _).trans List.perm_middle

/-- The content of DEFECTS with a block in the clean map. -/
def cleanedWith (b : Nat) (d : Defects) : Defects := { d with clean := insertNumber b d.clean }

/-- R145: a block of the scrub list returns CLEAN. -/
theorem CoreOk.returned (h : CoreOk c) (hf : c.flight = none) {b : Nat} (hb : b ∈ c.list.map (·.block)) :
    CoreOk { c with list := c.list.filter (·.block != b), work := none, free := c.free ++ [b], defects := cleanedWith b c.defects,
                    stored := cleanedWith b c.defects :: c.stored } := by
  have n := h.list_not hb
  have hlt := h.lt (Core.mem_blocks.mpr (.inr (.inr (.inl hb))))
  have ok : DefectsOk (cleanedWith b c.defects) :=
    ⟨pairwise_insertNumber b h.defects.1, h.defects.2.1,
      fun x hx => ((mem_insertNumber b x _).mp hx).elim (fun e => by rw [e]; exact ⟨hlt, n.2.2⟩) (h.defects.2.2.1 x), h.defects.2.2.2⟩
  refine h.left hf hb (.inl rfl) ok (fun x => ?_) (fun d hd => ?_) ?_
  · simp only [cleanedWith, mem_insertNumber, List.mem_append, List.mem_singleton, h.clean]
    exact or_comm
  · rcases List.mem_cons.mp hd with rfl | hd
    · exact ok
    · exact h.stored d hd
  · rw [List.append_assoc]
    exact List.perm_middle

/-- R129: a CLEAN block is retired. -/
theorem CoreOk.hostRetired (h : CoreOk c) {b : Nat} (hb : b ∈ c.free) :
    CoreOk { c with free := c.free.erase b, defects := retiredWith b (uncleaned b c.defects),
                    stored := retiredWith b (uncleaned b c.defects) :: uncleaned b c.defects :: c.stored } := by
  have n := h.free_not hb
  have hn := nodup_of_ascending h.defects.1
  have ok := (takenDefects h b).retiredWith (h.lt (Core.mem_blocks.mpr (.inl hb)))
    (fun m => ((hn.mem_erase_iff).mp m).1 rfl)
  exact { h with
    defects := ok
    clean := fun x => by
      show x ∈ c.defects.clean.erase b ↔ x ∈ c.free.erase b
      rw [hn.mem_erase_iff, h.nodupFree.mem_erase_iff, h.clean]
    stored := fun d hd => by
      rcases List.mem_cons.mp hd with rfl | hd
      · exact ok
      · rcases List.mem_cons.mp hd with rfl | hd
        · exact takenDefects h b
        · exact h.stored d hd
    counted := by
      refine h.counted.of_perm ?_ rfl rfl
      have p : (insertNumber b c.defects.retired).Perm (b :: c.defects.retired) := perm_insertNumber h.defects.2.1 n.2.2
      show (c.free.erase b ++ c.allocated ++ c.list.map (·.block) ++ insertNumber b c.defects.retired).Perm _
      refine (p.append_left _).trans (List.perm_middle.trans ?_)
      have q := (List.perm_cons_erase hb).symm
      exact ((q.append_right c.allocated).append_right _).append_right _ }

/-- R130: the free list goes to the scrub list. -/
theorem CoreOk.sanitized (h : CoreOk c) :
    CoreOk { c with free := [], list := c.list ++ c.free.map fun b => { block := b, origin := .sanitize },
                    defects := { c.defects with clean := [] }, stored := { c.defects with clean := [] } :: c.stored } := by
  have ok : DefectsOk { c.defects with clean := [] } :=
    ⟨List.Pairwise.nil, h.defects.2.1, (fun _ k => nomatch k), h.defects.2.2.2⟩
  exact { h with
    origin := fun e he y hy => by
      rcases List.mem_append.mp he with he | he
      · exact h.origin e he y hy
      · obtain ⟨b, _, rfl⟩ := List.mem_map.mp he
        cases hy
    work := fun b hb => by
      simp only [List.map_append, List.mem_append]
      exact .inl (h.work b hb)
    flight := fun x y e => ⟨(h.flight x y e).1, (h.flight x y e).2.imp (fun m => List.mem_append.mpr (.inl m)) id⟩
    defects := ok
    clean := fun x => by simp
    stored := fun d hd => by
      rcases List.mem_cons.mp hd with rfl | hd
      · exact ok
      · exact h.stored d hd
    counted := by
      refine h.counted.of_perm ?_ rfl rfl
      have e : (c.free.map fun b => ({ block := b, origin := .sanitize } : ScrubEntry)).map (·.block) = c.free := by
        simp [Function.comp_def]
      show ([] ++ c.allocated ++ List.map (fun x : ScrubEntry => x.block)
        (c.list ++ c.free.map fun b => ({ block := b, origin := .sanitize } : ScrubEntry)) ++ c.defects.retired).Perm c.blocks
      rw [List.map_append, e]
      refine List.Perm.append_right _ ?_
      rw [List.nil_append, ← List.append_assoc]
      exact List.perm_append_comm.trans (by rw [List.append_assoc]) }

/-! ### Halts and start-ups -/

/-- R155, R164: the part becomes HALTED. -/
theorem CoreOk.halted (h : CoreOk c) : CoreOk { c with part := .halted, stage := none } :=
  { h with
    flight := fun x y e => ⟨(h.flight x y e).1.imp id fun r => ⟨r.1, rfl⟩, (h.flight x y e).2⟩
    counted := by
      refine ⟨fun k => ?_, fun _ => ?_⟩
      · simp [Core.stageOf] at k
      · by_cases n : 5 ≤ c.stageOf
        · exact .inr ⟨rfl, h.counted.1 n⟩
        · exact (h.counted.2 (by omega)).imp id fun r => ⟨rfl, r.2⟩
    starting := fun _ k => nomatch k }

/-- R127, R151: the spool of a halted part stops. -/
theorem CoreOk.stopped (h : CoreOk c) (hq : c.part = .halted) :
    CoreOk { c with work := none, filling := none, programming := none, programs := [] } :=
  { h with
    work := fun _ k => nomatch k
    filling := fun _ _ k => nomatch k
    programming := fun _ _ _ k => nomatch k
    programs := fun _ _ k => nomatch k
    single := by simp
    flight := fun x y e => ⟨.inr ⟨rfl, hq⟩, (h.flight x y e).2.imp id fun r => ⟨r.1, (fun _ _ k => nomatch k), (fun _ _ _ k => nomatch k)⟩⟩ }

/-- The start-up goes on to a step on the same side of the building of the lists. -/
theorem CoreOk.stepped (h : CoreOk c) {m n : Nat} (hm : c.stage = some m) (hn : 1 ≤ n) (hs : 5 ≤ m ↔ 5 ≤ n) :
    CoreOk { c with stage := some n } :=
  { h with
    counted := by
      have e : c.stageOf = m := by simp [Core.stageOf, hm]
      refine ⟨fun k => h.counted.1 (e ▸ hs.mpr k), fun k => h.counted.2 ?_⟩
      have : n < 5 := k
      omega
    starting := fun x k => by
      obtain rfl := Option.some.inj k
      exact ⟨(h.starting m hm).1, hn⟩ }

/-- R183: the part enters RUNNING. -/
theorem CoreOk.running (h : CoreOk c) {m : Nat} (hm : c.stage = some m) (hs : 5 ≤ m) :
    CoreOk { c with stage := none, part := .running } :=
  { h with
    flight := fun x y e => ⟨(h.flight x y e).1.imp id fun r => ⟨r.1, by rw [(h.starting m hm).1] at r; cases r.2⟩, (h.flight x y e).2⟩
    counted := by
      have e : c.stageOf = m := by simp [Core.stageOf, hm]
      exact ⟨fun _ => h.counted.1 (e ▸ hs), fun k => absurd k (by simp [Core.stageOf])⟩
    starting := fun _ k => nomatch k }

/-- R181: everything volatile at its value after start-up. -/
def Core.fresh (stage : Option Nat) (stored : List Defects) : Core where
  gen _ := 0
  job _ := none
  queue _ := {}
  free := []
  defects := {}
  list := []
  work := none
  filling := none
  programming := none
  programs := []
  flight := none
  stored := stored
  part := .starting
  stage := stage

theorem CoreOk.fresh {stage : Option Nat} (hs : stage = none ∨ stage = some 1) {stored : List Defects}
    (hd : ∀ d ∈ stored, DefectsOk d) : CoreOk (Core.fresh stage stored) where
  gen _ := by simp [Core.fresh]
  handle _ _ k := nomatch k
  nodup _ := List.nodup_nil
  waiting _ _ k := nomatch k
  active _ _ k := nomatch k
  dead _ _ k := nomatch k
  origin _ k := nomatch k
  work _ k := nomatch k
  filling _ _ k := nomatch k
  programming _ _ _ k := nomatch k
  programs _ _ k := nomatch k
  single := by simp [Core.fresh]
  flight _ _ k := nomatch k
  defects := ⟨List.Pairwise.nil, List.Pairwise.nil, (fun _ k => nomatch k), (fun _ k => nomatch k)⟩
  clean _ := Iff.rfl
  stored := hd
  counted := by
    have e : (Core.fresh stage stored).blocks = [] := by
      simp only [Core.blocks, Core.fresh, Core.allocated, List.nil_append, List.map_nil, List.append_nil]
      exact List.flatMap_eq_nil_iff.mpr fun _ _ => rfl
    refine ⟨fun k => ?_, fun _ => .inl e⟩
    rcases hs with rfl | rfl <;> simp [Core.stageOf, Core.fresh] at k
  starting n k := by
    rcases hs with rfl | rfl
    · cases k
    · obtain rfl := Option.some.inj k
      exact ⟨rfl, le_refl 1⟩

/-! ### The start-up sweep (R114) -/

theorem mem_dropWhile_lt {l : List Nat} (h : l.Pairwise (· < ·)) (b x : Nat) :
    x ∈ l.dropWhile (· < b) ↔ x ∈ l ∧ b ≤ x := by
  induction l with
  | nil => simp
  | cons a rest ih =>
    rw [List.pairwise_cons] at h
    simp only [List.dropWhile_cons]
    split
    · rename_i hb
      rw [ih h.2, List.mem_cons]
      simp only [decide_eq_true_eq] at hb
      constructor
      · exact fun ⟨m, n⟩ => ⟨.inr m, n⟩
      · rintro ⟨rfl | m, n⟩
        · omega
        · exact ⟨m, n⟩
    · rename_i hb
      simp only [decide_eq_true_eq, not_lt] at hb
      refine ⟨fun m => ⟨m, ?_⟩, fun m => m.1⟩
      rcases List.mem_cons.mp m with rfl | m
      · exact hb
      · exact hb.trans (h.1 x m).le

theorem head_dropWhile_lt {l : List Nat} (h : l.Pairwise (· < ·)) (b : Nat) :
    (l.dropWhile (· < b)).head? = some b ↔ b ∈ l := by
  have hs : (l.dropWhile (· < b)).Pairwise (· < ·) := h.sublist (List.dropWhile_sublist _)
  constructor
  · exact fun k => ((mem_dropWhile_lt h b b).mp (List.mem_of_mem_head? k)).1
  · intro m
    have m := (mem_dropWhile_lt h b b).mpr ⟨m, le_refl b⟩
    cases e : l.dropWhile (· < b) with
    | nil => rw [e] at m; cases m
    | cons a rest =>
      rw [e] at m hs
      rcases List.mem_cons.mp m with rfl | m
      · rfl
      · have k1 := (List.pairwise_cons.mp hs).1 b m
        have k2 := ((mem_dropWhile_lt h b a).mp (e ▸ List.mem_cons_self ..)).2
        omega

theorem sweepFrom_eq (n b : Nat) {clean retired : List Nat} (hc : clean.Pairwise (· < ·)) (hr : retired.Pairwise (· < ·)) :
    sweepFrom n b clean retired = (List.range' b n).filter fun x => x ∉ clean ∧ x ∉ retired := by
  induction n generalizing b clean retired with
  | zero => rfl
  | succ n ih =>
    have hc' := hc.sublist (List.dropWhile_sublist (· < b))
    have hr' := hr.sublist (List.dropWhile_sublist (· < b))
    have later : (List.range' (b + 1) n).filter (fun x => x ∉ clean.dropWhile (· < b) ∧ x ∉ retired.dropWhile (· < b))
        = (List.range' (b + 1) n).filter fun x => x ∉ clean ∧ x ∉ retired := by
      refine List.filter_congr fun x hx => ?_
      have := (List.mem_range'_1.mp hx).1
      simp only [mem_dropWhile_lt hc, mem_dropWhile_lt hr, show b ≤ x by omega, and_true]
    simp only [sweepFrom, ih (b + 1) hc' hr', later, List.range'_succ, List.filter_cons]
    simp only [Bool.or_eq_true, decide_eq_true_eq, head_dropWhile_lt hc, head_dropWhile_lt hr]
    by_cases h1 : b ∈ clean <;> by_cases h2 : b ∈ retired <;> simp [h1, h2]

/-- R114: the clean map, the sweep and the retired set are all the logical blocks. -/
theorem sweep_perm {d : Defects} (h : DefectsOk d) :
    (d.clean ++ sweepFrom Config.logicalBlocks 0 d.clean d.retired ++ d.retired).Perm (List.range Config.logicalBlocks) := by
  rw [sweepFrom_eq _ _ h.1 h.2.1]
  refine (List.perm_ext_iff_of_nodup ?_ List.nodup_range).mpr fun x => ?_
  · simp only [List.nodup_append, List.mem_append, List.mem_filter, decide_eq_true_eq]
    refine ⟨⟨nodup_of_ascending h.1, (List.nodup_range' ..).filter _, ?_⟩, nodup_of_ascending h.2.1, ?_⟩
    · rintro x hx y ⟨_, hy, _⟩ rfl
      exact hy hx
    · rintro x (hx | ⟨_, _, hx⟩) y hy rfl
      · exact (h.2.2.1 x hx).2 hy
      · exact hx hy
  · simp only [List.mem_append, List.mem_filter, List.mem_range'_1, List.mem_range, decide_eq_true_eq, Nat.zero_le, true_and,
      Nat.zero_add]
    constructor
    · rintro ((hx | hx) | hx)
      · exact (h.2.2.1 x hx).1
      · exact hx.1
      · exact h.2.2.2 x hx
    · intro hx
      by_cases h1 : x ∈ d.clean
      · exact .inl (.inl h1)
      · by_cases h2 : x ∈ d.retired
        · exact .inr h2
        · exact .inl (.inr ⟨hx, h1, h2⟩)

/-- R114: the free list and the scrub list are built at the end of step 4. -/
theorem CoreOk.builtUp (h : CoreOk c) {m : Nat} (hm : c.stage = some m) (hs : m < 5) {d : Defects} (hd : DefectsOk d) :
    CoreOk { c with stage := some 5, defects := d, free := d.clean,
                    list := (sweepFrom Config.logicalBlocks 0 d.clean d.retired).map fun b => { block := b, origin := .sweep } } := by
  have hp := (h.starting m hm).1
  have e : c.stageOf = m := by simp [Core.stageOf, hm]
  have hb : c.blocks = [] := by
    rcases h.counted.2 (by omega) with z | z
    · exact z
    · rw [hp] at z
      cases z.1
  have no : ∀ b, b ∉ c.blocks := fun b m => by rw [hb] at m; cases m
  have noOwn : ∀ x b, ¬ c.OwnsBlock x b := fun x b o => no b (Core.mem_blocks.mpr (.inr (.inl o.allocated)))
  have noList : ∀ b, b ∉ c.list.map (·.block) := fun b m => no b (Core.mem_blocks.mpr (.inr (.inr (.inl m))))
  have noFlight : c.flight = none := by
    cases k : c.flight with
    | none => rfl
    | some y =>
      rcases (h.flight y.1 y.2 k).2 with r | r
      · exact absurd (List.mem_map_of_mem (f := (·.block)) r) (noList _)
      · exact absurd r.1 (noOwn _ _)
  exact { h with
    origin := fun x hx y hy => by
      obtain ⟨b, _, rfl⟩ := List.mem_map.mp hx
      cases hy
    work := fun b k => absurd (h.work b k) (noList b)
    flight := fun x y k => by
      rw [show c.flight = some (x, y) from k] at noFlight
      cases noFlight
    defects := hd
    clean := fun _ => Iff.rfl
    counted := by
      refine ⟨fun _ => ?_, fun k => absurd k (by simp [Core.stageOf])⟩
      have ha : c.allocated = [] := by
        have := hb
        simp only [Core.blocks, List.append_eq_nil_iff] at this
        exact this.1.1.2
      show (d.clean ++ c.allocated ++ ((sweepFrom Config.logicalBlocks 0 d.clean d.retired).map fun b =>
        ({ block := b, origin := .sweep } : ScrubEntry)).map (·.block) ++ d.retired).Perm _
      rw [ha, List.append_nil, List.map_map]
      simpa [Function.comp_def] using sweep_perm hd
    starting := fun x k => by
      obtain rfl := Option.some.inj k
      exact ⟨hp, by decide⟩ }

end Sys2Proof.Machine
end

