-- ==== Sys2Proof/Laws/BlocksView.lean ====
section
/-! SUPPORT. What the shared operations do to the blocks' part of a state, and which of them keep its invariant without
touching it. -/

namespace Sys2Proof.Machine

/-! ### Chains that keep the invariant -/

/-- The invariant of the blocks passes from a state to another. -/
def Keeps (s t : State) : Prop := CoreOk (core s) → CoreOk (core t)

/-- A function of the state whose every use keeps the invariant. -/
def KeepsAll (f : State → State) : Prop := ∀ s, Keeps s (f s)

theorem Keeps.rfl' (s : State) : Keeps s s := id

theorem Keeps.trans {s t u : State} (h : Keeps s t) (k : Keeps t u) : Keeps s u := fun x => k (h x)

theorem Keeps.via {s t u : State} (k : Keeps t u) (h : Keeps s t) : Keeps s u := h.trans k

theorem Keeps.of_core {s t : State} (h : core t = core s) : Keeps s t := fun x => h ▸ x

theorem Keeps.branch {c : Prop} [Decidable c] {s a b : State} (h : Keeps s a) (k : Keeps s b) : Keeps s (if c then a else b) := by
  split <;> assumption

theorem Keeps.then_ite {c : Prop} [Decidable c] {f : State → State} {s a : State} (hf : KeepsAll f) (h : Keeps s a) :
    Keeps s (if c then f a else a) := (h.trans (hf a)).branch h

theorem Keeps.else_ite {c : Prop} [Decidable c] {f : State → State} {s a : State} (hf : KeepsAll f) (h : Keeps s a) :
    Keeps s (if c then a else f a) := h.branch (h.trans (hf a))

theorem KeepsAll.foldl {α : Type} {f : State → α → State} (h : ∀ a, KeepsAll fun s => f s a) (l : List α) :
    KeepsAll fun s => l.foldl f s := by
  induction l with
  | nil => exact fun s => Keeps.rfl' s
  | cons a rest ih => exact fun s => (h a s).trans (ih (f s a))

/-! ### Operations that do not touch the blocks -/

@[simp] theorem core_emit (n : Notice) (s : State) : core (emit n s) = core s := rfl
@[simp] theorem core_askPart (s : State) : core (askPart s) = core s := rfl
@[simp] theorem core_askJobState (j : Job) (s : State) : core (askJobState j s) = core s := rfl
@[simp] theorem core_pushReply (r : Reply) (s : State) : core (pushReply r s) = core s := rfl
@[simp] theorem core_evaluatePermit (s : State) : core (evaluatePermit s) = core s := rfl
@[simp] theorem core_raiseNote (n : Note) (s : State) : core (raiseNote n s) = core s := rfl
@[simp] theorem core_zeroize (i : Fin 64) (s : State) : core (zeroize i s) = core s := rfl
@[simp] theorem core_putSlot (i : Fin 4) (c : CartSlot) (s : State) : core (putSlot i c s) = core s := rfl
@[simp] theorem core_askCartState (i : Fin 4) (s : State) : core (askCartState i s) = core s := rfl
@[simp] theorem core_clearBus (s : State) : core (clearBus s) = core s := rfl
@[simp] theorem core_endFlight (s : State) : core (endFlight s) = core s := rfl
@[simp] theorem core_countRetired (s : State) : core (countRetired s) = core s := rfl
@[simp] theorem core_countReturned (s : State) : core (countReturned s) = core s := rfl

@[simp] theorem core_setAccounts (table : List Account) (s : State) : core (setAccounts table s) = core s := by
  simp [core, setAccounts, storedDefects, writeAccounts]

@[simp] theorem core_updateAccount (id : Nat) (f : Account → Account) (s : State) : core (updateAccount id f s) = core s := by
  unfold updateAccount
  dsimp only
  split
  · rfl
  · exact core_setAccounts _ s

@[simp] theorem core_setSettings (g : Settings) (s : State) : core (setSettings g s) = core s := by
  simp [core, setSettings, storedDefects, writeSettings]

@[simp] theorem core_setKeys (k : KeysContent) (s : State) : core (setKeys k s) = core s := by
  simp [core, setKeys, storedDefects, writeKeys]

@[simp] theorem core_setHistory (entries : List HistoryEntry) (lifetime : Nat) (s : State) :
    core (setHistory entries lifetime s) = core s := by
  simp [core, setHistory, storedDefects, writeHistory]

@[simp] theorem core_setHaltRecord (h : HaltRecord) (s : State) : core (setHaltRecord h s) = core s := by
  simp [core, setHaltRecord, storedDefects, writeHalt]

@[simp] theorem core_clearHaltRecord (s : State) : core (clearHaltRecord s) = core s := by
  simp [core, clearHaltRecord, storedDefects, writeHalt]

@[simp] theorem core_takeNoise (s : State) : core (takeNoise s).2 = core s := by
  unfold takeNoise
  split <;> rfl

@[simp] theorem core_draw32 (s : State) : core (draw32 s).2 = core s := by
  rw [← core_takeNoise s]
  simp only [draw32]
  split <;> rfl

@[simp] theorem core_draw16 (s : State) : core (draw16 s).2 = core s := by
  rw [← core_takeNoise s]
  simp only [draw16]
  split <;> rfl

@[simp] theorem core_reviewTimer (s : State) : core (reviewTimer s) = core s := by
  unfold reviewTimer
  split
  · rfl
  · simp only [core]
    congr 1

@[simp] theorem core_discardHeld (handle : Nat) (s : State) : core (discardHeld handle s) = core s := by
  unfold discardHeld
  split
  · rw [core_reviewTimer, core_raiseNote]
    simp only [core]
    congr 1
  · rfl

/-- The programs that wait after the reads of some requests are withdrawn. -/
theorem programs_filter (ops : List PortOp) (f : PortOp → Bool) (h : ∀ op, f op = false → programOf op = none) :
    (ops.filter f).filterMap programOf = ops.filterMap programOf := by
  induction ops with
  | nil => rfl
  | cons op rest ih =>
    rw [List.filter_cons]
    split
    · cases e : programOf op <;> simp [e, ih]
    · rename_i k
      rw [ih, List.filterMap_cons_none (h op (by simpa using k))]

@[simp] theorem core_dropReads (r : Reader) (s : State) (jt : JobTable) (spm : SheetPath) :
    core { s with jt := jt, spm := spm, smc := dropReads r s.smc } = core { s with jt := jt } := by
  simp only [core, dropReads]
  congr 1
  · refine programs_filter _ _ fun op h => ?_
    cases op <;> simp_all [programOf]
  · cases s.smc.inFlight with
    | none => rfl
    | some f =>
      cases f with
      | read q place physical retries weak =>
        simp only [Option.map_some, Option.bind_some]
        split <;> rfl
      | _ => rfl

@[simp] theorem core_discardStaging (s : State) : core (discardStaging s) = core s := core_dropReads .staging s s.jt _

theorem core_dropJobReads (handle : Nat) (s : State) : core { s with smc := dropJobReads handle s.smc } = core s := by
  simp only [core, dropJobReads]
  congr 1
  · refine programs_filter _ _ fun op h => ?_
    cases op <;> simp_all [programOf]
  · cases s.smc.inFlight with
    | none => rfl
    | some f =>
      cases f with
      | read q place physical retries weak =>
        simp only [Option.map_some, Option.bind_some]
        split <;> rfl
      | _ => rfl

/-- An operation that is no program is entered. -/
theorem core_enterOther {op : PortOp} (h : programOf op = none) (s : State) : core (enterOp op s) = core s := by
  simp [core, enterOp, h]

theorem core_enterProgram (h b : Nat) (second : Bool) (s : State) :
    core (enterOp (.program h b second) s) = { core s with programs := (core s).programs ++ [(h, b)] } := by
  simp [core, enterOp, programOf]

/-! ### The job table -/

theorem get_set_self {α : Type} (v : Vector α 64) (i : Fin 64) (x : α) : (v.set i x).get i = x := by
  rw [Vector.get_eq_getElem]
  exact Vector.getElem_set_self _

theorem get_set_ne {α : Type} (v : Vector α 64) {i k : Fin 64} (x : α) (h : k ≠ i) : (v.set i x).get k = v.get k := by
  rw [Vector.get_eq_getElem, Vector.get_eq_getElem]
  exact Vector.getElem_set_ne _ _ fun e => h (Fin.ext e.symm)

theorem core_setJob (j : Job) (s : State) : core (setJob j s) = (core s).put (holderOf j) := by
  refine Core.ext (funext fun i => ?_) (funext fun i => ?_) rfl rfl rfl rfl rfl rfl rfl rfl rfl rfl rfl rfl
  · show ((s.jt.slots.set (slotOf j.handle) _).get i).generation = (s.jt.slots.get i).generation
    by_cases n : i = slotOf j.handle
    · rw [n, get_set_self]
    · rw [get_set_ne _ _ n]
  · show ((s.jt.slots.set (slotOf j.handle) _).get i).job.map holderOf
      = Function.update (core s).job (slotOf j.handle) (some (holderOf j)) i
    by_cases n : i = slotOf j.handle
    · rw [n, get_set_self, Function.update_self]
      rfl
    · rw [get_set_ne _ _ n, Function.update_of_ne n]
      rfl

@[simp] theorem core_moveJob (j : Job) (s : State) : core (moveJob j s) = (core s).put (holderOf j) := core_setJob j s

theorem core_putQueue (d : Destination) (q : Queue) (s : State) :
    core { s with jt := putQueue d q s.jt } = { core s with queue := Function.update (queueOf s.jt) d q } := by
  cases d <;> simp only [core, putQueue] <;> congr 1 <;> funext e <;> cases e <;> rfl

/-- The job a handle names is the holder of its slot, under that handle. -/
theorem has_of_jobOf {s : State} (h : HoldersOk (core s)) {handle : Nat} {j : Job} (hj : jobOf s.jt handle = some j) :
    (core s).Has handle (holderOf j) := by
  unfold jobOf at hj
  split at hj
  · rename_i k
    have hs : (core s).job (slotOf handle) = some (holderOf j) := by simp [core, hj]
    refine ⟨hs, ?_⟩
    have := h.handle _ _ hs
    rw [this]
    simp only [Bool.and_eq_true, decide_eq_true_eq, beq_iff_eq] at k
    show (s.jt.slots.get (slotOf handle)).generation * 64 + (slotOf handle : Nat) = handle
    rw [k.2]
    simp only [slotOf]
    omega
  · cases hj

theorem jobOf_of_has {s : State} (h : HoldersOk (core s)) {handle : Nat} {k : Holder} (hk : (core s).Has handle k) :
    ∃ j, jobOf s.jt handle = some j ∧ holderOf j = k := by
  obtain ⟨hs, he⟩ := hk
  have hh := h.handle _ _ hs
  have hg := h.gen (slotOf handle)
  simp only [core, Option.map_eq_some_iff] at hs hh hg
  obtain ⟨j, hj, rfl⟩ := hs
  refine ⟨j, ?_, rfl⟩
  have e : handle = (s.jt.slots.get (slotOf handle)).generation * 64 + handle % 64 := by
    rw [← he, hh]
    simp only [slotOf]
    rw [← he, hh]
    simp [slotOf]
  unfold jobOf
  rw [if_pos]
  · exact hj
  · simp only [Bool.and_eq_true, decide_eq_true_eq, beq_iff_eq]
    constructor
    · omega
    · omega

theorem handle_of_jobOf {s : State} (h : HoldersOk (core s)) {handle : Nat} {j : Job} (hj : jobOf s.jt handle = some j) :
    j.handle = handle := (has_of_jobOf h hj).2

/-- A job record replaced by one of the same holder. -/
theorem core_setJob_same {s : State} (h : HoldersOk (core s)) {handle : Nat} {j j' : Job} (hj : jobOf s.jt handle = some j)
    (e : holderOf j' = holderOf j) : core (setJob j' s) = core s := by
  have hh := has_of_jobOf h hj
  rw [core_setJob, e]
  refine Core.ext rfl (funext fun i => ?_) rfl rfl rfl rfl rfl rfl rfl rfl rfl rfl rfl rfl
  simp only [Core.put]
  rw [hh.2]
  by_cases n : i = slotOf handle
  · subst n
    rw [Function.update_self, hh.1]
  · rw [Function.update_of_ne n]

theorem core_changeJob_same {s : State} (h : HoldersOk (core s)) (handle : Nat) {f : Job → Job}
    (e : ∀ j, holderOf (f j) = holderOf j) : core (changeJob handle f s) = core s := by
  unfold changeJob
  split
  · rename_i j hj
    exact core_setJob_same h hj (e j)
  · rfl

theorem core_raiseJobFault {s : State} (h : HoldersOk (core s)) (f : JobFault) : core (raiseJobFault f s) = core s := by
  simp only [raiseJobFault]
  have k : ∀ r : JobRecord, ∀ m : FaultMonitor, m.part = s.fm.part → core (keepLastFault r { s with fm := m }) = core s := by
    intro r m hm
    have e : core { s with fm := m } = core s := by simp [core, hm]
    exact (core_changeJob_same (s := { s with fm := m }) (by rw [e]; exact h) _ (f := fun j => { j with lastFault := some r }) fun _ => rfl).trans e
  have k2 : ∀ (t : State) (m : FaultMonitor), m.part = t.fm.part → core { t with fm := m } = core t := by
    intro t m hm
    simp [core, hm]
  split
  · rw [core_emit, k2 _ _ rfl]
    exact k _ _ rfl
  · split
    · rw [k2 _ _ rfl]
      exact k _ _ rfl
    · rw [core_askPart, core_evaluatePermit, k2 _ _ rfl]
      exact k _ _ rfl

theorem isLive_holder (j : Job) : (holderOf j).live = isLive j := rfl

end Sys2Proof.Machine
end

