-- ==== Sys2Proof/Laws/BlocksJobs.lean ====
section
/-! SUPPORT. The cartridges do not touch the blocks; the moves of jobs, their closes, halts and jams keep the blocks'
invariant. -/

namespace Sys2Proof.Machine

/-! ### CBC -/

theorem core_foldl {α : Type} {f : State → α → State} (h : ∀ s a, core (f s a) = core s) (l : List α) (s : State) :
    core (l.foldl f s) = core s := by
  induction l generalizing s with
  | nil => rfl
  | cons a rest ih => exact (ih _).trans (h s a)

@[simp] theorem core_withBus (s : State) (c : Cartridges) : core { s with cbc := c } = core s := rfl

@[simp] theorem core_queueItem (item : WorkItem) (s : State) : core (queueItem item s) = core s := by
  unfold queueItem
  split <;> rfl

@[simp] theorem core_queueAll (s : State) : core (queueAll s) = core s :=
  (core_foldl (fun s i => core_queueItem (.auth i) s) _ _).trans (core_queueItem _ _)

@[simp] theorem core_writeBackTest (i : Fin 4) (exhausted : Bool) (s : State) : core (writeBackTest i exhausted s) = core s := by
  simp only [writeBackTest]
  split
  · split <;> simp
  · rfl

@[simp] theorem core_changeLevel (i : Fin 4) (mirror pending : Nat) (s : State) :
    core (changeLevel i mirror pending s) = core s := by
  unfold changeLevel
  rw [core_writeBackTest]
  split <;> simp

@[simp] theorem core_changeHistory (entries : List HistoryEntry) (lifetime : Nat) (s : State) :
    core (changeHistory entries lifetime s) = core s := by
  unfold changeHistory
  split <;> simp

@[simp] theorem core_updateHistory (i : Fin 4) (suspect : Bool) (s : State) : core (updateHistory i suspect s) = core s := by
  simp only [updateHistory]
  split <;> simp

@[simp] theorem core_setVerification (i : Fin 4) (v : Verification) (s : State) : core (setVerification i v s) = core s := by
  simp only [setVerification]
  split
  · simp
  · split <;> simp

@[simp] theorem core_dropFigures (i : Fin 4) (s : State) : core (dropFigures i s) = core s := by
  unfold dropFigures
  split <;> simp

@[simp] theorem core_ceaseVerified (i : Fin 4) (s : State) : core (ceaseVerified i s) = core s := by
  unfold ceaseVerified
  split <;> simp

@[simp] theorem core_endUnverified (i : Fin 4) (v : Verification) (s : State) : core (endUnverified i v s) = core s := by
  simp [endUnverified]

@[simp] theorem core_deductPlane (handle : Nat) (demand : Planes) (s : State) (i : Fin 4) :
    core (deductPlane handle demand s i) = core s := by
  simp only [deductPlane]
  split
  · split <;> simp
  · rfl

@[simp] theorem core_reauthTest (s : State) (i : Fin 4) : core (reauthTest s i) = core s := by
  simp only [reauthTest]
  split <;> simp

@[simp] theorem core_countSheet (s : State) (i : Fin 4) : core (countSheet s i) = core s := by simp [countSheet]

@[simp] theorem core_enterCartridges (sh : Sheet) (s : State) : core (enterCartridges sh s) = core s :=
  (core_foldl (fun s i => core_countSheet s i) _ _).trans <|
    (core_foldl (fun s i => core_deductPlane sh.handle sh.demand s i) _ _).trans (core_changeHistory _ _ _)

@[simp] theorem core_jobClosed (handle : Nat) (wasDraining : Bool) (s : State) : core (jobClosed handle wasDraining s) = core s := by
  refine core_foldl (fun s i => ?_) _ _
  simp only
  split
  · split <;> simp
  · rfl

@[simp] theorem core_keepRead (i : Fin 4) (record : List Byte) (s : State) : core (keepRead i record s) = core s := rfl

@[simp] theorem core_rejectRead (i : Fin 4) (reason : RejectReason) (record : List Byte) (s : State) :
    core (rejectRead i reason record s) = core s := by simp [rejectRead]

@[simp] theorem core_completeWriteBack (i : Fin 4) (amount level : Nat) (s : State) :
    core (completeWriteBack i amount level s) = core s := by
  simp only [completeWriteBack]
  split <;> simp

@[simp] theorem core_failTransaction (i : Fin 4) (item : WorkItem) (s : State) : core (failTransaction i item s) = core s := by
  simp only [failTransaction]
  split <;> simp

@[simp] theorem core_unverify (s : State) (i : Fin 4) : core (unverify s i) = core s := by simp [unverify]

@[simp] theorem core_cartridgesDoorOpen (s : State) : core (cartridgesDoorOpen s) = core s :=
  (core_foldl (fun s i => core_unverify s i) _ _).trans (core_clearBus s)

@[simp] theorem core_cartridgesWipe (s : State) : core (cartridgesWipe s) = core s := by
  have h : core (cartSlots.foldl (fun s i =>
      if holdsVerified (slotRecord s i) then unverify (dropFigures i (ceaseVerified i s)) i
      else putSlot i { slotRecord s i with failures := 0 } s) (clearBus s)) = core s := by
    refine (core_foldl (fun s i => ?_) _ _).trans (core_clearBus s)
    split <;> simp
  simp only [cartridgesWipe]
  split <;> simp [h]

/-! ### Queues -/

/-- The queues after a job has left them: nothing else is new in them. -/
structure Gone (c : Core) (g : Nat) (q : Destination → Queue) : Prop where
  nodup : ∀ d, (q d).waiting.Nodup
  waiting : ∀ d, ∀ x ∈ (q d).waiting, x ≠ g ∧ x ∈ (c.queue d).waiting
  active : ∀ d x, (q d).active = some x → x ≠ g ∧ (c.queue d).active = some x

/-- The queues after leavePlace. -/
def leftQueues (j : Job) (q : Destination → Queue) : Destination → Queue :=
  match j.state with
  | .queued => Function.update q (destinationOf j.kind)
      { q (destinationOf j.kind) with waiting := (q (destinationOf j.kind)).waiting.erase j.handle }
  | .active => Function.update q (destinationOf j.kind) { q (destinationOf j.kind) with active := none }
  | _ => q

theorem core_leaveActive (j : Job) (s : State) :
    core (leaveActive j s) = { core s with
      queue := Function.update (core s).queue (destinationOf j.kind)
        { (core s).queue (destinationOf j.kind) with active := none } } := by
  simp only [leaveActive]
  rw [show (core s).queue = queueOf s.jt from rfl, ← core_putQueue]
  cases destinationOf j.kind with
  | engine => simp
  | exporter =>
    refine (core_dropReads .exporter { s with jt := putQueue .exporter { queueOf s.jt .exporter with active := none } s.jt } _ _).trans ?_
    rfl

theorem core_leavePlace (j : Job) (s : State) : core (leavePlace j s) = { core s with queue := leftQueues j (core s).queue } := by
  cases e : j.state with
  | queued =>
    simp only [leavePlace, leftQueues, e]
    exact core_putQueue _ _ s
  | active =>
    simp only [leavePlace, leftQueues, e]
    exact core_leaveActive j s
  | _ => simp only [leavePlace, leftQueues, e]

theorem gone_leavePlace {s : State} (h : CoreOk (core s)) {j : Job} (hj : (core s).Has j.handle (holderOf j)) :
    Gone (core s) j.handle (leftQueues j (core s).queue) := by
  have inW : ∀ d, j.handle ∈ ((core s).queue d).waiting → j.state = .queued ∧ destinationOf j.kind = d := by
    intro d hd
    obtain ⟨k, hk, a, b⟩ := h.waiting d _ hd
    obtain rfl := hk.unique hj
    exact ⟨a, b⟩
  have inA : ∀ d, ((core s).queue d).active = some j.handle → j.state = .active ∧ destinationOf j.kind = d := by
    intro d hd
    obtain ⟨k, hk, a, b⟩ := h.active d _ hd
    obtain rfl := hk.unique hj
    exact ⟨a, b⟩
  have stay : (∀ d, j.handle ∉ ((core s).queue d).waiting) → (∀ d, ((core s).queue d).active ≠ some j.handle) →
      Gone (core s) j.handle (core s).queue := fun a b =>
    ⟨h.nodup, fun d x hx => ⟨fun e => a d (e ▸ hx), hx⟩, fun d x hx => ⟨fun e => b d (e ▸ hx), hx⟩⟩
  unfold leftQueues
  split
  · rename_i hs
    refine ⟨fun d => ?_, fun d x hx => ?_, fun d x hx => ?_⟩
    · by_cases e : d = destinationOf j.kind
      · subst e
        rw [Function.update_self]
        exact (h.nodup _).erase _
      · rw [Function.update_of_ne e]
        exact h.nodup d
    · by_cases e : d = destinationOf j.kind
      · subst e
        rw [Function.update_self] at hx
        exact ((h.nodup _).mem_erase_iff).mp hx
      · rw [Function.update_of_ne e] at hx
        exact ⟨fun n => e (inW d (n ▸ hx)).2.symm, hx⟩
    · have : ((core s).queue d).active = some x := by
        by_cases e : d = destinationOf j.kind
        · subst e
          rwa [Function.update_self] at hx
        · rwa [Function.update_of_ne e] at hx
      refine ⟨fun n => ?_, this⟩
      have := (inA d (n ▸ this)).1
      rw [hs] at this
      cases this
  · rename_i hs
    refine ⟨fun d => ?_, fun d x hx => ?_, fun d x hx => ?_⟩
    · by_cases e : d = destinationOf j.kind
      · subst e
        rw [Function.update_self]
        exact h.nodup _
      · rw [Function.update_of_ne e]
        exact h.nodup d
    · have : x ∈ ((core s).queue d).waiting := by
        by_cases e : d = destinationOf j.kind
        · subst e
          rwa [Function.update_self] at hx
        · rwa [Function.update_of_ne e] at hx
      refine ⟨fun n => ?_, this⟩
      have := (inW d (n ▸ this)).1
      rw [hs] at this
      cases this
    · by_cases e : d = destinationOf j.kind
      · subst e
        rw [Function.update_self] at hx
        cases hx
      · rw [Function.update_of_ne e] at hx
        exact ⟨fun n => e (inA d (n ▸ hx)).2.symm, hx⟩
  · rename_i h1 h2
    exact stay (fun d hd => h1 (inW d hd).1) fun d hd => h2 (inA d hd).1

/-! ### Moves -/

/-- A live job leaves its place and enters a state in which no queue holds it. -/
theorem ok_moveLeft {s : State} (h : CoreOk (core s)) {j j' : Job} (hj : (core s).Has j.handle (holderOf j))
    (hl : isLive j = true) {st : JobState} (hst : Holder.live { holderOf j with state := st } = true)
    (e : holderOf j' = { holderOf j with state := st }) {u : State} (hu : core u = core (leavePlace j s)) :
    CoreOk (core (moveJob j' u)) := by
  have g := gone_leavePlace h hj
  rw [core_moveJob, hu, core_leavePlace, e]
  exact h.moved hj hl hst _ g.nodup (fun d x hx => .inl (g.waiting d x hx)) fun d x hx => .inl (g.active d x hx)

/-- The queues with one destination's waiting jobs changed. -/
def rejoined (w : List Nat → List Nat) (d : Destination) (q : Destination → Queue) : Destination → Queue :=
  Function.update q d { q d with waiting := w (q d).waiting }

/-- A live job leaves its place and joins its destination's queue. -/
theorem ok_queueLeft {s : State} (h : CoreOk (core s)) {j : Job} (hj : (core s).Has j.handle (holderOf j))
    (hl : isLive j = true) {j' : Job} (e : holderOf j' = { holderOf j with state := .queued }) {w : List Nat → List Nat}
    (hw : ∀ l : List Nat, l.Nodup → j.handle ∉ l → (w l).Nodup ∧ ∀ x, x ∈ w l ↔ x = j.handle ∨ x ∈ l) {u : State}
    (hu : core u = { core s with queue := rejoined w (destinationOf j.kind) (leftQueues j (core s).queue) }) :
    CoreOk (core (moveJob j' u)) := by
  have g := gone_leavePlace h hj
  have ww := hw _ (g.nodup (destinationOf j.kind)) fun m => (g.waiting _ _ m).1 rfl
  rw [core_moveJob, hu, e]
  refine h.moved hj hl rfl _ (fun d => ?_) (fun d x hx => ?_) fun d x hx => ?_
  · by_cases n : d = destinationOf j.kind
    · subst n
      rw [rejoined, Function.update_self]
      exact ww.1
    · rw [rejoined, Function.update_of_ne n]
      exact g.nodup d
  · by_cases n : d = destinationOf j.kind
    · subst n
      rw [rejoined, Function.update_self] at hx
      rcases (ww.2 x).mp hx with k | k
      · exact .inr ⟨k, rfl, rfl⟩
      · exact .inl (g.waiting _ x k)
    · rw [rejoined, Function.update_of_ne n] at hx
      exact .inl (g.waiting d x hx)
  · by_cases n : d = destinationOf j.kind
    · subst n
      rw [rejoined, Function.update_self] at hx
      exact .inl (g.active _ x hx)
    · rw [rejoined, Function.update_of_ne n] at hx
      exact .inl (g.active d x hx)

theorem ok_queueTail {s : State} (h : CoreOk (core s)) {j j' : Job} (hj : (core s).Has j.handle (holderOf j))
    (hl : isLive j = true) (e : holderOf j' = holderOf j) : CoreOk (core (queueTail j' (leavePlace j s))) := by
  have e1 : j'.handle = j.handle := congrArg Holder.handle e
  have e2 : destinationOf j'.kind = destinationOf j.kind := congrArg Holder.dest e
  refine ok_queueLeft h hj hl (j' := { j' with state := .queued }) (by
    rw [show holderOf { j' with state := .queued } = { holderOf j' with state := .queued } from rfl, e])
    (w := fun l => l ++ [j.handle]) (fun l hn hm => ⟨?_, fun x => ?_⟩) ?_
  · exact List.nodup_append.mpr ⟨hn, List.nodup_singleton _, fun a ha b hb e => hm (by
      rw [List.mem_singleton] at hb
      rwa [← hb, ← e])⟩
  · rw [List.mem_append, List.mem_singleton, or_comm]
  · rw [core_putQueue, e1, e2]
    have q : queueOf (leavePlace j s).jt = leftQueues j (core s).queue := congrArg Core.queue (core_leavePlace j s)
    rw [q, core_leavePlace]
    rfl

theorem ok_queueHead {s : State} (h : CoreOk (core s)) {j j' : Job} (hj : (core s).Has j.handle (holderOf j))
    (hl : isLive j = true) (e : holderOf j' = holderOf j) : CoreOk (core (queueHead j' (leavePlace j s))) := by
  have e1 : j'.handle = j.handle := congrArg Holder.handle e
  have e2 : destinationOf j'.kind = destinationOf j.kind := congrArg Holder.dest e
  refine ok_queueLeft h hj hl (j' := { j' with state := .queued }) (by
    rw [show holderOf { j' with state := .queued } = { holderOf j' with state := .queued } from rfl, e])
    (w := fun l => j.handle :: l) (fun l hn hm => ⟨List.nodup_cons.mpr ⟨hm, hn⟩, fun x => List.mem_cons⟩) ?_
  rw [core_putQueue, e1, e2]
  have q : queueOf (leavePlace j s).jt = leftQueues j (core s).queue := congrArg Core.queue (core_leavePlace j s)
  rw [q, core_leavePlace]
  rfl

theorem ok_stallJob {s : State} (h : CoreOk (core s)) (cause : StallCause) {j j' : Job}
    (hj : (core s).Has j.handle (holderOf j)) (hl : isLive j = true) (e : holderOf j' = holderOf j) :
    CoreOk (core (stallJob cause j' (leavePlace j s))) := by
  refine ok_moveLeft h hj hl (st := .stalled cause (nowMs (leavePlace j s)) (leavePlace j s).jt.stallSeq) rfl ?_ rfl
  exact congrArg (fun k : Holder => { k with state := .stalled cause (nowMs (leavePlace j s)) (leavePlace j s).jt.stallSeq }) e

theorem has_self {s : State} (h : HoldersOk (core s)) {handle : Nat} {j : Job} (hj : jobOf s.jt handle = some j) :
    (core s).Has j.handle (holderOf j) := by
  have := has_of_jobOf h hj
  rwa [handle_of_jobOf h hj]

theorem leavePlace_stays {j : Job} (h1 : j.state ≠ .queued) (h2 : j.state ≠ .active) (s : State) : leavePlace j s = s := by
  unfold leavePlace
  split
  · contradiction
  · contradiction
  · rfl

theorem keeps_stallActive (cause : StallCause) (handle next : Nat) : KeepsAll (stallActive cause handle next) := by
  intro s h
  unfold stallActive
  split
  · rename_i j hj
    split
    · rename_i hs
      have e : leaveActive j s = leavePlace j s := by simp [leavePlace, hs]
      rw [e]
      exact ok_stallJob h cause (has_self h.toHoldersOk hj) (by simp [isLive, hs]) rfl
    · exact h
  · exact h

/-! ### The jobs of the table -/

theorem allJobs_eq (jt : JobTable) : allJobs jt = (List.finRange 64).filterMap fun i => (jt.slots.get i).job := by
  have e : jt.slots.toList = (List.finRange 64).map jt.slots.get := by
    apply List.ext_getElem
    · simp
    · intro n h1 h2
      simp [Vector.get_eq_getElem]
  rw [allJobs, e, List.filterMap_map]
  rfl

theorem mem_allJobs {jt : JobTable} {j : Job} : j ∈ allJobs jt ↔ ∃ i, (jt.slots.get i).job = some j := by
  rw [allJobs_eq, List.mem_filterMap]
  exact ⟨fun ⟨i, _, h⟩ => ⟨i, h⟩, fun ⟨i, h⟩ => ⟨i, List.mem_finRange i, h⟩⟩

theorem has_of_slot {s : State} (h : CoreOk (core s)) {i : Fin 64} {j : Job} (hj : (s.jt.slots.get i).job = some j) :
    slotOf j.handle = i ∧ (core s).Has j.handle (holderOf j) := by
  have hs : (core s).job i = some (holderOf j) := by simp [core, hj]
  have hh : j.handle = (core s).gen i * 64 + i := h.handle i _ hs
  have e : slotOf j.handle = i := Fin.ext (by
    have := i.isLt
    simp only [slotOf, hh]
    omega)
  exact ⟨e, by rw [Core.Has, e]; exact ⟨hs, rfl⟩⟩

theorem has_of_mem {s : State} (h : CoreOk (core s)) {j : Job} (hj : j ∈ allJobs s.jt) : (core s).Has j.handle (holderOf j) := by
  obtain ⟨i, hi⟩ := mem_allJobs.mp hj
  exact (has_of_slot h hi).2

theorem nodup_handles {s : State} (h : CoreOk (core s)) : ((allJobs s.jt).map (·.handle)).Nodup := by
  rw [allJobs_eq, List.map_filterMap]
  refine (List.nodup_finRange 64).filterMap fun a b x ha hb => ?_
  simp only [Option.mem_def, Option.map_eq_some_iff] at ha hb
  obtain ⟨j, hj, rfl⟩ := ha
  obtain ⟨k, hk, e⟩ := hb
  rw [← (has_of_slot h hj).1, ← (has_of_slot h hk).1, e]

theorem perm_insertByStall (j : Job) (l : List Job) : (insertByStall j l).Perm (j :: l) := by
  induction l with
  | nil => exact List.Perm.refl _
  | cons k rest ih =>
    simp only [insertByStall]
    split
    · exact List.Perm.refl _
    · exact (ih.cons k).trans (List.Perm.swap ..)

theorem perm_sorted (ins : Job → List Job → List Job) (hi : ∀ j l, (ins j l).Perm (j :: l)) (l : List Job) :
    (l.foldr ins []).Perm l := by
  induction l with
  | nil => exact List.Perm.refl _
  | cons j rest ih => exact (hi j _).trans (ih.cons j)

/-- A job in STALLED (R10). -/
def isStalled (j : Job) : Bool :=
  match j.state with
  | .stalled _ _ _ => true
  | _ => false

/-- Stalled jobs, each of which the table holds, go to their queues one after another. -/
theorem ok_queueAll {f : Job → State → State} (hf : ∀ {s : State}, CoreOk (core s) → ∀ {j : Job},
      (core s).Has j.handle (holderOf j) → isStalled j = true →
      CoreOk (core (f j s)) ∧ ∀ x k, x ≠ j.handle → (core s).Has x k → (core (f j s)).Has x k)
    (l : List Job) {s : State} (h : CoreOk (core s)) (hn : (l.map (·.handle)).Nodup)
    (hl : ∀ j ∈ l, (core s).Has j.handle (holderOf j) ∧ isStalled j = true) :
    CoreOk (core (l.foldl (fun s j => f j s) s)) := by
  induction l generalizing s with
  | nil => exact h
  | cons j rest ih =>
    rw [List.map_cons, List.nodup_cons] at hn
    have hj := hl j (List.mem_cons_self ..)
    have r := hf h hj.1 hj.2
    refine ih r.1 hn.2 fun k hk => ⟨r.2 _ _ (fun e => hn.1 (e ▸ List.mem_map_of_mem hk)) (hl k (List.mem_cons_of_mem _ hk)).1,
      (hl k (List.mem_cons_of_mem _ hk)).2⟩

theorem stalled_live {j : Job} (h : isStalled j = true) : isLive j = true ∧ j.state ≠ .queued ∧ j.state ≠ .active := by
  cases e : j.state <;> simp [isStalled, isLive, e] at h ⊢

theorem has_moved {s : State} {j : Job} (hj : (core s).Has j.handle (holderOf j)) {j' : Job} (e : j'.handle = j.handle)
    {u : State} (hu : (core u).job = (core s).job) {x : Nat} {k : Holder} (hx : x ≠ j.handle) (hk : (core s).Has x k) :
    (core (moveJob j' u)).Has x k := by
  rw [core_moveJob]
  refine (Core.has_replaced (c := core u) (j := holderOf j) (by rw [Core.Has, hu]; exact hj) (show (holderOf j').handle = j.handle from e)).mpr
    (.inr ⟨hx, by rw [Core.Has, hu]; exact hk⟩)

theorem ok_queueTailStalled {s : State} (h : CoreOk (core s)) {j : Job} (hj : (core s).Has j.handle (holderOf j))
    (hs : isStalled j = true) :
    CoreOk (core (queueTail j s)) ∧ ∀ x k, x ≠ j.handle → (core s).Has x k → (core (queueTail j s)).Has x k := by
  obtain ⟨a, b, c⟩ := stalled_live hs
  refine ⟨?_, fun x k hx hk => has_moved (j' := { j with state := .queued }) hj rfl ?_ hx hk⟩
  · have := ok_queueTail h hj a rfl
    rwa [leavePlace_stays b c] at this
  · rw [core_putQueue]

theorem ok_queueHeadStalled {s : State} (h : CoreOk (core s)) {j : Job} (hj : (core s).Has j.handle (holderOf j))
    (hs : isStalled j = true) :
    CoreOk (core (queueHead j s)) ∧ ∀ x k, x ≠ j.handle → (core s).Has x k → (core (queueHead j s)).Has x k := by
  obtain ⟨a, b, c⟩ := stalled_live hs
  refine ⟨?_, fun x k hx hk => has_moved (j' := { j with state := .queued }) hj rfl ?_ hx hk⟩
  · have := ok_queueHead h hj a rfl
    rwa [leavePlace_stays b c] at this
  · rw [core_putQueue]

theorem keeps_requeue {p : Job → Bool} (hp : ∀ j, p j = true → isStalled j = true) : KeepsAll (requeue p) := by
  intro s h
  have perm := perm_sorted insertByStall perm_insertByStall ((allJobs s.jt).filter p)
  refine ok_queueAll (f := queueTail) (fun {_} h {_} hj hs => ok_queueTailStalled h hj hs) _ h ?_ fun j hj => ?_
  · exact (perm.map _).nodup_iff.mpr ((nodup_handles h).sublist (List.filter_sublist.map _))
  · have := List.mem_filter.mp (perm.mem_iff.mp hj)
    exact ⟨has_of_mem h this.1, hp j this.2⟩

theorem stalledWith_stalled (cause : StallCause) {j : Job} (h : stalledWith cause j = true) : isStalled j = true := by
  unfold stalledWith at h
  unfold isStalled
  cases e : j.state <;> simp [e] at h ⊢

theorem keeps_creditRose (owner : Nat) : KeepsAll (creditRose owner) :=
  keeps_requeue fun j h => stalledWith_stalled .credit (by simp only [Bool.and_eq_true] at h; exact h.2)

theorem keeps_barrierGone (owner : Nat) : KeepsAll (barrierGone owner) :=
  keeps_requeue fun j h => stalledWith_stalled .account (by simp only [Bool.and_eq_true] at h; exact h.2)

theorem keeps_supplyCame : KeepsAll supplyCame := keeps_requeue fun _ h => stalledWith_stalled .supply h

theorem keeps_completeAuth (i : Fin 4) (record : List Byte) : KeepsAll (completeAuth i record) := by
  intro s
  simp only [completeAuth]
  refine Keeps.then_ite keeps_supplyCame (Keeps.of_core ?_)
  rw [core_writeBackTest, core_setVerification]
  split <;> simp

end Sys2Proof.Machine
end

