-- ==== Sys2Proof/Laws/BlocksBridge.lean ====
section
/-! SUPPORT. BlocksOk and the invariant of the blocks' part of the state say the same, where the job table meets its own. -/

namespace Sys2Proof.Machine

theorem collected_eq (s : State) : collected s = (core s).blocks := by
  have : (allJobs s.jt).flatMap (fun j => extentBlocks j.extents) = (core s).allocated := by
    rw [allJobs_eq]
    unfold Core.allocated
    induction List.finRange 64 with
    | nil => rfl
    | cons i rest ih =>
      rw [List.flatMap_cons, ← ih]
      cases k : (s.jt.slots.get i).job with
      | none =>
        rw [List.filterMap_cons_none (f := fun i => (s.jt.slots.get i).job) k]
        simp [Core.held, core, k]
      | some j =>
        rw [List.filterMap_cons_some (f := fun i => (s.jt.slots.get i).job) k, List.flatMap_cons]
        simp [Core.held, core, k, holderOf]
  unfold collected Core.blocks
  rw [this]
  rfl

theorem loadStage_eq (s : State) : loadStage s = (core s).stageOf := by
  unfold loadStage Core.stageOf core
  cases s.startUp <;> rfl

theorem holders_of_jobs {s : State} (h : JobsOk s) (b : ScrubOk s) : HoldersOk (core s) := by
  obtain ⟨slots, qe, qx, -, -, -⟩ := h
  have q : ∀ d, QueueOk s.jt d := fun d => by cases d <;> assumption
  have gen : ∀ i, (core s).gen i < 256 := fun i => (slots i).1
  have handle : ∀ i j, (core s).job i = some j → j.handle = (core s).gen i * 64 + i := fun i j hj => by
    obtain ⟨x, hx, rfl⟩ := Option.map_eq_some_iff.mp hj
    exact (slots i).2.1 x hx
  have has : ∀ {g : Nat} {j : Job}, jobOf s.jt g = some j → (core s).Has g (holderOf j) := fun {g j} hj => by
    unfold jobOf at hj
    split at hj
    · rename_i hg
      have hh := (slots (slotOf g)).2.1 j hj
      refine ⟨by simp [core, hj], ?_⟩
      show j.handle = g
      simp at hg
      rw [hh, hg.2]
      simp [slotOf]
      omega
    · cases hj
  exact {
    gen := gen, handle := handle
    nodup := fun d => (q d).1
    waiting := fun d g hg => by
      obtain ⟨j, hj, a, b⟩ := ((q d).2.1 g).mp hg
      exact ⟨_, has hj, a, b⟩
    active := fun d g hg => by
      obtain ⟨j, hj, a, b⟩ := ((q d).2.2 g).mp hg
      exact ⟨_, has hj, a, b⟩
    dead := fun i j hj hl => by
      obtain ⟨x, hx, rfl⟩ := Option.map_eq_some_iff.mp hj
      rw [isLive_holder] at hl
      exact b.1 x (mem_allJobs.mpr ⟨i, hx⟩) hl
    origin := fun e he g hg => by
      obtain ⟨j, hj, hl⟩ := b.2.1 e he g hg
      exact ⟨_, has hj, by rw [isLive_holder]; exact hl⟩ }

theorem owns_iff {s : State} (h : HoldersOk (core s)) {g b : Nat} : Owns s g b ↔ (core s).OwnsBlock g b := by
  constructor
  · rintro ⟨j, hj, m⟩
    exact ⟨_, has_of_jobOf h hj, m⟩
  · rintro ⟨k, hk, m⟩
    obtain ⟨j, hj, rfl⟩ := jobOf_of_has h hk
    exact ⟨j, hj, m⟩

theorem filter_programs (ops : List PortOp) : (ops.filter isProgram).length = (ops.filterMap programOf).length := by
  induction ops with
  | nil => rfl
  | cons op rest ih => cases op <;> simp [List.filter_cons, List.filterMap_cons, isProgram, programOf, ih]

/-- BlocksOk, with the job table's own invariant, is the invariant of the blocks' part of the state. -/
theorem coreOk_of {s : State} (h : JobsOk s) (b : BlocksOk s) : CoreOk (core s) := by
  obtain ⟨c, m, im, sc⟩ := b
  have hh := holders_of_jobs h sc
  obtain ⟨i1, i2, i3, i4, i5⟩ := im
  exact { hh with
    work := fun x hx => by
      obtain ⟨w, hw, rfl⟩ := Option.map_eq_some_iff.mp hx
      exact sc.2.2 w hw
    filling := fun g x hx => by
      obtain ⟨f, hf, e⟩ := Option.map_eq_some_iff.mp hx
      obtain ⟨rfl, rfl⟩ := Prod.mk.inj e
      exact (owns_iff hh).mp (i1 f hf)
    programming := fun g x ph hx n => by
      obtain ⟨p, hp, e⟩ := Option.map_eq_some_iff.mp hx
      simp only [Prod.mk.injEq] at e
      obtain ⟨rfl, rfl, rfl⟩ := e
      obtain ⟨a, c⟩ := i2 p hp n
      refine ⟨(owns_iff hh).mp a, fun g' b' hf => ?_⟩
      obtain ⟨f, hy, e⟩ := Option.map_eq_some_iff.mp hf
      obtain ⟨rfl, rfl⟩ := Prod.mk.inj e
      exact c f hy
    programs := fun g x hx => by
      obtain ⟨op, hm, e⟩ := List.mem_filterMap.mp hx
      cases op with
      | program g' b' sec =>
        simp only [programOf, Option.some.injEq, Prod.mk.injEq] at e
        obtain ⟨rfl, rfl⟩ := e
        obtain ⟨p, hp, a, b, c⟩ := i3 _ _ _ hm
        simp [core, hp, a, b, c]
      | _ => cases e
    single := by
      have : (s.smc.ops.filterMap programOf).length ≤ 1 := by rw [← filter_programs]; exact i4
      exact this
    flight := fun g x hx => by
      obtain ⟨fl, hf, e⟩ := Option.bind_eq_some_iff.mp hx
      cases fl with
      | program g' b' sec phys =>
        simp only [flownOf, Option.some.injEq, Prod.mk.injEq] at e
        obtain ⟨rfl, rfl⟩ := e
        obtain ⟨a, b⟩ := i5 _ _ _ _ hf
        refine ⟨?_, b.imp id fun ⟨o, f, p⟩ => ⟨(owns_iff hh).mp o, fun g' b' hf => ?_, fun g' b' ph hp => ?_⟩⟩
        · cases k : s.smc.programming with
          | none => rw [k] at a; exact .inr ⟨by simp [core, k], a⟩
          | some p => rw [k] at a; exact .inl ⟨p.handle, p.block, by simp [core, k, a]⟩
        · obtain ⟨y, hy, e⟩ := Option.map_eq_some_iff.mp hf
          obtain ⟨rfl, rfl⟩ := Prod.mk.inj e
          exact f y hy
        · obtain ⟨y, hy, e⟩ := Option.map_eq_some_iff.mp hp
          simp only [Prod.mk.injEq] at e
          obtain ⟨rfl, rfl, rfl⟩ := e
          exact p y hy
      | _ => cases e
    defects := m.1
    clean := m.2.1
    stored := m.2.2
    counted := by
      obtain ⟨a, b, -⟩ := c
      rw [loadStage_eq, collected_eq] at a b
      exact ⟨a, b⟩
    starting := fun n hn => by
      obtain ⟨u, hu, rfl⟩ := Option.map_eq_some_iff.mp hn
      have := c.2.2 (by rw [hu]; rfl)
      refine ⟨this.1, ?_⟩
      have e : loadStage s = u.step := by simp [loadStage, hu]
      omega }

/-- The invariant of the blocks' part of the state says BlocksOk. -/
theorem blocksOk_of {s : State} (h : CoreOk (core s)) : BlocksOk s := by
  have hh := h.toHoldersOk
  refine ⟨⟨?_, ?_, fun hs => ?_⟩, ⟨h.defects, h.clean, h.stored⟩, ⟨fun f hf => ?_, fun p hp n => ?_, fun g b sec hm => ?_, ?_,
    fun g b sec phys hf => ?_⟩, fun j hj hl => ?_, fun e he g hg => ?_, fun w hw => ?_⟩
  · rw [loadStage_eq, collected_eq]; exact h.counted.1
  · rw [loadStage_eq, collected_eq]; exact h.counted.2
  · obtain ⟨u, hu⟩ := Option.isSome_iff_exists.mp hs
    have := h.starting u.step (by simp [core, hu])
    exact ⟨this.1, by simp [loadStage, hu, this.2]⟩
  · exact (owns_iff hh).mpr (h.filling _ _ (by simp [core, hf]))
  · obtain ⟨a, c⟩ := h.programming p.handle p.block p.phase (by simp [core, hp]) n
    exact ⟨(owns_iff hh).mpr a, fun f hf => c f.handle f.block (by simp [core, hf])⟩
  · have := h.programs g b (List.mem_filterMap.mpr ⟨_, hm, rfl⟩)
    obtain ⟨p, hp, e⟩ := Option.map_eq_some_iff.mp this
    simp only [Prod.mk.injEq] at e
    exact ⟨p, hp, e.2.2, e.1, e.2.1⟩
  · rw [filter_programs]; exact h.single
  · obtain ⟨a, b⟩ := h.flight g b (by simp [core, hf, flownOf])
    refine ⟨?_, b.imp id fun ⟨o, f, p⟩ => ⟨(owns_iff hh).mpr o, fun y hy => f y.handle y.block (by simp [core, hy]),
      fun y hy => p y.handle y.block y.phase (by simp [core, hy])⟩⟩
    rcases a with ⟨g', b', e⟩ | ⟨e, q⟩
    · obtain ⟨p, hp, e⟩ := Option.map_eq_some_iff.mp e
      simp only [Prod.mk.injEq] at e
      rw [hp]
      exact e.2.2
    · have : s.smc.programming = none := by simpa [core] using e
      rw [this]
      exact q
  · obtain ⟨i, hi⟩ := mem_allJobs.mp hj
    exact h.dead i (holderOf j) (by simp [core, hi]) (by rw [isLive_holder]; exact hl)
  · obtain ⟨k, hk, hl⟩ := h.origin e he g hg
    obtain ⟨j, hj, rfl⟩ := jobOf_of_has hh hk
    exact ⟨j, hj, by rw [← isLive_holder]; exact hl⟩
  · exact h.work w.block (by simp [core, hw])

end Sys2Proof.Machine
end

