-- ==== Sys2Proof/Laws/Effects.lean ====
section
/-! SUPPORT. Everything an operation inside an event can do to the guarded parts of State, said once: Effect lists the
single effects with their guards, Reach chains them, and every operation of the model is shown to be such a chain. An
invariant that every Effect keeps is kept by every operation. -/

namespace Sys2Proof.Machine

/-- The guarded parts of two states agree: all but the job table, the cipher, the scrub, the port, the slots, the work
list, the staging, the sense inputs and the noise. -/
structure Same (s t : State) : Prop where
  powered : t.powered = s.powered
  clock : t.clock = s.clock
  startUp : t.startUp = s.startUp
  lif : t.lif = s.lif
  accounts : t.accounts = s.accounts
  settings : t.settings = s.settings
  ps : t.ps = s.ps
  fm : t.fm = s.fm
  pending : t.pending = s.pending
  defects : t.smc.defects = s.smc.defects
  sweepCount : t.smc.sweepCount = s.smc.sweepCount
  history : t.cbc.history = s.cbc.history
  lifetime : t.cbc.lifetime = s.cbc.lifetime
  jammed : t.spm.jammed = s.spm.jammed
  jam : t.spm.jam = s.spm.jam
  doorOpen : t.spm.doorOpen = s.spm.doorOpen
  supply : t.spm.supply.level = s.spm.supply.level
  permit : t.spm.feedPermit = s.spm.feedPermit
  sheets : t.spm.sheets = s.spm.sheets

/-- The notice names a place of the fault queue only where it is one of the four (R158). -/
def placeOk (n : Notice) : Prop := ∀ p, noticeSubject n = some (.faultPlace p) → p < 4

/-- A change of an account record that keeps its ID and its ranges (section 2.1). -/
def KeepsAccount (f : Account → Account) : Prop := ∀ a, AccountOk a → AccountOk (f a) ∧ (f a).id = a.id

/-- One effect on the guarded parts, with its guard. -/
inductive Effect : State → State → Prop
  | same {s t : State} (h : Same s t) : Effect s t
  | notice (s : State) (n : Notice) (h : placeOk n) : Effect s (emit n s)
  | account (s : State) (id : Nat) (f : Account → Account) (h : KeepsAccount f)
      (hb : ∀ a, findAccount id s.accounts = some a → 0 ≤ available a → 0 ≤ available (f a))
      (hr : ∀ a, (f a).reserved = a.reserved) : Effect s (updateAccount id f s)
  | defects (s : State) (d : Defects) : Effect s (setDefects d s)
  | history (s : State) (e : HistoryEntry) :
      Effect s (setHistory (putHistory (heldSerials s.cbc) e s.cbc.history) s.cbc.lifetime s)
  | lifetime (s : State) : Effect s (setHistory s.cbc.history (satAdd s.cbc.lifetime 1 Config.counterMax) s)
  | tally (s : State) (notes : Vector NoteTally 10) :
      Effect s { s with fm := { s.fm with notes := notes, nextNumber := takeNumber s.fm % 65535 + 1 } }
  | numbered (s : State) : Effect s { s with fm := { s.fm with nextNumber := takeNumber s.fm % 65535 + 1 } }
  | queued (s : State) (r : JobRecord) (hr : r.number = takeNumber s.fm) (hl : s.fm.queue.length < 4) :
      Effect s { s with fm := { s.fm with
        nextNumber := takeNumber s.fm % 65535 + 1
        queue := s.fm.queue ++ [{ place := freePlace s.fm.queue, record := r }] } }
  | overflowAgain (s : State) (hl : 4 ≤ s.fm.queue.length) (hb : s.fm.backlog = true) :
      Effect s { s with fm := { s.fm with overflow := satAdd s.fm.overflow 1 255, backlog := true } }
  | backlog (s : State) (hl : 4 ≤ s.fm.queue.length) :
      Effect s (evaluatePermit { s with fm := { s.fm with overflow := satAdd s.fm.overflow 1 255, backlog := true } })
  | path (s : State) (p : SheetPath) (h : p.sheets = s.spm.sheets) : Effect s (evaluatePermit { s with spm := p })
  | jammed (s : State) (p : SheetPath) (h : p.sheets = []) :
      Effect s (releaseSheets s.spm.sheets (evaluatePermit { s with spm := p }))
  | emptied (s : State) : Effect s (releaseSheets s.spm.sheets { s with spm := { s.spm with sheets := [] } })
  | granted (s : State) (sh : Sheet) (a : Account) (he : sh.entered = false) (hl : s.spm.sheets.length < 6)
      (hp : s.fm.part = .running) (ha : findAccount sh.owner s.accounts = some a) (hc : (sh.cost : Int) ≤ available a) :
      Effect s { updateAccount sh.owner (reserve sh.cost) s with spm := { s.spm with sheets := s.spm.sheets ++ [sh] } }
  | halted (s : State) :
      Effect s (evaluatePermit { s with startUp := none, fm := { s.fm with part := .halted, nextNumber := takeNumber s.fm % 65535 + 1 } })
  | haltRecord (s : State) (h : HaltRecord) (hp : s.fm.part = .halted) : Effect s (setHaltRecord h s)

/-- What a chain of effects can do. -/
def Reach : State → State → Prop := Relation.ReflTransGen Effect

theorem Reach.rfl' (s : State) : Reach s s := Relation.ReflTransGen.refl

theorem Effect.reach {s t : State} (h : Effect s t) : Reach s t := Relation.ReflTransGen.single h

theorem Reach.trans {s t u : State} (h : Reach s t) (k : Reach t u) : Reach s u := Relation.ReflTransGen.trans h k

/-- A chain followed by one more, the last first. -/
theorem Reach.via {s t u : State} (k : Reach t u) (h : Reach s t) : Reach s u := h.trans k

theorem Same.reach {s t : State} (h : Same s t) : Reach s t := (Effect.same h).reach

/-- An invariant that every effect keeps is kept by every chain. -/
theorem Reach.keeps {P : State → Prop} (hP : ∀ s t, Effect s t → P s → P t) {s t : State} (h : Reach s t) (hs : P s) :
    P t := by
  induction h with
  | refl => exact hs
  | tail _ e ih => exact hP _ _ e ih

/-- A function of the state whose every use is a chain. -/
def Chains (f : State → State) : Prop := ∀ s, Reach s (f s)

theorem Reach.branch {c : Prop} [Decidable c] {s a b : State} (h : Reach s a) (k : Reach s b) :
    Reach s (if c then a else b) := by
  split <;> assumption

/-- A chain that may go one operation further. -/
theorem Reach.then_ite {c : Prop} [Decidable c] {f : State → State} {s a : State} (hf : Chains f) (h : Reach s a) :
    Reach s (if c then f a else a) := (h.trans (hf a)).branch h

/-- A chain that goes one operation further unless a condition holds. -/
theorem Reach.else_ite {c : Prop} [Decidable c] {f : State → State} {s a : State} (hf : Chains f) (h : Reach s a) :
    Reach s (if c then a else f a) := h.branch (h.trans (hf a))

theorem Chains.foldl {α : Type} {f : State → α → State} (h : ∀ a, Chains fun s => f s a) (l : List α) :
    Chains fun s => l.foldl f s := by
  induction l with
  | nil => exact fun s => Reach.rfl' s
  | cons a rest ih => exact fun s => (h a s).trans (ih (f s a))

theorem Chains.foldr {α : Type} {f : α → State → State} (h : ∀ a, Chains (f a)) (l : List α) :
    Chains fun s => l.foldr f s := by
  induction l with
  | nil => exact fun s => Reach.rfl' s
  | cons a rest ih => exact fun s => (ih s).trans (h a _)

/-! ### Notices and records -/

theorem placeOk_of_none {n : Notice} (h : ∀ p, noticeSubject n ≠ some (.faultPlace p)) : placeOk n :=
  fun p hp => absurd hp (h p)

theorem freePlace_lt (queue : List QueuedFault) : freePlace queue < 4 := by
  unfold freePlace
  cases h : (List.range 4).find? fun p => !(queue.any (·.place == p)) with
  | none => decide
  | some p => simpa using List.mem_of_find?_eq_some h

theorem reach_emit (n : Notice) (h : placeOk n) : Chains (emit n) := fun s => (Effect.notice s n h).reach

theorem reach_askPart : Chains askPart := fun s => reach_emit _ (placeOk_of_none (by simp [noticeSubject])) s

theorem reach_askJobState (j : Job) : Chains (askJobState j) :=
  fun s => reach_emit _ (placeOk_of_none (by simp [noticeSubject])) s

theorem reach_raiseNote (n : Note) : Chains (raiseNote n) := by
  intro s
  refine (Effect.tally s _).reach.trans (reach_emit _ (placeOk_of_none (by simp [noticeSubject])) _)

theorem reach_evaluatePermit : Chains evaluatePermit := fun s => (Effect.path s s.spm rfl).reach

theorem reach_setJob (j : Job) : Chains (setJob j) := fun s => Same.reach (by constructor <;> rfl)

theorem reach_changeJob (handle : Nat) (f : Job → Job) : Chains (changeJob handle f) := by
  intro s
  unfold changeJob
  split
  · exact reach_setJob _ s
  · exact Reach.rfl' s

theorem reach_moveJob (j : Job) : Chains (moveJob j) := fun s => (reach_setJob j s).trans (reach_askJobState j _)

theorem reach_keepLastFault (r : JobRecord) : Chains (keepLastFault r) := fun s => reach_changeJob _ _ s

/-- FM's record may be replaced before or after a job is changed. -/
theorem changeJob_withFm (handle : Nat) (f : Job → Job) (s : State) (a b : FaultMonitor) :
    { changeJob handle f { s with fm := a } with fm := b } = changeJob handle f { s with fm := b } := by
  unfold changeJob
  cases h : jobOf s.jt handle <;> simp [setJob]

theorem changeJob_fm (handle : Nat) (f : Job → Job) (s : State) : (changeJob handle f s).fm = s.fm := by
  unfold changeJob
  split <;> rfl

theorem reach_raiseJobFault (f : JobFault) : Chains (raiseJobFault f) := by
  intro s
  let r : JobRecord := { number := takeNumber s.fm, instant := nowMs s, fault := f }
  let m : FaultMonitor := { s.fm with nextNumber := r.number % 65535 + 1 }
  let u := keepLastFault r { s with fm := m }
  have hfm : u.fm = m := changeJob_fm _ _ _
  have h0 : Reach s u := (Effect.numbered s).reach.trans (reach_keepLastFault r _)
  have hq : u.fm.queue.length = s.fm.queue.length := by rw [hfm]
  have hr : raiseJobFault f s =
      if u.fm.queue.length < 4 then
        emit (.faultQueued { place := freePlace u.fm.queue, record := r })
          { u with fm := { u.fm with queue := u.fm.queue ++ [{ place := freePlace u.fm.queue, record := r }] } }
      else if u.fm.backlog then
        { u with fm := { u.fm with overflow := satAdd u.fm.overflow 1 255, backlog := true } }
      else askPart (evaluatePermit
        { u with fm := { u.fm with overflow := satAdd u.fm.overflow 1 255, backlog := true } }) := rfl
  rw [hr]
  split
  · rename_i h
    refine Reach.trans ?_ (reach_emit _ (fun p hp => ?_) _)
    · rw [hfm, show ({ u with fm := { m with queue := m.queue ++ [{ place := freePlace m.queue, record := r }] } } : State)
        = keepLastFault r { s with fm := { m with queue := m.queue ++ [{ place := freePlace m.queue, record := r }] } } from
          changeJob_withFm _ _ s m _]
      exact (Effect.queued s r rfl (hq ▸ h)).reach.trans (reach_keepLastFault r _)
    · simp only [noticeSubject, Option.some.injEq, Subject.faultPlace.injEq] at hp
      exact hp ▸ freePlace_lt _
  · rename_i h
    split
    · rename_i hb
      exact h0.trans (Effect.overflowAgain u (by omega) hb).reach
    · exact (h0.trans (Effect.backlog u (by omega)).reach).trans (reach_askPart _)

end Sys2Proof.Machine
end

