-- ==== Sys2Proof/Laws/Reach.lean ====
section
/-! SUPPORT. Each shared operation of the model is a chain of effects: the account table, the spool, the queues and the
cartridges. -/

namespace Sys2Proof.Machine

/-! ### AT -/

theorem countUp_le (n k : Nat) : countUp n k ≤ 4294967295 := by
  unfold countUp satAdd Config.counterMax
  exact Nat.min_le_right _ _

theorem keeps_reserve (cost : Nat) : KeepsAccount (reserve cost) := fun _ h => ⟨h, rfl⟩

theorem keeps_release (cost : Nat) : KeepsAccount (release cost) := fun _ h => ⟨h, rfl⟩

/-- The record after the releases of some sheets (R34). -/
def released (sheets : List Sheet) (a : Account) : Account :=
  { a with reserved := sheets.foldl (fun r sh => if a.id = sh.owner then r - sh.cost else r) a.reserved }

theorem released_nil (table : List Account) : table.map (released []) = table := by
  rw [show released [] = id from funext fun _ => rfl, List.map_id]

theorem released_cons (sh : Sheet) (rest : List Sheet) (table : List Account) :
    (changeAccount sh.owner (release sh.cost) table).map (released rest) = table.map (released (sh :: rest)) := by
  simp only [changeAccount, List.map_map]
  refine List.map_congr_left fun a _ => ?_
  simp only [Function.comp, released, List.foldl_cons, release]
  split <;> simp_all

/-- A table the store holds after a write to ACCOUNTS is the one written or one it held before. -/
theorem storedTables_write (table : List Account) (ps : Store) :
    storedTables (writeAccounts (written .accounts table) ps) = table :: storedTables ps := by
  cases h : ps.accounts <;> simp [storedTables, storedTables.tableOf, written, h]

/-- The releases of removed sheets change the account table and ACCOUNTS alone; every table written on the way is the table
after some of the releases. -/
theorem releaseSheets_spec (sheets : List Sheet) (s : State) :
    ∃ ps, releaseSheets sheets s = { s with accounts := s.accounts.map (released sheets), ps := ps }
      ∧ (s.accounts.map (released sheets) = s.accounts ∧ ps.accounts = s.ps.accounts ∨ ps.accounts = written .accounts (s.accounts.map (released sheets)))
      ∧ (ps.defects = s.ps.defects ∧ ps.settings = s.ps.settings ∧ ps.history = s.ps.history ∧ ps.keys = s.ps.keys
        ∧ ps.halt = s.ps.halt ∧ ps.loadedKeys = s.ps.loadedKeys ∧ storedHistories ps = storedHistories s.ps)
      ∧ ∀ t ∈ storedTables ps, t ∈ storedTables s.ps ∨ ∃ l, t = s.accounts.map (released l) := by
  induction sheets generalizing s with
  | nil => exact ⟨s.ps, by rw [released_nil]; rfl, .inl ⟨released_nil _, rfl⟩, ⟨rfl, rfl, rfl, rfl, rfl, rfl, rfl⟩, fun t h => .inl h⟩
  | cons sh rest ih =>
    have unfolded : releaseSheets (sh :: rest) s = releaseSheets rest (updateAccount sh.owner (release sh.cost) s) := rfl
    rw [unfolded]
    simp only [← released_cons]
    by_cases hc : changeAccount sh.owner (release sh.cost) s.accounts = s.accounts
    · obtain ⟨ps, he, ha, hp, ht⟩ := ih s
      rw [updateAccount_same _ _ _ hc, hc]
      exact ⟨ps, he, ha, hp, fun t h => (ht t h).imp id fun ⟨l, e⟩ => ⟨sh :: l, by rw [e, ← released_cons, hc]⟩⟩
    · obtain ⟨ps, he, ha, hp, ht⟩ := ih (setAccounts (changeAccount sh.owner (release sh.cost) s.accounts) s)
      rw [updateAccount_changed _ _ _ hc]
      refine ⟨ps, he, ?_, hp, fun t h => ?_⟩
      · rcases ha with ⟨hr, hs⟩ | ha
        · refine .inr (hs.trans ?_)
          rw [show List.map (released rest) (changeAccount sh.owner (release sh.cost) s.accounts) = _ from hr]
          rfl
        · exact .inr ha
      · rcases ht t h with h | ⟨l, h⟩
        · rw [setAccounts_ps, storedTables_write, List.mem_cons] at h
          rcases h with h | h
          · exact .inr ⟨[sh], by rw [h, ← released_cons, released_nil]⟩
          · exact .inl h
        · exact .inr ⟨sh :: l, by rw [h, ← released_cons]; rfl⟩

theorem keeps_charge (cost : Nat) (sides : List Side) (g : Bool) : KeepsAccount (charge cost sides g) := by
  intro a h
  unfold AccountOk at h
  refine ⟨?_, rfl⟩
  unfold AccountOk charge
  refine ⟨h.1, h.2.1, ?_, h.2.2.2.1, h.2.2.2.2.1, countUp_le _ _, countUp_le _ _, countUp_le _ _,
    h.2.2.2.2.2.2.2.2.1, countUp_le _ _, h.2.2.2.2.2.2.2.2.2.2⟩
  have := h.2.2.1
  simp only
  omega

theorem keeps_scanCharge (due taken : Nat) : KeepsAccount (scanCharge due taken) := by
  intro a h
  unfold AccountOk at h
  refine ⟨?_, rfl⟩
  unfold AccountOk scanCharge
  refine ⟨h.1, h.2.1, ?_, h.2.2.2.1, h.2.2.2.2.1, h.2.2.2.2.2.1, h.2.2.2.2.2.2.1, h.2.2.2.2.2.2.2.1, countUp_le _ _,
    h.2.2.2.2.2.2.2.2.2.1, countUp_le _ _⟩
  have := h.2.2.1
  simp only
  omega

theorem keeps_pinFailed (now minutes : Nat) : KeepsAccount (pinFailed now minutes) := by
  intro a h
  unfold AccountOk at h
  simp only [pinFailed]
  split
  · exact ⟨⟨h.1, h.2.1, h.2.2.1, h.2.2.2.1, le_refl 5, h.2.2.2.2.2⟩, rfl⟩
  · rename_i hf
    refine ⟨⟨h.1, h.2.1, h.2.2.1, h.2.2.2.1, ?_, h.2.2.2.2.2⟩, rfl⟩
    simp only
    omega

theorem keeps_endLockout : KeepsAccount endLockout := by
  intro a h
  unfold AccountOk at h
  unfold endLockout
  split <;> exact ⟨⟨h.1, h.2.1, h.2.2.1, h.2.2.2.1, Nat.zero_le _, h.2.2.2.2.2⟩, rfl⟩

theorem reach_updateAccount (id : Nat) (f : Account → Account) (s : State) (h : KeepsAccount f)
    (hb : ∀ a, findAccount id s.accounts = some a → 0 ≤ available a → 0 ≤ available (f a))
    (hr : ∀ a, (f a).reserved = a.reserved) : Reach s (updateAccount id f s) :=
  (Effect.account s id f h hb hr).reach

/-! ### SMC and SE -/

theorem reach_retireBlock (cause : RetireCause) (block : Nat) : Chains (retireBlock cause block) := by
  intro s
  refine Reach.trans ?_ (reach_raiseNote _ _)
  refine Reach.trans (Effect.defects s { s.smc.defects with retired := insertNumber block s.smc.defects.retired }).reach ?_
  exact Same.reach (by constructor <;> rfl)

theorem reach_remapBlock {block : Nat} {s t : State} (h : remapBlock block s = some t) : Reach s t := by
  unfold remapBlock at h
  split at h
  · obtain rfl := Option.some.inj h
    exact Reach.then_ite (reach_raiseNote _) (Effect.defects s _).reach
  · cases h

theorem reach_takeFree {b : Nat} {s t : State} (h : takeFree s = some (b, t)) : Reach s t := by
  unfold takeFree at h
  split at h
  · cases h
  · simp only [Option.some.injEq, Prod.mk.injEq] at h
    obtain ⟨-, rfl⟩ := h
    exact (Same.reach (by constructor <;> rfl)).trans (Effect.defects _ _).reach

theorem reach_enterOp (op : PortOp) : Chains (enterOp op) := fun s => Same.reach (by constructor <;> rfl)

theorem reach_discardStaging : Chains discardStaging := fun s => Same.reach (by constructor <;> rfl)

theorem reach_freeSlot (handle : Nat) : Chains (freeSlot handle) := by
  intro s
  unfold freeSlot
  split
  · split
    · exact (Same.reach (by constructor <;> rfl)).trans (reach_emit _ (placeOk_of_none (by simp [noticeSubject])) _)
    · exact Reach.rfl' s
  · exact Reach.rfl' s

theorem reach_reportScrubbed (handle : Nat) : Chains (reportScrubbed handle) := by
  intro s
  unfold reportScrubbed
  split
  · exact reach_freeSlot _ s
  · exact Reach.rfl' s

theorem reach_leaveScrub (block : Nat) : Chains (leaveScrub block) := by
  intro s
  unfold leaveScrub
  split
  · exact Reach.rfl' s
  · refine Reach.trans (t := { s with se := { s.se with list := s.se.list.filter (·.block != block) } })
      (Same.reach (by constructor <;> rfl)) ?_
    split
    · exact reach_reportScrubbed _ _
    · exact Reach.rfl' _
    · exact Reach.rfl' _

theorem reach_countRetired : Chains countRetired := fun s => Same.reach (by constructor <;> rfl)

theorem reach_countReturned : Chains countReturned := fun s => Same.reach (by constructor <;> rfl)

theorem reach_retireScrubbed (cause : RetireCause) (block : Nat) : Chains (retireScrubbed cause block) :=
  fun s => ((reach_retireBlock cause block s).trans (reach_countRetired _)).trans (reach_leaveScrub block _)

/-! ### JT: queues and stalls -/

theorem reach_putQueue (d : Destination) (q : Queue) : Chains fun s => { s with jt := putQueue d q s.jt } :=
  fun s => Same.reach (by constructor <;> rfl)

theorem reach_unqueue (j : Job) : Chains (unqueue j) := fun s => Same.reach (by constructor <;> rfl)

theorem reach_leaveActive (j : Job) : Chains (leaveActive j) := by
  intro s
  unfold leaveActive
  refine Reach.trans (t := { s with jt := putQueue (destinationOf j.kind) { queueOf s.jt (destinationOf j.kind) with active := none } s.jt })
    (Same.reach (by constructor <;> rfl)) ?_
  cases destinationOf j.kind
  · exact reach_discardStaging _
  · exact Same.reach (by constructor <;> rfl)

theorem reach_leavePlace (j : Job) : Chains (leavePlace j) := by
  intro s
  unfold leavePlace
  split
  · exact reach_unqueue j s
  · exact reach_leaveActive j s
  · exact Reach.rfl' s

theorem reach_queueTail (j : Job) : Chains (queueTail j) :=
  fun s => (reach_putQueue _ _ s).trans (reach_moveJob _ _)

theorem reach_queueHead (j : Job) : Chains (queueHead j) :=
  fun s => (reach_putQueue _ _ s).trans (reach_moveJob _ _)

theorem reach_stallJob (cause : StallCause) (j : Job) : Chains (stallJob cause j) := by
  intro s
  refine Reach.trans (Same.reach ?_) (reach_moveJob _ _)
  constructor <;> rfl

theorem reach_stallActive (cause : StallCause) (handle next : Nat) : Chains (stallActive cause handle next) := by
  intro s
  unfold stallActive
  split
  · split
    · exact (reach_leaveActive _ s).trans (reach_stallJob _ _ _)
    · exact Reach.rfl' s
  · exact Reach.rfl' s

theorem reach_requeue (p : Job → Bool) : Chains (requeue p) :=
  fun s => Chains.foldl (fun j => reach_queueTail j) _ s

theorem reach_creditRose (owner : Nat) : Chains (creditRose owner) := reach_requeue _

theorem reach_barrierGone (owner : Nat) : Chains (barrierGone owner) := reach_requeue _

theorem reach_supplyCame : Chains supplyCame := reach_requeue _

/-! ### CBC -/

theorem reach_putSlot (i : Fin 4) (c : CartSlot) : Chains (putSlot i c) := fun s => Same.reach (by constructor <;> rfl)

theorem reach_askCartState (i : Fin 4) : Chains (askCartState i) :=
  fun s => reach_emit _ (placeOk_of_none (by simp [noticeSubject])) s

theorem reach_queueItem (item : WorkItem) : Chains (queueItem item) := by
  intro s
  unfold queueItem
  split
  · exact Reach.rfl' s
  · exact Same.reach (by constructor <;> rfl)

theorem reach_queueAll : Chains queueAll :=
  fun s => (reach_queueItem _ s).trans (Chains.foldl (fun i => reach_queueItem (.auth i)) _ _)

theorem reach_clearBus : Chains clearBus := fun s => Same.reach (by constructor <;> rfl)

theorem reach_endFlight : Chains endFlight := fun s => Same.reach (by constructor <;> rfl)

theorem reach_writeBackTest (i : Fin 4) (exhausted : Bool) : Chains (writeBackTest i exhausted) := by
  intro s
  simp only [writeBackTest]
  split
  · split
    · exact reach_queueItem _ s
    · exact Reach.rfl' s
  · exact Reach.rfl' s

theorem reach_changeLevel (i : Fin 4) (mirror pending : Nat) : Chains (changeLevel i mirror pending) := by
  intro s
  unfold changeLevel
  refine Reach.trans (reach_putSlot i (formLevel s.settings.meter.lowMarkPct mirror pending (slotRecord s i)) s) ?_
  refine Reach.trans ?_ (reach_writeBackTest _ _ _)
  split
  · exact Reach.rfl' _
  · exact reach_askCartState _ _

theorem reach_updateHistory (i : Fin 4) (suspect : Bool) : Chains (updateHistory i suspect) := by
  intro s
  simp only [updateHistory]
  split
  · unfold changeHistory
    split
    · exact Reach.rfl' s
    · exact (Effect.history s _).reach
  · exact Reach.rfl' s

theorem reach_setVerification (i : Fin 4) (v : Verification) : Chains (setVerification i v) := by
  intro s
  simp only [setVerification]
  have h := (reach_putSlot i { slotRecord s i with verification := v } s).trans (reach_askCartState i _)
  refine h.branch ?_
  split
  · exact h.trans (reach_raiseNote _ _)
  · exact h

theorem reach_dropFigures (i : Fin 4) : Chains (dropFigures i) := by
  intro s
  unfold dropFigures
  split
  · exact (reach_putSlot _ _ s).trans (reach_discardStaging _)
  · exact Reach.rfl' s

theorem reach_ceaseVerified (i : Fin 4) : Chains (ceaseVerified i) := by
  intro s
  unfold ceaseVerified
  split
  · refine ((reach_updateHistory i false s).trans (Same.reach ?_)).trans (reach_putSlot _ _ _)
    constructor <;> rfl
  · exact Reach.rfl' s

theorem reach_endUnverified (i : Fin 4) (v : Verification) : Chains (endUnverified i v) :=
  fun s => ((reach_ceaseVerified i s).trans (reach_dropFigures i _)).trans (reach_setVerification i v _)

theorem reach_deductPlane (handle : Nat) (demand : Planes) (i : Fin 4) : Chains fun s => deductPlane handle demand s i := by
  intro s
  simp only [deductPlane]
  split
  · split
    · exact ((reach_putSlot _ _ s).trans (reach_updateHistory _ _ _)).trans (reach_changeLevel _ _ _ _)
    · exact Reach.rfl' s
  · exact Reach.rfl' s

theorem reach_reauthTest (i : Fin 4) : Chains fun s => reauthTest s i := by
  intro s
  simp only [reauthTest]
  split
  · exact reach_queueItem _ s
  · exact Reach.rfl' s

theorem reach_countSheet (i : Fin 4) : Chains fun s => countSheet s i :=
  fun s => (reach_putSlot _ _ s).trans (reach_reauthTest i _)

theorem reach_enterCartridges (sh : Sheet) : Chains (enterCartridges sh) := by
  intro s
  have counted : Reach s (changeHistory s.cbc.history (satAdd s.cbc.lifetime 1 Config.counterMax) s) := by
    unfold changeHistory
    split
    · exact Reach.rfl' s
    · exact (Effect.lifetime s).reach
  refine Reach.trans (counted.trans (Chains.foldl (fun i => reach_deductPlane sh.handle sh.demand i) cartSlots _)) ?_
  exact Chains.foldl (fun i => reach_countSheet i) _ _

theorem reach_jobClosed (handle : Nat) (wasDraining : Bool) : Chains (jobClosed handle wasDraining) := by
  refine Chains.foldl (fun i s => ?_) cartSlots
  simp only
  split
  · split
    · exact (reach_putSlot _ _ s).trans (reach_queueItem _ _)
    · exact reach_putSlot _ _ s
  · exact Reach.rfl' s

theorem reach_keepRead (i : Fin 4) (record : List Byte) : Chains (keepRead i record) := fun s => reach_putSlot _ _ s

theorem reach_rejectRead (i : Fin 4) (reason : RejectReason) (record : List Byte) : Chains (rejectRead i reason record) :=
  fun s => (((reach_ceaseVerified i s).trans (reach_dropFigures i _)).trans (reach_keepRead i record _)).trans
    (reach_setVerification _ _ _)

theorem reach_completeAuth (i : Fin 4) (record : List Byte) : Chains (completeAuth i record) := by
  intro s
  simp only [completeAuth]
  exact Reach.then_ite reach_supplyCame <| (reach_writeBackTest i _ _).via <| (reach_setVerification i _ _).via <|
    Reach.else_ite reach_discardStaging <| (reach_updateHistory i _ _).via <| reach_putSlot i _ s

theorem reach_completeWriteBack (i : Fin 4) (amount level : Nat) : Chains (completeWriteBack i amount level) := by
  intro s
  simp only [completeWriteBack]
  split
  · exact ((reach_putSlot _ _ s).trans (reach_updateHistory _ _ _)).trans (reach_changeLevel _ _ _ _)
  · exact Reach.rfl' s

theorem reach_failTransaction (i : Fin 4) (item : WorkItem) : Chains (failTransaction i item) := by
  intro s
  simp only [failTransaction]
  have h := (reach_endFlight s).trans (reach_putSlot i
    { slotRecord s i with failures := (slotRecord s i).failures + 1 } _)
  refine (h.trans (reach_queueItem _ _)).branch ((h.trans (reach_endUnverified i .commFail _)).trans ?_)
  exact Same.reach (by constructor <;> rfl)

theorem reach_unverify (i : Fin 4) : Chains fun s => unverify s i :=
  fun s => ((reach_ceaseVerified i s).trans (reach_putSlot _ _ _)).trans (reach_setVerification _ _ _)

theorem reach_cartridgesDoorOpen : Chains cartridgesDoorOpen :=
  fun s => (reach_clearBus s).trans (Chains.foldl (fun i => reach_unverify i) cartSlots _)

end Sys2Proof.Machine
end

