-- ==== Sys2Proof/Laws/ReachClosing.lean ====
section
/-! SUPPORT. Closing, halting and jamming are chains of effects. -/

namespace Sys2Proof.Machine

theorem reach_zeroize (i : Fin 64) : Chains (zeroize i) := fun s => Same.reach (by constructor <;> rfl)

theorem reach_withMedia (s : State) (m : SpoolMedia) (h : m.defects = s.smc.defects) (k : m.sweepCount = s.smc.sweepCount) :
    Reach s { s with smc := m } :=
  Same.reach ⟨rfl, rfl, rfl, rfl, rfl, rfl, rfl, rfl, rfl, h, k, rfl, rfl, rfl, rfl, rfl, rfl, rfl, rfl⟩

theorem reach_withJobs (s : State) (jt : JobTable) : Reach s { s with jt := jt } := Same.reach (by constructor <;> rfl)

theorem reach_reviewTimer : Chains reviewTimer := by
  intro s
  unfold reviewTimer
  exact (Reach.rfl' s).branch (reach_withJobs s _)

theorem reach_closeImages (handle : Nat) : Chains (closeImages handle) := by
  intro s
  simp only [closeImages]
  have h : Reach s (if s.smc.filling.any (·.handle = handle) then { s with smc := { s.smc with filling := none } } else s) :=
    (reach_withMedia s _ (by rfl) (by rfl)).branch (Reach.rfl' s)
  refine h.trans ?_
  generalize (if s.smc.filling.any (·.handle = handle) then { s with smc := { s.smc with filling := none } } else s) = u
  split
  · split
    · split
      · exact reach_withMedia u _ (by rfl) (by rfl)
      · exact Reach.rfl' u
      · exact (reach_reviewTimer _).via <| (reach_retireBlock _ _ _).via <| reach_withMedia u _ (by rfl) (by rfl)
    · exact Reach.rfl' u
  · exact Reach.rfl' u

theorem reach_discardHeld (handle : Nat) : Chains (discardHeld handle) := by
  intro s
  unfold discardHeld
  split
  · exact (reach_reviewTimer _).via <| (reach_raiseNote _ _).via <| reach_withJobs s _
  · exact Reach.rfl' s

theorem reach_handToScrub (j : Job) : Chains (handToScrub j) := fun s => Same.reach (by constructor <;> rfl)

theorem reach_closeCore (outcome : JobOutcome) (handle : Nat) : Chains (closeCore outcome handle) := by
  intro s
  simp only [closeCore]
  split
  · split
    · exact (reach_withJobs _ _).via <| (reach_discardHeld _ _).via <| (reach_jobClosed _ _ _).via <| (reach_moveJob _ _).via <|
        (reach_withMedia _ _ (by rfl) (by rfl)).via <| (reach_leavePlace _ _).via <| (reach_handToScrub _ _).via <|
        (reach_closeImages _ _).via <| reach_zeroize _ s
    · exact Reach.rfl' s
  · exact Reach.rfl' s

theorem reach_closeByHalt (handle : Nat) : Chains fun s => closeByHalt s handle :=
  fun s => (reach_changeJob _ _ s).trans (reach_closeCore _ _ _)

theorem reach_releaseAll : Chains releaseAll := fun s => (reach_discardStaging _).via (Effect.emptied s).reach

theorem reach_stopSpool : Chains stopSpool := fun s => Same.reach (by constructor <;> rfl)

theorem reach_endSanitize (halted : Bool) : Chains (endSanitize halted) := by
  intro s
  unfold endSanitize
  split
  · exact (reach_emit _ (placeOk_of_none (by simp [noticeSubject])) _).via <| Same.reach (by constructor <;> rfl)
  · exact Reach.rfl' s

theorem reach_reportStartUp (halted : Bool) (ended : Option StartUp) : Chains (reportStartUp halted ended) := by
  intro s
  unfold reportStartUp
  split
  · exact reach_emit _ (placeOk_of_none (by simp [noticeSubject])) s
  · exact Reach.rfl' s

theorem reach_withCipher (s : State) (bc : BandCipher) : Reach s { s with bc := bc } := Same.reach (by constructor <;> rfl)

/-- The part state after a chain that begins in HALTED. -/
theorem Effect.halted_stays {s t : State} (h : Effect s t) (hs : s.fm.part = .halted) : t.fm.part = .halted := by
  cases h with
  | same h => rw [h.fm]; exact hs
  | jammed p h => obtain ⟨_, e, _⟩ := releaseSheets_spec s.spm.sheets (evaluatePermit { s with spm := p }); rw [e]; exact hs
  | emptied =>
    obtain ⟨_, e, _⟩ := releaseSheets_spec s.spm.sheets { s with spm := { s.spm with sheets := [] } }
    rw [e]
    exact hs
  | account | granted => simp only [updateAccount_fm]; exact hs
  | _ => first | exact hs | rfl

theorem Reach.halted_stays {s t : State} (h : Reach s t) : s.fm.part = .halted → t.fm.part = .halted :=
  fun hs => Reach.keeps (P := fun s => s.fm.part = .halted) (fun _ _ e h => e.halted_stays h) h hs

theorem reach_tellFinal (jobs : List Job) : Chains (tellFinal jobs) := Chains.foldl (fun j => reach_askJobState j) jobs

theorem reach_haltPart (cause : HaltCause) : Chains (haltPart cause) := by
  intro s
  simp only [haltPart]
  split
  · exact Reach.rfl' s
  · have h1 := reach_withCipher (evaluatePermit { s with startUp := none, fm := { s.fm with part := .halted, nextNumber := takeNumber s.fm % 65535 + 1 } })
      { s.bc with keys := Vector.replicate 64 none, serving := false }
    have h0 : (evaluatePermit { s with startUp := none, fm := { s.fm with part := .halted, nextNumber := takeNumber s.fm % 65535 + 1 } }).fm.part
        = .halted := rfl
    have h2 := (reach_reportStartUp true s.startUp _).via <| (reach_endSanitize true _).via <| (reach_stopSpool _).via <|
      (reach_clearBus _).via <| (reach_releaseAll _).via <|
      (reach_withJobs _ { tellFinal (cutShort s.jt) ((((allJobs s.jt).filter isLive).map (·.handle)).foldl closeByHalt
          { evaluatePermit { s with startUp := none, fm := { s.fm with part := .halted, nextNumber := takeNumber s.fm % 65535 + 1 } } with
            bc := { s.bc with keys := Vector.replicate 64 none, serving := false } }) |> fun u => noneInFlight u.jt with
          engine := {}, exporter := {}, exportPhase := .idle, held := none, stallTimer := none }).via <|
      (reach_tellFinal (cutShort s.jt) _).via <| (Chains.foldl (fun h => reach_closeByHalt h) (((allJobs s.jt).filter isLive).map (·.handle)) _).via h1
    exact (reach_askPart _).via <| (Effect.haltRecord _ _ (h2.halted_stays h0)).reach.via <| h2.via (Effect.halted s).reach

end Sys2Proof.Machine
end

