-- ==== Sys2Proof/Laws/ReachSettle.lean ====
section
/-! SUPPORT. Jams, intake and everything the part starts by itself within an event are chains of effects. -/

namespace Sys2Proof.Machine

/-! ### Closing and jamming -/

theorem reach_closeJob (outcome : JobOutcome) (handle : Nat) : Chains (closeJob outcome handle) := by
  intro s
  simp only [closeJob]
  split
  · split
    · exact ((reach_closeCore _ _ s).trans (reach_haltPart _ _)).branch ((reach_closeCore _ _ s).trans (reach_reportScrubbed _ _))
    · exact Reach.rfl' s
  · exact Reach.rfl' s

theorem reach_abortJob (code : JobFaultCode) (reason : AbortReason) (handle page block : Nat) :
    Chains (abortJob code reason handle page block) :=
  fun s => (reach_raiseJobFault _ s).trans (reach_closeJob _ _ _)

theorem reach_jamJob (acc : Nat × State) (listed : Nat × Nat) : Reach acc.2 (jamJob acc listed).2 := by
  obtain ⟨rank, s⟩ := acc
  obtain ⟨handle, index⟩ := listed
  simp only [jamJob]
  split
  · exact Reach.rfl' s
  · split
    · exact reach_setJob _ s
    · exact (reach_setJob _ s).trans (reach_closeJob _ _ _)
    · exact reach_setJob _ s
    · exact (reach_leavePlace _ s).trans (reach_stallJob _ _ _)

theorem reach_jamJobs (l : List (Nat × Nat)) (acc : Nat × State) : Reach acc.2 (l.foldl jamJob acc).2 := by
  induction l generalizing acc with
  | nil => exact Reach.rfl' _
  | cons x rest ih => exact (reach_jamJob acc x).trans (ih _)

theorem reach_declareJam (cause : JamCause) : Chains (declareJam cause) := by
  intro s
  simp only [declareJam]
  exact (reach_askPart _).via <| (reach_jamJobs _ (1, _)).via <|
    (Chains.foldl (f := fun s owner => creditRose owner s) (fun o => reach_creditRose o) _ _).via <|
    (reach_discardStaging _).via (Effect.jammed s _ rfl).reach

/-! ### Intake -/

theorem reach_handOn {s t : State} (h : handOn s = some t) : Reach s t := by
  simp only [handOn] at h
  split at h
  · split at h
    · obtain rfl := Option.some.inj h
      exact (reach_enterOp _ _).via <| reach_withMedia s _ (by rfl) (by rfl)
    · cases h
  · cases h

theorem reach_ceaseFilling : Chains ceaseFilling := by
  intro s
  simp only [ceaseFilling]
  have h : Reach s { s with smc := { s.smc with filling := s.smc.filling.map fun f => { f with handedOn := true } } } :=
    reach_withMedia s _ (by rfl) (by rfl)
  cases hk : handOn { s with smc := { s.smc with filling := s.smc.filling.map fun f => { f with handedOn := true } } } with
  | none => exact h
  | some t => exact h.trans (reach_handOn hk)

theorem reach_moveImage {s t : State} (h : moveImage s = some t) : Reach s t := by
  simp only [moveImage] at h
  split at h
  · cases h
  · split at h
    · split at h
      · split at h
        · rename_i hf _
          obtain rfl := Option.some.inj h
          exact (reach_reviewTimer _).via <| (reach_enterOp _ _).via <| (reach_retireBlock _ _ _).via <|
            (reach_setJob _ _).via <| (reach_withMedia _ _ (by rfl) (by rfl)).via <| reach_takeFree hf
        · cases h
      · cases h
    · cases h

theorem reach_yieldFilling (handle : Nat) : Chains (yieldFilling handle) := by
  intro s
  simp only [yieldFilling]
  split
  · split
    · exact reach_ceaseFilling s
    · exact Reach.rfl' s
  · exact Reach.rfl' s

theorem addBandEntry_defects (block : Nat) (e : BandEntry) (m : SpoolMedia) : (addBandEntry block e m).defects = m.defects := rfl

theorem reach_layInCurrent (b : Band) (stored : List Byte) (f : FillingImage) (j : Job) : Chains (layInCurrent b stored f j) := by
  intro s
  simp only [layInCurrent]
  exact Reach.then_ite reach_ceaseFilling <| (reach_setJob _ _).via <| reach_withMedia s _ (by rfl) (by rfl)

theorem reach_layInNew (b : Band) (stored : List Byte) (current : Option FillingImage) (j : Job) :
    Chains (layInNew b stored current j) := by
  intro s
  simp only [layInNew]
  split
  · exact Reach.rfl' s
  · rename_i hf
    refine (reach_takeFree hf).trans ?_
    split
    · exact (reach_setJob _ _).via <| (reach_withMedia _ _ (by rfl) (by rfl)).via <| (reach_ceaseFilling _).via <|
        reach_withMedia _ _ (by rfl) (by rfl)
    · exact (reach_setJob _ _).via <| reach_withMedia _ _ (by rfl) (by rfl)

/-- The state a laying down leaves. -/
def StoreResult.state : StoreResult → State
  | .stored s => s
  | .held _ s => s

theorem reach_storeBand (b : Band) (key : LiveKey) (j : Job) (s : State) : Reach s (storeBand b key j s).state := by
  simp only [storeBand]
  have h := reach_yieldFilling b.handle s
  generalize yieldFilling b.handle s = u at h
  split
  · split
    · exact h.trans (reach_layInCurrent _ _ _ _ _)
    · split
      · exact h
      · split
        · exact h
        · exact h.trans (reach_layInNew b _ _ j _)
  · split
    · exact h
    · split
      · exact h
      · exact h.trans (reach_layInNew b _ none j _)

theorem reach_stored {b : Band} {key : LiveKey} {j : Job} {s t : State} (h : storeBand b key j s = .stored t) :
    Reach s t := by
  have k := reach_storeBand b key j s
  rwa [h] at k

theorem reach_held {b : Band} {key : LiveKey} {j : Job} {s t : State} {r : HoldReason}
    (h : storeBand b key j s = .held r t) : Reach s t := by
  have k := reach_storeBand b key j s
  rwa [h] at k

theorem reach_takeScanCharge (j : Job) (page : Nat) : Chains (takeScanCharge j page) := by
  intro s
  simp only [takeScanCharge]
  split
  · exact Reach.rfl' s
  · rename_i a ha
    refine Reach.then_ite (reach_raiseNote _) <| (reach_changeJob _ _ _).via <|
      reach_updateAccount _ _ s (keeps_scanCharge _ _) (fun b hb h => ?_) (fun _ => rfl)
    obtain rfl := Option.some.inj (ha.symm.trans hb)
    simp only [available, scanCharge, scanTaken] at *
    omega

theorem reach_closePage (b : Band) (j : Job) : Chains (closePage b j) := by
  intro s
  simp only [closePage]
  refine (reach_changeJob _ _ _).via <| (reach_emit _ (placeOk_of_none (by simp [noticeSubject])) _).via ?_
  split
  · exact (reach_takeScanCharge _ _ _).via <| reach_setJob _ s
  · exact (reach_takeScanCharge _ _ _).via <| reach_setJob _ s
  · exact reach_setJob _ s

theorem reach_endIntake (handle : Nat) : Chains (endIntake handle) := by
  intro s
  simp only [endIntake]
  have h : Reach s (changeJob handle (fun j => { j with expected := none })
      (if (currentImage s handle).isSome then ceaseFilling s else s)) :=
    (reach_changeJob _ _ _).via <| Reach.then_ite reach_ceaseFilling (Reach.rfl' s)
  generalize changeJob handle (fun j => { j with expected := none })
      (if (currentImage s handle).isSome then ceaseFilling s else s) = u at h
  split
  · exact h
  · exact (h.trans (reach_moveJob _ _)).branch ((h.trans (reach_closeJob _ _ _)).branch (h.trans (reach_queueTail _ _)))

theorem reach_finishBand (b : Band) : Chains (finishBand b) := by
  intro s
  simp only [finishBand]
  split
  · exact Reach.rfl' s
  · split
    · exact Reach.then_ite (reach_endIntake _) (reach_closePage _ _ s)
    · exact reach_setJob _ s

theorem reach_holdBand (b : Band) (reason : HoldReason) : Chains (holdBand b reason) := by
  intro s
  simp only [holdBand]
  split
  · exact reach_withJobs s _
  · exact (reach_reviewTimer _).via (reach_withJobs s _)

theorem reach_takeBand (b : Band) : Chains (takeBand b) := by
  intro s
  simp only [takeBand]
  split
  · exact reach_raiseNote _ s
  · refine (reach_raiseNote _ s).branch ((reach_abortJob _ _ _ _ _ s).branch ((reach_abortJob _ _ _ _ _ s).branch ?_))
    split
    · exact reach_raiseNote _ s
    · split
      · rename_i hs
        exact (reach_finishBand _ _).via (reach_stored hs)
      · rename_i hs
        exact (reach_holdBand _ _ _).via (reach_held hs)

theorem reach_takeWaiting {s t : State} (h : takeWaiting s = some t) : Reach s t := by
  simp only [takeWaiting] at h
  split at h
  · split at h
    · obtain rfl := Option.some.inj h
      exact (reach_takeBand _ _).via (reach_withJobs s _)
    · cases h
  · cases h

theorem reach_retryHeld {s t : State} (h : retryHeld s = some t) : Reach s t := by
  simp only [retryHeld] at h
  split at h
  · cases h
  · rename_i hb _
    split at h
    · split at h
      · cases h
      · split at h
        · rename_i hs
          obtain rfl := Option.some.inj h
          exact (reach_finishBand _ _).via <| (reach_reviewTimer _).via <| (reach_stored hs).via <| reach_withJobs s _
        · rename_i hs
          split at h
          · cases h
          · obtain rfl := Option.some.inj h
            exact (reach_holdBand _ _ _).via <| (reach_held hs).via <| reach_withJobs s _
    · cases h

/-! ### Reads, the ENGINE and the EXPORT channel -/

theorem reach_changePage (handle page : Nat) (f : PageEntry → PageEntry) : Chains (changePage handle page f) :=
  fun s => reach_changeJob _ _ s

theorem reach_beginRead (r : Reader) (handle page index : Nat) (s : State) :
    Reach s (beginRead r handle page index s).2 := by
  simp only [beginRead]
  split
  · exact reach_changePage _ _ _ s
  · exact reach_enterOp _ s

theorem reach_activate {d : Destination} {s t : State} (h : activate d s = some t) : Reach s t := by
  simp only [activate] at h
  split at h
  · split at h
    · obtain rfl := Option.some.inj h
      exact (reach_moveJob _ _).via (reach_withJobs s _)
    · cases h
  · cases h

theorem reach_drain {s t : State} (h : drain s = some t) : Reach s t := by
  simp only [drain] at h
  split at h
  · cases h
  · split at h
    · cases h
    · split at h
      · obtain rfl := Option.some.inj h
        exact (reach_moveJob _ _).via (reach_leaveActive _ s)
      · obtain rfl := Option.some.inj h
        exact reach_closeJob _ _ s

theorem reach_failStaging {s t : State} (h : failStaging s = some t) : Reach s t := by
  simp only [failStaging] at h
  split at h
  · split at h
    · obtain rfl := Option.some.inj h
      exact reach_stallActive _ _ _ s
    · cases h
  · cases h

theorem reach_startStaging {s t : State} (h : startStaging s = some t) : Reach s t := by
  simp only [startStaging] at h
  split at h
  · cases h
  · split at h
    · cases h
    · split at h
      · cases h
      · split at h
        · cases h
        · obtain rfl := Option.some.inj h
          exact Reach.via (Same.reach (by constructor <;> rfl)) (reach_beginRead _ _ _ _ s)

theorem reach_grant (j : Job) (e : StagingEntry) (f : Figures) (s : State) (a : Account) (hl : s.spm.sheets.length < 6)
    (hp : s.fm.part = .running) (ha : findAccount j.owner s.accounts = some a) (hc : (f.cost : Int) ≤ available a) :
    Reach s (grant j e f s) := by
  simp only [grant, updateAccount_spm]
  exact (reach_changeJob _ _ _).via <| Reach.via (Same.reach (by constructor <;> rfl))
    (Effect.granted s (grantedSheet s j e f) a rfl hl hp ha hc).reach

theorem reach_attempt {j : Job} {e : StagingEntry} {f : Figures} {s t : State} (hl : s.spm.sheets.length < 6)
    (hp : s.fm.part = .running) (h : attempt j e f s = some t) : Reach s t := by
  simp only [attempt] at h
  split at h
  · cases h
  · split at h
    · obtain rfl := Option.some.inj h
      exact reach_stallActive _ _ _ s
    · split at h <;> obtain rfl := Option.some.inj h
      · rename_i hr
        rw [Option.map_eq_some_iff] at hr
        obtain ⟨a, ha, hr⟩ := hr
        refine reach_grant _ _ _ _ a hl hp ha ?_
        unfold reservationAnswer at hr
        split at hr
        · cases hr
        · split at hr
          · cases hr
          · omega
      all_goals exact reach_stallActive _ _ _ s

theorem reach_grantAttempt {s t : State} (hp : s.fm.part = .running) (h : grantAttempt s = some t) : Reach s t := by
  simp only [grantAttempt] at h
  split at h
  · rename_i hc
    split at h
    · split at h
      · exact reach_attempt (by simp_all) hp h
      · cases h
    · cases h
  · cases h

theorem reach_startExport {s t : State} (h : startExport s = some t) : Reach s t := by
  simp only [startExport] at h
  split at h
  · split at h
    · obtain rfl := Option.some.inj h
      exact reach_closeJob _ _ s
    · split at h
      · obtain rfl := Option.some.inj h
        exact (reach_stallActive _ _ _ _).via (reach_beginRead _ _ _ _ s)
      · obtain rfl := Option.some.inj h
        exact (reach_withJobs _ _).via (reach_beginRead _ _ _ _ s)
  · cases h

/-! ### Scrub, bus and port -/

theorem reach_takeScrub {s t : State} (h : takeScrub s = some t) : Reach s t := by
  simp only [takeScrub] at h
  split at h
  · split at h
    · obtain rfl := Option.some.inj h
      exact (reach_enterOp _ _).via (Same.reach (by constructor <;> rfl))
    · cases h
  · cases h

theorem reach_finishSanitize {s t : State} (h : finishSanitize s = some t) : Reach s t := by
  simp only [finishSanitize] at h
  split at h
  · obtain rfl := Option.some.inj h
    exact (reach_askPart _).via (reach_endSanitize _ s)
  · cases h

theorem same_takeNoise (s : State) : Same s (takeNoise s).2 := by
  unfold takeNoise
  split <;> constructor <;> rfl

theorem reach_draw16 (s : State) : Reach s (draw16 s).2 := by
  have k := (same_takeNoise s).reach
  simp only [draw16]
  split <;> exact Reach.via (Same.reach (by constructor <;> rfl)) k

theorem reach_draw32 (s : State) : Reach s (draw32 s).2 := by
  have k := (same_takeNoise s).reach
  simp only [draw32]
  split <;> exact Reach.via (Same.reach (by constructor <;> rfl)) k

theorem reach_startItem (item : WorkItem) : Chains (startItem item) := by
  intro s
  simp only [startItem]
  split
  · exact Same.reach (by constructor <;> rfl)
  · exact Same.reach (by constructor <;> rfl)
  · split
    · split
      · have k := reach_draw16 s
        split
        · rename_i hd
          rw [hd] at k
          exact (reach_haltPart _ _).via k
        · rename_i hd
          rw [hd] at k
          exact Reach.via (Same.reach (by constructor <;> rfl)) k
      · exact Reach.rfl' s
    · exact Reach.rfl' s

theorem reach_startBus {s t : State} (h : startBus s = some t) : Reach s t := by
  simp only [startBus] at h
  split at h
  · split at h
    · cases h
    · obtain rfl := Option.some.inj h
      exact (reach_startItem _ _).via (Same.reach (by constructor <;> rfl))
  · cases h

theorem reach_endMarkedRead {s t : State} (h : endMarkedRead s = some t) : Reach s t := by
  simp only [endMarkedRead] at h
  split at h
  · cases h
  · split at h
    · obtain rfl := Option.some.inj h
      exact Reach.via (Same.reach (by constructor <;> rfl)) <| (reach_changePage _ _ _ _).via <|
        reach_withMedia s _ (by rfl) (by rfl)
    · obtain rfl := Option.some.inj h
      exact (reach_stallActive _ _ _ _).via <| (reach_changePage _ _ _ _).via <| reach_withMedia s _ (by rfl) (by rfl)

theorem reach_startPort {s t : State} (h : startPort s = some t) : Reach s t := by
  simp only [startPort] at h
  split at h
  · cases h
  · split at h
    · cases h
    · split at h
      · cases h
      · obtain rfl := Option.some.inj h
        exact reach_withMedia s _ (by rfl) (by rfl)

/-! ### The whole -/

theorem reach_orElse {a b : Option State} {s : State} (ha : ∀ {u}, a = some u → Reach s u)
    (hb : ∀ {u}, b = some u → Reach s u) {t : State} (h : (a <|> b) = some t) : Reach s t := by
  cases a with
  | none => exact hb (by simpa using h)
  | some u => exact ha (by simpa using h)

theorem reach_nextAction {s t : State} (h : nextAction s = some t) : Reach s t := by
  simp only [nextAction] at h
  split at h
  · cases h
  · exact reach_startBus h
  · exact reach_orElse reach_endMarkedRead (reach_orElse reach_moveImage (reach_orElse reach_handOn (reach_orElse reach_retryHeld (reach_orElse reach_takeWaiting
      (reach_orElse reach_activate (reach_orElse reach_drain (reach_orElse reach_activate (reach_orElse reach_startExport
      (reach_orElse reach_failStaging (reach_orElse reach_startStaging (reach_orElse (reach_grantAttempt ‹_›) (reach_orElse reach_takeScrub
      (reach_orElse reach_finishSanitize (reach_orElse reach_startBus reach_startPort)))))))))))))) h

theorem reach_settleN (n : Nat) : Chains (settleN n) := by
  induction n with
  | zero => exact fun s => Reach.rfl' s
  | succ n ih =>
    intro s
    simp only [settleN]
    split
    · rename_i t h
      exact (reach_nextAction h).trans (ih t)
    · exact Reach.rfl' s

/-- Everything the part starts by itself within an event is a chain of effects. -/
theorem reach_settle : Chains settle := fun s => reach_settleN _ s

/-- Nothing is due: nothing changes. -/
theorem settle_of_idle {s : State} (h : nextAction s = none) : settle s = s := by
  unfold settle settleFuel
  rw [show 4096 + 16 * s.jt.waiting.length = (4095 + 16 * s.jt.waiting.length) + 1 by omega, settleN, h]

/-- While HALTED nothing is due (R164). -/
theorem settle_halted {s : State} (h : s.fm.part = .halted) : settle s = s := settle_of_idle (by simp [nextAction, h])

end Sys2Proof.Machine
end

