-- ==== Sys2Proof/Laws/BlocksClose.lean ====
section
/-! SUPPORT. The close of a job, a halt and a jam keep the blocks' invariant. -/

namespace Sys2Proof.Machine

/-! ### DEFECTS -/

theorem storedDefects_write (d : Defects) (ps : Store) :
    storedDefects (writeDefects (written .defects d) ps) = d :: storedDefects ps := by
  cases h : ps.defects <;> simp [storedDefects, storedDefects.defectsOf, written, writeDefects, h]

theorem core_setDefects (d : Defects) (s : State) :
    core (setDefects d s) = { core s with defects := d, stored := d :: (core s).stored } := by
  have := storedDefects_write d s.ps
  simp only [core, setDefects, this]

theorem core_retireBlock (cause : RetireCause) (b : Nat) (s : State) :
    core (retireBlock cause b s)
      = { core s with defects := retiredWith b (core s).defects, stored := retiredWith b (core s).defects :: (core s).stored } :=
  core_setDefects _ s

/-! ### Closing -/

/-- What closeImages leaves, in the form CoreOk.handed asks for. -/
def ImagesClosed (c : Core) (handle : Nat) (j : Job) (d : Core) : Prop :=
  ∃ defects stored filling programming programs, d = c.prepared c.queue defects stored filling programming programs
    ∧ (defects = c.defects ∨ c.flight = none ∧ ∃ b ∈ extentBlocks j.extents, defects = retiredWith b c.defects)
    ∧ (∀ d ∈ stored, DefectsOk d)
    ∧ (∀ y b, filling = some (y, b) → y ≠ handle ∧ c.filling = some (y, b))
    ∧ (∀ y b ph, programming = some (y, b, ph) → c.programming = some (y, b, ph) ∧ (y ≠ handle ∨ ph = .inFlight))
    ∧ (c.flight ≠ none → programming = c.programming)
    ∧ (programs = [] ∨ programs = c.programs ∧ programming = c.programming)

/-- The filling image of a closed job is dropped. -/
def unfill (handle : Nat) (s : State) : State :=
  if s.smc.filling.any (·.handle = handle) then { s with smc := { s.smc with filling := none } } else s

/-- The filling image of another job. -/
def otherFilling (handle : Nat) (c : Core) : Option (Nat × Nat) := c.filling.filter fun f => f.1 ≠ handle

theorem core_unfill (handle : Nat) (s : State) : core (unfill handle s) = { core s with filling := otherFilling handle (core s) } := by
  unfold unfill otherFilling
  cases e : s.smc.filling with
  | none => simp [core, e]
  | some f => by_cases k : f.handle = handle <;> simp [core, e, k, Option.filter]

theorem otherFilling_spec {handle : Nat} {c : Core} (y b : Nat) (h : otherFilling handle c = some (y, b)) :
    y ≠ handle ∧ c.filling = some (y, b) := by
  unfold otherFilling at h
  rw [Option.filter_eq_some_iff] at h
  exact ⟨by simpa using h.2, h.1⟩

theorem imagesClosed {s : State} (h : CoreOk (core s)) {handle : Nat} {j : Job} (hj : (core s).Has handle (holderOf j)) :
    ImagesClosed (core s) handle j (core (closeImages handle s)) := by
  have hc : closeImages handle s = (match (unfill handle s).smc.programming with
    | some p =>
      if p.handle = handle then
        match p.phase with
        | .waiting =>
          { unfill handle s with smc := { (unfill handle s).smc with
              programming := none
              ops := (unfill handle s).smc.ops.filter fun op => match op with
                | .program h _ _ => h != handle
                | _ => true } }
        | .inFlight => unfill handle s
        | .needsBlock =>
          reviewTimer (retireBlock .program p.block { unfill handle s with smc := { (unfill handle s).smc with programming := none } })
      else unfill handle s
    | none => unfill handle s) := rfl
  have hu := core_unfill handle s
  have hp : (unfill handle s).smc.programming = s.smc.programming := by unfold unfill; split <;> rfl
  have ho : (unfill handle s).smc.ops = s.smc.ops := by unfold unfill; split <;> rfl
  rw [hc, hp]
  have plain : ∀ p, s.smc.programming = p → (∀ q, p = some q → q.handle ≠ handle ∨ q.phase = .inFlight) →
      ImagesClosed (core s) handle j (core (unfill handle s)) := by
    intro p hp hq
    refine ⟨(core s).defects, (core s).stored, otherFilling handle (core s), (core s).programming, (core s).programs, hu, .inl rfl,
      h.stored, otherFilling_spec, fun y b ph e => ⟨e, ?_⟩, fun _ => rfl, .inr ⟨rfl, rfl⟩⟩
    have e : s.smc.programming.map (fun p => (p.handle, p.block, p.phase)) = some (y, b, ph) := e
    cases k : s.smc.programming with
    | none => rw [k] at e; cases e
    | some q =>
      rw [k] at e
      simp only [Option.map_some, Option.some.injEq, Prod.mk.injEq] at e
      rw [← e.1, ← e.2.2]
      exact hq q (hp ▸ k)
  have noFlight : ∀ p, s.smc.programming = some p → p.phase ≠ .inFlight → (core s).flight = none := by
    intro p k n
    cases e : (core s).flight with
    | none => rfl
    | some f =>
      have e2 : (core s).programming = some (p.handle, p.block, p.phase) := by simp [core, k]
      rcases (h.flight f.1 f.2 e).1 with ⟨_, _, q⟩ | ⟨q, _⟩
      · rw [e2] at q
        simp only [Option.some.injEq, Prod.mk.injEq] at q
        exact absurd q.2.2 n
      · rw [e2] at q
        cases q
  split
  · rename_i p k
    split
    · rename_i hh
      split
      · rename_i hph
        have e2 : (core s).programming = some (p.handle, p.block, p.phase) := by simp [core, k]
        refine ⟨(core s).defects, (core s).stored, otherFilling handle (core s), none, [], ?_, .inl rfl, h.stored, otherFilling_spec,
          (fun _ _ _ k => nomatch k), fun n => absurd (noFlight p k (by simp [hph])) n, .inl rfl⟩
        have hg : ((unfill handle s).smc.ops.filter fun op => match op with
                | .program h _ _ => h != handle
                | _ => true).filterMap programOf = [] := by
          rw [ho]
          refine List.eq_nil_iff_forall_not_mem.mpr fun y hy => ?_
          obtain ⟨op, hm, hy⟩ := List.mem_filterMap.mp hy
          obtain ⟨hm, hf⟩ := List.mem_filter.mp hm
          cases op with
          | program h' b' sec =>
            simp only [programOf, Option.some.injEq] at hy
            have hmem : (h', b') ∈ (core s).programs := List.mem_filterMap.mpr ⟨_, hm, rfl⟩
            have := h.programs h' b' hmem
            rw [e2] at this
            simp only [Option.some.injEq, Prod.mk.injEq] at this
            simp only [bne_iff_ne, ne_eq] at hf
            exact hf (by rw [← this.1, hh])
          | _ => simp [programOf] at hy
        have : core { unfill handle s with smc := { (unfill handle s).smc with
              programming := none
              ops := (unfill handle s).smc.ops.filter fun op => match op with
                | .program h _ _ => h != handle
                | _ => true } } = { core (unfill handle s) with programming := none, programs := [] } := by
          rw [← hg]
          rfl
        rw [this, hu]
        rfl
      · rename_i hph
        exact plain _ k fun q e => .inr (by rw [← Option.some.inj e]; exact hph)
      · rename_i hph
        have e2 : (core s).programming = some (p.handle, p.block, p.phase) := by simp [core, k]
        have own := h.programming p.handle p.block p.phase e2 (by simp [hph])
        have hb : p.block ∈ extentBlocks j.extents := by
          obtain ⟨x, hx, m⟩ := own.1
          rw [hh] at hx
          rw [hx.unique hj] at m
          exact m
        have hnf := noFlight p k (by simp [hph])
        refine ⟨retiredWith p.block (core s).defects, retiredWith p.block (core s).defects :: (core s).stored,
          otherFilling handle (core s), none, [], ?_, .inr ⟨hnf, p.block, hb, rfl⟩, fun d hd => ?_, otherFilling_spec,
          (fun _ _ _ k => nomatch k), fun n => absurd hnf n, .inl rfl⟩
        · rw [core_reviewTimer, core_retireBlock]
          have : core { unfill handle s with smc := { (unfill handle s).smc with programming := none } }
              = { core (unfill handle s) with programming := none } := rfl
          have hprog : (core s).programs = [] := by
            refine List.eq_nil_iff_forall_not_mem.mpr fun y hy => ?_
            have := h.programs y.1 y.2 hy
            rw [e2, hph] at this
            simp at this
          rw [this, hu, ← hprog]
          rfl
        · rcases List.mem_cons.mp hd with rfl | hd
          · have hn := h.allocated_not own.1.allocated
            exact h.defects.retiredWith (h.lt (Core.mem_blocks.mpr (.inr (.inl own.1.allocated)))) fun m => hn.1 ((h.clean _).mp m)
          · exact h.stored d hd
    · rename_i hh
      exact plain _ k fun q e => .inl (by rw [← Option.some.inj e]; exact hh)
  · rename_i k
    exact plain _ k fun q e => nomatch e

theorem core_handToScrub (j : Job) (s : State) :
    core (handToScrub j s) = { core s with list := (core s).list ++ ((extentBlocks j.extents).filter
      fun b => !((core s).defects.retired.contains b)).map (fun b => ({ block := b, origin := .job j.handle } : ScrubEntry)) } := rfl

@[simp] theorem core_noteClosed (handle : Nat) (s : State) : core (noteClosed handle s) = core s := by
  refine Core.ext rfl rfl (funext fun d => ?_) rfl rfl rfl rfl rfl rfl rfl rfl rfl rfl rfl
  cases d <;> rfl

/-- The close of a live job of a state whose images are closed as they are from a state of the invariant. -/
theorem ok_closeCore_of {c : Core} (h : CoreOk c) (outcome : JobOutcome) {handle : Nat} {s : State} {j : Job}
    (hj : jobOf s.jt handle = some j) (hl : isLive j = true) (hc : c.Has handle (holderOf j))
    (hi : ImagesClosed c handle j (core (closeImages handle (zeroize (slotOf handle) s))))
    (hg : Gone c handle (leftQueues j c.queue)) :
    CoreOk (core (closeCore outcome handle s)) := by
  obtain ⟨defects, stored, filling, programming, programs, e, hd, hs, hf, hp, hx, hr⟩ := hi
  simp only [closeCore, hj, hl, if_true, core_noteClosed, core_discardHeld, core_jobClosed]
  rw [core_moveJob, core_dropJobReads, core_leavePlace]
  generalize hu : closeImages handle (zeroize (slotOf handle) s) = u at e
  have key := h.handed hc hl outcome (q := leftQueues j c.queue) hg.nodup hg.waiting hg.active hd hs hf hp hx hr
  rw [core_handToScrub, e]
  exact key

theorem ok_closeCore {s : State} (h : CoreOk (core s)) (outcome : JobOutcome) (handle : Nat) :
    CoreOk (core (closeCore outcome handle s)) := by
  cases hj : jobOf s.jt handle with
  | none =>
    simp only [closeCore, hj]
    exact h
  | some j =>
    by_cases hl : isLive j = true
    · have hh := handle_of_jobOf h.toHoldersOk hj
      have hc := has_of_jobOf h.toHoldersOk hj
      have hg := gone_leavePlace h (has_self h.toHoldersOk hj)
      rw [hh] at hg
      exact ok_closeCore_of h outcome hj hl hc (imagesClosed (s := zeroize (slotOf handle) s) h hc) hg
    · simp only [closeCore, hj, hl]
      exact h

theorem keeps_closeCore (outcome : JobOutcome) (handle : Nat) : KeepsAll (closeCore outcome handle) :=
  fun _ h => ok_closeCore h outcome handle

/-! ### Freeing -/

theorem core_freeJob (i : Fin 64) (slot : JobSlot) (hs : slot.job = none) (s : State) :
    core { s with jt := { s.jt with slots := s.jt.slots.set i slot } }
      = { core s with gen := Function.update (core s).gen i slot.generation, job := Function.update (core s).job i none } := by
  refine Core.ext (funext fun k => ?_) (funext fun k => ?_) rfl rfl rfl rfl rfl rfl rfl rfl rfl rfl rfl rfl
  · show ((s.jt.slots.set i slot).get k).generation = Function.update (core s).gen i slot.generation k
    by_cases n : k = i
    · rw [n, get_set_self, Function.update_self]
    · rw [get_set_ne _ _ n, Function.update_of_ne n]
      rfl
  · show ((s.jt.slots.set i slot).get k).job.map holderOf = Function.update (core s).job i none k
    by_cases n : k = i
    · rw [n, get_set_self, Function.update_self, hs]
      rfl
    · rw [get_set_ne _ _ n, Function.update_of_ne n]
      rfl

theorem keeps_reportScrubbed (handle : Nat) : KeepsAll (reportScrubbed handle) := by
  intro s h
  unfold reportScrubbed
  split
  · rename_i hc
    simp only [Bool.and_eq_true, Bool.not_eq_true'] at hc
    unfold freeSlot
    split
    · rename_i j hj
      split
      · rename_i outcome hs
        rw [core_emit, core_freeJob _ _ rfl]
        refine h.freed (has_of_jobOf h.toHoldersOk hj) (by simp [Holder.live, holderOf, hs]) fun e he ho => ?_
        have := hc.2
        simp only [jobOnScrub, List.any_eq_false, beq_iff_eq] at this
        exact this e he ho
      · exact h
    · exact h
  · exact h

/-! ### Halts -/

theorem core_changeInFlight {s : State} (h : CoreOk (core s)) (handle n : Nat) :
    core (changeJob handle (fun j => { j with inFlight := n }) s) = core s :=
  core_changeJob_same h.toHoldersOk handle fun _ => rfl

theorem keeps_closeByHalt (handle : Nat) : KeepsAll fun s => closeByHalt s handle := by
  intro s h
  have e := core_changeInFlight h handle 0
  exact ok_closeCore (e.symm ▸ h) _ _

@[simp] theorem core_releaseSheets (sheets : List Sheet) (s : State) : core (releaseSheets sheets s) = core s :=
  core_foldl (f := fun s (sh : Sheet) => updateAccount sh.owner (release sh.cost) s) (fun s sh => core_updateAccount _ _ s) sheets s

@[simp] theorem core_withPath (s : State) (p : SheetPath) : core { s with spm := p } = core s := rfl

@[simp] theorem core_releaseAll (s : State) : core (releaseAll s) = core s := by
  unfold releaseAll
  rw [core_discardStaging, core_releaseSheets]
  rfl

@[simp] theorem core_endSanitize (halted : Bool) (s : State) : core (endSanitize halted s) = core s := by
  unfold endSanitize
  split <;> rfl

@[simp] theorem core_reportStartUp (halted : Bool) (ended : Option StartUp) (s : State) :
    core (reportStartUp halted ended s) = core s := by
  unfold reportStartUp
  split <;> rfl

/-- The in-flight counts are no part of what the blocks depend on. -/
theorem core_noneInFlight (s : State) (engine exporter : Queue) (phase : ExportPhase) (held : Option HeldBand) (timer : Option Nat) :
    core { s with jt := { noneInFlight s.jt with
      engine := engine, exporter := exporter, exportPhase := phase, held := held, stallTimer := timer } }
      = core { s with jt := { s.jt with
          engine := engine, exporter := exporter, exportPhase := phase, held := held, stallTimer := timer } } := by
  have slot (i : Fin 64) : (noneInFlight s.jt).slots.get i = { s.jt.slots.get i with
      job := (s.jt.slots.get i).job.map fun j => { j with inFlight := 0 } } := by
    simp [noneInFlight, Vector.get_eq_getElem]
  refine Core.ext (funext fun i => ?_) (funext fun i => ?_) (funext fun d => ?_) rfl rfl rfl rfl rfl rfl rfl rfl rfl rfl rfl
  · exact (congrArg JobSlot.generation (slot i)).trans rfl
  · refine (congrArg (fun x : JobSlot => x.job.map holderOf) (slot i)).trans ?_
    exact Option.map_map ..
  · cases d <;> rfl

theorem core_stopSpool (s : State) :
    core (stopSpool s) = { core s with work := none, filling := none, programming := none, programs := [] } := by
  have e := congrArg Core.flight (core_dropReads .exporter s s.jt s.spm)
  refine Core.ext rfl rfl rfl rfl rfl rfl rfl rfl rfl rfl ?_ rfl rfl rfl
  exact e

@[simp] theorem core_tellFinal (jobs : List Job) (s : State) : core (tellFinal jobs s) = core s :=
  core_foldl (f := fun s (j : Job) => askJobState j s) (fun s j => core_askJobState j s) jobs s

theorem keeps_haltPart (cause : HaltCause) : KeepsAll (haltPart cause) := by
  intro s h
  simp only [haltPart]
  split
  · exact h
  · rw [core_askPart, core_setHaltRecord, core_reportStartUp, core_endSanitize, core_stopSpool, core_clearBus, core_releaseAll]
    let s0 : State := evaluatePermit { s with
      startUp := none
      fm := { s.fm with part := .halted, nextNumber := takeNumber s.fm % 65535 + 1 }
      bc := { s.bc with keys := Vector.replicate 64 none, serving := false } }
    have h0 : CoreOk (core s0) := h.halted
    let closed := (((allJobs s.jt).filter isLive).map (·.handle)).foldl closeByHalt s0
    let s1 := tellFinal (cutShort s.jt) closed
    have h1 : CoreOk (core s1) := (core_tellFinal _ closed) ▸ KeepsAll.foldl (fun a => keeps_closeByHalt a) _ s0 h0
    have p1 : s1.fm.part = .halted :=
      ((Chains.foldl (fun a => reach_closeByHalt a) (((allJobs s.jt).filter isLive).map (·.handle)) s0).trans
        (reach_tellFinal _ closed)).halted_stays rfl
    have h2 : CoreOk { core s1 with queue := fun _ => {} } :=
      h1.fewer _ (fun _ => List.nodup_nil) (fun _ _ k => nomatch k) fun _ _ k => nomatch k
    have e : core { s1 with jt := { noneInFlight s1.jt with
        engine := {}, exporter := {}, exportPhase := .idle, held := none, stallTimer := none } }
        = { core s1 with queue := fun _ => {} } := by
      rw [core_noneInFlight]
      refine Core.ext rfl rfl (funext fun d => ?_) rfl rfl rfl rfl rfl rfl rfl rfl rfl rfl rfl
      cases d <;> rfl
    have h3 := h2.stopped p1
    rw [← e] at h3
    exact h3

theorem keeps_closeJob (outcome : JobOutcome) (handle : Nat) : KeepsAll (closeJob outcome handle) := by
  intro s
  simp only [closeJob]
  split
  · split
    · exact Keeps.branch ((keeps_closeCore _ _ s).trans (keeps_haltPart _ _))
        ((keeps_closeCore _ _ s).trans (keeps_reportScrubbed _ _))
    · exact Keeps.rfl' s
  · exact Keeps.rfl' s

theorem keeps_raiseJobFault (f : JobFault) : KeepsAll (raiseJobFault f) :=
  fun s h => (core_raiseJobFault h.toHoldersOk f) ▸ h

theorem keeps_abortJob (code : JobFaultCode) (reason : AbortReason) (handle page block : Nat) :
    KeepsAll (abortJob code reason handle page block) :=
  fun s => (keeps_raiseJobFault _ s).trans (keeps_closeJob _ _ _)

/-! ### Jams -/

theorem keeps_jamJob (acc : Nat × State) (listed : Nat × Nat) : Keeps acc.2 (jamJob acc listed).2 := by
  obtain ⟨rank, s⟩ := acc
  obtain ⟨handle, index⟩ := listed
  intro h
  simp only [jamJob]
  split
  · exact h
  · rename_i j hj
    have same : ∀ j', holderOf j' = holderOf j → CoreOk (core (setJob j' s)) := fun j' e => by
      rw [core_setJob_same h.toHoldersOk hj e]
      exact h
    split
    · exact same _ rfl
    · exact keeps_closeJob _ _ _ (same _ rfl)
    · exact same _ rfl
    · rename_i h1 _ _
      refine ok_stallJob h _ (has_self h.toHoldersOk hj) ?_ rfl
      cases e : j.state <;> simp [isLive, e]
      exact h1 _ e

theorem keeps_jamJobs (l : List (Nat × Nat)) (acc : Nat × State) : Keeps acc.2 (l.foldl jamJob acc).2 := by
  induction l generalizing acc with
  | nil => exact Keeps.rfl' _
  | cons x rest ih => exact (keeps_jamJob acc x).trans (ih _)

theorem keeps_declareJam (cause : JamCause) : KeepsAll (declareJam cause) := by
  intro s
  simp only [declareJam]
  refine Keeps.trans (t := discardStaging (releaseSheets s.spm.sheets (evaluatePermit { s with spm := { s.spm with
      jammed := true
      jam := some { cause := cause, instant := nowMs s, removed := s.spm.sheets.length, handles := (jamList s.spm.sheets).map (·.1) }
      sheets := [] } }))) (Keeps.of_core (by simp)) ?_
  exact (Keeps.of_core (core_askPart _)).via <| (keeps_jamJobs _ (1, _)).via <|
    KeepsAll.foldl (f := fun s owner => creditRose owner s) (fun o => keeps_creditRose o) _ _

end Sys2Proof.Machine
end

