-- ==== Sys2Proof/Laws/BlocksIntake.lean ====
section
/-! SUPPORT. Intake and the moving of images keep the blocks' invariant. -/

namespace Sys2Proof.Machine

/-! ### Extent lists -/

theorem extentBlocks_append (a b : List Extent) : extentBlocks (a ++ b) = extentBlocks a ++ extentBlocks b :=
  List.flatMap_append

theorem extentBlocks_one (first count : Nat) :
    extentBlocks [{ first := first, count := count }] = (List.range count).map (first + ·) := by
  simp [extentBlocks]

/-- R24: the block joins the extent list at its end. -/
theorem extentBlocks_grow (block : Nat) (extents : List Extent) :
    extentBlocks (growExtents block extents) = extentBlocks extents ++ [block] := by
  unfold growExtents
  have one : extentBlocks [{ first := block, count := 1 }] = [block] := by simp [extentBlocks_one]
  split
  · rename_i e he
    obtain ⟨l, rfl⟩ := List.getLast?_eq_some_iff.mp he
    split
    · rename_i hb
      rw [List.dropLast_concat, extentBlocks_append, extentBlocks_append, List.append_assoc]
      congr 1
      rw [show ({ e with count := e.count + 1 } : Extent) = { first := e.first, count := e.count + 1 } from rfl, extentBlocks_one,
        show e = { first := e.first, count := e.count } from rfl, extentBlocks_one, List.range_succ, List.map_append]
      simp [hb]
    · rw [extentBlocks_append, one]
  · rename_i he
    rw [List.getLast?_eq_none_iff.mp he]
    exact one

theorem range_split (first count old : Nat) (h1 : first ≤ old) (h2 : old < first + count) :
    (List.range count).map (first + ·) = (List.range (old - first)).map (first + ·)
      ++ old :: (List.range (first + count - (old + 1))).map (old + 1 + ·) := by
  have e : count = (old - first) + (1 + (first + count - (old + 1))) := by omega
  conv_lhs => rw [e, List.range_add, List.map_append, List.map_map, List.range_add, List.map_append, List.map_map]
  congr 1
  have e2 : first + (old - first) = old := by omega
  simp only [List.range_one, List.map_cons, List.map_nil, Function.comp, Nat.add_zero, e2, List.cons_append, List.nil_append]
  congr 1
  refine List.map_congr_left fun x _ => ?_
  simp only [Function.comp]
  omega

/-- R118: the fresh block stands in the place of the old one. -/
theorem extentBlocks_cut (old new : Nat) {extents : List Extent} (h : old ∈ extentBlocks extents) :
    (old :: extentBlocks (cutExtents old new extents)).Perm (new :: extentBlocks extents) := by
  induction extents with
  | nil => cases h
  | cons e rest ih =>
    simp only [cutExtents]
    have cons : extentBlocks (e :: rest) = (List.range e.count).map (e.first + ·) ++ extentBlocks rest := rfl
    split
    · rename_i he
      have pre : extentBlocks (if old = e.first then [] else [{ first := e.first, count := old - e.first }])
          = (List.range (old - e.first)).map (e.first + ·) := by
        split
        · rename_i k
          simp [k, extentBlocks]
        · exact extentBlocks_one _ _
      have post : extentBlocks (if old + 1 = e.first + e.count then []
          else [{ first := old + 1, count := e.first + e.count - (old + 1) }])
          = (List.range (e.first + e.count - (old + 1))).map (old + 1 + ·) := by
        split
        · rename_i k
          simp [← k, extentBlocks]
        · exact extentBlocks_one _ _
      rw [cons, range_split e.first e.count old he.1 he.2, extentBlocks_append, extentBlocks_append, pre,
        show extentBlocks ({ first := new, count := 1 } :: (if old + 1 = e.first + e.count then []
          else [{ first := old + 1, count := e.first + e.count - (old + 1) }]))
          = [new] ++ extentBlocks (if old + 1 = e.first + e.count then []
          else [{ first := old + 1, count := e.first + e.count - (old + 1) }]) by simp [extentBlocks], post]
      simp only [List.append_assoc, List.cons_append, List.nil_append]
      exact (List.perm_middle.cons old).trans ((List.Perm.swap _ _ _).trans (List.perm_middle.symm.cons new))
    · rename_i he
      have hr : old ∈ extentBlocks rest := by
        rw [cons, List.mem_append] at h
        refine h.resolve_left fun m => he ?_
        obtain ⟨x, hx, rfl⟩ := List.mem_map.mp m
        have := List.mem_range.mp hx
        omega
      rw [cons, show extentBlocks (e :: cutExtents old new rest)
        = (List.range e.count).map (e.first + ·) ++ extentBlocks (cutExtents old new rest) from rfl]
      exact List.perm_middle.symm.trans (((ih hr).append_left _).trans List.perm_middle)

/-! ### Images -/

/-- The blocks' part after the filling image has ceased to be current. -/
def ceased (c : Core) : Core :=
  match c.filling, c.programming with
  | some (g, b), none => { c with filling := none, programming := some (g, b, .waiting), programs := c.programs ++ [(g, b)] }
  | _, _ => c

theorem core_ceaseFilling (s : State) : core (ceaseFilling s) = ceased (core s) := by
  unfold ceaseFilling handOn ceased
  cases hf : s.smc.filling with
  | none =>
    have : (core s).filling = none := by simp [core, hf]
    simp only [this]
    simp [core, hf]
  | some f =>
    have e1 : (core s).filling = some (f.handle, f.block) := by simp [core, hf]
    cases hp : s.smc.programming with
    | none =>
      have e2 : (core s).programming = none := by simp [core, hp]
      simp only [hp, e1, e2, Option.map_some, if_true, Option.getD_some, core_enterProgram]
      rfl
    | some p =>
      have e2 : (core s).programming = some (p.handle, p.block, p.phase) := by simp [core, hp]
      simp only [e1, e2]
      simp [core, hf, hp]

theorem CoreOk.ceased {c : Core} (h : CoreOk c) (hq : c.part ≠ .halted) : CoreOk (ceased c) := by
  unfold Machine.ceased
  split
  · rename_i hf hp
    exact h.movedOn hf hp hq
  · exact h

theorem ceased_job (c : Core) : (ceased c).job = c.job ∧ (ceased c).part = c.part ∧ (ceased c).free = c.free := by
  unfold ceased
  split <;> exact ⟨rfl, rfl, rfl⟩

theorem ok_handOn {s t : State} (h : CoreOk (core s)) (hq : (core s).part ≠ .halted) (e : handOn s = some t) : CoreOk (core t) := by
  unfold handOn at e
  split at e
  · rename_i f hf hp
    split at e
    · obtain rfl := Option.some.inj e
      rw [core_enterProgram]
      exact h.movedOn (g := f.handle) (b := f.block) (by simp [core, hf]) (by simp [core, hp]) hq
    · cases e
  · cases e

theorem takeFree_spec {s t : State} {b : Nat} (e : takeFree s = some (b, t)) :
    ∃ rest, s.smc.free = b :: rest ∧ t.smc.filling = s.smc.filling ∧ t.smc.programming = s.smc.programming ∧ t.jt = s.jt
      ∧ ∀ smc' : SpoolMedia, smc'.defects = t.smc.defects → smc'.free = t.smc.free → smc'.ops = t.smc.ops
          → smc'.inFlight = t.smc.inFlight → smc'.programming = t.smc.programming →
          core { t with smc := smc' } = (core s).taken b rest (smc'.filling.map fun f => (f.handle, f.block)) := by
  unfold takeFree at e
  split at e
  · cases e
  · rename_i b' rest hf
    simp only [Option.some.injEq, Prod.mk.injEq] at e
    obtain ⟨rfl, rfl⟩ := e
    refine ⟨rest, hf, rfl, rfl, rfl, fun smc' h1 h2 h3 h4 h5 => ?_⟩
    have hs := storedDefects_write { s.smc.defects with clean := s.smc.defects.clean.erase b' } s.ps
    have h1' : smc'.defects = uncleaned b' s.smc.defects := h1
    have h2' : smc'.free = rest := h2
    have h3' : smc'.ops = s.smc.ops := h3
    have h4' : smc'.inFlight = s.smc.inFlight := h4
    have h5' : smc'.programming = s.smc.programming := h5
    refine Core.ext rfl rfl rfl h2' h1' rfl rfl rfl ?_ ?_ ?_ hs rfl rfl
    · simp only [core, h5']
      rfl
    · simp only [core, h3']
      rfl
    · simp only [core, h4']
      rfl

/-- R118: an image that waits for a block moves to a fresh one. -/
theorem ok_moveImage {s t : State} (h : CoreOk (core s)) (e : moveImage s = some t) : CoreOk (core t) := by
  simp only [moveImage] at e
  split at e
  · cases e
  · rename_i p hp
    split at e
    · rename_i hph
      split at e
      · rename_i j fresh t' hj hf
        split at e
        · obtain rfl := Option.some.inj e
          obtain ⟨rest, hfree, hfil, hpr, hjt, hc⟩ := takeFree_spec hf
          have hh := handle_of_jobOf h.toHoldersOk hj
          have has := has_of_jobOf h.toHoldersOk hj
          have hpc : (core s).programming = some (p.handle, p.block, .needsBlock) := by simp [core, hp, hph]
          have own := (h.programming _ _ _ hpc (by simp)).1
          have hmem : p.block ∈ extentBlocks j.extents := by
            obtain ⟨k, hk, m⟩ := own
            rw [hk.unique has] at m
            exact m
          have key := h.imageMoved hpc has (show (core s).free = fresh :: rest from hfree) _ (extentBlocks_cut p.block fresh hmem)
          rw [core_reviewTimer, core_enterProgram, core_retireBlock, core_setJob]
          have e1 : core { t' with smc := { renameBandMap p.block fresh t'.smc with
                programming := some { p with block := fresh, second := true, phase := .waiting } } }
              = { (core s).taken fresh rest (core s).filling with programming := some (p.handle, fresh, .waiting) } := by
            have := hc { renameBandMap p.block fresh t'.smc with programming := t'.smc.programming } rfl rfl rfl rfl rfl
            have hfil' : (renameBandMap p.block fresh t'.smc).filling = s.smc.filling := hfil
            rw [show ({ renameBandMap p.block fresh t'.smc with programming := t'.smc.programming } : SpoolMedia).filling = s.smc.filling from hfil] at this
            rw [show (core s).filling = s.smc.filling.map fun f => (f.handle, f.block) from rfl, ← this]
            rfl
          rw [e1]
          exact key
        · cases e
      · cases e
    · cases e

/-! ### Bands -/

/-- The part is RUNNING and the job a handle names is in INTAKE. -/
structure InIntake (s : State) (handle : Nat) : Prop where
  ok : CoreOk (core s)
  running : (core s).part = .running
  job : ∃ k, (core s).Has handle k ∧ k.state = .intake

theorem InIntake.of_core {s t : State} {handle : Nat} (h : InIntake s handle) (e : core t = core s) : InIntake t handle := by
  obtain ⟨a, b, c⟩ := h
  exact ⟨e ▸ a, e ▸ b, e ▸ c⟩

theorem InIntake.unhalted {s : State} {handle : Nat} (h : InIntake s handle) : (core s).part ≠ .halted := by
  rw [h.running]
  exact fun k => nomatch k

theorem InIntake.cease {s : State} {handle : Nat} (h : InIntake s handle) : InIntake (ceaseFilling s) handle := by
  have e := core_ceaseFilling s
  refine ⟨e ▸ h.ok.ceased h.unhalted, by rw [e, (ceased_job _).2.1]; exact h.running, ?_⟩
  obtain ⟨k, hk, hs⟩ := h.job
  exact ⟨k, by rw [e, Core.Has, (ceased_job _).1]; exact hk, hs⟩

/-- The job record is replaced by one of the same holder. -/
theorem InIntake.setJob {s : State} {handle : Nat} (h : InIntake s handle) {j j' : Job} (hj : (core s).Has handle (holderOf j))
    (e : holderOf j' = holderOf j) : InIntake (setJob j' s) handle := by
  obtain ⟨j0, hj0, e0⟩ := jobOf_of_has h.ok.toHoldersOk hj
  exact h.of_core (core_setJob_same h.ok.toHoldersOk hj0 (e.trans e0.symm))

theorem holder_openPage (b : Band) (block offset : Nat) (j : Job) : holderOf (openPage b block offset j) = holderOf j := by
  unfold openPage
  split <;> rfl

theorem intake_yieldFilling {s : State} {handle : Nat} (h : InIntake s handle) : InIntake (yieldFilling handle s) handle := by
  unfold yieldFilling
  split
  · split
    · exact h.cease
    · exact h
  · exact h

theorem handOn_jt {s t : State} (e : handOn s = some t) : t.jt = s.jt := by
  unfold handOn at e
  split at e
  · split at e
    · obtain rfl := Option.some.inj e
      rfl
    · cases e
  · cases e

theorem ceaseFilling_jt (s : State) : (ceaseFilling s).jt = s.jt := by
  have key : ∀ t : State, ((handOn t).getD t).jt = t.jt := fun t => by
    cases e : handOn t with
    | none => rfl
    | some u => exact handOn_jt e
  exact key _

theorem yieldFilling_jt (handle : Nat) (s : State) : (yieldFilling handle s).jt = s.jt := by
  unfold yieldFilling
  split
  · split
    · exact ceaseFilling_jt s
    · rfl
  · rfl

theorem intake_layInCurrent {s : State} (b : Band) (stored : List Byte) {f : FillingImage} {j : Job} (h : InIntake s b.handle)
    (hf : s.smc.filling = some f) (hj : (core s).Has b.handle (holderOf j)) : InIntake (layInCurrent b stored f j s) b.handle := by
  simp only [layInCurrent]
  have h1 : InIntake { s with smc := { addBandEntry f.block (bandEntry b f.filled) s.smc with
      filling := some { f with filled := f.filled + (b.length + 16), data := f.data ++ stored } } } b.handle := by
    refine h.of_core ?_
    simp only [core, hf]
    rfl
  have h2 := h1.setJob (j := j) hj (holder_openPage b f.block f.filled j)
  split
  · exact h2.cease
  · exact h2

theorem ceased_taken (c : Core) (b : Nat) (rest : List Nat) (f : Option (Nat × Nat)) :
    { ceased (c.taken b rest c.filling) with filling := f } = (ceased c).taken b rest f := by
  unfold ceased
  cases h1 : c.filling with
  | none => simp [Core.taken]
  | some x =>
    cases h2 : c.programming with
    | none => simp [Core.taken, h2]
    | some y => simp [Core.taken, h2]

theorem intake_grown {s : State} {handle : Nat} {c : Core} (hc : CoreOk c) (hr : c.part = .running) {j j' : Job}
    (hj : c.Has handle (holderOf j)) (hs : j.state = .intake) {b : Nat} {rest : List Nat} (hf : c.free = b :: rest)
    (e' : holderOf j' = { holderOf j with extents := growExtents b j.extents })
    (e : core s = (c.taken b rest (some (handle, b))).put (holderOf j')) : InIntake s handle := by
  rw [e'] at e
  have key := hc.grown hj (by simp [Holder.live, holderOf, hs]) hf (growExtents b j.extents) (by
    show (extentBlocks (growExtents b j.extents)).Perm (b :: extentBlocks j.extents)
    rw [extentBlocks_grow]
    exact List.perm_append_singleton b _)
  refine ⟨e ▸ key, by rw [e]; exact hr, ⟨{ holderOf j with extents := growExtents b j.extents }, ?_, hs⟩⟩
  rw [e]
  exact (Core.has_replaced (c := c.taken b rest (some (handle, b)))
    (j' := { holderOf j with extents := growExtents b j.extents }) hj hj.2).mpr (.inl ⟨rfl, rfl⟩)

theorem intake_layInNew {s : State} (b : Band) (stored : List Byte) {current : Option FillingImage} {j : Job}
    (h : InIntake s b.handle) (hc : current = none ∨ current = s.smc.filling) (hj : (core s).Has b.handle (holderOf j))
    (hs : j.state = .intake) : InIntake (layInNew b stored current j s) b.handle := by
  simp only [layInNew]
  split
  · exact h
  · rename_i fresh t ht
    obtain ⟨rest, hfree, hfil, hpr, hjt, hcore⟩ := takeFree_spec ht
    split
    · rename_i f
      have hf : s.smc.filling = some f := (hc.resolve_left (by simp)).symm
      refine intake_grown (h.ok.ceased h.unhalted) (by rw [(ceased_job _).2.1]; exact h.running)
        (by rw [Core.Has, (ceased_job _).1]; exact hj) hs (rest := rest) (by rw [(ceased_job _).2.2]; exact hfree)
        (j' := openPage b f.block f.filled { j with extents := growExtents fresh j.extents }) (holder_openPage ..) ?_
      rw [core_setJob]
      congr 1
      rw [← ceased_taken]
      have e1 := hcore { addBandEntry f.block (bandEntry b f.filled) t.smc with
        filling := some { f with filled := Config.blockBytes, data := f.data ++ stored.take (Config.blockBytes - f.filled) } }
        rfl rfl rfl rfl rfl
      have e2 : (core s).filling = some (f.handle, f.block) := by simp [core, hf]
      rw [e2]
      simp only [Option.map_some] at e1
      rw [← e1, ← core_ceaseFilling]
      rfl
    · refine intake_grown h.ok h.running hj hs (rest := rest) hfree
        (j' := openPage b fresh 0 { j with extents := growExtents fresh j.extents }) (holder_openPage ..) ?_
      rw [core_setJob]
      congr 1
      exact hcore { addBandEntry fresh (bandEntry b 0) t.smc with
        filling := some { handle := b.handle, block := fresh, filled := b.length + 16, data := stored } } rfl rfl rfl rfl rfl

theorem intake_storeBand {s : State} (b : Band) (key : LiveKey) {j : Job} (h : InIntake s b.handle)
    (hj : jobOf s.jt b.handle = some j) (hs : j.state = .intake) : InIntake (storeBand b key j s).state b.handle := by
  have h1 := intake_yieldFilling h
  have hj1 : (core (yieldFilling b.handle s)).Has b.handle (holderOf j) :=
    has_of_jobOf h1.ok.toHoldersOk (by rw [yieldFilling_jt]; exact hj)
  simp only [storeBand]
  generalize yieldFilling b.handle s = u at h1 hj1
  have hcur : currentImage u b.handle = none ∨ currentImage u b.handle = u.smc.filling := by
    unfold currentImage
    cases u.smc.filling with
    | none => exact .inl rfl
    | some f =>
      by_cases k : (f.handle = b.handle && !f.handedOn) = true
      · exact .inr (by simp [Option.filter, k])
      · exact .inl (by simp [Option.filter, k])
  split
  · rename_i f hf
    split
    · refine intake_layInCurrent b _ h1 ?_ hj1
      rcases hcur with k | k
      · rw [hf] at k
        cases k
      · rw [← k, hf]
    · split
      · exact h1
      · split
        · exact h1
        · exact intake_layInNew b _ h1 hcur hj1 hs
  · split
    · exact h1
    · split
      · exact h1
      · exact intake_layInNew b _ h1 (.inl rfl) hj1 hs

theorem holder_changeLastPage (f : PageEntry → PageEntry) (j : Job) : holderOf (changeLastPage f j) = holderOf j := by
  unfold changeLastPage
  split <;> rfl

theorem core_takeScanCharge {s : State} (h : HoldersOk (core s)) (j : Job) (page : Nat) : core (takeScanCharge j page s) = core s := by
  simp only [takeScanCharge]
  split
  · rfl
  · rename_i a _
    have e : ∀ n : Nat, core (changeJob j.handle (fun j => { j with charged := satAdd j.charged n Config.counterMax })
        (updateAccount j.owner (scanCharge s.settings.price.scanRate (scanTaken s.settings.price.scanRate (available a))) s)) = core s := by
      intro n
      have k := core_updateAccount j.owner (scanCharge s.settings.price.scanRate (scanTaken s.settings.price.scanRate (available a))) s
      exact (core_changeJob_same (by rw [k]; exact h) j.handle
        (f := fun j => { j with charged := satAdd j.charged n Config.counterMax }) fun _ => rfl).trans k
    split
    · rw [core_raiseNote]
      exact e _
    · exact e _

theorem intake_closePage {s : State} (b : Band) {j : Job} (h : InIntake s b.handle) (hj : (core s).Has b.handle (holderOf j)) :
    InIntake (closePage b j s) b.handle := by
  simp only [closePage]
  have eJ := holder_changeLastPage (fun p =>
    { p with coverage := storedCoverage (classifyPage s.settings.meter.colourThreshold (headerCoverage b)) (headerCoverage b),
             cls := some (classifyPage s.settings.meter.colourThreshold (headerCoverage b)) }) j
  generalize changeLastPage (fun p =>
    { p with coverage := storedCoverage (classifyPage s.settings.meter.colourThreshold (headerCoverage b)) (headerCoverage b),
             cls := some (classifyPage s.settings.meter.colourThreshold (headerCoverage b)) }) j = k at eJ ⊢
  have h1 := h.setJob (j := j) hj eJ
  have h2 : InIntake (match k.kind with
      | .copy => takeScanCharge k b.page (setJob k s)
      | .scanOut => takeScanCharge k b.page (setJob k s)
      | .print => setJob k s) b.handle := by
    split
    · exact h1.of_core (core_takeScanCharge h1.ok.toHoldersOk _ _)
    · exact h1.of_core (core_takeScanCharge h1.ok.toHoldersOk _ _)
    · exact h1
  have h3 := h2.of_core (core_emit (.pageStored b.handle b.page) _)
  exact h3.of_core (core_changeJob_same h3.ok.toHoldersOk b.handle
    (f := fun j => { j with expected := some (b.page + 1, 1) }) fun _ => rfl)

theorem ok_endIntake {s : State} {handle : Nat} (h : InIntake s handle) : CoreOk (core (endIntake handle s)) := by
  simp only [endIntake]
  have h1 : InIntake (if (currentImage s handle).isSome then ceaseFilling s else s) handle := by
    split
    · exact h.cease
    · exact h
  generalize (if (currentImage s handle).isSome then ceaseFilling s else s) = u at h1
  have h2 : InIntake (changeJob handle (fun j => { j with expected := none }) u) handle :=
    h1.of_core (core_changeJob_same h1.ok.toHoldersOk handle (f := fun j => { j with expected := none }) fun _ => rfl)
  generalize changeJob handle (fun j => { j with expected := none }) u = v at h2
  split
  · exact h2.ok
  · rename_i j hj
    have hs : j.state = .intake := by
      obtain ⟨k, hk, e⟩ := h2.job
      rw [hk.unique (has_of_jobOf h2.ok.toHoldersOk hj)] at e
      exact e
    have has := has_self h2.ok.toHoldersOk hj
    have hl : isLive j = true := by simp [isLive, hs]
    have stays := leavePlace_stays (j := j) (by simp [hs]) (by simp [hs]) v
    split
    · exact ok_moveLeft h2.ok has hl (st := .held (nowSeconds v + v.settings.limits.holdLimit * 60)) rfl rfl (by rw [stays])
    · split
      · exact keeps_closeJob _ _ _ h2.ok
      · have := ok_queueTail h2.ok has hl rfl
        rwa [stays] at this

theorem ok_finishBand {s : State} {b : Band} (h : InIntake s b.handle) : CoreOk (core (finishBand b s)) := by
  simp only [finishBand]
  split
  · exact h.ok
  · rename_i j hj
    have has := has_of_jobOf h.ok.toHoldersOk hj
    have e : ∀ x, holderOf { changeLastPage (fun p => { p with bands := p.bands + 1, bytes := p.bytes + b.length }) j with expected := x }
        = holderOf j := fun x => holder_changeLastPage (fun p => { p with bands := p.bands + 1, bytes := p.bytes + b.length }) j
    split
    · have h1 := intake_closePage b h (j := { changeLastPage (fun p => { p with bands := p.bands + 1, bytes := p.bytes + b.length }) j
        with expected := some (b.page, b.index + 1) }) (by rw [e]; exact has)
      split
      · exact ok_endIntake h1
      · exact h1.ok
    · exact (h.setJob has (e _)).ok

theorem core_withJt (s : State) (jt : JobTable) (h1 : jt.slots = s.jt.slots) (h2 : jt.engine = s.jt.engine)
    (h3 : jt.exporter = s.jt.exporter) : core { s with jt := jt } = core s := by
  refine Core.ext (by simp [core, h1]) (by simp [core, h1]) (funext fun d => ?_) rfl rfl rfl rfl rfl rfl rfl rfl rfl rfl rfl
  cases d
  · exact h2
  · exact h3

theorem core_holdBand (b : Band) (reason : HoldReason) (s : State) : core (holdBand b reason s) = core s := by
  simp only [holdBand]
  split
  · exact core_withJt s _ rfl rfl rfl
  · rw [core_reviewTimer]
    exact core_withJt s _ rfl rfl rfl

theorem ok_takeBand {s : State} (h : CoreOk (core s)) (hr : (core s).part = .running) (b : Band) :
    CoreOk (core (takeBand b s)) := by
  simp only [takeBand]
  split
  · exact h
  · rename_i j hj
    split
    · exact h
    · rename_i hs
      have hs : j.state = .intake := not_not.mp hs
      have hi : InIntake s b.handle := ⟨h, hr, holderOf j, has_of_jobOf h.toHoldersOk hj, hs⟩
      split
      · exact keeps_abortJob _ _ _ _ _ _ h
      · split
        · exact keeps_abortJob _ _ _ _ _ _ h
        · split
          · exact h
          · rename_i key _
            have k := intake_storeBand b key hi hj hs
            split
            · rename_i t ht
              rw [ht] at k
              exact ok_finishBand k
            · rename_i reason t ht
              rw [ht] at k
              rw [core_holdBand]
              exact k.ok

theorem ok_takeWaiting {s t : State} (h : CoreOk (core s)) (e : takeWaiting s = some t) : CoreOk (core t) := by
  unfold takeWaiting at e
  split at e
  · rename_i b rest hw
    split at e
    · rename_i hl
      obtain rfl := Option.some.inj e
      have k : core { s with jt := { s.jt with waiting := rest } } = core s := core_withJt s _ rfl rfl rfl
      refine ok_takeBand (by rw [k]; exact h) ?_ b
      rw [k]
      simp only [linkOpen, Bool.and_eq_true, decide_eq_true_eq] at hl
      exact hl.1.1.1.1
    · cases e
  · cases e

theorem ok_retryHeld {s t : State} (h : CoreOk (core s)) (hr : (core s).part = .running) (e : retryHeld s = some t) :
    CoreOk (core t) := by
  unfold retryHeld at e
  split at e
  · cases e
  · rename_i hb _
    split at e
    · rename_i j key hj _
      split at e
      · cases e
      · rename_i hs
        have hs : j.state = .intake := not_not.mp hs
        have k : core { s with jt := { s.jt with held := none } } = core s := core_withJt s _ rfl rfl rfl
        have hi : InIntake { s with jt := { s.jt with held := none } } hb.band.handle :=
          InIntake.of_core ⟨h, hr, holderOf j, has_of_jobOf h.toHoldersOk hj, hs⟩ k
        have st := intake_storeBand hb.band key hi hj hs
        split at e
        · rename_i u hu
          obtain rfl := Option.some.inj e
          rw [hu] at st
          exact ok_finishBand (InIntake.of_core st (core_reviewTimer u))
        · rename_i reason u hu
          split at e
          · cases e
          · obtain rfl := Option.some.inj e
            rw [hu] at st
            rw [core_holdBand]
            exact st.ok
    · cases e

end Sys2Proof.Machine
end

