-- ==== Sys2Proof/Laws/BlocksSettle.lean ====
section
/-! SUPPORT. Everything the part starts by itself within an event keeps the blocks' invariant. -/

namespace Sys2Proof.Machine

/-! ### Reads and staging -/

theorem holder_changePage (page : Nat) (f : PageEntry → PageEntry) (j : Job) :
    holderOf { j with pages := if page = 0 then j.pages else j.pages.modify (page - 1) f } = holderOf j := rfl

theorem core_flagPage {s : State} (h : HoldersOk (core s)) (handle page : Nat) : core (flagPage handle page s) = core s :=
  core_changeJob_same h handle (fun j => holder_changePage page (fun p => { p with marked := true }) j)

theorem core_beginRead {s : State} (h : HoldersOk (core s)) (r : Reader) (handle page index : Nat) :
    core (beginRead r handle page index s).2 = core s := by
  simp only [beginRead]
  split
  · exact core_flagPage h _ _
  · exact core_enterOther rfl s

theorem programs_eraseOther {op : PortOp} (hop : programOf op = none) (ops : List PortOp) :
    (ops.erase op).filterMap programOf = ops.filterMap programOf := by
  induction ops with
  | nil => rfl
  | cons a rest ih =>
    rw [List.erase_cons]
    split
    · rename_i k
      rw [beq_iff_eq] at k
      rw [k, List.filterMap_cons_none hop]
    · cases k : programOf a <;> simp [k, ih]

/-- An operation that is no program leaves the port. -/
theorem core_eraseOp {op : PortOp} (hop : programOf op = none) (s : State) :
    core { s with smc := { s.smc with ops := s.smc.ops.erase op } } = core s := by
  simp only [core, programs_eraseOther hop]

/-- An operation that is no program starts. -/
theorem core_startOther {op : PortOp} (hop : programOf op = none) {s : State} (hfl : s.smc.inFlight = none) {f : PortFlight}
    (hff : flownOf f = none) :
    core { s with smc := { s.smc with
      ops := s.smc.ops.erase op, inFlight := some f, programming := s.smc.programming.map (programStarted op) } } = core s := by
  have hp : s.smc.programming.map (programStarted op) = s.smc.programming := by
    cases s.smc.programming with
    | none => rfl
    | some p =>
      cases op with
      | program h b second => cases hop
      | _ => rfl
  simp only [core, hp, programs_eraseOther hop, hfl]
  simp [hff]

theorem ok_endMarkedRead {s t : State} (h : CoreOk (core s)) (e : endMarkedRead s = some t) : CoreOk (core t) := by
  simp only [endMarkedRead] at e
  split at e
  · cases e
  · rename_i q block _
    have k : core { s with smc := { s.smc with ops := s.smc.ops.erase (.read q) } } = core s := core_eraseOp rfl s
    have k2 := (core_flagPage (s := { s with smc := { s.smc with ops := s.smc.ops.erase (.read q) } })
      (by rw [k]; exact h.toHoldersOk) q.handle q.page).trans k
    split at e
    · obtain rfl := Option.some.inj e
      rw [core_withPath, k2]
      exact h
    · obtain rfl := Option.some.inj e
      exact keeps_stallActive _ _ _ _ (by rw [k2]; exact h)

/-! ### JT -/

theorem ok_activate {d : Destination} {s t : State} (h : CoreOk (core s)) (e : activate d s = some t) : CoreOk (core t) := by
  simp only [activate] at e
  split at e
  · rename_i g rest ha hw
    split at e
    · rename_i j hj
      obtain rfl := Option.some.inj e
      have hh := handle_of_jobOf h.toHoldersOk hj
      have has := has_of_jobOf h.toHoldersOk hj
      obtain ⟨k, hk, hs, hd⟩ := h.waiting d g (by
        show g ∈ (queueOf s.jt d).waiting
        rw [hw]
        exact List.mem_cons_self ..)
      obtain rfl := hk.unique has
      have nd := h.nodup d
      rw [show (core s).queue d = queueOf s.jt d from rfl, hw, List.nodup_cons] at nd
      rw [core_moveJob, core_putQueue]
      refine h.moved (st := .active) has (by simp [Holder.live, hs]) rfl _ (fun x => ?_) (fun x y hy => ?_) fun x y hy => ?_
      · by_cases n : x = d
        · subst n
          rw [Function.update_self]
          exact nd.2
        · rw [Function.update_of_ne n]
          exact h.nodup x
      · left
        by_cases n : x = d
        · subst n
          rw [Function.update_self] at hy
          refine ⟨fun k => nd.1 (k ▸ hy), ?_⟩
          show y ∈ (queueOf s.jt x).waiting
          rw [hw]
          exact List.mem_cons_of_mem _ hy
        · rw [Function.update_of_ne n] at hy
          refine ⟨fun k => ?_, hy⟩
          obtain ⟨j', hj', _, hd'⟩ := h.waiting x y hy
          subst k
          rw [hj'.unique has] at hd'
          exact n (hd'.symm.trans hd)
      · by_cases n : x = d
        · subst n
          rw [Function.update_self] at hy
          exact .inr ⟨(Option.some.inj hy).symm, rfl, hd.symm⟩
        · rw [Function.update_of_ne n] at hy
          refine .inl ⟨fun k => ?_, hy⟩
          obtain ⟨j', hj', hs', _⟩ := h.active x y hy
          subst k
          rw [hj'.unique has, hs] at hs'
          cases hs'
    · cases e
  · cases e

theorem activeJob_spec {s : State} (h : CoreOk (core s)) {d : Destination} {j : Job} (hj : activeJob s d = some j) :
    (core s).Has j.handle (holderOf j) ∧ j.state = .active ∧ destinationOf j.kind = d := by
  unfold activeJob at hj
  obtain ⟨g, hg, hj⟩ := Option.bind_eq_some_iff.mp hj
  have has := has_self h.toHoldersOk hj
  have hh := handle_of_jobOf h.toHoldersOk hj
  obtain ⟨k, hk, hs, hd⟩ := h.active d g hg
  rw [← hh] at hk
  obtain rfl := hk.unique has
  exact ⟨has, hs, hd⟩

theorem leavePlace_active {j : Job} (hs : j.state = .active) (s : State) : leaveActive j s = leavePlace j s := by
  simp [leavePlace, hs]

theorem ok_drain {s t : State} (h : CoreOk (core s)) (e : drain s = some t) : CoreOk (core t) := by
  unfold drain at e
  split at e
  · cases e
  · rename_i j hj
    obtain ⟨has, hs, hd⟩ := activeJob_spec h hj
    split at e
    · cases e
    · split at e
      · obtain rfl := Option.some.inj e
        rw [leavePlace_active hs]
        exact ok_moveLeft h has (by simp [isLive, hs]) (st := .draining .ends) rfl rfl rfl
      · obtain rfl := Option.some.inj e
        exact keeps_closeJob _ _ _ h

theorem ok_failStaging {s t : State} (h : CoreOk (core s)) (e : failStaging s = some t) : CoreOk (core t) := by
  unfold failStaging at e
  split at e
  · split at e
    · obtain rfl := Option.some.inj e
      exact keeps_stallActive _ _ _ _ h
    · cases e
  · cases e

theorem ok_startStaging {s t : State} (h : CoreOk (core s)) (e : startStaging s = some t) : CoreOk (core t) := by
  simp only [startStaging] at e
  split at e
  · cases e
  · split at e
    · cases e
    · split at e
      · cases e
      · split at e
        · cases e
        · obtain rfl := Option.some.inj e
          rw [core_withPath, core_beginRead h.toHoldersOk]
          exact h

theorem ok_grantAttempt {s t : State} (h : CoreOk (core s)) (e : grantAttempt s = some t) : CoreOk (core t) := by
  unfold grantAttempt at e
  split at e
  · split at e
    · rename_i en _ _
      split at e
      · rename_i f j _ _
        simp only [attempt] at e
        split at e
        · cases e
        · split at e
          · obtain rfl := Option.some.inj e
            exact keeps_stallActive _ _ _ _ h
          · split at e
            · obtain rfl := Option.some.inj e
              simp only [grant]
              have k := core_updateAccount j.owner (reserve f.cost) s
              refine (core_changeJob_same ?_ en.handle (f := fun j => { j with nextSheet := en.index + 1, inFlight := j.inFlight + 1 })
                fun _ => rfl).symm ▸ ?_
              · rw [core_withPath, k]
                exact h.toHoldersOk
              · rw [core_withPath, k]
                exact h
            all_goals
              obtain rfl := Option.some.inj e
              exact keeps_stallActive _ _ _ _ h
      · cases e
    · cases e
  · cases e

theorem ok_startExport {s t : State} (h : CoreOk (core s)) (e : startExport s = some t) : CoreOk (core t) := by
  unfold startExport at e
  split at e
  · rename_i j hj _
    split at e
    · obtain rfl := Option.some.inj e
      exact keeps_closeJob _ _ _ h
    · rename_i page _
      have k := core_beginRead h.toHoldersOk .exporter j.handle page 1
      cases hb : (beginRead .exporter j.handle page 1 s).1 with
      | some b =>
        rw [show beginRead .exporter j.handle page 1 s = (some b, (beginRead .exporter j.handle page 1 s).2) from
          Prod.ext hb rfl] at e
        simp only [Option.some.injEq] at e
        subst e
        exact keeps_stallActive _ _ _ _ (by rw [k]; exact h)
      | none =>
        rw [show beginRead .exporter j.handle page 1 s = (none, (beginRead .exporter j.handle page 1 s).2) from
          Prod.ext hb rfl] at e
        simp only [Option.some.injEq] at e
        subst e
        exact Keeps.of_core (core_withJt (beginRead .exporter j.handle page 1 s).2 _ rfl rfl rfl) (by rw [k]; exact h)
  · cases e

/-! ### Scrub, bus and port -/

theorem ok_takeScrub {s t : State} (h : CoreOk (core s)) (e : takeScrub s = some t) : CoreOk (core t) := by
  unfold takeScrub at e
  split at e
  · rename_i x rest _ hl
    split at e
    · obtain rfl := Option.some.inj e
      rw [core_enterOther rfl]
      exact h.worked (b := x.block) (by
        show x.block ∈ s.se.list.map (·.block)
        rw [hl]
        exact List.mem_cons_self ..)
    · cases e
  · cases e

theorem ok_finishSanitize {s t : State} (h : CoreOk (core s)) (e : finishSanitize s = some t) : CoreOk (core t) := by
  unfold finishSanitize at e
  split at e
  · obtain rfl := Option.some.inj e
    rw [core_askPart, core_endSanitize]
    exact h
  · cases e

theorem keeps_startItem (item : WorkItem) : KeepsAll (startItem item) := by
  intro s
  cases item with
  | resync => exact Keeps.of_core rfl
  | auth i => exact Keeps.of_core rfl
  | writeBack i =>
    simp only [startItem]
    split
    · split
      · split
        · rename_i test t ht
          have : t = (draw16 s).2 := by rw [ht]
          rw [this]
          exact (Keeps.of_core (core_draw16 s)).trans (keeps_haltPart _ _)
        · rename_i nonce t ht
          have : t = (draw16 s).2 := by rw [ht]
          rw [this]
          exact Keeps.of_core ((core_withBus _ _).trans (core_draw16 s))
      · exact Keeps.rfl' s
    · exact Keeps.rfl' s

theorem ok_startBus {s t : State} (h : CoreOk (core s)) (e : startBus s = some t) : CoreOk (core t) := by
  unfold startBus at e
  split at e
  · split at e
    · cases e
    · obtain rfl := Option.some.inj e
      exact keeps_startItem _ _ h
  · cases e

theorem programs_erase {ops : List PortOp} {h b : Nat} {second : Bool} (hm : .program h b second ∈ ops)
    (hl : (ops.filterMap programOf).length ≤ 1) : (ops.erase (.program h b second)).filterMap programOf = [] := by
  have p := (List.perm_cons_erase hm).filterMap programOf
  rw [List.filterMap_cons_some (show programOf (.program h b second) = some (h, b) from rfl)] at p
  have := p.length_eq
  simp only [List.length_cons] at this
  exact List.eq_nil_of_length_eq_zero (by omega)

theorem ok_startPort {s t : State} (h : CoreOk (core s)) (e : startPort s = some t) : CoreOk (core t) := by
  simp only [startPort] at e
  split at e
  · cases e
  · rename_i hc
    have hfl : s.smc.inFlight = none := by
      cases k : s.smc.inFlight with
      | none => rfl
      | some f => simp [k] at hc
    split at e
    · cases e
    · rename_i op hop
      have hm : op ∈ s.smc.ops := by
        have pick : ∀ a b c : Option PortOp, (a.orElse fun _ => b.orElse fun _ => c) = some op → a = some op ∨ b = some op ∨ c = some op := by
          rintro (_ | a) (_ | b) c k
          · exact .inr (.inr k)
          · exact .inr (.inl k)
          · exact .inl k
          · exact .inl k
        rcases pick _ _ _ hop with k | k | k <;> exact (List.mem_filter.mp (List.mem_of_find?_eq_some k)).1
      split at e
      · cases e
      · rename_i f hf
        obtain rfl := Option.some.inj e
        cases op with
        | program g b second =>
          have hmem : (g, b) ∈ (core s).programs := List.mem_filterMap.mpr ⟨_, hm, rfl⟩
          have key := h.started hmem
          have hp := h.programs g b hmem
          have hprog : (s.smc.programming.map (programStarted (.program g b second))).map (fun p => (p.handle, p.block, p.phase))
              = some (g, b, .inFlight) := by
            cases k : s.smc.programming with
            | none => simp [core, k] at hp
            | some p =>
              simp only [core, k, Option.map_some, Option.some.injEq, Prod.mk.injEq] at hp
              simp [programStarted, hp.1, hp.2.1]
          simp only [flightOf, Option.some.injEq] at hf
          subst hf
          have : core { s with smc := { s.smc with
              ops := s.smc.ops.erase (.program g b second)
              inFlight := some (.program g b second (resolve s.smc.defects b))
              programming := s.smc.programming.map (programStarted (.program g b second)) } }
              = { core s with programs := [], flight := some (g, b), programming := some (g, b, .inFlight) } := by
            refine Core.ext rfl rfl rfl rfl rfl rfl rfl rfl hprog ?_ rfl rfl rfl rfl
            exact programs_erase hm h.single
          rw [this]
          exact key
        | read q =>
          simp only [flightOf, Option.map_eq_some_iff] at hf
          obtain ⟨_, _, rfl⟩ := hf
          exact Keeps.of_core (core_startOther (op := .read q) rfl hfl rfl) h
        | erase b =>
          simp only [flightOf, Option.some.injEq] at hf
          subst hf
          exact Keeps.of_core (core_startOther (op := .erase b) rfl hfl rfl) h
        | verify b =>
          simp only [flightOf, Option.some.injEq] at hf
          subst hf
          exact Keeps.of_core (core_startOther (op := .verify b) rfl hfl rfl) h

/-! ### The whole -/

theorem ok_orElse {a b : Option State} {P : State → Prop} (ha : ∀ {u}, a = some u → P u) (hb : ∀ {u}, b = some u → P u) {t : State}
    (e : (a <|> b) = some t) : P t := by
  cases a with
  | none => exact hb (by simpa using e)
  | some u => exact ha (by simpa using e)

theorem ok_nextAction {s t : State} (h : CoreOk (core s)) (e : nextAction s = some t) : CoreOk (core t) := by
  unfold nextAction at e
  split at e
  · cases e
  · exact ok_startBus h e
  · rename_i hp
    have hr : (core s).part = .running := hp
    have hq : (core s).part ≠ .halted := by rw [hr]; exact fun k => nomatch k
    exact ok_orElse (ok_endMarkedRead h) (ok_orElse (ok_moveImage h) (ok_orElse (ok_handOn h hq) (ok_orElse (ok_retryHeld h hr)
      (ok_orElse (ok_takeWaiting h) (ok_orElse (ok_activate h) (ok_orElse (ok_drain h) (ok_orElse (ok_activate h)
      (ok_orElse (ok_startExport h) (ok_orElse (ok_failStaging h) (ok_orElse (ok_startStaging h) (ok_orElse (ok_grantAttempt h)
      (ok_orElse (ok_takeScrub h) (ok_orElse (ok_finishSanitize h) (ok_orElse (ok_startBus h) (ok_startPort h)))))))))))))))  e

theorem keeps_settle : KeepsAll settle := by
  have key : ∀ n, KeepsAll (settleN n) := by
    intro n
    induction n with
    | zero => exact fun s => Keeps.rfl' s
    | succ n ih =>
      intro s h
      simp only [settleN]
      split
      · rename_i t ht
        exact ih t (ok_nextAction h ht)
      · exact h
  exact fun s => key _ s

end Sys2Proof.Machine
end

