-- ==== Sys2Proof/Laws/Requests.lean ====
section
/-! SUPPORT. What becomes of a request, said once: turned away by R188 or R189, or answered as its owner decides. -/

namespace Sys2Proof.Machine

/-- The reply of an answer, in the words of the statements. -/
theorem reply_eq (k : RequestKind) (tag : Byte) (a : Answer) :
    reply (kindByte k) tag a = answered k tag a.status a.payload a.state := rfl

/-- A part that serves requests hands one to its owner. -/
theorem request_serving {s : State} (h : Serving s) (k : RequestKind) (tag : Byte) (owner : State → Answer) :
    request k tag owner s = answered k tag (owner s).status (owner s).payload (owner s).state := by
  obtain ⟨hp, hr, hu⟩ := h
  simp [request, hp, hr, Nat.not_le.mpr hu, reply_eq]

/-- R167: a HALTED part hands the requests it serves to their owners. -/
theorem request_halted {s : State} {k : RequestKind} (hp : s.powered = true) (hh : s.fm.part = .halted)
    (hu : unreadReplies s.lif < 8) (hk : servedHalted k = true) (tag : Byte) (owner : State → Answer) :
    request k tag owner s = answered k tag (owner s).status (owner s).payload (owner s).state := by
  simp [request, hp, hh, Nat.not_le.mpr hu, hk, reply_eq]

/-- R188: a request taken with eight replies unread. -/
theorem request_overrun {s : State} (hp : s.powered = true) (hu : 8 ≤ unreadReplies s.lif) (k : RequestKind) (tag : Byte)
    (owner : State → Answer) : request k tag owner s = overrun s := by
  simp [request, hp, hu]

/-- Step 4 of R189. -/
theorem request_starting {s : State} (hp : s.powered = true) (hs : s.fm.part = .starting) (hu : unreadReplies s.lif < 8)
    (k : RequestKind) (tag : Byte) (owner : State → Answer) :
    request k tag owner s = answered k tag .starting .empty s := by
  simp [request, hp, hs, Nat.not_le.mpr hu, reply_eq, refuse]

/-- Step 5 of R189, R167. -/
theorem request_refused_halted {s : State} {k : RequestKind} (hp : s.powered = true) (hh : s.fm.part = .halted)
    (hu : unreadReplies s.lif < 8) (hk : servedHalted k = false) (tag : Byte) (owner : State → Answer) :
    request k tag owner s = answered k tag .halted .empty s := by
  simp [request, hp, hh, Nat.not_le.mpr hu, hk, reply_eq, refuse]

/-- Without power a request is lost. -/
theorem request_unpowered {s : State} (hp : s.powered = false) (k : RequestKind) (tag : Byte) (owner : State → Answer) :
    request k tag owner s = s := by
  simp [request, hp]

/-- Whatever becomes of a request: nothing, an overrun, a refusal, or its owner's answer. -/
theorem request_cases (k : RequestKind) (tag : Byte) (owner : State → Answer) (s : State) :
    request k tag owner s = s ∨ request k tag owner s = overrun s ∨ (∃ c, request k tag owner s = answered k tag c .empty s)
      ∨ request k tag owner s = answered k tag (owner s).status (owner s).payload (owner s).state := by
  unfold request
  split
  · exact .inl rfl
  · split
    · exact .inr (.inl rfl)
    · split
      · exact .inr (.inr (.inl ⟨_, rfl⟩))
      · split
        · exact .inr (.inr (.inr rfl))
        · exact .inr (.inr (.inl ⟨_, rfl⟩))
      · exact .inr (.inr (.inr rfl))

end Sys2Proof.Machine
end

