-- ==== Sys2Proof/Laws/BlocksRequests.lean ====
section
/-! SUPPORT. The requests keep the blocks' invariant. -/

namespace Sys2Proof.Machine

/-! ### Any request -/

/-- Whatever the owner of a request answers, the blocks' invariant stands. -/
def KeepsOwner (owner : State → Answer) : Prop := ∀ s, Keeps s (owner s).state

theorem KeepsOwner.same {owner : State → Answer} (h : ∀ s, core (owner s).state = core s) : KeepsOwner owner :=
  fun s => Keeps.of_core (h s)

theorem keepsOwner_refuse (c : Status) : KeepsOwner (refuse c) := .same fun _ => rfl

@[simp] theorem core_reply (kind tag : Byte) (a : Answer) : core (reply kind tag a) = core a.state := rfl

@[simp] theorem core_overrun (s : State) : core (overrun s) = core s := rfl

theorem keeps_request {owner : State → Answer} (h : KeepsOwner owner) (k : RequestKind) (tag : Byte) :
    KeepsAll (request k tag owner) := by
  intro s
  rcases request_cases k tag owner s with e | e | ⟨c, e⟩ | e <;> rw [e]
  · exact Keeps.rfl' s
  · exact Keeps.of_core rfl
  · exact Keeps.of_core rfl
  · exact (h s).trans (Keeps.of_core rfl)

theorem Keeps.refused {c : Prop} [Decidable c] {s : State} {x : Status} {a : Answer} (h : Keeps s a.state) :
    Keeps s (if c then refuse x s else a).state := by
  split
  · exact Keeps.rfl' s
  · exact h

/-! ### Accounts -/

theorem keepsOwner_acctCreate (id overdraft colour : Nat) (pin : Option (List Byte)) :
    KeepsOwner (acctCreate id overdraft colour pin) := .same fun s => by
  unfold acctCreate
  split
  · rfl
  · split
    · rfl
    · split
      · rfl
      · exact core_setAccounts _ s

theorem keepsOwner_acctDelete (id : Nat) : KeepsOwner (acctDelete id) := .same fun s => by
  unfold acctDelete
  split
  · rfl
  · split
    · rfl
    · exact core_setAccounts _ s

theorem keepsOwner_acctCredit (id : Nat) (amount : Int) : KeepsOwner (acctCredit id amount) := by
  intro s
  simp only [acctCredit]
  split
  · exact Keeps.rfl' s
  · split
    · exact Keeps.rfl' s
    · split
      · dsimp only
        split
        · exact (Keeps.of_core (core_updateAccount id _ s)).trans ((keeps_creditRose id _).trans (keeps_settle _))
        · exact Keeps.rfl' s
      · split
        · exact Keeps.rfl' s
        · split
          · exact Keeps.of_core (core_updateAccount id _ s)
          · exact Keeps.rfl' s

theorem keepsOwner_acctSet (id : Nat) (overdraft colour standing : Option Nat) (pin : Option PinAction) :
    KeepsOwner (acctSet id overdraft colour standing pin) := by
  intro s
  simp only [acctSet]
  split
  · exact Keeps.rfl' s
  · split
    · exact Keeps.rfl' s
    · exact Keeps.refused (Keeps.refused (Keeps.then_ite keeps_settle (Keeps.then_ite (keeps_barrierGone id)
        (Keeps.then_ite (keeps_creditRose id) (Keeps.of_core (core_updateAccount id _ s))))))

theorem keepsOwner_acctRead (id : Nat) : KeepsOwner (acctRead id) := .same fun s => by
  unfold acctRead
  split <;> rfl

theorem keepsOwner_acctUnlock (id : Nat) : KeepsOwner (acctUnlock id) := .same fun s => by
  unfold acctUnlock
  split
  · rfl
  · exact core_updateAccount id _ s

theorem keepsOwner_countersClear (id : Nat) : KeepsOwner (countersClear id) := .same fun s => by
  unfold countersClear
  split
  · rfl
  · split
    · rfl
    · exact core_updateAccount id _ s

/-! ### Jobs -/

theorem lowestFree_free {jt : JobTable} {i : Fin 64} (h : lowestFree jt = some i) : (jt.slots.get i).job = none := by
  simp only [lowestFree, Option.map_eq_some_iff] at h
  obtain ⟨n, hn, rfl⟩ := h
  simpa using List.find?_some hn

theorem keepsOwner_jobOpen (kind owner privacy media sides copies : Nat) :
    KeepsOwner (jobOpen kind owner privacy media sides copies) := by
  intro s h
  simp only [jobOpen]
  split
  · exact h
  · split
    · exact h
    · split
      · exact h
      · split
        · exact h
        · split
          · exact h
          · rename_i i hi
            split
            · rename_i test t ht
              have e : core t = core s := by rw [show t = (draw32 s).2 by rw [ht], core_draw32]
              exact keeps_haltPart _ _ (e ▸ h)
            · rename_i key t ht
              have e : core t = core s := by rw [show t = (draw32 s).2 by rw [ht], core_draw32]
              have free := lowestFree_free hi
              simp only [fillSlot]
              rw [core_moveJob]
              have h' : CoreOk (core t) := e ▸ h
              refine CoreOk.opened (c := core t) (i := i) h' ?_ ?_ rfl rfl
              · have : (core t).job i = none := by rw [e]; simp [core, free]
                exact this
              · have : (core t).gen i = (core s).gen i := by rw [e]
                exact (congrArg (fun n => n * 64 + (i : Nat)) this).symm

theorem keepsOwner_onJob {rule : Job → State → Answer} {handle : Nat}
    (hr : ∀ (s : State) (j : Job), CoreOk (core s) → jobOf s.jt handle = some j → CoreOk (core (rule j s).state)) :
    KeepsOwner (onJob handle rule) := by
  intro s h
  unfold onJob
  split
  · exact h
  · rename_i j hj
    exact hr s j h hj

theorem keepsOwner_jobRelease (handle : Nat) (pin : List Byte) : KeepsOwner (jobRelease handle pin) := by
  refine keepsOwner_onJob fun s j h hj => ?_
  unfold releaseJob
  split
  · exact h
  · split
    · exact h
    · rename_i hh
      split
      · exact h
      · rename_i a _
        split
        · exact h
        · exact h
        · split
          · exact h
          · simp only [releaseWithPin]
            split
            · exact (core_updateAccount _ _ s).symm ▸ h
            · split
              · exact (core_updateAccount _ _ s).symm ▸ h
              · refine keeps_settle _ ?_
                have held : isHeld j = true := by simpa using hh
                have st : j.state ≠ .queued ∧ j.state ≠ .active ∧ isLive j = true := by
                  cases e : j.state <;> simp [isHeld, isLive, e] at held ⊢
                have k : CoreOk (core (updateAccount a.id (fun a => { a with pinFailures := 0 }) s)) :=
                  (core_updateAccount _ _ s).symm ▸ h
                have := ok_queueTail (j := j) (j' := j) k (by rw [core_updateAccount]; exact has_self h.toHoldersOk hj) st.2.2 rfl
                rwa [leavePlace_stays st.1 st.2.1] at this

theorem ok_cancelPlaced {s : State} (h : CoreOk (core s)) {j : Job} (hj : (core s).Has j.handle (holderOf j))
    (hl : isLive j = true) : CoreOk (core (cancelPlaced j s)) := by
  unfold cancelPlaced
  split
  · exact (keeps_closeJob _ _ s).trans (keeps_settle _) h
  · exact keeps_settle _ (ok_moveLeft h hj hl (st := .draining .cancel) rfl rfl rfl)

theorem core_withPhase (s : State) (phase : ExportPhase) : core { s with jt := { s.jt with exportPhase := phase } } = core s :=
  core_withJt s _ rfl rfl rfl

theorem keepsOwner_jobCancel (handle : Nat) : KeepsOwner (jobCancel handle) := by
  refine keepsOwner_onJob fun s j h hj => ?_
  have hs := has_self h.toHoldersOk hj
  have close := (keeps_closeJob .cancelled j.handle s).trans (keeps_settle _) h
  unfold cancelJob
  split
  · exact h
  · exact h
  · rename_i e
    have := ok_moveLeft (j' := { j with state := .draining .cancel }) h hs (by simp [isLive, e]) (st := .draining .cancel) rfl rfl
      (u := s) (by rw [leavePlace_stays (by simp [e]) (by simp [e])])
    exact this
  · exact close
  · exact close
  · rename_i e
    exact ok_cancelPlaced h hs (by simp [isLive, e])
  · rename_i e
    exact ok_cancelPlaced h hs (by simp [isLive, e])
  · rename_i e
    split
    · exact (core_withPhase s _).symm ▸ h
    · exact ok_cancelPlaced h hs (by simp [isLive, e])

theorem keepsOwner_jobPause (handle : Nat) : KeepsOwner (jobPause handle) := by
  refine keepsOwner_onJob fun s j h hj => ?_
  have hs := has_self h.toHoldersOk hj
  unfold pauseJob
  split
  · rename_i e
    exact ok_stallJob h _ hs (by simp [isLive, e]) rfl
  · rename_i e
    split
    · exact (core_withPhase s _).symm ▸ h
    · exact keeps_settle _ (ok_stallJob h _ hs (by simp [isLive, e]) rfl)
  · rename_i e
    split
    · exact h
    · split
      · have := ok_stallJob (j' := j) h .paused hs (by simp [isLive, e]) rfl
        rwa [leavePlace_stays (by simp [e]) (by simp [e])] at this
      · exact h
  · exact h

theorem keepsOwner_jobResume (handle : Nat) : KeepsOwner (jobResume handle) := by
  refine keepsOwner_onJob fun s j h hj => ?_
  have hs := has_self h.toHoldersOk hj
  unfold resumeJob
  split
  · rename_i e
    split
    · exact keeps_settle _ (ok_queueTailStalled h hs (by simp [isStalled, e])).1
    · exact h
  · exact h

theorem holder_skipPage (page : Nat) (j : Job) : holderOf (skipPage page j) = holderOf j := rfl

theorem keepsOwner_jobSkipPage (handle page : Nat) : KeepsOwner (jobSkipPage handle page) := by
  refine keepsOwner_onJob fun s j h hj => ?_
  have hs := has_self h.toHoldersOk hj
  unfold skipOnJob
  split
  · exact h
  · split
    · exact h
    · split
      · exact h
      · split
        · rename_i st
          have hst := stalledWith_stalled _ st
          obtain ⟨hl, n1, n2⟩ := stalled_live hst
          have := ok_queueHead (j' := skipPage page j) h hs hl (holder_skipPage page j)
          rw [leavePlace_stays n1 n2] at this
          exact keeps_settle _ this
        · rw [core_setJob_same h.toHoldersOk hj (holder_skipPage page j)]
          exact h

theorem keepsOwner_jobRead (handle first : Nat) : KeepsOwner (jobRead handle first) := by
  refine keepsOwner_onJob fun s j h _ => ?_
  split <;> exact h

theorem keepsOwner_sense (handle : Nat) : KeepsOwner (sense handle) := keepsOwner_onJob fun _ _ h _ => h

/-! ### The settings -/

theorem keeps_stagingChange (changed : Bool) : KeepsAll (stagingChange changed) := by
  intro s
  unfold stagingChange
  split
  · exact (Keeps.of_core (core_discardStaging s)).trans (keeps_settle _)
  · exact Keeps.rfl' s

theorem keepsOwner_priceSet (f : PriceFields) : KeepsOwner (priceSet f) := by
  intro s
  simp only [priceSet]
  split
  · exact Keeps.rfl' s
  · split
    · exact Keeps.rfl' s
    · split
      · exact Keeps.rfl' s
      · refine Keeps.trans ?_ (keeps_stagingChange _ _)
        split
        · exact Keeps.rfl' s
        · exact Keeps.of_core (core_setSettings _ s)

@[simp] theorem core_reclass (s : State) (i : Fin 4) : core (reclass s i) = core s := by
  simp only [reclass]
  split
  · split
    · split
      · exact core_putSlot _ _ s
      · rw [core_askCartState, core_putSlot]
    · rfl
  · rfl

@[simp] theorem core_handToCartridges (old new : MeterSettings) (s : State) : core (handToCartridges old new s) = core s := by
  simp only [handToCartridges]
  have a : ∀ (c : Prop) [Decidable c] (f : State → State) (u : State), (∀ v, core (f v) = core v) → core (if c then u else f u) = core u := by
    intro c _ f u hf
    split
    · rfl
    · exact hf u
  rw [a _ (fun s => cartSlots.foldl reauthTest s) _ fun v => core_foldl (fun s i => core_reauthTest s i) _ v,
    a _ (fun s => cartSlots.foldl (fun s i => writeBackTest i false s) s) _
      fun v => core_foldl (fun s i => core_writeBackTest i false s) _ v,
    a _ (fun s => cartSlots.foldl reclass s) _ fun v => core_foldl (fun s i => core_reclass s i) _ v]

theorem keepsOwner_meterSet (f : MeterFields) : KeepsOwner (meterSet f) := by
  intro s
  simp only [meterSet]
  split
  · exact Keeps.rfl' s
  · split
    · exact Keeps.rfl' s
    · split
      · exact Keeps.rfl' s
      · split
        · exact Keeps.rfl' s
        · refine Keeps.trans (Keeps.of_core ?_) (keeps_settle _)
          split
          · rw [core_handToCartridges, core_setSettings]
          · rw [core_discardStaging, core_handToCartridges, core_setSettings]

theorem keepsOwner_mediaSet (code : Nat) (area transit : Option Nat) : KeepsOwner (mediaSet code area transit) := by
  intro s
  simp only [mediaSet]
  split
  · exact Keeps.rfl' s
  · split
    · exact Keeps.rfl' s
    · split
      · exact Keeps.rfl' s
      · dsimp only
        split
        · exact Keeps.rfl' s
        · exact (Keeps.of_core (core_setSettings _ s)).trans (keeps_stagingChange _ _)

theorem keepsOwner_limitsSet (f : LimitFields) : KeepsOwner (limitsSet f) := .same fun s => by
  simp only [limitsSet]
  split
  · rfl
  · split
    · rfl
    · split
      · rfl
      · dsimp only
        split
        · rfl
        · exact core_setSettings _ s

/-! ### Cartridges -/

theorem keepsOwner_cartRead (selector start : Nat) : KeepsOwner (cartRead selector start) := .same fun s => by
  unfold cartRead
  split
  · rfl
  · split <;> rfl

theorem keepsOwner_cartReauth (slot : Nat) : KeepsOwner (cartReauth slot) := by
  intro s
  unfold cartReauth
  split
  · exact Keeps.rfl' s
  · refine Keeps.refused (Keeps.refused (Keeps.trans (Keeps.of_core ?_) (keeps_settle _)))
    rw [core_queueItem, core_putSlot]

theorem keepsOwner_policySet (policy : Nat) : KeepsOwner (policySet policy) := by
  intro s
  unfold policySet
  split
  · exact Keeps.rfl' s
  · split
    · exact Keeps.rfl' s
    · split
      · exact Keeps.rfl' s
      · dsimp only
        split
        · exact (Keeps.of_core (core_setSettings _ s)).trans ((keeps_supplyCame _).trans (keeps_settle _))
        · exact Keeps.of_core (core_setSettings _ s)

theorem keepsOwner_familyKeyLoad (family : Nat) (key : List Byte) : KeepsOwner (familyKeyLoad family key) := by
  intro s
  simp only [familyKeyLoad]
  split
  · exact Keeps.rfl' s
  · refine Keeps.refused (Keeps.refused ?_)
    dsimp only
    split
    · exact Keeps.of_core (core_setKeys _ s)
    · refine Keeps.trans (Keeps.of_core ?_) (keeps_settle _)
      rw [core_foldl (fun s i => by split <;> simp), core_setKeys]

/-! ### Faults and the store -/

theorem keepsOwner_faultAck (number : Nat) : KeepsOwner (faultAck number) := by
  intro s
  unfold faultAck
  refine Keeps.refused (Keeps.refused ?_)
  simp only [acknowledge]
  split
  · exact (keeps_settle _).via (Keeps.of_core rfl)
  · exact Keeps.of_core rfl

theorem keepsOwner_haltRecordAck : KeepsOwner haltRecordAck := by
  intro s
  unfold haltRecordAck
  exact Keeps.refused (Keeps.of_core (by rw [core_askPart, core_clearHaltRecord]))

theorem keepsOwner_storeLock (locks : Nat) : KeepsOwner (storeLock locks) := by
  intro s
  unfold storeLock
  split
  · exact Keeps.rfl' s
  · dsimp only
    split
    · exact Keeps.rfl' s
    · exact Keeps.of_core (core_setKeys _ s)

end Sys2Proof.Machine
end

