-- ==== Sys2Proof/Laws/BlocksEvents.lean ====
section
/-! SUPPORT. The spool requests and the events of the sheet path keep the blocks' invariant. -/

namespace Sys2Proof.Machine

/-! ### The spool requests -/

theorem core_withWeak (s : State) (weak : List Nat) : core { s with smc := { s.smc with weak := weak } } = core s := rfl

theorem keepsOwner_blockRetire (block : Nat) : KeepsOwner (blockRetire block) := by
  intro s h
  unfold blockRetire
  split
  · exact h
  · split
    · exact h
    · rename_i e
      have hm : block ∈ s.smc.free := by
        unfold blockState at e
        split at e
        · cases e
        · split at e
          · assumption
          · split at e
            · cases e
            · split at e <;> cases e
      simp only [retireClean]
      rw [core_retireBlock]
      have k : core { setDefects { s.smc.defects with clean := s.smc.defects.clean.erase block } s with
            smc := { (setDefects { s.smc.defects with clean := s.smc.defects.clean.erase block } s).smc with
              free := (setDefects { s.smc.defects with clean := s.smc.defects.clean.erase block } s).smc.free.erase block } }
          = { core s with
              free := (core s).free.erase block, defects := uncleaned block (core s).defects
              stored := uncleaned block (core s).defects :: (core s).stored } := by
        have k := congrArg Core.stored (core_setDefects { s.smc.defects with clean := s.smc.defects.clean.erase block } s)
        refine Core.ext rfl rfl rfl rfl rfl rfl rfl rfl rfl rfl rfl ?_ rfl rfl
        exact k
      rw [k]
      exact h.hostRetired hm
    · dsimp only
      split <;> exact h
    · dsimp only
      split <;> exact h

theorem keeps_beginSanitize (tag : Byte) (wipe : Bool) : KeepsAll (beginSanitize tag wipe) := by
  intro s h
  cases hc : s.smc.defects.clean.isEmpty
  case true =>
    have hf : s.smc.free = [] := List.eq_nil_iff_forall_not_mem.mpr fun b hb => by
      have m : b ∈ s.smc.defects.clean := (h.clean b).mpr hb
      rw [List.isEmpty_iff.mp hc] at m
      cases m
    have e : core (beginSanitize tag wipe s) = core s := by
      simp only [beginSanitize, hc, if_true, core_askPart]
      simp [core, hf]
    rw [e]
    exact h
  have k := congrArg Core.stored (core_setDefects { s.smc.defects with clean := [] } s)
  have e : core (beginSanitize tag wipe s) = { core s with
      free := []
      list := (core s).list ++ (core s).free.map fun b => { block := b, origin := .sanitize }
      defects := { (core s).defects with clean := [] }
      stored := { (core s).defects with clean := [] } :: (core s).stored } := by
    simp only [beginSanitize, hc, Bool.false_eq_true, if_false]
    exact Core.ext rfl rfl rfl rfl rfl rfl rfl rfl rfl rfl rfl (by exact k) rfl rfl
  rw [e]
  exact h.sanitized

theorem keepsOwner_sanitize (tag : Byte) : KeepsOwner (sanitize tag) := by
  intro s
  unfold sanitize
  exact Keeps.refused (Keeps.refused (Keeps.refused ((keeps_beginSanitize tag false s).trans (keeps_settle _))))

@[simp] theorem core_putChannel (ch : Channel) (c : SenseChannel) (s : State) : core (putChannel ch c s) = core s := by
  cases ch <;> rfl

@[simp] theorem core_rewatch (ch : Channel) (s : State) : core (rewatch ch s) = core s := core_putChannel _ _ _

theorem core_wipeContent (key : Key) (s : State) : core (wipeContent key s) = core s := by
  have e : ∀ u : State, core { u with ps := { u.ps with results := wipedResults u.ps.results } } = core u := fun _ => rfl
  simp only [wipeContent]
  rw [e, core_clearHaltRecord, core_rewatch, core_rewatch, core_rewatch, core_setSettings, core_cartridgesWipe, core_setAccounts,
    core_setKeys]

theorem keepsOwner_storeWipe (tag : Byte) : KeepsOwner (storeWipe tag) := by
  intro s
  unfold storeWipe
  refine Keeps.refused (Keeps.refused (Keeps.refused ?_))
  split
  · rename_i test t ht
    exact (Keeps.of_core (show core t = core s by rw [show t = (draw32 s).2 by rw [ht], core_draw32])).trans (keeps_haltPart _ _)
  · rename_i key t ht
    have e : core t = core s := by rw [show t = (draw32 s).2 by rw [ht], core_draw32]
    exact (Keeps.of_core (show core (wipeContent key t) = core s by rw [core_wipeContent, e])).trans
      ((keeps_beginSanitize tag true _).trans (keeps_settle _))

/-! ### The sheet path -/

theorem keeps_reportExit (sh : Sheet) : KeepsAll (reportExit sh) := by
  intro s h
  unfold reportExit
  split
  · exact h
  · rename_i j hj
    have same : ∀ j', holderOf j' = holderOf j → CoreOk (core (setJob j' s)) := fun j' e => by
      rw [core_setJob_same h.toHoldersOk hj e]
      exact h
    dsimp only
    split
    · split
      · exact keeps_closeJob _ _ _ (same _ rfl)
      · exact same _ rfl
    · exact same _ rfl

theorem keeps_deliver (sh : Sheet) (rest : List Sheet) : KeepsAll (deliver sh rest) := by
  intro s
  simp only [deliver]
  refine Keeps.trans ?_ (keeps_settle _)
  refine Keeps.trans ?_ (Keeps.of_core (core_emit _ _))
  exact (Keeps.of_core (show core (updateAccount sh.owner (charge sh.cost sh.sides sh.nonGenuine)
    { s with spm := { s.spm with sheets := rest } }) = core s by rw [core_updateAccount, core_withPath])).trans (keeps_reportExit sh _)

theorem keeps_exitEdge : KeepsAll exitEdge := by
  intro s
  unfold exitEdge
  split
  · exact (keeps_declareJam _ s).trans (keeps_settle _)
  · split
    · exact keeps_deliver _ _ s
    · exact (keeps_declareJam _ s).trans (keeps_settle _)

theorem keeps_feedEdge : KeepsAll feedEdge := by
  intro s
  unfold feedEdge
  split
  · exact (Keeps.of_core (by rw [core_enterCartridges, core_withPath])).trans (keeps_settle _)
  · exact (keeps_declareJam _ s).trans (keeps_settle _)

theorem keeps_takeEdge (ch : Channel) : KeepsAll (takeEdge ch) := by
  intro s
  simp only [takeEdge]
  cases ch <;> dsimp only
  · exact Keeps.then_ite keeps_feedEdge (Keeps.of_core (core_putChannel _ _ s))
  · exact Keeps.then_ite keeps_exitEdge (Keeps.of_core (core_putChannel _ _ s))
  · exact (keeps_settle _).via (Keeps.of_core rfl)

theorem keeps_followRaw (ch : Channel) : KeepsAll (followRaw ch) := by
  intro s
  unfold followRaw
  exact (keeps_takeEdge ch s).branch (Keeps.rfl' s)

theorem keeps_edgeCommand (ch : Channel) (level : Bool) : KeepsAll (edgeCommand ch level) := by
  intro s
  unfold edgeCommand
  exact (keeps_takeEdge ch s).branch (Keeps.rfl' s)

theorem keepsOwner_senseSet (channel code hysteresis filter polarity : Nat) :
    KeepsOwner (senseSet channel code hysteresis filter polarity) := by
  intro s
  unfold senseSet
  split
  · exact Keeps.rfl' s
  · refine Keeps.refused (Keeps.refused ?_)
    exact (Keeps.of_core (by rw [core_putChannel, core_setSettings])).trans (keeps_followRaw _ _)

theorem keepsOwner_doorOpen : KeepsOwner doorOpen := by
  intro s
  unfold doorOpen
  split
  · exact Keeps.rfl' s
  · dsimp only
    refine Keeps.trans ?_ (keeps_settle _)
    have e : core (cartridgesDoorOpen (evaluatePermit { s with spm := { s.spm with doorOpen := true } })) = core s := by
      rw [core_cartridgesDoorOpen, core_evaluatePermit, core_withPath]
    split
    · exact Keeps.of_core (by rw [core_askPart, e])
    · exact (Keeps.of_core e).trans (keeps_declareJam _ _)

theorem keepsOwner_doorClosed : KeepsOwner doorClosed := by
  intro s
  unfold doorClosed
  split
  · exact (Keeps.of_core (by rw [core_askPart, core_queueAll, core_evaluatePermit, core_withPath])).trans (keeps_settle _)
  · exact Keeps.rfl' s

theorem perm_insertByRank (j : Job) (l : List Job) : (insertByRank j l).Perm (j :: l) := by
  induction l with
  | nil => exact .refl _
  | cons k rest ih =>
    simp only [insertByRank]
    split
    · exact .refl _
    · exact (ih.cons k).trans (.swap j k rest)

theorem jamRank_stalled {j : Job} (h : jamRank j > 0) : isStalled j = true := by
  unfold jamRank at h
  split at h
  · rename_i e
    simp [isStalled, e]
  · cases h

theorem keeps_returnJammed : KeepsAll returnJammed := by
  intro s h
  simp only [returnJammed]
  split
  · exact h
  · have hp : (jammedJobs s.jt).Perm ((allJobs s.jt).filter (jamRank · > 0)) := perm_sorted _ perm_insertByRank _
    have nodup : ((jammedJobs s.jt).map (·.handle)).Nodup :=
      ((hp.map _).nodup_iff).mpr ((nodup_handles h).sublist (List.filter_sublist.map _))
    have mem : ∀ j ∈ jammedJobs s.jt, (core s).Has j.handle (holderOf j) ∧ isStalled j = true := fun j hj => by
      have := List.mem_filter.mp (hp.subset hj)
      exact ⟨has_of_mem h this.1, jamRank_stalled (by simpa using this.2)⟩
    rw [List.foldr_eq_foldl_reverse]
    have rev : ∀ {u : State}, CoreOk (core u) → (∀ j ∈ jammedJobs s.jt, (core u).Has j.handle (holderOf j) ∧ isStalled j = true) →
        CoreOk (core ((jammedJobs s.jt).reverse.foldl (fun s j => queueHead j s) u)) := fun {u} hu hm =>
      ok_queueAll (f := queueHead) (fun hs _ hj st => ok_queueHeadStalled hs hj st) _ hu
        (by rw [List.map_reverse, List.nodup_reverse]; exact nodup) fun j hj => hm j (List.mem_reverse.mp hj)
    split
    · rename_i a ha
      obtain ⟨has, hs, hd⟩ := activeJob_spec h ha
      refine rev ?_ fun j hj => ⟨?_, (mem j hj).2⟩
      · rw [leavePlace_active hs]
        exact ok_queueHead h has (by simp [isLive, hs]) rfl
      · have ne : j.handle ≠ a.handle := fun e => by
          have hu := (mem j hj).1.unique (e ▸ has)
          have st : j.state = a.state := congrArg Holder.state hu
          have := (mem j hj).2
          rw [isStalled, st, hs] at this
          cases this
        refine has_moved (s := s) (j' := { a with state := .queued }) has rfl ?_ ne (mem j hj).1
        rw [core_putQueue, core_leaveActive]
    · exact rev h mem

theorem keepsOwner_jamClear : KeepsOwner jamClear := by
  intro s
  unfold jamClear
  refine Keeps.refused (Keeps.refused (Keeps.refused ?_))
  refine Keeps.trans ?_ (keeps_settle _)
  refine Keeps.trans ?_ (Keeps.of_core (core_askPart _))
  exact (Keeps.of_core (by rw [core_evaluatePermit, core_withPath])).trans (keeps_returnJammed _)

end Sys2Proof.Machine
end

