-- ==== Sys2Proof/Laws/BlocksPortEnds.lean ====
section
/-! SUPPORT. The intake events, the band sent and the completions of the media port keep the blocks' invariant. -/

namespace Sys2Proof.Machine

/-! ### Intake -/

theorem keeps_abortHeld : KeepsAll abortHeld := by
  intro s
  unfold abortHeld
  split
  · split
    · exact (keeps_abortJob _ _ _ _ _ _).via (Keeps.of_core (core_withJt s _ rfl rfl rfl))
    · exact Keeps.rfl' s
  · exact Keeps.rfl' s

theorem keeps_abortImage (page : Nat) : KeepsAll (abortImage page) := by
  intro s
  unfold abortImage
  split
  · split
    · exact keeps_abortJob _ _ _ _ _ _
    · exact Keeps.rfl' s
  · exact Keeps.rfl' s

theorem keeps_expireStall : KeepsAll expireStall := by
  intro s
  simp only [expireStall]
  refine Keeps.trans (t := { s with jt := { s.jt with stallTimer := none } }) (Keeps.of_core (core_withJt s _ rfl rfl rfl)) ?_
  split
  · split
    · exact keeps_abortHeld _
    · exact (keeps_abortImage _ _).trans (keeps_abortHeld _)
  · exact keeps_abortHeld _

/-! ### Reads -/

@[simp] theorem core_findWeak (limit : Nat) (results : List (Nat × CodewordResult)) (s : State) (block : Nat) :
    core (findWeak limit results s block) = core s := by
  simp only [findWeak]
  split
  · rw [core_raiseNote, core_withWeak]
  · rfl

theorem core_withMarks (s : State) (origin : MarkOrigin) (block : Nat) : core { s with smc := markBlock origin block s.smc } = core s := by
  unfold markBlock
  split <;> rfl

theorem keeps_flagPage (handle page : Nat) : KeepsAll (flagPage handle page) := fun _ h => (core_flagPage h.toHoldersOk handle page) ▸ h

theorem keeps_findUnreadable (q : ReadRequest) (block : Nat) : KeepsAll (findUnreadable q block) := by
  intro s
  simp only [findUnreadable]
  refine Keeps.trans (Keeps.of_core (core_withMarks s .media block)) ?_
  split
  · exact Keeps.then_ite (keeps_raiseJobFault _) (keeps_flagPage _ _ _)
  · exact Keeps.rfl' _

theorem core_withAllMarks (blocks : List Nat) (s : State) :
    core { s with smc := blocks.foldl (fun m b => markBlock .cipher b m) s.smc } = core s := by
  induction blocks generalizing s with
  | nil => rfl
  | cons b rest ih =>
    have := ih { s with smc := markBlock .cipher b s.smc }
    rw [core_withMarks] at this
    exact this

theorem keeps_findTampered (q : ReadRequest) (place : BandPlace) : KeepsAll (findTampered q place) := by
  intro s
  simp only [findTampered]
  exact Keeps.then_ite (keeps_raiseJobFault _) (Keeps.trans (Keeps.of_core (core_withAllMarks _ s)) (keeps_flagPage _ _ _))

theorem keeps_judgeRead (q : ReadRequest) (place : BandPlace) (retries weakLimit : Nat) (r : BandRead) (s : State) :
    Keeps s (judgeRead q place retries weakLimit r s).2 := by
  simp only [judgeRead]
  have e : core ((placeBlocks place).foldl (findWeak weakLimit (codewordsRead place retries r).1) s) = core s :=
    core_foldl (fun s b => core_findWeak _ _ s b) _ s
  refine Keeps.trans (Keeps.of_core e) ?_
  split
  · exact keeps_findUnreadable _ _ _
  · split
    · exact Keeps.rfl' _
    · split
      · exact Keeps.rfl' _
      · exact keeps_findTampered _ _ _

theorem keeps_advanceStaging (j : Job) (e : StagingEntry) (side band : Nat) (plain : List Byte) (s : State) :
    Keeps s (advanceStaging j e side band plain s).2 := by
  intro h
  simp only [advanceStaging]
  split
  · rw [core_beginRead h.toHoldersOk]
    exact h
  · exact h

theorem keeps_handResult (q : ReadRequest) (result : ReadResult) : KeepsAll (handResult q result) := by
  intro s
  unfold handResult
  split
  · exact Keeps.rfl' s
  · split
    · unfold stagingTakes
      split
      · split
        · exact (keeps_advanceStaging _ _ _ _ _ s).trans (Keeps.of_core (core_withPath _ _))
        · exact Keeps.of_core (core_withPath _ _)
        · exact Keeps.rfl' s
      · exact Keeps.rfl' s
    · unfold exportTakes
      split
      · exact Keeps.of_core (core_withPhase s _)
      · exact keeps_stallActive _ _ _ s
      · exact Keeps.rfl' s

theorem core_endPortFlight (s : State) : core (endPortFlight s) = { core s with flight := none } := rfl

theorem keeps_endPortFlight : KeepsAll endPortFlight := fun _ h => h.landed

/-! ### Programs -/

theorem core_remapBlock {b : Nat} {s t : State} (e : remapBlock b s = some t) :
    ∃ d : Defects, d.clean = (core s).defects.clean ∧ d.retired = (core s).defects.retired
      ∧ core t = { core s with defects := d, stored := d :: (core s).stored } := by
  simp only [remapBlock] at e
  split at e
  · rename_i spare _ _
    obtain rfl := Option.some.inj e
    refine ⟨{ s.smc.defects with remap := s.smc.defects.remap ++ [(b, spare)] }, rfl, rfl, ?_⟩
    rw [← core_setDefects]
    split <;> rfl
  · cases e

theorem ok_remapBlock {b : Nat} {s t : State} (h : CoreOk (core s)) (e : remapBlock b s = some t) : CoreOk (core t) := by
  obtain ⟨d, hc, hr, k⟩ := core_remapBlock e
  rw [k]
  refine h.remapped d hc hr _ fun x hx => ?_
  rcases List.mem_cons.mp hx with rfl | hx
  · have := h.defects
    simpa only [DefectsOk, hc, hr] using this
  · exact h.stored x hx

/-- What a failure finds: a part with nothing in flight and no programming image, and the image's block of its job. -/
structure Failed (s : State) (p : ProgrammingImage) : Prop where
  ok : CoreOk (core s)
  landed : s.smc.inFlight = none
  none : s.smc.programming = none
  owns : (core s).OwnsBlock p.handle p.block
  other : ∀ x y, (core s).filling = some (x, y) → y ≠ p.block

theorem ok_firstFailure {s : State} {p : ProgrammingImage} (f : Failed s p) : CoreOk (core (firstFailure p s)) := by
  have hfl : (core s).flight = none := by simp [core, f.landed]
  have hpr : (core s).programs = [] := f.ok.none_waits (by simp [core, f.none])
  unfold firstFailure
  split
  · rename_i t ht
    obtain ⟨d, _, _, k⟩ := core_remapBlock ht
    have ok := ok_remapBlock f.ok ht
    rw [core_enterProgram]
    have e : core { t with smc := { t.smc with programming := some { p with second := true, phase := .waiting } } }
        = { core t with programming := some (p.handle, p.block, .waiting) } := rfl
    have ep : (core t).programs = [] := by rw [k]; exact hpr
    have := ok.kept (g := p.handle) (b := p.block) (by rw [k]; exact hfl) (by rw [k]; exact f.owns) (by rw [k]; exact f.other) .waiting
      [(p.handle, p.block)] (.inr ⟨rfl, rfl⟩)
    rw [e]
    simp only [ep, List.nil_append]
    exact this
  · dsimp only
    have e : core { s with smc := { s.smc with programming := some { p with phase := .needsBlock } } }
        = { core s with programming := some (p.handle, p.block, .needsBlock), programs := [] } := by
      rw [← hpr]
      rfl
    have ok := f.ok.kept hfl f.owns f.other .needsBlock [] (.inl rfl)
    rw [← e] at ok
    split
    · rename_i u hu
      exact ok_moveImage ok hu
    · split
      · exact ok
      · exact (Keeps.of_core (core_withJt _ _ rfl rfl rfl)) ok

theorem holders_retired {c : Core} (h : HoldersOk c) (defects : Defects) (stored : List Defects) :
    HoldersOk { c with defects := defects, stored := stored } :=
  ⟨h.gen, h.handle, h.nodup, h.waiting, h.active, h.dead, h.origin⟩

/-- The close of a job of which a block has just been retired, with no image of it in the buffer but the filling one. -/
theorem ok_closeRetired {u : State} (h : CoreOk (core u)) (hf : (core u).flight = none)
    (hp : (core u).programming = none) {s : State} {g b : Nat} (ho : (core u).OwnsBlock g b)
    (e : core s = { core u with defects := retiredWith b (core u).defects, stored := retiredWith b (core u).defects :: (core u).stored }) (outcome : JobOutcome) :
    CoreOk (core (closeJob outcome g s)) := by
  have hh : HoldersOk (core s) := e ▸ holders_retired h.toHoldersOk _ _
  obtain ⟨k, hk, hb⟩ := ho
  have hb' : b < Config.logicalBlocks ∧ b ∉ (core u).defects.clean := by
    have m : b ∈ (core u).allocated := Core.OwnsBlock.allocated ⟨k, hk, hb⟩
    exact ⟨h.lt (Core.mem_blocks.mpr (.inr (.inl m))), fun x => (h.allocated_not m).1 ((h.clean b).mp x)⟩
  obtain ⟨j, hj, rfl⟩ := jobOf_of_has hh (show (core s).Has g k by rw [e]; exact hk)
  have hl : isLive j = true := by
    rw [← isLive_holder]
    exact h.live hk hb
  have hg : j.handle = g := handle_of_jobOf hh hj
  have gone : Gone (core u) g (leftQueues j (core u).queue) := by
    have := gone_leavePlace h (j := j) (hg.symm ▸ hk)
    rwa [hg] at this
  have images : ImagesClosed (core u) g j (core (closeImages g (zeroize (slotOf g) s))) := by
    have pn : (zeroize (slotOf g) s).smc.programming = none := by
      have : (core s).programming = none := by rw [e]; exact hp
      simpa [core] using this
    have ec : closeImages g (zeroize (slotOf g) s) = unfill g (zeroize (slotOf g) s) := by
      have pu : (unfill g (zeroize (slotOf g) s)).smc.programming = none := by
        unfold unfill
        split
        · exact pn
        · exact pn
      show (match (unfill g (zeroize (slotOf g) s)).smc.programming with
        | some p => _
        | none => unfill g (zeroize (slotOf g) s)) = _
      rw [pu]
    rw [ec, core_unfill, core_zeroize, e]
    refine ⟨_, _, otherFilling g (core u), (core u).programming, (core u).programs, rfl, .inr ⟨hf, b, hb, rfl⟩, fun d hd => ?_, otherFilling_spec,
      (fun y b ph k => by rw [hp] at k; cases k), fun n => absurd hf n, .inr ⟨rfl, rfl⟩⟩
    rcases List.mem_cons.mp hd with rfl | hd
    · exact h.defects.retiredWith hb'.1 hb'.2
    · exact h.stored d hd
  have key := ok_closeCore_of h outcome hj hl hk images gone
  unfold closeJob
  rw [hj]
  simp only [hl, if_true]
  split
  · exact keeps_haltPart _ _ key
  · exact keeps_reportScrubbed _ _ key

theorem ok_secondFailure {s : State} {p : ProgrammingImage} (f : Failed s p) : CoreOk (core (secondFailure p s)) := by
  have hs : ({ s with smc := { s.smc with programming := none } } : State) = s := by
    have := f.none
    obtain ⟨_, _, _, _, _, _, _, _, _, ⟨_, _, _, _, _, _, pr, _, _, _⟩, _, _, _, _, _, _, _⟩ := s
    simp only at this
    subst this
    rfl
  simp only [secondFailure, hs]
  split
  · rename_i t ht
    exact keeps_abortJob _ _ _ _ _ _ (ok_remapBlock f.ok ht)
  · have k := core_retireBlock .program p.block s
    have hh : HoldersOk (core (retireBlock .program p.block s)) := k ▸ holders_retired f.ok.toHoldersOk _ _
    exact ok_closeRetired f.ok (by simp [core, f.landed]) (by simp [core, f.none]) f.owns
      (by rw [core_raiseJobFault hh, k]) _

/-! ### Blocks that leave the scrub list -/

theorem core_endWork (s : State) : core (endWork s) = { core s with work := none } := rfl

theorem keeps_leftScrub (block : Nat) {s : State} {e : ScrubEntry} (he : s.se.list.find? (·.block == block) = some e)
    (h : CoreOk (core { s with se := { s.se with list := s.se.list.filter (·.block != block) } })) :
    CoreOk (core (leaveScrub block s)) := by
  unfold leaveScrub
  rw [he]
  dsimp only
  split
  · exact keeps_reportScrubbed _ _ h
  · exact h
  · exact h

theorem find_block {block : Nat} {l : List ScrubEntry} (h : block ∈ l.map (·.block)) : ∃ e, l.find? (·.block == block) = some e := by
  obtain ⟨e, he, rfl⟩ := List.mem_map.mp h
  exact Option.isSome_iff_exists.mp (List.find?_isSome.mpr ⟨e, he, by simp⟩)

theorem ok_retireScrubbed {s : State} (h : CoreOk (core s)) (hf : (core s).flight = none) {block : Nat}
    (hb : block ∈ (core s).list.map (·.block)) (hw : (core s).work ≠ some block) (cause : RetireCause) :
    CoreOk (core (retireScrubbed cause block s)) := by
  unfold retireScrubbed
  obtain ⟨e, he⟩ := find_block hb
  have k := core_retireBlock cause block s
  have hl : (countRetired (retireBlock cause block s)).se.list = s.se.list := rfl
  refine keeps_leftScrub block (e := e) (by rw [hl]; exact he) ?_
  have key := h.scrubRetired hf hb (w := (core s).work) (.inr ⟨rfl, hw⟩)
  have : core { countRetired (retireBlock cause block s) with se := { (countRetired (retireBlock cause block s)).se with
        list := (countRetired (retireBlock cause block s)).se.list.filter (·.block != block) } }
      = { core (retireBlock cause block s) with list := (core s).list.filter (·.block != block) } := rfl
  rw [this, k]
  exact key

theorem endWork_reportScrubbed (handle : Nat) (s : State) : endWork (reportScrubbed handle s) = reportScrubbed handle (endWork s) := by
  have e : endWork (freeSlot handle s) = freeSlot handle (endWork s) := by
    simp only [freeSlot, show (endWork s).jt = s.jt from rfl]
    split
    · split <;> rfl
    · rfl
  show endWork (if s.fm.part = .running && !jobOnScrub s.se handle then freeSlot handle s else s)
    = if s.fm.part = .running && !jobOnScrub s.se handle then freeSlot handle (endWork s) else endWork s
  rw [← e]
  split <;> rfl

theorem endWork_leaveScrub (block : Nat) (s : State) : endWork (leaveScrub block s) = leaveScrub block (endWork s) := by
  simp only [leaveScrub, show (endWork s).se.list = s.se.list from rfl]
  split
  · rfl
  · split
    · exact endWork_reportScrubbed _ _
    · rfl
    · rfl

theorem endWork_retireScrubbed (cause : RetireCause) (block : Nat) (s : State) :
    endWork (retireScrubbed cause block s) = retireScrubbed cause block (endWork s) :=
  endWork_leaveScrub _ _

theorem ok_closedJobFailure {s : State} (h : CoreOk (core s)) (hf : (core s).flight = none) {block : Nat}
    (hb : block ∈ (core s).list.map (·.block)) : CoreOk (core (closedJobFailure block s)) := by
  unfold closedJobFailure
  split
  · rename_i t ht
    exact ok_remapBlock h ht
  · dsimp only
    split
    · have e : core { s with
          se := { s.se with work := none }
          smc := { s.smc with ops := s.smc.ops.filter (· != .erase block) } } = { core s with work := none } := by
        refine Core.ext rfl rfl rfl rfl rfl rfl rfl rfl rfl ?_ rfl rfl rfl rfl
        refine programs_filter s.smc.ops _ fun op k => ?_
        cases op <;> simp_all [programOf]
      exact ok_retireScrubbed (e ▸ h.workless) (by rw [e]; exact hf) (by rw [e]; exact hb) (by rw [e]; exact fun k => nomatch k) _
    · rename_i n
      refine ok_retireScrubbed h hf hb (fun k => n ?_) _
      have k' : s.se.work.map (·.block) = some block := k
      cases w : s.se.work with
      | none => rw [w] at k'; cases k'
      | some x =>
        rw [w] at k'
        simpa using k'

theorem readJobLive_false {s : State} (h : HoldersOk (core s)) {g : Nat} (n : ¬ readJobLive s g = true) {j : Holder}
    (hj : (core s).Has g j) : j.live = false := by
  obtain ⟨x, hx, rfl⟩ := jobOf_of_has h hj
  rw [isLive_holder]
  simpa [readJobLive, hx] using n

theorem readJobLive_true {s : State} (h : HoldersOk (core s)) {g : Nat} (n : readJobLive s g = true) :
    ∃ j, (core s).Has g j ∧ j.live = true := by
  cases hx : jobOf s.jt g with
  | none => simp [readJobLive, hx] at n
  | some x =>
    refine ⟨holderOf x, has_of_jobOf h hx, ?_⟩
    rw [isLive_holder]
    simpa [readJobLive, hx] using n

theorem ok_endProgram {s : State} (h : CoreOk (core s)) {handle block : Nat} (hf : (core s).flight = some (handle, block))
    (second ok : Bool) : CoreOk (core (endProgram handle block second ok s)) := by
  simp only [endProgram]
  have ended : CoreOk (core { endPortFlight s with smc := { (endPortFlight s).smc with programming := none } }) := h.ended hf
  have hl : readJobLive { endPortFlight s with smc := { (endPortFlight s).smc with programming := none } } handle = readJobLive s handle := rfl
  obtain ⟨-, hc⟩ := h.flight handle block hf
  rw [hl]
  split
  · rename_i live
    obtain ⟨j, hj, jl⟩ := readJobLive_true h.toHoldersOk live
    have own : (core s).OwnsBlock handle block ∧ (∀ g b', (core s).filling = some (g, b') → b' ≠ block)
        ∧ ∀ g b' ph, (core s).programming = some (g, b', ph) → g = handle ∧ b' = block := by
      refine hc.resolve_left fun m => ?_
      obtain ⟨k, hk, n⟩ := h.origin _ m handle rfl
      rw [hk.unique hj, jl] at n
      cases n
    cases hp : (endPortFlight s).smc.programming with
    | none => exact ended
    | some p =>
      have he := own.2.2 p.handle p.block p.phase (by
        show s.smc.programming.map _ = _
        rw [show s.smc.programming = some p from hp]
        rfl)
      have f : Failed { endPortFlight s with smc := { (endPortFlight s).smc with programming := none } } p :=
        ⟨ended, rfl, rfl, by rw [he.1, he.2]; exact own.1, by rw [he.2]; exact own.2.1⟩
      dsimp only
      split
      · exact ended
      · split
        · exact ok_secondFailure f
        · exact ok_firstFailure f
  · rename_i dead
    split
    · exact ended
    · refine ok_closedJobFailure ended rfl ?_
      refine hc.elim (fun m => List.mem_map.mpr ⟨_, m, rfl⟩) fun m => ?_
      obtain ⟨j, hj, mb⟩ := m.1
      have := readJobLive_false h.toHoldersOk dead hj
      rw [h.live hj mb] at this
      cases this

/-! ### Erases and verifies -/

theorem ok_workOn {s : State} (h : CoreOk (core s)) {block : Nat} (hb : block ∈ (core s).list.map (·.block)) (verifying second : Bool) :
    CoreOk (core (workOn block verifying second s)) := by
  unfold workOn
  rw [core_enterOther (by cases verifying <;> rfl)]
  exact h.worked hb

/-- What the end of a pass of the block in work finds. -/
structure InWork (s : State) (w : BlockInWork) : Prop where
  ok : CoreOk (core s)
  landed : (core s).flight = none
  listed : w.block ∈ (core s).list.map (·.block)

theorem ok_retireWorked {s : State} {w : BlockInWork} (f : InWork s w) (cause : RetireCause) :
    CoreOk (core (endWork (retireScrubbed cause w.block s))) := by
  rw [endWork_retireScrubbed]
  exact ok_retireScrubbed (s := endWork s) f.ok.workless f.landed f.listed (fun k => nomatch k) cause

theorem ok_failedPass {s : State} {w : BlockInWork} (f : InWork s w) : CoreOk (core (failedPass w s)) := by
  unfold failedPass
  split
  · exact ok_workOn f.ok f.listed _ _
  · split
    · rename_i t ht
      obtain ⟨d, _, _, k⟩ := core_remapBlock ht
      exact ok_workOn (ok_remapBlock f.ok ht) (by rw [k]; exact f.listed) _ _
    · exact ok_retireWorked f _

theorem ok_returnClean {s : State} {w : BlockInWork} (f : InWork s w) : CoreOk (core (returnClean w.block s)) := by
  simp only [returnClean]
  obtain ⟨e, he⟩ := find_block f.listed
  refine keeps_leftScrub w.block (e := e) he ?_
  have k := congrArg Core.stored (core_setDefects { s.smc.defects with clean := insertNumber w.block s.smc.defects.clean } s)
  have key := f.ok.returned f.landed f.listed
  refine Eq.mp (congrArg CoreOk ?_) key
  exact Core.ext rfl rfl rfl rfl rfl rfl rfl rfl rfl rfl rfl (by exact k.symm) rfl rfl

theorem ok_endErase {s : State} {w : BlockInWork} (f : InWork s w) (ok : Bool) : CoreOk (core (endErase w ok s)) := by
  unfold endErase
  split
  · exact ok_retireWorked f _
  · split
    · exact ok_workOn f.ok f.listed _ _
    · exact ok_failedPass f

theorem ok_endVerify {s : State} {w : BlockInWork} (f : InWork s w) (ok : Bool) : CoreOk (core (endVerify w ok s)) := by
  unfold endVerify
  split
  · exact ok_retireWorked f _
  · split
    · exact ok_returnClean f
    · exact ok_failedPass f

theorem inWork {s : State} (h : CoreOk (core s)) {w : BlockInWork} (hw : s.se.work = some w) : InWork (endPortFlight s) w :=
  ⟨keeps_endPortFlight s h, rfl, h.work w.block (by simp [core, hw])⟩

/-! ### The end of an exported band -/

theorem keeps_bandSent (b : ExportBand) {j : Job} {s : State} (hj : activeJob s .exporter = some j) : Keeps s (bandSent b j s) := by
  intro h
  obtain ⟨has, hs, hd⟩ := activeJob_spec h hj
  have hjob : jobOf s.jt j.handle = some j := by
    unfold activeJob at hj
    cases k : (queueOf s.jt .exporter).active with
    | none => rw [k] at hj; cases hj
    | some x =>
      rw [k] at hj
      have := handle_of_jobOf h.toHoldersOk hj
      rw [this]
      exact hj
  simp only [bandSent]
  generalize hj' : (if b.lastBand = true then countPage b.page j else j) = j'
  have ho : holderOf j' = holderOf j := by
    subst hj'
    split <;> rfl
  have hh : j'.handle = j.handle := congrArg Holder.handle ho
  have e : core (setJob j' { s with jt := { s.jt with exportPhase := .idle } }) = core s := by
    have h0 : CoreOk (core { s with jt := { s.jt with exportPhase := .idle } }) := (core_withPhase s .idle).symm ▸ h
    rw [core_setJob_same h0.toHoldersOk (handle := j.handle) (j := j) hjob ho, core_withPhase]
  have h1 : CoreOk (core (setJob j' { s with jt := { s.jt with exportPhase := .idle } })) := e ▸ h
  have st : j'.state = .active := (congrArg Holder.state ho).trans hs
  have has1 : (core (setJob j' { s with jt := { s.jt with exportPhase := .idle } })).Has j'.handle (holderOf j') := by
    rw [e, ho, hh]
    exact has
  split
  · exact keeps_closeJob _ _ _ h1
  · split
    · rw [leavePlace_active st]
      exact ok_stallJob h1 _ has1 (by simp [isLive, st]) rfl
    · split
      · exact h1
      · have k := core_beginRead h1.toHoldersOk .exporter j'.handle b.page (b.index + 1)
        split
        · rename_i x u hu
          have : u = (beginRead .exporter j'.handle b.page (b.index + 1)
            (setJob j' { s with jt := { s.jt with exportPhase := .idle } })).2 := by rw [hu]
          exact keeps_stallActive _ _ _ _ (by rw [this, k]; exact h1)
        · rename_i u hu
          have : u = (beginRead .exporter j'.handle b.page (b.index + 1)
            (setJob j' { s with jt := { s.jt with exportPhase := .idle } })).2 := by rw [hu]
          rw [core_withPhase, this, k]
          exact h1

end Sys2Proof.Machine
end

