-- ==== Sys2Proof/Laws/BlocksStartUp.lean ====
section
/-! SUPPORT. Power, reset and start-up, and the ends of the cartridge bus, keep the blocks' invariant. -/

namespace Sys2Proof.Machine

/-! ### The contents of DEFECTS the store holds -/

/-- Store writes change nothing of what the store holds of DEFECTS but what they name. -/
theorem mem_storedDefects {ps : Store} {d : Defects} : d ∈ storedDefects ps ↔
    storedDefects.defectsOf ps.defects = some d ∨ ∃ before, .defects before ∈ ps.journal ∧ storedDefects.defectsOf before = some d := by
  unfold storedDefects
  rw [List.mem_append, Option.mem_toList, List.mem_filterMap]
  refine or_congr Iff.rfl ⟨fun ⟨w, hw, e⟩ => ?_, fun ⟨b, hb, e⟩ => ⟨_, hb, e⟩⟩
  cases w with
  | defects before => exact ⟨before, hw, e⟩
  | _ => cases e

/-- The journal is emptied: the content that stands is among those held before. -/
theorem stored_standing {ps : Store} {d : Defects} (h : d ∈ storedDefects { ps with journal := [] }) : d ∈ storedDefects ps := by
  rw [mem_storedDefects] at h ⊢
  rcases h with h | ⟨_, h, _⟩
  · exact .inl h
  · cases h

theorem stored_undone (ws : List StoreWrite) {ps : Store} (hw : ∀ w ∈ ws, w ∈ ps.journal) :
    (ws.foldl undoWrite ps).journal = ps.journal
      ∧ ∀ d, storedDefects.defectsOf (ws.foldl undoWrite ps).defects = some d → d ∈ storedDefects ps := by
  induction ws generalizing ps with
  | nil => exact ⟨rfl, fun d k => mem_storedDefects.mpr (.inl k)⟩
  | cons w rest ih =>
    have hj : (undoWrite ps w).journal = ps.journal := by cases w <;> rfl
    have := ih (ps := undoWrite ps w) fun x hx => by rw [hj]; exact hw x (List.mem_cons_of_mem _ hx)
    refine ⟨this.1.trans hj, fun d k => ?_⟩
    have k := mem_storedDefects.mp (this.2 d k)
    rw [hj] at k
    rw [mem_storedDefects]
    refine k.elim (fun k => ?_) .inr
    cases w with
    | defects before => exact .inr ⟨before, hw _ (List.mem_cons_self ..), k⟩
    | _ => exact .inl k

theorem stored_cut (cut : StoreCut) (ps : Store) {d : Defects} (h : d ∈ storedDefects (cutStore cut ps)) : d ∈ storedDefects ps := by
  rw [mem_storedDefects] at h
  rcases h with h | ⟨_, h, _⟩
  · have u := stored_undone (ps.journal.take cut.undone) (ps := ps) fun w hw => List.mem_of_mem_take hw
    refine u.2 d ?_
    simp only [cutStore] at h
    cases k : (if cut.torn = true then (ps.journal.drop cut.undone).head? else none) with
    | none => rw [k] at h; exact h
    | some w =>
      rw [k] at h
      cases w <;> first | exact h | cases h
  · cases h

/-! ### Events and time -/

theorem core_withStore (s : State) (ps : Store) : core { s with ps := ps } = { core s with stored := storedDefects ps } := rfl

theorem ok_stored {s : State} (h : CoreOk (core s)) {ps : Store} (hs : ∀ d ∈ storedDefects ps, d ∈ storedDefects s.ps) :
    CoreOk (core { s with ps := ps }) :=
  h.storing _ fun d hd => h.stored d (hs d hd)

theorem core_beginJobs (s : State) : core { s with jt := { s.jt with closedNow := [] } } = core s := by
  refine Core.ext rfl rfl (funext fun d => ?_) rfl rfl rfl rfl rfl rfl rfl rfl rfl rfl rfl
  cases d <;> rfl

theorem keeps_beginEvent (c : Instr) : KeepsAll (beginEvent c) := by
  intro s h
  unfold beginEvent
  rw [← core_beginJobs s] at h
  split
  · exact h
  · exact h
  · exact ok_stored h fun _ => stored_standing

theorem keeps_tick : KeepsAll tick := by
  intro s h
  unfold tick
  split
  · exact h.storing _ fun d hd => h.stored d (stored_standing hd)
  · exact h

/-! ### The beginning of a start-up -/

theorem core_afterStartUp (kept : List Entry) (s : State) :
    core (afterStartUp kept s) = Core.fresh none (storedDefects { s.ps with journal := [] }) := by
  have hv : ∀ i : Fin 64, ({} : JobTable).slots.get i = {} := fun i => by simp [Vector.get]
  refine Core.ext (funext fun i => ?_) (funext fun i => ?_) (funext fun d => by cases d <;> rfl) rfl rfl rfl rfl rfl rfl rfl rfl rfl rfl rfl
  · show (({} : JobTable).slots.get i).generation = 0
    rw [hv]
  · show (({} : JobTable).slots.get i).job.map holderOf = none
    rw [hv]
    rfl

theorem keeps_beginStartUp (wipe : Bool) (tag : Option Byte) (kept : List Entry) : KeepsAll (beginStartUp wipe tag kept) := by
  intro s h
  have e : core (beginStartUp wipe tag kept s) = { core (afterStartUp kept s) with stage := some 1 } := rfl
  rw [e, core_afterStartUp]
  exact CoreOk.fresh (.inr rfl) fun d hd => h.stored d (stored_standing hd)

theorem keeps_losePower (cut : StoreCut) : KeepsAll (losePower cut) := by
  intro s h
  have e : core (losePower cut s) = core (afterStartUp [] { s with ps := cutStore cut s.ps, lif := { s.lif with transfer := none } }) := rfl
  rw [e, core_afterStartUp]
  exact CoreOk.fresh (.inl rfl) fun d hd => h.stored d (stored_cut cut s.ps (stored_standing hd))

theorem keepsOwner_restartWith (wipe : Bool) (tag : Byte) : KeepsOwner (restartWith wipe tag) :=
  fun s => keeps_beginStartUp _ _ _ s

theorem keepsOwner_restartWipe (tag : Byte) : KeepsOwner (restartWipe tag) := by
  intro s
  unfold restartWipe
  split
  · exact keepsOwner_restartWith true tag s
  · exact Keeps.rfl' s

/-! ### The steps of a start-up -/

/-- A start-up goes on from a step to one on the same side of step 5, or there is none. -/
theorem ok_toStep {s : State} (h : CoreOk (core s)) {n : Nat} (hn : 1 ≤ n)
    (hs : ∀ m, (core s).stage = some m → (5 ≤ m ↔ 5 ≤ n)) : CoreOk (core (toStep n s)) := by
  have e : core (toStep n s) = { core s with stage := (core s).stage.map fun _ => n } := by
    simp only [toStep, core]
    cases s.startUp <;> rfl
  rw [e]
  cases k : (core s).stage with
  | none =>
    have : ({ core s with stage := none } : Core) = core s := by rw [← k]
    rw [Option.map_none, this]
    exact h
  | some m => exact h.stepped k hn (hs m k)

theorem halted_haltPart (cause : HaltCause) (s : State) : (core (haltPart cause s)).part = .halted := by
  simp only [haltPart]
  split
  · assumption
  · rw [core_askPart, core_setHaltRecord, core_reportStartUp, core_endSanitize, core_stopSpool, core_clearBus, core_releaseAll]
    let s0 : State := evaluatePermit { s with
      startUp := none
      fm := { s.fm with part := .halted, nextNumber := takeNumber s.fm % 65535 + 1 }
      bc := { s.bc with keys := Vector.replicate 64 none, serving := false } }
    exact ((Chains.foldl (fun a => reach_closeByHalt a) (((allJobs s.jt).filter isLive).map (·.handle)) s0).trans
      (reach_tellFinal (cutShort s.jt) _)).halted_stays rfl

/-- A state from which a start-up goes on, or in which a halt has ended it. -/
def Steady (s t : State) : Prop := CoreOk (core t) ∧ ((core t).stage = (core s).stage ∨ (core t).stage = none)

theorem steady_same {s t : State} (h : CoreOk (core s)) (e : core t = core s) : Steady s t := ⟨e ▸ h, .inl (congrArg Core.stage e)⟩

theorem steady_haltPart {s t : State} (h : CoreOk (core t)) (cause : HaltCause) : Steady s (haltPart cause t) := by
  have h' := keeps_haltPart cause t h
  refine ⟨h', .inr ?_⟩
  cases k : (core (haltPart cause t)).stage with
  | none => rfl
  | some n =>
    have := (h'.starting n k).1
    rw [halted_haltPart] at this
    cases this

theorem Steady.toStep {s t : State} (k : Steady s t) {n : Nat} (hn : 1 ≤ n)
    (hs : ∀ m, (core s).stage = some m → (5 ≤ m ↔ 5 ≤ n)) : CoreOk (core (toStep n t)) :=
  ok_toStep k.1 hn fun m hm => k.2.elim (fun e => hs m (e ▸ hm)) fun e => by rw [e] at hm; cases hm

@[simp] theorem core_noteResult (f : CheckResults → CheckResults) (s : State) : core (noteResult f s) = core s := rfl

@[simp] theorem core_takeInitialLevels (s : State) : core (takeInitialLevels s) = core s := rfl

@[simp] theorem core_withLoadedKeys (s : State) (k : Option KeysContent) : core { s with ps := { s.ps with loadedKeys := k } } = core s := rfl

theorem core_checkHalt (damaged : List PartitionId) (s : State) : core (checkHalt damaged s) = core s := by
  unfold checkHalt
  split
  · rfl
  · rfl
  · rw [core_noteResult, core_askPart, core_setHaltRecord]

theorem core_checkSettings (damaged : List PartitionId) (s : State) : core (checkSettings damaged s) = core s := by
  unfold checkSettings
  rw [core_takeInitialLevels]
  split
  · rw [core_noteResult, core_setSettings]
  · rfl
  · rw [core_noteResult, core_raiseNote, core_setSettings]

theorem core_checkHistory (damaged : List PartitionId) (s : State) : core (checkHistory damaged s) = core s := by
  unfold checkHistory
  split
  · rfl
  · rfl
  · rw [core_noteResult, core_raiseNote, core_setHistory]

/-- The invariant stands behind a check where it stands behind what follows it and behind the halt. -/
theorem ok_checkAccounts {damaged : List PartitionId} {after : State → State} {s : State} (h : CoreOk (core s))
    (ha : ∀ t, core t = core s → CoreOk (core (after t))) : CoreOk (core (checkAccounts damaged after s)) := by
  unfold checkAccounts
  split
  · exact ha _ rfl
  · exact ha _ rfl
  · exact keeps_haltPart _ _ h

theorem ok_checkKeys {damaged : List PartitionId} {after : State → State} {s : State} (h : CoreOk (core s))
    (ha : ∀ t, core t = core s → CoreOk (core (after t))) : CoreOk (core (checkKeys damaged after s)) := by
  unfold checkKeys
  split
  · exact ha _ rfl
  · exact ha _ rfl
  · exact keeps_haltPart _ _ h

theorem ok_checkDefects {damaged : List PartitionId} {after : State → State} {s : State} (h : CoreOk (core s))
    (ha : ∀ t, core t = core s → CoreOk (core (after t))) : CoreOk (core (checkDefects damaged after s)) := by
  unfold checkDefects
  split
  · exact ha _ rfl
  · exact ha _ rfl
  · exact keeps_haltPart _ _ h

theorem ok_checkStore {damaged : List PartitionId} {s : State} (h : CoreOk (core s)) (hs : (core s).stage = some 1) :
    CoreOk (core (checkStore damaged s)) := by
  unfold checkStore
  have e : core (checkHistory damaged (checkSettings damaged (checkHalt damaged s))) = core s := by
    rw [core_checkHistory, core_checkSettings, core_checkHalt]
  have step : ∀ t, core t = core s → CoreOk (core (toStep 2 t)) := fun t k =>
    ok_toStep (k ▸ h) (by omega) fun m hm => by
      rw [k, hs] at hm
      obtain rfl := Option.some.inj hm
      omega
  refine ok_checkAccounts (e ▸ h) fun t k => ?_
  refine ok_checkKeys (s := t) (by rw [k, e]; exact h) fun u l => ?_
  refine ok_checkDefects (s := u) (by rw [l, k, e]; exact h) fun v m => ?_
  exact step v (by rw [m, l, k, e])

theorem stored_wiped (damaged : Bool) (ps : Store) {d : Defects} (h : d ∈ storedDefects (wipeDefects damaged ps).2)
    (ok : ∀ d ∈ storedDefects ps, DefectsOk d) : DefectsOk d := by
  unfold wipeDefects at h
  split at h
  · rename_i x hx
    have mx : x ∈ storedDefects ps := by
      rw [mem_storedDefects]
      unfold checkPartition at hx
      split at hx
      · cases hx
      · rename_i content word hp
        split at hx
        · cases hx
        · rw [hp]
          exact .inl (congrArg some (Checked.passed.inj hx))
      · cases hx
    rw [storedDefects_write] at h
    rcases List.mem_cons.mp h with rfl | h
    · have := ok x mx
      exact ⟨.nil, this.2.1, (fun _ k => nomatch k), this.2.2.2⟩
    · exact ok d h
  · exact ok d h
  · have : d ∈ storedDefects ps := by
      rw [mem_storedDefects] at h ⊢
      simp only [writeDefects, List.mem_cons, StoreWrite.defects.injEq] at h
      rcases h with h | ⟨b, rfl | hb, e⟩
      · cases h
      · exact .inl e
      · exact .inr ⟨b, hb, e⟩
    exact ok d this

theorem ok_wipeStore {damaged : List PartitionId} {s : State} (h : CoreOk (core s)) (hs : (core s).stage = some 1) :
    CoreOk (core (wipeStore damaged s)) := by
  simp only [wipeStore]
  have e : core (wipeHalt s) = core s := by
    simp only [wipeHalt]
    split
    · exact core_clearHaltRecord s
    · rw [core_askPart, core_clearHaltRecord]
  have h1 : CoreOk (core (wipeHalt s)) := e ▸ h
  have s1 : (core (wipeHalt s)).stage = some 1 := by rw [e]; exact hs
  generalize wipeHalt s = u at h1 s1
  have settle : ∀ ps : Store, (∀ d ∈ storedDefects ps, DefectsOk d) → ∀ results, CoreOk (core (toStep 2 (takeInitialLevels { u with
      settings := {}, ps := { ps with loadedKeys := some {}, results := results } }))) := fun ps hps results =>
    ok_toStep (show CoreOk { core u with stored := storedDefects ps } from h1.storing _ hps) (by omega) fun m hm => by
      have hm : (core u).stage = some m := hm
      rw [s1] at hm
      obtain rfl := Option.some.inj hm
      omega
  refine settle _ (fun d hd => stored_wiped _ _ hd fun x hx => h1.stored x ?_) _
  simpa [storedDefects, writeSettings, writeKeys, writeAccounts, writeHistory, core] using hx

/-! ### The tests -/

theorem core_testSource (s : State) : core (testSource s).2 = core s := by
  simp only [testSource]
  exact core_takeNoise s

theorem ok_drawDeviceKey {s : State} (h : CoreOk (core s)) : Steady s (drawDeviceKey s) := by
  unfold drawDeviceKey
  split
  · exact steady_same h rfl
  · split
    · rename_i test t ht
      have e : core t = core s := by rw [show t = (draw32 s).2 by rw [ht], core_draw32]
      exact steady_haltPart (e ▸ h) _
    · rename_i key t ht
      have e : core t = core s := by rw [show t = (draw32 s).2 by rw [ht], core_draw32]
      exact steady_same h (by rw [core_setKeys, e])

theorem ok_runTests {cipherOk : Bool} {s : State} (h : CoreOk (core s)) (hs : (core s).stage = some 2) :
    CoreOk (core (runTests cipherOk s)) := by
  unfold runTests
  split
  · exact keeps_haltPart _ _ h
  · split
    · rename_i test t ht
      have e : core t = core s := by rw [show t = (testSource s).2 by rw [ht], core_testSource]
      exact keeps_haltPart _ _ (e ▸ h)
    · rename_i t ht
      have e : core t = core s := by rw [show t = (testSource s).2 by rw [ht], core_testSource]
      have e' : core { t with bc := { t.bc with serving := true } } = core s := e
      refine (ok_drawDeviceKey (e' ▸ h)).toStep (by omega) fun m hm => ?_
      rw [e', hs] at hm
      obtain rfl := Option.some.inj hm
      omega

/-! ### Loading -/

theorem ok_loadAccounts {s : State} (h : CoreOk (core s)) (hs : (core s).stage = some 3) : CoreOk (core (loadAccounts s)) := by
  simp only [loadAccounts]
  have go : ∀ t, core t = core s → CoreOk (core (toStep 4 t)) := fun t k =>
    ok_toStep (k ▸ h) (by omega) fun m hm => by
      rw [k, hs] at hm
      obtain rfl := Option.some.inj hm
      omega
  split
  · exact go _ rfl
  · exact go _ (core_setAccounts _ s)

theorem ok_contentOf {s : State} (h : CoreOk (core s)) : DefectsOk (contentOf {} s.ps.defects) := by
  unfold contentOf
  split
  · rename_i d w hp
    exact h.stored d (mem_storedDefects.mpr (.inl (by rw [hp]; rfl)))
  · exact ⟨.nil, .nil, (fun _ k => nomatch k), fun _ k => nomatch k⟩
  · exact ⟨.nil, .nil, (fun _ k => nomatch k), fun _ k => nomatch k⟩

theorem ok_buildSpool {s : State} (h : CoreOk (core s)) (hs : (core s).stage = some 4) : CoreOk (core (buildSpool s)) := by
  have key := h.builtUp hs (by omega) (ok_contentOf h)
  refine Eq.mp (congrArg CoreOk ?_) key
  have hu : s.startUp.map (·.step) = some 4 := hs
  refine Core.ext rfl rfl rfl rfl rfl rfl rfl rfl rfl rfl rfl rfl rfl ?_
  simp only [core, buildSpool, toStep]
  cases k : s.startUp with
  | none => rw [k] at hu; cases hu
  | some u => rfl

theorem ok_loadCartridges {s : State} (h : CoreOk (core s)) (hs : (core s).stage = some 5) : CoreOk (core (loadCartridges s)) := by
  simp only [loadCartridges]
  refine keeps_settle _ (ok_toStep (by rw [core_queueAll, core_withBus]; exact h) (by omega) fun m hm => ?_)
  rw [core_queueAll, core_withBus, hs] at hm
  obtain rfl := Option.some.inj hm
  omega

theorem ok_clearPath {s : State} (h : CoreOk (core s)) (hs : (core s).stage = some 6) : CoreOk (core (clearPath s)) := by
  refine ok_toStep (by rw [core_withPath]; exact h) (by omega) fun m hm => ?_
  rw [core_withPath, hs] at hm
  obtain rfl := Option.some.inj hm
  omega

theorem ok_enterRunning {s : State} (h : CoreOk (core s)) {m : Nat} (hs : (core s).stage = some m) (hm : 5 ≤ m) :
    CoreOk (core (enterRunning s)) := by
  have key := h.running hs hm
  simp only [enterRunning]
  refine keeps_settle _ ?_
  rw [core_reportStartUp, core_askPart]
  have e : core (evaluatePermit { s with startUp := none, fm := { s.fm with part := .running } })
      = { core s with stage := none, part := .running } := rfl
  split
  · rw [core_raiseNote, e]
    exact key
  · rw [e]
    exact key

theorem ok_endStep {s : State} (h : CoreOk (core s)) {u : StartUp} (hu : s.startUp = some u) (finding : StepFinding) :
    CoreOk (core (endStep u finding s)) := by
  have hs : (core s).stage = some u.step := by simp [core, hu]
  have h1 := (h.starting _ hs).2
  unfold endStep
  split
  · rename_i k
    rw [k] at hs
    split
    · exact ok_wipeStore h hs
    · exact ok_checkStore h hs
  · rename_i k
    exact ok_runTests h (k ▸ hs)
  · rename_i k
    exact ok_loadAccounts h (k ▸ hs)
  · rename_i k
    exact ok_buildSpool h (k ▸ hs)
  · rename_i k
    exact ok_loadCartridges h (k ▸ hs)
  · rename_i k
    exact ok_clearPath h (k ▸ hs)
  · rename_i n1 n2 n3 n4 n5 n6
    have h2 : u.step ≠ 1 ∧ u.step ≠ 2 ∧ u.step ≠ 3 ∧ u.step ≠ 4 := ⟨n1, n2, n3, n4⟩
    exact ok_enterRunning h hs (by omega)

/-! ### The ends of the cartridge bus -/

theorem core_endEmpty (i : Fin 4) (s : State) : core (endEmpty i s) = core s := by
  simp only [endEmpty]
  rw [core_setVerification, core_putSlot, core_dropFigures, core_ceaseVerified, core_endFlight]

theorem keeps_takeRecord (i : Fin 4) (record : List Byte) : KeepsAll (takeRecord i record) := by
  intro s
  unfold takeRecord
  split
  · exact Keeps.of_core (by rw [core_rejectRead, core_endFlight])
  · split
    · exact Keeps.of_core (by rw [core_rejectRead, core_endFlight])
    · split
      · exact Keeps.of_core (by rw [core_rejectRead, core_endFlight])
      · split
        · rename_i test t ht
          exact (Keeps.of_core (show core t = core s by rw [show t = (draw16 s).2 by rw [ht], core_draw16])).trans (keeps_haltPart _ _)
        · rename_i nonce t ht
          have e : core t = core s := by rw [show t = (draw16 s).2 by rw [ht], core_draw16]
          exact Keeps.of_core ((core_withBus t _).trans e)

theorem keeps_takeDecrement (i : Fin 4) (amount : Nat) (ok : Bool) (level : Nat) : KeepsAll (takeDecrement i amount ok level) := by
  intro s
  simp only [takeDecrement]
  split
  · exact Keeps.of_core (by rw [core_completeWriteBack, core_putSlot, core_endFlight])
  · exact Keeps.of_core (by rw [core_endUnverified, core_putSlot, core_endFlight])

theorem keeps_failFlight : KeepsAll failFlight := by
  intro s
  unfold failFlight
  split
  · exact (Keeps.of_core (core_failTransaction _ _ s)).trans (keeps_settle _)
  · exact (Keeps.of_core (core_failTransaction _ _ s)).trans (keeps_settle _)
  · exact (Keeps.of_core (core_failTransaction _ _ s)).trans (keeps_settle _)
  · exact Keeps.rfl' s

end Sys2Proof.Machine
end

