-- ==== Sys2Proof/Laws/BlocksFrames.lean ====
section
/-! SUPPORT. The frames of the host link keep the blocks' invariant, as the requests they carry do. -/

namespace Sys2Proof.Machine

/-- Whatever owner a payload is handed to keeps the blocks' invariant. -/
def KeepsParsed (p : Parsed) : Prop := ∀ o, p = .ok o → KeepsOwner o

theorem keepsParsed_error (c : Status) : KeepsParsed (.error c) := fun _ e => nomatch e
theorem keepsParsed_ok {o : State → Answer} (h : KeepsOwner o) : KeepsParsed (.ok o) := fun _ e => (Except.ok.inj e) ▸ h
theorem keepsParsed_ofLength (n : Nat) (p : List Byte) {o : State → Answer} (h : KeepsOwner o) : KeepsParsed (ofLength n p o) := by
  unfold ofLength
  split
  · exact keepsParsed_ok h
  · exact keepsParsed_error _
theorem keepsParsed_ofOptional (f n : Nat) (p : List Byte) {o : State → Answer} (h : KeepsOwner o) : KeepsParsed (ofOptional f n p o) := by
  unfold ofOptional
  split
  · exact keepsParsed_error _
  · split
    · exact keepsParsed_error _
    · exact keepsParsed_ofLength _ _ h

theorem keepsParsed_payload (k : RequestKind) (tag : Byte) (p : List Byte) : KeepsParsed (parsePayload k tag p) := by
  cases k <;> simp only [parsePayload]
  · unfold parseAcctCreate
    split
    · exact keepsParsed_error _
    · split
      · exact keepsParsed_error _
      · exact keepsParsed_ofLength _ _ (keepsOwner_acctCreate _ _ _ _)
  · exact keepsParsed_ofLength _ _ (keepsOwner_acctDelete _)
  · exact keepsParsed_ofLength _ _ (keepsOwner_acctCredit _ _)
  · simp only [parseAcctSet]
    split
    · exact keepsParsed_error _
    · split
      · exact keepsParsed_error _
      · split
        · exact keepsParsed_error _
        · split
          · exact keepsParsed_error _
          · exact keepsParsed_ofLength _ _ (keepsOwner_acctSet _ _ _ _ _)
  · exact keepsParsed_ofLength _ _ (keepsOwner_acctRead _)
  · exact keepsParsed_ofLength _ _ (.same fun _ => rfl)
  · exact keepsParsed_ofLength _ _ (keepsOwner_acctUnlock _)
  · exact keepsParsed_ofLength _ _ (keepsOwner_countersClear _)
  · exact keepsParsed_ofLength _ _ (keepsOwner_jobOpen _ _ _ _ _ _)
  · exact keepsParsed_ofLength _ _ (keepsOwner_jobRelease _ _)
  · exact keepsParsed_ofLength _ _ (keepsOwner_jobCancel _)
  · exact keepsParsed_ofLength _ _ (keepsOwner_jobPause _)
  · exact keepsParsed_ofLength _ _ (keepsOwner_jobResume _)
  · exact keepsParsed_ofLength _ _ (keepsOwner_jobSkipPage _ _)
  · exact keepsParsed_ofLength _ _ (keepsOwner_jobRead _ _)
  · exact keepsParsed_ofLength _ _ (keepsOwner_senseSet _ _ _ _ _)
  · refine keepsParsed_ofLength _ _ ?_
    unfold doorOwner
    split
    · exact keepsOwner_doorOpen
    · split
      · exact keepsOwner_doorClosed
      · exact keepsOwner_refuse _
  · exact keepsParsed_ofLength _ _ keepsOwner_jamClear
  · exact keepsParsed_ofLength _ _ (.same fun _ => rfl)
  · exact keepsParsed_ofOptional _ _ _ (keepsOwner_priceSet _)
  · exact keepsParsed_ofOptional _ _ _ (keepsOwner_meterSet _)
  · exact keepsParsed_ofOptional _ _ _ (keepsOwner_mediaSet _ _ _)
  · exact keepsParsed_ofLength _ _ (keepsOwner_cartRead _ _)
  · exact keepsParsed_ofLength _ _ (keepsOwner_cartReauth _)
  · exact keepsParsed_ofLength _ _ (keepsOwner_policySet _)
  · split
    · exact keepsParsed_error _
    · exact keepsParsed_ok (keepsOwner_familyKeyLoad _ _)
  · refine keepsParsed_ofOptional _ _ _ (.same fun s => ?_)
    unfold spoolRead
    split <;> rfl
  · exact keepsParsed_ofLength _ _ (keepsOwner_blockRetire _)
  · exact keepsParsed_ofLength _ _ (keepsOwner_sanitize _)
  · exact keepsParsed_ofLength _ _ (.same fun _ => rfl)
  · refine keepsParsed_ofLength _ _ ?_
    unfold faultAckOwner
    split
    · exact keepsOwner_faultAck _
    · split
      · exact keepsOwner_haltRecordAck
      · exact keepsOwner_refuse _
  · exact keepsParsed_ofLength _ _ (keepsOwner_sense _)
  · exact keepsParsed_ofLength _ _ (keepsOwner_storeLock _)
  · exact keepsParsed_ofLength _ _ (keepsOwner_storeWipe _)
  · exact keepsParsed_ofLength _ _ (.same fun _ => rfl)
  · exact keepsParsed_ofOptional _ _ _ (keepsOwner_limitsSet _)
  · exact keepsParsed_ofLength _ _ (.same fun _ => rfl)
  · refine keepsParsed_ofLength _ _ ?_
    unfold restartOwner
    split
    · exact keepsOwner_restartWith _ _
    · split
      · exact keepsOwner_restartWipe _
      · exact keepsOwner_refuse _

theorem keeps_takeUnknown (tag kind : Byte) : KeepsAll (takeUnknown tag kind) := by
  intro s
  unfold takeUnknown
  split <;> exact Keeps.of_core rfl

theorem keeps_takeWrong (cause : LinkErrorCause) (tag kind : Byte) : KeepsAll (takeWrong cause tag kind) := by
  intro s; unfold takeWrong
  split
  · exact Keeps.of_core rfl
  · split <;> exact Keeps.of_core rfl

theorem keeps_takeBytes (bytes : List Byte) : KeepsAll (takeBytes bytes) := by
  intro s
  unfold takeBytes
  split
  · exact Keeps.rfl' s
  · exact keeps_takeWrong _ _ _ s
  · unfold dispatch
    split
    · exact keeps_takeUnknown _ _ s
    · split
      · exact keeps_takeUnknown _ _ s
      · split
        · split <;> exact Keeps.of_core rfl
        · rename_i o ho
          exact keeps_request (keepsParsed_payload _ _ _ _ ho) _ _ s

end Sys2Proof.Machine
end

