-- ==== Sys2Proof/Laws/Cipher.lean ====
section
/-! SUPPORT. What the band cipher of R134 keeps, said once: the length of a band, and the band itself through decryption. -/

namespace Sys2Proof.Machine

@[simp] theorem encryptBlock_length (key : Key) (tweak : Tweak) (plain : List Byte) :
    (encryptBlock key tweak plain).length = plain.length := by simp [encryptBlock]

@[simp] theorem decryptBlock_length (key : Key) (tweak : Tweak) (cipher : List Byte) :
    (decryptBlock key tweak cipher).length = cipher.length := by simp [decryptBlock]

/-- A block decrypted as a block of a vector's length, whatever list spells the vector. -/
theorem decryptBlock_toList (key : Key) (tweak : Tweak) {n : Nat} (v : Vector Byte n) :
    decryptBlock key tweak v.toList = ((Config.blockCipher key tweak n).symm v).toList := by
  obtain ⟨⟨l⟩, h⟩ := v
  subst h
  rfl

/-- Decryption inverts encryption under the same key and tweak. -/
@[simp] theorem decryptBlock_encryptBlock (key : Key) (tweak : Tweak) (plain : List Byte) :
    decryptBlock key tweak (encryptBlock key tweak plain) = plain := by
  rw [encryptBlock, decryptBlock_toList]
  simp

/-- R134: the ciphertext of the blocks has exactly their length. -/
theorem encryptFrom_length (key : Key) (page index : Nat) :
    ∀ (n i : Nat) (plain : List Byte), plain.length < 16 * n → (encryptFrom key page index n i plain).length = plain.length
  | 0, _, _, h => absurd h (by omega)
  | n + 1, i, plain, h => by
    by_cases hl : plain.drop 16 = []
    · have : plain.length ≤ 16 := by simpa using hl
      simp [encryptFrom, hl, this]
    · have h16 : 16 < plain.length := by simpa using hl
      by_cases hs : (plain.drop 16).length < 16
      · simp only [encryptFrom, hl, hs, if_true, if_false]
        simp at hs ⊢; omega
      · simp only [encryptFrom, hl, hs, if_false, List.length_append, encryptBlock_length]
        rw [encryptFrom_length key page index n (i + 1) (plain.drop 16) (by simp; omega)]
        simp; omega

/-- R134, R136: decryption inverts encryption for the same key, page, index and length. -/
theorem decryptFrom_encryptFrom (key : Key) (page index : Nat) :
    ∀ (n i : Nat) (plain : List Byte), plain.length < 16 * n →
      decryptFrom key page index n i (encryptFrom key page index n i plain) = plain
  | 0, _, _, h => absurd h (by omega)
  | n + 1, i, plain, h => by
    by_cases hl : plain.drop 16 = []
    · have hp : plain.take 16 = plain := List.take_of_length_le (by simpa using hl)
      simp only [encryptFrom, decryptFrom, hl, if_true, hp]
      have hd : (encryptBlock key ⟨page, index, i⟩ plain).drop 16 = [] := by simpa using hl
      have ht : (encryptBlock key ⟨page, index, i⟩ plain).take 16 = encryptBlock key ⟨page, index, i⟩ plain :=
        List.take_of_length_le (by simpa using hl)
      simp [hd, ht]
    · have h16 : 16 < plain.length := by simpa using hl
      by_cases hs : (plain.drop 16).length < 16
      · simp only [encryptFrom, hl, hs, if_true, if_false]
        generalize hw : encryptBlock key ⟨page, index, i⟩ (plain.take 16) = whole
        have hwl : whole.length = 16 := by rw [← hw]; simp; omega
        generalize hla : plain.drop 16 = later at *
        generalize hc : encryptBlock key ⟨page, index, i + 1⟩ (later ++ whole.drop later.length) = completed
        have hcl : completed.length = 16 := by rw [← hc]; simp [hwl]; omega
        have hpos : 0 < later.length := List.length_pos_of_ne_nil hl
        simp only [decryptFrom]
        rw [List.drop_append_of_le_length (by omega), List.take_append_of_le_length (by omega)]
        have e1 : completed.drop 16 = [] := by simp [hcl]
        have e2 : completed.take 16 = completed := List.take_of_length_le (by omega)
        have e3 : (whole.take later.length).length = later.length := by simp; omega
        have e4 : whole.take later.length ≠ [] := by
          intro h0; rw [h0] at e3; simp at e3; omega
        simp only [e1, e2, List.nil_append, e4, if_false, e3, hs, if_true]
        rw [← hc, decryptBlock_encryptBlock]
        simp only [List.drop_left, List.take_left]
        rw [List.take_append_drop, ← hw, decryptBlock_encryptBlock, ← hla, List.take_append_drop]
      · simp only [encryptFrom, hl, hs, if_false]
        generalize hw : encryptBlock key ⟨page, index, i⟩ (plain.take 16) = whole
        have hwl : whole.length = 16 := by rw [← hw]; simp; omega
        have hn : (plain.drop 16).length < 16 * n := by simp; omega
        have hr := encryptFrom_length key page index n (i + 1) (plain.drop 16) hn
        have e1 : ∀ r : List Byte, (whole ++ r).drop 16 = r := fun r => by
          rw [List.drop_append_of_le_length (by omega)]; simp [hwl]
        have e2 : ∀ r : List Byte, (whole ++ r).take 16 = whole := fun r => by
          rw [List.take_append_of_le_length (by omega)]; exact List.take_of_length_le (by omega)
        have e3 : encryptFrom key page index n (i + 1) (plain.drop 16) ≠ [] := by
          intro h0; rw [h0] at hr; simp at hr hs; omega
        simp only [decryptFrom, e1, e2, e3, if_false, hr, hs]
        rw [decryptFrom_encryptFrom key page index n (i + 1) _ hn, ← hw, decryptBlock_encryptBlock, List.take_append_drop]

/-- R134: the ciphertext of a band has exactly the band's length. -/
@[simp] theorem encryptBand_length (key : Key) (page index : Nat) (plain : List Byte) :
    (encryptBand key page index plain).length = plain.length :=
  encryptFrom_length key page index _ 0 plain (by omega)

/-- R134, R136: a band decrypts to itself for the same key, page and index. -/
@[simp] theorem decryptBand_encryptBand (key : Key) (page index : Nat) (plain : List Byte) :
    decryptBand key page index (encryptBand key page index plain) = plain := by
  rw [decryptBand, encryptBand_length]
  exact decryptFrom_encryptFrom key page index _ 0 plain (by omega)

end Sys2Proof.Machine
end

