-- ==== Sys2Proof/Laws/Notices.lean ====
section
/-! SUPPORT. What becomes of a notice in the outgoing list: it is in the list once asked for, and stays in it while those
asked for have other subjects. -/

namespace Sys2Proof.Machine

theorem mem_replaceEntry_self {sub : Subject} {n : Notice} {out : List Entry}
    (h : out.any (fun e => entrySubject e == some sub) = true) : Entry.notice n ∈ replaceEntry sub n out := by
  induction out with
  | nil => simp at h
  | cons e rest ih =>
    simp only [replaceEntry]
    split
    · simp
    · next other =>
      simp only [List.any_cons, Bool.or_eq_true, beq_iff_eq] at h
      exact List.mem_cons_of_mem _ (ih (h.resolve_left other))

theorem mem_replaceEntry_other {sub : Subject} {m : Notice} {e : Entry} {out : List Entry} (h : entrySubject e ≠ some sub)
    (he : e ∈ out) : e ∈ replaceEntry sub m out := by
  induction out with
  | nil => exact he
  | cons x rest ih =>
    simp only [replaceEntry]
    split
    · next hx =>
      rcases List.mem_cons.mp he with rfl | he
      · exact absurd hx h
      · exact List.mem_cons_of_mem _ he
    · rcases List.mem_cons.mp he with rfl | he
      · simp
      · exact List.mem_cons_of_mem _ (ih he)

/-- R191: a state or completion notice asked for stands in the list. -/
theorem mem_admitNotice_self {n : Notice} {sub : Subject} (h : noticeSubject n = some sub) (l : LinkInterface) :
    Entry.notice n ∈ (admitNotice n l).out := by
  unfold admitNotice
  rw [h]
  dsimp only
  split
  · next held => exact mem_replaceEntry_self held
  · simp [appendEntry]

/-- R191: an entry stays in the list when a notice of another subject is asked for. -/
theorem mem_admitNotice_other {e : Entry} {m : Notice} {l : LinkInterface}
    (h : ∀ sub, noticeSubject m = some sub → entrySubject e ≠ some sub)
    (he : e ∈ l.out) : e ∈ (admitNotice m l).out := by
  unfold admitNotice
  split
  · next sub hm =>
    split
    · exact mem_replaceEntry_other (h sub hm) he
    · simp [appendEntry, he]
  · split
    · simp [appendEntry, he]
    · exact he

/-- The notices of other jobs leave an entry where it is. -/
theorem mem_tellFinal_other {e : Entry} (jobs : List Job) {s : State}
    (h : ∀ j ∈ jobs, entrySubject e ≠ some (.jobSlot (slotOf j.handle)))
    (he : e ∈ s.lif.out) : e ∈ (tellFinal jobs s).lif.out := by
  induction jobs generalizing s with
  | nil => exact he
  | cons j rest ih =>
    refine ih (s := askJobState j s) (fun k hk => h k (List.mem_cons_of_mem _ hk)) (mem_admitNotice_other (fun sub hs => ?_) he)
    cases hs
    exact h j (by simp)

/-- R4: the notice of each job told stands in the list with the content of the record given, no two of the jobs in one slot. -/
theorem mem_tellFinal {jobs : List Job} (apart : jobs.Pairwise fun a b => slotOf a.handle ≠ slotOf b.handle) {j : Job}
    (hj : j ∈ jobs) (s : State) : Entry.notice (.jobState (slotOf j.handle) (jobContent j)) ∈ (tellFinal jobs s).lif.out := by
  induction jobs generalizing s with
  | nil => cases hj
  | cons a rest ih =>
    rcases List.mem_cons.mp hj with rfl | hj
    · refine mem_tellFinal_other rest (s := askJobState j s) (fun k hk e => ?_) (mem_admitNotice_self rfl _)
      exact (List.pairwise_cons.mp apart).1 k hk (Subject.jobSlot.inj (Option.some.inj e))
    · exact ih apart.tail hj (askJobState a s)

end Sys2Proof.Machine
end

