-- ==== Sys2Proof/Laws/PerInstr.lean ====
section
/-! SUPPORT. What every command keeps as syntax, one lemma for each constructor of Instr. -/

/-- A command that is a request has a kind byte that names its request again (R195), and no word of the table spells a
command (the table's rows have no bits). -/
def Sys2Proof.Laws.Carried.Statement (i : Sys2Proof.Instr) : Prop :=
  (∀ k tag, Sys2Proof.Machine.requestOf i = some (k, tag) → Sys2Proof.Machine.kindOfByte (Sys2Proof.Machine.kindByte k) = some k)
    ∧ ∀ nbits w, Sys2Proof.decodeTableWord nbits w ≠ some i

open Sys2Proof

/-- R195: every kind byte names its kind. -/
theorem Sys2Proof.Laws.kindOfByte_kindByte (k : Sys2Proof.Machine.RequestKind) :
    Sys2Proof.Machine.kindOfByte (Sys2Proof.Machine.kindByte k) = some k := by
  cases k <;> decide

theorem Sys2Proof.Laws.carried (i : Instr) : Sys2Proof.Laws.Carried.Statement i :=
  ⟨fun k _ _ => Sys2Proof.Laws.kindOfByte_kindByte k, fun _ _ h => by cases h⟩

theorem Sys2Proof.Laws.Carried.powerOn :
    Sys2Proof.Laws.Carried.Statement (.powerOn) := Sys2Proof.Laws.carried _

theorem Sys2Proof.Laws.Carried.resetInput (cut : StoreCut) :
    Sys2Proof.Laws.Carried.Statement (.resetInput cut) := Sys2Proof.Laws.carried _

theorem Sys2Proof.Laws.Carried.transferStart :
    Sys2Proof.Laws.Carried.Statement (.transferStart) := Sys2Proof.Laws.carried _

theorem Sys2Proof.Laws.Carried.transferEnd (bytes : List Byte) :
    Sys2Proof.Laws.Carried.Statement (.transferEnd bytes) := Sys2Proof.Laws.carried _

theorem Sys2Proof.Laws.Carried.linkError (cause : LinkErrorCause) (tag kind : Byte) :
    Sys2Proof.Laws.Carried.Statement (.linkError cause tag kind) := Sys2Proof.Laws.carried _

theorem Sys2Proof.Laws.Carried.linkOverrun :
    Sys2Proof.Laws.Carried.Statement (.linkOverrun) := Sys2Proof.Laws.carried _

theorem Sys2Proof.Laws.Carried.unknownKind (tag kind : Byte) :
    Sys2Proof.Laws.Carried.Statement (.unknownKind tag kind) := Sys2Proof.Laws.carried _

theorem Sys2Proof.Laws.Carried.acctCreate (tag : Byte) (id overdraft colour : Nat) (pin : Option (List Byte)) :
    Sys2Proof.Laws.Carried.Statement (.acctCreate tag id overdraft colour pin) := Sys2Proof.Laws.carried _

theorem Sys2Proof.Laws.Carried.acctDelete (tag : Byte) (id : Nat) :
    Sys2Proof.Laws.Carried.Statement (.acctDelete tag id) := Sys2Proof.Laws.carried _

theorem Sys2Proof.Laws.Carried.acctCredit (tag : Byte) (id : Nat) (amount : Int) :
    Sys2Proof.Laws.Carried.Statement (.acctCredit tag id amount) := Sys2Proof.Laws.carried _

theorem Sys2Proof.Laws.Carried.acctSet (tag : Byte) (id : Nat) (overdraft colour standing : Option Nat) (pin : Option PinAction) :
    Sys2Proof.Laws.Carried.Statement (.acctSet tag id overdraft colour standing pin) := Sys2Proof.Laws.carried _

theorem Sys2Proof.Laws.Carried.acctRead (tag : Byte) (id : Nat) :
    Sys2Proof.Laws.Carried.Statement (.acctRead tag id) := Sys2Proof.Laws.carried _

theorem Sys2Proof.Laws.Carried.acctList (tag : Byte) (start : Nat) :
    Sys2Proof.Laws.Carried.Statement (.acctList tag start) := Sys2Proof.Laws.carried _

theorem Sys2Proof.Laws.Carried.acctUnlock (tag : Byte) (id : Nat) :
    Sys2Proof.Laws.Carried.Statement (.acctUnlock tag id) := Sys2Proof.Laws.carried _

theorem Sys2Proof.Laws.Carried.countersClear (tag : Byte) (id : Nat) :
    Sys2Proof.Laws.Carried.Statement (.countersClear tag id) := Sys2Proof.Laws.carried _

theorem Sys2Proof.Laws.Carried.jobOpen (tag : Byte) (kind owner privacy media sides copies : Nat) :
    Sys2Proof.Laws.Carried.Statement (.jobOpen tag kind owner privacy media sides copies) := Sys2Proof.Laws.carried _

theorem Sys2Proof.Laws.Carried.jobRelease (tag : Byte) (handle : Nat) (pin : List Byte) :
    Sys2Proof.Laws.Carried.Statement (.jobRelease tag handle pin) := Sys2Proof.Laws.carried _

theorem Sys2Proof.Laws.Carried.jobCancel (tag : Byte) (handle : Nat) :
    Sys2Proof.Laws.Carried.Statement (.jobCancel tag handle) := Sys2Proof.Laws.carried _

theorem Sys2Proof.Laws.Carried.jobPause (tag : Byte) (handle : Nat) :
    Sys2Proof.Laws.Carried.Statement (.jobPause tag handle) := Sys2Proof.Laws.carried _

theorem Sys2Proof.Laws.Carried.jobResume (tag : Byte) (handle : Nat) :
    Sys2Proof.Laws.Carried.Statement (.jobResume tag handle) := Sys2Proof.Laws.carried _

theorem Sys2Proof.Laws.Carried.jobSkipPage (tag : Byte) (handle page : Nat) :
    Sys2Proof.Laws.Carried.Statement (.jobSkipPage tag handle page) := Sys2Proof.Laws.carried _

theorem Sys2Proof.Laws.Carried.jobRead (tag : Byte) (handle first : Nat) :
    Sys2Proof.Laws.Carried.Statement (.jobRead tag handle first) := Sys2Proof.Laws.carried _

theorem Sys2Proof.Laws.Carried.senseSet (tag : Byte) (channel code hysteresis filter polarity : Nat) :
    Sys2Proof.Laws.Carried.Statement (.senseSet tag channel code hysteresis filter polarity) := Sys2Proof.Laws.carried _

theorem Sys2Proof.Laws.Carried.doorStateOpen (tag : Byte) :
    Sys2Proof.Laws.Carried.Statement (.doorStateOpen tag) := Sys2Proof.Laws.carried _

theorem Sys2Proof.Laws.Carried.doorStateClosed (tag : Byte) :
    Sys2Proof.Laws.Carried.Statement (.doorStateClosed tag) := Sys2Proof.Laws.carried _

theorem Sys2Proof.Laws.Carried.jamClear (tag : Byte) :
    Sys2Proof.Laws.Carried.Statement (.jamClear tag) := Sys2Proof.Laws.carried _

theorem Sys2Proof.Laws.Carried.pathRead (tag : Byte) :
    Sys2Proof.Laws.Carried.Statement (.pathRead tag) := Sys2Proof.Laws.carried _

theorem Sys2Proof.Laws.Carried.priceSet (tag : Byte) (fields : PriceFields) :
    Sys2Proof.Laws.Carried.Statement (.priceSet tag fields) := Sys2Proof.Laws.carried _

theorem Sys2Proof.Laws.Carried.meterSet (tag : Byte) (fields : MeterFields) :
    Sys2Proof.Laws.Carried.Statement (.meterSet tag fields) := Sys2Proof.Laws.carried _

theorem Sys2Proof.Laws.Carried.mediaSet (tag : Byte) (code : Nat) (area transit : Option Nat) :
    Sys2Proof.Laws.Carried.Statement (.mediaSet tag code area transit) := Sys2Proof.Laws.carried _

theorem Sys2Proof.Laws.Carried.cartRead (tag : Byte) (selector start : Nat) :
    Sys2Proof.Laws.Carried.Statement (.cartRead tag selector start) := Sys2Proof.Laws.carried _

theorem Sys2Proof.Laws.Carried.cartReauth (tag : Byte) (slot : Nat) :
    Sys2Proof.Laws.Carried.Statement (.cartReauth tag slot) := Sys2Proof.Laws.carried _

theorem Sys2Proof.Laws.Carried.policySet (tag : Byte) (policy : Nat) :
    Sys2Proof.Laws.Carried.Statement (.policySet tag policy) := Sys2Proof.Laws.carried _

theorem Sys2Proof.Laws.Carried.familyKeyLoad (tag : Byte) (family : Nat) (key : List Byte) :
    Sys2Proof.Laws.Carried.Statement (.familyKeyLoad tag family key) := Sys2Proof.Laws.carried _

theorem Sys2Proof.Laws.Carried.spoolRead (tag : Byte) (block : Option Nat) :
    Sys2Proof.Laws.Carried.Statement (.spoolRead tag block) := Sys2Proof.Laws.carried _

theorem Sys2Proof.Laws.Carried.blockRetire (tag : Byte) (block : Nat) :
    Sys2Proof.Laws.Carried.Statement (.blockRetire tag block) := Sys2Proof.Laws.carried _

theorem Sys2Proof.Laws.Carried.sanitize (tag : Byte) :
    Sys2Proof.Laws.Carried.Statement (.sanitize tag) := Sys2Proof.Laws.carried _

theorem Sys2Proof.Laws.Carried.faultRead (tag : Byte) :
    Sys2Proof.Laws.Carried.Statement (.faultRead tag) := Sys2Proof.Laws.carried _

theorem Sys2Proof.Laws.Carried.faultAck (tag : Byte) (number : Nat) :
    Sys2Proof.Laws.Carried.Statement (.faultAck tag number) := Sys2Proof.Laws.carried _

theorem Sys2Proof.Laws.Carried.faultAckHaltRecord (tag : Byte) :
    Sys2Proof.Laws.Carried.Statement (.faultAckHaltRecord tag) := Sys2Proof.Laws.carried _

theorem Sys2Proof.Laws.Carried.sense (tag : Byte) (handle : Nat) :
    Sys2Proof.Laws.Carried.Statement (.sense tag handle) := Sys2Proof.Laws.carried _

theorem Sys2Proof.Laws.Carried.storeLock (tag : Byte) (locks : Nat) :
    Sys2Proof.Laws.Carried.Statement (.storeLock tag locks) := Sys2Proof.Laws.carried _

theorem Sys2Proof.Laws.Carried.storeWipe (tag : Byte) :
    Sys2Proof.Laws.Carried.Statement (.storeWipe tag) := Sys2Proof.Laws.carried _

theorem Sys2Proof.Laws.Carried.storeRead (tag : Byte) :
    Sys2Proof.Laws.Carried.Statement (.storeRead tag) := Sys2Proof.Laws.carried _

theorem Sys2Proof.Laws.Carried.limitsSet (tag : Byte) (fields : LimitFields) :
    Sys2Proof.Laws.Carried.Statement (.limitsSet tag fields) := Sys2Proof.Laws.carried _

theorem Sys2Proof.Laws.Carried.status (tag : Byte) :
    Sys2Proof.Laws.Carried.Statement (.status tag) := Sys2Proof.Laws.carried _

theorem Sys2Proof.Laws.Carried.restart (tag : Byte) :
    Sys2Proof.Laws.Carried.Statement (.restart tag) := Sys2Proof.Laws.carried _

theorem Sys2Proof.Laws.Carried.restartWipe (tag : Byte) :
    Sys2Proof.Laws.Carried.Statement (.restartWipe tag) := Sys2Proof.Laws.carried _

theorem Sys2Proof.Laws.Carried.rawLevelChange (channel : Channel) (input : Nat) :
    Sys2Proof.Laws.Carried.Statement (.rawLevelChange channel input) := Sys2Proof.Laws.carried _

theorem Sys2Proof.Laws.Carried.feedLeadingEdge :
    Sys2Proof.Laws.Carried.Statement (.feedLeadingEdge) := Sys2Proof.Laws.carried _

theorem Sys2Proof.Laws.Carried.exitLeadingEdge :
    Sys2Proof.Laws.Carried.Statement (.exitLeadingEdge) := Sys2Proof.Laws.carried _

theorem Sys2Proof.Laws.Carried.trailingEdge (sensor : PaperSensor) :
    Sys2Proof.Laws.Carried.Statement (.trailingEdge sensor) := Sys2Proof.Laws.carried _

theorem Sys2Proof.Laws.Carried.supplyEdge :
    Sys2Proof.Laws.Carried.Statement (.supplyEdge) := Sys2Proof.Laws.carried _

theorem Sys2Proof.Laws.Carried.entryLate :
    Sys2Proof.Laws.Carried.Statement (.entryLate) := Sys2Proof.Laws.carried _

theorem Sys2Proof.Laws.Carried.exitLate :
    Sys2Proof.Laws.Carried.Statement (.exitLate) := Sys2Proof.Laws.carried _

theorem Sys2Proof.Laws.Carried.sheetRequest :
    Sys2Proof.Laws.Carried.Statement (.sheetRequest) := Sys2Proof.Laws.carried _

theorem Sys2Proof.Laws.Carried.intakeBand (band : Band) :
    Sys2Proof.Laws.Carried.Statement (.intakeBand band) := Sys2Proof.Laws.carried _

theorem Sys2Proof.Laws.Carried.intakeStallExpiry :
    Sys2Proof.Laws.Carried.Statement (.intakeStallExpiry) := Sys2Proof.Laws.carried _

theorem Sys2Proof.Laws.Carried.holdExpiry (handle : Nat) :
    Sys2Proof.Laws.Carried.Statement (.holdExpiry handle) := Sys2Proof.Laws.carried _

theorem Sys2Proof.Laws.Carried.lockoutExpiry (id : Nat) :
    Sys2Proof.Laws.Carried.Statement (.lockoutExpiry id) := Sys2Proof.Laws.carried _

theorem Sys2Proof.Laws.Carried.readComplete (read : BandRead) :
    Sys2Proof.Laws.Carried.Statement (.readComplete read) := Sys2Proof.Laws.carried _

theorem Sys2Proof.Laws.Carried.exportBandSent :
    Sys2Proof.Laws.Carried.Statement (.exportBandSent) := Sys2Proof.Laws.carried _

theorem Sys2Proof.Laws.Carried.programComplete (ok : Bool) :
    Sys2Proof.Laws.Carried.Statement (.programComplete ok) := Sys2Proof.Laws.carried _

theorem Sys2Proof.Laws.Carried.eraseComplete (ok : Bool) :
    Sys2Proof.Laws.Carried.Statement (.eraseComplete ok) := Sys2Proof.Laws.carried _

theorem Sys2Proof.Laws.Carried.verifyComplete (read : VerifyRead) :
    Sys2Proof.Laws.Carried.Statement (.verifyComplete read) := Sys2Proof.Laws.carried _

theorem Sys2Proof.Laws.Carried.probeComplete (acknowledged : Bool) :
    Sys2Proof.Laws.Carried.Statement (.probeComplete acknowledged) := Sys2Proof.Laws.carried _

theorem Sys2Proof.Laws.Carried.readRecordComplete (record : List Byte) :
    Sys2Proof.Laws.Carried.Statement (.readRecordComplete record) := Sys2Proof.Laws.carried _

theorem Sys2Proof.Laws.Carried.challengeComplete (reply : Digest) :
    Sys2Proof.Laws.Carried.Statement (.challengeComplete reply) := Sys2Proof.Laws.carried _

theorem Sys2Proof.Laws.Carried.decrementComplete (level : BitVec 32) (reply : Digest) :
    Sys2Proof.Laws.Carried.Statement (.decrementComplete level reply) := Sys2Proof.Laws.carried _

theorem Sys2Proof.Laws.Carried.resyncComplete :
    Sys2Proof.Laws.Carried.Statement (.resyncComplete) := Sys2Proof.Laws.carried _

theorem Sys2Proof.Laws.Carried.busTransactionFail :
    Sys2Proof.Laws.Carried.Statement (.busTransactionFail) := Sys2Proof.Laws.carried _

theorem Sys2Proof.Laws.Carried.clockStretchLimit :
    Sys2Proof.Laws.Carried.Statement (.clockStretchLimit) := Sys2Proof.Laws.carried _

theorem Sys2Proof.Laws.Carried.startUpStepEnd (finding : StepFinding) :
    Sys2Proof.Laws.Carried.Statement (.startUpStepEnd finding) := Sys2Proof.Laws.carried _

theorem Sys2Proof.Laws.Carried.powerLoss (cut : StoreCut) :
    Sys2Proof.Laws.Carried.Statement (.powerLoss cut) := Sys2Proof.Laws.carried _
end

