-- ==== Sys2Proof/Tests/Slice0.lean ====
section
/-! SUPPORT. Tests: ill-formed terms that WellFormed refuses, figures the spec works out, and for each statement with
hypotheses a state and operands that meet them. -/

open Sys2Proof Sys2Proof.Machine

namespace Sys2Proof.Tests

-- One theorem after another: each waits for the kernel, and threads that wait hold memory.
set_option Elab.async false

/-! ### WellFormed: one ill-formed term for each check -/

theorem test_refuses_wide_id : (Instr.acctRead 0 65536).wellFormed = false := by decide
theorem test_refuses_wide_overdraft : (Instr.acctCreate 0 1 4294967296 0 none).wellFormed = false := by decide
theorem test_refuses_wide_colour : (Instr.acctCreate 0 1 0 256 none).wellFormed = false := by decide
theorem test_refuses_long_pin : (Instr.jobRelease 0 0 [1, 1, 1, 1, 1, 1, 1, 1, 1]).wellFormed = false := by decide
theorem test_refuses_padded_pin : (Instr.jobRelease 0 0 [0x31, 0]).wellFormed = false := by decide
theorem test_refuses_wide_amount : (Instr.acctCredit 0 1 2147483648).wellFormed = false := by decide
theorem test_refuses_low_amount : (Instr.acctCredit 0 1 (-2147483649)).wellFormed = false := by decide
theorem test_refuses_wide_standing : (Instr.acctSet 0 1 none none (some 256) none).wellFormed = false := by decide
theorem test_refuses_wide_price : (Instr.priceSet 0 { stdMono := some 65536 }).wellFormed = false := by decide
theorem test_refuses_long_key : (Instr.familyKeyLoad 0 0 (List.replicate 1024 0)).wellFormed = false := by decide +kernel
theorem test_refuses_high_input : (Instr.rawLevelChange .feed 844801).wellFormed = false := by decide
theorem test_refuses_short_record : (Instr.readRecordComplete [1]).wellFormed = false := by decide
theorem test_refuses_nine_bits : (Instr.readComplete { codewords := [[some 9]], stored := [] }).wellFormed = false := by
  decide
theorem test_refuses_verify_position : (Instr.verifyComplete { data := [(131072, 0xFF)] }).wellFormed = false := by decide
theorem test_refuses_wide_header : (Instr.intakeBand { (default : Band) with page := 65536 }).wellFormed = false := by decide
theorem test_refuses_long_band : (Instr.intakeBand { (default : Band) with length := 4294967296 }).wellFormed = false := by
  decide
theorem test_accepts_request : (Instr.jobOpen 1 0 1207 1 0 0 2).wellFormed = true := by decide

/-! ### Figures the spec works out -/

/-- The record of the example check word of section 5.3. -/
def exampleRecord (byte15 : Byte) : List Byte :=
  [0x01, 0x02, 0x03, 0x23, 0x10, 0x20, 0x30, 0x40, 0x50, 0x60, 0x70, 0x80, 0x80, 0x1A, 0x06, byte15,
   0x00, 0x00, 0x00, 0x00, 0x8A, 0x80]

theorem test_check_word : checkWord (exampleRecord 0x00) = 0x808A := by decide +kernel
theorem test_check_word_ignores_byte_15 : checkWord (exampleRecord 0x5A) = 0x808A := by decide +kernel
theorem test_record_check : recordCheck (exampleRecord 0x00) = 0x808A := by decide +kernel
theorem test_record_full : recordFull (exampleRecord 0x5A) = 400000 := by decide +kernel

/-- Section 3.1: 1.675 V and 1.625 V around code 127, 2.3855 V and 2.4355 V around code 186, in 1/256 mV. -/
theorem test_feed_turns_present : comparator {} (some false) (1675 * 256) = true := by decide
theorem test_feed_stays_absent : comparator {} (some false) (1675 * 256 - 1) = false := by decide
theorem test_feed_turns_absent : comparator {} (some true) (1625 * 256) = false := by decide
theorem test_feed_stays_present : comparator {} (some true) (1625 * 256 + 1) = true := by decide
theorem test_supply_threshold : thresholdVoltage 186 = 617100 := by decide

/-- Section 4.7: the duplex A4 sheet and the roundings at the edges. -/
theorem test_demand_k : planeDemand 600 624 40 6 = 1504 := by decide
theorem test_demand_c : planeDemand 1200 624 35 6 = 2627 := by decide
theorem test_demand_smallest : planeDemand 1 100 1 6 = 7 := by decide
theorem test_demand_greatest : planeDemand 10000 1300 255 50 = 331550 := by decide
theorem test_class_colour : classifyPage 5 { k := 600, c := 1200, m := 900, y := 300 } = .colour := by decide
theorem test_class_mono : classifyPage 5 { k := 450, c := 2, m := 0, y := 0 } = .mono := by decide
theorem test_back_half_up : backCost 50 3 = 2 ∧ backCost 49 1 = 0 ∧ backCost 50 1 = 1 := by decide
theorem test_cost_heavy : sideCost {} 1248 .colour { k := 9000, c := 8000, m := 7000, y := 6000 } = 18 := by decide
theorem test_cost_limit :
    sideCost { largeColour := 10000, heavySurcharge := 1000 } 1248 .colour { k := 9000, c := 8000, m := 7000, y := 6000 } = 10000
      ∧ backCost 100 10000 = 10000 := by decide

/-- The example figures of section 2.3: an owner with balance 1 and a scan rate of 3. -/
theorem test_scan_shortfall :
    scanTaken 3 1 = 1 ∧ (scanCharge 3 1 { id := 1, balance := 1 }).balance = 0
      ∧ (scanCharge 3 1 { id := 1, balance := 1 }).counters.shortfall = 2 := by decide

/-- Section 1.8: job 197 is slot 5 in generation 3, the next of the slot is 261, and two adjacent blocks are one extent. -/
theorem test_slot_of_handle : (slotOf 197).val = 5 ∧ 197 / 64 = 3 ∧ 4 * 64 + 5 = 261 := by decide
theorem test_adjacent_extent : growExtents 813 [⟨812, 1⟩] = [⟨812, 2⟩] ∧ growExtents 2051 [⟨812, 2⟩] = [⟨812, 2⟩, ⟨2051, 1⟩] := by
  decide

/-- R195, R189: the kind bytes and the status bytes at the ends of their tables. -/
theorem test_kind_bytes : kindByte .acctCreate = 0x01 ∧ kindByte .restart = 0x26 ∧ kindOfByte 0x27 = none
    ∧ kindOfByte 0x00 = none := by decide
theorem test_status_bytes : statusByte .ok = 0x00 ∧ statusByte .starting = 0x13 := by decide

/-! ### The hypotheses of the statements are met -/

/-- A part that serves requests. -/
def up : State := { State.reset with startUp := none, fm := { part := .running } }

/-- An account with an overdraft limit. -/
def account : Account := { id := 5, balance := 100, overdraft := 10, colourRight := true }

/-- A part with accounts. -/
def withAccounts (table : List Account) : State := { up with accounts := table }

/-- The job in slot 0. -/
def job : Job := { handle := 0, kind := .print, owner := 5, priv := true, media := 0, duplex := false, copies := 1 }

/-- A part with the job in a state. -/
def withJob (state : JobState) (j : Job := job) : State := { withAccounts [account] with jt := putJob { j with state := state } {} }

/-- The locks a part holds. -/
def locked (s : State) (l : Locks) : State := { s with ps := { s.ps with loadedKeys := some { locks := l } } }

theorem serving_of {s : State} (h : (s.powered && s.fm.part == .running && decide (unreadReplies s.lif < 8)) = true) :
    Serving s := by
  simpa [Serving, and_assoc] using h

theorem test_meets_step : State.reset.pending = [] ∧ State.reset.ps.journal = [] ∧ State.reset.jt.closedNow = [] := ⟨rfl, rfl, rfl⟩

/-- R150, R86: nothing falls due while HALTED; while STARTING the bus alone works; while RUNNING the scrub's block is taken, and
with nothing left the event is over. -/
theorem test_meets_settle : ({ up with fm := { part := .halted } } : State).fm.part = .halted ∧ State.reset.fm.part = .starting
    ∧ up.fm.part = .running ∧ (nextAction { State.reset with cbc := { work := [.resync] } }).map (·.cbc.flight) = some (some .resync)
    ∧ (nextAction { up with se := { list := [{ block := 7, origin := .sweep }] } }).map (fun s => s.se.work.isSome) = some true
    ∧ nextAction up = none := by decide +kernel

theorem test_meets_invariants : LinkOk State.reset.lif ∧ step State.reset = .next { State.reset with clock := 1 } :=
  ⟨⟨rfl, by decide +kernel, by decide +kernel, by decide +kernel, (by intro p h; cases h), by decide, by decide⟩, rfl⟩

theorem test_meets_ledger : wipeNext { up with pending := [.storeWipe 7] } = true ∧ up.spm.sheets = []
    ∧ wipeNext { up with pending := [.transferEnd (hostFrame 0x01 0x22 7 0 0 [])]
                         lif := { transfer := some ⟨[0], false, false, false⟩ } } = true
    ∧ wipeNext { up with pending := [.storeRead 7] } = false := by decide +kernel

/-- The states in which the invariants of the other statements hold at once. -/
theorem test_meets_other_invariants : AccountsOk State.reset ∧ FaultsOk State.reset.fm ∧ HistoryOk State.reset
    ∧ SheetsOk State.reset ∧ PermitOk State.reset := by
  refine ⟨⟨?_, ?_⟩, ?_, ⟨?_, ?_⟩, ?_, ?_⟩
  · unfold TableOk AccountOk; decide +kernel
  · intro t h; cases h
  · unfold FaultsOk; decide +kernel
  · unfold HistoryContent.Ok; decide +kernel
  · intro t h; cases h
  · unfold SheetsOk; decide +kernel
  · unfold PermitOk; decide +kernel

theorem no_jobs (h : Nat) : jobOf {} h = none := by
  simp [jobOf, Vector.get]

theorem test_meets_job_table : JobsOk State.reset ∧ step State.reset = .next { State.reset with clock := 1 } := by
  refine ⟨⟨fun i => ?_, ⟨by decide, fun h => ?_, fun h => ?_⟩, ⟨by decide, fun h => ?_, fun h => ?_⟩, by decide +kernel,
    by decide +kernel, fun h e => by cases e⟩, rfl⟩
  · have slot : State.reset.jt.slots.get i = {} := by simp [State.reset, Vector.get]
    have key : State.reset.bc.keys.get i = none := by simp [State.reset, Vector.get]
    simp [SlotOk, slot, key]
  all_goals simp [no_jobs, queueOf, State.reset]

/-- A part with the job in a state and its key. -/
def keyed (state : JobState) (j : Job := job) : State :=
  { withJob state j with bc := { keys := (Vector.replicate 64 none).set 0 (some ⟨0, 0, 1, 2⟩) } }

theorem keyed_slots (state : JobState) (j : Job) (h : j.handle = 0) (live : isLive { j with state := state } = true) (i : Fin 64) :
    SlotOk (keyed state j) i := by
  have slot : (keyed state j).jt.slots.get i = if i = 0 then { job := some { j with state := state } } else {} := by
    have : slotOf j.handle = 0 := by rw [h]; rfl
    simp only [keyed, withJob, putJob, this, Vector.get_eq_getElem, Vector.getElem_set, Fin.ext_iff]
    by_cases e : (i : Nat) = 0
    · simp [e]
    · simp [e, Ne.symm e]
  have key : (keyed state j).bc.keys.get i = if i = 0 then some ⟨0, 0, 1, 2⟩ else none := by
    simp only [keyed, Vector.get_eq_getElem, Vector.getElem_set, Fin.ext_iff]
    by_cases e : (i : Nat) = 0
    · simp [e]
    · simp [e, Ne.symm e]
  simp only [SlotOk, slot, key]
  by_cases e : i = 0
  · subst e; cases j; simp only at h; subst h; simp [live]
  · simp [e]

theorem test_meets_slots : (∀ i, SlotOk (keyed .queued) i) ∧ (∀ i, SlotOk (keyed (.stalled (.jam 1) 0 0)) i)
    ∧ (allJobs (keyed .queued).jt).map (·.state) = [.queued] ∧ (keyed .queued).fm.part ≠ .halted
    ∧ (∀ j, activeJob (keyed (.stalled (.jam 1) 0 0)) .engine = some j → j.state = .active) :=
  ⟨keyed_slots _ _ rfl rfl, keyed_slots _ _ rfl rfl, by decide +kernel, by decide, by intro j h; cases h⟩

/-- An outgoing list with so many notices that have no subject. -/
def noticed (n : Nat) : State :=
  { up with lif := { out := List.replicate n (.notice (.pageStored 0 1)), attn := true } }

theorem test_meets_notices : noticeEntries (noticed 47).lif = 47 ∧ noticeEntries (noticed 48).lif = 48
    ∧ noticeSubject (.pageStored 0 1) = none
    ∧ (askPart up).lif.out = [] ++ .notice (.part (partContent up)) :: []
    ∧ entrySubject (.notice (.part (partContent up))) = some .part := by decide +kernel

/-- Eight unread replies. -/
def overrunLink : LinkInterface := { out := List.replicate 8 (.reply default), attn := true }

theorem test_meets_turned_away : requestOf (.storeRead 7) = some (.storeRead, 7) ∧ State.reset.powered = true
    ∧ State.reset.fm.part = .starting ∧ unreadReplies State.reset.lif < 8
    ∧ 8 ≤ unreadReplies overrunLink ∧ ({ up with fm := { part := .halted } } : State).fm.part = .halted := by decide +kernel

theorem test_meets_unpowered : ({ up with powered := false } : State).powered = false ∧ Instr.jamClear 0 ≠ .powerOn
    ∧ ∀ ch v, Instr.jamClear 0 ≠ .rawLevelChange ch v := ⟨rfl, by decide, fun _ _ h => by cases h⟩

theorem test_meets_reports : requestOf (.storeRead 7) = some (.storeRead, 7) ∧ reportsOnly .storeRead = true
    ∧ ∃ t, exec (.storeRead 7) up = .next t := ⟨rfl, rfl, _, rfl⟩

theorem test_meets_keys_not_read_back : (locked up {}).ps.loadedKeys = some {} ∧ ∃ u, exec (.storeRead 7) (locked up {}) = .next u :=
  ⟨rfl, _, rfl⟩

theorem test_meets_other_keys : ({ loadedKeys := some { device := some 2 }, keys := .broken } : Store).results = up.ps.results
    ∧ ({ device := some 2 } : KeysContent).device.isSome = ({ device := some 1 } : KeysContent).device.isSome
    ∧ (∀ i : Fin 4, (({ device := some 2 } : KeysContent).family.get i).isSome = (({} : KeysContent).family.get i).isSome)
    ∧ (∀ i : Fin 64, (((Vector.replicate 64 none).set 0 (some ⟨0, 7, 8, 9⟩) : Vector (Option LiveKey) 64).get i).isSome
        = (((Vector.replicate 64 none).set 0 (some ⟨0, 0, 1, 2⟩) : Vector (Option LiveKey) 64).get i).isSome) := by
  decide +kernel

theorem test_serving : Serving up := serving_of (by decide +kernel)
theorem test_serving_accounts : Serving (withAccounts [account]) := serving_of (by decide +kernel)

theorem test_meets_account_reads : findAccount 5 (withAccounts [account]).accounts = some account
    ∧ findAccount 6 (withAccounts [account]).accounts = none := by decide +kernel

theorem test_meets_job_reads : Serving (withJob .intake) ∧ jobOf (withJob .intake).jt 0 = some { job with state := .intake }
    ∧ jobOf (withJob .intake).jt 64 = none ∧ jobOf (withJob .intake).jt 16384 = none :=
  ⟨serving_of (by decide +kernel), by decide +kernel, by decide +kernel, by decide +kernel⟩

theorem test_meets_part_reads : up.powered = true ∧ up.fm.part ≠ .starting ∧ unreadReplies up.lif < 8
    ∧ (3 : Nat) = (3 : Fin 4).val ∧ (∀ b, (none : Option Nat) = some b → b < 30720)
    ∧ ∃ b, some 30720 = some b ∧ 30720 ≤ b :=
  ⟨rfl, by decide, by decide +kernel, rfl, (by intro b h; cases h), 30720, rfl, le_refl _⟩

theorem test_meets_acct_create : findAccount 65535 up.accounts = none ∧ up.accounts.length < 2048
    ∧ validPin [0x30, 0x31, 0x32, 0x39] = true ∧ validPin [0x30, 0x31, 0x32] = false
    ∧ (findAccount 5 (withAccounts [account]).accounts).isSome = true
    ∧ findAccount 1 (withAccounts (List.replicate 2048 account)).accounts = none
    ∧ 2048 ≤ (withAccounts (List.replicate 2048 account)).accounts.length := by decide +kernel

theorem test_meets_acct_delete : (∃ j ∈ allJobs (withJob .intake).jt, j.owner = 5)
    ∧ (∀ j ∈ allJobs (withAccounts [account]).jt, j.owner ≠ 5) ∧ account.reserved = 0 := by decide +kernel

theorem test_meets_acct_credit : (account.balance < min (account.balance + 2000000000) 2000000000)
    ∧ ({ account with balance := 2000000000 } : Account).balance = 2000000000 ∧ -(-110) ≤ available account
    ∧ available account < -(-111) := by decide

theorem test_meets_acct_set : ({ account with standing := .lockedOut 9 } : Account).standing = .lockedOut 9
    ∧ ({ account with balance := -5 } : Account).balance - account.reserved < -((4 : Nat) : Int)
    ∧ account.overdraft < (applyAcctSet up (some 1000000) none none none account).overdraft
    ∧ (applyAcctSet up none none (some 0) none { account with standing := .suspended }).standing = .active
    ∧ ¬ account.overdraft < (applyAcctSet up none none (some 1) none account).overdraft
    ∧ (applyAcctSet up (some 11) (some 1) none none { account with colourRight := false }).colourRight = true := by
  decide +kernel

theorem test_meets_unlock : findAccount 5 (withAccounts [{ account with standing := .lockedOut 9 }]).accounts
    = some { account with standing := .lockedOut 9 } := by decide +kernel

theorem test_meets_expiries : ({ up with clock := 18000 } : State).powered = true ∧ 9 ≤ nowSeconds { up with clock := 18000 }
    ∧ nowSeconds { up with clock := 17999 } < 9
    ∧ jobOf (withJob (.held 9)).jt 0 = some { job with state := .held 9 } := by decide +kernel

theorem test_meets_counters : (locksOf (locked up { audit := true })).audit = true
    ∧ (locksOf (withAccounts [account])).audit = false := by decide +kernel

theorem test_meets_credits : 0 ≤ available account ∧ (4 : Nat) ≤ ({ account with reserved := 4 } : Account).reserved
    ∧ reservationAnswer account 110 true = .reserved ∧ reservationAnswer account 111 true = .credit
    ∧ reservationAnswer { account with colourRight := false } 0 true = .account := by decide

/-- What the noise source delivers, with samples that pass every test and with a run of 32. -/
def noise (run : Bool) : Noise :=
  { samples := if run then List.replicate 32 7 else [1, 2, 3], output := 5 }

/-- The health test a draw failed, if any. -/
def drew {α : Type} : Except HealthTest α → Option HealthTest
  | .ok _ => none
  | .error test => some test

theorem test_meets_job_open : Serving { withAccounts [account] with noise := [noise false] }
    ∧ jobOpenFields 0 5 1 15 1 999 = some (.copy, true, true) ∧ account.standing ≠ .suspended
    ∧ up.se.sanitize = none ∧ (up.jt.slots.get 0).job = none ∧ (∀ n : Fin 64, n < 0 → (up.jt.slots.get n).job.isSome = true)
    ∧ drew (draw32 { withAccounts [account] with noise := [noise false] }).1 = none
    ∧ drew (draw32 { withAccounts [account] with noise := [noise true] }).1 = some .repetition :=
  ⟨serving_of (by decide +kernel), by decide, by decide, rfl, by decide +kernel, fun n h => absurd h (Fin.not_lt_zero n),
    by decide +kernel, by decide +kernel⟩

/-- R140: the 32nd of a run, the 401st of a value in its window (log 60: both at once), the 1024th sample, and an output equal to
the 16 bytes before it. -/
theorem test_health_tests :
    (testSample { run := some (7, 31) } 7).2 = some .repetition ∧ (testSample { run := some (7, 30) } 7).2 = none
    ∧ (testSample { run := some (7, 31) } 8).2 = none
    ∧ (testSample { window := List.replicate 400 7 } 7).2 = some .proportion
    ∧ (testSample { window := List.replicate 399 7 } 7).2 = none
    ∧ (testSample { run := some (7, 31), window := List.replicate 400 7 } 7).2 = some .repetition
    ∧ (testSample { window := List.replicate 1023 8 } 7).1.window = []
    ∧ (testSample { window := List.replicate 1022 8 } 7).1.window.length = 1023
    ∧ (testSamples [1, 2, 2, 3] {}).2 = none := by decide +kernel

theorem test_meets_draws : (testSamples (noise true).samples {}).2 = some .repetition ∧ (testSamples (noise false).samples {}).2 = none
    ∧ drew (draw16 { up with noise := [noise false], bc := { health := { last := some 0 } } }).1 = some .output
    ∧ drew (draw32 { up with noise := [noise false], bc := { health := { last := some 5 } } }).1 = none
    ∧ drew (draw32 { up with noise := [{ noise false with output := 0 }] }).1 = some .output
    ∧ (draw16 { up with noise := [noise true] }).2.noise = [] := by decide +kernel

/-- An account with a PIN check value. -/
def pinned (check : Digest) : Account := { account with pinCheck := some check }

/-- A page of a class. -/
def page (cls : Option SideClass) : PageEntry := { cls := cls, bands := 1, bytes := 10, extent := 0, offset := 0 }

theorem test_meets_job_refusals : jobOf (withJob (.scrub .expired)).jt 0 = some { job with state := .scrub .expired }
    ∧ jobOf (withAccounts [account]).jt 0 = none ∧ findAccount 5 (withAccounts [account]).accounts = some account
    ∧ ({ account with standing := .suspended } : Account).standing = .suspended ∧ account.standing ≠ .suspended
    ∧ ({ up with se := { sanitize := some { tag := 1, wipe := false } } } : State).se.sanitize.isSome = true
    ∧ (∀ n : Fin 64, (({ slots := Vector.replicate 64 { job := some job } } : JobTable).slots.get n).job.isSome = true) := by
  decide +kernel

theorem test_meets_job_release : Serving (withJob (.held 9)) ∧ jobOf (withJob (.held 9)).jt 0 = some { job with state := .held 9 }
    ∧ validPin [0x30, 0x31, 0x32, 0x33] = true ∧ findAccount job.owner (withJob (.held 9)).accounts = some account
    ∧ account.standing = .active ∧ account.pinCheck = none
    ∧ pinCheckValue 0 [0x30] ≠ pinCheckValue 0 [0x30] + 1
    ∧ (pinned (pinCheckValue 0 [0x30])).pinCheck = some (pinCheckValue 0 [0x30])
    ∧ (page (some .colour)).cls = some .colour ∧ ({ account with colourRight := false } : Account).colourRight = false
    ∧ ({ account with pinFailures := 4 } : Account).pinFailures = 4 :=
  ⟨serving_of (by decide +kernel), by decide +kernel, by decide, by decide +kernel, rfl, rfl,
    fun h => absurd h (by bv_omega), rfl, rfl, rfl, rfl⟩

/-- A band of page 1 on the EXPORT channel. -/
def sending (last cancelling pausing : Bool) : ExportBand :=
  { page := 1, index := 1, lastBand := last, lastPage := false, coverage := none, header := [], data := [], pausing := pausing,
    cancelling := cancelling }

/-- A part whose export job sends a band. -/
def exporting (last cancelling pausing : Bool) : State :=
  let s := withJob .active { job with kind := .scanOut, pages := [page (some .mono)] }
  { s with jt := { s.jt with exporter := { active := some 0 }, exportPhase := .sending (sending last cancelling pausing) } }

theorem test_meets_job_cancel : Serving (exporting false false false) ∧ (jobOf (withJob .queued).jt 0).map (·.inFlight) = some 0
    ∧ (jobOf (withJob (.stalled .credit 0 0) { job with inFlight := 1 }).jt 0).map (·.inFlight) = some 1
    ∧ (jobOf (withJob (.draining .ends)).jt 0).map (·.state) = some (.draining .ends)
    ∧ (jobOf (withJob (.draining .cancel)).jt 0).map (·.state) = some (.draining .cancel)
    ∧ (exporting false false false).jt.exporter.active = some 0
    ∧ (jobOf (exporting false false false).jt 0).map (·.state) = some .active
    ∧ (withJob .active).jt.exporter.active ≠ some 0 :=
  ⟨serving_of (by decide +kernel), by decide +kernel⟩

theorem test_meets_pause_and_resume : Serving (withJob (.stalled .paused 4 1))
    ∧ jobOf (withJob (.stalled .paused 4 1)).jt 0 = some { job with state := .stalled .paused 4 1 }
    ∧ jobOf (withJob (.stalled .supply 4 1)).jt 0 = some { job with state := .stalled .supply 4 1 }
    ∧ jobOf (withJob .queued).jt 0 = some { job with state := .queued } :=
  ⟨serving_of (by decide +kernel), by decide +kernel⟩

theorem test_meets_skip_page :
    ({ job with pages := [page (some .mono)] } : Job).pages[1 - 1]? = some (page (some .mono))
    ∧ ({ page none with skipped := true } : PageEntry).skipped = true ∧ (page none).skipped = false
    ∧ jobOf (withJob (.stalled .image 1 1)).jt 0 = some { job with state := .stalled .image 1 1 } := by decide +kernel

theorem test_meets_export_end : (∀ l c p, (exporting l c p).powered = true
      ∧ (exporting l c p).jt.exportPhase = .sending (sending l c p)
      ∧ (activeJob (exporting l c p) .exporter).map (·.handle) = some 0)
    ∧ markedBlock (exporting false false false) 0 1 2 = none := by decide +kernel

theorem test_meets_close : (jobOf (withJob .queued { job with extents := [⟨7, 2⟩] }).jt 0).map (·.extents) = some [⟨7, 2⟩]
    ∧ isLive { job with state := .queued } = true ∧ job.handle = 0 := by decide +kernel

theorem test_meets_sheet_sequence :
    sheetFrom { job with copies := 2, pages := [page (some .mono), page (some .mono)] } 0 = some 0
    ∧ sheetFrom { job with copies := 2, pages := [{ page (some .mono) with skipped := true }, page (some .mono)] } 2 = some 3
    ∧ sheetFrom { job with copies := 2, duplex := true, pages := [page (some .mono), page (some .mono)] } 2 = none
    ∧ (exporting true false false).jt.exporter.active = some 0 ∧ (queueOf (withJob .queued).jt .engine).active = none
    ∧ (queueOf ({ engine := { waiting := [0] } } : JobTable) .engine).waiting = 0 :: [] := by decide +kernel

theorem test_meets_freed_slot : (withJob (.scrub .completed)).fm.part = .running
    ∧ (jobOf (withJob (.scrub .completed)).jt 0).map (·.state) = some (.scrub .completed)
    ∧ (∃ e ∈ ({ list := [⟨7, .job 0⟩] } : ScrubEngine).list, e.origin = .job 0)
    ∧ (∀ e ∈ (withJob (.scrub .completed)).se.list, e.origin ≠ .job 0)
    ∧ ((reportScrubbed 0 (withJob (.scrub .completed))).jt.slots.get 0).generation = 1 := by decide +kernel

/-- A part whose levels are those of the three channels. -/
def levels (feed exit supply : Bool) (since : Option Nat := none) : State :=
  { up with
    clock := 4
    spm := { feed := { level := some feed, since := since }, exit := { level := some exit, since := since },
             supply := { level := some supply, since := since } } }

theorem test_meets_raw_level : (channelOf (levels false false true).spm .feed).level = some false
    ∧ rawLevel {} (comparator {} none 0) = false ∧ rawLevel {} (comparator {} none (3300 * 256)) = true
    ∧ ({} : ChannelSettings).filter ≠ .off ∧ (channelOf State.reset.spm .feed).level = none
    ∧ (channelOf State.reset.spm .feed).since = none := by decide +kernel

theorem test_meets_sense_set : senseSetFields 2 255 0 3 1
      = some (.supply, { code := 255, hysteresis := true, filter := .two, highWhenAbove := false })
    ∧ senseSetFields 3 255 1 3 1 = none ∧ (locksOf (levels true true true)).settings = false
    ∧ (levels true true true).spm.sheets = [] ∧ (locksOf (locked up { settings := true })).settings = true
    ∧ Serving (levels true true true) := by
  refine ⟨by decide, by decide, rfl, rfl, rfl, serving_of (by decide +kernel)⟩

theorem test_meets_edges : EdgeDue (levels true true true (some 2)) .feed ∧ EdgeDue (levels false false false (some 0)) .supply
    ∧ (levels true true true (some 2)).spm.feed.level = some true ∧ ¬ EdgeDue (levels true true true) .feed
    ∧ ({ levels false false true (some 2) with fm := { part := .halted } } : State).fm.part ≠ .running :=
  ⟨⟨2, rfl, by decide⟩, ⟨0, rfl, by decide⟩, rfl, (by rintro ⟨_, h, _⟩; cases h), by decide⟩

/-- A sheet of job 0. -/
def sheet (entered : Bool) : Sheet :=
  { handle := 0, owner := 5, index := 0, sides := [.page 1 .mono], cost := 4, demand := {}, transit := 3000,
    nonGenuine := false, entered := entered, deadline := 2 }

/-- A part with sheets in its path whose sensors have a leading edge due. -/
def withSheets (sheets : List Sheet) : State :=
  let s := levels false false true (some 2)
  { s with spm := { s.spm with sheets := sheets }, accounts := [{ account with reserved := 4 }] }

theorem test_meets_feed_and_exit_edges : (withSheets [sheet true, sheet false]).spm.sheets = [sheet true] ++ sheet false :: []
    ∧ (withSheets [sheet true, sheet false]).spm.feed.level = some false
    ∧ EdgeDue (withSheets [sheet true]) .feed ∧ EdgeDue (withSheets [sheet true]) .exit
    ∧ (withSheets [sheet true]).spm.exit.level = some false ∧ (withSheets [sheet true]).spm.jammed = false
    ∧ (withSheets [sheet true]).fm.part = .running ∧ (sheet true).entered = true ∧ (sheet false).entered = false :=
  ⟨rfl, rfl, ⟨2, rfl, by decide⟩, ⟨2, rfl, by decide⟩, rfl, rfl, rfl, rfl, rfl⟩

theorem test_meets_deadlines : (∃ sh ∈ (withSheets [sheet false]).spm.sheets, sh.entered = false ∧ sh.deadline ≤ nowMs (withSheets []))
    ∧ (∃ sh ∈ (withSheets [sheet true]).spm.sheets, sh.entered = true ∧ sh.deadline ≤ nowMs (withSheets []))
    ∧ nowMs { withSheets [sheet false] with clock := 3 } < (sheet false).deadline
    ∧ (withSheets []).spm.requestPending = false := by decide +kernel

/-- A verified slot. -/
def genuine : CartSlot :=
  { verification := .genuine, serial := some 8, family := some 2, figures := some ⟨40, 400000⟩,
    level := some ⟨9, 0, .low⟩ }

/-- A part whose engine asks for a sheet that costs 4 and that is ready, its cartridges in a verification. -/
def granting (verification : Verification) (cls : SideClass) (owner : Account) (cost : Nat := 4) : State :=
  let s := withJob .active
  { s with
    accounts := [owner]
    cbc := { slots := Vector.replicate 4 { genuine with verification := verification } }
    spm := { requestPending := true, feedPermit := true, staging := [{ handle := 0, index := 0, sides := [.page 1 cls], image := [[]]
                                                                       state := .ready ⟨{}, cost, 3000⟩ }] } }

/-- What a grant attempt leaves of the job's state. -/
def attempted (s : State) : Option (Option JobState × Nat) :=
  (grantAttempt s).map fun t => ((jobOf t.jt 0).map (·.state), t.spm.sheets.length)

/-- R59: the attempt waits, stalls the job for SUPPLY, ACCOUNT and CREDIT, and grants the sheet. -/
theorem test_meets_grants :
    attempted (granting .unverified .mono account) = none
    ∧ attempted (granting (.rejected .tag) .mono account) = some (some (.stalled .supply 0 0), 0)
    ∧ attempted (granting .genuine .colour { account with colourRight := false }) = some (some (.stalled .account 0 0), 0)
    ∧ attempted (granting .genuine .colour account 111) = some (some (.stalled .credit 0 0), 0)
    ∧ attempted (granting .genuine .colour account 110) = some (some .active, 1) := by decide +kernel

/-- A part with the jam, the door and the paper sensors as given. -/
def path (jammed door feed : Bool) : State :=
  let s := levels feed false true
  { s with spm := { s.spm with jammed := jammed, doorOpen := door } }

theorem test_meets_door_and_jam : Serving (path true false false) ∧ (path true true false).spm.doorOpen = true
    ∧ (path true false true).spm.feed.level = some true ∧ (path true false false).spm.exit.level ≠ some true
    ∧ (path false false false).spm.jammed = false ∧ (withSheets [sheet true]).spm.sheets ≠ [] :=
  ⟨serving_of (by decide +kernel), by decide +kernel⟩

theorem test_meets_sheet_cost : ([Side.blank, .page 2 .mono] : List Side).length ≤ 2 ∧ ({} : PriceSettings).duplexPct ≤ 100 := by
  decide

theorem test_meets_settings : priceFieldsInRange { duplexPct := some 100 } = true
    ∧ priceFieldsInRange { duplexPct := some 101 } = false
    ∧ (({ scanRate := some 7 } : PriceFields) ≠ {}) ∧ applyPrice { stdMono := some 2 } {} = {}
    ∧ applyPrice { scanRate := some 7 } {} ≠ {} ∧ { applyPrice { scanRate := some 7 } {} with scanRate := 1 } = ({} : PriceSettings)
    ∧ meterFieldsInRange { reauthInterval := some 65535 } = true ∧ meterFieldsInRange { reauthInterval := some 99 } = false
    ∧ (applyMeter { idleLoss := some 5 } {}).idleLoss ≠ ({} : MeterSettings).idleLoss
    ∧ (applyMeter { lowMarkPct := some 5 } {}).idleLoss = ({} : MeterSettings).idleLoss
    ∧ mediaFieldsInRange 15 (some 1300) none = true ∧ mediaFieldsInRange 16 none none = false
    ∧ limitFieldsInRange { weakLimit := some 8 } = true ∧ limitFieldsInRange { weakLimit := some 9 } = false := by
  decide

/-- A part whose bus has an item in flight, with slot 1's record. -/
def onBus (f : Flight) (c : CartSlot := {}) : State := { up with cbc := { flight := some f, slots := (Vector.replicate 4 {}).set 1 c } }

theorem test_meets_cartridge_requests : authBusy (onBus (.probe 1)) 1 = true ∧ authBusy (onBus (.probe 1)) 0 = false
    ∧ (locksOf up).settings = false ∧ (locksOf up).keys = false ∧ up.settings.allow = decide (0 = 1)
    ∧ up.settings.allow ≠ decide (1 = 1) ∧ (List.replicate 32 (0 : Byte)).length = 32
    ∧ (locksOf (locked up { keys := true, settings := true })).keys = true
    ∧ usable false { verification := .suspect .checksum, level := some ⟨9, 0, .ok⟩ } = false
    ∧ usable true { verification := .suspect .checksum, level := some ⟨9, 0, .ok⟩ } = true := by decide +kernel

theorem test_meets_bus : (onBus (.probe 1)).cbc.flight = some (.probe 1)
    ∧ (exampleRecord 0).length = 22 ∧ recordByte (exampleRecord 0) 2 = (3 : Fin 4) ∧ recordByte (exampleRecord 0) 0 = 1
    ∧ recordByte (exampleRecord 0) 1 = 2 ∧ recordByte (exampleRecord 0) 3 ≠ 0
    ∧ familyKey { family := Vector.replicate 4 (some 1) } 2 = some 1 ∧ familyKey {} 2 = none
    ∧ ((onBus (.probe 1) { failures := 1 }).cbc.slots.get 1).failures < 2
    ∧ 2 ≤ ((onBus (.probe 1) { failures := 2 }).cbc.slots.get 1).failures
    ∧ ((onBus (.decrement 1 9 (some 3) 4) { serial := some 8 }).cbc.slots.get 1).serial = some 8
    ∧ drew (draw16 { up with noise := [noise false] }).1 = none
    ∧ drew (draw16 { up with noise := [noise true] }).1 = some .repetition :=
  ⟨rfl, by decide, by decide, by decide, by decide, by decide, by decide +kernel, by decide +kernel, by decide +kernel,
    by decide +kernel, by decide +kernel, by decide +kernel, by decide +kernel⟩

/-- The port's waiting operations with a read of a block in the buffer. -/
def waitingOps : State :=
  { withJob .active with smc := { ops := [.erase 3, .program 0 7 false, .verify 4] } }

theorem test_meets_port_and_bus : chooseOp waitingOps = some (.program 0 7 false) ∧ chooseOp up = none ∧ up.fm.part ≠ .halted
    ∧ WorkItem.auth 1 ∉ up.cbc.work ∧ (onBus .resync).cbc.flight ≠ none
    ∧ holdsVerified genuine = true ∧ drew (draw16 { up with noise := [noise false] }).1 = none := by decide +kernel

theorem test_meets_toner : ((onBus .resync genuine).cbc.slots.get 1).level = some ⟨9, 0, .low⟩
    ∧ holdsVerified ((onBus .resync genuine).cbc.slots.get 1) = true ∧ 0 < planeOf { c := 12 } 1
    ∧ levelClass 40000 400000 10 = .low ∧ levelClass 40001 400000 10 = .ok ∧ levelClass 0 400000 10 = .exhausted := by
  decide +kernel

theorem test_meets_retire_sanitize_wipe : blockState { up with smc := { free := [30719] } } 30719 = .clean
    ∧ blockState { up with smc := { defects := { retired := [0] } } } 0 = .retired
    ∧ blockState up 5 = .dirty ∧ blockState (withJob .queued { job with extents := [⟨7, 2⟩] }) 8 = .allocated
    ∧ up.se.sanitize = none ∧ (∀ j ∈ allJobs up.jt, isLive j = false) ∧ up.spm.supply.level ≠ some false
    ∧ (levels true true false).spm.supply.level = some false ∧ allJobs up.jt = [] ∧ allJobs (withJob .queued).jt ≠ [] := by
  decide +kernel

/-- A band that is page 1, band 1 and the last of its job. -/
def lastBand : Band :=
  { (default : Band) with version := 1, handle := 0, page := 1, index := 1, flags := 3, length := 1, payload := [9] }

theorem test_meets_intake : malformed lastBand = false ∧ malformed { lastBand with flags := 2 } = true
    ∧ malformed { lastBand with page := 2000, flags := 1 } = true ∧ malformed { lastBand with index := 255, flags := 0 } = true
    ∧ jobOf (withJob .intake).jt 0 = some { job with state := .intake } ∧ jobOf up.jt 0 = none
    ∧ (some (1, 1) : Option (Nat × Nat)) ≠ some (2, 1)
    ∧ 8192 ≤ pagesUsed (withJob .queued { job with pages := List.replicate 8192 (page none) }).jt
    ∧ ({ up with jt := { held := some ⟨lastBand, .room⟩, stallTimer := some 30000 } } : State).smc.programming = none := by
  decide +kernel

theorem test_meets_reads : ∀ k : LiveKey, ∃ stored : List Byte, openBand k 1 1 stored = none ∧ stored.length = 0 :=
  fun _ => ⟨[], rfl, rfl⟩

/-- A part whose port reads a band of three stored bytes. -/
def reading : State :=
  { up with
    bc := { keys := (Vector.replicate 64 none).set 0 (some ⟨0, 1, 2, 3⟩) }
    smc := { inFlight := some (.read ⟨.staging, 0, 1, 1, false⟩ ⟨7, 0, 3, none⟩ [7] 2 6) } }

theorem test_meets_read_in_flight : reading.powered = true ∧ liveKey reading 0 = some ⟨0, 1, 2, 3⟩
    ∧ ([1, 2, 3] : List Byte).length = (⟨7, 0, 3, none⟩ : BandPlace).length ∧ (1 : Nat) ≤ 6 := by decide +kernel

theorem test_meets_port_ends : ({ up with smc := { inFlight := some (.program 0 7 false 7) } } : State).smc.inFlight
      = some (.program 0 7 false 7)
    ∧ (∃ j, jobOf (withJob .intake).jt 0 = some j ∧ isLive j = true) ∧ (∀ j, jobOf up.jt 0 = some j → isLive j = false)
    ∧ ({ up with se := { work := some ⟨7, false, true⟩ } } : State).se.work = some ⟨7, false, true⟩ ∧ 7 ∉ up.smc.weak := by
  refine ⟨rfl, ⟨{ job with state := .intake }, by decide +kernel, by decide⟩, fun j h => ?_, rfl, by decide +kernel⟩
  rw [show jobOf up.jt 0 = none by decide +kernel] at h
  cases h

theorem test_meets_moved_extents : (extentBlocks [⟨7, 2⟩, ⟨12, 1⟩]).Nodup
    ∧ linearOf [⟨7, 2⟩, ⟨12, 1⟩] 1 131071 < (extentBlocks [⟨7, 2⟩, ⟨12, 1⟩]).length * 131072
    ∧ cutExtents 7 90 [⟨7, 2⟩, ⟨12, 1⟩] = [⟨90, 1⟩, ⟨8, 1⟩, ⟨12, 1⟩] := by decide

/-- A queued fault at a place. -/
def queued (place : Nat) : QueuedFault := ⟨place, ⟨place + 1, 0, ⟨.mediaWrite, 0, 1, 7, true⟩⟩⟩

/-- A fault queue with its four places taken and the backlog set. -/
def backlogged : FaultMonitor :=
  { part := .running, queue := [queued 0, queued 1, queued 2, queued 3], overflow := 1, backlog := true, nextNumber := 5 }

theorem test_meets_fault_ack : Serving { up with fm := backlogged } ∧ (∃ q ∈ backlogged.queue, q.record.number = 4)
    ∧ (∀ q ∈ backlogged.queue, q.record.number ≠ 5) ∧ (backlogged.queue.filter (·.record.number != 4)).length = 3
    ∧ FaultsOk backlogged ∧ FaultsOk up.fm ∧ up.fm.haltRecord = none
    ∧ ({ up with fm := { haltRecord := some lostHaltRecord } } : State).fm.haltRecord ≠ none := by
  refine ⟨serving_of (by decide +kernel), by decide, by decide, by decide, by unfold FaultsOk; decide, by unfold FaultsOk; decide,
    rfl, by decide⟩

theorem test_meets_halt : up.fm.part ≠ .halted := by decide

theorem test_meets_store_lock : locksOf (locked up { audit := true }) = { settings := false || (4 : Nat).testBit 0
                                                                          keys := false || (4 : Nat).testBit 1
                                                                          audit := true || (4 : Nat).testBit 2 }
    ∧ locksOf up ≠ { settings := (7 : Nat).testBit 0, keys := (7 : Nat).testBit 1, audit := (7 : Nat).testBit 2 } := by
  decide +kernel

theorem test_meets_power_and_restart : State.reset.powered = true ∧ unreadReplies up.lif < 8 ∧ up.fm.part ≠ .starting
    ∧ ({ up with fm := { part := .halted } } : State).fm.part = .halted := by decide +kernel

/-- A part in a step of its start-up. -/
def inStep (n : Nat) (wipe : Bool) (ps : Store) : State := { State.reset with startUp := some ⟨n, wipe, none⟩, ps := ps }

theorem test_meets_start_up_steps : State.reset.startUp = some ⟨1, false, none⟩ ∧ (inStep 1 true {}).startUp = some ⟨1, true, none⟩
    ∧ Stands .accounts (inStep 3 false { accounts := written .accounts [account] }).ps.accounts [] [account]
    ∧ Stands .defects (inStep 4 false {}).ps.defects {} {} ∧ Stands .history (inStep 5 false {}).ps.history {} {}
    ∧ (inStep 5 false {}).fm.part ≠ .halted ∧ (inStep 5 false {}).cbc.work = []
    ∧ ({ clean := [1, 2], retired := [0, 5] } : Defects).clean.Pairwise (· < ·)
    ∧ ({ clean := [1, 2], retired := [0, 5] } : Defects).retired.Pairwise (· < ·)
    ∧ Fails .accounts False (inStep 1 false { accounts := .broken }).ps.accounts
    ∧ (∀ content, Fails .keys True (written .keys content)) ∧ ¬ Fails .halt True .blank
    ∧ (testSource { State.reset with noise := [noise true] }).1 = some .repetition :=
  ⟨rfl, rfl, .inl rfl, .inr ⟨rfl, rfl⟩, .inr ⟨rfl, rfl⟩, by decide, rfl, by decide, by decide, .inl rfl,
    fun content => .inr ⟨content, _, rfl, .inl trivial⟩, (by rintro (h | ⟨_, _, h, _⟩) <;> cases h), by decide +kernel⟩

/-- Samples of which no two neighbours agree, and of which none value takes more than 400, pass (R140). -/
theorem samples_pass (l : List Byte) (h : Health) (apart : l.IsChain (· ≠ ·))
    (first : ∀ v n b, h.run = some (v, n) → l.head? = some b → v ≠ b) (few : ∀ b, h.window.count b + l.count b ≤ 400) :
    ∃ h', testSamples l h = (h', none) ∧ h'.last = h.last := by
  induction l generalizing h with
  | nil => exact ⟨h, rfl, rfl⟩
  | cons b rest ih =>
    have mine : ¬ 400 < (b :: h.window).count b := by
      have := few b
      simp only [List.count_cons_self] at this ⊢
      omega
    have step : testSample h b = ({ h with run := some (b, 1)
                                           window := if (b :: h.window).length ≥ 1024 then [] else b :: h.window }, none) := by
      unfold testSample
      cases e : h.run with
      | none => simp only [if_neg mine]; rfl
      | some p => simp only [if_neg mine, if_neg (first p.1 p.2 b e rfl)]; rfl
    rw [testSamples, step]
    refine ih _ apart.tail ?_ ?_
    · intro v n c e hc
      simp only [Option.some.injEq, Prod.mk.injEq] at e
      rw [← e.1]
      cases rest with
      | nil => cases hc
      | cons d rest => cases hc; exact (List.isChain_cons_cons.mp apart).1
    · intro c
      have := few c
      rw [List.count_cons] at this
      dsimp only
      split
      · simp; omega
      · rw [List.count_cons]; omega

/-- Sixteen values in turn, 256 times. -/
def passingSamples : List Byte := (List.replicate 256 ((List.range 16).map (BitVec.ofNat 8))).flatten

theorem source_passes {n : Noise} {s : State} {rest : List Noise} (h : s.noise = n :: rest)
    (all : startUpSamples s.noiseTaken n.samples = n.samples)
    (pass : (testNoise n.samples [firstHalf n.output, secondHalf n.output] {}).2 = none) : ∃ t, testSource s = (none, t) := by
  refine ⟨_, Prod.ext ?_ rfl⟩
  simp only [testSource, takeNoise, h, all, pass]

theorem test_source_passes :
    ∃ t, testSource { State.reset with noise := [{ samples := passingSamples, output := 5 }] } = (none, t) := by
  have apart : passingSamples.IsChain (· ≠ ·) := by
    refine (List.isChain_flatten (by decide +kernel)).mpr ⟨?_, List.isChain_replicate_of_rel _ (by decide)⟩
    intro l hl
    rw [List.eq_of_mem_replicate hl]
    decide
  obtain ⟨h', pass, last⟩ := samples_pass passingSamples {} apart (by intro v n b h; cases h) (by
    intro b
    have : ((List.range 16).map (BitVec.ofNat 8)).count b ≤ 1 := by revert b; decide +kernel
    simp only [passingSamples, List.count_flatten, List.map_replicate, List.sum_replicate, smul_eq_mul, List.count_nil]
    omega)
  have long : passingSamples.length = 4096 := by
    rw [passingSamples, List.length_flatten, List.map_replicate, List.sum_replicate]
    rfl
  have all : ∀ k, startUpSamples k passingSamples = passingSamples := by
    intro k
    simp [startUpSamples, Config.testSamples, long]
  have output : testOutput [firstHalf 5, secondHalf 5] h' = ({ h' with last := some 5 }, none) := by
    simp only [testOutput, last, show (firstHalf 5 : Digest) = 0 by decide, show (secondHalf 5 : Digest) = 5 by decide]
    rfl
  refine source_passes rfl (all _) ?_
  rw [testNoise, pass]
  exact congrArg Prod.snd output

theorem test_meets_transfers : up.lif.transfer = none ∧ up.lif.out = [] ∧ overrunLink.out ≠ []
    ∧ ({ overrunLink with transfer := some ⟨[0x5A], true, false, false⟩ } : LinkInterface).transfer
        = some ⟨[0x5A], true, false, false⟩ ∧ ([0] : List Byte).head? = some 0 := by decide +kernel

/-- Section 11.2: the frame of a BAD_FIELD reply to SANITIZE with tag 7 and two entries behind it, and the frame check of the
digits 1 to 9 (the published check value of this CRC). -/
theorem test_frame : frameOf (.reply { kind := 0x1D, tag := 7, status := 4, payload := .empty }) 2
      = [0xA5, 0x02, 0x1D, 0x07, 0x00, 0x00, 0x04, 0x02] ++ bytesOf 2 (frameCheck [0xA5, 0x02, 0x1D, 0x07, 0x00, 0x00, 0x04, 0x02])
    ∧ frameCheck [0x31, 0x32, 0x33, 0x34, 0x35, 0x36, 0x37, 0x38, 0x39] = 0x29B1 := by decide +kernel

theorem test_meets_host_frame : ([] : List Byte).length ≤ 1024 ∧ (List.replicate 1024 (1 : Byte)).length ≤ 1024 := by decide +kernel

theorem test_meets_link_faults : up.powered = true ∧ unreadReplies up.lif < 8 ∧ 8 ≤ unreadReplies overrunLink := by decide +kernel

/-- A part that serves with a store that holds its settings and keys. -/
def stored (part : PartState) : State :=
  { up with fm := { part := part }, ps := { settings := written .settings {}, loadedKeys := some {} } }

theorem stored_agrees (part : PartState) (n : Nat) : Agrees n (stored part) :=
  ⟨fun _ => ⟨rfl, rfl, {}, rfl, .inr ⟨rfl, rfl⟩⟩, fun _ => .inr ⟨rfl, rfl⟩, fun _ => .inr ⟨rfl, rfl⟩, fun _ => .inr ⟨rfl, rfl⟩⟩

theorem test_meets_store : StoreOk State.reset ∧ StoreOk (stored .running) ∧ Behind 6 (stored .running)
    ∧ Behind 6 (stored .halted) ∧ Agrees 6 (stored .halted) ∧ step (stored .halted) = .next { stored .halted with clock := 1 } := by
  refine ⟨⟨?_, fun h => absurd h (by decide), fun _ => ⟨rfl, by decide, fun _ => rfl⟩⟩,
    ⟨stored_agrees _ _, fun _ => ⟨.inl rfl, .inl rfl, .inl rfl⟩, fun h => absurd h (by decide)⟩, .inr (by decide),
    .inl rfl, stored_agrees _ _, rfl⟩
  refine ⟨fun h => absurd h (by decide), fun h => absurd h (by decide), fun h => absurd h (by decide), fun h => absurd h (by decide)⟩

theorem test_meets_ledger_reset : LedgerOk State.reset := by
  refine ⟨⟨?_, fun t h => ?_⟩, by simp [State.reset], by simp [State.reset], fun t h => ?_, fun _ => ⟨rfl, rfl⟩⟩
  · unfold TableOk AccountOk; decide +kernel
  · cases h
  · cases h

/-- A part whose ENGINE job has a page of one stored band in block 7, and a staging list. -/
def staged (staging : List StagingEntry) (smc : SpoolMedia := {}) : State :=
  let s := withJob .active { job with pages := [page (some .mono)], extents := [⟨7, 1⟩] }
  { s with
    jt := { s.jt with engine := { active := some 0 } }
    spm := { staging := staging }
    smc := { smc with bandMaps := [(7, [⟨1, 1, 0, 26⟩])] } }

/-- A staging entry in a state. -/
def stagingEntry (state : StageState) : StagingEntry := { handle := 0, index := 0, sides := [.page 1 .mono], image := [[]], state := state }

theorem test_meets_staging : (activeJob (staged []) .engine).map (·.handle) = some 0
    ∧ sheetFrom { job with pages := [page (some .mono)] } 0 = some 0
    ∧ sidesOf { job with pages := [page (some .mono)] } 0 = [] ++ .page 1 .mono :: []
    ∧ markedBlock (staged []) 0 1 1 = none ∧ markedBlock (staged [] { marked := [(7, .media)] }) 0 1 1 = some 7
    ∧ (stagingEntry (.reading 0 1)).state = .reading 0 1 ∧ (stagingEntry (.reading 0 1)).sides[0]? = some (.page 1 .mono)
    ∧ (page (some .mono)).bands ≤ 1 ∧ (staged [stagingEntry (.failed 1 7)]).spm.staging.head? = some (stagingEntry (.failed 1 7))
    ∧ (∃ e ∈ (staged [stagingEntry (.reading 0 1)]).spm.staging, e.state = .reading 0 1)
    ∧ ∀ e ∈ (staged [stagingEntry (.ready ⟨{}, 2, 3000⟩)]).spm.staging, e.state = .ready ⟨{}, 2, 3000⟩ := by decide +kernel

/-- A part whose scrub list holds a block of a job and one of a sanitize. -/
def scrubbing (list : List ScrubEntry) (work : Option BlockInWork) : State :=
  { up with se := { list := list, work := work, sanitize := some ⟨1, false, 0, 0⟩ } }

theorem test_meets_scrub : up.fm.part = .running ∧ (takeScrub (scrubbing [⟨7, .job 0⟩] none)).isSome = true
    ∧ takeScrub (scrubbing [⟨7, .job 0⟩] (some ⟨7, false, false⟩)) = none
    ∧ (finishSanitize (scrubbing [] none)).isSome = true ∧ finishSanitize (scrubbing [⟨7, .sanitize⟩] none) = none
    ∧ (scrubbing [⟨7, .job 0⟩] none).se.list.find? (·.block == 7) = some ⟨7, .job 0⟩
    ∧ (scrubbing [⟨7, .sanitize⟩] none).se.list.find? (·.block == 7) = some ⟨7, .sanitize⟩ := by decide +kernel

/-- A part whose scrub list holds blocks of a job in SCRUB. -/
def scrubbingJob (list : List ScrubEntry) : State := { withJob (.scrub .completed) with se := { list := list } }

/-- R143, R145: the return of the last block of a job in SCRUB frees its slot with a notice; that of another block does not. -/
theorem test_meets_returned_block : (scrubbingJob [⟨7, .job 0⟩]).fm.part = .running
    ∧ (jobOf (scrubbingJob [⟨7, .job 0⟩]).jt 0).map (·.state) = some (.scrub .completed)
    ∧ (∀ x ∈ (scrubbingJob [⟨7, .job 0⟩]).se.list, x.block ≠ 7 → x.origin ≠ .job 0)
    ∧ (∃ x ∈ (scrubbingJob [⟨7, .job 0⟩, ⟨8, .job 0⟩]).se.list, x.block ≠ 7 ∧ x.origin = .job 0)
    ∧ (scrubbingJob [⟨7, .sweep⟩]).se.list.find? (·.block == 7) = some ⟨7, .sweep⟩
    ∧ (returnClean 7 (scrubbingJob [⟨7, .job 0⟩])).lif.out.length = 1
    ∧ jobOf (returnClean 7 (scrubbingJob [⟨7, .job 0⟩])).jt 0 = none
    ∧ (returnClean 7 (scrubbingJob [⟨7, .job 0⟩, ⟨8, .job 0⟩])).lif.out = [] := by decide +kernel

/-- A part whose filling image of job 0 is block 7, filled so far. -/
def filling (filled : Nat) (handedOn : Bool) (programming : Option ProgrammingImage) (free : List Nat) : State :=
  { keyed .intake { job with extents := [⟨7, 1⟩] } with
    smc := { filling := some { handle := 0, block := 7, filled := filled, data := [], handedOn := handedOn }
             programming := programming, free := free } }

/-- The stored length of the band of the tests is 17: it ends a block filled to 131055, and goes on from one filled to 131056. -/
theorem test_meets_storing : lastBand.length + 16 = 17 ∧ 131055 + 17 = 131072 ∧ 131072 < 131056 + 17
    ∧ liveKey (filling 0 false none [9]) 0 = some ⟨0, 0, 1, 2⟩
    ∧ (jobOf (filling 0 false none [9]).jt 0).map (·.state) = some .intake
    ∧ (bandMapOf (filling 0 false none [9]).smc 7).length < 64 ∧ roomForBlock (filling 131056 false none [9]) job = true
    ∧ roomForBlock (filling 131056 false none []) job = false
    ∧ (filling 131056 false (some ⟨3, 8, 1, [], false, .waiting⟩) [9]).smc.programming ≠ none
    ∧ (filling 0 true none [9]).smc.filling.map (·.handedOn) = some true ∧ (keyed .intake).smc.filling = none
    ∧ ({ job with pages := [page none] } : Job).pages = [] ++ [page none]
    ∧ (filling 0 false none [9]).jt.held = none ∧ linkOpen (filling 0 false none [9]) = true
    ∧ linkOpen (filling 0 true none [9]) = false := by decide +kernel

/-- R117: an image handed on, with no programming image and with one. -/
theorem test_meets_handed_on : (handOn (filling 9 true none [])).map (fun s => (s.smc.filling, s.smc.ops))
      = some (none, [.program 0 7 false])
    ∧ handOn (filling 9 true (some ⟨3, 8, 1, [], false, .waiting⟩) []) = none ∧ handOn (filling 9 false none []) = none := by
  decide +kernel

/-- A programming image of job 0 in block 7. -/
def image : ProgrammingImage := { handle := 0, block := 7, filled := 131072, data := [] }

theorem test_meets_failures : ([] : List (Nat × Nat)).length ≤ 2048
    ∧ (remapBlock 7 (filling 0 false none [9])).isSome = true
    ∧ remapBlock 7 { up with smc := { defects := { remap := [(7, 30720)] } } } = none
    ∧ 2047 - (List.replicate 2047 ((0, 0) : Nat × Nat)).length = 0 ∧ cutExtents 7 9 [⟨7, 1⟩] = [⟨9, 1⟩]
    ∧ extentsUsed (filling 0 false none [9]).jt + 1 ≤ 4096 + 1 ∧ image.block ≠ 9
    ∧ (filling 0 false none []).smc.free = [] ∧ (jobOf (filling 0 false none [9]).jt image.handle).map (·.handle) = some 0
    ∧ (scrubbing [⟨7, .job 0⟩] (some ⟨7, false, true⟩)).se.work = some ⟨7, false, true⟩ := by decide +kernel

theorem test_meets_codewords : (some [none, some 3] : Option (List (Option Nat))).getD [] ≠ []
    ∧ codewordResult 2 [none, none, some 3] = .reread 3 ∧ codewordResult 1 [none, none, some 3] = .uncorrectable
    ∧ (∀ x ∈ ([none, none, some 3] : List (Option Nat)).take (1 + 1), x = none)
    ∧ placeCodewords ⟨7, 0, 3, none⟩ = [7] ∧ markOf ({} : SpoolMedia) 7 = none := by decide

theorem test_meets_verification_ends : ((onBus (.probe 1) genuine).cbc.slots.get 1).verification = .genuine
    ∧ ((onBus (.probe 1) genuine).cbc.slots.get 1).level = some ⟨9, 0, .low⟩
    ∧ ((onBus (.probe 1)).cbc.slots.get 1).level = none ∧ ((onBus (.probe 1) genuine).cbc.slots.get 1).figures ≠ none
    ∧ recordByte (exampleRecord 0) 3 = 0x23 ∧ up.fm.part ≠ .halted := by decide +kernel

theorem test_meets_cut : ({ journal := [.halt .blank, .accounts .blank] } : Store).journal = .halt .blank :: [.accounts .blank]
    ∧ (writeHalt .broken {}).journal = [.halt .blank] ∧ ({} : Store).journal = [] := ⟨rfl, rfl, rfl⟩

/-! ### One step of a few commands, with figures of the spec -/

/-- What holds of the next state. -/
def leads (o : Host.Outcome State Fault Refusal) (p : State → Bool) : Bool :=
  match o with
  | .next t => p t
  | _ => false

/-- R37: a withdrawal down to the overdraft limit is taken, and one credit more is not. -/
theorem test_withdraw_to_the_limit :
    leads (exec (.acctCredit 7 5 (-110)) (withAccounts [account])) (fun t => t.accounts == [{ account with balance := -10 }])
      ∧ leads (exec (.acctCredit 7 5 (-111)) (withAccounts [account])) (fun t => t.accounts == [account]) := by decide +kernel

/-- R38, R30: an ACCT_SET with no field, or with the limit that stands, is answered OK and writes nothing; a changed record is
written once. -/
theorem test_no_change_writes_nothing :
    let writes (overdraft : Option Nat) := leads (exec (.acctSet 7 5 overdraft none none none) (withAccounts [account]))
    writes none (fun t => t.ps.journal.isEmpty) ∧ writes (some 10) (fun t => t.ps.journal.isEmpty)
      ∧ writes (some 9) (fun t => t.ps.journal.length == 1 && t.accounts == [{ account with overdraft := 9 }]) := by decide +kernel

/-- R20: a job's report carries its extents, the total of their blocks, and neither expected page nor band. -/
theorem test_job_read_extents :
    let r := jobReport { job with extents := [{ first := 9, count := 2 }, { first := 40, count := 1 }] } 1
    r.job.extents = [{ first := 9, count := 2 }, { first := 40, count := 1 }] ∧ r.blocks = 3 ∧ r.job.expected = none := by decide

/-- R20: a stalled job's report carries its cause and time, and not the model's number of the stall. -/
theorem test_job_read_stall :
    (jobReport { job with state := .stalled .credit 5 9 } 1).job.state = .stalled .credit 5 0 := by decide

/-- R9: a halt leaves no job with a sheet in the path, one already in SCRUB among them. -/
theorem test_halt_clears_in_flight :
    (jobOf (haltPart (.randomSource .repetition .nonce) (withJob (.scrub .completed) { job with inFlight := 2 })).jt 0).map (·.inFlight)
      = some 0 := by decide +kernel

/-- R29, R36: a new account stands in the table in order of its ID. -/
theorem test_create_in_order :
    leads (exec (.acctCreate 7 3 0 0 none) (withAccounts [account])) (fun t => t.accounts.map (·.id) == [3, 5]) := by
  decide +kernel

/-- R62, R32: a delivered sheet is charged to its owner and leaves the path. -/
theorem test_delivery_charges :
    leads (exec .exitLeadingEdge (withSheets [sheet true])) (fun t =>
      t.accounts.map (fun a => (a.balance, a.reserved, a.counters.sheets)) == [(96, 0, 1)] && t.spm.sheets.isEmpty) := by
  decide +kernel

/-- R158, R159: with four records queued a JOB condition only counts. -/
theorem test_fifth_fault_counts :
    (raiseJobFault (queued 0).record.fault { up with fm := { backlogged with backlog := false, overflow := 0 } }).fm.overflow = 1 := by
  decide +kernel

/-! ### The hypotheses of clauses about single operations are met -/

/-- A part with a job in SCRUB, its key slot ZERO. -/
theorem scrub_slots (o : JobOutcome) (i : Fin 64) (n : Nat := 0) : SlotOk (withJob (.scrub o) { job with inFlight := n }) i := by
  have slot : (withJob (.scrub o) { job with inFlight := n }).jt.slots.get i
      = if i = 0 then { job := some { job with state := .scrub o, inFlight := n } } else {} := by
    simp only [withJob, putJob, show slotOf job.handle = 0 from rfl, Vector.get_eq_getElem, Vector.getElem_set, Fin.ext_iff]
    by_cases e : (i : Nat) = 0
    · simp [e]
    · simp [e, Ne.symm e]
  have key : (withJob (.scrub o) { job with inFlight := n }).bc.keys.get i = none := by
    simp [withJob, withAccounts, up, State.reset, Vector.get]
  simp only [SlotOk, slot, key]
  by_cases e : i = 0
  · subst e; simp [isLive, job]
  · simp [e]

theorem test_meets_jam_jobs : (∀ st j, j.handle = 0 → isLive { j with state := st } = true → ∀ i, SlotOk (keyed st j) i)
    ∧ (∀ o i, SlotOk (withJob (.scrub o)) i) ∧ (keyed .active).bc.stuck = [] ∧ (withJob (.scrub .completed)).bc.stuck = []
    ∧ [sheet true, sheet false] = [] ++ sheet true :: [sheet false] ∧ (∀ x ∈ ([] : List Sheet), x.handle ≠ (sheet true).handle)
    ∧ (jobOf (keyed (.draining .cancel)).jt 0).map (·.state) = some (.draining .cancel)
    ∧ (jobOf (keyed (.stalled .paused 4 1)).jt 0).map (·.state) = some (.stalled .paused 4 1)
    ∧ (jobOf (keyed .active).jt 0).map (·.state) = some .active :=
  ⟨fun st j h live => keyed_slots st j h live, fun o i => scrub_slots o i, rfl, rfl, rfl, (by simp), by decide +kernel, by decide +kernel,
    by decide +kernel⟩

theorem test_meets_exits : (jobOf (withJob .active { job with inFlight := 2 }).jt (sheet true).handle).map (·.inFlight) = some 2
    ∧ (jobOf (withJob (.draining .ends) { job with inFlight := 1 }).jt 0).map (fun j => (j.inFlight, j.state)) = some (1, .draining .ends)
    ∧ (jobOf (withJob (.draining .cancel) { job with inFlight := 1 }).jt 0).map (·.state) = some (.draining .cancel)
    ∧ jobOf up.jt (sheet true).handle = none := by decide +kernel

/-- A sheet with a colour page that takes 12 units of the plane of slot 1. -/
def colourSheet : Sheet := { sheet false with sides := [.page 1 .colour], demand := { c := 12 } }

/-- R97 to R99: the mirror of 9 is emptied, so the write-back is due, and an authentication where the interval has passed. -/
theorem test_meets_entry : (granting .genuine .colour account).fm.part ≠ .halted
    ∧ planeOf colourSheet.demand 1 = 12 ∧ planeOf colourSheet.demand 0 = 0
    ∧ (enterCartridges colourSheet (granting .genuine .colour account)).cbc.work = [.writeBack 1]
    ∧ (enterCartridges colourSheet { granting .genuine .colour account with settings := { meter := { reauthInterval := 1 } } }).cbc.work
        = [.writeBack 1, .auth 0, .auth 1, .auth 2, .auth 3] := by decide +kernel

/-- R44: the counters at their top, and one sheet with a side of each class. -/
theorem test_counters_saturate :
    (charge 4 [.page 1 .mono, .page 2 .colour] true { account with counters := { sheets := 4294967295, nonGenuine := 4294967294 } }).counters
      = { sheets := 4294967295, monoSides := 1, colourSides := 1, nonGenuine := 4294967295 } := by decide +kernel

/-- A part whose export job may begin a page. -/
def beginning (pages : List PageEntry) : State :=
  let s := withJob .active { job with kind := .scanOut, pages := pages, extents := [⟨7, 1⟩] }
  { s with
    jt := { s.jt with exporter := { active := some 0 } }
    smc := { bandMaps := [(7, [⟨1, 1, 0, 26⟩])] } }

theorem test_meets_export_start : (beginning [page (some .mono)]).jt.exportPhase = .idle
    ∧ (activeJob (beginning [page (some .mono)]) .exporter).map (fun j => (j.nextSheet, j.pages[1 - 1]?.map (·.skipped)))
        = some (0, some false)
    ∧ markedBlock (beginning [page (some .mono)]) 0 1 1 = none
    ∧ markedBlock { beginning [page (some .mono)] with
        smc := { (beginning [page (some .mono)]).smc with marked := [(7, .media)] } } 0 1 1 = some 7
    ∧ (activeJob (beginning [{ page none with skipped := true }]) .exporter).map (·.pages.all (·.skipped)) = some true
    ∧ activeJob up .exporter = none := by decide +kernel

/-- A port whose waiting read has come to occupy a marked block. -/
def markedRead (r : Reader) : State :=
  let s := beginning [page (some .mono)]
  { s with smc := { s.smc with marked := [(7, .media)], ops := [.erase 3, .read { reader := r, handle := 0, page := 1, index := 1 }] } }

theorem test_meets_marked_reads : markedBlock (markedRead .staging) 0 1 1 = some 7 ∧ (endMarkedRead (markedRead .exporter)).isSome = true
    ∧ (endMarkedRead (markedRead .staging)).isSome = true ∧ endMarkedRead (beginning []) = none
    ∧ (jobOf (markedRead .staging).jt 0).bind (fun j => (placeOf (markedRead .staging).smc j 1 1).map (·.block)) = some 7
    ∧ markOf (markedRead .staging).smc 7 = some .media := by decide +kernel

/-- A part with an image of job 0 in a phase and a band held. -/
def expiring (phase : ProgramPhase) (held : Option HeldBand) (free : List Nat) : State :=
  let s := filling 0 false (some { handle := 0, block := 7, filled := 131072, data := [], phase := phase }) free
  { s with jt := { s.jt with held := held, stallTimer := some 30000 } }

theorem test_meets_stall_expiry : (expiring .needsBlock none []).smc.programming.map (·.phase) = some .needsBlock
    ∧ (expiring .needsBlock (some ⟨lastBand, .room⟩) []).jt.held.map (·.band.handle) = some 0
    ∧ (expiring .needsBlock (some ⟨lastBand, .image⟩) []).jt.held.map (·.reason) = some .image
    ∧ (expiring .needsBlock (some ⟨{ lastBand with handle := 1 }, .room⟩) []).jt.held.map (·.band.handle) = some 1
    ∧ (slotOf (expiring .needsBlock none []).smc.programming.get!.handle).val ∉ (expiring .needsBlock none []).bc.stuck := by
  decide +kernel

/-- R118: an image that waits for a block moves as soon as one is free, and not before. -/
theorem test_meets_image_moves : (moveImage (expiring .needsBlock none [9])).isSome = true
    ∧ moveImage (expiring .needsBlock none []) = none
    ∧ (jobOf (expiring .needsBlock none [9]).jt 0).map (·.extents) = some [⟨7, 1⟩] := by decide +kernel

/-- R5, R118, R120: the phases in which a close finds an image of its job, and a write-back it owes. -/
theorem test_meets_close_images :
    (∀ p ∈ [ProgramPhase.waiting, .inFlight, .needsBlock], (expiring p none []).smc.programming.map (·.phase) = some p
      ∧ (expiring p none []).smc.programming.map (·.handle) = some 0)
    ∧ (expiring .waiting none []).smc.filling.map (·.handle) = some 0
    ∧ (slotOf 0).val ∉ (expiring .waiting none []).bc.stuck
    ∧ (slotOf 0).val ∈ ({ expiring .waiting none [] with bc := { stuck := [0] } } : State).bc.stuck
    ∧ (closeCore .cancelled 0 { withJob (.draining .cancel) with
        cbc := { slots := (Vector.replicate 4 {}).set 1 { genuine with drawing := [0], level := some ⟨9, 5, .low⟩ } } }).cbc.work
          = [.writeBack 1] := by decide +kernel

/-- A part whose port can start one operation. -/
def starting (op : PortOp) : State := { beginning [page (some .mono)] with smc := { (beginning []).smc with ops := [op] } }

theorem test_meets_port_starts :
    chooseOp (starting (.read ⟨.exporter, 0, 1, 1, true⟩)) = some (.read ⟨.exporter, 0, 1, 1, true⟩)
    ∧ chooseOp (starting (.erase 7)) = some (.erase 7) ∧ chooseOp (starting (.verify 7)) = some (.verify 7)
    ∧ (starting (.erase 7)).smc.inFlight = none ∧ (starting (.erase 7)).fm.part ≠ .halted
    ∧ (startPort (starting (.erase 7))).map (·.smc.ops) = some []
    ∧ holdsVerified ({} : CartSlot) = false ∧ ({ genuine with level := some ⟨9, 0, .low⟩ } : CartSlot).level.map (·.pending) = some 0
    ∧ drew (draw16 { up with noise := [noise true] }).1 = some .repetition := by decide +kernel

/-- R173, R141: blank partitions, and a store with and without a device key. -/
theorem test_meets_blank_and_key : (inStep 1 false {}).ps.halt = .blank ∧ (inStep 1 false {}).ps.history = .blank
    ∧ (keysOf (inStep 2 false {})).device = none ∧ (keysOf (inStep 2 false { loadedKeys := some { device := some 4 } })).device ≠ none
    ∧ drew (draw32 { inStep 2 false {} with noise := [noise false] }).1 = none
    ∧ drew (draw32 { inStep 2 false {} with noise := [noise true] }).1 = some .repetition
    ∧ (inStep 2 false {}).fm.part ≠ .halted := by decide +kernel

/-- R173: the ordinary start-up, with HALT blank and the others written and whole. -/
theorem test_meets_passing :
    let s := inStep 1 false { settings := written .settings {}, history := written .history {}, keys := written .keys {}
                              accounts := written .accounts [account], defects := written .defects {} }
    s.ps.halt = .blank ∧ s.ps.settings = written .settings {} ∧ s.ps.history = written .history {} ∧ s.ps.keys = written .keys {}
      ∧ s.ps.accounts = written .accounts [account] ∧ s.ps.defects = written .defects {}
      ∧ (inStep 1 false { halt := written .halt lostHaltRecord }).ps.halt = written .halt lostHaltRecord
      ∧ ∀ p : PartitionId, p ∉ ([] : List PartitionId) :=
  ⟨rfl, rfl, rfl, rfl, rfl, rfl, rfl, fun _ => List.not_mem_nil⟩

/-- R165, R166: a halt with a live job, a sanitize and a RESTART of its own tag under way, and a program in flight. -/
theorem test_meets_halt_notices :
    (∀ j ∈ allJobs (keyed .active).jt, isLive j = true) ∧ allJobs (keyed .active).jt ≠ []
    ∧ (scrubbing [] none).se.sanitize.map (·.tag) = some 1
    ∧ ({ up with startUp := some ⟨1, false, some 9⟩ } : State).startUp.bind (·.tag) = some 9
    ∧ ({ up with smc := { inFlight := some (.program 0 7 false 7) } } : State).smc.inFlight = some (.program 0 7 false 7)
    ∧ (keyed .active).jt.held = none ∧ (keyed .active).smc.programming = none := by decide +kernel

/-- A part with a job of two sheets in flight closed in the event that runs. -/
def cutting : State :=
  let s := withJob (.scrub (.aborted .mediaWrite)) { job with inFlight := 2 }
  { s with jt := { s.jt with closedNow := [0] } }

/-- R4: a halt in the event in which a job with sheets in flight was closed. -/
theorem test_meets_cut_short : (∀ i, SlotOk cutting i) ∧ cutting.fm.part ≠ .halted ∧ (0 : Nat) ∈ cutting.jt.closedNow
    ∧ (jobOf cutting.jt 0).map (fun j => (j.state, j.inFlight)) = some (.scrub (.aborted .mediaWrite), 2) :=
  ⟨fun i => scrub_slots (.aborted .mediaWrite) i 2, by decide, by decide, by decide +kernel⟩

/-- The in-flight counts of the JOB_STATE notices that wait. -/
def toldInFlight (s : State) : List (Option Nat) :=
  s.lif.out.filterMap fun e => match e with
    | .notice (.jobState _ content) => some (content.tallies.map (·.inFlight))
    | _ => none

/-- R4, R9: the close of a job with two sheets in flight whose key slot is stuck, a close of the event before it, and one with
no halt. -/
theorem test_notice_of_a_cut_close :
    let active := keyed .active { job with inFlight := 2, extents := [⟨7, 2⟩] }
    let closed := closeJob (.aborted .mediaWrite) 0 active
    toldInFlight (closeJob (.aborted .mediaWrite) 0 { active with bc := { active.bc with stuck := [0] } }) = [some 0]
    ∧ toldInFlight closed = [some 2]
    ∧ toldInFlight (haltPart (.randomSource .repetition .nonce) closed) = [some 0]
    ∧ toldInFlight (haltPart (.randomSource .repetition .nonce) (beginEvent .transferStart closed)) = [some 2] := by decide +kernel

/-- R177: a wipe with the door closed and with it open, of a verified slot and of an unverified one. -/
theorem test_meets_wipe_slots : up.spm.doorOpen = false ∧ (path false true false).spm.doorOpen = true
    ∧ holdsVerified ((onBus .resync genuine).cbc.slots.get 1) = true ∧ holdsVerified (up.cbc.slots.get 1) = false := by
  decide +kernel

/-- R171: a part with a store write at stake. -/
def writing : State := { up with ps := writeHalt .broken {} }

/-- R113, R171: a cut finds the writes of the command before it; another command finds none. -/
theorem test_meets_journal : writing.ps.journal ≠ [] ∧ up.ps.journal = [] ∧ Instr.powerLoss {} = .powerLoss {}
    ∧ (∀ cut, Instr.transferStart ≠ .powerLoss cut ∧ Instr.transferStart ≠ .resetInput cut)
    ∧ leads (step { writing with pending := [.transferStart] }) (fun t => t.ps.journal.isEmpty && t.ps.halt == .broken)
    ∧ leads (step { writing with pending := [.powerLoss { undone := 1 }] }) (fun t => t.ps.halt == .blank) := by
  refine ⟨by decide, rfl, rfl, (fun _ => ⟨nofun, nofun⟩), by decide +kernel, by decide +kernel⟩

/-- R28, R122: a job to whose export reader a read of page 1 goes, and one given up. -/
theorem test_meets_export_results : (jobOf (beginning [page (some .mono)]).jt 0).map (fun j => j.pages[1 - 1]?.isSome) = some true
    ∧ (⟨.exporter, 0, 1, 1, false⟩ : ReadRequest).reader = .exporter ∧ (⟨.exporter, 0, 1, 1, false⟩ : ReadRequest).dropped = false
    ∧ (⟨.exporter, 0, 1, 1, true⟩ : ReadRequest).dropped = true
    ∧ ((jobOf (handResult ⟨.exporter, 0, 1, 1, false⟩ (.failed 7) (beginning [page (some .mono)])).jt 0).map (·.state))
        = some (.stalled .image 0 0) := by decide +kernel

/-- R194: a transfer in which a start-up began; R51, R160, R184: values outside their lists. -/
theorem test_meets_cut_transfer_and_wrong_values :
    ({ up with lif := { transfer := some ⟨[], false, false, true⟩ } } : State).lif.transfer.map (·.cut) = some true
    ∧ ([2] : List Byte).length = 1 ∧ 2 ≤ (([2] : List Byte).headD 0).toNat ∧ ([2, 0, 0] : List Byte).length = 3
    ∧ ([.doorState, .faultAck, .restart].map fun k => (takeBytes (hostFrame 1 (kindByte k) 7 0 0
          (if k = .faultAck then [2, 0, 0] else [2])) up).lif.out)
        = [.doorState, .faultAck, .restart].map fun k => (answered k 7 .badField .empty up).lif.out := by decide +kernel

/-- An entry of the history. -/
def entry (serial : Serial) : HistoryEntry := ⟨serial, 2, 1, 9, 0, 1, false⟩

/-- R96, R97: entries under and at the bound of 32, of which the slots hold all but one; and a deduction of a slot whose serial
no other slot holds. -/
theorem test_meets_history : (List.replicate 31 (entry 8)).length < 32 ∧ (∃ x ∈ [entry 8], x.serial = (entry 8).serial)
    ∧ (∀ x ∈ List.replicate 31 (entry 9) ++ entry 7 :: [entry 8], x.serial ≠ (entry 6).serial) ∧ (entry 7).serial ∉ ([8] : List Serial)
    ∧ (∀ y ∈ [entry 8], y.serial ∈ ([8] : List Serial))
    ∧ heldSerials (onBus .resync genuine).cbc = [8] ∧ planeOf colourSheet.demand 1 = 12
    ∧ ((onBus .resync genuine).cbc.slots.get 1).serial = some 8
    ∧ (∀ k : Fin 4, k ≠ 1 → ((onBus .resync genuine).cbc.slots.get k).serial ≠ some 8)
    ∧ (enterCartridges colourSheet (onBus .resync genuine)).cbc.history = [⟨8, 2, 1, 0, 9, 1, false⟩] := by decide +kernel

/-- R74, R76, R78: a sheet with a front and a back page. -/
theorem test_meets_sides : ({ job with pages := [page (some .mono), page (some .colour)] } : Job).pages[2 - 1]? = some (page (some .colour))
    ∧ (∀ n cls, Side.page 2 .colour = .page n cls → 1 ≤ n)
    ∧ sheetCost {} { job with pages := [page (some .mono), page (some .colour)] } 624 [.page 1 .mono, .page 2 .colour]
        = sideCost {} 624 .mono {} + backCost ({} : PriceSettings).duplexPct (sideCost {} 624 .colour {}) := by
  refine ⟨rfl, (fun n cls h => by cases h; decide), by decide +kernel⟩

/-- R122: a band given too long and too short is delivered at its stored length. -/
theorem test_meets_delivered : (bandDelivered 6 3 [1, 2, 3, 4]) = [1, 2, 3] ∧ (bandDelivered 6 3 [1, 2]).length = 3
    ∧ (bandDelivered 6 3 [1, 2]).take 2 = [1, 2] := ⟨rfl, rfl, rfl⟩

/-- A part that serves with every logical block clean. -/
def cleanPart : State :=
  { up with smc := { defects := { clean := List.range Config.logicalBlocks }, free := List.range Config.logicalBlocks } }

theorem defects_ok_range (n : Nat) (h : n ≤ Config.logicalBlocks) : DefectsOk { clean := List.range n } :=
  ⟨List.pairwise_lt_range, .nil, fun _ hb => ⟨(List.mem_range.mp hb).trans_le h, by simp⟩, by simp⟩

/-- The state right after reset and a RUNNING part hold the four collections as R112 has them. -/
theorem test_meets_blocks : BlocksOk State.reset ∧ BlocksOk cleanPart
    ∧ step cleanPart = .next { cleanPart with clock := 1 } := by
  have jobs : allJobs ({} : JobTable) = [] := by decide +kernel
  refine ⟨⟨⟨fun h => absurd h (by decide), fun _ => .inl (by simp [collected, State.reset, jobs]), fun _ => ⟨rfl, by decide⟩⟩,
      ⟨defects_ok_range 0 (Nat.zero_le _), fun _ => Iff.rfl, by simp [storedDefects, storedDefects.defectsOf, State.reset]⟩, ?_, ?_⟩,
    ⟨⟨fun _ => by simp [collected, cleanPart, up, State.reset, jobs], fun h => absurd h (by decide), fun h => absurd h (by decide)⟩,
      ⟨defects_ok_range _ (le_refl _), fun _ => Iff.rfl, by simp [storedDefects, storedDefects.defectsOf, cleanPart, up, State.reset]⟩,
      ?_, ?_⟩, rfl⟩
  all_goals simp [ImagesOk, ScrubOk, State.reset, cleanPart, up, jobs]

/-! ### Host bytes -/

/-- R187: the bytes at which each step of the examination decides. -/
theorem test_host_bytes : examine [] = .wrong .dropped 0 0 ∧ examine [0] = .nothing
    ∧ examine [0x5B, 1, 0x22, 7, 0, 0, 0, 0] = .wrong .dropped 7 0x22
    ∧ examine [0x5A, 1, 0x22, 7, 0, 0, 0] = .wrong .dropped 7 0x22
    ∧ examine [0x5A, 1, 0x22, 7, 0x01, 0x04, 0, 0] = .wrong .oversize 7 0x22
    ∧ examine [0x5A, 1, 0x22, 7, 0x00, 0x04, 0, 0] = .wrong .short 7 0x22
    ∧ examine ((hostFrame 1 0x22 7 0 0 []).dropLast) = .wrong .short 7 0x22
    ∧ examine ((hostFrame 1 0x22 7 0 0 []).dropLast ++ [0]) = .wrong .check 7 0x22
    ∧ examine (hostFrame 1 0x22 7 0 0 [] ++ [0xEE]) = .wellFormed 1 0x22 7 [] := by decide +kernel

/-- R195, R189: request commands with frames, and a frame that stands for its command. -/
theorem test_request_frames : (Instr.acctCredit 7 5 (-110)).wellFormed = true
    ∧ requestOf (.acctCredit 7 5 (-110)) = some (.acctCredit, 7)
    ∧ requestPayload (.acctCredit 7 5 (-110)) = [5, 0, 0x92, 0xFF, 0xFF, 0xFF]
    ∧ requestPayload (.priceSet 7 { stdColour := some 258 }) = [2, 2, 1]
    ∧ leads (exec (.acctCredit 7 5 (-110)) (withAccounts [account])) (fun t =>
        let u := takeBytes (hostFrame 1 3 7 0 0 [5, 0, 0x92, 0xFF, 0xFF, 0xFF]) (withAccounts [account])
        t.accounts == u.accounts && t.lif.out == u.lif.out && t.accounts == [{ account with balance := -10 }]) := by decide +kernel

/-- R189: the statuses of frames that name no request or whose payload is not one of its kind. -/
theorem test_frame_refusals :
    let answer (kind : Byte) (payload : List Byte) : List Entry := (takeBytes (hostFrame 1 kind 7 0 0 payload) up).lif.out
    answer 0x27 [] = [.reply { kind := 0x27, tag := 7, status := 3, payload := .empty }]
    ∧ answer (kindByte .acctCreate) [2, 0, 0, 0, 0, 0, 0, 0] = (answered .acctCreate 7 .badField .empty up).lif.out
    ∧ answer (kindByte .acctCreate) [1, 0, 0, 0, 0, 0, 0, 0] = (answered .acctCreate 7 .badLength .empty up).lif.out
    ∧ answer (kindByte .acctSet) [8, 5, 0, 2] = (answered .acctSet 7 .badField .empty up).lif.out
    ∧ answer (kindByte .acctSet) [8, 5, 0, 1, 0] = (answered .acctSet 7 .badLength .empty up).lif.out
    ∧ answer (kindByte .limitsSet) [64] = (answered .limitsSet 7 .badField .empty up).lif.out
    ∧ answer (kindByte .limitsSet) [63] = (answered .limitsSet 7 .badLength .empty up).lif.out
    ∧ answer (kindByte .status) [0] = (answered .status 7 .badLength .empty up).lif.out := by decide +kernel

end Sys2Proof.Tests
end

/-! PROOFS. The account requests ACCT_CREATE, ACCT_DELETE, ACCT_UNLOCK and COUNTERS_CLEAR: what each owner answers, one
equation for each branch of its rule, and the statements those equations settle. -/

namespace Sys2Proof.Machine

open Host (Outcome)

/-- A part that serves requests replies with what the owner of the request answers. -/
theorem next_request_of_answer {s : State} (serving : Serving s) {k : RequestKind} {tag : Byte} {owner : State → Answer}
    {a : Answer} (answer : owner s = a) :
    (.next (request k tag owner s) : Outcome State Fault Refusal) = .next (answered k tag a.status a.payload a.state) := by
  rw [request_serving serving, answer]

/-! ### The commands and their owners -/

theorem exec_acctCreate (tag : Byte) (id overdraft colour : Nat) (pin : Option (List Byte)) (s : State) :
    exec (.acctCreate tag id overdraft colour pin) s
      = .next (request .acctCreate tag (acctCreate id overdraft colour pin) s) := rfl

theorem exec_acctDelete (tag : Byte) (id : Nat) (s : State) :
    exec (.acctDelete tag id) s = .next (request .acctDelete tag (acctDelete id) s) := rfl

theorem exec_acctUnlock (tag : Byte) (id : Nat) (s : State) :
    exec (.acctUnlock tag id) s = .next (request .acctUnlock tag (acctUnlock id) s) := rfl

theorem exec_countersClear (tag : Byte) (id : Nat) (s : State) :
    exec (.countersClear tag id) s = .next (request .countersClear tag (countersClear id) s) := rfl

/-! ### ACCT_CREATE (R36) -/

theorem yesNo_of_le_one {n : Nat} (h : n ≤ 1) : yesNo n = some (decide (n = 1)) := by
  obtain rfl | rfl : n = 0 ∨ n = 1 := by omega
  · rfl
  · rfl

theorem yesNo_eq_none_iff {n : Nat} : yesNo n = none ↔ 1 < n := by
  constructor
  · intro neither
    by_contra h
    simp [yesNo_of_le_one (Nat.not_lt.mp h)] at neither
  · intro h
    rw [yesNo, if_neg (by omega), if_neg (by omega)]

/-- R36 step 1: ACCT_CREATE has a field out of range. -/
theorem acctCreateFields_eq_none_iff {id overdraft colour : Nat} {pin : Option (List Byte)} :
    acctCreateFields id overdraft colour pin = none
      ↔ id = 0 ∨ 65535 < id ∨ 1000000 < overdraft ∨ 1 < colour ∨ ∃ p, pin = some p ∧ validPin p = false := by
  have pinBad : pin.all validPin = false ↔ ∃ p, pin = some p ∧ validPin p = false := by cases pin <;> simp
  simp only [acctCreateFields, ite_eq_left_iff, yesNo_eq_none_iff, ← pinBad, Config.overdraftMax, Bool.or_eq_true, gt_iff_lt,
    decide_eq_true_eq, Bool.not_eq_true']
  tauto

/-- R36 step 1: with every field in range, colour 1 gives the colour right. -/
theorem acctCreateFields_eq_some {id overdraft colour : Nat} {pin : Option (List Byte)} (hlow : 1 ≤ id) (hhigh : id ≤ 65535)
    (hover : overdraft ≤ 1000000) (hcolour : colour ≤ 1) (hpin : ∀ p, pin = some p → validPin p = true) :
    acctCreateFields id overdraft colour pin = some (decide (colour = 1)) := by
  have pinGood : pin.all validPin = true := by simpa [Option.all_eq_true] using hpin
  rw [acctCreateFields, if_neg (by simp [pinGood, Config.overdraftMax]; omega), yesNo_of_le_one hcolour]

section Create

variable {id overdraft colour : Nat} {pin : Option (List Byte)} {right : Bool} {s : State}

theorem acctCreate_badField (fields : acctCreateFields id overdraft colour pin = none) :
    acctCreate id overdraft colour pin s = refuse .badField s := by
  simp only [acctCreate, fields]

theorem acctCreate_wrongState (fields : acctCreateFields id overdraft colour pin = some right)
    (used : (findAccount id s.accounts).isSome = true) :
    acctCreate id overdraft colour pin s = refuse .wrongState s := by
  simp only [acctCreate, fields, if_pos used]

theorem acctCreate_full (fields : acctCreateFields id overdraft colour pin = some right)
    (unused : findAccount id s.accounts = none) (full : Config.maxAccounts ≤ s.accounts.length) :
    acctCreate id overdraft colour pin s = refuse .full s := by
  simp [acctCreate, fields, unused, full]

theorem acctCreate_ok (fields : acctCreateFields id overdraft colour pin = some right)
    (unused : findAccount id s.accounts = none) (room : s.accounts.length < Config.maxAccounts) :
    acctCreate id overdraft colour pin s
      = { status := .ok
          state := setAccounts (insertAccount (newAccount id overdraft right (pin.map (pinValue s))) s.accounts) s } := by
  simp [acctCreate, fields, unused, Nat.not_le.mpr room]

end Create

/-! ### ACCT_DELETE (R47) -/

theorem jobsOfOwner_pos_iff {s : State} {owner : Nat} : 0 < jobsOfOwner s owner ↔ ∃ j ∈ allJobs s.jt, j.owner = owner := by
  simp [jobsOfOwner, List.countP_pos_iff]

section Delete

variable {id : Nat} {a : Account} {s : State}

theorem acctDelete_noAccount (unknown : findAccount id s.accounts = none) : acctDelete id s = refuse .noAccount s := by
  simp only [acctDelete, unknown]

theorem acctDelete_busy (found : findAccount id s.accounts = some a)
    (bound : (∃ j ∈ allJobs s.jt, j.owner = id) ∨ a.reserved ≠ 0) : acctDelete id s = refuse .busy s := by
  rw [← jobsOfOwner_pos_iff] at bound
  simp [acctDelete, found, bound]

theorem acctDelete_ok (found : findAccount id s.accounts = some a) (idle : ∀ j ∈ allJobs s.jt, j.owner ≠ id)
    (free : a.reserved = 0) :
    acctDelete id s = { status := .ok, payload := .deleted a.balance a.counters
                        state := setAccounts (s.accounts.filter (·.id != id)) s } := by
  have noJob : ¬ 0 < jobsOfOwner s id := by simpa [jobsOfOwner_pos_iff] using idle
  simp [acctDelete, found, noJob, free]

end Delete

/-! ### ACCT_UNLOCK (R43) and COUNTERS_CLEAR (R45) -/

/-- R43: the end of a lockout by the fields it changes: LOCKED_OUT becomes ACTIVE, any other standing stays, and no PIN
failure is left. -/
theorem endLockout_eq (a : Account) :
    endLockout a = { a with
      standing := match a.standing with
        | .lockedOut _ => .active
        | .active => .active
        | .suspended => .suspended
      pinFailures := 0 } := by
  obtain ⟨id, standing⟩ := a
  cases standing with
  | active => rfl
  | suspended => rfl
  | lockedOut ends => rfl

section Found

variable {id : Nat} {a : Account} {s : State}

theorem acctUnlock_noAccount (unknown : findAccount id s.accounts = none) : acctUnlock id s = refuse .noAccount s := by
  simp only [acctUnlock, unknown]

theorem acctUnlock_ok (found : findAccount id s.accounts = some a) :
    acctUnlock id s
      = { status := .ok, payload := .standing (endLockout a).standing, state := updateAccount id endLockout s } := by
  simp only [acctUnlock, found]

theorem countersClear_locked (lock : (locksOf s).audit = true) : countersClear id s = refuse .locked s := by
  simp only [countersClear, if_pos lock]

theorem countersClear_noAccount (lock : (locksOf s).audit = false) (unknown : findAccount id s.accounts = none) :
    countersClear id s = refuse .noAccount s := by
  simp [countersClear, lock, unknown]

theorem countersClear_ok (lock : (locksOf s).audit = false) (found : findAccount id s.accounts = some a) :
    countersClear id s
      = { status := .ok, payload := .counters a.counters
          state := updateAccount id (fun a => { a with counters := {} }) s } := by
  simp [countersClear, lock, found]

end Found

/-! ### The statements -/

/-- Settles O16: each test of R36 and R47 in its order, by the equation of its branch. -/
theorem acctCreateAndDelete : Obligations.AcctCreateAndDelete := by
  refine ⟨fun tag id overdraft colour pin s serving => ?create, fun tag id s serving => ?delete⟩
  case create =>
    rw [exec_acctCreate]
    refine ⟨fun bad => ?_, fun idLow idHigh overdraftOk colourOk pinOk => ?_⟩
    · exact next_request_of_answer serving (acctCreate_badField (acctCreateFields_eq_none_iff.mpr bad))
    · have fields := acctCreateFields_eq_some idLow idHigh overdraftOk colourOk pinOk
      exact ⟨fun used => next_request_of_answer serving (acctCreate_wrongState fields used),
        fun unused full => next_request_of_answer serving (acctCreate_full fields unused full),
        fun unused room => next_request_of_answer serving (acctCreate_ok fields unused room)⟩
  case delete =>
    rw [exec_acctDelete]
    exact ⟨fun unknown => next_request_of_answer serving (acctDelete_noAccount unknown), fun a found =>
      ⟨fun bound => next_request_of_answer serving (acctDelete_busy found bound),
        fun idle free => next_request_of_answer serving (acctDelete_ok found idle free)⟩⟩

/-- Settles O19: the branches of R43 and R45, with the end of a lockout written by the fields it changes. -/
theorem unlockAndCountersClear : Obligations.UnlockAndCountersClear := by
  refine ⟨fun tag id s serving => ?unlock, fun tag id s serving => ?clear⟩
  case unlock =>
    rw [exec_acctUnlock]
    refine ⟨fun unknown => next_request_of_answer serving (acctUnlock_noAccount unknown), fun a found => ?_⟩
    have unlocked := acctUnlock_ok found
    rw [funext endLockout_eq] at unlocked
    exact next_request_of_answer serving unlocked
  case clear =>
    rw [exec_countersClear]
    exact ⟨fun lock => next_request_of_answer serving (countersClear_locked lock),
      fun lock unknown => next_request_of_answer serving (countersClear_noAccount lock unknown),
      fun lock a found => next_request_of_answer serving (countersClear_ok lock found)⟩

end Sys2Proof.Machine

/-! PROOFS. The check word and the figures of a cartridge record: the check word as a sum that reads bytes 0 to 14 alone, the
figures byte by byte, and the statement of R88. -/

namespace Sys2Proof.Machine

/-! ### Little-endian fields of a record -/

theorem leValue_slice_zero (record : List Byte) (i : Nat) : leValue (slice record i 0) = 0 := by
  rw [slice, List.take_zero, leValue]

/-- A little-endian field begins with its lowest byte; past the end of the record every byte reads 0. -/
theorem leValue_slice_succ (record : List Byte) (i n : Nat) :
    leValue (slice record i (n + 1)) = recordByte record i + 256 * leValue (slice record (i + 1) n) := by
  by_cases inside : i < record.length
  · have head : recordByte record i = record[i].toNat := by rw [recordByte, List.getD_eq_getElem _ _ inside]
    rw [slice, List.drop_eq_getElem_cons inside, List.take_succ_cons, leValue, head, slice]
  · have outside : record.length ≤ i := by omega
    have head : recordByte record i = 0 := by rw [recordByte, List.getD_eq_default _ _ outside]; rfl
    simp [slice, List.drop_eq_nil_of_le, outside, Nat.le_succ_of_le outside, leValue, head]

theorem recordByte_lt (record : List Byte) (i : Nat) : recordByte record i < 256 := (record.getD i 0).isLt

theorem recordByte_set_of_ne (record : List Byte) (b : Byte) {n m : Nat} (apart : n ≠ m) :
    recordByte (record.set n b) m = recordByte record m := by
  simp only [recordByte, List.getD_eq_getElem?_getD, List.getElem?_set_ne apart]

theorem recordCheck_eq (record : List Byte) : recordCheck record = recordByte record 20 + 256 * recordByte record 21 := by
  simp only [recordCheck, leValue_slice_succ, leValue_slice_zero, Nat.reduceAdd]
  omega

theorem recordFull_eq (record : List Byte) :
    recordFull record = recordByte record 12 + 256 * recordByte record 13 + 65536 * recordByte record 14 := by
  simp only [recordFull, leValue_slice_succ, leValue_slice_zero, Nat.reduceAdd]
  omega

theorem recordFull_le (record : List Byte) : recordFull record ≤ 16777215 := by
  have low := recordByte_lt record 12
  have middle := recordByte_lt record 13
  have high := recordByte_lt record 14
  rw [recordFull_eq]
  omega

theorem recordLevel_eq (record : List Byte) :
    recordLevel record = min (recordByte record 16 + 256 * recordByte record 17 + 65536 * recordByte record 18
      + 16777216 * recordByte record 19) (recordFull record) := by
  simp only [recordLevel, leValue_slice_succ, leValue_slice_zero, Nat.reduceAdd]
  omega

/-! ### The check word -/

theorem maskedWord_whole (record : List Byte) {i : Nat} (low : i ≤ 6) :
    maskedWord record i = recordByte record (2 * i) + 256 * recordByte record (2 * i + 1) := by
  rw [maskedWord, if_pos low, recordByte, recordByte]

/-- Word 7 keeps its low byte, byte 14; byte 15 is masked out. -/
theorem maskedWord_seven (record : List Byte) : maskedWord record 7 = recordByte record 14 := by
  have byte := recordByte_lt record 14
  change (recordByte record 14 + 256 * recordByte record 15) % 256 = recordByte record 14
  omega

theorem maskedWord_masked (record : List Byte) {i : Nat} (high : 7 < i) : maskedWord record i = 0 := by
  rw [maskedWord, if_neg (by omega), if_neg (by omega)]

/-- The ten masked words: seven whole ones and byte 14. -/
theorem checkWord_eq (record : List Byte) :
    checkWord record = (recordByte record 14
      + ((List.range 7).map fun i => recordByte record (2 * i) + 256 * recordByte record (2 * i + 1)).sum) % 65536 := by
  have whole : (List.range 7).map (maskedWord record)
      = (List.range 7).map fun i => recordByte record (2 * i) + 256 * recordByte record (2 * i + 1) :=
    List.map_congr_left fun i hi => maskedWord_whole record (by have := List.mem_range.mp hi; omega)
  have split : List.range 10 = List.range 7 ++ [7, 8, 9] := by decide
  rw [checkWord, split, List.map_append, List.sum_append, whole, Nat.add_comm]
  simp [maskedWord_seven, maskedWord_masked]

/-- Carries discarded at each addition are carries discarded at the end. -/
theorem foldl_add_mod (f : Nat → Nat) (m : Nat) (l : List Nat) (start : Nat) :
    (l.foldl (fun sum i => (sum + f i) % m) start) % m = (start + (l.map f).sum) % m := by
  induction l generalizing start with
  | nil => rfl
  | cons i l ih => rw [List.foldl_cons, ih, List.map_cons, List.sum_cons, Nat.mod_add_mod, Nat.add_assoc]

theorem checkWord_eq_foldl (record : List Byte) :
    checkWord record = ((List.range 7).foldl
      (fun sum i => (sum + recordByte record (2 * i) + 256 * recordByte record (2 * i + 1)) % 65536)
      (recordByte record 14)) % 65536 := by
  simp only [Nat.add_assoc]
  rw [foldl_add_mod, checkWord_eq]

theorem checkWord_congr {record other : List Byte} (same : ∀ m ≤ 14, recordByte record m = recordByte other m) :
    checkWord record = checkWord other := by
  have words : (List.range 7).map (fun i => recordByte record (2 * i) + 256 * recordByte record (2 * i + 1))
      = (List.range 7).map fun i => recordByte other (2 * i) + 256 * recordByte other (2 * i + 1) :=
    List.map_congr_left fun i hi => by
      have low := List.mem_range.mp hi
      rw [same (2 * i) (by omega), same (2 * i + 1) (by omega)]
  rw [checkWord_eq, checkWord_eq, words, same 14 le_rfl]

theorem checkWord_set (record : List Byte) (b : Byte) {n : Nat} (past : 15 ≤ n) :
    checkWord (record.set n b) = checkWord record :=
  checkWord_congr fun _ low => recordByte_set_of_ne record b (by omega)

theorem authResult_checksum {record : List Byte} (wrong : checkWord record ≠ recordCheck record) (h : Option HistoryEntry) :
    authResult record h = .suspect .checksum := if_pos wrong

/-! ### A record that cannot be used -/

theorem recordUsable_eq_false_iff {record : List Byte} :
    recordUsable record = false ↔ recordByte record 0 ≠ 1 ∨ 3 < recordByte record 1 ∨ recordByte record 3 = 0 := by
  simp [recordUsable, imp_iff_not_or, or_assoc]

theorem takeRecord_unusable {i : Fin 4} {record : List Byte} (colour : recordByte record 2 = i)
    (unusable : recordUsable record = false) (s : State) :
    takeRecord i record s = rejectRead i .unknownFamily record (endFlight s) := by
  rw [takeRecord, if_neg (not_not_intro colour), if_pos (by rw [unusable, Bool.not_false])]

/-! ### The statement -/

/-- Settles O43: R88 figure by figure, each by the equation of its definition over the record's bytes. -/
theorem recordFigures : Obligations.RecordFigures := by
  intro record _ byte
  refine ⟨checkWord_eq_foldl record, recordCheck_eq record, fun n b past _ => checkWord_set record b past,
    fun h wrong => authResult_checksum wrong h, recordFull_eq record, recordFull_le record, recordLevel_eq record, ?unusable⟩
  case unusable =>
    intro i s colour bad
    exact takeRecord_unusable colour (recordUsable_eq_false_iff.mpr bad) s

end Sys2Proof.Machine

/-! PROOFS. The owner a request is handed to, by its command or by its frame: every request of the catalogue, said once. -/

namespace Sys2Proof.Machine

open Host (Outcome)

/-- The owners that a request of a kind and tag can be handed to (R189, R195). -/
inductive Owner : RequestKind → Byte → (State → Answer) → Prop
  | acctCreate (tag : Byte) (id overdraft colour : Nat) (pin : Option (List Byte)) :
      Owner .acctCreate tag (acctCreate id overdraft colour pin)
  | acctDelete (tag : Byte) (id : Nat) : Owner .acctDelete tag (acctDelete id)
  | acctCredit (tag : Byte) (id : Nat) (amount : Int) : Owner .acctCredit tag (acctCredit id amount)
  | acctSet (tag : Byte) (id : Nat) (overdraft colour standing : Option Nat) (pin : Option PinAction) :
      Owner .acctSet tag (acctSet id overdraft colour standing pin)
  | acctRead (tag : Byte) (id : Nat) : Owner .acctRead tag (acctRead id)
  | acctList (tag : Byte) (start : Nat) : Owner .acctList tag (acctList start)
  | acctUnlock (tag : Byte) (id : Nat) : Owner .acctUnlock tag (acctUnlock id)
  | countersClear (tag : Byte) (id : Nat) : Owner .countersClear tag (countersClear id)
  | jobOpen (tag : Byte) (kind owner privacy media sides copies : Nat) :
      Owner .jobOpen tag (jobOpen kind owner privacy media sides copies)
  | jobRelease (tag : Byte) (handle : Nat) (pin : List Byte) : Owner .jobRelease tag (jobRelease handle pin)
  | jobCancel (tag : Byte) (handle : Nat) : Owner .jobCancel tag (jobCancel handle)
  | jobPause (tag : Byte) (handle : Nat) : Owner .jobPause tag (jobPause handle)
  | jobResume (tag : Byte) (handle : Nat) : Owner .jobResume tag (jobResume handle)
  | jobSkipPage (tag : Byte) (handle page : Nat) : Owner .jobSkipPage tag (jobSkipPage handle page)
  | jobRead (tag : Byte) (handle first : Nat) : Owner .jobRead tag (jobRead handle first)
  | senseSet (tag : Byte) (channel code hysteresis filter polarity : Nat) :
      Owner .senseSet tag (senseSet channel code hysteresis filter polarity)
  | doorOpen (tag : Byte) : Owner .doorState tag doorOpen
  | doorClosed (tag : Byte) : Owner .doorState tag doorClosed
  | jamClear (tag : Byte) : Owner .jamClear tag jamClear
  | pathRead (tag : Byte) : Owner .pathRead tag pathRead
  | priceSet (tag : Byte) (f : PriceFields) : Owner .priceSet tag (priceSet f)
  | meterSet (tag : Byte) (f : MeterFields) : Owner .meterSet tag (meterSet f)
  | mediaSet (tag : Byte) (code : Nat) (area transit : Option Nat) : Owner .mediaSet tag (mediaSet code area transit)
  | cartRead (tag : Byte) (selector start : Nat) : Owner .cartRead tag (cartRead selector start)
  | cartReauth (tag : Byte) (slot : Nat) : Owner .cartReauth tag (cartReauth slot)
  | policySet (tag : Byte) (policy : Nat) : Owner .policySet tag (policySet policy)
  | familyKeyLoad (tag : Byte) (family : Nat) (key : List Byte) : Owner .familyKeyLoad tag (familyKeyLoad family key)
  | spoolRead (tag : Byte) (block : Option Nat) : Owner .spoolRead tag (spoolRead block)
  | blockRetire (tag : Byte) (block : Nat) : Owner .blockRetire tag (blockRetire block)
  | sanitize (tag : Byte) : Owner .sanitize tag (sanitize tag)
  | faultRead (tag : Byte) : Owner .faultRead tag faultRead
  | faultAck (tag : Byte) (number : Nat) : Owner .faultAck tag (faultAck number)
  | haltRecordAck (tag : Byte) : Owner .faultAck tag haltRecordAck
  | sense (tag : Byte) (handle : Nat) : Owner .sense tag (sense handle)
  | storeLock (tag : Byte) (locks : Nat) : Owner .storeLock tag (storeLock locks)
  | storeWipe (tag : Byte) : Owner .storeWipe tag (storeWipe tag)
  | storeRead (tag : Byte) : Owner .storeRead tag storeRead
  | limitsSet (tag : Byte) (f : LimitFields) : Owner .limitsSet tag (limitsSet f)
  | status (tag : Byte) : Owner .status tag status
  | restartNormal (tag : Byte) : Owner .restart tag (restartNormal tag)
  | restartWipe (tag : Byte) : Owner .restart tag (restartWipe tag)
  | doorWrong (tag : Byte) : Owner .doorState tag (refuse .badField)
  | selectorWrong (tag : Byte) : Owner .faultAck tag (refuse .badField)
  | modeWrong (tag : Byte) : Owner .restart tag (refuse .badField)

/-- A request command hands the request to an owner of its kind. -/
theorem exec_owner {c : Instr} {k : RequestKind} {tag : Byte} (h : requestOf c = some (k, tag)) :
    ∃ o, Owner k tag o ∧ ∀ s, exec c s = .next (request k tag o s) := by
  cases c <;> cases h
  case acctCreate.refl => exact ⟨_, .acctCreate .., fun _ => rfl⟩
  case acctDelete.refl => exact ⟨_, .acctDelete .., fun _ => rfl⟩
  case acctCredit.refl => exact ⟨_, .acctCredit .., fun _ => rfl⟩
  case acctSet.refl => exact ⟨_, .acctSet .., fun _ => rfl⟩
  case acctRead.refl => exact ⟨_, .acctRead .., fun _ => rfl⟩
  case acctList.refl => exact ⟨_, .acctList .., fun _ => rfl⟩
  case acctUnlock.refl => exact ⟨_, .acctUnlock .., fun _ => rfl⟩
  case countersClear.refl => exact ⟨_, .countersClear .., fun _ => rfl⟩
  case jobOpen.refl => exact ⟨_, .jobOpen .., fun _ => rfl⟩
  case jobRelease.refl => exact ⟨_, .jobRelease .., fun _ => rfl⟩
  case jobCancel.refl => exact ⟨_, .jobCancel .., fun _ => rfl⟩
  case jobPause.refl => exact ⟨_, .jobPause .., fun _ => rfl⟩
  case jobResume.refl => exact ⟨_, .jobResume .., fun _ => rfl⟩
  case jobSkipPage.refl => exact ⟨_, .jobSkipPage .., fun _ => rfl⟩
  case jobRead.refl => exact ⟨_, .jobRead .., fun _ => rfl⟩
  case senseSet.refl => exact ⟨_, .senseSet .., fun _ => rfl⟩
  case jamClear.refl => exact ⟨_, .jamClear .., fun _ => rfl⟩
  case pathRead.refl => exact ⟨_, .pathRead .., fun _ => rfl⟩
  case priceSet.refl => exact ⟨_, .priceSet .., fun _ => rfl⟩
  case meterSet.refl => exact ⟨_, .meterSet .., fun _ => rfl⟩
  case mediaSet.refl => exact ⟨_, .mediaSet .., fun _ => rfl⟩
  case cartRead.refl => exact ⟨_, .cartRead .., fun _ => rfl⟩
  case cartReauth.refl => exact ⟨_, .cartReauth .., fun _ => rfl⟩
  case policySet.refl => exact ⟨_, .policySet .., fun _ => rfl⟩
  case familyKeyLoad.refl => exact ⟨_, .familyKeyLoad .., fun _ => rfl⟩
  case spoolRead.refl => exact ⟨_, .spoolRead .., fun _ => rfl⟩
  case blockRetire.refl => exact ⟨_, .blockRetire .., fun _ => rfl⟩
  case sanitize.refl => exact ⟨_, .sanitize .., fun _ => rfl⟩
  case faultRead.refl => exact ⟨_, .faultRead .., fun _ => rfl⟩
  case faultAck.refl => exact ⟨_, .faultAck .., fun _ => rfl⟩
  case sense.refl => exact ⟨_, .sense .., fun _ => rfl⟩
  case storeLock.refl => exact ⟨_, .storeLock .., fun _ => rfl⟩
  case storeWipe.refl => exact ⟨_, .storeWipe .., fun _ => rfl⟩
  case storeRead.refl => exact ⟨_, .storeRead .., fun _ => rfl⟩
  case limitsSet.refl => exact ⟨_, .limitsSet .., fun _ => rfl⟩
  case status.refl => exact ⟨_, .status .., fun _ => rfl⟩
  case restartWipe.refl => exact ⟨_, .restartWipe .., fun _ => rfl⟩
  case doorStateOpen.refl => exact ⟨_, .doorOpen .., fun _ => rfl⟩
  case doorStateClosed.refl => exact ⟨_, .doorClosed .., fun _ => rfl⟩
  case faultAckHaltRecord.refl => exact ⟨_, .haltRecordAck .., fun _ => rfl⟩
  case restart.refl => exact ⟨_, .restartNormal .., fun _ => rfl⟩

/-! ### The owners of frames -/

theorem ofLength_owner {n : Nat} {p : List Byte} {o owner : State → Answer} (h : ofLength n p owner = .ok o) : o = owner := by
  unfold ofLength at h
  split at h
  · exact (Except.ok.inj h).symm
  · cases h

theorem ofOptional_owner {fixed n : Nat} {p : List Byte} {o owner : State → Answer}
    (h : ofOptional fixed n p owner = .ok o) : o = owner := by
  unfold ofOptional at h
  split at h
  · cases h
  · split at h
    · cases h
    · exact ofLength_owner h

theorem parseAcctCreate_owner {p : List Byte} {o : State → Answer} (h : parseAcctCreate p = .ok o) :
    ∃ id overdraft colour pin, o = acctCreate id overdraft colour pin := by
  unfold parseAcctCreate at h
  split at h
  · cases h
  · split at h
    · cases h
    · exact ⟨_, _, _, _, ofLength_owner h⟩

theorem parseAcctSet_owner {p : List Byte} {o : State → Answer} (h : parseAcctSet p = .ok o) :
    ∃ id overdraft colour standing pin, o = acctSet id overdraft colour standing pin := by
  simp only [parseAcctSet] at h
  split at h
  · cases h
  · split at h
    · cases h
    · split at h
      · cases h
      · split at h
        · cases h
        · exact ⟨_, _, _, _, _, ofLength_owner h⟩

theorem owner_doorOwner (tag : Byte) (value : Nat) : Owner .doorState tag (doorOwner value) := by
  unfold doorOwner
  split
  · exact .doorOpen tag
  · split
    · exact .doorClosed tag
    · exact .doorWrong tag

theorem owner_faultAckOwner (tag : Byte) (selector number : Nat) : Owner .faultAck tag (faultAckOwner selector number) := by
  unfold faultAckOwner
  split
  · exact .faultAck tag number
  · split
    · exact .haltRecordAck tag
    · exact .selectorWrong tag

theorem owner_restartOwner (tag : Byte) (mode : Nat) : Owner .restart tag (restartOwner tag mode) := by
  unfold restartOwner
  split
  · exact .restartNormal tag
  · split
    · exact .restartWipe tag
    · exact .modeWrong tag

/-- A frame whose payload is well formed hands the request to an owner of its kind. -/
theorem parsePayload_owner {k : RequestKind} {tag : Byte} {p : List Byte} {o : State → Answer}
    (h : parsePayload k tag p = .ok o) : Owner k tag o := by
  cases k <;> simp only [parsePayload] at h
  case acctCreate =>
    obtain ⟨id, overdraft, colour, pin, rfl⟩ := parseAcctCreate_owner h
    exact .acctCreate ..
  case acctSet =>
    obtain ⟨id, overdraft, colour, standing, pin, rfl⟩ := parseAcctSet_owner h
    exact .acctSet ..
  case doorState => exact ofLength_owner h ▸ owner_doorOwner tag _
  case faultAck => exact ofLength_owner h ▸ owner_faultAckOwner tag _ _
  case restart => exact ofLength_owner h ▸ owner_restartOwner tag _
  case familyKeyLoad =>
    split at h
    · cases h
    · exact Except.ok.inj h ▸ .familyKeyLoad ..
  case priceSet => exact ofOptional_owner h ▸ .priceSet ..
  case meterSet => exact ofOptional_owner h ▸ .meterSet ..
  case mediaSet => exact ofOptional_owner h ▸ .mediaSet ..
  case limitsSet => exact ofOptional_owner h ▸ .limitsSet ..
  case spoolRead => exact ofOptional_owner h ▸ .spoolRead ..
  all_goals exact ofLength_owner h ▸ by constructor

end Sys2Proof.Machine

/-! PROOFS. The operations of single events that are chains of effects: completions of the port and of the bus, the sheet
path and the requests. -/

namespace Sys2Proof.Machine

/-! ### The sheet path -/

theorem reach_withPath (s : State) (p : SheetPath) (hj : p.jammed = s.spm.jammed) (hr : p.jam = s.spm.jam)
    (hd : p.doorOpen = s.spm.doorOpen) (hs : p.supply.level = s.spm.supply.level) (hp : p.feedPermit = s.spm.feedPermit)
    (hq : p.sheets = s.spm.sheets) : Reach s { s with spm := p } :=
  Same.reach ⟨rfl, rfl, rfl, rfl, rfl, rfl, rfl, rfl, rfl, rfl, rfl, rfl, rfl, hj, hr, hd, hs, hp, hq⟩

theorem reach_evaluatedPath (s : State) (p : SheetPath) (h : p.sheets = s.spm.sheets) :
    Reach s (evaluatePermit { s with spm := p }) := (Effect.path s p h).reach

theorem reach_returnJammed : Chains returnJammed := by
  intro s
  simp only [returnJammed]
  split
  · exact Reach.rfl' s
  · refine (Chains.foldr reach_queueHead _ _).via ?_
    split
    · exact (reach_queueHead _ _).via (reach_leaveActive _ s)
    · exact Reach.rfl' s

theorem reach_reportExit (sh : Sheet) : Chains (reportExit sh) := by
  intro s
  simp only [reportExit]
  split
  · exact Reach.rfl' s
  · split
    · exact Reach.then_ite (reach_closeJob _ _) (reach_setJob _ s)
    · exact reach_setJob _ s

/-- R49: a channel's comparator result and filter wait are none of the guarded parts; its filtered level stays. -/
theorem reach_putChannel {s : State} {ch : Channel} {c : SenseChannel} (h : c.level = (channelOf s.spm ch).level) :
    Reach s (putChannel ch c s) := by
  cases ch
  · exact reach_withPath s _ rfl rfl rfl rfl rfl rfl
  · exact reach_withPath s _ rfl rfl rfl rfl rfl rfl
  · exact reach_withPath s _ rfl rfl rfl h (by rfl) (by rfl)

theorem watchLevel_level (g : ChannelSettings) (clock : Nat) (above : Bool) (c : SenseChannel) :
    (watchLevel g clock above c).level = c.level := by
  unfold watchLevel
  split <;> rfl

theorem reach_rewatch (ch : Channel) : Chains (rewatch ch) := fun _ => reach_putChannel (watchLevel_level _ _ _ _)

/-! ### Intake -/

theorem reach_abortHeld : Chains abortHeld := by
  intro s
  unfold abortHeld
  split
  · split
    · exact (reach_abortJob _ _ _ _ _ _).via (reach_withJobs s _)
    · exact Reach.rfl' s
  · exact Reach.rfl' s

theorem reach_abortImage (page : Nat) : Chains (abortImage page) := by
  intro s
  unfold abortImage
  split
  · exact Reach.then_ite (reach_abortJob _ _ _ _ _) (Reach.rfl' s)
  · exact Reach.rfl' s

theorem reach_expireStall : Chains expireStall := by
  intro s
  simp only [expireStall]
  split
  · split
    · exact (reach_abortHeld _).via (reach_withJobs s _)
    · exact (reach_abortHeld _).via <| (reach_abortImage _ _).via (reach_withJobs s _)
  · exact (reach_abortHeld _).via (reach_withJobs s _)

/-! ### Reads -/

theorem reach_flagPage (handle page : Nat) : Chains (flagPage handle page) := reach_changePage _ _ _

theorem reach_endPortFlight : Chains endPortFlight := fun s => reach_withMedia s _ (by rfl) (by rfl)

theorem reach_findWeak (limit : Nat) (results : List (Nat × CodewordResult)) (block : Nat) :
    Chains fun s => findWeak limit results s block := by
  intro s
  simp only [findWeak]
  split
  · exact (reach_raiseNote _ _).via (reach_withMedia s _ (by rfl) (by rfl))
  · exact Reach.rfl' s

theorem markBlock_defects (origin : MarkOrigin) (block : Nat) (m : SpoolMedia) :
    (markBlock origin block m).defects = m.defects ∧ (markBlock origin block m).sweepCount = m.sweepCount := by
  unfold markBlock
  split <;> exact ⟨rfl, rfl⟩

theorem markBlocks_defects (origin : MarkOrigin) (blocks : List Nat) (m : SpoolMedia) :
    (blocks.foldl (fun m b => markBlock origin b m) m).defects = m.defects
      ∧ (blocks.foldl (fun m b => markBlock origin b m) m).sweepCount = m.sweepCount := by
  induction blocks generalizing m with
  | nil => exact ⟨rfl, rfl⟩
  | cons b rest ih =>
    have h := markBlock_defects origin b m
    exact ⟨(ih _).1.trans h.1, (ih _).2.trans h.2⟩

theorem reach_findUnreadable (q : ReadRequest) (block : Nat) : Chains (findUnreadable q block) := by
  intro s
  simp only [findUnreadable]
  have marked := reach_withMedia s _ (markBlock_defects .media block s.smc).1 (markBlock_defects .media block s.smc).2
  split
  · exact Reach.then_ite (reach_raiseJobFault _) ((reach_flagPage _ _ _).via marked)
  · exact marked

theorem reach_findTampered (q : ReadRequest) (place : BandPlace) : Chains (findTampered q place) := by
  intro s
  simp only [findTampered]
  have marked := reach_withMedia s _ (markBlocks_defects .cipher (placeBlocks place) s.smc).1
    (markBlocks_defects .cipher (placeBlocks place) s.smc).2
  exact Reach.then_ite (reach_raiseJobFault _) ((reach_flagPage _ _ _).via marked)

theorem reach_judgeRead (q : ReadRequest) (place : BandPlace) (retries weakLimit : Nat) (r : BandRead) (s : State) :
    Reach s (judgeRead q place retries weakLimit r s).2 := by
  simp only [judgeRead]
  have weak := Chains.foldl (fun b => reach_findWeak weakLimit (codewordsRead place retries r).1 b) (placeBlocks place) s
  split
  · exact (reach_findUnreadable _ _ _).via weak
  · split
    · exact weak
    · split
      · exact weak
      · exact (reach_findTampered _ _ _).via weak

theorem reach_advanceStaging (j : Job) (e : StagingEntry) (side band : Nat) (plain : List Byte) (s : State) :
    Reach s (advanceStaging j e side band plain s).2 := by
  simp only [advanceStaging]
  split
  · exact reach_beginRead _ _ _ _ s
  · exact Reach.rfl' s

theorem reach_stagingTakes (q : ReadRequest) (result : ReadResult) : Chains (stagingTakes q result) := by
  intro s
  simp only [stagingTakes]
  split
  · split
    · exact Reach.trans (reach_advanceStaging _ _ _ _ _ s) (reach_withPath _ _ rfl rfl rfl rfl rfl rfl)
    · exact reach_withPath s _ rfl rfl rfl rfl rfl rfl
    · exact Reach.rfl' s
  · exact Reach.rfl' s

theorem reach_exportTakes (q : ReadRequest) (result : ReadResult) : Chains (exportTakes q result) := by
  intro s
  unfold exportTakes
  split
  · exact reach_withJobs s _
  · exact reach_stallActive _ _ _ s
  · exact Reach.rfl' s

theorem reach_handResult (q : ReadRequest) (result : ReadResult) : Chains (handResult q result) := by
  intro s
  unfold handResult
  split
  · exact Reach.rfl' s
  · split
    · exact reach_stagingTakes q result s
    · exact reach_exportTakes q result s

theorem reach_bandSent (b : ExportBand) (j : Job) : Chains (bandSent b j) := by
  intro s
  simp only [bandSent]
  have counted := fun j : Job => (reach_setJob j _).via (reach_withJobs s { s.jt with exportPhase := .idle })
  split
  · exact (reach_closeJob _ _ _).via (counted _)
  · split
    · exact (reach_stallJob _ _ _).via <| (reach_leaveActive _ _).via (counted _)
    · split
      · exact counted _
      · have began := (counted j).trans (reach_beginRead .exporter j.handle b.page (b.index + 1) _)
        split
        · next h =>
          rw [h] at began
          exact (reach_stallActive _ _ _ _).via began
        · next h =>
          rw [h] at began
          exact (reach_withJobs _ _).via began

/-! ### Programs, erases and verifies -/

theorem reach_firstFailure (p : ProgrammingImage) : Chains (firstFailure p) := by
  intro s
  simp only [firstFailure]
  split
  · next h => exact (reach_enterOp _ _).via <| (reach_withMedia _ _ (by rfl) (by rfl)).via (reach_remapBlock h)
  · have waits := reach_withMedia s { s.smc with programming := some { p with phase := .needsBlock } } (by rfl) (by rfl)
    split
    · next h => exact waits.trans (reach_moveImage h)
    · split
      · exact waits
      · exact (reach_withJobs _ _).via waits

theorem reach_secondFailure (p : ProgrammingImage) : Chains (secondFailure p) := by
  intro s
  simp only [secondFailure]
  have gone := reach_withMedia s { s.smc with programming := none } (by rfl) (by rfl)
  refine (reach_abortJob _ _ _ _ _ _).via ?_
  split
  · next h => exact (reach_remapBlock h).via gone
  · exact (reach_retireBlock _ _ _).via gone

theorem reach_closedJobFailure (block : Nat) : Chains (closedJobFailure block) := by
  intro s
  simp only [closedJobFailure]
  split
  · next h => exact reach_remapBlock h
  · refine (reach_retireScrubbed _ _ _).via ?_
    split
    · exact Same.reach (by constructor <;> rfl)
    · exact Reach.rfl' s

theorem reach_endProgram (handle block : Nat) (second ok : Bool) : Chains (endProgram handle block second ok) := by
  intro s
  simp only [endProgram]
  have ended := (reach_withMedia _ { (endPortFlight s).smc with programming := none } (by rfl) (by rfl)).via (reach_endPortFlight s)
  split
  · split
    · split
      · exact ended
      · split
        · exact (reach_secondFailure _ _).via ended
        · exact (reach_firstFailure _ _).via ended
    · exact ended
  · split
    · exact ended
    · exact (reach_closedJobFailure _ _).via ended

theorem reach_endWork : Chains endWork := fun _ => Same.reach (by constructor <;> rfl)

theorem reach_workOn (block : Nat) (verifying second : Bool) : Chains (workOn block verifying second) := fun s =>
  (reach_enterOp _ _).via (Same.reach (s := s) (by constructor <;> rfl))

theorem reach_failedPass (w : BlockInWork) : Chains (failedPass w) := by
  intro s
  unfold failedPass
  split
  · exact reach_workOn _ _ _ s
  · split
    · next h => exact (reach_workOn _ _ _ _).via (reach_remapBlock h)
    · exact (reach_endWork _).via (reach_retireScrubbed _ _ s)

theorem reach_returnClean (block : Nat) : Chains (returnClean block) := by
  intro s
  simp only [returnClean]
  exact (reach_leaveScrub _ _).via <| (reach_endWork _).via <| (reach_countReturned _).via <|
    (reach_withMedia _ _ (by rfl) (by rfl)).via (Effect.defects s _).reach

theorem reach_endErase (w : BlockInWork) (ok : Bool) : Chains (endErase w ok) := by
  intro s
  unfold endErase
  split
  · exact (reach_endWork _).via (reach_retireScrubbed _ _ s)
  · split
    · exact reach_workOn _ _ _ s
    · exact reach_failedPass w s

theorem reach_endVerify (w : BlockInWork) (ok : Bool) : Chains (endVerify w ok) := by
  intro s
  unfold endVerify
  split
  · exact (reach_endWork _).via (reach_retireScrubbed _ _ s)
  · split
    · exact reach_returnClean _ s
    · exact reach_failedPass w s

/-! ### The cartridge bus -/

theorem reach_withBus (s : State) (flight : Option Flight) : Reach s { s with cbc := { s.cbc with flight := flight } } :=
  Same.reach (by constructor <;> rfl)

theorem reach_endEmpty (i : Fin 4) : Chains (endEmpty i) := fun s =>
  (reach_setVerification _ _ _).via <| (reach_putSlot _ _ _).via <| (reach_dropFigures _ _).via <|
    (reach_ceaseVerified _ _).via (reach_endFlight s)

theorem reach_takeRecord (i : Fin 4) (record : List Byte) : Chains (takeRecord i record) := by
  intro s
  unfold takeRecord
  split
  · exact (reach_rejectRead _ _ _ _).via (reach_endFlight s)
  · split
    · exact (reach_rejectRead _ _ _ _).via (reach_endFlight s)
    · split
      · exact (reach_rejectRead _ _ _ _).via (reach_endFlight s)
      · have drawn := reach_draw16 s
        split
        · next h =>
          rw [h] at drawn
          exact (reach_haltPart _ _).via drawn
        · next h =>
          rw [h] at drawn
          exact (reach_withBus _ _).via drawn

theorem reach_takeDecrement (i : Fin 4) (amount : Nat) (ok : Bool) (level : Nat) : Chains (takeDecrement i amount ok level) := by
  intro s
  simp only [takeDecrement]
  have ended := (reach_putSlot i { slotRecord (endFlight s) i with failures := 0 } _).via (reach_endFlight s)
  split
  · exact (reach_completeWriteBack _ _ _ _).via ended
  · exact (reach_endUnverified _ _ _).via ended

theorem reach_failFlight : Chains failFlight := by
  intro s
  unfold failFlight
  split
  · exact (reach_settle _).via (reach_failTransaction _ _ s)
  · exact (reach_settle _).via (reach_failTransaction _ _ s)
  · exact (reach_settle _).via (reach_failTransaction _ _ s)
  · exact Reach.rfl' s

/-! ### The requests -/

theorem reach_cancelPlaced (j : Job) : Chains (cancelPlaced j) := by
  intro s
  unfold cancelPlaced
  split
  · exact (reach_settle _).via (reach_closeJob _ _ s)
  · exact (reach_settle _).via <| (reach_moveJob _ _).via (reach_leavePlace _ s)

theorem reach_stagingChange (changed : Bool) : Chains (stagingChange changed) := by
  intro s
  unfold stagingChange
  split
  · exact (reach_settle _).via (reach_discardStaging s)
  · exact Reach.rfl' s

theorem reach_reclass (i : Fin 4) : Chains fun s => reclass s i := by
  intro s
  simp only [reclass]
  split
  · split
    · split
      · exact reach_putSlot _ _ s
      · exact (reach_askCartState _ _).via (reach_putSlot _ _ s)
    · exact Reach.rfl' s
  · exact Reach.rfl' s

theorem reach_handToCartridges (old new : MeterSettings) : Chains (handToCartridges old new) := by
  intro s
  simp only [handToCartridges]
  refine Reach.else_ite (Chains.foldl reach_reauthTest cartSlots) ?_
  refine Reach.else_ite (Chains.foldl (fun i => reach_writeBackTest i false) cartSlots) ?_
  exact Reach.else_ite (Chains.foldl reach_reclass cartSlots) (Reach.rfl' s)

theorem reach_retireClean (block : Nat) : Chains (retireClean block) := fun s =>
  (reach_retireBlock _ _ _).via <| (reach_withMedia _ _ (by rfl) (by rfl)).via (Effect.defects s _).reach

theorem reach_beginSanitize (tag : Byte) (wipe : Bool) : Chains (beginSanitize tag wipe) := by
  intro s
  simp only [beginSanitize]
  refine (reach_askPart _).via ?_
  split
  · exact Same.reach (by constructor <;> rfl)
  · exact Reach.trans (Effect.defects s _).reach (Same.reach (by constructor <;> rfl))

theorem reach_fillSlot (i : Fin 64) (j : Job) (key : Key) : Chains (fillSlot i j key) := fun s =>
  (reach_moveJob _ _).via (reach_withCipher s _)

theorem reach_unverifyWiped (i : Fin 4) : Chains fun s =>
    if holdsVerified (slotRecord s i) then unverify (dropFigures i (ceaseVerified i s)) i
    else putSlot i { slotRecord s i with failures := 0 } s := by
  intro s
  dsimp only
  split
  · exact (reach_unverify i _).via <| (reach_dropFigures _ _).via (reach_ceaseVerified _ s)
  · exact reach_putSlot _ _ s

end Sys2Proof.Machine

/-! PROOFS. What one event can do, said once: moves of the guarded parts of the state, then at most one beginning or one step of
a start-up, then at most one reply. An invariant that moves, start-ups and replies keep is kept by every step. -/

namespace Sys2Proof.Machine

open Host (Outcome)

/-! ### Moves -/

/-- One change of the guarded parts of the state by a command: an effect (Laws/Effects), or a change that only a command makes,
with its guard. L says that a STORE_WIPE is taken with no sheet in the path (R177, log 39). -/
inductive Move (L : Prop) : State → State → Prop
  | effect {s t : State} (h : Effect s t) : Move L s t
  | event (s : State) (clock : Nat) (pending : List Instr) (journal : List StoreWrite)
      (h : journal = [] ∨ journal = s.ps.journal) :
      Move L s { s with clock := clock, pending := pending, ps := { s.ps with journal := journal } }
  | link (s : State) (l : LinkInterface) (keeps : LinkOk s.lif → LinkOk l)
      (fewer : unreadReplies l ≤ unreadReplies s.lif) : Move L s { s with lif := l }
  | settings (s : State) (g : Settings) : Move L s (setSettings g s)
  | keys (s : State) (k : KeysContent) : Move L s (setKeys k s)
  | results (s : State) (f : CheckResults → CheckResults) : Move L s (noteResult f s)
  | haltCleared (s : State) : Move L s (clearHaltRecord s)
  | created (s : State) (a : Account) (ok : AccountOk a) (unused : findAccount a.id s.accounts = none)
      (room : s.accounts.length < 2048) (covered : 0 ≤ available a) (free : a.reserved = 0) :
      Move L s (setAccounts (insertAccount a s.accounts) s)
  | deleted (s : State) (id : Nat) (a : Account) (found : findAccount id s.accounts = some a) (free : a.reserved = 0) :
      Move L s (setAccounts (s.accounts.filter (·.id != id)) s)
  | accountsWiped (s : State) (clear : L → s.spm.sheets = []) : Move L s (setAccounts [] s)
  | historyWiped (s : State) : Move L s (setHistory [] 0 s)
  | entered (s : State) (now : Nat) (sh : Sheet) (sheets : List Sheet)
      (h : enterOldest now s.spm.sheets = some (sh, sheets)) : Move L s { s with spm := { s.spm with sheets := sheets } }
  | delivered (s : State) (sh : Sheet) (rest : List Sheet) (h : s.spm.sheets = sh :: rest) :
      Move L s (updateAccount sh.owner (charge sh.cost sh.sides sh.nonGenuine) { s with spm := { s.spm with sheets := rest } })
  | acknowledged (s : State) (number : Nat) (held : s.fm.queue.any (·.record.number == number) = true)
      (h : ¬ (s.fm.backlog = true ∧ (s.fm.queue.filter (·.record.number != number)).length = 3)) :
      Move L s { s with fm := { s.fm with queue := s.fm.queue.filter (·.record.number != number) } }
  | reopened (s : State) (number : Nat) :
      Move L s (evaluatePermit { s with fm := { s.fm with
        queue := s.fm.queue.filter (·.record.number != number), backlog := false, overflow := 0 } })

/-- A chain of moves. -/
def Moves (L : Prop) : State → State → Prop := Relation.ReflTransGen (Move L)

variable {L : Prop}

theorem Moves.rfl' (s : State) : Moves L s s := Relation.ReflTransGen.refl

theorem Move.moves {s t : State} (h : Move L s t) : Moves L s t := Relation.ReflTransGen.single h

theorem Moves.trans {s t u : State} (h : Moves L s t) (k : Moves L t u) : Moves L s u := Relation.ReflTransGen.trans h k

/-- A chain followed by one more, the last first. -/
theorem Moves.via {s t u : State} (k : Moves L t u) (h : Moves L s t) : Moves L s u := h.trans k

theorem Reach.moves {s t : State} (h : Reach s t) : Moves L s t := by
  induction h with
  | refl => exact Moves.rfl' s
  | tail _ e ih => exact ih.trans (Move.effect e).moves

/-- A chain followed by operations inside the event. -/
theorem Moves.reach {s t u : State} (h : Moves L s t) (k : Reach t u) : Moves L s u := h.trans k.moves

/-- An invariant that every move keeps is kept by every chain. -/
theorem Moves.keeps {P : State → Prop} (hP : ∀ s t, Move L s t → P s → P t) {s t : State} (h : Moves L s t) (hs : P s) :
    P t := by
  induction h with
  | refl => exact hs
  | tail _ m ih => exact hP _ _ m ih

/-! ### Start-ups -/

/-- Every volatile piece of state takes its value after start-up (R181): with u a start-up begins, without one power is lost.
The store is the one there was, or what a cut leaves of it (R171). -/
inductive Restarted (s : State) : State → Prop
  | mk (kept : List Entry) (ps : Store) (l : LinkInterface) (u : Option StartUp) (powered : Bool)
      (fewer : kept.Sublist s.lif.out) (store : ps = s.ps ∨ ∃ cut, ps = cutStore cut s.ps)
      (first : ∀ x, u = some x → x.step = 1) :
      Restarted s { afterStartUp kept { s with ps := ps, lif := l } with startUp := u, powered := powered }

/-- A step of the start-up in progress ends (R182). -/
inductive Loaded (s : State) : State → Prop
  | mk (u : StartUp) (finding : StepFinding) (h : s.startUp = some u) : Loaded s (endStep u finding s)

/-! ### Events -/

/-- What one event does: moves, then at most one beginning or step of a start-up, then at most one reply, which takes a free
place of the outgoing list (R188). -/
def Run (L : Prop) (s t : State) : Prop :=
  ∃ a b, Moves L s a ∧ (b = a ∨ Restarted a b ∨ Loaded a b)
    ∧ (t = b ∨ ∃ r : Reply, unreadReplies b.lif < 8 ∧ t = pushReply r b)

theorem Moves.run {s t : State} (h : Moves L s t) : Run L s t := ⟨t, t, h, .inl rfl, .inl rfl⟩

theorem Restarted.run {s t : State} (h : Restarted s t) : Run L s t := ⟨s, t, Moves.rfl' s, .inr (.inl h), .inl rfl⟩

theorem Moves.then_run {s t u : State} (h : Moves L s t) (k : Run L t u) : Run L s u := by
  obtain ⟨a, b, hm, hb, hr⟩ := k
  exact ⟨a, b, h.trans hm, hb, hr⟩

/-- An invariant that moves, start-ups and replies keep is kept by every event. -/
theorem Run.keeps {P : State → Prop} (move : ∀ s t, Move L s t → P s → P t) (restart : ∀ s t, Restarted s t → P s → P t)
    (load : ∀ s t, Loaded s t → P s → P t)
    (reply : ∀ s r, unreadReplies s.lif < 8 → P s → P (pushReply r s)) {s t : State} (h : Run L s t) (hs : P s) : P t := by
  obtain ⟨a, b, hm, hb, hr⟩ := h
  have pa : P a := hm.keeps move hs
  have pb : P b := by
    obtain rfl | hb | hb := hb
    · exact pa
    · exact restart a b hb pa
    · exact load a b hb pa
  obtain rfl | ⟨r, hu, rfl⟩ := hr
  · exact pb
  · exact reply b r hu pb

/-! ### The number of unread replies -/

theorem unread_appendNotice (n : Notice) (l : LinkInterface) : unreadReplies (appendEntry (.notice n) l) = unreadReplies l := by
  simp [unreadReplies, appendEntry, isReply, List.countP_append]

theorem countP_replaceEntry (p : Entry → Bool) {sub : Subject} {n : Notice}
    (h : ∀ e, entrySubject e = some sub → p e = p (.notice n)) (out : List Entry) :
    (replaceEntry sub n out).countP p = out.countP p := by
  induction out with
  | nil => rfl
  | cons e rest ih =>
    simp only [replaceEntry]
    split
    · next he => simp [List.countP_cons, h e he]
    · simp [List.countP_cons, ih]

/-- A notice is no reply (R188). -/
theorem unread_admitNotice (n : Notice) (l : LinkInterface) : unreadReplies (admitNotice n l) = unreadReplies l := by
  unfold admitNotice
  split
  · split
    · refine countP_replaceEntry _ (fun e he => ?_) l.out
      cases e with
      | reply r => cases he
      | notice m => rfl
    · exact unread_appendNotice n l
  · split
    · exact unread_appendNotice n l
    · rfl

theorem releaseSheets_lif (sheets : List Sheet) (s : State) : (releaseSheets sheets s).lif = s.lif := by
  obtain ⟨ps, h, -⟩ := releaseSheets_spec sheets s
  rw [h]

/-- An effect answers no request. -/
theorem Effect.unread {s t : State} (h : Effect s t) : unreadReplies t.lif = unreadReplies s.lif := by
  cases h with
  | same h => rw [h.lif]
  | notice n h => exact unread_admitNotice n s.lif
  | account id f => rw [updateAccount_lif]
  | jammed p h => rw [releaseSheets_lif, evaluatePermit_lif]
  | emptied => rw [releaseSheets_lif]
  | granted sh a => exact congrArg unreadReplies (updateAccount_lif sh.owner (reserve sh.cost) s)
  | _ => rfl

theorem Move.unread {s t : State} (h : Move L s t) : unreadReplies t.lif ≤ unreadReplies s.lif := by
  cases h with
  | effect h => exact h.unread.le
  | link l keeps fewer => exact fewer
  | delivered sh rest h => rw [updateAccount_lif]
  | _ => exact le_rfl

theorem Moves.unread {s t : State} (h : Moves L s t) : unreadReplies t.lif ≤ unreadReplies s.lif :=
  h.keeps (P := fun u => unreadReplies u.lif ≤ unreadReplies s.lif) (fun _ _ m k => m.unread.trans k) le_rfl

theorem Restarted.unread {s t : State} (h : Restarted s t) : unreadReplies t.lif ≤ unreadReplies s.lif := by
  obtain ⟨kept, ps, l, u, powered, fewer, -, -⟩ := h
  exact fewer.countP_le

end Sys2Proof.Machine

/-! PROOFS. Every owner of a request, and every event, is a chain of moves, the beginning of a start-up or a step of one. -/

namespace Sys2Proof.Machine

open Host (Outcome)

variable {L : Prop}

/-- Every answer of an owner is reached by moves. -/
def OwnerMoves (L : Prop) (owner : State → Answer) : Prop := ∀ s, Moves L s (owner s).state

theorem ownerMoves_refuse (c : Status) : OwnerMoves L (refuse c) := fun s => Moves.rfl' s

theorem Chains.moves {f : State → State} (h : Chains f) (s : State) : Moves L s (f s) := (h s).moves

/-- A guarded answer: refused, or what follows. -/
theorem Moves.ite {c : Prop} [Decidable c] {s : State} {a b : Answer} (h : Moves L s a.state) (k : Moves L s b.state) :
    Moves L s (if c then a else b).state := by
  split <;> assumption

theorem Moves.refused {c : Prop} [Decidable c] {s : State} {x : Status} {b : Answer} (k : Moves L s b.state) :
    Moves L s (if c then refuse x s else b).state := Moves.ite (Moves.rfl' s) k

/-- A chain that goes one operation further where a condition holds. -/
theorem Moves.goOn {c : Prop} [Decidable c] {f : State → State} (h : ∀ s, Moves L s (f s)) (s : State) :
    Moves L s (if c then f s else s) := by
  split
  · exact h s
  · exact Moves.rfl' s

/-! ### Accounts -/

theorem keeps_credit (amount : Int) : KeepsAccount fun a => { a with balance := min (a.balance + amount) Config.balanceMax } := by
  intro a h
  exact ⟨⟨h.1, h.2.1, min_le_right _ _, h.2.2.2⟩, rfl⟩

theorem keeps_debit {amount : Int} (h : amount ≤ 0) : KeepsAccount fun a => { a with balance := a.balance + amount } := by
  intro a ok
  refine ⟨⟨ok.1, ok.2.1, ?_, ok.2.2.2⟩, rfl⟩
  have := ok.2.2.1
  show a.balance + amount ≤ 2000000000
  omega

theorem ownerMoves_acctCreate (id overdraft colour : Nat) (pin : Option (List Byte)) :
    OwnerMoves L (acctCreate id overdraft colour pin) := by
  intro s
  unfold acctCreate
  split
  · exact Moves.rfl' s
  · next right fields =>
    split
    · exact Moves.rfl' s
    · next unused =>
      split
      · exact Moves.rfl' s
      · next room =>
        have inRange : ¬ (id = 0 ∨ 65535 < id ∨ 1000000 < overdraft ∨ 1 < colour ∨ ∃ p, pin = some p ∧ validPin p = false) := by
          rw [← acctCreateFields_eq_none_iff, fields]
          simp
        refine (Move.created s _ ?_ ?_ ?_ ?_ rfl).moves
        · simp only [newAccount, AccountOk]
          omega
        · simpa [newAccount] using unused
        · simpa [Config.maxAccounts] using room
        · simp [newAccount, available]

theorem ownerMoves_acctDelete (id : Nat) : OwnerMoves L (acctDelete id) := by
  intro s
  unfold acctDelete
  split
  · exact Moves.rfl' s
  · next a found =>
    split
    · exact Moves.rfl' s
    · next free => exact (Move.deleted s id a found (by simp_all)).moves

theorem ownerMoves_acctCredit (id : Nat) (amount : Int) : OwnerMoves L (acctCredit id amount) := by
  intro s
  simp only [acctCredit]
  split
  · exact Moves.rfl' s
  · split
    · exact Moves.rfl' s
    · next a found =>
      split
      · dsimp only
        split
        · next raised =>
          refine Moves.reach (reach_updateAccount id _ s (keeps_credit amount) (fun b hb avail => ?_) fun _ => rfl).moves
            ((reach_settle _).via (reach_creditRose _ _))
          obtain rfl : a = b := Option.some.inj (found.symm.trans hb)
          simp only [available] at avail raised ⊢
          omega
        · exact Moves.rfl' s
      · split
        · exact Moves.rfl' s
        · next low zero =>
          split
          · next covered =>
            refine (reach_updateAccount id _ s (keeps_debit (by omega)) (fun b hb avail => ?_) fun _ => rfl).moves
            obtain rfl : a = b := Option.some.inj (found.symm.trans hb)
            simp only [available] at covered ⊢
            omega
          · exact Moves.rfl' s

theorem keeps_applyStanding (field : Option Nat) : KeepsAccount (applyStanding field) := by
  intro a h
  unfold applyStanding
  split
  · exact ⟨⟨h.1, h.2.1, h.2.2.1, h.2.2.2.1, Nat.zero_le _, h.2.2.2.2.2⟩, rfl⟩
  · exact ⟨h, rfl⟩
  · exact ⟨h, rfl⟩
  · exact ⟨h, rfl⟩

theorem keeps_applyPin (s : State) (action : Option PinAction) : KeepsAccount (applyPin s action) := by
  intro a h
  unfold applyPin
  split
  · exact ⟨⟨h.1, h.2.1, h.2.2.1, h.2.2.2.1, Nat.zero_le _, h.2.2.2.2.2⟩, rfl⟩
  · exact ⟨⟨h.1, h.2.1, h.2.2.1, h.2.2.2.1, Nat.zero_le _, h.2.2.2.2.2⟩, rfl⟩
  · exact ⟨h, rfl⟩

theorem KeepsAccount.comp {f g : Account → Account} (hf : KeepsAccount f) (hg : KeepsAccount g) :
    KeepsAccount fun a => f (g a) := fun a h => ⟨(hf _ (hg a h).1).1, (hf _ (hg a h).1).2.trans (hg a h).2⟩

theorem applyStanding_money (field : Option Nat) (a : Account) :
    (applyStanding field a).balance = a.balance ∧ (applyStanding field a).overdraft = a.overdraft
      ∧ (applyStanding field a).reserved = a.reserved := by
  unfold applyStanding
  split <;> exact ⟨rfl, rfl, rfl⟩

theorem applyPin_money (s : State) (action : Option PinAction) (a : Account) :
    (applyPin s action a).balance = a.balance ∧ (applyPin s action a).overdraft = a.overdraft
      ∧ (applyPin s action a).reserved = a.reserved := by
  unfold applyPin
  split <;> exact ⟨rfl, rfl, rfl⟩

/-- R38: of the amounts of a record, ACCT_SET changes the overdraft limit alone. -/
theorem applyAcctSet_money (s : State) (overdraft colour standing : Option Nat) (pin : Option PinAction) (a : Account) :
    (applyAcctSet s overdraft colour standing pin a).balance = a.balance
      ∧ (applyAcctSet s overdraft colour standing pin a).overdraft = overdraft.getD a.overdraft
      ∧ (applyAcctSet s overdraft colour standing pin a).reserved = a.reserved := by
  unfold applyAcctSet
  obtain ⟨h1, h2, h3⟩ := applyPin_money s pin (applyStanding standing
    { a with overdraft := overdraft.getD a.overdraft, colourRight := (colour.bind yesNo).getD a.colourRight })
  obtain ⟨k1, k2, k3⟩ := applyStanding_money standing
    { a with overdraft := overdraft.getD a.overdraft, colourRight := (colour.bind yesNo).getD a.colourRight }
  exact ⟨h1.trans k1, h2.trans k2, h3.trans k3⟩

theorem keeps_applyAcctSet (s : State) {overdraft colour standing : Option Nat} {pin : Option PinAction}
    (h : acctSetFields overdraft colour standing pin = true) : KeepsAccount (applyAcctSet s overdraft colour standing pin) := by
  unfold applyAcctSet
  refine (keeps_applyPin s pin).comp <| (keeps_applyStanding standing).comp fun a ok =>
    ⟨⟨ok.1, ok.2.1, ok.2.2.1, ?_, ok.2.2.2.2⟩, rfl⟩
  simp only [acctSetFields, Config.overdraftMax, Bool.and_eq_true] at h
  cases overdraft with
  | none => exact ok.2.2.2.1
  | some l => exact of_decide_eq_true h.1.1.1

theorem ownerMoves_acctSet (id : Nat) (overdraft colour standing : Option Nat) (pin : Option PinAction) :
    OwnerMoves L (acctSet id overdraft colour standing pin) := by
  intro s
  simp only [acctSet]
  split
  · exact Moves.rfl' s
  · next fields =>
    split
    · exact Moves.rfl' s
    · next a found =>
      refine Moves.refused ?_
      split
      · exact Moves.rfl' s
      · next covered =>
        have changed : Reach s (updateAccount id (applyAcctSet s overdraft colour standing pin) s) := by
          refine reach_updateAccount id _ s (keeps_applyAcctSet s (by simpa using fields)) (fun b hb avail => ?_)
            fun a => (applyAcctSet_money s overdraft colour standing pin a).2.2
          obtain rfl : a = b := Option.some.inj (found.symm.trans hb)
          obtain ⟨hbal, hover, hres⟩ := applyAcctSet_money s overdraft colour standing pin a
          simp only [available, hbal, hover, hres] at avail ⊢
          cases overdraft with
          | none => exact avail
          | some l =>
            have : -(l : Int) ≤ a.balance - a.reserved := by simpa using covered
            simp only [Option.getD_some]
            omega
        have raised := Reach.then_ite (reach_creditRose id) changed
          (c := (applyAcctSet s overdraft colour standing pin a).overdraft > a.overdraft)
        have lifted := Reach.then_ite (reach_barrierGone id) raised
          (c := liftsBarrier a (applyAcctSet s overdraft colour standing pin a) = true)
        exact (Reach.then_ite (c := (decide ((applyAcctSet s overdraft colour standing pin a).overdraft > a.overdraft)
          || liftsBarrier a (applyAcctSet s overdraft colour standing pin a)) = true) reach_settle lifted).moves

theorem ownerMoves_acctUnlock (id : Nat) : OwnerMoves L (acctUnlock id) := by
  intro s
  unfold acctUnlock
  split
  · exact Moves.rfl' s
  · refine (reach_updateAccount id _ s keeps_endLockout (fun a _ h => ?_) fun a => ?_).moves
    · rw [endLockout_eq]
      exact h
    · rw [endLockout_eq]

theorem ownerMoves_countersClear (id : Nat) : OwnerMoves L (countersClear id) := by
  intro s
  unfold countersClear
  refine Moves.refused ?_
  split
  · exact Moves.rfl' s
  · have keeps : KeepsAccount fun a => { a with counters := {} } := fun a ok =>
      ⟨⟨ok.1, ok.2.1, ok.2.2.1, ok.2.2.2.1, ok.2.2.2.2.1, by simp⟩, rfl⟩
    exact (reach_updateAccount id _ s keeps (fun _ _ h => h) fun _ => rfl).moves

/-! ### Jobs -/

theorem ownerMoves_onJob (handle : Nat) {rule : Job → State → Answer} (h : ∀ j, OwnerMoves L (rule j)) :
    OwnerMoves L (onJob handle rule) := by
  intro s
  unfold onJob
  split
  · exact Moves.rfl' s
  · exact h _ s

theorem ownerMoves_jobOpen (kind owner privacy media sides copies : Nat) :
    OwnerMoves L (jobOpen kind owner privacy media sides copies) := by
  intro s
  simp only [jobOpen]
  split
  · exact Moves.rfl' s
  · split
    · exact Moves.rfl' s
    · refine Moves.refused (Moves.refused ?_)
      split
      · exact Moves.rfl' s
      · have drawn := reach_draw32 s
        split
        · next h =>
          rw [h] at drawn
          exact ((reach_haltPart _ _).via drawn).moves
        · next h =>
          rw [h] at drawn
          exact ((reach_fillSlot _ _ _ _).via drawn).moves

theorem keeps_pinMatched : KeepsAccount fun a => { a with pinFailures := 0 } := fun _ ok =>
  ⟨⟨ok.1, ok.2.1, ok.2.2.1, ok.2.2.2.1, Nat.zero_le _, ok.2.2.2.2.2⟩, rfl⟩

theorem pinFailed_money (now minutes : Nat) (a : Account) :
    available (pinFailed now minutes a) = available a ∧ (pinFailed now minutes a).reserved = a.reserved := by
  simp only [pinFailed]
  split <;> exact ⟨rfl, rfl⟩

theorem ownerMoves_releaseJob (pin : List Byte) (j : Job) : OwnerMoves L (releaseJob pin j) := by
  intro s
  unfold releaseJob
  refine Moves.refused (Moves.refused ?_)
  split
  · exact Moves.rfl' s
  · split
    · exact Moves.rfl' s
    · exact Moves.rfl' s
    · split
      · exact Moves.rfl' s
      · simp only [releaseWithPin]
        split
        · exact (reach_updateAccount _ _ s (keeps_pinFailed _ _) (fun b _ h => (pinFailed_money _ _ b).1.symm ▸ h)
            fun b => (pinFailed_money _ _ b).2).moves
        · have matched := fun id => reach_updateAccount id _ s keeps_pinMatched (fun _ _ h => h) fun _ => rfl
          split
          · exact (matched _).moves
          · exact ((reach_settle _).via <| (reach_queueTail _ _).via (matched _)).moves

theorem ownerMoves_cancelJob (j : Job) : OwnerMoves L (cancelJob j) := by
  intro s
  unfold cancelJob
  split
  · exact Moves.rfl' s
  · exact Moves.rfl' s
  · exact (reach_moveJob _ s).moves
  · exact ((reach_settle _).via (reach_closeJob _ _ s)).moves
  · exact ((reach_settle _).via (reach_closeJob _ _ s)).moves
  · exact (reach_cancelPlaced j s).moves
  · exact (reach_cancelPlaced j s).moves
  · split
    · exact (reach_withJobs s _).moves
    · exact (reach_cancelPlaced j s).moves

theorem ownerMoves_pauseJob (j : Job) : OwnerMoves L (pauseJob j) := by
  intro s
  unfold pauseJob
  have paused := (reach_stallJob .paused j _).via (reach_leavePlace j s)
  split
  · exact paused.moves
  · split
    · exact (reach_withJobs s _).moves
    · exact ((reach_settle _).via paused).moves
  · exact Moves.ite (Moves.rfl' s) (Moves.ite (reach_stallJob _ _ s).moves (Moves.rfl' s))
  · exact Moves.rfl' s

theorem ownerMoves_resumeJob (j : Job) : OwnerMoves L (resumeJob j) := by
  intro s
  unfold resumeJob
  split
  · exact Moves.ite ((reach_settle _).via (reach_queueTail _ s)).moves (Moves.rfl' s)
  · exact Moves.rfl' s

theorem ownerMoves_skipOnJob (page : Nat) (j : Job) : OwnerMoves L (skipOnJob page j) := by
  intro s
  unfold skipOnJob
  refine Moves.refused ?_
  split
  · exact Moves.rfl' s
  · exact Moves.ite (Moves.rfl' s) (Moves.ite ((reach_settle _).via (reach_queueHead _ s)).moves (reach_setJob _ s).moves)

theorem ownerMoves_readJob (first : Nat) (j : Job) : OwnerMoves L fun s =>
    if first = 0 then refuse .badField s else { status := .ok, payload := .job (jobReport j first), state := s } :=
  fun s => Moves.refused (Moves.rfl' s)

/-! ### The sheet path -/

theorem moves_deliver {s : State} {sh : Sheet} {rest : List Sheet} (h : s.spm.sheets = sh :: rest) :
    Moves L s (deliver sh rest s) :=
  (Move.delivered s sh rest h).moves.reach <| (reach_settle _).via <|
    (reach_emit (sheetDone sh) (placeOk_of_none (by simp [sheetDone, noticeSubject])) _).via (reach_reportExit sh _)

theorem moves_exitEdge (s : State) : Moves L s (exitEdge s) := by
  unfold exitEdge
  split
  · exact ((reach_settle _).via (reach_declareJam _ s)).moves
  · next h =>
    split
    · exact moves_deliver h
    · exact ((reach_settle _).via (reach_declareJam _ s)).moves

theorem moves_feedEdge (s : State) : Moves L s (feedEdge s) := by
  unfold feedEdge
  split
  · next sh sheets h =>
    exact (Move.entered s _ sh sheets h).moves.reach ((reach_settle _).via (reach_enterCartridges sh _))
  · exact ((reach_settle _).via (reach_declareJam _ s)).moves

theorem moves_takeEdge (ch : Channel) (s : State) : Moves L s (takeEdge ch s) := by
  cases ch
  · have taken := reach_withPath s { s.spm with feed := { s.spm.feed with level := some !(s.spm.feed.level.getD false), since := none } }
      rfl rfl rfl rfl rfl rfl
    exact taken.moves.trans (Moves.goOn moves_feedEdge _)
  · have taken := reach_withPath s { s.spm with exit := { s.spm.exit with level := some !(s.spm.exit.level.getD false), since := none } }
      rfl rfl rfl rfl rfl rfl
    exact taken.moves.trans (Moves.goOn moves_exitEdge _)
  · exact ((reach_settle _).via <| (reach_askPart _).via <| reach_evaluatedPath s
      { s.spm with supply := { s.spm.supply with level := some !(s.spm.supply.level.getD false), since := none } } rfl).moves

theorem moves_followRaw (ch : Channel) (s : State) : Moves L s (followRaw ch s) := by
  unfold followRaw
  split
  · exact moves_takeEdge ch s
  · exact Moves.rfl' s

theorem moves_edgeCommand (ch : Channel) (level : Bool) (s : State) : Moves L s (edgeCommand ch level s) := by
  unfold edgeCommand
  split
  · exact moves_takeEdge ch s
  · exact Moves.rfl' s

theorem ownerMoves_senseSet (channel code hysteresis filter polarity : Nat) :
    OwnerMoves L (senseSet channel code hysteresis filter polarity) := by
  intro s
  simp only [senseSet]
  split
  · exact Moves.rfl' s
  · refine Moves.refused (Moves.refused ?_)
    exact (Move.settings s _).moves.trans <| (moves_followRaw _ _).via (reach_putChannel (watchLevel_level _ _ _ _)).moves

theorem ownerMoves_doorOpen : OwnerMoves L doorOpen := by
  intro s
  unfold doorOpen
  split
  · exact Moves.rfl' s
  · have opened := (reach_cartridgesDoorOpen _).via (reach_evaluatedPath s { s.spm with doorOpen := true } rfl)
    generalize cartridgesDoorOpen (evaluatePermit { s with spm := { s.spm with doorOpen := true } }) = t at opened ⊢
    exact ((reach_settle _).via <| (Reach.branch (reach_askPart t) (reach_declareJam .door t)).via opened).moves

theorem ownerMoves_doorClosed : OwnerMoves L doorClosed := by
  intro s
  unfold doorClosed
  split
  · have closed := reach_evaluatedPath s { s.spm with doorOpen := false } rfl
    have queued := (reach_askPart _).via ((reach_queueAll _).via closed)
    dsimp only
    exact (queued.trans (reach_settle _)).moves
  · exact Moves.rfl' s

theorem ownerMoves_jamClear : OwnerMoves L jamClear := by
  intro s
  simp only [jamClear]
  iterate 3 refine Moves.refused ?_
  exact ((reach_settle _).via <| (reach_askPart _).via <| (reach_returnJammed _).via
    (reach_evaluatedPath s { s.spm with jammed := false } rfl)).moves

/-! ### Settings -/

theorem ownerMoves_priceSet (f : PriceFields) : OwnerMoves L (priceSet f) := by
  intro s
  simp only [priceSet]
  refine Moves.refused (Moves.ite (Moves.rfl' s) (Moves.refused ?_))
  refine Moves.via (reach_stagingChange _ _).moves ?_
  split
  · exact Moves.rfl' s
  · exact (Move.settings s _).moves

theorem ownerMoves_meterSet (f : MeterFields) : OwnerMoves L (meterSet f) := by
  intro s
  simp only [meterSet]
  refine Moves.refused (Moves.ite (Moves.rfl' s) (Moves.refused (Moves.ite (Moves.rfl' s) ?_)))
  exact (Move.settings s _).moves.reach <| (reach_settle _).via <|
    Reach.else_ite reach_discardStaging (reach_handToCartridges _ _ _)

theorem ownerMoves_mediaSet (code : Nat) (area transit : Option Nat) : OwnerMoves L (mediaSet code area transit) := by
  intro s
  simp only [mediaSet]
  refine Moves.refused (Moves.ite (Moves.rfl' s) (Moves.refused ?_))
  dsimp only
  split
  · exact Moves.rfl' s
  · exact (Move.settings s _).moves.reach (reach_stagingChange _ _)

theorem ownerMoves_limitsSet (f : LimitFields) : OwnerMoves L (limitsSet f) := by
  intro s
  simp only [limitsSet]
  refine Moves.refused (Moves.ite (Moves.rfl' s) (Moves.refused ?_))
  dsimp only
  split
  · exact Moves.rfl' s
  · exact (Move.settings s _).moves

/-! ### Cartridges -/

theorem ownerMoves_cartRead (selector start : Nat) : OwnerMoves L (cartRead selector start) := by
  intro s
  unfold cartRead
  split
  · exact Moves.rfl' s
  · exact Moves.ite (Moves.rfl' s) (Moves.rfl' s)

theorem ownerMoves_cartReauth (slot : Nat) : OwnerMoves L (cartReauth slot) := by
  intro s
  unfold cartReauth
  split
  · exact Moves.rfl' s
  · refine Moves.refused (Moves.refused ?_)
    exact ((reach_settle _).via <| (reach_queueItem _ _).via (reach_putSlot _ _ s)).moves

theorem ownerMoves_policySet (policy : Nat) : OwnerMoves L (policySet policy) := by
  intro s
  simp only [policySet]
  split
  · exact Moves.rfl' s
  · refine Moves.refused (Moves.ite (Moves.rfl' s) ?_)
    dsimp only
    split
    · exact (Move.settings s _).moves.reach ((reach_settle _).via (reach_supplyCame _))
    · exact (Move.settings s _).moves

theorem reach_queueTried (family : Nat) (i : Fin 4) :
    Chains fun s => if triedAgain family (slotRecord s i) then queueItem (.auth i) s else s :=
  fun s => Reach.then_ite (reach_queueItem _) (Reach.rfl' s)

theorem ownerMoves_familyKeyLoad (family : Nat) (key : List Byte) : OwnerMoves L (familyKeyLoad family key) := by
  intro s
  simp only [familyKeyLoad]
  split
  · exact Moves.rfl' s
  · refine Moves.refused (Moves.refused ?_)
    dsimp only
    split
    · exact (Move.keys s _).moves
    · exact (Move.keys s _).moves.reach ((reach_settle _).via (Chains.foldl (reach_queueTried family) cartSlots _))

/-! ### Spool, faults and store -/

theorem ownerMoves_spoolRead (block : Option Nat) : OwnerMoves L (spoolRead block) := fun s => by
  unfold spoolRead
  exact Moves.ite (Moves.rfl' s) (Moves.rfl' s)

theorem ownerMoves_blockRetire (block : Nat) : OwnerMoves L (blockRetire block) := by
  intro s
  unfold blockRetire
  have flagged : Reach s (if s.smc.weak.contains block then s else { s with smc := { s.smc with weak := s.smc.weak ++ [block] } }) :=
    Reach.branch (Reach.rfl' s) (reach_withMedia s _ (by rfl) (by rfl))
  refine Moves.refused ?_
  split
  · exact Moves.rfl' s
  · exact (reach_retireClean block s).moves
  · exact flagged.moves
  · exact flagged.moves

theorem ownerMoves_sanitize (tag : Byte) : OwnerMoves L (sanitize tag) := fun s =>
  Moves.refused (Moves.refused (Moves.refused ((reach_settle _).via (reach_beginSanitize _ _ s)).moves))

theorem ownerMoves_faultAck (number : Nat) : OwnerMoves L (faultAck number) := by
  intro s
  simp only [faultAck]
  refine Moves.refused ?_
  split
  · exact Moves.rfl' s
  · next held =>
    simp only [acknowledge]
    split
    · exact (Move.reopened s number).moves.reach ((reach_settle _).via (reach_askPart _))
    · next h => exact (Move.acknowledged s number (by simpa using held) (by simpa using h)).moves

theorem ownerMoves_haltRecordAck : OwnerMoves L haltRecordAck := fun s =>
  Moves.refused ((Move.haltCleared s).moves.reach (reach_askPart _))

theorem ownerMoves_storeLock (locks : Nat) : OwnerMoves L (storeLock locks) := by
  intro s
  simp only [storeLock]
  split
  · exact Moves.rfl' s
  · dsimp only
    split
    · exact Moves.rfl' s
    · exact (Move.keys s _).moves

theorem draw32_spm (s : State) : (draw32 s).2.spm = s.spm := by
  have taken : (takeNoise s).2.spm = s.spm := by
    unfold takeNoise
    split <;> rfl
  simp only [draw32]
  split <;> exact taken

theorem reach_wipeSlots (s : State) : Reach s (cartSlots.foldl (fun s i =>
    if holdsVerified (slotRecord s i) then unverify (dropFigures i (ceaseVerified i s)) i
    else putSlot i { slotRecord s i with failures := 0 } s) (clearBus s)) :=
  (Chains.foldl reach_unverifyWiped cartSlots _).via (reach_clearBus s)

theorem moves_cartridgesWipe (s : State) : Moves L s (cartridgesWipe s) := by
  simp only [cartridgesWipe]
  have wiped := (reach_wipeSlots s).moves.trans (Move.historyWiped (L := L) _).moves
  exact wiped.reach (Reach.else_ite reach_queueAll (Reach.rfl' _))

theorem moves_wipeContent (key : Key) (s : State) (clear : L → s.spm.sheets = []) : Moves L s (wipeContent key s) := by
  unfold wipeContent
  have wiped : Moves L s (setAccounts [] (setKeys { device := some key } s)) :=
    (Move.keys s _).moves.trans (Move.accountsWiped (setKeys { device := some key } s) clear).moves
  have carts := (wiped.trans (moves_cartridgesWipe _)).trans (Move.settings _ {}).moves
  have sensed := carts.reach <| (reach_rewatch .supply _).via <| (reach_rewatch .exit _).via (reach_rewatch .feed _)
  exact (sensed.trans (Move.haltCleared _).moves).trans (Move.results _ wipedResults).moves

theorem moves_storeWipe (tag : Byte) (s : State) (clear : L → s.spm.sheets = []) : Moves L s (storeWipe tag s).state := by
  simp only [storeWipe]
  refine Moves.refused (Moves.refused (Moves.refused ?_))
  have drawn := reach_draw32 s
  have spm := draw32_spm s
  split
  · next h =>
    rw [h] at drawn
    exact ((reach_haltPart _ _).via drawn).moves
  · next h =>
    rw [h] at drawn spm
    refine (drawn.moves.trans (moves_wipeContent _ _ fun hl => ?_)).reach
      ((reach_settle _).via (reach_beginSanitize _ _ _))
    exact (congrArg SheetPath.sheets spm).trans (clear hl)

theorem moves_status (s : State) : Moves L s (status s).state :=
  (Move.link s { s.lif with overrun := false, frameErrors := 0, dropped := 0 }
    (fun ok => ⟨ok.1, ok.2.1, ok.2.2.1, ok.2.2.2.1, ok.2.2.2.2.1, Nat.zero_le _, Nat.zero_le _⟩) le_rfl).moves

/-! ### Any owner -/

theorem restarted_restartWith (wipe : Bool) (tag : Byte) (s : State) : Restarted s (restartWith wipe tag s).state :=
  Restarted.mk (s.lif.out.filter isDone) s.ps s.lif (some { step := 1, wipe := wipe, tag := some tag }) s.powered
    List.filter_sublist (.inl rfl) fun x hx => by
      obtain rfl := Option.some.inj hx
      rfl

/-- What an owner makes of the state is a chain of moves, or the beginning of a start-up. -/
theorem Owner.moves {k : RequestKind} {tag : Byte} {o : State → Answer} (h : Owner k tag o) (s : State)
    (clear : L → k = .storeWipe → s.spm.sheets = []) : Moves L s (o s).state ∨ Restarted s (o s).state := by
  cases h with
  | restartNormal => exact .inr (restarted_restartWith _ _ s)
  | restartWipe =>
    unfold Machine.restartWipe
    split
    · exact .inr (restarted_restartWith _ _ s)
    · exact .inl (Moves.rfl' s)
  | storeWipe => exact .inl (moves_storeWipe tag s fun hl => clear hl rfl)
  | status => exact .inl (moves_status s)
  | acctCreate => exact .inl (ownerMoves_acctCreate _ _ _ _ s)
  | acctDelete => exact .inl (ownerMoves_acctDelete _ s)
  | acctCredit => exact .inl (ownerMoves_acctCredit _ _ s)
  | acctSet => exact .inl (ownerMoves_acctSet _ _ _ _ _ s)
  | acctRead id => exact .inl (by unfold Machine.acctRead; split <;> exact Moves.rfl' s)
  | acctUnlock => exact .inl (ownerMoves_acctUnlock _ s)
  | countersClear => exact .inl (ownerMoves_countersClear _ s)
  | jobOpen => exact .inl (ownerMoves_jobOpen _ _ _ _ _ _ s)
  | jobRelease => exact .inl (ownerMoves_onJob _ (ownerMoves_releaseJob _) s)
  | jobCancel => exact .inl (ownerMoves_onJob _ ownerMoves_cancelJob s)
  | jobPause => exact .inl (ownerMoves_onJob _ ownerMoves_pauseJob s)
  | jobResume => exact .inl (ownerMoves_onJob _ ownerMoves_resumeJob s)
  | jobSkipPage => exact .inl (ownerMoves_onJob _ (ownerMoves_skipOnJob _) s)
  | jobRead => exact .inl (ownerMoves_onJob _ (ownerMoves_readJob _) s)
  | senseSet => exact .inl (ownerMoves_senseSet _ _ _ _ _ s)
  | doorOpen => exact .inl (ownerMoves_doorOpen s)
  | doorClosed => exact .inl (ownerMoves_doorClosed s)
  | jamClear => exact .inl (ownerMoves_jamClear s)
  | priceSet => exact .inl (ownerMoves_priceSet _ s)
  | meterSet => exact .inl (ownerMoves_meterSet _ s)
  | mediaSet => exact .inl (ownerMoves_mediaSet _ _ _ s)
  | limitsSet => exact .inl (ownerMoves_limitsSet _ s)
  | cartRead => exact .inl (ownerMoves_cartRead _ _ s)
  | cartReauth => exact .inl (ownerMoves_cartReauth _ s)
  | policySet => exact .inl (ownerMoves_policySet _ s)
  | familyKeyLoad => exact .inl (ownerMoves_familyKeyLoad _ _ s)
  | spoolRead => exact .inl (ownerMoves_spoolRead _ s)
  | blockRetire => exact .inl (ownerMoves_blockRetire _ s)
  | sanitize => exact .inl (ownerMoves_sanitize _ s)
  | faultAck => exact .inl (ownerMoves_faultAck _ s)
  | haltRecordAck => exact .inl (ownerMoves_haltRecordAck s)
  | sense => exact .inl (ownerMoves_onJob _ (fun _ s => Moves.rfl' s) s)
  | storeLock => exact .inl (ownerMoves_storeLock _ s)
  | acctList | pathRead | faultRead | storeRead | doorWrong | selectorWrong | modeWrong => exact .inl (Moves.rfl' s)

end Sys2Proof.Machine

/-! PROOFS. Every command is an event: one lemma for each owner of a command that is no request, and the step as a whole. -/

namespace Sys2Proof.Machine

open Host (Outcome)

variable {L : Prop}

/-! ### Replies and frames -/

/-- What an answer leaves, with its reply, is an event where the answer is reached by moves or begins a start-up. -/
theorem run_reply {s u : State} (h : Moves L s u ∨ Restarted s u) (room : unreadReplies s.lif < 8) (r : Reply) :
    Run L s (pushReply r u) := by
  rcases h with h | h
  · exact ⟨u, u, h, .inl rfl, .inr ⟨r, h.unread.trans_lt room, rfl⟩⟩
  · exact ⟨s, u, Moves.rfl' s, .inr (.inl h), .inr ⟨r, h.unread.trans_lt room, rfl⟩⟩

theorem moves_overrun (s : State) : Moves L s (overrun s) :=
  (Move.link s { s.lif with overrun := true } id le_rfl).moves

theorem run_request {k : RequestKind} {tag : Byte} {o : State → Answer} (h : Owner k tag o) (s : State)
    (clear : L → k = .storeWipe → s.spm.sheets = []) : Run L s (request k tag o s) := by
  unfold request
  split
  · exact (Moves.rfl' s).run
  · split
    · exact (moves_overrun s).run
    · next room =>
      have refused := fun c => run_reply (L := L) (.inl (Moves.rfl' s)) (Nat.lt_of_not_le room)
        { kind := kindByte k, tag := tag, status := statusByte c, payload := .empty }
      have served := run_reply (h.moves s clear) (Nat.lt_of_not_le room)
        { kind := kindByte k, tag := tag, status := statusByte (o s).status, payload := (o s).payload }
      split
      · exact refused .starting
      · split
        · exact served
        · exact refused .halted
      · exact served

theorem satAdd_le (a b top : Nat) : satAdd a b top ≤ top := Nat.min_le_right _ _

theorem moves_countFrameError (s : State) : Moves L s (countFrameError s) :=
  (Move.link s { s.lif with frameErrors := satAdd s.lif.frameErrors 1 65535 }
    (fun ok => ⟨ok.1, ok.2.1, ok.2.2.1, ok.2.2.2.1, ok.2.2.2.2.1, satAdd_le _ _ _, ok.2.2.2.2.2.2⟩) le_rfl).moves

theorem run_takeWrong (cause : LinkErrorCause) (tag kind : Byte) (s : State) : Run L s (takeWrong cause tag kind s) := by
  unfold takeWrong
  split
  · exact (moves_countFrameError s).run
  · split
    · exact (moves_overrun s).run
    · next room => exact run_reply (.inl (moves_countFrameError s)) (Nat.lt_of_not_le room) _

theorem run_takeUnknown (tag kind : Byte) (s : State) : Run L s (takeUnknown tag kind s) := by
  unfold takeUnknown
  split
  · exact (moves_overrun s).run
  · next room => exact run_reply (.inl (Moves.rfl' s)) (Nat.lt_of_not_le room) _

theorem kindOfByte_storeWipe {b : Byte} (h : kindOfByte b = some .storeWipe) : b = 0x22 := by
  revert b
  decide

theorem run_takeBytes (bytes : List Byte) (s : State) (clear : L → wipeFrame bytes = true → s.spm.sheets = []) :
    Run L s (takeBytes bytes s) := by
  unfold takeBytes
  split
  · exact (Moves.rfl' s).run
  · exact run_takeWrong _ _ _ s
  · next type kind tag payload hx =>
    unfold dispatch
    split
    · exact run_takeUnknown _ _ s
    · next k hk =>
      split
      · exact run_takeUnknown _ _ s
      · next request =>
        split
        · split
          · exact (moves_overrun s).run
          · next room => exact run_reply (.inl (Moves.rfl' s)) (Nat.lt_of_not_le room) _
        · next o ho =>
          refine run_request (parsePayload_owner ho) s fun hl wipe => clear hl ?_
          subst wipe
          simp_all [wipeFrame, kindOfByte_storeWipe hk]

/-! ### Transfers -/

theorem linkOk_transfer {l : LinkInterface} (h : LinkOk l) (x : Option Transfer) : LinkOk { l with transfer := x } := h

theorem moves_transferStart (s : State) : Moves L s { s with lif := beginTransfer s.lif } := by
  refine (Move.link s _ (fun ok => ?_) ?_).moves
  · unfold beginTransfer
    split <;> exact linkOk_transfer ok _
  · unfold beginTransfer
    split <;> exact le_rfl

/-- The list with its oldest entry gone keeps its bounds, ATTN following it (R186). -/
theorem linkOk_tail {l : LinkInterface} (h : LinkOk l) (x : Option Transfer) :
    LinkOk { l with out := l.out.tail, attn := !l.out.tail.isEmpty, transfer := x } := by
  obtain ⟨-, hu, hp, hs, hf, he, hd⟩ := h
  have sub := List.tail_sublist l.out
  exact ⟨rfl, (sub.countP_le).trans hu, (sub.countP_le).trans hp, hs.sublist (sub.filterMap _),
    fun p hm => hf p ((sub.filterMap _).subset hm), he, hd⟩

theorem moves_endTransfer (t : Transfer) (clocked : Nat) (s : State) :
    Moves L s { s with lif := endTransfer t clocked s.lif } := by
  refine (Move.link s _ (fun ok => ?_) ?_).moves
  · unfold endTransfer
    split
    · exact linkOk_tail ok none
    · obtain ⟨-, hrest⟩ := ok
      exact ⟨rfl, hrest⟩
  · unfold endTransfer
    split
    · exact (List.tail_sublist s.lif.out).countP_le
    · exact le_rfl

theorem run_transferEnd {bytes : List Byte} {s t : State} (h : execTransferEnd bytes s = .next t)
    (clear : L → (s.lif.transfer.any (!·.cut) && wipeFrame bytes) = true → s.spm.sheets = []) : Run L s t := by
  unfold execTransferEnd at h
  split at h
  · next x hx =>
    split at h
    · obtain rfl := Outcome.next.inj h
      have ended := moves_endTransfer (L := L) x bytes.length s
      split
      · exact ended.run
      · next whole => exact ended.then_run (run_takeBytes bytes _ fun hl wipe => clear hl (by simp [hx, whole, wipe]))
    · obtain rfl := Outcome.next.inj h
      exact (Moves.rfl' s).run
  · obtain rfl := Outcome.next.inj h
    exact (Moves.rfl' s).run

/-! ### Completions of the port and of the bus -/

/-- A guarded event: what it does, or nothing. -/
theorem Moves.guarded {c : Prop} [Decidable c] {s t : State} (h : Moves L s t) : Moves L s (if c then t else s) := by
  split
  · exact h
  · exact Moves.rfl' s

theorem moves_readComplete {r : BandRead} {s t : State} (h : execReadComplete r s = .next t) : Moves L s t := by
  unfold execReadComplete at h
  split at h
  · split at h
    · exact Outcome.next.inj h ▸ Moves.rfl' s
    · obtain rfl := Outcome.next.inj h
      exact ((reach_settle _).via <| (reach_handResult _ _ _).via <| (reach_judgeRead _ _ _ _ _ _).via
        (reach_endPortFlight s)).moves
  · exact Outcome.next.inj h ▸ Moves.rfl' s

theorem moves_exportBandSent {s t : State} (h : execExportBandSent s = .next t) : Moves L s t := by
  unfold execExportBandSent at h
  split at h
  · exact Outcome.next.inj h ▸ Moves.guarded ((reach_settle _).via (reach_bandSent _ _ s)).moves
  · exact Outcome.next.inj h ▸ Moves.rfl' s

theorem moves_programComplete {ok : Bool} {s t : State} (h : execProgramComplete ok s = .next t) : Moves L s t := by
  unfold execProgramComplete at h
  split at h
  · split at h
    · obtain rfl := Outcome.next.inj h
      exact ((reach_settle _).via (reach_endProgram _ _ _ _ s)).moves
    · exact Outcome.next.inj h ▸ Moves.rfl' s
  · exact Outcome.next.inj h ▸ Moves.rfl' s

theorem moves_eraseComplete {ok : Bool} {s t : State} (h : execEraseComplete ok s = .next t) : Moves L s t := by
  unfold execEraseComplete at h
  split at h
  · split at h
    · exact Outcome.next.inj h ▸ Moves.rfl' s
    · split at h
      · exact Outcome.next.inj h ▸ ((reach_settle _).via <| (reach_endErase _ _ _).via (reach_endPortFlight s)).moves
      · exact Outcome.next.inj h ▸ ((reach_settle _).via (reach_endPortFlight s)).moves
  · exact Outcome.next.inj h ▸ Moves.rfl' s

theorem moves_verifyComplete {r : VerifyRead} {s t : State} (h : execVerifyComplete r s = .next t) : Moves L s t := by
  unfold execVerifyComplete at h
  split at h
  · split at h
    · exact Outcome.next.inj h ▸ Moves.rfl' s
    · split at h
      · exact Outcome.next.inj h ▸ ((reach_settle _).via <| (reach_endVerify _ _ _).via (reach_endPortFlight s)).moves
      · exact Outcome.next.inj h ▸ ((reach_settle _).via (reach_endPortFlight s)).moves
  · exact Outcome.next.inj h ▸ Moves.rfl' s

theorem moves_probeComplete {acknowledged : Bool} {s t : State} (h : execProbeComplete acknowledged s = .next t) :
    Moves L s t := by
  unfold execProbeComplete at h
  split at h
  · split at h
    · exact Outcome.next.inj h ▸ Moves.rfl' s
    · split at h
      · exact Outcome.next.inj h ▸ (reach_withBus s _).moves
      · exact Outcome.next.inj h ▸ ((reach_settle _).via (reach_endEmpty _ s)).moves
  · exact Outcome.next.inj h ▸ Moves.rfl' s

theorem moves_readRecordComplete {record : List Byte} {s t : State} (h : execReadRecordComplete record s = .next t) :
    Moves L s t := by
  unfold execReadRecordComplete at h
  split at h
  · split at h
    · exact Outcome.next.inj h ▸ Moves.rfl' s
    · split at h
      · cases h
      · exact Outcome.next.inj h ▸ ((reach_settle _).via (reach_takeRecord _ _ s)).moves
  · exact Outcome.next.inj h ▸ Moves.rfl' s

theorem moves_challengeComplete {reply : Digest} {s t : State} (h : execChallengeComplete reply s = .next t) :
    Moves L s t := by
  unfold execChallengeComplete at h
  split at h
  · split at h
    · exact Outcome.next.inj h ▸ Moves.rfl' s
    · split at h
      · exact Outcome.next.inj h ▸ ((reach_settle _).via <| (reach_completeAuth _ _ _).via (reach_endFlight s)).moves
      · exact Outcome.next.inj h ▸ ((reach_settle _).via <| (reach_rejectRead _ _ _ _).via (reach_endFlight s)).moves
  · exact Outcome.next.inj h ▸ Moves.rfl' s

theorem moves_decrementComplete {level : BitVec 32} {reply : Digest} {s t : State}
    (h : execDecrementComplete level reply s = .next t) : Moves L s t := by
  unfold execDecrementComplete at h
  split at h
  · split at h
    · exact Outcome.next.inj h ▸ Moves.rfl' s
    · exact Outcome.next.inj h ▸ ((reach_settle _).via (reach_takeDecrement _ _ _ _ s)).moves
  · exact Outcome.next.inj h ▸ Moves.rfl' s

theorem moves_resyncComplete {s t : State} (h : execResyncComplete s = .next t) : Moves L s t := by
  unfold execResyncComplete at h
  split at h
  · split at h
    · exact Outcome.next.inj h ▸ ((reach_settle _).via (reach_endFlight s)).moves
    · exact Outcome.next.inj h ▸ Moves.rfl' s
  · exact Outcome.next.inj h ▸ Moves.rfl' s

/-! ### Sense inputs, deadlines and intake -/

theorem moves_rawLevelChange {ch : Channel} {input : Nat} {s t : State} (h : execRawLevelChange ch input s = .next t) :
    Moves L s t := by
  simp only [execRawLevelChange] at h
  split at h
  · exact Outcome.next.inj h ▸ (moves_followRaw _ _).via (reach_putChannel (by rw [watchLevel_level])).moves
  · exact Outcome.next.inj h ▸ (reach_putChannel (by rfl)).moves

theorem reach_jammed (cause : JamCause) : Chains fun s => settle (declareJam cause s) :=
  fun s => (reach_settle _).via (reach_declareJam _ s)

theorem moves_sheetRequest (s : State) : Moves L s (settle { s with spm := { s.spm with requestPending := true } }) :=
  ((reach_settle _).via (reach_withPath s { s.spm with requestPending := true } rfl rfl rfl rfl rfl rfl)).moves

theorem moves_lockoutExpiry (id : Nat) (s : State) : Moves L s (updateAccount id endLockout s) :=
  (reach_updateAccount id _ s keeps_endLockout (fun a _ h => by rw [endLockout_eq]; exact h)
    fun a => by rw [endLockout_eq]).moves

/-! ### Power -/

theorem restarted_resetInput (cut : StoreCut) (s : State) :
    Restarted s (beginStartUp false none [] { s with ps := cutStore cut s.ps }) :=
  Restarted.mk [] (cutStore cut s.ps) s.lif (some { step := 1, wipe := false, tag := none }) s.powered
    (List.nil_sublist _) (.inr ⟨cut, rfl⟩) fun _ h => Option.some.inj h ▸ rfl

theorem restarted_powerOn (s : State) : Restarted s { beginStartUp false none [] s with powered := true } :=
  Restarted.mk [] s.ps s.lif (some { step := 1, wipe := false, tag := none }) true (List.nil_sublist _) (.inl rfl)
    fun _ h => Option.some.inj h ▸ rfl

theorem restarted_losePower (cut : StoreCut) (s : State) : Restarted s (losePower cut s) :=
  Restarted.mk [] (cutStore cut s.ps) { s.lif with transfer := none } none false (List.nil_sublist _) (.inr ⟨cut, rfl⟩)
    fun _ h => nomatch h

/-! ### Commands -/

/-- The command takes a STORE_WIPE, of its own or as a frame. -/
def takesWipe (c : Instr) (s : State) : Bool :=
  match c with
  | .storeWipe _ => true
  | .transferEnd bytes => s.lif.transfer.any (!·.cut) && wipeFrame bytes
  | _ => false

theorem takesWipe_of_request {c : Instr} {tag : Byte} (h : requestOf c = some (.storeWipe, tag)) (s : State) :
    takesWipe c s = true := by
  cases c <;> simp [requestOf] at h
  rfl

/-- Every command is an event of moves, start-ups and replies. -/
theorem exec_run {c : Instr} {s t : State} (h : exec c s = .next t) (clear : L → takesWipe c s = true → s.spm.sheets = []) :
    Run L s t := by
  cases hr : requestOf c with
  | some kt =>
    obtain ⟨k, tag⟩ := kt
    obtain ⟨o, ho, he⟩ := exec_owner hr
    obtain rfl := Outcome.next.inj ((he s).symm.trans h)
    exact run_request ho s fun hl hk => clear hl (takesWipe_of_request (hk ▸ hr) s)
  | none =>
    cases c <;> cases hr
    case powerOn.refl => exact Outcome.next.inj h ▸ (restarted_powerOn s).run
    case resetInput.refl cut =>
      obtain rfl := Outcome.next.inj h
      split
      · exact (restarted_resetInput cut s).run
      · exact (Moves.rfl' s).run
    case powerLoss.refl cut =>
      obtain rfl := Outcome.next.inj h
      split
      · exact (restarted_losePower cut s).run
      · exact (Moves.rfl' s).run
    case startUpStepEnd.refl finding =>
      have h : execStartUpStepEnd finding s = .next t := h
      unfold execStartUpStepEnd at h
      split at h
      · next u hu =>
        obtain rfl := Outcome.next.inj h
        split
        · exact ⟨s, _, Moves.rfl' s, .inr (.inr (.mk u finding hu)), .inl rfl⟩
        · exact (Moves.rfl' s).run
      · exact Outcome.next.inj h ▸ (Moves.rfl' s).run
    case transferStart.refl => exact Outcome.next.inj h ▸ (Moves.guarded (moves_transferStart s)).run
    case transferEnd.refl bytes => exact run_transferEnd h clear
    case linkError.refl cause tag kind =>
      obtain rfl := Outcome.next.inj h
      split
      · exact run_takeWrong _ _ _ s
      · exact (Moves.rfl' s).run
    case linkOverrun.refl => exact Outcome.next.inj h ▸ (Moves.guarded (moves_overrun s)).run
    case unknownKind.refl tag kind =>
      obtain rfl := Outcome.next.inj h
      split
      · exact run_takeUnknown _ _ s
      · exact (Moves.rfl' s).run
    case rawLevelChange.refl => exact (moves_rawLevelChange h).run
    case feedLeadingEdge.refl => exact Outcome.next.inj h ▸ (moves_edgeCommand _ _ s).run
    case exitLeadingEdge.refl => exact Outcome.next.inj h ▸ (moves_edgeCommand _ _ s).run
    case trailingEdge.refl => exact Outcome.next.inj h ▸ (moves_edgeCommand _ _ s).run
    case supplyEdge.refl => exact Outcome.next.inj h ▸ (Moves.guarded (moves_takeEdge _ s)).run
    case entryLate.refl => exact Outcome.next.inj h ▸ (Moves.guarded (reach_jammed _ s).moves).run
    case exitLate.refl => exact Outcome.next.inj h ▸ (Moves.guarded (reach_jammed _ s).moves).run
    case sheetRequest.refl => exact Outcome.next.inj h ▸ (Moves.guarded (moves_sheetRequest s)).run
    case intakeBand.refl =>
      exact Outcome.next.inj h ▸ (Moves.guarded ((reach_settle _).via (reach_withJobs s _)).moves).run
    case intakeStallExpiry.refl =>
      exact Outcome.next.inj h ▸ (Moves.guarded ((reach_settle _).via (reach_expireStall s)).moves).run
    case holdExpiry.refl handle =>
      exact Outcome.next.inj h ▸ (Moves.guarded ((reach_settle _).via (reach_closeJob .expired handle s)).moves).run
    case lockoutExpiry.refl id => exact Outcome.next.inj h ▸ (Moves.guarded (moves_lockoutExpiry id s)).run
    case readComplete.refl => exact (moves_readComplete h).run
    case exportBandSent.refl => exact (moves_exportBandSent h).run
    case programComplete.refl => exact (moves_programComplete h).run
    case eraseComplete.refl => exact (moves_eraseComplete h).run
    case verifyComplete.refl => exact (moves_verifyComplete h).run
    case probeComplete.refl => exact (moves_probeComplete h).run
    case readRecordComplete.refl => exact (moves_readRecordComplete h).run
    case challengeComplete.refl => exact (moves_challengeComplete h).run
    case decrementComplete.refl => exact (moves_decrementComplete h).run
    case resyncComplete.refl => exact (moves_resyncComplete h).run
    case busTransactionFail.refl => exact Outcome.next.inj h ▸ (Moves.guarded (reach_failFlight s).moves).run
    case clockStretchLimit.refl => exact Outcome.next.inj h ▸ (Moves.guarded (reach_failFlight s).moves).run

/-! ### The step -/

theorem moves_beginEvent (c : Instr) (s : State) : Moves L s (beginEvent c s) := by
  have opened := (reach_withJobs s { s.jt with closedNow := [] }).moves (L := L)
  unfold beginEvent
  split
  · exact opened
  · exact opened
  · exact opened.trans (Move.event _ s.clock s.pending [] (.inl rfl)).moves

theorem beginEvent_spm (c : Instr) (s : State) : (beginEvent c s).spm = s.spm := by
  unfold beginEvent
  split <;> rfl

theorem takesWipe_beginEvent (c d : Instr) (s : State) : takesWipe c (beginEvent d s) = takesWipe c s := by
  unfold beginEvent
  split <;> rfl

/-- Every step is an event of moves, start-ups and replies. -/
theorem step_run {s t : State} (h : step s = .next t) (clear : L → wipeNext s = true → s.spm.sheets = []) : Run L s t := by
  unfold step at h
  split at h
  · next c rest hc =>
    have taken := (Move.event (L := L) s s.clock rest s.ps.journal (.inr rfl)).moves
    refine (taken.trans (moves_beginEvent c _)).then_run (exec_run h fun hl hw => ?_)
    rw [beginEvent_spm]
    rw [takesWipe_beginEvent] at hw
    refine clear hl ?_
    unfold wipeNext
    rw [hc]
    cases c <;> exact hw
  · obtain rfl := Outcome.next.inj h
    unfold tick
    exact (Moves.guarded (Move.event s (s.clock + 1) s.pending [] (.inl rfl)).moves).run

end Sys2Proof.Machine

/-! PROOFS. The steps of a start-up are chains of moves and of loads, the changes that only a start-up makes. -/

namespace Sys2Proof.Machine

variable {L : Prop}

/-- One change of the guarded parts of the state by a step of a start-up (R182). -/
inductive Load (L : Prop) : State → State → Prop
  | move {s t : State} (h : Move L s t) : Load L s t
  | haltLoaded (s : State) (h : HaltRecord) : Load L s { s with fm := { s.fm with haltRecord := some h } }
  | haltLost (s : State) (h : HaltRecord) : Load L s (setHaltRecord h s)
  | settingsLoaded (s : State) (g : Settings) : Load L s { s with settings := g }
  | sensed (s : State) (up : s.startUp.isSome = true) : Load L s (takeInitialLevels s)
  | store (s : State) (ps : Store) (tables : ∀ t ∈ storedTables ps, t ∈ storedTables s.ps)
      (histories : ∀ h ∈ storedHistories ps, h ∈ storedHistories s.ps) : Load L s { s with ps := ps }
  | stepped (s : State) (n : Nat) : Load L s (toStep n s)
  | accountsRead (s : State) (up : s.startUp.isSome = true) (minutes : Nat)
      (fresh : (contentOf [] s.ps.accounts).map (loadAccount minutes) = contentOf [] s.ps.accounts) :
      Load L s { s with accounts := contentOf [] s.ps.accounts }
  | accountsLoaded (s : State) (up : s.startUp.isSome = true) (minutes : Nat) :
      Load L s (setAccounts ((contentOf [] s.ps.accounts).map (loadAccount minutes)) s)
  | spool (s : State) (m : SpoolMedia) (e : ScrubEngine) : Load L s { s with smc := m, se := e }
  | historyLoaded (s : State) : Load L s { s with cbc := { s.cbc with
      history := (contentOf {} s.ps.history).entries, lifetime := (contentOf {} s.ps.history).lifetime } }
  | cleared (s : State) (up : s.startUp.isSome = true) :
      Load L s { s with spm := { s.spm with jammed := false, jam := none, doorOpen := false } }
  | running (s : State) : Load L s (evaluatePermit { s with startUp := none, fm := { s.fm with part := .running } })

/-- A chain of loads. -/
def Loads (L : Prop) : State → State → Prop := Relation.ReflTransGen (Load L)

theorem Load.loads {s t : State} (h : Load L s t) : Loads L s t := Relation.ReflTransGen.single h

theorem Loads.rfl' (s : State) : Loads L s s := Relation.ReflTransGen.refl

theorem Loads.trans {s t u : State} (h : Loads L s t) (k : Loads L t u) : Loads L s u := Relation.ReflTransGen.trans h k

theorem Loads.via {s t u : State} (k : Loads L t u) (h : Loads L s t) : Loads L s u := h.trans k

theorem Moves.loads {s t : State} (h : Moves L s t) : Loads L s t := by
  induction h with
  | refl => exact Loads.rfl' s
  | tail _ m ih => exact ih.trans (Load.move m).loads

theorem Reach.loads {s t : State} (h : Reach s t) : Loads L s t := h.moves.loads

/-- An invariant that every load keeps is kept by every chain. -/
theorem Loads.keeps {P : State → Prop} (hP : ∀ s t, Load L s t → P s → P t) {s t : State} (h : Loads L s t) (hs : P s) :
    P t := by
  induction h with
  | refl => exact hs
  | tail _ m ih => exact hP _ _ m ih

/-! ### What the store holds -/

theorem storedTables_blanked (ps : Store) : storedTables (writeAccounts .blank ps) = storedTables ps := by
  cases h : ps.accounts <;> simp [storedTables, storedTables.tableOf, h]

theorem storedHistories_blanked (ps : Store) : storedHistories (writeHistory .blank ps) = storedHistories ps := by
  cases h : ps.history <;> simp [storedHistories, storedHistories.historyOf, h]

theorem storedHistories_write (h : HistoryContent) (ps : Store) :
    storedHistories (writeHistory (written .history h) ps) = h :: storedHistories ps := by
  cases k : ps.history <;> simp [storedHistories, storedHistories.historyOf, written, k]

theorem contentOf_stored {ps : Store} : contentOf [] ps.accounts ∈ storedTables ps ∨ contentOf [] ps.accounts = [] := by
  cases h : ps.accounts with
  | holds table word => exact .inl (by simp [storedTables, storedTables.tableOf, contentOf, h])
  | blank => exact .inr rfl
  | broken => exact .inr rfl

theorem contentOf_storedHistory {ps : Store} :
    contentOf {} ps.history ∈ storedHistories ps ∨ contentOf {} ps.history = ({} : HistoryContent) := by
  cases h : ps.history with
  | holds content word => exact .inl (by simp [storedHistories, storedHistories.historyOf, contentOf, h])
  | blank => exact .inr rfl
  | broken => exact .inr rfl

/-- What the store holds of ACCOUNTS and of HISTORY is no other. -/
def SameStored (ps qs : Store) : Prop := storedTables qs = storedTables ps ∧ storedHistories qs = storedHistories ps

theorem SameStored.trans {ps qs rs : Store} (h : SameStored ps qs) (k : SameStored qs rs) : SameStored ps rs :=
  ⟨k.1.trans h.1, k.2.trans h.2⟩

theorem sameStored_writeSettings (p : Partition Settings) (ps : Store) : SameStored ps (writeSettings p ps) := ⟨rfl, rfl⟩
theorem sameStored_writeKeys (p : Partition KeysContent) (ps : Store) : SameStored ps (writeKeys p ps) := ⟨rfl, rfl⟩
theorem sameStored_writeDefects (p : Partition Defects) (ps : Store) : SameStored ps (writeDefects p ps) := ⟨rfl, rfl⟩
theorem sameStored_blankAccounts (ps : Store) : SameStored ps (writeAccounts .blank ps) := ⟨storedTables_blanked ps, rfl⟩
theorem sameStored_blankHistory (ps : Store) : SameStored ps (writeHistory .blank ps) := ⟨rfl, storedHistories_blanked ps⟩

theorem sameStored_wipeDefects (damaged : Bool) (ps : Store) : SameStored ps (wipeDefects damaged ps).2 := by
  unfold wipeDefects
  split
  · exact sameStored_writeDefects _ ps
  · exact ⟨rfl, rfl⟩
  · exact sameStored_writeDefects _ ps

theorem SameStored.load {s : State} {ps : Store} (h : SameStored s.ps ps) : Load L s { s with ps := ps } :=
  Load.store s ps (fun _ ht => h.1 ▸ ht) fun _ hh => h.2 ▸ hh

/-! ### Step 1 -/

theorem loads_checkHalt (damaged : List PartitionId) (s : State) :
    Loads L s (checkHalt damaged s) ∧ (checkHalt damaged s).startUp = s.startUp := by
  unfold checkHalt
  split
  · exact ⟨(Load.move (Move.results s _)).loads, rfl⟩
  · next h _ => exact ⟨(Load.haltLoaded s h).loads.trans (Load.move (Move.results _ _)).loads, rfl⟩
  · exact ⟨((Load.haltLost s lostHaltRecord).loads.trans (reach_askPart _).loads).trans (Load.move (Move.results _ _)).loads, rfl⟩

theorem loads_checkSettings (damaged : List PartitionId) {s : State} (up : s.startUp.isSome = true) :
    Loads L s (checkSettings damaged s) ∧ (checkSettings damaged s).startUp = s.startUp := by
  have found : ∀ t : State, t = (match checkPartition .settings (damaged.contains .settings) s.ps.settings with
      | .blank => noteResult (fun r => { r with settings := some .blank }) (setSettings {} s)
      | .passed g => noteResult (fun r => { r with settings := some .passed }) { s with settings := g }
      | .failed => noteResult (fun r => { r with settings := some .defaults }) (raiseNote .settingsRestored (setSettings {} s))) →
      Loads L s t ∧ t.startUp.isSome = true ∧ t.startUp = s.startUp := by
    rintro t rfl
    split
    · exact ⟨(Load.move (Move.settings s {})).loads.trans (Load.move (Move.results _ _)).loads, up, rfl⟩
    · next g _ => exact ⟨(Load.settingsLoaded s g).loads.trans (Load.move (Move.results _ _)).loads, up, rfl⟩
    · exact ⟨((Load.move (Move.settings s {})).loads.trans (reach_raiseNote _ _).loads).trans (Load.move (Move.results _ _)).loads, up, rfl⟩
  obtain ⟨loaded, started, same⟩ := found _ rfl
  exact ⟨loaded.trans (Load.sensed _ started).loads, same⟩

theorem loads_checkHistory (damaged : List PartitionId) (s : State) : Loads L s (checkHistory damaged s) := by
  unfold checkHistory
  split
  · exact (Load.move (Move.results s _)).loads
  · exact (Load.move (Move.results s _)).loads
  · exact ((Load.move (Move.historyWiped s)).loads.trans (reach_raiseNote _ _).loads).trans (Load.move (Move.results _ _)).loads

/-- A check whose failure halts the part goes on to what follows it, or halts. -/
theorem loads_checkAccounts (damaged : List PartitionId) {after : State → State} (h : ∀ s, Loads L s (after s)) (s : State) :
    Loads L s (checkAccounts damaged after s) := by
  unfold checkAccounts
  split
  · exact (h _).via (Load.move (Move.results s _)).loads
  · exact (h _).via (Load.move (Move.results s _)).loads
  · exact (reach_haltPart _ s).loads

theorem loads_loadKeys (s : State) (k : KeysContent) : Loads L s { s with ps := { s.ps with loadedKeys := some k } } :=
  (SameStored.load (s := s) (ps := { s.ps with loadedKeys := some k }) ⟨rfl, rfl⟩).loads

theorem loads_checkKeys (damaged : List PartitionId) {after : State → State} (h : ∀ s, Loads L s (after s)) (s : State) :
    Loads L s (checkKeys damaged after s) := by
  unfold checkKeys
  split
  · exact (h _).via <| (Load.move (Move.results _ _)).loads.via (loads_loadKeys s _)
  · exact (h _).via <| (Load.move (Move.results _ _)).loads.via (loads_loadKeys s _)
  · exact (reach_haltPart _ s).loads

theorem loads_checkDefects (damaged : List PartitionId) {after : State → State} (h : ∀ s, Loads L s (after s)) (s : State) :
    Loads L s (checkDefects damaged after s) := by
  unfold checkDefects
  split
  · exact (h _).via (Load.move (Move.results s _)).loads
  · exact (h _).via (Load.move (Move.results s _)).loads
  · exact (reach_haltPart _ s).loads

theorem loads_checkStore (damaged : List PartitionId) {s : State} (up : s.startUp.isSome = true) :
    Loads L s (checkStore damaged s) := by
  unfold checkStore
  obtain ⟨halt, same⟩ := loads_checkHalt (L := L) damaged s
  have loaded := (halt.trans (loads_checkSettings damaged (same ▸ up)).1).trans (loads_checkHistory damaged _)
  refine loaded.trans (loads_checkAccounts damaged (loads_checkKeys damaged (loads_checkDefects damaged fun s => ?_)) _)
  exact (Load.stepped s 2).loads

theorem loads_wipeHalt (s : State) : Loads L s (wipeHalt s) ∧ (wipeHalt s).startUp = s.startUp := by
  simp only [wipeHalt]
  have blanked := (Load.move (Move.haltCleared (L := L) s)).loads
  split
  · exact ⟨blanked, rfl⟩
  · exact ⟨blanked.trans (reach_askPart _).loads, rfl⟩

theorem loads_wipeStore (damaged : List PartitionId) {s : State} (up : s.startUp.isSome = true) :
    Loads L s (wipeStore damaged s) := by
  obtain ⟨halt, same⟩ := loads_wipeHalt (L := L) s
  refine halt.trans ?_
  rw [← same] at up
  simp only [wipeStore]
  generalize wipeHalt s = t at up ⊢
  have stored := (sameStored_writeSettings .blank t.ps).trans <| (sameStored_writeSettings (written .settings {}) _).trans <|
    (sameStored_blankHistory _).trans <| (sameStored_blankAccounts _).trans <| (sameStored_writeKeys .blank _).trans <|
    sameStored_wipeDefects (damaged.contains .defects) _
  generalize wipeDefects (damaged.contains .defects) _ = wiped at stored ⊢
  have loaded : Load L t { t with ps := { wiped.2 with loadedKeys := some {}, results :=
      { accounts := some .wiped, defects := some wiped.1, settings := some .wiped, history := some .wiped,
        keys := some .wiped, halt := some .wiped } } } := SameStored.load stored
  refine (loaded.loads.trans (Load.settingsLoaded _ {}).loads).trans (Loads.trans (Load.sensed _ ?_).loads (Load.stepped _ 2).loads)
  exact up

/-! ### Steps 2 to 7 -/

theorem reach_withHealth (s : State) (bc : BandCipher) : Reach s { s with bc := bc } := reach_withCipher s bc

theorem reach_testSource (s : State) : Reach s (testSource s).2 := by
  simp only [testSource]
  exact (reach_withCipher _ _).via (same_takeNoise s).reach

theorem loads_drawDeviceKey (s : State) : Loads L s (drawDeviceKey s) := by
  unfold drawDeviceKey
  split
  · exact Loads.rfl' s
  · have drawn := reach_draw32 s
    split
    · next h =>
      rw [h] at drawn
      exact ((reach_haltPart _ _).via drawn).loads
    · next h =>
      rw [h] at drawn
      exact drawn.loads.trans (Load.move (Move.keys _ _)).loads

theorem loads_runTests (cipherOk : Bool) (s : State) : Loads L s (runTests cipherOk s) := by
  unfold runTests
  split
  · exact (reach_haltPart _ s).loads
  · have tested := reach_testSource s
    split
    · next h =>
      rw [h] at tested
      exact ((reach_haltPart _ _).via tested).loads
    · next h =>
      rw [h] at tested
      exact (((reach_withCipher _ _).via tested).loads.trans (loads_drawDeviceKey _)).trans (Load.stepped _ 3).loads

theorem loads_loadAccounts {s : State} (up : s.startUp.isSome = true) : Loads L s (loadAccounts s) := by
  simp only [loadAccounts]
  refine Loads.via (Load.stepped _ 4).loads ?_
  split
  · next fresh => exact (Load.accountsRead s up _ fresh).loads
  · exact (Load.accountsLoaded s up _).loads

theorem loads_buildSpool (s : State) : Loads L s (buildSpool s) := by
  simp only [buildSpool]
  exact (Load.spool s _ _).loads.trans (Load.stepped _ 5).loads

theorem loads_loadCartridges (s : State) : Loads L s (loadCartridges s) := by
  simp only [loadCartridges]
  exact (reach_settle _).loads.via <| (Load.stepped _ 6).loads.via <| (reach_queueAll _).loads.via (Load.historyLoaded s).loads

theorem loads_enterRunning (s : State) : Loads L s (enterRunning s) := by
  simp only [enterRunning]
  refine Loads.via ((reach_settle _).via <| (reach_reportStartUp _ _ _).via (reach_askPart _)).loads ?_
  have ran := (Load.running (L := L) s).loads
  split
  · exact (reach_raiseNote _ _).loads.via ran
  · exact ran

/-- The end of a step of a start-up is a chain of loads. -/
theorem Loaded.loads {s t : State} (h : Loaded s t) : Loads L s t := by
  obtain ⟨u, finding, hu⟩ := h
  have up : s.startUp.isSome = true := by rw [hu]; rfl
  unfold endStep
  split
  · split
    · exact loads_wipeStore _ up
    · exact loads_checkStore _ up
  · exact loads_runTests _ s
  · exact loads_loadAccounts up
  · exact loads_buildSpool s
  · exact loads_loadCartridges s
  · exact (Load.cleared s up).loads.trans (Load.stepped _ 7).loads
  · exact loads_enterRunning s

end Sys2Proof.Machine

/-! PROOFS. O3: the outgoing list keeps its bounds at every step. -/

namespace Sys2Proof.Machine

/-! ### The outgoing list -/

/-- A subject's entry keeps its place and its subject (R191). -/
theorem filterMap_replaceEntry {sub : Subject} {n : Notice} (h : noticeSubject n = some sub) (out : List Entry) :
    (replaceEntry sub n out).filterMap entrySubject = out.filterMap entrySubject := by
  induction out with
  | nil => rfl
  | cons e rest ih =>
    simp only [replaceEntry]
    split
    · next he => rw [List.filterMap_cons, List.filterMap_cons, he, show entrySubject (.notice n) = some sub from h]
    · rw [List.filterMap_cons, List.filterMap_cons, ih]

theorem replaceEntry_isEmpty (sub : Subject) (n : Notice) (out : List Entry) :
    (replaceEntry sub n out).isEmpty = out.isEmpty := by
  cases out with
  | nil => rfl
  | cons e rest =>
    simp only [replaceEntry]
    split <;> rfl

theorem progress_le_notices (l : LinkInterface) : progressEntries l ≤ noticeEntries l :=
  List.countP_mono_left fun _ _ h => ((Bool.and_eq_true _ _).mp h).1

theorem progress_appendEntry (e : Entry) (l : LinkInterface) :
    progressEntries (appendEntry e l) = progressEntries l + if !isReply e && (entrySubject e).isNone then 1 else 0 := by
  simp [progressEntries, appendEntry, List.countP_append, List.countP_cons]

theorem subjects_appendEntry (e : Entry) (l : LinkInterface) :
    subjects (appendEntry e l) = subjects l ++ (entrySubject e).toList := by
  cases h : entrySubject e <;> simp [subjects, appendEntry, h]

/-- An entry without a subject joins the tail. -/
theorem linkOk_appendPlain {e : Entry} {l : LinkInterface} (h : LinkOk l) (plain : entrySubject e = none)
    (replies : unreadReplies (appendEntry e l) ≤ 8) (progress : progressEntries (appendEntry e l) ≤ 48) :
    LinkOk (appendEntry e l) := by
  obtain ⟨-, -, -, hs, hf, he, hd⟩ := h
  have same : subjects (appendEntry e l) = subjects l := by simp [subjects_appendEntry, plain]
  exact ⟨by simp [appendEntry], replies, progress, same.symm ▸ hs, same.symm ▸ hf, he, hd⟩

theorem linkOk_admitState {n : Notice} {sub : Subject} {l : LinkInterface} (h : LinkOk l) (hn : noticeSubject n = some sub)
    (place : placeOk n) : LinkOk (admitNotice n l) := by
  have unread := unread_admitNotice n l
  obtain ⟨ha, hu, hp, hs, hf, he, hd⟩ := h
  unfold admitNotice at unread ⊢
  simp only [hn] at unread ⊢
  split
  · have same := filterMap_replaceEntry hn l.out
    refine ⟨ha.trans (congrArg not (replaceEntry_isEmpty sub n l.out).symm), ?_, ?_, ?_, ?_, he, hd⟩
    · exact (countP_replaceEntry _ (fun e hm => by cases e with | reply r => cases hm | notice m => rfl) l.out).le.trans hu
    · refine (countP_replaceEntry _ (fun e hm => ?_) l.out).le.trans hp
      rw [hm, show entrySubject (.notice n) = some sub from hn]
      simp
    · exact (congrArg List.Nodup same).mpr hs
    · exact fun p hm => hf p ((congrArg (Subject.faultPlace p ∈ ·) same).mp hm)
  · next new =>
    have subs : subjects (appendEntry (.notice n) l) = subjects l ++ [sub] := by
      rw [subjects_appendEntry, show entrySubject (.notice n) = some sub from hn]; rfl
    have absent : sub ∉ subjects l := by
      simp only [List.any_eq_true, beq_iff_eq, not_exists, not_and] at new
      simpa [subjects] using new
    refine ⟨by simp [appendEntry], (unread_appendNotice n l).le.trans hu, ?_, ?_, ?_, he, hd⟩
    · rw [progress_appendEntry, show entrySubject (.notice n) = some sub from hn]
      simpa using hp
    · rw [subs]
      exact List.Nodup.append hs (List.nodup_singleton sub) (by simpa using absent)
    · intro p hm
      rw [subs, List.mem_append, List.mem_singleton] at hm
      rcases hm with hm | rfl
      · exact hf p hm
      · exact place p hn

theorem linkOk_admitProgress {n : Notice} {l : LinkInterface} (h : LinkOk l) (hn : noticeSubject n = none) :
    LinkOk (admitNotice n l) := by
  unfold admitNotice
  simp only [hn]
  split
  · next room =>
    refine linkOk_appendPlain h hn ((unread_appendNotice n l).le.trans h.2.1) ?_
    rw [progress_appendEntry]
    have := progress_le_notices l
    split <;> omega
  · obtain ⟨ha, hu, hp, hs, hf, he, -⟩ := h
    exact ⟨ha, hu, hp, hs, hf, he, satAdd_le _ _ _⟩

/-- R191: a notice is admitted within the list's bounds. -/
theorem linkOk_admitNotice {n : Notice} {l : LinkInterface} (h : LinkOk l) (place : placeOk n) : LinkOk (admitNotice n l) := by
  cases hn : noticeSubject n with
  | none => exact linkOk_admitProgress h hn
  | some sub => exact linkOk_admitState h hn place

/-- R188: a reply joins the list where a place is free. -/
theorem linkOk_pushReply {r : Reply} {l : LinkInterface} (h : LinkOk l) (room : unreadReplies l < 8) :
    LinkOk (appendEntry (.reply r) l) := by
  refine linkOk_appendPlain h rfl ?_ ?_
  · simpa [unreadReplies, appendEntry, List.countP_append, isReply] using room
  · rw [progress_appendEntry]
    simpa [isReply] using h.2.2.1

/-- R194: the list after the beginning of a start-up. -/
theorem linkOk_restart {kept : List Entry} {l m : LinkInterface} (h : LinkOk l) (fewer : kept.Sublist l.out) :
    LinkOk (restartLink kept m) := by
  obtain ⟨-, hu, hp, hs, hf, -, -⟩ := h
  exact ⟨rfl, fewer.countP_le.trans hu, fewer.countP_le.trans hp, hs.sublist (fewer.filterMap _),
    fun p hm => hf p ((fewer.filterMap _).subset hm), Nat.zero_le _, Nat.zero_le _⟩

/-! ### Events -/

variable {L : Prop}

theorem Effect.linkOk {s t : State} (h : Effect s t) (ok : LinkOk s.lif) : LinkOk t.lif := by
  cases h with
  | same h => exact h.lif ▸ ok
  | notice n place => exact linkOk_admitNotice ok place
  | account id f => exact (updateAccount_lif id f s).symm ▸ ok
  | jammed p h => rw [releaseSheets_lif]; exact ok
  | emptied => rw [releaseSheets_lif]; exact ok
  | granted sh a => exact (updateAccount_lif sh.owner (reserve sh.cost) s).symm ▸ ok
  | _ => exact ok

theorem Move.linkOk {s t : State} (h : Move L s t) (ok : LinkOk s.lif) : LinkOk t.lif := by
  cases h with
  | effect h => exact h.linkOk ok
  | link l keeps fewer => exact keeps ok
  | delivered sh rest h => rw [updateAccount_lif]; exact ok
  | _ => exact ok

theorem Restarted.linkOk {s t : State} (h : Restarted s t) (ok : LinkOk s.lif) : LinkOk t.lif := by
  obtain ⟨kept, ps, l, u, powered, fewer, -, -⟩ := h
  exact linkOk_restart ok fewer

theorem Load.linkOk {s t : State} (h : Load L s t) (ok : LinkOk s.lif) : LinkOk t.lif := by
  cases h with
  | move h => exact h.linkOk ok
  | _ => exact ok

/-- Settles O3, by what an event is made of: moves, the beginning or a step of a start-up, and a reply in a free place. -/
theorem linkKept : Obligations.LinkKept := by
  intro s t ok h
  refine (step_run (L := False) h (fun no => no.elim)).keeps (P := fun u => LinkOk u.lif)
    (fun _ _ m => m.linkOk) (fun _ _ m => m.linkOk) (fun a b m k => ?_) (fun u r room k => linkOk_pushReply k room) ok
  exact (Loaded.loads (L := False) m).keeps (P := fun u => LinkOk u.lif) (fun _ _ n => n.linkOk) k

end Sys2Proof.Machine

/-! PROOFS. O4: the account table keeps its order and ranges at every step, and so do the tables the store holds. -/

namespace Sys2Proof.Machine

/-! ### A cut among the writes of an event -/

/-- A partition after the writes of an event that were not begun are undone: it holds what it held before one of them, or what
it held. -/
theorem undone_partition {α : Type} {get : Store → Partition α} {before : StoreWrite → Option (Partition α)}
    (undo : ∀ ps w, get (undoWrite ps w) = (before w).getD (get ps)) (ws : List StoreWrite) (ps : Store) :
    get (ws.foldl undoWrite ps) = get ps ∨ ∃ w ∈ ws, before w = some (get (ws.foldl undoWrite ps)) := by
  induction ws generalizing ps with
  | nil => exact .inl rfl
  | cons w rest ih =>
    simp only [List.foldl_cons]
    rcases ih (undoWrite ps w) with h | ⟨x, hx, h⟩
    · rw [h, undo]
      cases hw : before w with
      | none => exact .inl rfl
      | some p => exact .inr ⟨w, List.mem_cons_self .., hw⟩
    · exact .inr ⟨x, List.mem_cons_of_mem _ hx, h⟩

/-- R171: a partition after a cut is broken, holds what it held before a write of the event, or holds what it held. -/
theorem cut_partition {α : Type} {get : Store → Partition α} {before : StoreWrite → Option (Partition α)}
    (undo : ∀ ps w, get (undoWrite ps w) = (before w).getD (get ps))
    (tear : ∀ ps w, get (tearWrite ps w) = .broken ∨ get (tearWrite ps w) = get ps)
    (journal : ∀ ps : Store, get { ps with journal := [] } = get ps) (cut : StoreCut) (ps : Store) :
    get (cutStore cut ps) = .broken ∨ get (cutStore cut ps) = get ps
      ∨ ∃ w ∈ ps.journal, before w = some (get (cutStore cut ps)) := by
  simp only [cutStore, journal]
  have undone : get ((ps.journal.take cut.undone).foldl undoWrite ps) = get ps
      ∨ ∃ w ∈ ps.journal, before w = some (get ((ps.journal.take cut.undone).foldl undoWrite ps)) :=
    (undone_partition undo (ps.journal.take cut.undone) ps).imp_right fun ⟨w, hw, h⟩ => ⟨w, List.mem_of_mem_take hw, h⟩
  cases (if cut.torn = true then (ps.journal.drop cut.undone).head? else none) with
  | none => exact .inr undone
  | some w =>
    refine (tear _ w).imp id fun same => ?_
    simp only [Option.elim, same]
    exact undone

theorem cutStore_journal (cut : StoreCut) (ps : Store) : (cutStore cut ps).journal = [] := rfl

/-- The partition ACCOUNTS held before a write to it. -/
def accountsBefore : StoreWrite → Option (Partition (List Account))
  | .accounts before => some before
  | _ => none

/-- The partition HISTORY held before a write to it. -/
def historyBefore : StoreWrite → Option (Partition HistoryContent)
  | .history before => some before
  | _ => none

theorem mem_storedTables {ps : Store} {t : List Account} : t ∈ storedTables ps ↔
    storedTables.tableOf ps.accounts = some t
      ∨ ∃ w ∈ ps.journal, ∃ p, accountsBefore w = some p ∧ storedTables.tableOf p = some t := by
  unfold storedTables
  rw [List.mem_append, Option.mem_toList, List.mem_filterMap]
  refine or_congr Iff.rfl (exists_congr fun w => and_congr_right fun _ => ?_)
  cases w <;> simp [accountsBefore]

theorem mem_storedHistories {ps : Store} {h : HistoryContent} : h ∈ storedHistories ps ↔
    storedHistories.historyOf ps.history = some h
      ∨ ∃ w ∈ ps.journal, ∃ p, historyBefore w = some p ∧ storedHistories.historyOf p = some h := by
  unfold storedHistories
  rw [List.mem_append, Option.mem_toList, List.mem_filterMap]
  refine or_congr Iff.rfl (exists_congr fun w => and_congr_right fun _ => ?_)
  cases w <;> simp [historyBefore]

/-- A cut brings no table back that the store did not hold. -/
theorem storedTables_cut {cut : StoreCut} {ps : Store} {t : List Account} (h : t ∈ storedTables (cutStore cut ps)) :
    t ∈ storedTables ps := by
  rw [mem_storedTables] at h ⊢
  rcases h with h | ⟨w, hw, -⟩
  · rcases cut_partition (get := (·.accounts)) (before := accountsBefore) (fun ps w => by cases w <;> rfl)
      (fun ps w => by cases w <;> simp [tearWrite]) (fun _ => rfl) cut ps with broken | same | ⟨w, hw, before⟩
    · rw [broken] at h; cases h
    · exact .inl (same ▸ h)
    · exact .inr ⟨w, hw, _, before, h⟩
  · cases hw

/-- A cut brings no history back that the store did not hold. -/
theorem storedHistories_cut {cut : StoreCut} {ps : Store} {x : HistoryContent} (h : x ∈ storedHistories (cutStore cut ps)) :
    x ∈ storedHistories ps := by
  rw [mem_storedHistories] at h ⊢
  rcases h with h | ⟨w, hw, -⟩
  · rcases cut_partition (get := (·.history)) (before := historyBefore) (fun ps w => by cases w <;> rfl)
      (fun ps w => by cases w <;> simp [tearWrite]) (fun _ => rfl) cut ps with broken | same | ⟨w, hw, before⟩
    · rw [broken] at h; cases h
    · exact .inl (same ▸ h)
    · exact .inr ⟨w, hw, _, before, h⟩
  · cases hw

theorem storedTables_standing {ps : Store} {journal : List StoreWrite} (h : journal = [] ∨ journal = ps.journal)
    {t : List Account} (ht : t ∈ storedTables { ps with journal := journal }) : t ∈ storedTables ps := by
  rcases h with rfl | rfl
  · rw [mem_storedTables] at ht ⊢
    exact ht.imp id fun ⟨_, hw, _⟩ => by cases hw
  · exact ht

theorem storedHistories_standing {ps : Store} {journal : List StoreWrite} (h : journal = [] ∨ journal = ps.journal)
    {x : HistoryContent} (hx : x ∈ storedHistories { ps with journal := journal }) : x ∈ storedHistories ps := by
  rcases h with rfl | rfl
  · rw [mem_storedHistories] at hx ⊢
    exact hx.imp id fun ⟨_, hw, _⟩ => by cases hw
  · exact hx

theorem storedTables_restarted {s : State} {ps : Store} (h : ps = s.ps ∨ ∃ cut, ps = cutStore cut s.ps)
    {t : List Account} (ht : t ∈ storedTables { ps with loadedKeys := none, results := {}, journal := [] }) :
    t ∈ storedTables s.ps := by
  have stands : t ∈ storedTables ps := storedTables_standing (journal := []) (.inl rfl) ht
  rcases h with rfl | ⟨cut, rfl⟩
  · exact stands
  · exact storedTables_cut stands

theorem storedHistories_restarted {s : State} {ps : Store} (h : ps = s.ps ∨ ∃ cut, ps = cutStore cut s.ps)
    {x : HistoryContent} (hx : x ∈ storedHistories { ps with loadedKeys := none, results := {}, journal := [] }) :
    x ∈ storedHistories s.ps := by
  have stands : x ∈ storedHistories ps := storedHistories_standing (journal := []) (.inl rfl) hx
  rcases h with rfl | ⟨cut, rfl⟩
  · exact stands
  · exact storedHistories_cut stands

/-! ### The account table -/

theorem tableOk_nil : TableOk [] := ⟨Nat.zero_le _, List.Pairwise.nil, fun _ h => by cases h⟩

/-- A change of records that keeps their IDs and ranges keeps the table's order (R29). -/
theorem tableOk_map {f : Account → Account} (h : KeepsAccount f) {table : List Account} (ok : TableOk table) :
    TableOk (table.map f) := by
  obtain ⟨short, order, each⟩ := ok
  refine ⟨by simpa using short, ?_, fun a ha => ?_⟩
  · rw [List.map_map, show table.map ((·.id) ∘ f) = table.map (·.id) from
      List.map_congr_left fun a ha => (h a (each a ha)).2]
    exact order
  · obtain ⟨b, hb, rfl⟩ := List.mem_map.mp ha
    exact (h b (each b hb)).1

theorem KeepsAccount.of_id {f : Account → Account} (h : KeepsAccount f) (id : Nat) :
    KeepsAccount fun a => if a.id = id then f a else a := fun a ok => by
  dsimp only
  split
  · exact h a ok
  · exact ⟨ok, rfl⟩

theorem tableOk_changeAccount {f : Account → Account} (h : KeepsAccount f) (id : Nat) {table : List Account} (ok : TableOk table) :
    TableOk (changeAccount id f table) := tableOk_map (h.of_id id) ok

theorem keeps_released (sheets : List Sheet) : KeepsAccount (released sheets) := fun _ h => ⟨h, rfl⟩

theorem keeps_loadAccount (minutes : Nat) : KeepsAccount (loadAccount minutes) := fun _ h => ⟨h, rfl⟩

theorem mem_insertAccount {a b : Account} {table : List Account} : b ∈ insertAccount a table ↔ b = a ∨ b ∈ table := by
  induction table with
  | nil => simp [insertAccount]
  | cons c rest ih =>
    simp only [insertAccount]
    split
    · simp
    · simp only [List.mem_cons, ih]
      exact or_left_comm

theorem length_insertAccount (a : Account) (table : List Account) : (insertAccount a table).length = table.length + 1 := by
  induction table with
  | nil => rfl
  | cons c rest ih =>
    simp only [insertAccount]
    split
    · rfl
    · simp [ih]

theorem findAccount_none {id : Nat} {table : List Account} : findAccount id table = none ↔ ∀ a ∈ table, a.id ≠ id := by
  simp [findAccount]

theorem findAccount_mem {id : Nat} {table : List Account} {a : Account} (h : findAccount id table = some a) :
    a ∈ table ∧ a.id = id :=
  ⟨List.mem_of_find?_eq_some h, by simpa using List.find?_some h⟩

/-- R29: a new ID takes its place in the order. -/
theorem sorted_insertAccount {a : Account} {table : List Account} (sorted : (table.map (·.id)).Pairwise (· < ·))
    (unused : ∀ b ∈ table, b.id ≠ a.id) : ((insertAccount a table).map (·.id)).Pairwise (· < ·) := by
  induction table with
  | nil => simp [insertAccount]
  | cons c rest ih =>
    rw [List.map_cons, List.pairwise_cons] at sorted
    obtain ⟨first, order⟩ := sorted
    have other := unused c (List.mem_cons_self ..)
    simp only [insertAccount]
    split
    · next less =>
      rw [List.map_cons, List.map_cons, List.pairwise_cons]
      refine ⟨fun n hn => ?_, List.pairwise_cons.mpr ⟨first, order⟩⟩
      rcases List.mem_cons.mp hn with rfl | hn
      · exact less
      · exact less.trans (first n hn)
    · next notLess =>
      rw [List.map_cons, List.pairwise_cons]
      refine ⟨fun n hn => ?_, ih order fun b hb => unused b (List.mem_cons_of_mem _ hb)⟩
      obtain ⟨b, hb, rfl⟩ := List.mem_map.mp hn
      rcases mem_insertAccount.mp hb with rfl | hb
      · omega
      · exact first _ (List.mem_map_of_mem hb)

theorem tableOk_insertAccount {a : Account} {table : List Account} (ok : TableOk table) (new : AccountOk a)
    (unused : findAccount a.id table = none) (room : table.length < 2048) : TableOk (insertAccount a table) := by
  obtain ⟨-, order, each⟩ := ok
  refine ⟨(length_insertAccount a table).le.trans room, sorted_insertAccount order (findAccount_none.mp unused), fun b hb => ?_⟩
  rcases mem_insertAccount.mp hb with rfl | hb
  · exact new
  · exact each b hb

theorem tableOk_sublist {table less : List Account} (ok : TableOk table) (h : less.Sublist table) : TableOk less :=
  ⟨h.length_le.trans ok.1, ok.2.1.sublist (h.map _), fun a ha => ok.2.2 a (h.subset ha)⟩

/-! ### Events -/

variable {L : Prop}

/-- The working table and those the store holds after a write to ACCOUNTS. -/
theorem accountsOk_setAccounts {s : State} {table : List Account} (ok : AccountsOk s) (h : TableOk table) :
    AccountsOk (setAccounts table s) := by
  refine ⟨h, fun t ht => ?_⟩
  rw [setAccounts_ps, storedTables_write, List.mem_cons] at ht
  rcases ht with rfl | ht
  · exact h
  · exact ok.2 t ht

theorem accountsOk_updateAccount {s : State} (id : Nat) {f : Account → Account} (h : KeepsAccount f) (ok : AccountsOk s) :
    AccountsOk (updateAccount id f s) := by
  unfold updateAccount
  dsimp only
  split
  · exact ok
  · exact accountsOk_setAccounts ok (tableOk_changeAccount h id ok.1)

theorem accountsOk_releaseSheets (sheets : List Sheet) {s : State} (ok : AccountsOk s) : AccountsOk (releaseSheets sheets s) := by
  obtain ⟨ps, he, -, -, ht⟩ := releaseSheets_spec sheets s
  rw [he]
  refine ⟨tableOk_map (keeps_released sheets) ok.1, fun t h => ?_⟩
  rcases ht t h with h | ⟨l, rfl⟩
  · exact ok.2 t h
  · exact tableOk_map (keeps_released l) ok.1

theorem Effect.accountsOk {s t : State} (h : Effect s t) (ok : AccountsOk s) : AccountsOk t := by
  cases h with
  | same h =>
    unfold AccountsOk
    rw [h.accounts, h.ps]
    exact ok
  | account id f h hb hr => exact accountsOk_updateAccount id h ok
  | jammed p h => exact accountsOk_releaseSheets _ ok
  | emptied => exact accountsOk_releaseSheets _ ok
  | granted sh a he hl hp ha hc => exact accountsOk_updateAccount sh.owner (keeps_reserve sh.cost) ok
  | _ => exact ok

theorem Move.accountsOk {s t : State} (h : Move L s t) (ok : AccountsOk s) : AccountsOk t := by
  cases h with
  | effect h => exact h.accountsOk ok
  | event clock pending journal h => exact ⟨ok.1, fun t ht => ok.2 t (storedTables_standing h ht)⟩
  | created a good unused room covered free => exact accountsOk_setAccounts ok (tableOk_insertAccount ok.1 good unused room)
  | deleted id a found free => exact accountsOk_setAccounts ok (tableOk_sublist ok.1 List.filter_sublist)
  | accountsWiped clear => exact accountsOk_setAccounts ok tableOk_nil
  | delivered sh rest h => exact accountsOk_updateAccount sh.owner (keeps_charge _ _ _) ok
  | _ => exact ok

theorem Restarted.accountsOk {s t : State} (h : Restarted s t) (ok : AccountsOk s) : AccountsOk t := by
  obtain ⟨kept, ps, l, u, powered, -, store, -⟩ := h
  exact ⟨tableOk_nil, fun t ht => ok.2 t (storedTables_restarted store ht)⟩

/-- The table that step 4 reads is one the store holds, or empty. -/
theorem contentOf_holds {P : List Account → Prop} {ps : Store} (nil : P []) (h : ∀ t ∈ storedTables ps, P t) :
    P (contentOf [] ps.accounts) := by
  rcases contentOf_stored (ps := ps) with held | empty
  · exact h _ held
  · exact Eq.mpr (congrArg P empty) nil

theorem Load.accountsOk {s t : State} (h : Load L s t) (ok : AccountsOk s) : AccountsOk t := by
  have held : TableOk (contentOf [] s.ps.accounts) := contentOf_holds tableOk_nil ok.2
  cases h with
  | move h => exact h.accountsOk ok
  | store ps tables histories => exact ⟨ok.1, fun t ht => ok.2 t (tables t ht)⟩
  | accountsRead up minutes fresh => exact ⟨held, ok.2⟩
  | accountsLoaded up minutes => exact accountsOk_setAccounts ok (tableOk_map (keeps_loadAccount minutes) held)
  | _ => exact ok

/-- Settles O4: each move, start-up, load and reply keeps the table and the tables the store holds. -/
theorem accountsKept : Obligations.AccountsKept := by
  intro s t ok h
  refine (step_run (L := False) h (fun no => no.elim)).keeps (P := AccountsOk)
    (fun _ _ m => m.accountsOk) (fun _ _ m => m.accountsOk) (fun a b m k => ?_) (fun u r room k => k) ok
  exact (Loaded.loads (L := False) m).keeps (P := AccountsOk) (fun _ _ n => n.accountsOk) k

end Sys2Proof.Machine

/-! PROOFS. O6 and O7: the fault queue, the cartridge history, the sheet queue and the feed permit at every step. -/

namespace Sys2Proof.Machine

variable {L : Prop}

/-! ### The fault queue -/

/-- R157: the number tried behind a number. -/
def nextFaultNumber (n : Nat) : Nat := n % 65535 + 1

/-- Every number tried was held, where the number taken is. -/
theorem freshNumber_tried {held : List Nat} {fuel n : Nat} (h : freshNumber held fuel n ∈ held) :
    ∀ i ≤ fuel, nextFaultNumber^[i] n ∈ held := by
  induction fuel generalizing n with
  | zero =>
    intro i hi
    obtain rfl := Nat.le_zero.mp hi
    exact h
  | succ fuel ih =>
    intro i hi
    unfold freshNumber at h
    split at h
    · next first =>
      cases i with
      | zero => exact first
      | succ i => exact ih h i (Nat.le_of_succ_le_succ hi)
    · next first => exact absurd h first

theorem freshNumber_range {held : List Nat} {fuel n : Nat} (low : 1 ≤ n) (high : n ≤ 65535) :
    1 ≤ freshNumber held fuel n ∧ freshNumber held fuel n ≤ 65535 := by
  induction fuel generalizing n with
  | zero => exact ⟨low, high⟩
  | succ fuel ih =>
    unfold freshNumber
    split
    · exact ih (by omega) (by omega)
    · exact ⟨low, high⟩

/-- R157: among four queued records one of five successive numbers is free. -/
theorem freshNumber_free {held : List Nat} {n : Nat} (few : held.length ≤ 4) (_ : 1 ≤ n) (_ : n ≤ 65535) :
    freshNumber held 4 n ∉ held := by
  intro h
  have tried := freshNumber_tried h
  have distinct : ((List.range 5).map fun i => nextFaultNumber^[i] n).Nodup := by
    simp only [show List.range 5 = [0, 1, 2, 3, 4] from rfl, List.map, Function.iterate_succ, Function.iterate_zero,
      Function.comp, id, nextFaultNumber, List.nodup_cons, List.mem_cons, List.not_mem_nil, or_false, not_or, not_false_iff,
      List.nodup_nil, and_true]
    omega
  have sub : ((List.range 5).map fun i => nextFaultNumber^[i] n) ⊆ held := by
    intro x hx
    obtain ⟨i, hi, rfl⟩ := List.mem_map.mp hx
    exact tried i (Nat.le_of_lt_succ (List.mem_range.mp hi))
  have := (List.subperm_of_subset distinct sub).length_le
  simp only [List.length_map, List.length_range] at this
  omega

theorem takeNumber_range {fm : FaultMonitor} (ok : FaultsOk fm) : 1 ≤ takeNumber fm ∧ takeNumber fm ≤ 65535 := by
  obtain ⟨-, -, -, -, -, low, high, -, -, -⟩ := ok
  exact freshNumber_range low high

theorem takeNumber_free {fm : FaultMonitor} (ok : FaultsOk fm) : takeNumber fm ∉ fm.queue.map (·.record.number) := by
  obtain ⟨short, -, -, -, -, low, high, -, -, -⟩ := ok
  exact freshNumber_free (by simpa using short) low high

/-- R158: with fewer than four records a place is free. -/
theorem freePlace_free {queue : List QueuedFault} (h : queue.length < 4) : freePlace queue ∉ queue.map (·.place) := by
  unfold freePlace
  cases found : (List.range 4).find? fun p => !(queue.any (·.place == p)) with
  | some p => simpa using List.find?_some found
  | none =>
    have sub : List.range 4 ⊆ queue.map (·.place) := fun p hp => by
      simpa using List.find?_eq_none.mp found p hp
    have := (List.subperm_of_subset List.nodup_range sub).length_le
    simp only [List.length_range, List.length_map] at this
    omega

/-- What FaultsOk says depends on the queue, the counter, the backlog and the overflow count alone. -/
theorem FaultsOk.congr {fm gm : FaultMonitor} (ok : FaultsOk fm) (queue : gm.queue = fm.queue)
    (low : 1 ≤ gm.nextNumber) (high : gm.nextNumber ≤ 65535) (backlog : gm.backlog = fm.backlog)
    (overflow : gm.overflow = fm.overflow) : FaultsOk gm := by
  obtain ⟨h1, h2, h3, h4, h5, -, -, h8, h9, h10⟩ := ok
  unfold FaultsOk
  rw [queue, backlog, overflow]
  exact ⟨h1, h2, h3, h4, h5, low, high, h8, h9, h10⟩

/-- The counter moves on (R157). -/
theorem faultsOk_numbered {fm gm : FaultMonitor} (ok : FaultsOk fm) (n : Nat) (queue : gm.queue = fm.queue)
    (next : gm.nextNumber = n % 65535 + 1) (backlog : gm.backlog = fm.backlog)
    (overflow : gm.overflow = fm.overflow) : FaultsOk gm :=
  ok.congr queue (by omega) (by omega) backlog overflow

theorem faultsOk_queued {fm : FaultMonitor} (ok : FaultsOk fm) {r : JobRecord} (number : r.number = takeNumber fm)
    (room : fm.queue.length < 4) : FaultsOk { fm with
      nextNumber := takeNumber fm % 65535 + 1
      queue := fm.queue ++ [{ place := freePlace fm.queue, record := r }] } := by
  have range := takeNumber_range ok
  have free := takeNumber_free ok
  have place := freePlace_free room
  obtain ⟨h1, h2, h3, h4, h5, h6, h7, h8, h9, h10⟩ := ok
  refine ⟨by simpa using room, ?_, fun q hq => ?_, ?_, fun q hq => ?_, by simp, ?_, fun full => ?_, h9, h10⟩
  · rw [List.map_append]
    exact h2.append (List.nodup_singleton _) (by simpa using place)
  · rcases List.mem_append.mp hq with hq | hq
    · exact h3 q hq
    · rw [List.mem_singleton.mp hq]
      exact freePlace_lt _
  · rw [List.map_append]
    refine h4.append (List.nodup_singleton _) ?_
    simpa [number] using free
  · rcases List.mem_append.mp hq with hq | hq
    · exact h5 q hq
    · rw [List.mem_singleton.mp hq, number]
      exact range
  · dsimp only
    omega
  · have := h8 full
    omega

/-- R160: a condition over four records only counts. -/
theorem faultsOk_overflow {fm : FaultMonitor} (ok : FaultsOk fm) (full : 4 ≤ fm.queue.length) :
    FaultsOk { fm with overflow := satAdd fm.overflow 1 255, backlog := true } := by
  obtain ⟨h1, h2, h3, h4, h5, h6, h7, -, -, -⟩ := ok
  exact ⟨h1, h2, h3, h4, h5, h6, h7, fun _ => h1.antisymm full, fun h => (Bool.noConfusion h), satAdd_le _ _ _⟩

/-- A record leaves the queue (R160). -/
theorem faultsOk_acknowledged {fm : FaultMonitor} (ok : FaultsOk fm) (number : Nat)
    (h : fm.backlog = true → (fm.queue.filter (·.record.number != number)).length = 4) :
    FaultsOk { fm with queue := fm.queue.filter (·.record.number != number) } := by
  obtain ⟨h1, h2, h3, h4, h5, h6, h7, -, h9, h10⟩ := ok
  have sub : (fm.queue.filter (·.record.number != number)).Sublist fm.queue := List.filter_sublist
  exact ⟨sub.length_le.trans h1, h2.sublist (sub.map _), fun q hq => h3 q (sub.subset hq), h4.sublist (sub.map _),
    fun q hq => h5 q (sub.subset hq), h6, h7, h, h9, h10⟩

/-- R158: a queue with one number filtered out is shorter by at most one record. -/
theorem length_filter_number {fm : FaultMonitor} (ok : FaultsOk fm) (number : Nat) :
    fm.queue.length ≤ (fm.queue.filter (·.record.number != number)).length + 1 := by
  obtain ⟨-, -, -, distinct, -⟩ := ok
  generalize fm.queue = queue at distinct ⊢
  induction queue with
  | nil => simp
  | cons q rest ih =>
    rw [List.map_cons, List.nodup_cons] at distinct
    obtain ⟨other, distinct⟩ := distinct
    rw [List.filter_cons]
    split
    · simpa using ih distinct
    · next same =>
      have same : q.record.number = number := by simpa using same
      rw [List.filter_eq_self.mpr]
      · simp
      · intro x hx
        have differs : x.record.number ≠ number := fun e => other (List.mem_map.mpr ⟨x, hx, e.trans same.symm⟩)
        simpa using differs

theorem releaseSheets_fm (sheets : List Sheet) (s : State) : (releaseSheets sheets s).fm = s.fm := by
  obtain ⟨ps, h, -⟩ := releaseSheets_spec sheets s
  rw [h]

theorem Effect.faultsOk {s t : State} (h : Effect s t) (ok : FaultsOk s.fm) : FaultsOk t.fm := by
  cases h with
  | same h => exact h.fm ▸ ok
  | account id f => exact (updateAccount_fm id f s).symm ▸ ok
  | tally notes => exact faultsOk_numbered ok (takeNumber s.fm) rfl rfl rfl rfl
  | numbered => exact faultsOk_numbered ok (takeNumber s.fm) rfl rfl rfl rfl
  | queued r hr hl => exact faultsOk_queued ok hr hl
  | overflowAgain hl hb => exact faultsOk_overflow ok hl
  | backlog hl => exact faultsOk_overflow ok hl
  | jammed p h => rw [releaseSheets_fm]; exact ok
  | emptied => rw [releaseSheets_fm]; exact ok
  | granted sh a => exact (updateAccount_fm sh.owner (reserve sh.cost) s).symm ▸ ok
  | halted => exact faultsOk_numbered ok (takeNumber s.fm) rfl rfl rfl rfl
  | _ => exact ok

theorem Move.faultsOk {s t : State} (h : Move L s t) (ok : FaultsOk s.fm) : FaultsOk t.fm := by
  cases h with
  | effect h => exact h.faultsOk ok
  | delivered sh rest h => rw [updateAccount_fm]; exact ok
  | acknowledged number held h =>
    refine faultsOk_acknowledged ok number fun backlog => ?_
    have full : s.fm.queue.length = 4 := ok.2.2.2.2.2.2.2.1 backlog
    have one := length_filter_number ok number
    have bound : (s.fm.queue.filter (·.record.number != number)).length ≤ s.fm.queue.length := List.length_filter_le _ _
    have other : (s.fm.queue.filter (·.record.number != number)).length ≠ 3 := fun three => h ⟨backlog, three⟩
    omega
  | reopened number =>
    obtain ⟨h1, h2, h3, h4, h5, h6, h7, -, -, -⟩ := ok
    exact faultsOk_acknowledged (fm := { s.fm with backlog := false, overflow := 0 })
      ⟨h1, h2, h3, h4, h5, h6, h7, fun h => (Bool.noConfusion h), fun _ => rfl, Nat.zero_le _⟩ number
      fun h => (Bool.noConfusion h)
  | _ => exact ok

theorem Restarted.faultsOk {s t : State} (h : Restarted s t) : FaultsOk t.fm := by
  obtain ⟨kept, ps, l, u, powered, -, -, -⟩ := h
  show FaultsOk ({} : FaultMonitor)
  unfold FaultsOk
  decide

theorem Load.faultsOk {s t : State} (h : Load L s t) (ok : FaultsOk s.fm) : FaultsOk t.fm := by
  cases h with
  | move h => exact h.faultsOk ok
  | _ => exact ok

/-! ### The history table -/

theorem dropLastUnheld_sublist (held : List Serial) (entries : List HistoryEntry) :
    (dropLastUnheld held entries).Sublist entries := by
  induction entries with
  | nil => exact List.Sublist.slnil
  | cons e rest ih =>
    unfold dropLastUnheld
    split
    · exact ih.cons_cons e
    · split
      · exact List.Sublist.refl _
      · exact List.sublist_cons_self e rest

/-- An entry whose serial no slot holds leaves, where there is one (R96). -/
theorem length_dropLastUnheld {held : List Serial} {entries : List HistoryEntry}
    (h : ∃ e ∈ entries, e.serial ∉ held) : (dropLastUnheld held entries).length + 1 = entries.length := by
  induction entries with
  | nil => obtain ⟨e, he, -⟩ := h; cases he
  | cons e rest ih =>
    unfold dropLastUnheld
    split
    · next later =>
      have := ih (by simpa using later)
      simp [this]
    · next none =>
      split
      · next first =>
        exfalso
        obtain ⟨x, hx, free⟩ := h
        rcases List.mem_cons.mp hx with rfl | hx
        · exact free (by simpa using first)
        · exact none (List.any_eq_true.mpr ⟨x, hx, by simpa using free⟩)
      · rfl

theorem heldSerials_length (c : Cartridges) : (heldSerials c).length ≤ 4 := List.length_filterMap_le _ _

/-- R96: a full table holds an entry whose serial no slot record holds. -/
theorem exists_unheld {held : List Serial} {entries : List HistoryEntry} (distinct : (entries.map (·.serial)).Nodup)
    (few : held.length < entries.length) : ∃ e ∈ entries, e.serial ∉ held := by
  by_contra all
  have all : ∀ e ∈ entries, e.serial ∈ held := by simpa using all
  have := (List.subperm_of_subset distinct fun x hx => by
    obtain ⟨e, he, rfl⟩ := List.mem_map.mp hx
    exact all e he).length_le
  rw [List.length_map] at this
  omega

/-- R96: an entry is created or updated within the table's bounds. -/
theorem historyOk_put {held : List Serial} {entries : List HistoryEntry} {lifetime : Nat}
    (ok : HistoryContent.Ok { entries := entries, lifetime := lifetime }) (few : held.length ≤ 4) (e : HistoryEntry) :
    HistoryContent.Ok { entries := putHistory held e entries, lifetime := lifetime } := by
  obtain ⟨short, distinct, count⟩ := ok
  dsimp only at short distinct
  unfold putHistory
  split
  · next known =>
    have sub : (entries.filter (·.serial != e.serial)).Sublist entries := List.filter_sublist
    refine ⟨?_, ?_, count⟩
    · obtain ⟨x, hx, same⟩ := List.any_eq_true.mp known
      have fewer : (entries.filter (·.serial != e.serial)).length < entries.length := by
        refine List.length_filter_lt_length_iff_exists.mpr ⟨x, hx, ?_⟩
        simpa using same
      show _ + 1 ≤ 32
      omega
    · rw [List.map_cons, List.nodup_cons]
      exact ⟨by simp, distinct.sublist (sub.map _)⟩
  · next new =>
    have new : e.serial ∉ entries.map (·.serial) := by simpa using new
    split
    · next full =>
      have full : 32 ≤ entries.length := full
      have dropped := length_dropLastUnheld (exists_unheld (held := held) distinct (by omega))
      have sub := dropLastUnheld_sublist held entries
      refine ⟨?_, ?_, count⟩
      · show _ + 1 ≤ 32
        omega
      · rw [List.map_cons, List.nodup_cons]
        exact ⟨fun h => new ((sub.map _).subset h), distinct.sublist (sub.map _)⟩
    · next notFull =>
      have notFull : ¬ 32 ≤ entries.length := notFull
      refine ⟨?_, List.nodup_cons.mpr ⟨new, distinct⟩, count⟩
      show _ + 1 ≤ 32
      omega

theorem historyOk_setHistory {s : State} {entries : List HistoryEntry} {lifetime : Nat} (ok : HistoryOk s)
    (h : HistoryContent.Ok { entries := entries, lifetime := lifetime }) : HistoryOk (setHistory entries lifetime s) := by
  refine ⟨h, fun x hx => ?_⟩
  rw [setHistory_ps, storedHistories_write, List.mem_cons] at hx
  rcases hx with rfl | hx
  · exact h
  · exact ok.2 x hx

/-- Nothing of the history changes, in the part or in the store. -/
theorem HistoryOk.congr {s t : State} (ok : HistoryOk s) (history : t.cbc.history = s.cbc.history)
    (lifetime : t.cbc.lifetime = s.cbc.lifetime) (stored : ∀ h ∈ storedHistories t.ps, h ∈ storedHistories s.ps) : HistoryOk t := by
  unfold HistoryOk
  rw [history, lifetime]
  exact ⟨ok.1, fun h hh => ok.2 h (stored h hh)⟩

theorem historyOk_updateAccount {s : State} (id : Nat) (f : Account → Account) (ok : HistoryOk s) :
    HistoryOk (updateAccount id f s) := by
  refine ok.congr (by rw [updateAccount_cbc]) (by rw [updateAccount_cbc]) fun h hh => ?_
  rw [updateAccount_ps] at hh
  split at hh <;> exact hh

theorem historyOk_releaseSheets {s : State} (sheets : List Sheet) (ok : HistoryOk s) : HistoryOk (releaseSheets sheets s) := by
  obtain ⟨ps, he, -, ⟨-, -, -, -, -, -, same⟩, -⟩ := releaseSheets_spec sheets s
  rw [he]
  exact ok.congr rfl rfl fun h hh => same ▸ hh

theorem Effect.historyOk {s t : State} (h : Effect s t) (ok : HistoryOk s) : HistoryOk t := by
  cases h with
  | same h => exact ok.congr h.history h.lifetime fun x hx => h.ps ▸ hx
  | account id f => exact historyOk_updateAccount id f ok
  | history e => exact historyOk_setHistory ok (historyOk_put ok.1 (heldSerials_length s.cbc) e)
  | lifetime => exact historyOk_setHistory ok ⟨ok.1.1, ok.1.2.1, satAdd_le _ _ _⟩
  | jammed p h => exact historyOk_releaseSheets _ ok
  | emptied => exact historyOk_releaseSheets _ ok
  | granted sh a => exact historyOk_updateAccount sh.owner (reserve sh.cost) ok
  | _ => exact ok

theorem historyOk_nil : HistoryContent.Ok {} := ⟨Nat.zero_le _, List.nodup_nil, Nat.zero_le _⟩

theorem Move.historyOk {s t : State} (h : Move L s t) (ok : HistoryOk s) : HistoryOk t := by
  cases h with
  | effect h => exact h.historyOk ok
  | event clock pending journal h => exact ok.congr rfl rfl fun x hx => storedHistories_standing h hx
  | historyWiped => exact historyOk_setHistory ok historyOk_nil
  | delivered sh rest h => exact historyOk_updateAccount sh.owner _ ok
  | _ => exact ok

theorem Restarted.historyOk {s t : State} (h : Restarted s t) (ok : HistoryOk s) : HistoryOk t := by
  obtain ⟨kept, ps, l, u, powered, -, store, -⟩ := h
  exact ⟨historyOk_nil, fun x hx => ok.2 x (storedHistories_restarted store hx)⟩

theorem Load.historyOk {s t : State} (h : Load L s t) (ok : HistoryOk s) : HistoryOk t := by
  cases h with
  | move h => exact h.historyOk ok
  | store ps tables histories => exact ok.congr rfl rfl histories
  | historyLoaded =>
    refine ⟨?_, ok.2⟩
    rcases contentOf_storedHistory (ps := s.ps) with held | empty
    · exact ok.2 _ held
    · exact Eq.mpr (congrArg HistoryContent.Ok empty) historyOk_nil
  | _ => exact ok

/-- Settles O6: each move, start-up and load keeps the fault queue's bounds, and each keeps the history's. -/
theorem faultsAndHistoryKept : Obligations.FaultsAndHistoryKept := by
  intro s t h
  have run : Run False s t := step_run h fun no => no.elim
  refine ⟨fun ok => ?_, fun ok => ?_⟩
  · refine run.keeps (P := fun u => FaultsOk u.fm) (fun _ _ m => m.faultsOk) (fun _ _ m _ => m.faultsOk) (fun a b m k => ?_)
      (fun u r room k => k) ok
    exact (Loaded.loads (L := False) m).keeps (P := fun u => FaultsOk u.fm) (fun _ _ n => n.faultsOk) k
  · refine run.keeps (P := HistoryOk) (fun _ _ m => m.historyOk) (fun _ _ m => m.historyOk) (fun a b m k => ?_)
      (fun u r room k => k) ok
    exact (Loaded.loads (L := False) m).keeps (P := HistoryOk) (fun _ _ n => n.historyOk) k

end Sys2Proof.Machine

/-! PROOFS. O7: the sheet queue keeps its bound and order, and the feed permit its five conditions. -/

namespace Sys2Proof.Machine

variable {L : Prop}

/-! ### The sheet queue -/

theorem releaseSheets_spm (sheets : List Sheet) (s : State) : (releaseSheets sheets s).spm = s.spm := by
  obtain ⟨ps, h, -⟩ := releaseSheets_spec sheets s
  rw [h]

theorem releaseSheets_startUp (sheets : List Sheet) (s : State) : (releaseSheets sheets s).startUp = s.startUp := by
  obtain ⟨ps, h, -⟩ := releaseSheets_spec sheets s
  rw [h]

/-- The oldest GRANTED sheet becomes ENTERED and nothing else changes (R61). -/
theorem enterOldest_split {now : Nat} {queue sheets : List Sheet} {sh : Sheet} (h : enterOldest now queue = some (sh, sheets)) :
    ∃ front back, queue = front ++ sh :: back ∧ (∀ x ∈ front, x.entered = true) ∧ sh.entered = false
      ∧ sheets = front ++ { sh with entered := true, deadline := now + sh.transit } :: back := by
  induction queue generalizing sheets with
  | nil => cases h
  | cons first rest ih =>
    unfold enterOldest at h
    split at h
    · next gone =>
      cases k : enterOldest now rest with
      | none => rw [k] at h; cases h
      | some r =>
        obtain ⟨x, queue⟩ := r
        rw [k] at h
        obtain ⟨same, rfl⟩ := Prod.mk.inj (Option.some.inj h)
        have same : x = sh := same
        obtain ⟨front, back, rfl, entered, granted, e⟩ := ih (same ▸ k)
        exact ⟨first :: front, back, rfl, List.forall_mem_cons.mpr ⟨gone, entered⟩, granted, congrArg (first :: ·) e⟩
    · next waits =>
      obtain ⟨rfl, rfl⟩ := Prod.mk.inj (Option.some.inj h)
      exact ⟨[], rest, rfl, List.forall_mem_nil _, by simpa using waits, rfl⟩

/-- A queue in order: every ENTERED sheet in front of every GRANTED one. -/
def Ordered (sheets : List Sheet) : Prop := sheets.Pairwise fun a b => b.entered = true → a.entered = true

theorem ordered_enterOldest {now : Nat} {queue sheets : List Sheet} {sh : Sheet} (ok : Ordered queue)
    (h : enterOldest now queue = some (sh, sheets)) : Ordered sheets := by
  obtain ⟨front, back, rfl, entered, granted, rfl⟩ := enterOldest_split h
  unfold Ordered at ok ⊢
  rw [List.pairwise_append, List.pairwise_cons] at ok ⊢
  obtain ⟨one, ⟨-, two⟩, -⟩ := ok
  exact ⟨one, ⟨fun _ _ _ => rfl, two⟩, fun a ha _ _ _ => entered a ha⟩

theorem length_enterOldest {now : Nat} {queue sheets : List Sheet} {sh : Sheet} (h : enterOldest now queue = some (sh, sheets)) :
    sheets.length = queue.length := by
  obtain ⟨front, back, rfl, -, -, rfl⟩ := enterOldest_split h
  simp

theorem ordered_append {sheets : List Sheet} {sh : Sheet} (ok : Ordered sheets) (granted : sh.entered = false) :
    Ordered (sheets ++ [sh]) := by
  unfold Ordered at ok ⊢
  rw [List.pairwise_append]
  refine ⟨ok, List.pairwise_singleton _ _, fun a _ b hb entered => ?_⟩
  rw [List.mem_singleton.mp hb, granted] at entered
  cases entered

theorem sheetsOk_of {s : State} {sheets : List Sheet} (h : s.spm.sheets = sheets) (short : sheets.length ≤ 6)
    (order : Ordered sheets) : SheetsOk s := by
  unfold SheetsOk
  rw [h]
  exact ⟨short, order⟩

theorem sheetsOk_nil {s : State} (h : s.spm.sheets = []) : SheetsOk s := sheetsOk_of h (Nat.zero_le _) List.Pairwise.nil

theorem SheetsOk.congr {s t : State} (ok : SheetsOk s) (h : t.spm.sheets = s.spm.sheets) : SheetsOk t :=
  sheetsOk_of h ok.1 ok.2

theorem Effect.sheetsOk {s t : State} (h : Effect s t) (ok : SheetsOk s) : SheetsOk t := by
  cases h with
  | same h => exact ok.congr h.sheets
  | account id f => exact ok.congr (by rw [updateAccount_spm])
  | path p h => exact ok.congr h
  | jammed p h => exact sheetsOk_nil (by rw [releaseSheets_spm]; exact h)
  | emptied => exact sheetsOk_nil (by rw [releaseSheets_spm])
  | granted sh a he hl hp ha hc =>
    exact sheetsOk_of rfl (by simpa using hl) (ordered_append ok.2 he)
  | _ => exact ok

theorem Move.sheetsOk {s t : State} (h : Move L s t) (ok : SheetsOk s) : SheetsOk t := by
  cases h with
  | effect h => exact h.sheetsOk ok
  | entered now sh sheets h => exact sheetsOk_of rfl ((length_enterOldest h).le.trans ok.1) (ordered_enterOldest ok.2 h)
  | delivered sh rest h =>
    obtain ⟨short, order⟩ := ok
    rw [h] at short order
    exact sheetsOk_of (by rw [updateAccount_spm]) ((Nat.le_succ _).trans short) order.tail
  | _ => exact ok

theorem Restarted.sheetsOk {s t : State} (h : Restarted s t) : SheetsOk t := by
  obtain ⟨kept, ps, l, u, powered, -, -, -⟩ := h
  exact sheetsOk_nil rfl

theorem Load.sheetsOk {s t : State} (h : Load L s t) (ok : SheetsOk s) : SheetsOk t := by
  cases h with
  | move h => exact h.sheetsOk ok
  | _ => exact ok

/-! ### The feed permit -/

/-- R52: a permit evaluated anew meets its conditions. -/
theorem permitOk_evaluatePermit {s : State} (h : s.startUp.isSome = true → s.fm.part = .starting) : PermitOk (evaluatePermit s) := by
  refine ⟨?_, h⟩
  simp only [evaluatePermit, permitConditions, Bool.and_eq_true, Bool.not_eq_true', beq_iff_eq]
  tauto

/-- Nothing the permit depends on changes. -/
theorem PermitOk.congr {s t : State} (ok : PermitOk s) (permit : t.spm.feedPermit = s.spm.feedPermit)
    (jammed : t.spm.jammed = s.spm.jammed) (door : t.spm.doorOpen = s.spm.doorOpen)
    (supply : t.spm.supply.level = s.spm.supply.level) (part : t.fm.part = s.fm.part)
    (backlog : t.fm.backlog = s.fm.backlog) (startUp : t.startUp.isSome = s.startUp.isSome) : PermitOk t := by
  unfold PermitOk
  rw [permit, jammed, door, supply, part, backlog, startUp]
  exact ok

/-- A part in a start-up has no permit, whatever its path. -/
theorem permitOk_startUp {s t : State} (ok : PermitOk s) (up : s.startUp.isSome = true)
    (permit : t.spm.feedPermit = s.spm.feedPermit) (part : t.fm.part = s.fm.part) : PermitOk t := by
  obtain ⟨conditions, starting⟩ := ok
  have starting := starting up
  refine ⟨⟨fun on => ?_, fun on => ?_⟩, fun _ => part.trans starting⟩
  · rw [permit] at on
    have running := (conditions.mp on).2.2.2.1
    rw [starting] at running
    cases running
  · have running := on.2.2.2.1
    rw [part, starting] at running
    cases running

theorem permitOk_updateAccount {s : State} (id : Nat) (f : Account → Account) (ok : PermitOk s) : PermitOk (updateAccount id f s) := by
  refine ok.congr ?_ ?_ ?_ ?_ ?_ ?_ ?_ <;> simp

theorem permitOk_releaseSheets {s : State} (sheets : List Sheet) (ok : PermitOk s) : PermitOk (releaseSheets sheets s) := by
  obtain ⟨ps, he, -⟩ := releaseSheets_spec sheets s
  rw [he]
  exact ok

theorem Effect.permitOk {s t : State} (h : Effect s t) (ok : PermitOk s) : PermitOk t := by
  cases h with
  | same h => exact ok.congr h.permit h.jammed h.doorOpen h.supply (by rw [h.fm]) (by rw [h.fm]) (by rw [h.startUp])
  | account id f => exact permitOk_updateAccount id f ok
  | overflowAgain hl hb => exact ok.congr rfl rfl rfl rfl rfl hb.symm rfl
  | backlog hl => exact permitOk_evaluatePermit ok.2
  | path p h => exact permitOk_evaluatePermit ok.2
  | jammed p h => exact permitOk_releaseSheets _ (permitOk_evaluatePermit ok.2)
  | emptied => exact permitOk_releaseSheets _ ok
  | granted sh a =>
    exact ok.congr rfl rfl rfl rfl (by simp [updateAccount_eq]) (by simp [updateAccount_eq]) (by simp [updateAccount_eq])
  | halted => exact permitOk_evaluatePermit fun h => by cases h
  | _ => exact ok

theorem Move.permitOk {s t : State} (h : Move L s t) (ok : PermitOk s) : PermitOk t := by
  cases h with
  | effect h => exact h.permitOk ok
  | delivered sh rest h => exact permitOk_updateAccount sh.owner _ ok
  | reopened number => exact permitOk_evaluatePermit ok.2
  | _ => exact ok

theorem Restarted.permitOk {s t : State} (h : Restarted s t) : PermitOk t := by
  obtain ⟨kept, ps, l, u, powered, -, -, -⟩ := h
  refine ⟨⟨fun on => ?_, fun on => ?_⟩, fun _ => rfl⟩
  · cases on
  · have running : PartState.starting = .running := on.2.2.2.1
    cases running

theorem Load.permitOk {s t : State} (h : Load L s t) (ok : PermitOk s) : PermitOk t := by
  cases h with
  | move h => exact h.permitOk ok
  | sensed up => exact permitOk_startUp ok up rfl rfl
  | stepped n => exact ok.congr rfl rfl rfl rfl rfl rfl (by rw [toStep_startUp, Option.isSome_map])
  | cleared up => exact permitOk_startUp ok up rfl rfl
  | running => exact permitOk_evaluatePermit fun h => by cases h
  | _ => exact ok

/-- Settles O7: each move, start-up and load keeps the queue in its bounds and order, and the permit to its conditions. -/
theorem sheetPathKept : Obligations.SheetPathKept := by
  intro s t h
  have run : Run False s t := step_run h fun no => no.elim
  refine ⟨fun ok => ?_, fun ok => ?_⟩
  · refine run.keeps (P := SheetsOk) (fun _ _ m => m.sheetsOk) (fun _ _ m _ => m.sheetsOk) (fun a b m k => ?_)
      (fun u r room k => k) ok
    exact (Loaded.loads (L := False) m).keeps (P := SheetsOk) (fun _ _ n => n.sheetsOk) k
  · refine run.keeps (P := PermitOk) (fun _ _ m => m.permitOk) (fun _ _ m _ => m.permitOk) (fun a b m k => ?_)
      (fun u r room k => k) ok
    exact (Loaded.loads (L := False) m).keeps (P := PermitOk) (fun _ _ n => n.permitOk) k

end Sys2Proof.Machine

/-! PROOFS. O5: no account's available credits fall below 0, at every step. -/

namespace Sys2Proof.Machine

/-! ### Books -/

/-- Every record of a table has available credits of 0 or more (R31). -/
def Funded (table : List Account) : Prop := ∀ a ∈ table, 0 ≤ available a

/-- What an account has reserved is the cost of its sheets in the path, and its credits cover that (R31 to R34). -/
def Booked (table : List Account) (sheets : List Sheet) : Prop :=
  ∀ a ∈ table, 0 ≤ available a ∧ a.reserved = reservedFor a.id sheets

/-- Only a sheet that costs nothing lacks an account. -/
def Backed (table : List Account) (sheets : List Sheet) : Prop :=
  ∀ sh ∈ sheets, 0 < sh.cost → ∃ a ∈ table, a.id = sh.owner

/-- A start-up in progress is that of a STARTING part with no sheet in its path. -/
def StartsEmpty (s : State) : Prop := s.startUp.isSome = true → s.fm.part = .starting ∧ s.spm.sheets = []

/-- Section 2.1: with credits of 0 or more no balance is below -1000000. -/
theorem balance_of_available {a : Account} (ok : AccountOk a) (h : 0 ≤ available a) : -1000000 ≤ a.balance := by
  obtain ⟨-, -, -, limit, -⟩ := ok
  unfold available at h
  omega

theorem ledgerOk_iff {s : State} : LedgerOk s ↔ AccountsOk s ∧ Booked s.accounts s.spm.sheets
    ∧ Backed s.accounts s.spm.sheets ∧ (∀ t ∈ storedTables s.ps, Funded t) ∧ StartsEmpty s := by
  refine ⟨fun ⟨accs, books, backed, stored, starts⟩ =>
    ⟨accs, fun a ha => ⟨(books a ha).1, (books a ha).2.2⟩, backed, stored, starts⟩,
    fun ⟨accs, books, backed, stored, starts⟩ => ⟨accs, fun a ha => ?_, backed, stored, starts⟩⟩
  exact ⟨(books a ha).1, balance_of_available (accs.1.2.2 a ha) (books a ha).1, (books a ha).2⟩

theorem reservedFor_nil (id : Nat) : reservedFor id [] = 0 := rfl

theorem reservedFor_cons (id : Nat) (sh : Sheet) (rest : List Sheet) :
    reservedFor id (sh :: rest) = (if sh.owner = id then sh.cost else 0) + reservedFor id rest := by
  unfold reservedFor
  by_cases h : sh.owner = id <;> simp [h]

theorem reservedFor_append (id : Nat) (xs ys : List Sheet) :
    reservedFor id (xs ++ ys) = reservedFor id xs + reservedFor id ys := by
  simp [reservedFor]

/-- With nothing reserved none of the account's sheets costs anything. -/
theorem cost_of_reservedFor {id : Nat} {sheets : List Sheet} (h : reservedFor id sheets = 0) {sh : Sheet} (hs : sh ∈ sheets)
    (owner : sh.owner = id) : sh.cost = 0 := by
  unfold reservedFor at h
  rw [List.sum_eq_zero_iff] at h
  exact h sh.cost (List.mem_map.mpr ⟨sh, List.mem_filter.mpr ⟨hs, by simpa using owner⟩, rfl⟩)

/-- With no account of the ID no sheet of it costs anything. -/
theorem reservedFor_unused {id : Nat} {table : List Account} {sheets : List Sheet} (backed : Backed table sheets)
    (unused : findAccount id table = none) : reservedFor id sheets = 0 := by
  unfold reservedFor
  rw [List.sum_eq_zero_iff]
  intro n hn
  obtain ⟨sh, hs, rfl⟩ := List.mem_map.mp hn
  obtain ⟨mem, owner⟩ := List.mem_filter.mp hs
  by_contra costs
  obtain ⟨a, ha, same⟩ := backed sh mem (Nat.pos_of_ne_zero costs)
  exact findAccount_none.mp unused a ha (same.trans (by simpa using owner))

/-- R29: the record of an ID is the one found. -/
theorem findAccount_of_mem {table : List Account} (ok : TableOk table) {a : Account} (ha : a ∈ table) :
    findAccount a.id table = some a := by
  obtain ⟨-, order, -⟩ := ok
  induction table with
  | nil => cases ha
  | cons b rest ih =>
    rw [List.map_cons, List.pairwise_cons] at order
    obtain ⟨first, order⟩ := order
    rcases List.mem_cons.mp ha with rfl | ha
    · simp [findAccount]
    · have less := first a.id (List.mem_map_of_mem ha)
      have other : ¬ (b.id == a.id) = true := by simp; omega
      exact (List.find?_cons_of_neg (p := fun x : Account => x.id == a.id) other).trans (ih ha order)

theorem mem_changeAccount {id : Nat} {f : Account → Account} {table : List Account} {b : Account} (h : b ∈ changeAccount id f table) :
    ∃ a ∈ table, b = if a.id = id then f a else a := by
  obtain ⟨a, ha, rfl⟩ := List.mem_map.mp h
  exact ⟨a, ha, rfl⟩

theorem Booked.funded {table : List Account} {sheets : List Sheet} (h : Booked table sheets) : Funded table :=
  fun a ha => (h a ha).1

theorem Backed.changeAccount {table : List Account} {sheets : List Sheet} (h : Backed table sheets) (id : Nat)
    {f : Account → Account} (same : ∀ a ∈ table, (f a).id = a.id) : Backed (changeAccount id f table) sheets := by
  intro sh hs costs
  obtain ⟨a, ha, owner⟩ := h sh hs costs
  refine ⟨_, List.mem_map_of_mem ha, ?_⟩
  split
  · exact (same a ha).trans owner
  · exact owner

/-! ### Changes of the account table -/

theorem ledgerOk_setAccounts {s : State} {table : List Account} {sheets : List Sheet} (ok : LedgerOk s) (good : TableOk table)
    (books : Booked table sheets) (backed : Backed table sheets)
    (starts : s.startUp.isSome = true → s.fm.part = .starting ∧ sheets = []) :
    LedgerOk { setAccounts table s with spm := { s.spm with sheets := sheets } } := by
  obtain ⟨accs, -, -, stored, -⟩ := ledgerOk_iff.mp ok
  refine ledgerOk_iff.mpr ⟨accountsOk_setAccounts accs good, books, backed, fun t ht => ?_, starts⟩
  have ht : t ∈ storedTables (setAccounts table s).ps := ht
  rw [setAccounts_ps, storedTables_write, List.mem_cons] at ht
  rcases ht with rfl | ht
  · exact books.funded
  · exact stored t ht

/-- A record changes, and with it the sheets in the path. -/
theorem ledgerOk_updateAccount {s : State} {id : Nat} {f : Account → Account} {sheets : List Sheet} (ok : LedgerOk s)
    (keeps : KeepsAccount f) (books : Booked (changeAccount id f s.accounts) sheets) (backed : Backed (changeAccount id f s.accounts) sheets)
    (starts : s.startUp.isSome = true → s.fm.part = .starting ∧ sheets = []) :
    LedgerOk { updateAccount id f s with spm := { s.spm with sheets := sheets } } := by
  by_cases same : changeAccount id f s.accounts = s.accounts
  · rw [updateAccount_same id f s same]
    rw [same] at books backed
    obtain ⟨accs, -, -, stored, -⟩ := ledgerOk_iff.mp ok
    exact ledgerOk_iff.mpr ⟨accs, books, backed, stored, starts⟩
  · rw [updateAccount_changed id f s same]
    exact ledgerOk_setAccounts ok (tableOk_changeAccount keeps id ok.1.1) books backed starts

/-- R31: a change that keeps what is reserved, and credits of 0 or more, keeps the books. -/
theorem ledgerOk_account {s : State} {id : Nat} {f : Account → Account} (ok : LedgerOk s) (keeps : KeepsAccount f)
    (covered : ∀ a, findAccount id s.accounts = some a → 0 ≤ available a → 0 ≤ available (f a))
    (reserved : ∀ a, (f a).reserved = a.reserved) : LedgerOk (updateAccount id f s) := by
  obtain ⟨accs, books, backed, -, starts⟩ := ledgerOk_iff.mp ok
  have whole := ledgerOk_updateAccount (sheets := s.spm.sheets) ok keeps (fun b hb => ?_)
    (backed.changeAccount id fun a ha => (keeps a (accs.1.2.2 a ha)).2) starts
  · rw [show s.spm = (updateAccount id f s).spm from (updateAccount_spm id f s).symm] at whole
    exact whole
  · obtain ⟨a, ha, rfl⟩ := mem_changeAccount hb
    split
    · next same =>
      rw [(keeps a (accs.1.2.2 a ha)).2, reserved]
      exact ⟨covered a (same ▸ findAccount_of_mem accs.1 ha) (books a ha).1, (books a ha).2⟩
    · exact books a ha

/-- R32: a reservation that the credits cover, with its sheet in the path. -/
theorem ledgerOk_granted {s : State} {sh : Sheet} {a : Account} (ok : LedgerOk s) (running : s.fm.part = .running)
    (found : findAccount sh.owner s.accounts = some a) (covered : (sh.cost : Int) ≤ available a) :
    LedgerOk { updateAccount sh.owner (reserve sh.cost) s with spm := { s.spm with sheets := s.spm.sheets ++ [sh] } } := by
  obtain ⟨accs, books, backed, -, starts⟩ := ledgerOk_iff.mp ok
  refine ledgerOk_updateAccount ok (keeps_reserve sh.cost) (fun b hb => ?_) ?_ fun up => ?_
  · obtain ⟨c, hc, rfl⟩ := mem_changeAccount hb
    obtain ⟨credits, held⟩ := books c hc
    rw [reservedFor_append, reservedFor_cons, reservedFor_nil]
    split
    · next same =>
      have e : c = a := Option.some.inj ((same ▸ findAccount_of_mem accs.1 hc : findAccount sh.owner s.accounts = some c).symm.trans found)
      rw [← e] at covered
      have owner : sh.owner = c.id := same.symm
      simp only [available, reserve, owner, if_true] at covered credits ⊢
      omega
    · next other =>
      rw [if_neg (Ne.symm other)]
      exact ⟨credits, held⟩
  · refine Backed.changeAccount (fun x hx costs => ?_) _ fun _ _ => rfl
    rcases List.mem_append.mp hx with hx | hx
    · exact backed x hx costs
    · rw [List.mem_singleton.mp hx]
      exact ⟨a, findAccount_mem found⟩
  · rw [(starts up).1] at running
    cases running

/-- R33: the charge of the sheet that leaves the path. -/
theorem ledgerOk_delivered {s : State} {sh : Sheet} {rest : List Sheet} (ok : LedgerOk s) (queue : s.spm.sheets = sh :: rest)
    (sides : List Side) (nonGenuine : Bool) :
    LedgerOk (updateAccount sh.owner (charge sh.cost sides nonGenuine) { s with spm := { s.spm with sheets := rest } }) := by
  obtain ⟨accs, books, backed, -, starts⟩ := ledgerOk_iff.mp ok
  have keeps := keeps_charge sh.cost sides nonGenuine
  have whole := ledgerOk_updateAccount (id := sh.owner) (sheets := rest) ok keeps (fun b hb => ?_)
    (Backed.changeAccount (fun x hx => backed x (by rw [queue]; exact List.mem_cons_of_mem _ hx)) _ fun _ _ => rfl)
    fun up => by cases queue.symm.trans (starts up).2
  · rw [updateAccount_eq] at whole ⊢
    exact whole
  · obtain ⟨a, ha, rfl⟩ := mem_changeAccount hb
    obtain ⟨credits, held⟩ := books a ha
    rw [queue, reservedFor_cons] at held
    split
    · next same =>
      have owner : sh.owner = a.id := same.symm
      simp only [available, charge, owner, if_true] at credits held ⊢
      omega
    · next other =>
      rw [if_neg (Ne.symm other)] at held
      exact ⟨credits, held.trans (Nat.zero_add _)⟩

/-! ### Releases -/

/-- R34: what is left reserved after some releases. -/
theorem released_reserved (sheets : List Sheet) (a : Account) :
    (released sheets a).reserved = a.reserved - reservedFor a.id sheets := by
  unfold released
  dsimp only
  generalize a.reserved = r
  induction sheets generalizing r with
  | nil => rfl
  | cons sh rest ih =>
    rw [List.foldl_cons, ih, reservedFor_cons]
    by_cases same : a.id = sh.owner
    · simp only [same, if_true]
      omega
    · simp only [same, if_false, if_neg (Ne.symm same)]
      omega

theorem available_released (sheets : List Sheet) {a : Account} (h : 0 ≤ available a) : 0 ≤ available (released sheets a) := by
  have fewer := released_reserved sheets a
  have balance : (released sheets a).balance = a.balance := rfl
  have overdraft : (released sheets a).overdraft = a.overdraft := rfl
  unfold available at h ⊢
  omega

theorem funded_released {table : List Account} (h : Funded table) (sheets : List Sheet) : Funded (table.map (released sheets)) := by
  intro b hb
  obtain ⟨a, ha, rfl⟩ := List.mem_map.mp hb
  exact available_released sheets (h a ha)

/-- R34: every sheet leaves the path and its reservation is released. -/
theorem ledgerOk_released {s t : State} (ok : LedgerOk s) (accounts : t.accounts = s.accounts) (ps : t.ps = s.ps)
    (sheets : t.spm.sheets = []) (startUp : t.startUp = s.startUp) (part : t.fm.part = s.fm.part) :
    LedgerOk (releaseSheets s.spm.sheets t) := by
  obtain ⟨accs, books, -, stored, starts⟩ := ledgerOk_iff.mp ok
  have accsT : AccountsOk t := by
    unfold AccountsOk
    rw [accounts, ps]
    exact accs
  have accsU := accountsOk_releaseSheets s.spm.sheets accsT
  obtain ⟨qs, he, -, -, tables⟩ := releaseSheets_spec s.spm.sheets t
  rw [he] at accsU ⊢
  rw [accounts] at accsU tables ⊢
  refine ledgerOk_iff.mpr ⟨accsU, fun b hb => ?_, fun sh hs => ?_, fun x hx => ?_, fun up => ?_⟩
  · obtain ⟨a, ha, rfl⟩ := List.mem_map.mp hb
    obtain ⟨credits, held⟩ := books a ha
    refine ⟨available_released _ credits, ?_⟩
    rw [released_reserved, held, Nat.sub_self]
    exact (congrArg (reservedFor _) sheets).symm
  · rw [show ({ t with accounts := s.accounts.map (released s.spm.sheets), ps := qs } : State).spm.sheets = [] from sheets] at hs
    cases hs
  · rcases tables x hx with held | ⟨l, rfl⟩
    · exact stored x (ps ▸ held)
    · exact funded_released books.funded l
  · rw [show ({ t with accounts := s.accounts.map (released s.spm.sheets), ps := qs } : State).startUp = s.startUp from startUp] at up
    exact ⟨part.trans (starts up).1, sheets⟩

/-! ### Events -/

/-- Nothing of the books changes. -/
theorem LedgerOk.congr {s t : State} (ok : LedgerOk s) (accounts : t.accounts = s.accounts)
    (stored : ∀ x ∈ storedTables t.ps, x ∈ storedTables s.ps) (sheets : t.spm.sheets = s.spm.sheets)
    (starts : t.startUp.isSome = true → s.startUp.isSome = true ∧ t.fm.part = s.fm.part) : LedgerOk t := by
  obtain ⟨accs, books, backed, funded, start⟩ := ledgerOk_iff.mp ok
  refine ledgerOk_iff.mpr ⟨⟨by rw [accounts]; exact accs.1, fun x hx => accs.2 x (stored x hx)⟩, by rw [accounts, sheets]; exact books,
    by rw [accounts, sheets]; exact backed, fun x hx => funded x (stored x hx), fun up => ?_⟩
  obtain ⟨was, part⟩ := starts up
  exact ⟨part.trans (start was).1, sheets.trans (start was).2⟩

theorem Effect.ledgerOk {s t : State} (h : Effect s t) (ok : LedgerOk s) : LedgerOk t := by
  cases h with
  | same h => exact ok.congr h.accounts (fun x hx => h.ps ▸ hx) h.sheets fun up => ⟨h.startUp ▸ up, by rw [h.fm]⟩
  | account id f h hb hr => exact ledgerOk_account ok h hb hr
  | path p h => exact ok.congr rfl (fun _ hx => hx) h fun up => ⟨up, rfl⟩
  | jammed p h => exact ledgerOk_released ok rfl rfl h rfl rfl
  | emptied => exact ledgerOk_released ok rfl rfl rfl rfl rfl
  | granted sh a he hl hp ha hc => exact ledgerOk_granted ok hp ha hc
  | halted => exact ok.congr rfl (fun _ hx => hx) rfl fun up => by cases up
  | _ => exact ok

/-- R61: a sheet that enters keeps its owner and its cost. -/
theorem ledgerOk_entered {s : State} {now : Nat} {sh : Sheet} {sheets : List Sheet} (ok : LedgerOk s)
    (h : enterOldest now s.spm.sheets = some (sh, sheets)) : LedgerOk { s with spm := { s.spm with sheets := sheets } } := by
  obtain ⟨accs, books, backed, stored, starts⟩ := ledgerOk_iff.mp ok
  obtain ⟨front, back, queue, -, -, rfl⟩ := enterOldest_split h
  refine ledgerOk_iff.mpr ⟨accs, fun a ha => ⟨(books a ha).1, (books a ha).2.trans ?_⟩, fun x hx costs => ?_, stored, fun up => ?_⟩
  · simp only [queue, reservedFor_append, reservedFor_cons]
  · rcases List.mem_append.mp hx with hx | hx
    · exact backed x (queue ▸ List.mem_append_left _ hx) costs
    · rcases List.mem_cons.mp hx with rfl | hx
      · exact backed sh (queue ▸ List.mem_append_right _ (List.mem_cons_self ..)) costs
      · exact backed x (queue ▸ List.mem_append_right _ (List.mem_cons_of_mem _ hx)) costs
  · have empty := (starts up).2
    rw [queue] at empty
    simp at empty

theorem ledgerOk_created {s : State} {a : Account} (ok : LedgerOk s) (good : AccountOk a) (unused : findAccount a.id s.accounts = none)
    (room : s.accounts.length < 2048) (covered : 0 ≤ available a) (free : a.reserved = 0) :
    LedgerOk (setAccounts (insertAccount a s.accounts) s) := by
  obtain ⟨accs, books, backed, -, starts⟩ := ledgerOk_iff.mp ok
  refine ledgerOk_setAccounts (sheets := s.spm.sheets) ok (tableOk_insertAccount accs.1 good unused room) (fun b hb => ?_)
    (fun sh hs costs => ?_) starts
  · rcases mem_insertAccount.mp hb with rfl | hb
    · exact ⟨covered, free.trans (reservedFor_unused backed unused).symm⟩
    · exact books b hb
  · obtain ⟨c, hc, owner⟩ := backed sh hs costs
    exact ⟨c, mem_insertAccount.mpr (.inr hc), owner⟩

theorem ledgerOk_deleted {s : State} {id : Nat} {a : Account} (ok : LedgerOk s) (found : findAccount id s.accounts = some a)
    (free : a.reserved = 0) : LedgerOk (setAccounts (s.accounts.filter (·.id != id)) s) := by
  obtain ⟨accs, books, backed, -, starts⟩ := ledgerOk_iff.mp ok
  refine ledgerOk_setAccounts (sheets := s.spm.sheets) ok (tableOk_sublist accs.1 List.filter_sublist)
    (fun b hb => books b (List.mem_of_mem_filter hb)) (fun sh hs costs => ?_) starts
  obtain ⟨ha, rfl⟩ := findAccount_mem found
  obtain ⟨c, hc, owner⟩ := backed sh hs costs
  refine ⟨c, List.mem_filter.mpr ⟨hc, ?_⟩, owner⟩
  rw [bne_iff_ne]
  intro same
  have nothing := cost_of_reservedFor ((books a ha).2.symm.trans free) hs (owner.symm.trans same)
  omega

theorem Move.ledgerOk {s t : State} (h : Move True s t) (ok : LedgerOk s) : LedgerOk t := by
  cases h with
  | effect h => exact h.ledgerOk ok
  | event clock pending journal h => exact ok.congr rfl (fun x hx => storedTables_standing h hx) rfl fun up => ⟨up, rfl⟩
  | created a good unused room covered free => exact ledgerOk_created ok good unused room covered free
  | deleted id a found free => exact ledgerOk_deleted ok found free
  | accountsWiped clear =>
    have empty := clear trivial
    refine ledgerOk_setAccounts (sheets := s.spm.sheets) ok tableOk_nil (List.forall_mem_nil _) (fun sh hs => ?_)
      (ledgerOk_iff.mp ok).2.2.2.2
    rw [empty] at hs
    cases hs
  | entered now sh sheets h => exact ledgerOk_entered ok h
  | delivered sh rest h => exact ledgerOk_delivered ok h _ _
  | _ => exact ok

theorem Restarted.ledgerOk {s t : State} (h : Restarted s t) (ok : LedgerOk s) : LedgerOk t := by
  have accs := h.accountsOk ok.1
  obtain ⟨kept, ps, l, u, powered, -, store, -⟩ := h
  exact ledgerOk_iff.mpr ⟨accs, List.forall_mem_nil _, List.forall_mem_nil _,
    fun t ht => (ledgerOk_iff.mp ok).2.2.2.1 t (storedTables_restarted store ht), fun _ => ⟨rfl, rfl⟩⟩

/-- Section 2.6: what a start-up loads has nothing reserved. -/
theorem booked_load {table : List Account} (h : Funded table) (minutes : Nat) : Booked (table.map (loadAccount minutes)) [] := by
  intro b hb
  obtain ⟨a, ha, rfl⟩ := List.mem_map.mp hb
  have credits := h a ha
  refine ⟨?_, rfl⟩
  unfold available loadAccount at *
  dsimp only
  omega

theorem Load.ledgerOk {s t : State} (h : Load True s t) (ok : LedgerOk s) : LedgerOk t := by
  obtain ⟨accs, books, backed, stored, starts⟩ := ledgerOk_iff.mp ok
  have held : Funded (contentOf [] s.ps.accounts) := contentOf_holds (List.forall_mem_nil _) stored
  have good : TableOk (contentOf [] s.ps.accounts) := contentOf_holds tableOk_nil accs.2
  cases h with
  | move h => exact h.ledgerOk ok
  | store ps tables histories => exact ok.congr rfl tables rfl fun up => ⟨up, rfl⟩
  | stepped n => exact ok.congr rfl (fun _ hx => hx) rfl fun up => ⟨by rwa [toStep_startUp, Option.isSome_map] at up, rfl⟩
  | accountsRead up minutes fresh =>
    have empty := (starts up).2
    refine ledgerOk_iff.mpr ⟨⟨good, accs.2⟩, ?_, fun sh hs => ?_, stored, starts⟩
    · show Booked (contentOf [] s.ps.accounts) s.spm.sheets
      rw [empty, ← fresh]
      exact booked_load held minutes
    · have hs : sh ∈ s.spm.sheets := hs
      rw [empty] at hs
      cases hs
  | accountsLoaded up minutes =>
    have empty := (starts up).2
    refine ledgerOk_setAccounts (sheets := s.spm.sheets) ok (tableOk_map (keeps_loadAccount minutes) good)
      (by rw [empty]; exact booked_load held minutes) (fun sh hs => ?_) starts
    rw [empty] at hs
    cases hs
  | running => exact ok.congr rfl (fun _ hx => hx) rfl fun up => by cases up
  | _ => exact ok

/-- Settles O5: each move, with no sheet in the path of one that wipes the accounts, each start-up and each load keeps the
books. -/
theorem ledgerKept : Obligations.LedgerKept := by
  intro s t ok clear h
  refine (step_run (L := True) h fun _ => clear).keeps (P := LedgerOk)
    (fun _ _ m => m.ledgerOk) (fun _ _ m => m.ledgerOk) (fun a b m k => ?_) (fun u r room k => k) ok
  exact (Loaded.loads (L := True) m).keeps (P := LedgerOk) (fun _ _ n => n.ledgerOk) k

end Sys2Proof.Machine

/-! PROOFS. O8: the store holds the working copies from the step of a start-up that loads them on. -/

namespace Sys2Proof.Machine

variable {L : Prop}

/-! ### The stage of a part -/

/-- A part in a start-up, or one that a halt took out of it. -/
def Booting (s : State) : Prop :=
  s.startUp.isSome = true ∧ s.fm.part = .starting ∨ s.startUp = none ∧ s.fm.part = .halted

/-- A change keeps the stage of the part, or halts it. -/
def KeepsStage (s t : State) : Prop :=
  t.startUp = s.startUp ∧ t.fm.part = s.fm.part ∨ t.startUp = none ∧ t.fm.part = .halted

theorem Effect.keepsStage {s t : State} (h : Effect s t) : KeepsStage s t := by
  cases h with
  | same h => exact .inl ⟨h.startUp, by rw [h.fm]⟩
  | account id f => exact .inl ⟨by rw [updateAccount_startUp], by rw [updateAccount_fm]⟩
  | jammed p h => exact .inl ⟨by rw [releaseSheets_startUp]; rfl, by rw [releaseSheets_fm]; rfl⟩
  | emptied => exact .inl ⟨by rw [releaseSheets_startUp], by rw [releaseSheets_fm]⟩
  | granted sh a => exact .inl ⟨updateAccount_startUp _ _ _, congrArg (·.part) (updateAccount_fm sh.owner (reserve sh.cost) s)⟩
  | halted => exact .inr ⟨rfl, rfl⟩
  | _ => exact .inl ⟨rfl, rfl⟩

theorem Move.keepsStage {s t : State} (h : Move L s t) : KeepsStage s t := by
  cases h with
  | effect h => exact h.keepsStage
  | delivered sh rest h => exact .inl ⟨by rw [updateAccount_startUp], by rw [updateAccount_fm]⟩
  | _ => exact .inl ⟨rfl, rfl⟩

theorem KeepsStage.trans {s t u : State} (h : KeepsStage s t) (k : KeepsStage t u) : KeepsStage s u := by
  rcases k with ⟨startUp, part⟩ | halted
  · rcases h with ⟨same, kept⟩ | ⟨none, halted⟩
    · exact .inl ⟨startUp.trans same, part.trans kept⟩
    · exact .inr ⟨startUp.trans none, part.trans halted⟩
  · exact .inr halted

theorem Moves.keepsStage {s t : State} (h : Moves L s t) : KeepsStage s t :=
  h.keeps (P := KeepsStage s) (fun _ _ m k => k.trans m.keepsStage) (.inl ⟨rfl, rfl⟩)

theorem KeepsStage.booting {s t : State} (h : KeepsStage s t) (k : Booting s) : Booting t := by
  rcases h with ⟨startUp, part⟩ | halted
  · exact k.imp (fun ⟨up, starting⟩ => ⟨startUp ▸ up, part.trans starting⟩) fun ⟨off, halted⟩ => ⟨startUp.trans off, part.trans halted⟩
  · exact .inr halted

theorem loadStage_congr {s t : State} (startUp : t.startUp = s.startUp) (part : t.fm.part = s.fm.part) :
    loadStage t = loadStage s := by
  unfold loadStage
  rw [startUp, part]

theorem loadStage_halted {s : State} (startUp : s.startUp = none) (part : s.fm.part = .halted) : loadStage s = 0 := by
  simp [loadStage, startUp, part]

theorem loadStage_some {s : State} {u : StartUp} (h : s.startUp = some u) : loadStage s = u.step := by
  simp [loadStage, h]

theorem KeepsStage.behind {s t : State} (h : KeepsStage s t) {n : Nat} (k : Behind n s) : Behind n t := by
  rcases h with ⟨startUp, part⟩ | ⟨-, halted⟩
  · unfold Behind
    rw [loadStage_congr startUp part, part]
    exact k
  · exact .inl halted

/-! ### Agreement -/

/-- SETTINGS, HALT and KEYS hold their working copies. -/
def FirstAgree (s : State) : Prop :=
  s.ps.settings = written .settings s.settings ∧ HaltStands s ∧ ∃ k, s.ps.loadedKeys = some k ∧ Stands .keys s.ps.keys {} k

/-- ACCOUNTS, DEFECTS and HISTORY would pass their checks. -/
def AllWhole (s : State) : Prop :=
  Whole .accounts s.ps.accounts ∧ Whole .defects s.ps.defects ∧ Whole .history s.ps.history

theorem whole_written {α : Type} (form : α → Content) (content : α) : Whole form (written form content) := .inr ⟨content, rfl⟩

theorem stands_written {α : Type} (form : α → Content) (empty content : α) : Stands form (written form content) empty content :=
  .inl rfl

theorem Agrees.mono {m n : Nat} {s : State} (h : Agrees m s) (le : n ≤ m ∨ 6 ≤ m) : Agrees n s := by
  obtain ⟨first, accounts, defects, history⟩ := h
  exact ⟨fun k => first (by omega), fun k => accounts (by omega), fun k => defects (by omega), fun k => history (by omega)⟩

theorem agrees_first (s : State) : Agrees 1 s :=
  ⟨fun h => by omega, fun h => by omega, fun h => by omega, fun h => by omega⟩

theorem haltStands_congr {s t : State} (h : HaltStands s) (record : t.fm.haltRecord = s.fm.haltRecord) (halt : t.ps.halt = s.ps.halt) :
    HaltStands t := by
  unfold HaltStands
  rw [record, halt]
  exact h

/-- No working copy and no partition changes. -/
theorem Agrees.congr {s t : State} {n : Nat} (h : Agrees n s) (settings : t.settings = s.settings)
    (record : t.fm.haltRecord = s.fm.haltRecord) (accounts : t.accounts = s.accounts) (defects : t.smc.defects = s.smc.defects)
    (history : t.cbc.history = s.cbc.history) (lifetime : t.cbc.lifetime = s.cbc.lifetime) (ps : t.ps = s.ps) : Agrees n t := by
  unfold Agrees HaltStands
  rw [settings, record, accounts, defects, history, lifetime, ps]
  exact h

theorem agrees_updateAccount {s : State} {n : Nat} (id : Nat) (f : Account → Account) (h : Agrees n s) :
    Agrees n (updateAccount id f s) := by
  by_cases same : changeAccount id f s.accounts = s.accounts
  · rw [updateAccount_same id f s same]
    exact h
  · rw [updateAccount_changed id f s same]
    exact ⟨h.1, fun _ => stands_written .accounts [] _, h.2.2⟩

theorem agrees_releaseSheets {s : State} {n : Nat} (sheets : List Sheet) (h : Agrees n s) : Agrees n (releaseSheets sheets s) := by
  obtain ⟨ps, he, table, ⟨defects, settings, history, keys, halt, loaded, -⟩, -⟩ := releaseSheets_spec sheets s
  rw [he]
  obtain ⟨first, accounts, defect, hist⟩ := h
  refine ⟨fun k => ?_, fun k => ?_, fun k => ?_, fun k => ?_⟩
  · obtain ⟨a, b, c⟩ := first k
    exact ⟨settings.trans a, haltStands_congr b rfl halt, by rw [loaded, keys]; exact c⟩
  · rcases table with ⟨same, kept⟩ | new
    · exact (kept.trans rfl : ps.accounts = _) ▸ same.symm ▸ accounts k
    · exact new ▸ stands_written .accounts [] _
  · exact defects ▸ defect k
  · exact history ▸ hist k

theorem Effect.agrees {s t : State} {n : Nat} (h : Effect s t) (k : Agrees n s) : Agrees n t := by
  cases h with
  | same h => exact k.congr h.settings (by rw [h.fm]) h.accounts h.defects h.history h.lifetime h.ps
  | account id f => exact agrees_updateAccount id f k
  | defects d => exact ⟨k.1, k.2.1, fun _ => stands_written .defects {} d, k.2.2.2⟩
  | history e => exact ⟨k.1, k.2.1, k.2.2.1, fun _ => stands_written .history {} _⟩
  | lifetime => exact ⟨k.1, k.2.1, k.2.2.1, fun _ => stands_written .history {} _⟩
  | jammed p h => exact agrees_releaseSheets _ k
  | emptied => exact agrees_releaseSheets _ k
  | granted sh a =>
    exact (agrees_updateAccount sh.owner (reserve sh.cost) k).congr rfl rfl rfl rfl rfl rfl rfl
  | haltRecord r hp => exact ⟨fun m => ⟨(k.1 m).1, rfl, (k.1 m).2.2⟩, k.2⟩
  | _ => exact k

theorem Move.agrees {s t : State} {n : Nat} (h : Move L s t) (k : Agrees n s) : Agrees n t := by
  cases h with
  | effect h => exact h.agrees k
  | settings g => exact ⟨fun m => ⟨rfl, (k.1 m).2⟩, k.2⟩
  | keys x => exact ⟨fun m => ⟨(k.1 m).1, (k.1 m).2.1, x, rfl, stands_written .keys {} x⟩, k.2⟩
  | haltCleared => exact ⟨fun m => ⟨(k.1 m).1, rfl, (k.1 m).2.2⟩, k.2⟩
  | created a => exact ⟨k.1, fun _ => stands_written .accounts [] _, k.2.2⟩
  | deleted id a => exact ⟨k.1, fun _ => stands_written .accounts [] _, k.2.2⟩
  | accountsWiped clear => exact ⟨k.1, fun _ => stands_written .accounts [] _, k.2.2⟩
  | historyWiped => exact ⟨k.1, k.2.1, k.2.2.1, fun _ => stands_written .history {} _⟩
  | delivered sh rest h => exact agrees_updateAccount sh.owner _ k
  | _ => exact k

theorem Moves.agrees {s t : State} {n : Nat} (h : Moves L s t) (k : Agrees n s) : Agrees n t :=
  h.keeps (P := Agrees n) (fun _ _ m => m.agrees) k

/-! ### Partitions that pass their checks -/

theorem allWhole_updateAccount {s : State} (id : Nat) (f : Account → Account) (h : AllWhole s) : AllWhole (updateAccount id f s) := by
  by_cases same : changeAccount id f s.accounts = s.accounts
  · rw [updateAccount_same id f s same]
    exact h
  · rw [updateAccount_changed id f s same]
    exact ⟨whole_written .accounts _, h.2⟩

theorem allWhole_releaseSheets {s : State} (sheets : List Sheet) (h : AllWhole s) : AllWhole (releaseSheets sheets s) := by
  obtain ⟨ps, he, table, ⟨defects, -, history, -⟩, -⟩ := releaseSheets_spec sheets s
  rw [he]
  obtain ⟨accounts, defect, hist⟩ := h
  refine ⟨?_, defects ▸ defect, history ▸ hist⟩
  rcases table with ⟨-, kept⟩ | new
  · exact kept ▸ accounts
  · exact new ▸ whole_written .accounts _

theorem Effect.allWhole {s t : State} (h : Effect s t) (k : AllWhole s) : AllWhole t := by
  cases h with
  | same h =>
    unfold AllWhole
    rw [h.ps]
    exact k
  | account id f => exact allWhole_updateAccount id f k
  | defects d => exact ⟨k.1, whole_written .defects d, k.2.2⟩
  | history e => exact ⟨k.1, k.2.1, whole_written .history _⟩
  | lifetime => exact ⟨k.1, k.2.1, whole_written .history _⟩
  | jammed p h => exact allWhole_releaseSheets _ k
  | emptied => exact allWhole_releaseSheets _ k
  | granted sh a => exact allWhole_updateAccount sh.owner (reserve sh.cost) k
  | _ => exact k

theorem Move.allWhole {s t : State} (h : Move L s t) (k : AllWhole s) : AllWhole t := by
  cases h with
  | effect h => exact h.allWhole k
  | created a => exact ⟨whole_written .accounts _, k.2⟩
  | deleted id a => exact ⟨whole_written .accounts _, k.2⟩
  | accountsWiped clear => exact ⟨whole_written .accounts _, k.2⟩
  | historyWiped => exact ⟨k.1, k.2.1, whole_written .history _⟩
  | delivered sh rest h => exact allWhole_updateAccount sh.owner _ k
  | _ => exact k

theorem Moves.allWhole {s t : State} (h : Moves L s t) (k : AllWhole s) : AllWhole t :=
  h.keeps (P := AllWhole) (fun _ _ m => m.allWhole) k

/-! ### The whole invariant -/

theorem storeOk_halted {s : State} (startUp : s.startUp = none) (part : s.fm.part = .halted) : StoreOk s := by
  have stage := loadStage_halted startUp part
  refine ⟨?_, fun h => ?_, fun h => ?_⟩
  · rw [stage]
    exact (agrees_first s).mono (.inl (Nat.zero_le _))
  · rw [stage] at h
    omega
  · rw [startUp] at h
    cases h

/-- The halt record of a part in its first step stays blank. -/
theorem Move.firstRecord {s t : State} (h : Move L s t) (starting : s.fm.part = .starting) (k : s.fm.haltRecord = none) :
    t.fm.haltRecord = none ∨ t.fm.part = .halted := by
  cases h with
  | effect h =>
    cases h with
    | same h => exact .inl (by rw [h.fm]; exact k)
    | account id f => exact .inl (by rw [updateAccount_fm]; exact k)
    | jammed p h => exact .inl (by rw [releaseSheets_fm]; exact k)
    | emptied => exact .inl (by rw [releaseSheets_fm]; exact k)
    | granted sh a => exact .inl ((congrArg (·.haltRecord) (updateAccount_fm sh.owner (reserve sh.cost) s)).trans k)
    | haltRecord r hp => rw [starting] at hp; cases hp
    | _ => exact .inl k
  | delivered sh rest h => exact .inl (by rw [updateAccount_fm]; exact k)
  | haltCleared => exact .inl rfl
  | _ => exact .inl k

theorem Move.storeOk {s t : State} (h : Move L s t) (ok : StoreOk s) : StoreOk t := by
  rcases h.keepsStage with ⟨startUp, part⟩ | ⟨startUp, part⟩
  · obtain ⟨agree, whole, starts⟩ := ok
    have stage := loadStage_congr startUp part
    unfold StoreOk
    rw [stage]
    refine ⟨h.agrees agree, fun k => h.allWhole (whole k), fun up => ?_⟩
    obtain ⟨starting, first, blank⟩ := starts (startUp ▸ up)
    refine ⟨part.trans starting, first, fun one => ?_⟩
    rcases h.firstRecord starting (blank one) with none | halted
    · exact none
    · rw [part, starting] at halted
      cases halted
  · exact storeOk_halted startUp part

theorem Moves.storeOk {s t : State} (h : Moves L s t) (ok : StoreOk s) : StoreOk t :=
  h.keeps (P := StoreOk) (fun _ _ m => m.storeOk) ok

theorem haltPart_startUp {s : State} (h : Booting s) (cause : HaltCause) : (haltPart cause s).startUp = none := by
  have halted : (haltPart cause s).fm.part = .halted := halted_haltPart cause s
  rcases ((reach_haltPart cause s).moves (L := False)).keepsStage.booting h with ⟨-, starting⟩ | ⟨none, -⟩
  · rw [halted] at starting
    cases starting
  · exact none

theorem storeOk_haltPart {s : State} (h : Booting s) (cause : HaltCause) : StoreOk (haltPart cause s) :=
  storeOk_halted (haltPart_startUp h cause) (halted_haltPart cause s)

theorem toStep_none {s : State} (h : s.startUp = none) (n : Nat) : toStep n s = s := by
  simp [toStep, h]
  rw [← h]

/-- The next step begins with what it wants of the store. -/
theorem storeOk_toStep {s : State} {n : Nat} (h : Booting s) (later : 2 ≤ n) (agree : Agrees n s) (whole : AllWhole s) :
    StoreOk (toStep n s) := by
  rcases h with ⟨up, starting⟩ | ⟨none, halted⟩
  · obtain ⟨u, hu⟩ := Option.isSome_iff_exists.mp up
    have stage : loadStage (toStep n s) = n := loadStage_some (u := { u with step := n }) (by rw [toStep_startUp, hu]; rfl)
    unfold StoreOk
    rw [stage]
    exact ⟨agree, fun _ => whole, fun _ => ⟨starting, by omega, fun one => by omega⟩⟩
  · rw [toStep_none none]
    exact storeOk_halted none halted

/-! ### Step 1 -/

theorem checkPartition_blank {α : Type} {form : α → Content} {damaged : Bool} {p : Partition α}
    (h : checkPartition form damaged p = .blank) : p = .blank := by
  unfold checkPartition at h
  split at h
  · rfl
  · split at h <;> cases h
  · cases h

theorem checkPartition_passed {α : Type} {form : α → Content} {damaged : Bool} {p : Partition α} {content : α}
    (h : checkPartition form damaged p = .passed content) : p = written form content := by
  unfold checkPartition at h
  split at h
  · cases h
  · next held word =>
    split at h
    · cases h
    · next good =>
      cases h
      have same : damaged = false ∧ word = wordOf (form content) := by simpa using good
      rw [same.2]
      rfl
  · cases h

theorem haltStands_checkHalt (damaged : List PartitionId) {s : State} (none : s.fm.haltRecord = none) :
    HaltStands (checkHalt damaged s) := by
  unfold checkHalt
  split
  · next blank =>
    unfold HaltStands
    simp only [noteResult, none]
    exact checkPartition_blank blank
  · next passed => exact checkPartition_passed passed
  · rfl

theorem checkHalt_part (damaged : List PartitionId) (s : State) : (checkHalt damaged s).fm.part = s.fm.part := by
  unfold checkHalt
  split <;> rfl

theorem checkSettings_written (damaged : List PartitionId) (s : State) :
    (checkSettings damaged s).ps.settings = written .settings (checkSettings damaged s).settings := by
  unfold checkSettings
  split
  · rfl
  · next passed => exact checkPartition_passed passed
  · rfl

/-- The check of SETTINGS leaves the part's state and HALT alone. -/
theorem checkSettings_frame (damaged : List PartitionId) (s : State) :
    (checkSettings damaged s).startUp = s.startUp ∧ (checkSettings damaged s).fm.part = s.fm.part
      ∧ (checkSettings damaged s).fm.haltRecord = s.fm.haltRecord ∧ (checkSettings damaged s).ps.halt = s.ps.halt := by
  unfold checkSettings
  split <;> exact ⟨rfl, rfl, rfl, rfl⟩

theorem checkHistory_frame (damaged : List PartitionId) (s : State) :
    (checkHistory damaged s).startUp = s.startUp ∧ (checkHistory damaged s).fm.part = s.fm.part
      ∧ (checkHistory damaged s).fm.haltRecord = s.fm.haltRecord ∧ (checkHistory damaged s).ps.halt = s.ps.halt
      ∧ (checkHistory damaged s).settings = s.settings ∧ (checkHistory damaged s).ps.settings = s.ps.settings := by
  unfold checkHistory
  split <;> exact ⟨rfl, rfl, rfl, rfl, rfl, rfl⟩

theorem checkHistory_whole (damaged : List PartitionId) (s : State) : Whole .history (checkHistory damaged s).ps.history := by
  unfold checkHistory
  split
  · next blank => exact .inl (checkPartition_blank blank)
  · next h passed => exact .inr ⟨h, checkPartition_passed passed⟩
  · exact whole_written .history _

theorem storeOk_checkAccounts {damaged : List PartitionId} {after : State → State} {s : State} (boots : Booting s)
    (h : ∀ f, Whole .accounts s.ps.accounts → StoreOk (after (noteResult f s))) : StoreOk (checkAccounts damaged after s) := by
  unfold checkAccounts
  split
  · next blank => exact h _ (.inl (checkPartition_blank blank))
  · next t passed => exact h _ (.inr ⟨t, checkPartition_passed passed⟩)
  · exact storeOk_haltPart boots _

theorem storeOk_checkDefects {damaged : List PartitionId} {after : State → State} {s : State} (boots : Booting s)
    (h : ∀ f, Whole .defects s.ps.defects → StoreOk (after (noteResult f s))) : StoreOk (checkDefects damaged after s) := by
  unfold checkDefects
  split
  · next blank => exact h _ (.inl (checkPartition_blank blank))
  · next t passed => exact h _ (.inr ⟨t, checkPartition_passed passed⟩)
  · exact storeOk_haltPart boots _

theorem storeOk_checkKeys {damaged : List PartitionId} {after : State → State} {s : State} (boots : Booting s)
    (h : ∀ f k, Stands .keys s.ps.keys {} k → StoreOk (after (noteResult f { s with ps := { s.ps with loadedKeys := some k } }))) :
    StoreOk (checkKeys damaged after s) := by
  unfold checkKeys
  split
  · next blank => exact h _ {} (.inr ⟨checkPartition_blank blank, rfl⟩)
  · next k passed => exact h _ k (.inl (checkPartition_passed passed))
  · exact storeOk_haltPart boots _

/-- R173: where no partition halts the part, step 1 loads three and finds the others whole. -/
theorem storeOk_checkStore (damaged : List PartitionId) {s : State} (boots : Booting s) (none : s.fm.haltRecord = none) :
    StoreOk (checkStore damaged s) := by
  unfold checkStore
  have halt := haltStands_checkHalt damaged none
  have startUp := (loads_checkHalt (L := False) damaged s).2
  have part := checkHalt_part damaged s
  generalize checkHalt damaged s = a at halt startUp part ⊢
  have settings := checkSettings_written damaged a
  obtain ⟨startUpB, partB, recordB, haltB⟩ := checkSettings_frame damaged a
  generalize checkSettings damaged a = b at settings startUpB partB recordB haltB ⊢
  have history := checkHistory_whole damaged b
  obtain ⟨startUpC, partC, recordC, haltC, settingsC, storedC⟩ := checkHistory_frame damaged b
  generalize checkHistory damaged b = c at history startUpC partC recordC haltC settingsC storedC ⊢
  have bootsC : Booting c := by
    unfold Booting
    rw [startUpC, startUpB, startUp, partC, partB, part]
    exact boots
  have haltStands : HaltStands c := haltStands_congr (haltStands_congr halt recordB haltB) recordC haltC
  have settingsStand : c.ps.settings = written .settings c.settings := by rw [storedC, settingsC, settings]
  refine storeOk_checkAccounts bootsC fun f accounts => storeOk_checkKeys bootsC fun g k keys =>
    storeOk_checkDefects bootsC fun e defects => storeOk_toStep bootsC le_rfl ?_ ⟨accounts, defects, history⟩
  exact ⟨fun _ => ⟨settingsStand, haltStands, k, rfl, keys⟩, fun h => by omega, fun h => by omega, fun h => by omega⟩

theorem wipeDefects_whole (damaged : Bool) (ps : Store) : Whole .defects (wipeDefects damaged ps).2.defects := by
  unfold wipeDefects
  split
  · exact whole_written .defects _
  · next blank => exact .inl (checkPartition_blank blank)
  · exact .inl rfl

theorem wipeDefects_frame (damaged : Bool) (ps : Store) : (wipeDefects damaged ps).2.settings = ps.settings
    ∧ (wipeDefects damaged ps).2.halt = ps.halt ∧ (wipeDefects damaged ps).2.keys = ps.keys
    ∧ (wipeDefects damaged ps).2.accounts = ps.accounts ∧ (wipeDefects damaged ps).2.history = ps.history := by
  unfold wipeDefects
  split <;> exact ⟨rfl, rfl, rfl, rfl, rfl⟩

theorem wipeHalt_frame (s : State) : (wipeHalt s).startUp = s.startUp ∧ (wipeHalt s).fm.part = s.fm.part
    ∧ (wipeHalt s).fm.haltRecord = none ∧ (wipeHalt s).ps.halt = .blank := by
  simp only [wipeHalt]
  split <;> exact ⟨rfl, rfl, rfl, rfl⟩

/-- R184: the store a wipe restart writes stands. -/
theorem storeOk_wipeStore (damaged : List PartitionId) {s : State} (boots : Booting s) : StoreOk (wipeStore damaged s) := by
  simp only [wipeStore]
  obtain ⟨startUp, part, record, halt⟩ := wipeHalt_frame s
  generalize wipeHalt s = t at startUp part record halt ⊢
  have bootsT : Booting t := by
    unfold Booting
    rw [startUp, part]
    exact boots
  generalize hp : writeKeys .blank (writeAccounts .blank (writeHistory .blank
    (writeSettings (written .settings {}) (writeSettings .blank t.ps)))) = ps
  have whole := wipeDefects_whole (damaged.contains .defects) ps
  obtain ⟨settings, kept, keys, accounts, history⟩ := wipeDefects_frame (damaged.contains .defects) ps
  generalize wipeDefects (damaged.contains .defects) ps = wiped at whole settings kept keys accounts history ⊢
  subst hp
  refine storeOk_toStep bootsT le_rfl ⟨fun _ => ⟨settings, ?_, {}, rfl, .inr ⟨keys, rfl⟩⟩, fun h => by omega, fun h => by omega,
    fun h => by omega⟩ ⟨.inl accounts, whole, .inl history⟩
  unfold HaltStands
  rw [show ∀ u : State, (takeInitialLevels u).fm = u.fm from fun _ => rfl]
  simp only [record]
  exact kept.trans halt

/-! ### Steps 2 to 7 -/

theorem agrees_three {s : State} (h : Agrees 2 s) : Agrees 3 s :=
  ⟨fun _ => h.1 le_rfl, fun h => by omega, fun h => by omega, fun h => by omega⟩

/-- What the tests of step 2 do is a chain of moves, up to the step's end. -/
theorem moves_runTests (cipherOk : Bool) (s : State) :
    Moves L s (runTests cipherOk s) ∨ ∃ t, Moves L s t ∧ runTests cipherOk s = toStep 3 t := by
  unfold runTests
  split
  · exact .inl (reach_haltPart _ s).moves
  · have tested := reach_testSource s
    split
    · next h =>
      rw [h] at tested
      exact .inl ((reach_haltPart _ _).via tested).moves
    · next u h =>
      rw [h] at tested
      refine .inr ⟨_, ((reach_withCipher u { u.bc with serving := true }).via tested).moves.trans ?_, rfl⟩
      unfold drawDeviceKey
      split
      · exact Moves.rfl' _
      · have drawn := reach_draw32 { u with bc := { u.bc with serving := true } }
        split
        · next h =>
          rw [h] at drawn
          exact ((reach_haltPart _ _).via drawn).moves
        · next h =>
          rw [h] at drawn
          exact drawn.moves.trans (Move.keys _ _).moves

theorem stands_contentOf {α : Type} {form : α → Content} {p : Partition α} {empty : α} (h : Whole form p) :
    Stands form p empty (contentOf empty p) := by
  rcases h with rfl | ⟨content, rfl⟩
  · exact .inr ⟨rfl, rfl⟩
  · exact .inl rfl

/-- A step of a start-up ends with the store as the next one wants it, and breaks nothing of the agreement there was. -/
def StepKept (n : Nat) (t : State) : Prop := StoreOk t ∧ Agrees n t

theorem stepKept_loadAccounts {s : State} (boots : Booting s) (agree : Agrees 3 s) (whole : AllWhole s) :
    StepKept 3 (loadAccounts s) := by
  simp only [loadAccounts]
  have loaded : ∀ t : State, t = (if (contentOf [] s.ps.accounts).map (loadAccount s.settings.limits.lockoutTime) = contentOf [] s.ps.accounts
      then { s with accounts := contentOf [] s.ps.accounts }
      else setAccounts ((contentOf [] s.ps.accounts).map (loadAccount s.settings.limits.lockoutTime)) s) →
      Booting t ∧ Agrees 4 t ∧ AllWhole t := by
    rintro t rfl
    have first : FirstAgree s := agree.1 (by omega)
    split
    · exact ⟨boots, ⟨fun _ => first, fun _ => stands_contentOf whole.1, fun h => by omega, fun h => by omega⟩, whole⟩
    · exact ⟨boots, ⟨fun _ => first, fun _ => stands_written .accounts [] _, fun h => by omega, fun h => by omega⟩,
        whole_written .accounts _, whole.2⟩
  obtain ⟨b, a, w⟩ := loaded _ rfl
  exact ⟨storeOk_toStep b (by omega) a w, (a.mono (.inl (by omega)) : Agrees 3 _)⟩

theorem stepKept_buildSpool {s : State} (boots : Booting s) (agree : Agrees 4 s) (whole : AllWhole s) :
    StepKept 4 (buildSpool s) := by
  simp only [buildSpool]
  have built : Agrees 5 { s with
      smc := { s.smc with defects := contentOf {} s.ps.defects, free := (contentOf {} s.ps.defects).clean, sweepCount :=
        (sweepFrom Config.logicalBlocks 0 (contentOf {} s.ps.defects).clean (contentOf {} s.ps.defects).retired).length }
      se := { s.se with list := (sweepFrom Config.logicalBlocks 0 (contentOf {} s.ps.defects).clean
        (contentOf {} s.ps.defects).retired).map fun b => { block := b, origin := .sweep } } } :=
    ⟨fun _ => agree.1 (by omega), fun _ => agree.2.1 le_rfl, fun _ => stands_contentOf whole.2.1, fun h => by omega⟩
  exact ⟨storeOk_toStep boots (by omega) built whole, (built.mono (.inl (by omega)) : Agrees 4 _)⟩

theorem StepKept.moves {n : Nat} {s t : State} (h : StepKept n s) (k : Moves L s t) : StepKept n t :=
  ⟨k.storeOk h.1, k.agrees h.2⟩

theorem stepKept_loadCartridges {s : State} (boots : Booting s) (agree : Agrees 5 s) (whole : AllWhole s) :
    StepKept 5 (loadCartridges s) := by
  simp only [loadCartridges]
  have read : Agrees 6 { s with cbc := { s.cbc with
      history := (contentOf {} s.ps.history).entries, lifetime := (contentOf {} s.ps.history).lifetime } } :=
    ⟨fun _ => agree.1 (by omega), fun _ => agree.2.1 (by omega), fun _ => agree.2.2.1 le_rfl, fun _ => stands_contentOf whole.2.2⟩
  have queued := (reach_queueAll { s with cbc := { s.cbc with
      history := (contentOf {} s.ps.history).entries, lifetime := (contentOf {} s.ps.history).lifetime } }).moves (L := False)
  have agreeQ := queued.agrees read
  have bootsQ := queued.keepsStage.booting boots
  have wholeQ := queued.allWhole whole
  generalize queueAll _ = q at agreeQ bootsQ wholeQ ⊢
  have begun : StepKept 5 (toStep 6 q) := ⟨storeOk_toStep bootsQ (by omega) agreeQ wholeQ, agreeQ.mono (.inl (by omega))⟩
  exact begun.moves (L := False) (reach_settle _).moves

theorem stepKept_enterRunning {s : State} {n : Nat} (late : 6 ≤ n) (agree : Agrees n s) (whole : AllWhole s) :
    StepKept n (enterRunning s) := by
  have entered : StoreOk (evaluatePermit { s with startUp := none, fm := { s.fm with part := .running } }) :=
    ⟨(agree.mono (.inr late) : Agrees 8 _), fun _ => whole, fun up => by cases up⟩
  have after : Moves False (evaluatePermit { s with startUp := none, fm := { s.fm with part := .running } }) (enterRunning s) := by
    simp only [enterRunning]
    refine Moves.via ((reach_settle _).via <| (reach_reportStartUp _ _ _).via (reach_askPart _)).moves ?_
    split
    · exact (reach_raiseNote _ _).moves
    · exact Moves.rfl' _
  exact ⟨after.storeOk entered, after.agrees (agree : Agrees n _)⟩

/-- R182: each step of a start-up keeps the agreement of the store. -/
theorem stepKept_endStep {s : State} {u : StartUp} (hu : s.startUp = some u) (ok : StoreOk s) (finding : StepFinding) :
    StepKept u.step (endStep u finding s) := by
  have stage := loadStage_some hu
  unfold StoreOk at ok
  rw [stage] at ok
  obtain ⟨agree, whole, starts⟩ := ok
  obtain ⟨starting, first, record⟩ := starts (by rw [hu]; rfl)
  have boots : Booting s := .inl ⟨by rw [hu]; rfl, starting⟩
  unfold endStep
  split
  · next one =>
    rw [one]
    refine ⟨?_, agrees_first _⟩
    split
    · exact storeOk_wipeStore _ boots
    · exact storeOk_checkStore _ boots (record one)
  · next two =>
    rw [two] at agree ⊢
    have whole := whole (by omega)
    have ok : StoreOk s := ⟨by rw [stage, two]; exact agree, fun _ => whole, fun _ => ⟨starting, by omega, fun h => by omega⟩⟩
    rcases moves_runTests (L := False) finding.cipherOk s with moved | ⟨t, moved, same⟩
    · exact ⟨moved.storeOk ok, moved.agrees agree⟩
    · rw [same]
      have kept := moved.agrees agree
      exact ⟨storeOk_toStep (moved.keepsStage.booting boots) (by omega) (agrees_three kept) (moved.allWhole whole), kept⟩
  · next three =>
    rw [three] at agree ⊢
    exact stepKept_loadAccounts boots agree (whole (by omega))
  · next four =>
    rw [four] at agree ⊢
    exact stepKept_buildSpool boots agree (whole (by omega))
  · next five =>
    rw [five] at agree ⊢
    exact stepKept_loadCartridges boots agree (whole (by omega))
  · next six =>
    rw [six] at agree ⊢
    exact ⟨storeOk_toStep boots (by omega) (agree.mono (.inr le_rfl) : Agrees 7 _) (whole (by omega)), agree⟩
  · next no1 no2 no3 no4 no5 no6 =>
    have late : 6 ≤ u.step := by
      by_contra early
      rcases (by omega : u.step = 1 ∨ u.step = 2 ∨ u.step = 3 ∨ u.step = 4 ∨ u.step = 5) with h | h | h | h | h
      · exact no1 h
      · exact no2 h
      · exact no3 h
      · exact no4 h
      · exact no5 h
    exact stepKept_enterRunning late agree (whole (by omega))

/-! ### Events -/

theorem Restarted.loadStage_le {s t : State} (h : Restarted s t) : loadStage t ≤ 1 ∧ t.fm.part = .starting := by
  obtain ⟨kept, ps, l, u, powered, -, -, first⟩ := h
  refine ⟨?_, rfl⟩
  cases u with
  | none => exact Nat.zero_le _
  | some x => exact (first x rfl).le

theorem Restarted.storeOk {s t : State} (h : Restarted s t) : StoreOk t := by
  obtain ⟨low, starting⟩ := h.loadStage_le
  refine ⟨(agrees_first t).mono (.inl low), fun two => by omega, fun up => ⟨starting, ?_, fun _ => ?_⟩⟩
  · obtain ⟨kept, ps, l, u, powered, -, -, first⟩ := h
    cases u with
    | none => cases up
    | some x => exact (first x rfl).ge
  · obtain ⟨kept, ps, l, u, powered, -, -, first⟩ := h
    rfl

/-- What an event keeps of the agreement there was before it. -/
def KeepsAgreement (s t : State) : Prop := StoreOk t ∧ ∀ n, Behind n s → Agrees n s → Behind n t → Agrees n t

theorem Moves.keepsAgreement {s t : State} (h : Moves L s t) (ok : StoreOk s) : KeepsAgreement s t :=
  ⟨h.storeOk ok, fun _ _ k _ => h.agrees k⟩

theorem Restarted.keepsAgreement {s t : State} (h : Restarted s t) : KeepsAgreement s t := by
  obtain ⟨low, starting⟩ := h.loadStage_le
  refine ⟨h.storeOk, fun n _ _ behind => (agrees_first t).mono (.inl ?_)⟩
  rcases behind with halted | le
  · rw [starting] at halted
    cases halted
  · exact le.trans low

theorem Loaded.keepsAgreement {s t : State} (h : Loaded s t) (ok : StoreOk s) : KeepsAgreement s t := by
  obtain ⟨u, finding, hu⟩ := h
  obtain ⟨stored, agrees⟩ := stepKept_endStep hu ok finding
  refine ⟨stored, fun n behind _ _ => agrees.mono (.inl ?_)⟩
  have starting := (ok.2.2 (by rw [hu]; rfl)).1
  rcases behind with halted | le
  · rw [starting] at halted
    cases halted
  · exact (loadStage_some hu) ▸ le

/-- Settles O8: moves write a working copy and its partition alike; a start-up begins in step 1; each step loads what its
partition holds. -/
theorem storeKept : Obligations.StoreKept := by
  intro s t ok h
  obtain ⟨a, b, moved, middle, last⟩ := step_run (L := False) h fun no => no.elim
  obtain ⟨okA, keptA⟩ := moved.keepsAgreement ok
  have through : KeepsAgreement a b := by
    rcases middle with rfl | restarted | loaded
    · exact ⟨okA, fun _ _ k _ => k⟩
    · exact restarted.keepsAgreement
    · exact loaded.keepsAgreement okA
  obtain ⟨okB, keptB⟩ := through
  have whole : KeepsAgreement s b :=
    ⟨okB, fun n behind agree later => keptB n (moved.keepsStage.behind behind)
      (keptA n behind agree (moved.keepsStage.behind behind)) later⟩
  rcases last with rfl | ⟨r, -, rfl⟩
  · exact whole
  · exact whole

end Sys2Proof.Machine

/-! PROOFS. O12: each logical block stays in exactly one collection at every step. -/

namespace Sys2Proof.Machine

open Host (Outcome)

/-! ### Requests -/

/-- Every owner of a request keeps the blocks' invariant. -/
theorem Owner.keepsBlocks {k : RequestKind} {tag : Byte} {o : State → Answer} (h : Owner k tag o) : KeepsOwner o := by
  cases h with
  | acctCreate => exact keepsOwner_acctCreate _ _ _ _
  | acctDelete => exact keepsOwner_acctDelete _
  | acctCredit => exact keepsOwner_acctCredit _ _
  | acctSet => exact keepsOwner_acctSet _ _ _ _ _
  | acctRead => exact keepsOwner_acctRead _
  | acctList => exact .same fun _ => rfl
  | acctUnlock => exact keepsOwner_acctUnlock _
  | countersClear => exact keepsOwner_countersClear _
  | jobOpen => exact keepsOwner_jobOpen _ _ _ _ _ _
  | jobRelease => exact keepsOwner_jobRelease _ _
  | jobCancel => exact keepsOwner_jobCancel _
  | jobPause => exact keepsOwner_jobPause _
  | jobResume => exact keepsOwner_jobResume _
  | jobSkipPage => exact keepsOwner_jobSkipPage _ _
  | jobRead => exact keepsOwner_jobRead _ _
  | senseSet => exact keepsOwner_senseSet _ _ _ _ _
  | doorOpen => exact keepsOwner_doorOpen
  | doorClosed => exact keepsOwner_doorClosed
  | jamClear => exact keepsOwner_jamClear
  | pathRead => exact .same fun _ => rfl
  | priceSet => exact keepsOwner_priceSet _
  | meterSet => exact keepsOwner_meterSet _
  | mediaSet => exact keepsOwner_mediaSet _ _ _
  | cartRead => exact keepsOwner_cartRead _ _
  | cartReauth => exact keepsOwner_cartReauth _
  | policySet => exact keepsOwner_policySet _
  | familyKeyLoad => exact keepsOwner_familyKeyLoad _ _
  | spoolRead =>
    refine .same fun s => ?_
    unfold Machine.spoolRead
    split <;> rfl
  | blockRetire => exact keepsOwner_blockRetire _
  | sanitize => exact keepsOwner_sanitize _
  | faultRead => exact .same fun _ => rfl
  | faultAck => exact keepsOwner_faultAck _
  | haltRecordAck => exact keepsOwner_haltRecordAck
  | sense => exact keepsOwner_sense _
  | storeLock => exact keepsOwner_storeLock _
  | storeWipe => exact keepsOwner_storeWipe _
  | storeRead => exact .same fun _ => rfl
  | limitsSet => exact keepsOwner_limitsSet _
  | status => exact .same fun _ => rfl
  | restartNormal => exact keepsOwner_restartWith _ _
  | restartWipe => exact keepsOwner_restartWipe _
  | doorWrong => exact keepsOwner_refuse _
  | selectorWrong => exact keepsOwner_refuse _
  | modeWrong => exact keepsOwner_refuse _

/-! ### Completions -/

/-- A guarded event keeps what it keeps where it happens. -/
theorem Keeps.guarded {c : Prop} [Decidable c] {s t : State} (h : Keeps s t) : Keeps s (if c then t else s) :=
  h.branch (Keeps.rfl' s)

theorem Keeps.settled {s t : State} (h : Keeps s t) : Keeps s (settle t) := h.trans (keeps_settle t)

theorem keeps_readComplete {r : BandRead} {s t : State} (h : execReadComplete r s = .next t) : Keeps s t := by
  unfold execReadComplete at h
  split at h
  · split at h
    · exact Outcome.next.inj h ▸ Keeps.rfl' s
    · obtain rfl := Outcome.next.inj h
      exact (((keeps_endPortFlight s).trans (keeps_judgeRead _ _ _ _ _ _)).trans (keeps_handResult _ _ _)).settled
  · exact Outcome.next.inj h ▸ Keeps.rfl' s

theorem keeps_exportBandSent {s t : State} (h : execExportBandSent s = .next t) : Keeps s t := by
  unfold execExportBandSent at h
  split at h
  · next active => exact Outcome.next.inj h ▸ (keeps_bandSent _ active).settled.guarded
  · exact Outcome.next.inj h ▸ Keeps.rfl' s

theorem keeps_programComplete {ok : Bool} {s t : State} (h : execProgramComplete ok s = .next t) : Keeps s t := by
  unfold execProgramComplete at h
  split at h
  · next flight =>
    split at h
    · obtain rfl := Outcome.next.inj h
      refine Keeps.settled fun good => ok_endProgram good ?_ _ _
      simp [core, flight, flownOf]
    · exact Outcome.next.inj h ▸ Keeps.rfl' s
  · exact Outcome.next.inj h ▸ Keeps.rfl' s

/-- The block in work when its operation ends (R142). -/
theorem inWork_ended {s : State} {w : BlockInWork} (good : CoreOk (core s)) (work : s.se.work = some w) :
    InWork (endPortFlight s) w :=
  ⟨keeps_endPortFlight s good, rfl, good.work w.block (by simp [core, work])⟩

theorem keeps_eraseComplete {ok : Bool} {s t : State} (h : execEraseComplete ok s = .next t) : Keeps s t := by
  unfold execEraseComplete at h
  split at h
  · split at h
    · exact Outcome.next.inj h ▸ Keeps.rfl' s
    · split at h
      · next work => exact Outcome.next.inj h ▸ Keeps.settled fun good => ok_endErase (inWork_ended good work) _
      · exact Outcome.next.inj h ▸ (keeps_endPortFlight s).settled
  · exact Outcome.next.inj h ▸ Keeps.rfl' s

theorem keeps_verifyComplete {r : VerifyRead} {s t : State} (h : execVerifyComplete r s = .next t) : Keeps s t := by
  unfold execVerifyComplete at h
  split at h
  · split at h
    · exact Outcome.next.inj h ▸ Keeps.rfl' s
    · split at h
      · next work => exact Outcome.next.inj h ▸ Keeps.settled fun good => ok_endVerify (inWork_ended good work) _
      · exact Outcome.next.inj h ▸ (keeps_endPortFlight s).settled
  · exact Outcome.next.inj h ▸ Keeps.rfl' s

theorem keeps_probeComplete {acknowledged : Bool} {s t : State} (h : execProbeComplete acknowledged s = .next t) : Keeps s t := by
  unfold execProbeComplete at h
  split at h
  · split at h
    · exact Outcome.next.inj h ▸ Keeps.rfl' s
    · split at h
      · exact Outcome.next.inj h ▸ Keeps.of_core rfl
      · exact Outcome.next.inj h ▸ (Keeps.of_core (core_endEmpty _ s)).settled
  · exact Outcome.next.inj h ▸ Keeps.rfl' s

theorem keeps_readRecordComplete {record : List Byte} {s t : State} (h : execReadRecordComplete record s = .next t) : Keeps s t := by
  unfold execReadRecordComplete at h
  split at h
  · split at h
    · exact Outcome.next.inj h ▸ Keeps.rfl' s
    · split at h
      · cases h
      · exact Outcome.next.inj h ▸ (keeps_takeRecord _ _ s).settled
  · exact Outcome.next.inj h ▸ Keeps.rfl' s

theorem keeps_challengeComplete {reply : Digest} {s t : State} (h : execChallengeComplete reply s = .next t) : Keeps s t := by
  unfold execChallengeComplete at h
  split at h
  · split at h
    · exact Outcome.next.inj h ▸ Keeps.rfl' s
    · split at h
      · exact Outcome.next.inj h ▸ ((keeps_completeAuth _ _ _).via (Keeps.of_core (core_endFlight s))).settled
      · exact Outcome.next.inj h ▸ (Keeps.of_core (by rw [core_rejectRead, core_endFlight])).settled
  · exact Outcome.next.inj h ▸ Keeps.rfl' s

theorem keeps_decrementComplete {level : BitVec 32} {reply : Digest} {s t : State} (h : execDecrementComplete level reply s = .next t) :
    Keeps s t := by
  unfold execDecrementComplete at h
  split at h
  · split at h
    · exact Outcome.next.inj h ▸ Keeps.rfl' s
    · exact Outcome.next.inj h ▸ (keeps_takeDecrement _ _ _ _ s).settled
  · exact Outcome.next.inj h ▸ Keeps.rfl' s

theorem keeps_resyncComplete {s t : State} (h : execResyncComplete s = .next t) : Keeps s t := by
  unfold execResyncComplete at h
  split at h
  · split at h
    · exact Outcome.next.inj h ▸ (Keeps.of_core (core_endFlight s)).settled
    · exact Outcome.next.inj h ▸ Keeps.rfl' s
  · exact Outcome.next.inj h ▸ Keeps.rfl' s

theorem keeps_rawLevelChange {ch : Channel} {input : Nat} {s t : State} (h : execRawLevelChange ch input s = .next t) : Keeps s t := by
  simp only [execRawLevelChange] at h
  split at h
  · exact Outcome.next.inj h ▸ (Keeps.of_core (core_putChannel _ _ s)).trans (keeps_followRaw _ _)
  · exact Outcome.next.inj h ▸ Keeps.of_core (core_putChannel _ _ s)

theorem keeps_transferEnd {bytes : List Byte} {s t : State} (h : execTransferEnd bytes s = .next t) : Keeps s t := by
  unfold execTransferEnd at h
  split at h
  · split at h
    · obtain rfl := Outcome.next.inj h
      split
      · exact Keeps.of_core rfl
      · exact (keeps_takeBytes bytes _).via (Keeps.of_core rfl)
    · exact Outcome.next.inj h ▸ Keeps.rfl' s
  · exact Outcome.next.inj h ▸ Keeps.rfl' s

theorem keeps_startUpStepEnd {finding : StepFinding} {s t : State} (h : execStartUpStepEnd finding s = .next t) : Keeps s t := by
  unfold execStartUpStepEnd at h
  split at h
  · next started =>
    obtain rfl := Outcome.next.inj h
    exact Keeps.guarded fun good => ok_endStep good started finding
  · exact Outcome.next.inj h ▸ Keeps.rfl' s

theorem keeps_sheetRequest (s : State) : Keeps s { s with spm := { s.spm with requestPending := true } } := Keeps.of_core rfl

theorem keeps_intakeBand (b : Band) (s : State) : Keeps s { s with jt := { s.jt with waiting := s.jt.waiting ++ [b] } } := by
  refine Keeps.of_core ?_
  simp only [core, Core.mk.injEq, and_true, true_and]
  exact funext fun d => by cases d <;> rfl

/-! ### Commands -/

theorem keeps_exec {c : Instr} {s t : State} (h : exec c s = .next t) : Keeps s t := by
  cases hr : requestOf c with
  | some kt =>
    obtain ⟨k, tag⟩ := kt
    obtain ⟨o, ho, he⟩ := exec_owner hr
    obtain rfl := Outcome.next.inj ((he s).symm.trans h)
    exact keeps_request ho.keepsBlocks k tag s
  | none =>
    cases c <;> cases hr
    case powerOn.refl => exact Outcome.next.inj h ▸ (keeps_beginStartUp false none [] s).trans (Keeps.of_core rfl)
    case resetInput.refl cut =>
      obtain rfl := Outcome.next.inj h
      exact Keeps.guarded ((keeps_beginStartUp false none [] _).via
        fun good => ok_stored good fun d hd => stored_cut cut s.ps hd)
    case powerLoss.refl cut => exact Outcome.next.inj h ▸ (keeps_losePower cut s).guarded
    case startUpStepEnd.refl => exact keeps_startUpStepEnd h
    case transferStart.refl => exact Outcome.next.inj h ▸ Keeps.guarded (Keeps.of_core rfl)
    case transferEnd.refl => exact keeps_transferEnd h
    case linkError.refl cause tag kind => exact Outcome.next.inj h ▸ (keeps_takeWrong cause tag kind s).guarded
    case linkOverrun.refl => exact Outcome.next.inj h ▸ Keeps.guarded (Keeps.of_core rfl)
    case unknownKind.refl tag kind => exact Outcome.next.inj h ▸ (keeps_takeUnknown tag kind s).guarded
    case rawLevelChange.refl => exact keeps_rawLevelChange h
    case feedLeadingEdge.refl => exact Outcome.next.inj h ▸ keeps_edgeCommand _ _ s
    case exitLeadingEdge.refl => exact Outcome.next.inj h ▸ keeps_edgeCommand _ _ s
    case trailingEdge.refl => exact Outcome.next.inj h ▸ keeps_edgeCommand _ _ s
    case supplyEdge.refl => exact Outcome.next.inj h ▸ (keeps_takeEdge _ s).guarded
    case entryLate.refl => exact Outcome.next.inj h ▸ (keeps_declareJam _ s).settled.guarded
    case exitLate.refl => exact Outcome.next.inj h ▸ (keeps_declareJam _ s).settled.guarded
    case sheetRequest.refl =>
      exact Outcome.next.inj h ▸ (keeps_sheetRequest s).settled.guarded
    case intakeBand.refl b =>
      exact Outcome.next.inj h ▸ (keeps_intakeBand b s).settled.guarded
    case intakeStallExpiry.refl => exact Outcome.next.inj h ▸ (keeps_expireStall s).settled.guarded
    case holdExpiry.refl handle => exact Outcome.next.inj h ▸ (keeps_closeJob .expired handle s).settled.guarded
    case lockoutExpiry.refl id => exact Outcome.next.inj h ▸ (Keeps.of_core (core_updateAccount id _ s)).guarded
    case readComplete.refl => exact keeps_readComplete h
    case exportBandSent.refl => exact keeps_exportBandSent h
    case programComplete.refl => exact keeps_programComplete h
    case eraseComplete.refl => exact keeps_eraseComplete h
    case verifyComplete.refl => exact keeps_verifyComplete h
    case probeComplete.refl => exact keeps_probeComplete h
    case readRecordComplete.refl => exact keeps_readRecordComplete h
    case challengeComplete.refl => exact keeps_challengeComplete h
    case decrementComplete.refl => exact keeps_decrementComplete h
    case resyncComplete.refl => exact keeps_resyncComplete h
    case busTransactionFail.refl => exact Outcome.next.inj h ▸ (keeps_failFlight s).guarded
    case clockStretchLimit.refl => exact Outcome.next.inj h ▸ (keeps_failFlight s).guarded

/-- Every step keeps the invariant of the blocks' part of the state. -/
theorem keeps_step {s t : State} (h : step s = .next t) : Keeps s t := by
  unfold step at h
  split at h
  · next c rest _ =>
    have begun : Keeps s (beginEvent c { s with pending := rest }) := (keeps_beginEvent c _).via (Keeps.of_core rfl)
    exact begun.trans (keeps_exec h)
  · exact Outcome.next.inj h ▸ keeps_tick s

/-- Settles O12: with the job table's invariant BlocksOk is that of the blocks' part of the state, which every step keeps. -/
theorem blocksKept : Obligations.BlocksKept :=
  fun _ _ jobs blocks h => blocksOk_of (keeps_step h (coreOk_of jobs blocks))

end Sys2Proof.Machine

/-! PROOFS. O1 and O2: what a step runs, what settle takes, and the part right after reset. -/

namespace Sys2Proof.Machine

open Host (Outcome)

/-! ### The beginning of an event -/

theorem beginEvent_plain {c : Instr} (h : ∀ cut, c ≠ .powerLoss cut ∧ c ≠ .resetInput cut) (s : State) :
    beginEvent c s = { s with jt := { s.jt with closedNow := [] }, ps := { s.ps with journal := [] } } := by
  cases c <;> first | rfl | exact absurd rfl (h _).1 | exact absurd rfl (h _).2

theorem beginEvent_cut {c : Instr} {cut : StoreCut} (h : c = .powerLoss cut ∨ c = .resetInput cut) (s : State) :
    beginEvent c s = { s with jt := { s.jt with closedNow := [] } } := by
  rcases h with rfl | rfl <;> rfl

/-- With no write at stake and no close noted the event begins as the queue stands. -/
theorem beginEvent_settled (c : Instr) {s : State} (journal : s.ps.journal = []) (closed : s.jt.closedNow = []) :
    beginEvent c s = s := by
  have jobs : { s with jt := { s.jt with closedNow := [] } } = s := by rw [← closed]
  have store : { s with ps := { s.ps with journal := [] } } = s := by rw [← journal]
  unfold beginEvent
  split
  · exact jobs
  · exact jobs
  · exact (congrArg (fun u : State => { u with ps := { u.ps with journal := [] } }) jobs).trans store

/-! ### settle -/

/-- A bounded run of due actions: it ends where none is due, or at its bound. -/
theorem settleN_run (n : Nat) (s : State) : ∃ (k : Nat) (run : Nat → State), run 0 = s
    ∧ (∀ i, i < k → nextAction (run i) = some (run (i + 1))) ∧ settleN n s = run k
    ∧ (nextAction (settleN n s) = none ∨ k = n) := by
  induction n generalizing s with
  | zero => exact ⟨0, fun _ => s, rfl, fun i hi => absurd hi (Nat.not_lt_zero i), rfl, .inr rfl⟩
  | succ n ih =>
    cases due : nextAction s with
    | none =>
      have still : settleN (n + 1) s = s := by simp [settleN, due]
      exact ⟨0, fun _ => s, rfl, fun i hi => absurd hi (Nat.not_lt_zero i), still, .inl (by rw [still, due])⟩
    | some t =>
      have moved : settleN (n + 1) s = settleN n t := by simp [settleN, due]
      obtain ⟨k, run, start, steps, ended, stops⟩ := ih t
      refine ⟨k + 1, fun i => i.casesOn s run, rfl, fun i hi => ?_, moved.trans ended, ?_⟩
      · cases i with
        | zero => exact due.trans (congrArg some start.symm)
        | succ i => exact steps i (Nat.lt_of_succ_lt_succ hi)
      · rw [moved]
        exact stops.imp_right (congrArg (· + 1))

theorem findSome?_id_cons {α : Type} (a : Option α) (l : List (Option α)) :
    (a :: l).findSome? id = (a <|> l.findSome? id) := by cases a <;> rfl

theorem nextAction_running {s : State} (running : s.fm.part = .running) : nextAction s =
    [endMarkedRead s, moveImage s, handOn s, retryHeld s, takeWaiting s, activate .engine s, drain s,
      activate .exporter s, startExport s, failStaging s, startStaging s, grantAttempt s, takeScrub s,
      finishSanitize s, startBus s, startPort s].findSome? id := by
  simp only [nextAction, running, findSome?_id_cons, List.findSome?_nil, Option.orElse_eq_orElse, Option.orElse_eq_or, Option.or_none]

theorem step_idle {s : State} (empty : s.pending = []) : step s = .next (tick s) := by
  unfold step
  rw [empty]

/-- Settles O1: the command at the front runs on the queue's rest, in an event that begins as beginEvent says, and settle is a
bounded run of the actions due. -/
theorem stepRunsFrontCommand : Obligations.StepRunsFrontCommand := by
  refine ⟨fun c rest s => ⟨fun journal closed => ?_, fun plain => ?_, fun cut which => ?_⟩, fun s empty => ?_, fun s =>
    ⟨fun halted => by simp [nextAction, halted], fun starting => by simp [nextAction, starting],
      nextAction_running, settleN_run (settleFuel s) s⟩⟩
  · exact congrArg (exec c) (beginEvent_settled c (s := { s with pending := rest }) journal closed)
  · exact congrArg (exec c) (beginEvent_plain plain _)
  · exact congrArg (exec c) (beginEvent_cut which _)
  · exact step_idle empty

/-- Settles O2: the part as reset leaves it, piece by piece, and every invariant there. -/
theorem resetState : Obligations.ResetState := by
  have none : ∀ i : Fin 64, State.reset.jt.slots.get i = { generation := 0, job := none } ∧ State.reset.bc.keys.get i = none :=
    fun i => by simp [State.reset, Vector.get]
  obtain ⟨accounts, faults, history, sheets, permit⟩ := Tests.test_meets_other_invariants
  refine ⟨⟨rfl, rfl, rfl, rfl, rfl, rfl, rfl, rfl, rfl, rfl, none, rfl, rfl, rfl, rfl, rfl, rfl, rfl, rfl, rfl, rfl, rfl,
    fun i => by simp [State.reset, Vector.get], rfl, rfl, rfl, rfl, rfl, rfl, rfl, rfl, rfl, rfl⟩,
    Tests.test_meets_invariants.1, accounts, ?_, faults, history, sheets, permit, ?_, Tests.test_meets_job_table.1, ?_⟩
  · exact ledgerOk_iff.mpr ⟨accounts, List.forall_mem_nil _, List.forall_mem_nil _, List.forall_mem_nil _, fun _ => ⟨rfl, rfl⟩⟩
  · exact ⟨agrees_first _, fun h => absurd h (by decide), fun _ => ⟨rfl, by decide, fun _ => rfl⟩⟩
  · exact Tests.test_meets_blocks.1

end Sys2Proof.Machine

/-! PROOFS. O10, O11 and O13: notices, the requests turned away, and the requests that only report. -/

namespace Sys2Proof.Machine

open Host (Outcome)

/-! ### The admission of a notice -/

theorem admitNotice_progress {n : Notice} (plain : noticeSubject n = none) {l : LinkInterface} (room : noticeEntries l < 48) :
    admitNotice n l = { l with out := l.out ++ [.notice n], attn := true } := by
  simp only [admitNotice, plain, room, if_true, appendEntry]

theorem admitNotice_dropped {n : Notice} (plain : noticeSubject n = none) {l : LinkInterface} (full : 48 ≤ noticeEntries l) :
    admitNotice n l = { l with dropped := min (l.dropped + 1) 65535 } := by
  simp only [admitNotice, plain, Nat.not_lt.mpr full, if_false, satAdd]

theorem admitNotice_new {n : Notice} {sub : Subject} (subject : noticeSubject n = some sub) {l : LinkInterface}
    (new : ∀ e ∈ l.out, entrySubject e ≠ some sub) :
    admitNotice n l = { l with out := l.out ++ [.notice n], attn := true } := by
  have absent : ¬ l.out.any (fun e => entrySubject e == some sub) = true := by simpa using new
  simp only [admitNotice, subject, absent, if_false, appendEntry, Bool.false_eq_true]

theorem replaceEntry_split {sub : Subject} (n : Notice) {e : Entry} (subject : entrySubject e = some sub) (front back : List Entry)
    (first : ∀ x ∈ front, entrySubject x ≠ some sub) : replaceEntry sub n (front ++ e :: back) = front ++ .notice n :: back := by
  induction front with
  | nil => simp [replaceEntry, subject]
  | cons x rest ih =>
    obtain ⟨other, later⟩ := List.forall_mem_cons.mp first
    simp [replaceEntry, other, ih later]

/-- R185: the transfer notes the replacement of the entry it is sending, which is the oldest. -/
theorem noteReplaced_split {sub : Subject} {l : LinkInterface} {front back : List Entry} {e : Entry}
    (out : l.out = front ++ e :: back) (subject : entrySubject e = some sub) (first : ∀ x ∈ front, entrySubject x ≠ some sub) :
    noteReplaced sub l = l.transfer.map fun x => { x with replaced := x.replaced || (x.sending && front.isEmpty) } := by
  have head : (l.out.head?.bind entrySubject == some sub) = front.isEmpty := by
    rw [out]
    cases front with
    | nil => simp [subject]
    | cons x rest => simpa using first x (List.mem_cons_self ..)
  unfold noteReplaced
  cases l.transfer with
  | none => rfl
  | some t =>
    obtain ⟨frame, sending, replaced, cut⟩ := t
    simp only [head, Option.map_some]
    cases sending <;> cases front.isEmpty <;> simp

theorem admitNotice_replaces {n : Notice} {sub : Subject} (subject : noticeSubject n = some sub) {l : LinkInterface}
    {front back : List Entry} {e : Entry} (out : l.out = front ++ e :: back) (same : entrySubject e = some sub)
    (first : ∀ x ∈ front, entrySubject x ≠ some sub) :
    admitNotice n l = { l with
      out := front ++ .notice n :: back
      transfer := l.transfer.map fun x => { x with replaced := x.replaced || (x.sending && front.isEmpty) } } := by
  have present : l.out.any (fun x => entrySubject x == some sub) = true := by simp [out, same]
  simp only [admitNotice, subject, present, if_true, noteReplaced_split out same first]
  rw [out, replaceEntry_split n same front back first]

/-- Settles O10: by its subject a notice joins the list, replaces the entry of its subject, or is dropped. -/
theorem noticesAdmitted : Obligations.NoticesAdmitted := by
  refine ⟨fun n s => ⟨fun plain => ⟨fun room => ?_, fun full => ?_⟩, fun sub subject => ⟨fun new => ?_, fun front e back out same first => ?_⟩⟩,
    fun _ _ _ _ _ _ _ _ _ _ _ _ _ _ _ => ⟨rfl, rfl, rfl, rfl, rfl, rfl, rfl, rfl, rfl, rfl⟩, fun _ => rfl⟩
  · exact congrArg (fun l => { s with lif := l }) (admitNotice_progress plain room)
  · exact congrArg (fun l => { s with lif := l }) (admitNotice_dropped plain full)
  · exact congrArg (fun l => { s with lif := l }) (admitNotice_new subject new)
  · exact congrArg (fun l => { s with lif := l }) (admitNotice_replaces subject out same first)

/-! ### Requests turned away -/

theorem servedHalted_iff {k : RequestKind} : servedHalted k = true ↔ k = .status ∨ k = .faultRead ∨ k = .restart := by
  cases k <;> simp [servedHalted]

/-- Without power a transfer cannot have begun in this model: both its ends leave the state. -/
theorem edgeCommand_unpowered {s : State} (off : s.powered = false) (ch : Channel) (level : Bool) : edgeCommand ch level s = s := by
  simp [edgeCommand, off]

/-- Log 2: without power only POWER_ON and the sense inputs act. -/
theorem exec_unpowered {c : Instr} {s : State} (off : s.powered = false) (notOn : c ≠ .powerOn)
    (notSense : ∀ ch v, c ≠ .rawLevelChange ch v) : exec c s = .next s := by
  cases hr : requestOf c with
  | some kt =>
    obtain ⟨k, tag⟩ := kt
    obtain ⟨o, -, he⟩ := exec_owner hr
    rw [he, request_unpowered off]
  | none =>
    cases c <;> cases hr
    case powerOn.refl => exact absurd rfl notOn
    case rawLevelChange.refl ch v => exact absurd rfl (notSense ch v)
    case transferEnd.refl => show execTransferEnd _ s = _; unfold execTransferEnd; split <;> simp [off]
    case startUpStepEnd.refl => show execStartUpStepEnd _ s = _; unfold execStartUpStepEnd; split <;> simp [off]
    case readComplete.refl => show execReadComplete _ s = _; unfold execReadComplete; split <;> simp [off]
    case exportBandSent.refl => show execExportBandSent s = _; unfold execExportBandSent; split <;> simp [off]
    case programComplete.refl => show execProgramComplete _ s = _; unfold execProgramComplete; split <;> simp [off]
    case eraseComplete.refl => show execEraseComplete _ s = _; unfold execEraseComplete; split <;> simp [off]
    case verifyComplete.refl => show execVerifyComplete _ s = _; unfold execVerifyComplete; split <;> simp [off]
    case probeComplete.refl => show execProbeComplete _ s = _; unfold execProbeComplete; split <;> simp [off]
    case readRecordComplete.refl => show execReadRecordComplete _ s = _; unfold execReadRecordComplete; split <;> simp [off]
    case challengeComplete.refl => show execChallengeComplete _ s = _; unfold execChallengeComplete; split <;> simp [off]
    case decrementComplete.refl => show execDecrementComplete _ _ s = _; unfold execDecrementComplete; split <;> simp [off]
    case resyncComplete.refl => show execResyncComplete s = _; unfold execResyncComplete; split <;> simp [off]
    case feedLeadingEdge.refl => exact congrArg Outcome.next (edgeCommand_unpowered off _ _)
    case exitLeadingEdge.refl => exact congrArg Outcome.next (edgeCommand_unpowered off _ _)
    case trailingEdge.refl => exact congrArg Outcome.next (edgeCommand_unpowered off _ _)
    all_goals exact congrArg Outcome.next (if_neg (by simp [off]))

/-- Settles O11: an owner is reached with power, a free reply place and the part RUNNING, or HALTED for three kinds. -/
theorem requestsTurnedAway : Obligations.RequestsTurnedAway := by
  refine ⟨fun c s off notOn notSense => exec_unpowered off notOn notSense, fun c k tag s hr on => ?_⟩
  obtain ⟨o, -, he⟩ := exec_owner hr
  rw [he]
  refine ⟨fun full => ?_, fun room starting => ?_, fun room halted status faultRead restart => ?_⟩
  · rw [request_overrun on full]
    rfl
  · rw [request_starting on starting room]
  · have refused : servedHalted k = false := by
      rw [Bool.eq_false_iff]
      intro served
      rcases servedHalted_iff.mp served with h | h | h
      · exact status h
      · exact faultRead h
      · exact restart h
    rw [request_refused_halted on halted room refused]

/-! ### Requests that only report -/

theorem onJob_state {handle : Nat} {rule : Job → State → Answer} (h : ∀ j s, (rule j s).state = s) (s : State) :
    (onJob handle rule s).state = s := by
  unfold onJob
  split
  · rfl
  · exact h _ s

/-- The owner of a request that only reports answers with the state as it is. -/
theorem Owner.reports {k : RequestKind} {tag : Byte} {o : State → Answer} (h : Owner k tag o) (only : reportsOnly k = true)
    (s : State) : (o s).state = s := by
  cases h <;> try cases only
  case acctRead => unfold Machine.acctRead; split <;> rfl
  case acctList => rfl
  case jobRead => exact onJob_state (fun j s => by split <;> rfl) s
  case pathRead => rfl
  case cartRead => unfold Machine.cartRead; split <;> first | rfl | split <;> rfl
  case spoolRead => unfold Machine.spoolRead; split <;> rfl
  case faultRead => rfl
  case sense => exact onJob_state (fun _ _ => rfl) s
  case storeRead => rfl

/-- Settles O13: the owner of such a request answers with the state as it is. -/
theorem reportsChangeNothing : Obligations.ReportsChangeNothing := by
  intro c k tag s t hr only h
  obtain ⟨o, ho, he⟩ := exec_owner hr
  obtain rfl := Outcome.next.inj ((he s).symm.trans h)
  rcases request_cases k tag o s with same | full | ⟨status, refused⟩ | answer
  · exact .inl same
  · exact .inr (.inl full)
  · exact .inr (.inr ⟨_, refused⟩)
  · rw [ho.reports only] at answer
    exact .inr (.inr ⟨_, answer⟩)

/-! ### Deadlines and locks -/

theorem lockoutDue_iff {s : State} {id : Nat} {a : Account} {ends : Nat} (found : findAccount id s.accounts = some a)
    (locked : a.standing = .lockedOut ends) : lockoutDue s id = true ↔ ends ≤ nowSeconds s := by
  simp [lockoutDue, found, locked]

theorem holdDue_iff {s : State} {handle deadline : Nat} {j : Job} (found : jobOf s.jt handle = some j)
    (state : j.state = .held deadline) : holdDue s handle = true ↔ deadline ≤ nowSeconds s := by
  simp [holdDue, found, state]

theorem deadlineDue_iff {entered : Bool} {s : State} :
    deadlineDue entered s = true ↔ ∃ sh ∈ s.spm.sheets, sh.entered = entered ∧ sh.deadline ≤ nowMs s := by
  simp [deadlineDue]

/-- Settles O20: each expiry acts where it is due and leaves the state otherwise. -/
theorem deadlinesAct : Obligations.DeadlinesAct := by
  refine ⟨fun id s a ends on found locked => ?_, fun handle deadline j s on found state => ?_, fun s on clear running => ?_,
    fun s on => ⟨fun pending => ?_, fun free => ?_⟩⟩
  · have due := lockoutDue_iff found locked
    refine ⟨fun late => ?_, fun early => ?_⟩
    · refine (congrArg Outcome.next (if_pos (by rw [on, due.mpr late]; rfl))).trans ?_
      exact congrArg (fun f => Outcome.next (updateAccount id f s)) (funext endLockout_eq)
    · exact congrArg Outcome.next (if_neg (by rw [on, Bool.true_and, due]; omega))
  · have due := holdDue_iff found state
    refine ⟨fun late => ?_, fun early => ?_⟩
    · exact congrArg Outcome.next (if_pos (by rw [on, due.mpr late]; rfl))
    · exact congrArg Outcome.next (if_neg (by rw [on, Bool.true_and, due]; omega))
  · have tracking : trackingOn s = true := by simp [trackingOn, clear, running]
    refine ⟨fun late => ?_, fun late => ?_, fun early => ⟨?_, ?_⟩⟩
    · exact congrArg Outcome.next (if_pos (by rw [on, tracking, deadlineDue_iff.mpr late]; rfl))
    · exact congrArg Outcome.next (if_pos (by rw [on, tracking, deadlineDue_iff.mpr late]; rfl))
    · refine congrArg Outcome.next (if_neg ?_)
      rw [on, tracking, Bool.true_and, Bool.true_and, deadlineDue_iff]
      rintro ⟨sh, hs, -, late⟩
      exact absurd late (Nat.not_le.mpr (early sh hs))
    · refine congrArg Outcome.next (if_neg ?_)
      rw [on, tracking, Bool.true_and, Bool.true_and, deadlineDue_iff]
      rintro ⟨sh, hs, -, late⟩
      exact absurd late (Nat.not_le.mpr (early sh hs))
  · exact congrArg Outcome.next (if_neg (by simp [pending]))
  · exact congrArg Outcome.next (if_pos (by simp [on, free]))

theorem lockSet_none {n : Nat} (h : n = 0 ∨ 7 < n) : lockSet n = none := by
  simp [lockSet, h]

theorem lockSet_some {n : Nat} (low : 1 ≤ n) (high : n ≤ 7) :
    lockSet n = some { settings := n.testBit 0, keys := n.testBit 1, audit := n.testBit 2 } := by
  have range : ¬ (n = 0 ∨ 7 < n) := by omega
  simp only [lockSet, Bool.or_eq_true, decide_eq_true_eq, range, if_false, Nat.testBit_eq_decide_div_mod_eq]
  simp only [Nat.reducePow, Nat.div_one, beq_eq_decide]

/-- Settles O56: the owner sets the locks its set names on top of those held. -/
theorem storeLockSets : Obligations.StoreLockSets := by
  refine ⟨fun tag locks s serving => ⟨fun wrong => ?_, fun low high => ⟨fun same => ?_, fun changed => ?_⟩⟩, fun k s => rfl⟩
  · refine next_request_of_answer serving (a := refuse .badField s) ?_
    simp only [storeLock, lockSet_none wrong]
  · refine next_request_of_answer serving (a := { status := .ok, payload := .locks _, state := s }) ?_
    simp only [storeLock, lockSet_some low high, setLocks]
    exact congrArg (Answer.mk .ok (.locks _)) (if_pos same)
  · refine next_request_of_answer serving (a := { status := .ok, payload := .locks _, state := setKeys _ s }) ?_
    simp only [storeLock, lockSet_some low high, setLocks]
    exact congrArg (Answer.mk .ok (.locks _)) (if_neg changed)

end Sys2Proof.Machine

/-! PROOFS. O15: the requests that report say what stands. -/

namespace Sys2Proof.Machine

open Host (Outcome)

/-! ### FAULT_READ and STATUS -/

/-- A powered part that is past its start-up hands FAULT_READ and STATUS to their owners, HALTED or not (R167). -/
theorem request_served {s : State} {k : RequestKind} (on : s.powered = true) (past : s.fm.part ≠ .starting)
    (room : unreadReplies s.lif < 8) (served : servedHalted k = true) (tag : Byte) (owner : State → Answer) :
    request k tag owner s = answered k tag (owner s).status (owner s).payload (owner s).state := by
  cases part : s.fm.part with
  | starting => exact absurd part past
  | halted => exact request_halted on part room served tag owner
  | running => exact request_serving ⟨on, part, room⟩ k tag owner

/-! ### Requests on a job -/

theorem onJob_some {s : State} {handle : Nat} {j : Job} (found : jobOf s.jt handle = some j) (rule : Job → State → Answer) :
    onJob handle rule s = rule j s := by
  simp only [onJob, found]

theorem onJob_none {s : State} {handle : Nat} (unknown : jobOf s.jt handle = none) (rule : Job → State → Answer) :
    onJob handle rule s = refuse .noJob s := by
  simp only [onJob, unknown]

theorem jobRead_ok {s : State} {handle first : Nat} {j : Job} (found : jobOf s.jt handle = some j) (low : 1 ≤ first) :
    jobRead handle first s = { status := .ok, payload := .job (jobReport j first), state := s } := by
  have nonzero : first ≠ 0 := Nat.one_le_iff_ne_zero.mp low
  simp only [jobRead, onJob_some found, nonzero, if_false]

theorem jobRead_badField {s : State} {handle : Nat} {j : Job} (found : jobOf s.jt handle = some j) :
    jobRead handle 0 s = refuse .badField s := by
  simp only [jobRead, onJob_some found, if_true]

/-! ### Cartridges and blocks -/

theorem slotField_val (i : Fin 4) : slotField i.val = some i := dif_pos i.isLt

theorem slotField_none {n : Nat} (h : 4 ≤ n) : slotField n = none := dif_neg (Nat.not_lt.mpr h)

theorem ownerOfBlock_isSome {jt : JobTable} {block : Nat} : (ownerOfBlock jt block).isSome = true ↔
    ∃ j ∈ allJobs jt, ∃ e ∈ j.extents, e.first ≤ block ∧ block < e.first + e.count := by
  simp [ownerOfBlock]

theorem blockState_retired {s : State} {block : Nat} : blockState s block = .retired ↔ block ∈ s.smc.defects.retired := by
  unfold blockState
  split
  · next h => simp [h]
  · next h => simp only [h, iff_false]; split_ifs <;> simp

theorem blockState_clean {s : State} {block : Nat} :
    blockState s block = .clean ↔ block ∉ s.smc.defects.retired ∧ block ∈ s.smc.free := by
  unfold blockState
  split_ifs <;> simp_all

theorem blockState_allocated {s : State} {block : Nat} : blockState s block = .allocated ↔
    block ∉ s.smc.defects.retired ∧ block ∉ s.smc.free ∧ (∀ e ∈ s.se.list, e.block ≠ block)
      ∧ ∃ j ∈ allJobs s.jt, ∃ e ∈ j.extents, e.first ≤ block ∧ block < e.first + e.count := by
  rw [← ownerOfBlock_isSome]
  have unlisted : (∀ e ∈ s.se.list, e.block ≠ block) ↔ ¬ s.se.list.any (·.block == block) = true := by simp
  rw [unlisted]
  unfold blockState
  split_ifs <;> simp_all

/-- R110: with one spare paired with a block the block resolves to it. -/
theorem resolve_paired {d : Defects} {block spare : Nat} (paired : (block, spare) ∈ d.remap)
    (only : ∀ x ∈ d.remap, x.1 = block → x.2 = spare) : resolve d block = spare := by
  cases found : d.remap.find? (·.1 == block) with
  | none => exact absurd (List.find?_eq_none.mp found _ paired) (by simp)
  | some x =>
    have same : x.1 = block := by simpa using List.find?_some found
    simp [resolve, spareOf, found, only x (List.mem_of_find?_eq_some found) same]

theorem resolve_unpaired {d : Defects} {block : Nat} (none : ∀ x ∈ d.remap, x.1 ≠ block) : resolve d block = block := by
  have unfound : d.remap.find? (·.1 == block) = .none := List.find?_eq_none.mpr fun x hx => by simpa using none x hx
  simp [resolve, spareOf, unfound]

/-- Settles O15: each owner answers with the report, whose fields are those stated. -/
theorem readsReport : Obligations.ReadsReport := by
  refine ⟨⟨fun tag s serving => ⟨fun id a found => ?_, fun id unknown => ?_, fun start => ?_⟩,
    fun tag handle first s serving => ⟨fun j found low => ?_, fun j found zero => ?_, fun j found => ?_, fun unknown => ⟨?_, ?_⟩⟩⟩,
    fun tag s => ⟨fun serving => ?_, fun on past room => ?_, fun serving => ?_⟩,
    fun tag selector start block s serving => ⟨fun i sel => ?_, fun sel low => ?_, fun wrong => ?_, fun valid => ?_, fun invalid => ?_⟩,
    fun tag s on past room => ?_, fun block s => ?_⟩
  · refine next_request_of_answer serving (a := { status := .ok, payload := _, state := s }) ?_
    simp only [acctRead, found, accountReport]
    rfl
  · exact next_request_of_answer serving (a := refuse .noAccount s) (by simp only [acctRead, unknown])
  · exact next_request_of_answer serving (a := { status := .ok, payload := _, state := s }) rfl
  · refine next_request_of_answer serving (a := { status := .ok, payload := _, state := s }) ?_
    exact jobRead_ok found low
  · exact zero ▸ next_request_of_answer serving (jobRead_badField found)
  · exact next_request_of_answer serving (onJob_some found _)
  · exact next_request_of_answer serving (onJob_none unknown _)
  · exact next_request_of_answer serving (onJob_none unknown _)
  · exact next_request_of_answer serving (a := { status := .ok, payload := _, state := s }) rfl
  · exact congrArg Outcome.next (request_served on past room rfl tag faultRead)
  · exact next_request_of_answer serving (a := { status := .ok, payload := _, state := s }) rfl
  · refine next_request_of_answer serving (a := { status := .ok, payload := .cartridge (cartReport s i), state := s }) ?_
    simp only [cartRead, sel, slotField_val]
  · refine next_request_of_answer serving (a := { status := .ok, payload := .history _ _, state := s }) ?_
    simp only [cartRead, sel, slotField_none le_rfl, low, and_self, if_true]
  · refine next_request_of_answer serving (a := refuse .badField s) ?_
    have above : 4 ≤ selector := by omega
    have outside : ¬ (selector = 4 ∧ start ≤ 31) := by omega
    simp only [cartRead, slotField_none above, outside, if_false]
  · refine next_request_of_answer serving (a := { status := .ok, payload := .spool (spoolReport s block), state := s }) ?_
    refine if_pos ?_
    cases block with
    | none => rfl
    | some b => exact decide_eq_true (valid b rfl)
  · obtain ⟨b, rfl, high⟩ := invalid
    refine next_request_of_answer serving (a := refuse .badField s) (if_neg fun low => ?_)
    exact absurd (of_decide_eq_true low) (Nat.not_lt.mpr high)
  · exact congrArg Outcome.next (request_served on past room rfl tag status)
  · exact ⟨blockState_retired, blockState_clean, blockState_allocated, fun spare => resolve_paired, resolve_unpaired⟩

end Sys2Proof.Machine

/-! PROOFS. O17 and O18: ACCT_CREDIT and ACCT_SET. -/

namespace Sys2Proof.Machine

/-! ### ACCT_CREDIT -/

theorem amountInRange_iff {amount : Int} : amountInRange amount = true ↔ -2000000000 ≤ amount ∧ amount ≤ 2000000000 := by
  unfold amountInRange
  rw [Bool.and_eq_true]
  exact and_congr decide_eq_true_iff decide_eq_true_iff

section Credit

variable {id : Nat} {amount : Int} {s : State} {a : Account}

theorem acctCredit_badField (h : ¬ (-2000000000 ≤ amount ∧ amount ≤ 2000000000)) : acctCredit id amount s = refuse .badField s :=
  if_pos (by rw [Bool.not_eq_true', Bool.eq_false_iff]; exact fun k => h (amountInRange_iff.mp k))

theorem acctCredit_noAccount (range : amountInRange amount = true) (unknown : findAccount id s.accounts = none) :
    acctCredit id amount s = refuse .noAccount s := by
  simp only [acctCredit, range, unknown, Bool.not_true, Bool.false_eq_true, if_false]

theorem acctCredit_positive (range : amountInRange amount = true) (found : findAccount id s.accounts = some a) (up : 0 < amount) :
    acctCredit id amount s =
      { status := .ok
        payload := .credit (min (a.balance + amount) 2000000000)
          (min (a.balance + amount) 2000000000 + a.overdraft - a.reserved) (a.balance + amount > 2000000000)
        state := if a.balance < min (a.balance + amount) 2000000000 then
          settle (creditRose id (updateAccount id (fun b => { b with balance := min (b.balance + amount) 2000000000 }) s)) else s } := by
  simp only [acctCredit, range, found, Bool.not_true, Bool.false_eq_true, if_false, gt_iff_lt, up, if_true]
  rfl

theorem acctCredit_zero (found : findAccount id s.accounts = some a) :
    acctCredit id 0 s = { status := .ok, payload := .credit a.balance (available a) false, state := s } := by
  have range : amountInRange 0 = true := by decide
  simp only [acctCredit, range, found, Bool.not_true, Bool.false_eq_true, if_false, gt_iff_lt, lt_irrefl, if_true, creditReply]

theorem acctCredit_negative (range : amountInRange amount = true) (found : findAccount id s.accounts = some a) (down : amount < 0) :
    acctCredit id amount s =
      if -amount ≤ available a then
        { status := .ok, payload := .credit (a.balance + amount) (a.balance + amount + a.overdraft - a.reserved) false
          state := updateAccount id (fun b => { b with balance := b.balance + amount }) s }
      else refuse .insufficient s := by
  have notUp : ¬ 0 < amount := not_lt.mpr down.le
  simp only [acctCredit, range, found, Bool.not_true, Bool.false_eq_true, if_false, gt_iff_lt, notUp, down.ne]
  rfl

end Credit

/-- Settles O17: by the sign of the amount. -/
theorem acctCreditMovesBalance : Obligations.AcctCreditMovesBalance := by
  intro tag id amount s serving
  refine ⟨fun outside => ?_, fun low high unknown => ?_, fun a found low high => ?_⟩
  · exact next_request_of_answer serving (acctCredit_badField (by omega))
  · exact next_request_of_answer serving (acctCredit_noAccount (amountInRange_iff.mpr ⟨low, high⟩) unknown)
  · have range := amountInRange_iff.mpr ⟨low, high⟩
    refine ⟨fun up rises => ?_, fun up top => ?_, fun zero => ?_, fun down covered => ?_, fun down short => ?_⟩
    · exact next_request_of_answer serving ((acctCredit_positive range found up).trans (by rw [if_pos rises]))
    · have capped : min (a.balance + amount) 2000000000 = 2000000000 := by omega
      have topped : decide (a.balance + amount > 2000000000) = true := decide_eq_true (by omega)
      refine next_request_of_answer serving (a := { status := .ok, payload := .credit 2000000000 (available a) true, state := s }) ?_
      rw [acctCredit_positive range found up, capped, topped, top, if_neg (lt_irrefl _)]
      simp only [available, top]
    · exact zero ▸ next_request_of_answer serving (acctCredit_zero found)
    · exact next_request_of_answer serving ((acctCredit_negative range found down).trans (if_pos covered))
    · exact next_request_of_answer serving ((acctCredit_negative range found down).trans (if_neg (not_le.mpr short)))

/-! ### ACCT_SET -/

theorem standingField_of_le_one {n : Nat} (h : n ≤ 1) : standingField n = some (if n = 0 then .active else .suspended) := by
  obtain rfl | rfl : n = 0 ∨ n = 1 := by omega
  · rfl
  · rfl

theorem standingField_isSome {n : Nat} : (standingField n).isSome = true ↔ n ≤ 1 := by
  unfold standingField
  split_ifs <;> simp <;> omega

theorem yesNo_isSome {n : Nat} : (yesNo n).isSome = true ↔ n ≤ 1 := by
  unfold yesNo
  split_ifs <;> simp <;> omega

theorem acctSetFields_iff {overdraft colour standing : Option Nat} {pin : Option PinAction} :
    acctSetFields overdraft colour standing pin = true ↔ (∀ l, overdraft = some l → l ≤ 1000000) ∧ (∀ c, colour = some c → c ≤ 1)
      ∧ (∀ c, standing = some c → c ≤ 1) ∧ ∀ p, pin = some (.set p) → validPin p = true := by
  have pinOk : (pin.all fun a => match a with | .set p => validPin p | .clear => true) = true
      ↔ ∀ p, pin = some (.set p) → validPin p = true := by
    rcases pin with - | ⟨p | -⟩ <;> simp
  have limitOk : (overdraft.all (· ≤ Config.overdraftMax)) = true ↔ ∀ l, overdraft = some l → l ≤ 1000000 := by
    rw [Option.all_eq_true]
    exact forall₂_congr fun _ _ => decide_eq_true_iff
  unfold acctSetFields
  rw [Bool.and_eq_true, Bool.and_eq_true, Bool.and_eq_true, limitOk, Option.all_eq_true, Option.all_eq_true]
  simp only [yesNo_isSome, standingField_isSome, and_assoc]
  exact and_congr_right fun _ => and_congr_right fun _ => and_congr_right fun _ => pinOk

section Set

variable {id : Nat} {overdraft colour standing : Option Nat} {pin : Option PinAction} {s : State} {a : Account}

/-- R38 step 3: the account is locked out and the field would make it ACTIVE. -/
def setLockedOut (standing : Option Nat) (a : Account) : Prop := (∃ ends, a.standing = .lockedOut ends) ∧ standing = some 0

theorem locked_match_iff : (match a.standing with | .lockedOut _ => true | _ => false) = true ↔ ∃ ends, a.standing = .lockedOut ends := by
  cases a.standing <;> simp

theorem standing_active_iff (field : ∀ c, standing = some c → c ≤ 1) :
    (standing.bind standingField == some .active) = true ↔ standing = some 0 := by
  rw [beq_iff_eq]
  cases standing with
  | none => simp
  | some c =>
    rw [Option.bind_some, standingField_of_le_one (field c rfl)]
    split_ifs with h <;> simp [h]

theorem acctSet_badField (h : ¬ acctSetFields overdraft colour standing pin = true) :
    acctSet id overdraft colour standing pin s = refuse .badField s := by
  simp only [acctSet, h, Bool.not_false, if_true]

theorem acctSet_noAccount (fields : acctSetFields overdraft colour standing pin = true)
    (unknown : findAccount id s.accounts = none) : acctSet id overdraft colour standing pin s = refuse .noAccount s := by
  simp only [acctSet, fields, unknown, Bool.not_true, Bool.false_eq_true, if_false]

/-- R38 steps 3 and 4, and the change, of an account there is. -/
theorem acctSet_found (fields : acctSetFields overdraft colour standing pin = true) (found : findAccount id s.accounts = some a) :
    acctSet id overdraft colour standing pin s =
      if ((match a.standing with | .lockedOut _ => true | _ => false) && standing.bind standingField == some .active) = true then
        refuse .lockedOut s
      else if (overdraft.any fun l => decide (a.balance - a.reserved < -(l : Int))) = true then refuse .insufficient s
      else
        let b := applyAcctSet s overdraft colour standing pin a
        let t := updateAccount id (applyAcctSet s overdraft colour standing pin) s
        let t := if b.overdraft > a.overdraft then creditRose id t else t
        let t := if liftsBarrier a b then barrierGone id t else t
        { status := .ok, state := if b.overdraft > a.overdraft || liftsBarrier a b then settle t else t } := by
  simp only [acctSet, fields, found, Bool.not_true, Bool.false_eq_true, if_false] <;> rfl

theorem liftsBarrier_iff {b : Account} : liftsBarrier a b = true ↔ (a.standing = .suspended ∧ b.standing = .active)
    ∨ (a.colourRight = false ∧ b.colourRight = true ∧ b.standing ≠ .suspended) := by
  simp [liftsBarrier, and_assoc]

/-- R39: the states an accepted ACCT_SET leaves, by what it raises and lifts. -/
theorem acctSet_accepted (fields : acctSetFields overdraft colour standing pin = true) (found : findAccount id s.accounts = some a)
    (free : ¬ setLockedOut standing a) (covered : ∀ l, overdraft = some l → -(l : Int) ≤ a.balance - a.reserved) :
    let b := applyAcctSet s overdraft colour standing pin a
    let changed := updateAccount id (applyAcctSet s overdraft colour standing pin) s
    acctSet id overdraft colour standing pin s = Answer.mk .ok .empty
      (if a.overdraft < b.overdraft then
        if liftsBarrier a b then settle (barrierGone id (creditRose id changed)) else settle (creditRose id changed)
      else if liftsBarrier a b then settle (barrierGone id changed) else changed) := by
  obtain ⟨-, -, standingOk, -⟩ := acctSetFields_iff.mp fields
  have first : ¬ ((match a.standing with | .lockedOut _ => true | _ => false) && standing.bind standingField == some .active) = true := by
    rw [Bool.and_eq_true, locked_match_iff, standing_active_iff standingOk]
    exact free
  have second : ¬ (overdraft.any fun l => decide (a.balance - a.reserved < -(l : Int))) = true := by
    cases overdraft with
    | none => simp
    | some l => simpa using covered l rfl
  intro b changed
  rw [acctSet_found fields found, if_neg first, if_neg second]
  dsimp only [b, changed]
  by_cases raised : a.overdraft < (applyAcctSet s overdraft colour standing pin a).overdraft <;>
    by_cases lifted : liftsBarrier a (applyAcctSet s overdraft colour standing pin a) = true <;>
    simp [raised, lifted]

end Set

theorem colourField (colour : Option Nat) (held : Bool) : (∀ c, colour = some c → c ≤ 1) →
    (colour.bind yesNo).getD held = (match colour with
      | some c => decide (c = 1)
      | none => held) := by
  intro colourOk
  cases colour with
  | none => rfl
  | some c => simp [yesNo_of_le_one (colourOk c rfl)]

/-- R38 to R40: an accepted record, field by field. -/
theorem applyAcctSet_fields (s : State) (overdraft colour standing : Option Nat) (pin : Option PinAction) (a : Account) :
    (∀ c, colour = some c → c ≤ 1) → (∀ c, standing = some c → c ≤ 1) → ¬ setLockedOut standing a →
    let b := applyAcctSet s overdraft colour standing pin a
    b.id = a.id ∧ b.balance = a.balance ∧ b.reserved = a.reserved ∧ b.counters = a.counters
      ∧ b.overdraft = overdraft.getD a.overdraft
      ∧ b.colourRight = (match colour with
          | some c => decide (c = 1)
          | none => a.colourRight)
      ∧ b.standing = (match standing with
          | some 0 => .active
          | some _ => .suspended
          | none => a.standing)
      ∧ b.pinCheck = (match pin with
          | some (.set p) => some (pinCheckValue (deviceKeyOf s) p)
          | some .clear => none
          | none => a.pinCheck)
      ∧ b.pinFailures = (match pin, standing, a.standing with
          | some _, _, _ => 0
          | none, some 1, .lockedOut _ => 0
          | none, _, _ => a.pinFailures) := by
  intro colourOk standingOk free
  have right := colourField colour a.colourRight colourOk
  intro b
  have stands : standing = none ∨ standing = some 0 ∨ standing = some 1 := by
    cases standing with
    | none => exact .inl rfl
    | some c =>
      have := standingOk c rfl
      obtain rfl | rfl : c = 0 ∨ c = 1 := by omega
      · exact .inr (.inl rfl)
      · exact .inr (.inr rfl)
  obtain ⟨aid, astanding, balance, aover, reserved, acolour, acheck, failures, counters⟩ := a
  dsimp only at right ⊢
  dsimp only [b, applyAcctSet]
  rw [right]
  rcases stands with rfl | rfl | rfl
  · rcases pin with - | ⟨p | -⟩ <;> exact ⟨rfl, rfl, rfl, rfl, rfl, rfl, rfl, rfl, rfl⟩
  · cases astanding with
    | lockedOut ends => exact absurd ⟨⟨ends, rfl⟩, rfl⟩ free
    | active => rcases pin with - | ⟨p | -⟩ <;> exact ⟨rfl, rfl, rfl, rfl, rfl, rfl, rfl, rfl, rfl⟩
    | suspended => rcases pin with - | ⟨p | -⟩ <;> exact ⟨rfl, rfl, rfl, rfl, rfl, rfl, rfl, rfl, rfl⟩
  · cases astanding <;> rcases pin with - | ⟨p | -⟩ <;> exact ⟨rfl, rfl, rfl, rfl, rfl, rfl, rfl, rfl, rfl⟩

/-- R30: a change that leaves every record as it is writes nothing. -/
theorem updateAccount_id {id : Nat} {f : Account → Account} (h : ∀ a, f a = a) (s : State) : updateAccount id f s = s := by
  refine updateAccount_same id f s ?_
  unfold changeAccount
  rw [funext h]
  simp

theorem exec_acctSet (tag : Byte) (id : Nat) (overdraft colour standing : Option Nat) (pin : Option PinAction) (s : State) :
    exec (.acctSet tag id overdraft colour standing pin) s = .next (request .acctSet tag (acctSet id overdraft colour standing pin) s) :=
  rfl

/-- R38, R39: what an accepted ACCT_SET answers and leaves, by what it raises and lifts. -/
theorem acctSet_accepts {tag : Byte} {id : Nat} {overdraft colour standing : Option Nat} {pin : Option PinAction} {s : State}
    {a : Account} (serving : Serving s) (fields : acctSetFields overdraft colour standing pin = true)
    (found : findAccount id s.accounts = some a) (free : ¬ setLockedOut standing a)
    (covered : ∀ l, overdraft = some l → -(l : Int) ≤ a.balance - a.reserved) :
    let b := applyAcctSet s overdraft colour standing pin a
    let changed := updateAccount id (applyAcctSet s overdraft colour standing pin) s
    let raised := a.overdraft < b.overdraft
    let lifted := (a.standing = .suspended ∧ b.standing = .active)
      ∨ (a.colourRight = false ∧ b.colourRight = true ∧ b.standing ≠ .suspended)
    (¬ raised → ¬ lifted →
      exec (.acctSet tag id overdraft colour standing pin) s = .next (answered .acctSet tag .ok .empty changed))
    ∧ (raised → ¬ lifted →
      exec (.acctSet tag id overdraft colour standing pin) s =
        .next (answered .acctSet tag .ok .empty (settle (creditRose id changed))))
    ∧ (¬ raised → lifted →
      exec (.acctSet tag id overdraft colour standing pin) s =
        .next (answered .acctSet tag .ok .empty (settle (barrierGone id changed))))
    ∧ (raised → lifted →
      exec (.acctSet tag id overdraft colour standing pin) s =
        .next (answered .acctSet tag .ok .empty (settle (barrierGone id (creditRose id changed))))) := by
  intro b changed raised lifted
  have lifts : liftsBarrier a b = true ↔ lifted := liftsBarrier_iff
  rw [exec_acctSet, request_serving serving, acctSet_accepted fields found free covered]
  dsimp only
  refine ⟨fun notRaised notLifted => ?_, fun isRaised notLifted => ?_, fun notRaised isLifted => ?_, fun isRaised isLifted => ?_⟩
  · rw [if_neg notRaised, if_neg (lifts.not.mpr notLifted)]
  · rw [if_pos isRaised, if_neg (lifts.not.mpr notLifted)]
  · rw [if_neg notRaised, if_pos (lifts.mpr isLifted)]
  · rw [if_pos isRaised, if_pos (lifts.mpr isLifted)]

/-- Settles O18: the tests in their order, the accepted record field by field, and what R30 writes. -/
theorem acctSetApplies : Obligations.AcctSetApplies := by
  refine ⟨fun tag id overdraft colour standing pin s serving => ⟨fun wrong => ?_, fun limit right stands check => ?_⟩,
    applyAcctSet_fields,
    fun tag id s a serving found => ?_, fun id f s => ⟨updateAccount_same id f s, updateAccount_changed id f s⟩⟩
  · refine next_request_of_answer serving (acctSet_badField fun fields => ?_)
    obtain ⟨limit, right, stands, check⟩ := acctSetFields_iff.mp fields
    rcases wrong with ⟨l, h, high⟩ | ⟨c, h, high⟩ | ⟨c, h, high⟩ | ⟨p, h, bad⟩
    · exact absurd (limit l h) (not_le.mpr high)
    · exact absurd (right c h) (not_le.mpr high)
    · exact absurd (stands c h) (not_le.mpr high)
    · rw [check p h] at bad
      cases bad
  · have fields := acctSetFields_iff.mpr ⟨limit, right, stands, check⟩
    refine ⟨fun unknown => next_request_of_answer serving (acctSet_noAccount fields unknown), fun a found =>
      ⟨fun locked active => ?_, fun free short => ?_, fun free covered => ?_⟩⟩
    · refine next_request_of_answer serving ((acctSet_found fields found).trans (if_pos ?_))
      rw [Bool.and_eq_true, locked_match_iff, standing_active_iff stands]
      exact ⟨locked, active⟩
    · obtain ⟨l, rfl, less⟩ := short
      refine next_request_of_answer serving ((acctSet_found fields found).trans ((if_neg ?_).trans (if_pos ?_)))
      · rw [Bool.and_eq_true, locked_match_iff, standing_active_iff stands]
        exact free
      · simpa using less
    · exact acctSet_accepts serving fields found free covered
  · have same : ∀ b, applyAcctSet s none none none none b = b := fun _ => rfl
    refine next_request_of_answer serving (a := { status := .ok, state := s }) ?_
    rw [acctSet_accepted (by rfl) found (fun h => by cases h.2) (fun _ h => by cases h), same, updateAccount_id same]
    have notLifted : ¬ liftsBarrier a a = true := by
      rw [liftsBarrier_iff]
      rintro (⟨suspended, active⟩ | ⟨without, withRight, -⟩)
      · rw [suspended] at active; cases active
      · rw [without] at withRight; cases withRight
    rw [if_neg (lt_irrefl _), if_neg notLifted]

end Sys2Proof.Machine

/-! PROOFS. O21 and O22: the arithmetic of the accounts, the random source and JOB_OPEN. -/

namespace Sys2Proof.Machine

/-! ### The arithmetic of the accounts -/

theorem imageSides_eq (sides : List Side) : imageSides sides = sidesOfClass .mono sides + sidesOfClass .colour sides := by
  unfold imageSides sidesOfClass
  induction sides with
  | nil => rfl
  | cons side rest ih =>
    rw [List.countP_cons, List.countP_cons, List.countP_cons, ih]
    match side with
    | .blank => rfl
    | .page _ .mono => simp; omega
    | .page _ .colour => simp; omega

theorem sidesOfClass_mono (sides : List Side) :
    sidesOfClass .mono sides = sides.countP fun | .page _ .mono => true | _ => false := by
  refine List.countP_congr fun side _ => ?_
  rcases side with _ | ⟨_, _ | _⟩ <;> simp

theorem sidesOfClass_colour (sides : List Side) :
    sidesOfClass .colour sides = sides.countP fun | .page _ .colour => true | _ => false := by
  refine List.countP_congr fun side _ => ?_
  rcases side with _ | ⟨_, _ | _⟩ <;> simp

theorem reservationAnswer_account {a : Account} {cost : Nat} {colour : Bool} :
    reservationAnswer a cost colour = .account ↔ a.standing = .suspended ∨ (colour = true ∧ a.colourRight = false) := by
  unfold reservationAnswer
  split_ifs <;> simp_all

theorem reservationAnswer_credit {a : Account} {cost : Nat} {colour : Bool} :
    reservationAnswer a cost colour = .credit ↔
      ¬ (a.standing = .suspended ∨ (colour = true ∧ a.colourRight = false)) ∧ available a < cost := by
  unfold reservationAnswer
  split_ifs <;> simp_all

theorem available_of_reserved {a : Account} {cost : Nat} {colour : Bool} (h : reservationAnswer a cost colour = .reserved) :
    cost ≤ available a := by
  unfold reservationAnswer at h
  split_ifs at h
  omega

theorem charge_eq (a : Account) (cost : Nat) (sides : List Side) (nonGenuine : Bool) :
    charge cost sides nonGenuine a = { a with
      balance := a.balance - cost
      reserved := a.reserved - cost
      counters :=
        { sheets := min (a.counters.sheets + 1) 4294967295
          monoSides := min (a.counters.monoSides + sidesOfClass .mono sides) 4294967295
          colourSides := min (a.counters.colourSides + sidesOfClass .colour sides) 4294967295
          nonGenuine := min (a.counters.nonGenuine + if nonGenuine then imageSides sides else 0) 4294967295
          scanSides := a.counters.scanSides, shortfall := a.counters.shortfall } } := rfl

/-- Settles O21: each answer and each change by its definition. -/
theorem creditsArithmetic : Obligations.CreditsArithmetic := by
  refine ⟨fun a cost colour solvent => ⟨reservationAnswer_account, reservationAnswer_credit, fun reserved => ?_⟩,
    fun a cost due sides nonGenuine => ⟨fun held => ?_, fun solvent => ?_⟩, fun a cost due taken sides nonGenuine => ⟨?_, rfl⟩⟩
  · have := available_of_reserved reserved
    simp only [available, reserve, release] at *
    omega
  · simp only [available, charge]
    exact ⟨by omega, trivial⟩
  · simp only [available, scanCharge, scanTaken] at *
    omega
  · rw [charge_eq, imageSides_eq, sidesOfClass_mono, sidesOfClass_colour] <;> rfl

/-! ### The health tests of the random source (R140) -/

/-- The samples meet the repetition and the proportion test at every place. -/
def Healthy (l : List Byte) : Prop :=
  (∀ b, ¬ List.replicate 32 b <:+: l) ∧ ∀ k b, ((l.drop (1024 * k)).take 1024).count b ≤ 400

/-- What the health test keeps of the samples it has seen: the run they end in and the window begun, newest first. -/
structure Tracks (l : List Byte) (h : Health) : Prop where
  noRun : h.run = none → l = []
  run : ∀ v n, h.run = some (v, n) → ∃ before, l = before ++ List.replicate n v ∧ before.getLast? ≠ some v ∧ 0 < n
  window : h.window.reverse = l.drop (1024 * (l.length / 1024))

theorem healthy_nil : Healthy [] :=
  ⟨fun b h => absurd h.length_le (by simp), fun k b => by simp⟩

theorem tracks_nil : Tracks [] {} :=
  ⟨fun _ => rfl, fun _ _ h => (nomatch h), rfl⟩

theorem Healthy.of_append {l r : List Byte} (h : Healthy (l ++ r)) : Healthy l :=
  ⟨fun b run => h.1 b (run.trans (List.prefix_append l r).isInfix),
    fun k b => (List.Sublist.count_le b (((List.prefix_append l r).drop _).take 1024).sublist).trans (h.2 k b)⟩

theorem replicate_suffix_run {before : List Byte} {v b : Byte} {k n : Nat} (apart : before.getLast? ≠ some b)
    (some_ : 0 < k) (run : 0 < n) : List.replicate k v <:+ before ++ List.replicate n b ↔ v = b ∧ k ≤ n := by
  constructor
  · intro suffix
    have same : v = b := by
      obtain ⟨front, eq⟩ := suffix
      have := congrArg List.getLast? eq
      simpa [List.getLast?_append, List.getLast?_replicate, show n ≠ 0 by omega, show k ≠ 0 by omega] using this
    refine ⟨same, le_of_not_gt fun longer => apart ?_⟩
    subst same
    have : List.replicate (n + 1) v <:+ before ++ List.replicate n v :=
      .trans ⟨List.replicate (k - (n + 1)) v, by rw [List.replicate_append_replicate]; congr 1; omega⟩ suffix
    obtain ⟨front, eq⟩ := this
    rw [List.replicate_succ, ← List.singleton_append, ← List.append_assoc] at eq
    rw [← List.append_cancel_right eq]
    simp
  · rintro ⟨rfl, shorter⟩
    exact .trans ⟨List.replicate (n - k) v, by rw [List.replicate_append_replicate]; congr 1; omega⟩ (List.suffix_append _ _)

/-- The length of the run that a sample ends. -/
def runWith (h : Health) (b : Byte) : Nat :=
  match h.run with
  | some (v, n) => if v = b then n + 1 else 1
  | none => 1

theorem testSample_eq (h : Health) (b : Byte) :
    testSample h b = ({ h with run := some (b, runWith h b)
                               window := if (b :: h.window).length < 1024 then b :: h.window else [] },
      if 32 ≤ runWith h b then some .repetition else if 400 < (b :: h.window).count b then some .proportion else none) := by
  have window : (if 1024 ≤ (b :: h.window).length then [] else b :: h.window)
      = if (b :: h.window).length < 1024 then b :: h.window else [] := by
    split_ifs <;> first | rfl | omega
  rw [← window]
  change (if 32 ≤ runWith h b then _ else if 400 < _ then _ else _) = _
  split_ifs <;> rfl

theorem testSample_passes {h : Health} {b : Byte} :
    (testSample h b).2 = none ↔ runWith h b < 32 ∧ (b :: h.window).count b ≤ 400 := by
  rw [testSample_eq]
  generalize (b :: h.window).count b = n
  split_ifs <;> simp <;> omega

theorem testSamples_cons (h : Health) (b : Byte) (rest : List Byte) :
    testSamples (b :: rest) h = if (testSample h b).2 = none then testSamples rest (testSample h b).1 else testSample h b := by
  rw [testSamples]
  split
  · next h' eq => rw [eq]; rfl
  · next h' test eq => rw [eq]; rfl

section Tracking

variable {l : List Byte} {h : Health} (tracks : Tracks l h) (b : Byte)
include tracks

theorem Tracks.runWith_spec : ∃ before, l ++ [b] = before ++ List.replicate (runWith h b) b ∧ before.getLast? ≠ some b
    ∧ 0 < runWith h b := by
  unfold runWith
  cases ran : h.run with
  | none => exact ⟨[], by simp [tracks.noRun ran], by simp, by simp⟩
  | some r =>
    obtain ⟨v, n⟩ := r
    obtain ⟨before, rfl, apart, some_⟩ := tracks.run v n ran
    by_cases same : v = b
    · subst same
      exact ⟨before, by simp [List.replicate_succ'], apart, by simp⟩
    · refine ⟨before ++ List.replicate n v, by simp [same], ?_, by simp [same]⟩
      simp [List.getLast?_append, List.getLast?_replicate, same, show n ≠ 0 by omega]

/-- The window begun holds the samples after the last whole one. -/
theorem Tracks.length_window : h.window.length = l.length % 1024 := by
  have := congrArg List.length tracks.window
  rw [List.length_reverse, List.length_drop] at this
  omega

theorem Tracks.healthy_concat (healthy : Healthy l) : Healthy (l ++ [b]) ↔ (testSample h b).2 = none := by
  obtain ⟨before, eq, apart, some_⟩ := tracks.runWith_spec b
  have runs : (∀ v, ¬ List.replicate 32 v <:+: l ++ [b]) ↔ runWith h b < 32 := by
    have each (v : Byte) : List.replicate 32 v <:+: l ++ [b] ↔ v = b ∧ 32 ≤ runWith h b := by
      rw [List.infix_concat_iff, or_iff_left (healthy.1 v), eq, replicate_suffix_run apart (by omega) some_]
    simp only [each, not_and, not_le]
    exact ⟨fun all => all b rfl, fun short v _ => short⟩
  have windows : (∀ k v, (((l ++ [b]).drop (1024 * k)).take 1024).count v ≤ 400) ↔ (b :: h.window).count b ≤ 400 := by
    have last : ((l ++ [b]).drop (1024 * (l.length / 1024))).take 1024 = h.window.reverse ++ [b] := by
      rw [List.drop_append_of_le_length (by omega), ← tracks.window, List.take_of_length_le]
      rw [List.length_append, List.length_reverse, tracks.length_window]
      have := Nat.mod_lt l.length (show 1024 > 0 by omega)
      exact this
    constructor
    · intro all
      have := all (l.length / 1024) b
      rwa [last, List.count_append, List.count_reverse, ← List.count_reverse (l := h.window), ← List.count_append,
        ← List.reverse_cons, List.count_reverse] at this
    · intro mine k v
      rcases lt_trichotomy k (l.length / 1024) with whole | rfl | beyond
      · rw [List.drop_append_of_le_length (by omega), List.take_append_of_le_length (by rw [List.length_drop]; omega)]
        exact healthy.2 k v
      · rw [last, ← List.reverse_cons, List.count_reverse]
        by_cases same : v = b
        · exact same ▸ mine
        · rw [List.count_cons_of_ne (Ne.symm same), ← List.count_reverse, tracks.window]
          have := healthy.2 (l.length / 1024) v
          rwa [List.take_of_length_le (by rw [List.length_drop]; omega)] at this
      · rw [List.drop_eq_nil_of_le (by rw [List.length_append, List.length_singleton]; omega)]
        simp
  rw [testSample_passes, ← runs, ← windows]
  exact Iff.rfl

theorem Tracks.concat : Tracks (l ++ [b]) (testSample h b).1 := by
  rw [testSample_eq]
  refine ⟨fun none => (nomatch none), ?_, ?_⟩
  · intro v n ran
    obtain ⟨rfl, rfl⟩ : b = v ∧ runWith h b = n := by simpa using ran
    exact tracks.runWith_spec b
  · have long := tracks.length_window
    dsimp only
    rw [List.length_cons, long, List.length_append, List.length_singleton]
    split_ifs with short
    · rw [List.reverse_cons, tracks.window, show (l.length + 1) / 1024 = l.length / 1024 by omega,
        List.drop_append_of_le_length (by omega)]
    · rw [show 1024 * ((l.length + 1) / 1024) = l.length + 1 by omega,
        List.drop_eq_nil_of_le (by rw [List.length_append, List.length_singleton])]
      rfl

end Tracking

/-- Samples pass exactly where all that was sampled so far stays healthy, and the tests keep track of it. -/
theorem testSamples_healthy {past : List Byte} {h : Health} (samples : List Byte) (tracks : Tracks past h) (healthy : Healthy past) :
    ((testSamples samples h).2 = none ↔ Healthy (past ++ samples))
      ∧ ((testSamples samples h).2 = none → Tracks (past ++ samples) (testSamples samples h).1) := by
  induction samples generalizing past h with
  | nil => rw [List.append_nil]; exact ⟨⟨fun _ => healthy, fun _ => rfl⟩, fun _ => tracks⟩
  | cons b rest ih =>
    rw [testSamples_cons, show past ++ b :: rest = past ++ [b] ++ rest by simp]
    have one := tracks.healthy_concat b healthy
    split_ifs with passes
    · exact ih (tracks.concat b) (one.mpr passes)
    · exact ⟨⟨fun none => absurd none passes, fun all => absurd (one.mp all.of_append) passes⟩, fun none => absurd none passes⟩

/-! ### A draw (R140) -/

theorem testSamples_last (samples : List Byte) (h : Health) : (testSamples samples h).1.last = h.last := by
  induction samples generalizing h with
  | nil => rfl
  | cons b rest ih =>
    rw [testSamples_cons]
    split_ifs
    · rw [ih, testSample_eq]
    · rw [testSample_eq]

theorem testNoise_failed {samples : List Byte} {h : Health} {test : HealthTest} (failed : (testSamples samples h).2 = some test)
    (output : List Digest) : testNoise samples output h = ((testSamples samples h).1, some test) := by
  unfold testNoise
  split
  · next h' f eq => rw [eq] at failed ⊢; exact congrArg _ failed
  · next h' eq => rw [eq] at failed; cases failed

theorem testNoise_passed {samples : List Byte} {h : Health} (passed : (testSamples samples h).2 = none) (output : List Digest) :
    testNoise samples output h = testOutput output (testSamples samples h).1 := by
  unfold testNoise
  split
  · next h' f eq => rw [eq] at passed; cases passed
  · next h' eq => rw [eq]

theorem testOutput_repeats {h : Health} {d : Digest} (same : h.last = some d) (rest : List Digest) :
    testOutput (d :: rest) h = (h, some .output) := if_pos same

theorem testOutput_differs {h : Health} {d : Digest} (differs : h.last ≠ some d) (rest : List Digest) :
    testOutput (d :: rest) h = testOutput rest { h with last := some d } := if_neg differs

/-- What the noise source delivers to the next draw. -/
def nextNoise (s : State) : Noise :=
  match s.noise with
  | n :: _ => n
  | [] => Config.freeNoise s.noiseTaken

/-- The part after the source delivered it, with the health tests as given. -/
def noiseUsed (s : State) (h : Health) : State :=
  let used : State := match s.noise with
    | _ :: rest => { s with noise := rest }
    | [] => { s with noiseTaken := s.noiseTaken + 1 }
  { used with bc := { s.bc with health := h } }

theorem takeNoise_health (s : State) (h : Health) : (takeNoise s).1 = nextNoise s
    ∧ { (takeNoise s).2 with bc := { (takeNoise s).2.bc with health := h } } = noiseUsed s h
    ∧ (takeNoise s).2.bc.health = s.bc.health := by
  unfold takeNoise nextNoise noiseUsed
  cases s.noise <;> exact ⟨rfl, rfl, rfl⟩

/-- What a draw hands on: the output, or the test that failed. -/
def drawn {α : Type} (output : α) : Option HealthTest → Except HealthTest α
  | some f => .error f
  | none => .ok output

theorem draw32_eq (s : State) : draw32 s =
    (drawn (nextNoise s).output
      (testNoise (nextNoise s).samples [firstHalf (nextNoise s).output, secondHalf (nextNoise s).output] s.bc.health).2,
     noiseUsed s (testNoise (nextNoise s).samples
      [firstHalf (nextNoise s).output, secondHalf (nextNoise s).output] s.bc.health).1) := by
  unfold draw32
  obtain ⟨noise, used, health⟩ := takeNoise_health s _
  dsimp only
  rw [noise, health, used]
  generalize (testNoise _ _ _).2 = failure
  cases failure <;> rfl

theorem draw16_eq (s : State) : draw16 s =
    (drawn (firstHalf (nextNoise s).output)
      (testNoise (nextNoise s).samples [firstHalf (nextNoise s).output] s.bc.health).2,
     noiseUsed s (testNoise (nextNoise s).samples [firstHalf (nextNoise s).output] s.bc.health).1) := by
  unfold draw16
  obtain ⟨noise, used, health⟩ := takeNoise_health s _
  dsimp only
  rw [noise, health, used]
  generalize (testNoise _ _ _).2 = failure
  cases failure <;> rfl

/-- The answers of both draws, by the outcome of the tests. -/
theorem draw_cases (s : State) :
    let sampled := testSamples (nextNoise s).samples s.bc.health
    let first := firstHalf (nextNoise s).output
    let second := secondHalf (nextNoise s).output
    (∀ test, sampled.2 = some test →
        draw32 s = (.error test, noiseUsed s sampled.1) ∧ draw16 s = (.error test, noiseUsed s sampled.1))
      ∧ (sampled.2 = none →
        (s.bc.health.last = some first →
          draw32 s = (.error .output, noiseUsed s sampled.1) ∧ draw16 s = (.error .output, noiseUsed s sampled.1))
        ∧ (s.bc.health.last ≠ some first →
          draw16 s = (.ok first, noiseUsed s { sampled.1 with last := some first })
          ∧ (second = first → draw32 s = (.error .output, noiseUsed s { sampled.1 with last := some first }))
          ∧ (second ≠ first → draw32 s = (.ok (nextNoise s).output, noiseUsed s { sampled.1 with last := some second })))) := by
  intro sampled first second
  have kept : sampled.1.last = s.bc.health.last := testSamples_last _ _
  refine ⟨fun test failed => ?_, fun passed => ⟨fun same => ?_, fun differs => ⟨?_, fun twice => ?_, fun differ => ?_⟩⟩⟩
  · rw [draw32_eq, draw16_eq, testNoise_failed failed, testNoise_failed failed]
    exact ⟨rfl, rfl⟩
  · rw [draw32_eq, draw16_eq, testNoise_passed passed, testNoise_passed passed, testOutput_repeats (kept.trans same),
      testOutput_repeats (kept.trans same)]
    exact ⟨rfl, rfl⟩
  · rw [draw16_eq, testNoise_passed passed, testOutput_differs (fun same => differs (kept.symm.trans same))] <;> rfl
  · rw [draw32_eq, testNoise_passed passed, testOutput_differs (fun same => differs (kept.symm.trans same)),
      testOutput_repeats (congrArg some twice.symm)] <;> rfl
  · rw [draw32_eq, testNoise_passed passed, testOutput_differs (fun same => differs (kept.symm.trans same)),
      testOutput_differs (fun same => differ (Option.some.inj same).symm)] <;> rfl

/-! ### JOB_OPEN -/

theorem slotOf_val (i : Fin 64) : slotOf i.val = i := Fin.ext (Nat.mod_eq_of_lt i.isLt)

theorem lowestFree_of_lowest {jt : JobTable} {i : Fin 64} (free : (jt.slots.get i).job = none)
    (lower : ∀ n : Fin 64, n < i → (jt.slots.get n).job.isSome = true) : lowestFree jt = some i := by
  have found : (List.range Config.jobSlots).find? (fun n => (jt.slots.get (slotOf n)).job.isNone) = some i.val := by
    rw [List.find?_range_eq_some]
    refine ⟨by rw [slotOf_val, free]; rfl, List.mem_range.mpr i.isLt, fun n below => ?_⟩
    have : n < 64 := below.trans i.isLt
    have taken := lower ⟨n, this⟩ below
    rw [show slotOf n = ⟨n, this⟩ from Fin.ext (Nat.mod_eq_of_lt this), Bool.not_eq_true', Option.isNone_eq_false_iff, taken]
  rw [lowestFree, found]
  exact congrArg some (slotOf_val i)

theorem lowestFree_of_full {jt : JobTable} (full : ∀ n : Fin 64, (jt.slots.get n).job.isSome = true) : lowestFree jt = none := by
  rw [lowestFree, Option.map_eq_none_iff, List.find?_eq_none]
  intro n _
  rw [Bool.not_eq_true, Option.isNone_eq_false_iff]
  exact full _

section Open

variable {kind owner privacy media sides copies : Nat} {k : JobKind} {priv duplex : Bool} {a : Account} {i : Fin 64} {s t : State}
  (fields : jobOpenFields kind owner privacy media sides copies = some (k, priv, duplex))
  (known : findAccount owner s.accounts = some a) (standing : a.standing ≠ .suspended) (idle : s.se.sanitize = none)
  (free : lowestFree s.jt = some i)
include fields known standing idle free

theorem jobOpen_opens {key : Key} (drawn : draw32 s = (.ok key, t)) :
    jobOpen kind owner privacy media sides copies s =
      { status := .ok, payload := .handle (handleOf s.jt i)
        state := fillSlot i (newJob (handleOf s.jt i) owner media copies k priv duplex) key t } := by
  simp only [jobOpen, fields, known, if_neg standing, idle, Option.isSome_none, Bool.false_eq_true, if_false, free, drawn]

theorem jobOpen_halts {test : HealthTest} (drawn : draw32 s = (.error test, t)) :
    jobOpen kind owner privacy media sides copies s = refuse .halted (haltPart (.randomSource test .jobKey) t) := by
  simp only [jobOpen, fields, known, if_neg standing, idle, Option.isSome_none, Bool.false_eq_true, if_false, free, drawn]

end Open

theorem jobOpenFillsSlot_answers (tag : Byte) (kind owner privacy media sides copies : Nat) (k : JobKind) (priv duplex : Bool)
    (a : Account) (i : Fin 64) (s : State) (serving : Serving s)
    (fields : jobOpenFields kind owner privacy media sides copies = some (k, priv, duplex))
    (known : findAccount owner s.accounts = some a) (standing : a.standing ≠ .suspended) (idle : s.se.sanitize = none)
    (free : lowestFree s.jt = some i) :
    (∀ key t, draw32 s = (.ok key, t) → exec (.jobOpen tag kind owner privacy media sides copies) s =
        .next (answered .jobOpen tag .ok (.handle (handleOf s.jt i))
          (fillSlot i (newJob (handleOf s.jt i) owner media copies k priv duplex) key t)))
      ∧ (∀ test t, draw32 s = (.error test, t) → exec (.jobOpen tag kind owner privacy media sides copies) s =
        .next (answered .jobOpen tag .halted .empty (haltPart (.randomSource test .jobKey) t))) :=
  ⟨fun _ _ drawn => next_request_of_answer serving (jobOpen_opens fields known standing idle free drawn),
    fun _ _ drawn => next_request_of_answer serving (jobOpen_halts fields known standing idle free drawn)⟩

/-- Settles O22: the open job, the health tests by what they track, and the draws. -/
theorem jobOpenFillsSlot : Obligations.JobOpenFillsSlot := by
  refine ⟨fun tag kind owner privacy media sides copies k priv duplex a i s serving fields known standing idle free lower => ?_,
    fun b rest h => ⟨testSample_eq h b, rfl, testSamples_cons h b rest⟩, fun past samples passed => ?_, fun s => ?_⟩
  · exact jobOpenFillsSlot_answers tag kind owner privacy media sides copies k priv duplex a i s serving fields known standing idle
      (lowestFree_of_lowest free lower)
  · obtain ⟨healthy, tracks⟩ := testSamples_healthy past tracks_nil healthy_nil
    exact (testSamples_healthy samples (tracks passed) (healthy.mp passed)).1
  · exact draw_cases s

end Sys2Proof.Machine

/-! PROOFS. O23 to O25: the job requests. -/

namespace Sys2Proof.Machine

open Host (Outcome)

/-- A request served at once, whose answer is given by its parts. -/
theorem next_request {s t : State} (serving : Serving s) {k : RequestKind} {tag : Byte} {owner : State → Answer}
    {status : Status} {payload : Payload} (answer : owner s = { status := status, payload := payload, state := t }) :
    (.next (request k tag owner s) : Outcome State Fault Refusal) = .next (answered k tag status payload t) :=
  next_request_of_answer serving answer

/-! ### JOB_OPEN's refusals (R2) -/

theorem kindField_isSome {n : Nat} : (kindField n).isSome = true ↔ n ≤ 2 := by
  unfold kindField
  split_ifs <;> simp <;> omega

theorem kindField_scanOut {n : Nat} : kindField n = some .scanOut ↔ n = 2 := by
  unfold kindField
  split_ifs <;> simp <;> omega

theorem yesNo_true {n : Nat} : yesNo n = some true ↔ n = 1 := by
  unfold yesNo
  split_ifs <;> simp <;> omega

section OpenFields

variable {kind owner privacy media sides copies : Nat}

/-- The ranges of the fields of JOB_OPEN. -/
theorem jobOpenFields_isSome : (jobOpenFields kind owner privacy media sides copies).isSome = true ↔
    kind ≤ 2 ∧ privacy ≤ 1 ∧ sides ≤ 1 ∧ 1 ≤ owner ∧ owner ≤ 65535 ∧ media ≤ 15 ∧ 1 ≤ copies ∧ copies ≤ 999
      ∧ (kind = 2 → privacy = 1 ∧ copies = 1) := by
  unfold jobOpenFields
  split
  · next k priv duplex isKind isPrivacy isSides =>
    have kinds : kind ≤ 2 := kindField_isSome.mp (by rw [isKind]; rfl)
    have privacies : privacy ≤ 1 := yesNo_isSome.mp (by rw [isPrivacy]; rfl)
    have duplexes : sides ≤ 1 := yesNo_isSome.mp (by rw [isSides]; rfl)
    have scan : k = .scanOut ↔ kind = 2 := by rw [← kindField_scanOut, isKind, Option.some.injEq]
    have priv_ : priv = true ↔ privacy = 1 := by rw [← yesNo_true, isPrivacy, Option.some.injEq]
    by_cases ranges : owner = 0 ∨ 65535 < owner ∨ 15 < media ∨ copies = 0 ∨ 999 < copies
    · rw [if_pos (by simpa [or_assoc] using ranges)]
      simp only [Option.isSome_none, Bool.false_eq_true, false_iff]
      omega
    · rw [if_neg (by simpa [or_assoc] using ranges)]
      simp only [Bool.and_eq_true, decide_eq_true_eq, Bool.or_eq_true, Bool.not_eq_true', bne_iff_ne, scan,
        ← Bool.not_eq_true priv, priv_]
      split_ifs with wrong
      · simp only [Option.isSome_none, Bool.false_eq_true, false_iff]
        omega
      · simp only [Option.isSome_some, true_iff]
        omega
  · next unnamed =>
    simp only [Option.isSome_none, Bool.false_eq_true, false_iff]
    rintro ⟨kinds, privacies, duplexes, _⟩
    obtain ⟨k, isKind⟩ := Option.isSome_iff_exists.mp (kindField_isSome.mpr kinds)
    obtain ⟨priv, isPrivacy⟩ := Option.isSome_iff_exists.mp (yesNo_isSome.mpr privacies)
    obtain ⟨duplex, isSides⟩ := Option.isSome_iff_exists.mp (yesNo_isSome.mpr duplexes)
    exact unnamed k priv duplex isKind isPrivacy isSides

variable {s : State} {a : Account}

theorem jobOpen_badField (h : jobOpenFields kind owner privacy media sides copies = none) :
    jobOpen kind owner privacy media sides copies s = refuse .badField s := by
  simp only [jobOpen, h]

variable (fields : (jobOpenFields kind owner privacy media sides copies).isSome = true)
include fields

theorem jobOpen_noAccount (unknown : findAccount owner s.accounts = none) :
    jobOpen kind owner privacy media sides copies s = refuse .noAccount s := by
  obtain ⟨f, fields⟩ := Option.isSome_iff_exists.mp fields
  simp only [jobOpen, fields, unknown]

variable (known : findAccount owner s.accounts = some a)
include known

theorem jobOpen_wrongState (suspended : a.standing = .suspended) :
    jobOpen kind owner privacy media sides copies s = refuse .wrongState s := by
  obtain ⟨f, fields⟩ := Option.isSome_iff_exists.mp fields
  simp only [jobOpen, fields, known, if_pos suspended]

theorem jobOpen_busy (standing : a.standing ≠ .suspended) (sanitizing : s.se.sanitize.isSome = true) :
    jobOpen kind owner privacy media sides copies s = refuse .busy s := by
  obtain ⟨f, fields⟩ := Option.isSome_iff_exists.mp fields
  simp only [jobOpen, fields, known, if_neg standing, if_pos sanitizing]

theorem jobOpen_full (standing : a.standing ≠ .suspended) (idle : s.se.sanitize = none)
    (full : ∀ n : Fin 64, (s.jt.slots.get n).job.isSome = true) :
    jobOpen kind owner privacy media sides copies s = refuse .full s := by
  obtain ⟨f, fields⟩ := Option.isSome_iff_exists.mp fields
  simp only [jobOpen, fields, known, if_neg standing, idle, Option.isSome_none, Bool.false_eq_true, if_false,
    lowestFree_of_full full]

end OpenFields

/-! ### Requests on a job, by its state -/

section OnJob

variable {j : Job} {s : State}

theorem releaseJob_badField {pin : List Byte} (bad : validPin pin = false) : releaseJob pin j s = refuse .badField s := by
  simp only [releaseJob, bad, Bool.not_false, if_true]

theorem isHeld_iff : isHeld j = true ↔ ∃ deadline, j.state = .held deadline := by
  unfold isHeld
  cases state : j.state <;> simp

theorem releaseJob_wrongState {pin : List Byte} (good : validPin pin = true) (notHeld : ∀ deadline, j.state ≠ .held deadline) :
    releaseJob pin j s = refuse .wrongState s := by
  have : isHeld j = false := by rw [Bool.eq_false_iff, Ne, isHeld_iff]; exact fun ⟨d, held⟩ => notHeld d held
  simp only [releaseJob, good, this, Bool.not_true, Bool.not_false, Bool.false_eq_true, if_false, if_true]

theorem pauseJob_fixed (fixed : j.state = .intake ∨ (∃ d, j.state = .held d) ∨ (∃ r, j.state = .draining r)
    ∨ (∃ o, j.state = .scrub o) ∨ (∃ rank time order, j.state = .stalled (.jam rank) time order)
    ∨ ∃ time order, j.state = .stalled .image time order) :
    pauseJob j s = refuse .wrongState s ∧ resumeJob j s = refuse .wrongState s := by
  obtain state | ⟨d, state⟩ | ⟨r, state⟩ | ⟨o, state⟩ | ⟨rank, time, order, state⟩ | ⟨time, order, state⟩ := fixed <;>
    simp [pauseJob, resumeJob, state, resumable]

theorem resumeJob_placed (placed : j.state = .queued ∨ j.state = .active) : resumeJob j s = refuse .wrongState s := by
  obtain state | state := placed <;> simp only [resumeJob, state]

theorem cancelJob_scrub (scrub : ∃ o, j.state = .scrub o) : cancelJob j s = refuse .wrongState s := by
  obtain ⟨o, state⟩ := scrub
  simp only [cancelJob, state]

theorem skippable_iff : skippable j = true ↔ (∃ d, j.state = .held d) ∨ j.state = .queued
    ∨ ∃ cause time order, j.state = .stalled cause time order := by
  unfold skippable
  cases state : j.state <;> simp

theorem skipOnJob_wrongState {page : Nat} (state : j.state = .intake ∨ j.state = .active ∨ (∃ r, j.state = .draining r)
    ∨ ∃ o, j.state = .scrub o) : skipOnJob page j s = refuse .wrongState s := by
  have : skippable j = false := by
    unfold skippable
    obtain state | state | ⟨r, state⟩ | ⟨o, state⟩ := state <;> rw [state]
  simp only [skipOnJob, this, Bool.not_false, if_true]

end OnJob

/-- Settles O23: each refusal by its test. -/
theorem jobRefusals : Obligations.JobRefusals := by
  refine ⟨fun tag kind owner privacy media sides copies s serving => ⟨fun wrong => ?_,
    fun kinds privacies duplexes low high medias some_ most scan => ?_⟩, fun tag handle page pin s serving => ⟨fun unknown => ?_, fun j found => ?_⟩⟩
  · refine next_request_of_answer serving (jobOpen_badField ?_)
    rw [← Option.not_isSome_iff_eq_none, jobOpenFields_isSome]
    omega
  · have fields := jobOpenFields_isSome.mpr ⟨kinds, privacies, duplexes, low, high, medias, some_, most, scan⟩
    exact ⟨fun unknown => next_request_of_answer serving (jobOpen_noAccount fields unknown), fun a known =>
      ⟨fun suspended => next_request_of_answer serving (jobOpen_wrongState fields known suspended),
        fun standing busy => next_request_of_answer serving (jobOpen_busy fields known standing busy),
        fun standing idle full => next_request_of_answer serving (jobOpen_full fields known standing idle full)⟩⟩
  · exact ⟨next_request serving (onJob_none unknown _), next_request serving (onJob_none unknown _),
      next_request serving (onJob_none unknown _), next_request serving (onJob_none unknown _),
      next_request serving (onJob_none unknown _)⟩
  · refine ⟨fun bad => ?_, fun good notHeld => ?_, fun scrub => ?_, fun fixed => ⟨?_, ?_⟩, fun placed => ?_, fun state => ?_⟩
    · exact next_request serving ((onJob_some found _).trans (releaseJob_badField bad))
    · exact next_request serving ((onJob_some found _).trans (releaseJob_wrongState good notHeld))
    · exact next_request serving ((onJob_some found _).trans (cancelJob_scrub scrub))
    · exact next_request serving ((onJob_some found _).trans (pauseJob_fixed fixed).1)
    · exact next_request serving ((onJob_some found _).trans (pauseJob_fixed fixed).2)
    · exact next_request serving ((onJob_some found _).trans (resumeJob_placed placed))
    · exact next_request serving ((onJob_some found _).trans (skipOnJob_wrongState state))

/-! ### JOB_RELEASE of a HELD job (R18, R41) -/

section Release

variable {j : Job} {a : Account} {pin : List Byte} {deadline : Nat} {s : State} (good : validPin pin = true)
  (held : j.state = .held deadline) (known : findAccount j.owner s.accounts = some a)
include good held known

theorem releaseJob_suspended (standing : a.standing = .suspended) : releaseJob pin j s = refuse .wrongState s := by
  simp only [releaseJob, good, isHeld_iff.mpr ⟨deadline, held⟩, known, standing, Bool.not_true, Bool.false_eq_true, if_false]

theorem releaseJob_lockedOut {ends : Nat} (standing : a.standing = .lockedOut ends) :
    releaseJob pin j s = refuse .lockedOut s := by
  simp only [releaseJob, good, isHeld_iff.mpr ⟨deadline, held⟩, known, standing, Bool.not_true, Bool.false_eq_true, if_false]

theorem releaseJob_noPin (standing : a.standing = .active) (none : a.pinCheck = none) :
    releaseJob pin j s = refuse .noPin s := by
  simp only [releaseJob, good, isHeld_iff.mpr ⟨deadline, held⟩, known, standing, none, Bool.not_true, Bool.false_eq_true, if_false]

theorem releaseJob_compares {check : Digest} (standing : a.standing = .active) (has : a.pinCheck = some check) :
    releaseJob pin j s = releaseWithPin a check pin j s := by
  simp only [releaseJob, good, isHeld_iff.mpr ⟨deadline, held⟩, known, standing, has, Bool.not_true, Bool.false_eq_true, if_false]

end Release

theorem hasColourPage_iff {j : Job} : hasColourPage j = true ↔ ∃ p ∈ j.pages, p.cls = some .colour := by
  simp [hasColourPage]

section ReleaseWithPin

variable {a : Account} {check : Digest} {pin : List Byte} {j : Job} {s : State}

theorem releaseWithPin_mismatch (differs : pinValue s pin ≠ check) : releaseWithPin a check pin j s =
    refuse .pinWrong (updateAccount a.id (pinFailed (nowSeconds s) s.settings.limits.lockoutTime) s) := if_pos differs

theorem releaseWithPin_noColour (same : pinValue s pin = check) (colour : hasColourPage j = true) (right : a.colourRight = false) :
    releaseWithPin a check pin j s = refuse .noColourRight (updateAccount a.id (fun b => { b with pinFailures := 0 }) s) := by
  simp only [releaseWithPin, same, ne_eq, not_true_eq_false, if_false, colour, right, Bool.not_false, Bool.and_self, if_true]

theorem releaseWithPin_queues (same : pinValue s pin = check) (may : hasColourPage j = false ∨ a.colourRight = true) :
    releaseWithPin a check pin j s =
      { status := .ok, state := settle (queueTail j (updateAccount a.id (fun b => { b with pinFailures := 0 }) s)) } := by
  have : (hasColourPage j && !a.colourRight) = false := by
    obtain may | may := may <;> simp [may]
  simp only [releaseWithPin, same, ne_eq, not_true_eq_false, if_false, this, Bool.false_eq_true]

end ReleaseWithPin

/-- Settles O24: the standing, the PIN's presence, the comparison. -/
theorem jobReleaseComparesPin : Obligations.JobReleaseComparesPin := by
  refine ⟨fun tag handle deadline pin j a s serving found good held known => ?_, fun now minutes a active few => ⟨fun below => ?_, fun last => ?_⟩⟩
  · have rule := onJob_some found (releaseJob pin)
    refine ⟨fun suspended => ?_, fun ⟨ends, locked⟩ => ?_, fun active noPin => ?_, fun active check hasPin =>
      ⟨fun differs => ?_, fun same colour right => ?_, fun same may => ?_⟩⟩
    · exact next_request serving (rule.trans (releaseJob_suspended good held known suspended))
    · exact next_request serving (rule.trans (releaseJob_lockedOut good held known locked))
    · exact next_request serving (rule.trans (releaseJob_noPin good held known active noPin))
    all_goals have compares := rule.trans (releaseJob_compares good held known active hasPin)
    · exact next_request serving (compares.trans (releaseWithPin_mismatch differs))
    · exact next_request serving (compares.trans (releaseWithPin_noColour same (hasColourPage_iff.mpr colour) right))
    · refine next_request serving (compares.trans (releaseWithPin_queues same (may.imp_left fun none => ?_)))
      rw [Bool.eq_false_iff, Ne, hasColourPage_iff]
      exact fun ⟨p, mem, colour⟩ => none p mem colour
  · exact if_neg (by omega)
  · exact if_pos (by omega)

/-! ### JOB_CANCEL, JOB_PAUSE and JOB_RESUME (R14 to R16) -/

section Sending

variable {j : Job} {s : State}

theorem isSending_none (not : (∀ b, s.jt.exportPhase ≠ .sending b) ∨ s.jt.exporter.active ≠ some j.handle) :
    isSending j s = none := by
  unfold isSending
  split
  · next b sending => exact if_neg (not.resolve_left fun none => none b sending)
  · rfl

theorem isSending_some {b : ExportBand} (sending : s.jt.exportPhase = .sending b) (active : s.jt.exporter.active = some j.handle) :
    isSending j s = some b := by
  unfold isSending
  rw [sending]
  exact if_pos active

theorem cancelJob_placed (placed : j.state = .queued ∨ (∃ cause time order, j.state = .stalled cause time order)
    ∨ (j.state = .active ∧ ((∀ b, s.jt.exportPhase ≠ .sending b) ∨ s.jt.exporter.active ≠ some j.handle))) :
    cancelJob j s = { status := .ok, state := cancelPlaced j s } := by
  obtain state | ⟨cause, time, order, state⟩ | ⟨state, not⟩ := placed
  · simp only [cancelJob, state]
  · simp only [cancelJob, state]
  · simp only [cancelJob, state, isSending_none not]

end Sending

theorem cancel_actions (tag : Byte) (handle : Nat) (j : Job) (s : State) (serving : Serving s) (found : jobOf s.jt handle = some j) :
    ((j.state = .intake ∨ ∃ deadline, j.state = .held deadline) →
      exec (.jobCancel tag handle) s = .next (answered .jobCancel tag .ok .empty (settle (closeJob .cancelled j.handle s))))
      ∧ ((j.state = .queued ∨ (∃ cause time order, j.state = .stalled cause time order)
          ∨ (j.state = .active ∧ ((∀ b, s.jt.exportPhase ≠ .sending b) ∨ s.jt.exporter.active ≠ some j.handle))) →
        (j.inFlight = 0 → exec (.jobCancel tag handle) s =
          .next (answered .jobCancel tag .ok .empty (settle (closeJob .cancelled j.handle s))))
        ∧ (j.inFlight ≠ 0 → exec (.jobCancel tag handle) s = .next (answered .jobCancel tag .ok .empty
            (settle (moveJob { j with state := .draining .cancel } (leavePlace j s))))))
      ∧ (j.state = .active → ∀ b, s.jt.exportPhase = .sending b → s.jt.exporter.active = some j.handle →
          exec (.jobCancel tag handle) s = .next (answered .jobCancel tag .ok .empty
            { s with jt := { s.jt with exportPhase := .sending { b with cancelling := true } } }))
      ∧ (j.state = .draining .ends → exec (.jobCancel tag handle) s =
          .next (answered .jobCancel tag .ok .empty (moveJob { j with state := .draining .cancel } s)))
      ∧ (j.state = .draining .cancel → exec (.jobCancel tag handle) s = .next (answered .jobCancel tag .ok .empty s))
      ∧ ((∃ outcome, j.state = .scrub outcome) →
          exec (.jobCancel tag handle) s = .next (answered .jobCancel tag .wrongState .empty s)) := by
  have rule := onJob_some found cancelJob
  refine ⟨fun state => ?_, fun placed => ⟨fun none => ?_, fun some_ => ?_⟩, fun state b sending active => ?_, fun state => ?_,
    fun state => ?_, fun scrub => ?_⟩
  · obtain state | ⟨deadline, state⟩ := state <;>
      exact next_request serving (rule.trans (by simp only [cancelJob, state]))
  · exact next_request serving (rule.trans ((cancelJob_placed placed).trans (by rw [cancelPlaced, if_pos none])))
  · exact next_request serving (rule.trans ((cancelJob_placed placed).trans (by rw [cancelPlaced, if_neg some_])))
  · exact next_request serving (rule.trans (by simp only [cancelJob, state, isSending_some sending active]))
  · exact next_request serving (rule.trans (by simp only [cancelJob, state]))
  · exact next_request serving (rule.trans (by simp only [cancelJob, state]))
  · exact next_request serving (rule.trans (cancelJob_scrub scrub))

theorem pause_actions (tag : Byte) (handle : Nat) (j : Job) (s : State) (serving : Serving s) (found : jobOf s.jt handle = some j) :
    (j.state = .queued → exec (.jobPause tag handle) s =
        .next (answered .jobPause tag .ok .empty (stallJob .paused j (unqueue j s))))
      ∧ (j.state = .active → ((∀ b, s.jt.exportPhase ≠ .sending b) ∨ s.jt.exporter.active ≠ some j.handle) →
          exec (.jobPause tag handle) s =
            .next (answered .jobPause tag .ok .empty (settle (stallJob .paused j (leaveActive j s)))))
      ∧ (j.state = .active → ∀ b, s.jt.exportPhase = .sending b → s.jt.exporter.active = some j.handle →
          exec (.jobPause tag handle) s = .next (answered .jobPause tag .ok .empty
            { s with jt := { s.jt with exportPhase := .sending { b with pausing := true } } }))
      ∧ (∀ cause time order, j.state = .stalled cause time order → (cause = .credit ∨ cause = .supply ∨ cause = .account) →
          exec (.jobPause tag handle) s = .next (answered .jobPause tag .ok .empty (stallJob .paused j s)))
      ∧ (∀ time order, j.state = .stalled .paused time order →
          exec (.jobPause tag handle) s = .next (answered .jobPause tag .ok .empty s)) := by
  have rule := onJob_some found pauseJob
  refine ⟨fun state => ?_, fun state not => ?_, fun state b sending active => ?_, fun cause time order state resumes => ?_,
    fun time order state => ?_⟩
  · exact next_request serving (rule.trans (by simp only [pauseJob, leavePlace, state]))
  · exact next_request serving (rule.trans (by simp only [pauseJob, leavePlace, state, isSending_none not]))
  · exact next_request serving (rule.trans (by simp only [pauseJob, state, isSending_some sending active]))
  · have : cause ≠ .paused ∧ resumable cause = true := by obtain rfl | rfl | rfl := resumes <;> decide
    exact next_request serving (rule.trans (by simp only [pauseJob, state, if_neg this.1, this.2, if_true]))
  · exact next_request serving (rule.trans (by simp only [pauseJob, state, if_true]))

theorem resumeJob_stalled {j : Job} {s : State} {cause : StallCause} {time order : Nat} (state : j.state = .stalled cause time order)
    (resumes : cause = .paused ∨ cause = .credit ∨ cause = .supply ∨ cause = .account) :
    resumeJob j s = { status := .ok, state := settle (queueTail j s) } := by
  have : (decide (cause = .paused) || resumable cause) = true := by obtain rfl | rfl | rfl | rfl := resumes <;> decide
  simp only [resumeJob, state, this, if_true]

/-! ### JOB_SKIP_PAGE (R17) -/

theorem stalledWith_iff {cause : StallCause} {j : Job} : stalledWith cause j = true ↔ ∃ time order, j.state = .stalled cause time order := by
  unfold stalledWith
  cases state : j.state <;> simp

theorem pageEntry_of_index {j : Job} {page : Nat} {p : PageEntry} (low : 1 ≤ page) (at_ : j.pages[page - 1]? = some p) :
    pageEntry j page = some p := by
  rw [pageEntry, if_neg (by omega), at_]

theorem pageEntry_none {j : Job} {page : Nat} (out : page = 0 ∨ j.pages.length < page) : pageEntry j page = none := by
  unfold pageEntry
  split_ifs with zero
  · rfl
  · exact List.getElem?_eq_none (by omega)

theorem skipPage_eq {j : Job} {page : Nat} {p : PageEntry} (at_ : j.pages[page - 1]? = some p) :
    skipPage page j = { j with pages := j.pages.set (page - 1) { p with skipped := true } } := by
  rw [skipPage, List.modify_eq_set_getElem?, at_]
  rfl

theorem skip_actions (tag : Byte) (handle page : Nat) (j : Job) (s : State) (serving : Serving s)
    (found : jobOf s.jt handle = some j) (may : (∃ deadline, j.state = .held deadline) ∨ j.state = .queued
      ∨ ∃ cause time order, j.state = .stalled cause time order) :
    ((page = 0 ∨ j.pages.length < page) →
        exec (.jobSkipPage tag handle page) s = .next (answered .jobSkipPage tag .badField .empty s))
      ∧ ∀ p, 1 ≤ page → j.pages[page - 1]? = some p →
        let flagged : Job := { j with pages := j.pages.set (page - 1) { p with skipped := true } }
        (p.skipped = true →
          exec (.jobSkipPage tag handle page) s = .next (answered .jobSkipPage tag .ok .empty s))
        ∧ (p.skipped = false → (∀ time order, j.state ≠ .stalled .image time order) →
          exec (.jobSkipPage tag handle page) s = .next (answered .jobSkipPage tag .ok .empty (setJob flagged s)))
        ∧ (p.skipped = false → (∃ time order, j.state = .stalled .image time order) →
          exec (.jobSkipPage tag handle page) s = .next (answered .jobSkipPage tag .ok .empty
            (settle (queueHead flagged s)))) := by
  have rule := onJob_some found (skipOnJob page)
  have skips : skippable j = true := skippable_iff.mpr may
  refine ⟨fun out => ?_, fun p low at_ => ?_⟩
  · exact next_request serving (rule.trans (by simp [skipOnJob, skips, pageEntry_none out, refuse]))
  · have entry := pageEntry_of_index low at_
    refine ⟨fun already => ?_, fun fresh other => ?_, fun fresh ⟨time, order, image⟩ => ?_⟩
    · exact next_request serving (rule.trans (by simp [skipOnJob, skips, entry, already]))
    · have : stalledWith .image j = false := by
        rw [Bool.eq_false_iff, Ne, stalledWith_iff]
        exact fun ⟨time, order, state⟩ => other time order state
      exact next_request serving (rule.trans (by simp [skipOnJob, skips, entry, fresh, this, skipPage_eq at_]))
    · have : stalledWith .image j = true := stalledWith_iff.mpr ⟨time, order, image⟩
      exact next_request serving (rule.trans (by simp [skipOnJob, skips, entry, fresh, this, skipPage_eq at_]))

/-! ### Jobs returned to the tail of their queue (R11) -/

/-- Stall times ascend, and the order of the stalls within one. -/
def StallBefore (a b : Job) : Prop :=
  (stallKey a).1 < (stallKey b).1 ∨ ((stallKey a).1 = (stallKey b).1 ∧ (stallKey a).2 ≤ (stallKey b).2)

theorem insertByStall_sorted (j : Job) {l : List Job} (sorted : l.Pairwise StallBefore) :
    (insertByStall j l).Pairwise StallBefore := by
  induction l with
  | nil => exact List.pairwise_singleton _ _
  | cons k rest ih =>
    obtain ⟨after, sorted⟩ := List.pairwise_cons.mp sorted
    rw [insertByStall]
    split_ifs with first
    · refine List.Pairwise.cons (fun m mem => ?_) (List.pairwise_cons.mpr ⟨after, sorted⟩)
      rcases List.mem_cons.mp mem with rfl | mem
      · exact first
      · have := after m mem
        unfold StallBefore at this ⊢
        omega
    · refine List.Pairwise.cons (fun m mem => ?_) (ih sorted)
      rcases List.mem_cons.mp ((perm_insertByStall j rest).mem_iff.mp mem) with rfl | mem
      · unfold StallBefore
        omega
      · exact after m mem

theorem foldr_insertByStall_sorted (l : List Job) : (l.foldr insertByStall []).Pairwise StallBefore := by
  induction l with
  | nil => exact List.Pairwise.nil
  | cons j rest ih => exact insertByStall_sorted j ih

theorem slotOf_handle {s : State} {i : Fin 64} (ok : SlotOk s i) {j : Job} (at_ : (s.jt.slots.get i).job = some j) :
    slotOf j.handle = i := by
  have := i.isLt
  exact Fin.ext (by simp only [slotOf, ok.2.1 j at_]; omega)

theorem allJobs_nodup {s : State} (ok : ∀ i, SlotOk s i) : (allJobs s.jt).Nodup := by
  rw [allJobs_eq]
  refine (List.nodup_finRange 64).filterMap fun a b j ha hb => ?_
  rw [← slotOf_handle (ok a) ha, ← slotOf_handle (ok b) hb]

/-- What a report of section 1.4 returns: the jobs of a stall cause that are meant, in the order of their stalls. -/
def Returned (cause : StallCause) (mine : Job → Prop) (s t : State) : Prop := ∃ jobs : List Job,
  jobs.Nodup ∧ (∀ j, j ∈ jobs ↔ j ∈ allJobs s.jt ∧ mine j ∧ ∃ time order, j.state = .stalled cause time order)
    ∧ jobs.Pairwise (fun a b => ∀ c ta oa d tb ob, a.state = .stalled c ta oa → b.state = .stalled d tb ob →
        ta < tb ∨ (ta = tb ∧ oa ≤ ob))
    ∧ t = jobs.foldl (fun u j => queueTail j u) s

theorem requeue_returned {cause : StallCause} {mine : Job → Prop} {p : Job → Bool} {s : State} (ok : ∀ i, SlotOk s i)
    (meant : ∀ j, p j = true ↔ mine j ∧ stalledWith cause j = true) : Returned cause mine s (requeue p s) := by
  have perm := perm_sorted insertByStall perm_insertByStall ((allJobs s.jt).filter p)
  refine ⟨_, perm.nodup_iff.mpr ((allJobs_nodup ok).filter _), fun j => ?_, ?_, rfl⟩
  · rw [perm.mem_iff, List.mem_filter, meant, stalledWith_iff]
  · refine (foldr_insertByStall_sorted _).imp fun before c ta oa d tb ob stateA stateB => ?_
    simpa only [StallBefore, stallKey, stateA, stateB] using before

/-- The clock and the count of the stalls stand when a job leaves ACTIVE. -/
theorem leaveActive_stalls (j : Job) (s : State) :
    nowMs (leaveActive j s) = nowMs s ∧ (leaveActive j s).jt.stallSeq = s.jt.stallSeq := by
  unfold leaveActive
  cases destinationOf j.kind <;> exact ⟨rfl, rfl⟩

/-- Settles O25: each request by the job's state, and the returns by the sorted list they fold over. -/
theorem jobRequestsAct : Obligations.JobRequestsAct := by
  refine ⟨cancel_actions, ⟨pause_actions, ?_⟩, skip_actions, ?_, fun owner s ok => ⟨?_, ?_, ?_⟩⟩
  · intro tag handle time order cause j s serving found state resumes
    exact next_request serving ((onJob_some found _).trans (resumeJob_stalled state resumes))
  · intro cause handle next j s found
    exact ⟨fun other => by simp only [stallActive, found, if_neg other],
      fun active => by simp only [stallActive, found, if_pos active, stallJob, leaveActive_stalls]⟩
  · exact requeue_returned (mine := fun j => j.owner = owner) ok fun j => by simp
  · exact requeue_returned (mine := fun j => j.owner = owner) ok fun j => by simp
  · exact requeue_returned (mine := fun _ => True) ok fun j => by simp

end Sys2Proof.Machine

/-! PROOFS. O26, O28 and O29: the EXPORT channel, the sheets of a job, and the slots that are freed. -/

namespace Sys2Proof.Machine

open Host (Outcome)

/-! ### Pages that are kept -/

theorem pageEntry_some {j : Job} {page : Nat} {p : PageEntry} :
    pageEntry j page = some p ↔ 1 ≤ page ∧ j.pages[page - 1]? = some p := by
  unfold pageEntry
  split_ifs with zero
  · simp [zero]
  · exact ⟨fun at_ => ⟨by omega, at_⟩, fun h => h.2⟩

theorem pageKept_iff {j : Job} {page : Nat} :
    pageKept j page = true ↔ ∃ p, 1 ≤ page ∧ j.pages[page - 1]? = some p ∧ p.skipped = false := by
  rw [pageKept, Option.any_eq_true]
  simp only [pageEntry_some, Bool.not_eq_true', and_assoc]

theorem pageKept_le {j : Job} {page : Nat} (kept : pageKept j page = true) : 1 ≤ page ∧ page ≤ j.pages.length := by
  obtain ⟨p, low, at_, _⟩ := pageKept_iff.mp kept
  have := (List.getElem?_eq_some_iff.mp at_).1
  omega

theorem exportPageFrom_none {j : Job} {index : Nat} :
    exportPageFrom j index = none ↔ ∀ n, index < n → ¬ pageKept j n = true := by
  rw [exportPageFrom, List.find?_eq_none]
  constructor
  · intro none n later kept
    have := pageKept_le kept
    exact none n (List.mem_map.mpr ⟨n - index - 1, List.mem_range.mpr (by omega), by omega⟩) kept
  · intro none n mem
    obtain ⟨k, _, rfl⟩ := List.mem_map.mp mem
    exact none _ (by omega)

theorem exportPageFrom_some {j : Job} {index page : Nat} (later : index < page) (kept : pageKept j page = true)
    (first : ∀ n, index < n → n < page → ¬ pageKept j n = true) : exportPageFrom j index = some page := by
  have := pageKept_le kept
  have found : (List.range (j.pages.length - index)).find? (pageKept j ∘ (index + · + 1)) = some (page - index - 1) := by
    rw [List.find?_range_eq_some]
    refine ⟨?_, List.mem_range.mpr (by omega), fun n below => ?_⟩
    · rwa [Function.comp_apply, show index + (page - index - 1) + 1 = page by omega]
    · rw [Function.comp_apply, Bool.not_eq_true', ← Bool.not_eq_true]
      exact first _ (by omega) (by omega)
  rw [exportPageFrom, List.find?_map, found, Option.map_some]
  congr 1
  omega

/-! ### Marked blocks (R121) -/

theorem beginRead_clear {r : Reader} {handle page index : Nat} {s : State} (clear : markedBlock s handle page index = none) :
    beginRead r handle page index s
      = (none, enterOp (.read { reader := r, handle := handle, page := page, index := index }) s) := by
  simp only [beginRead, clear]

theorem beginRead_marked {r : Reader} {handle page index b : Nat} {s : State} (marked : markedBlock s handle page index = some b) :
    beginRead r handle page index s = (some b, flagPage handle page s) := by
  simp only [beginRead, marked]

section Marked

variable {s : State} {j : Job} {handle page index : Nat} {p : BandPlace} (found : jobOf s.jt handle = some j)
  (place : placeOf s.smc j page index = some p)
include found place

theorem markedBlock_place : markedBlock s handle page index = (placeBlocks p).find? fun b => (markOf s.smc b).isSome := by
  simp only [markedBlock, found, Option.bind_some, place]

theorem markedBlock_first {o : MarkOrigin} (marked : markOf s.smc p.block = some o) :
    markedBlock s handle page index = some p.block := by
  rw [markedBlock_place found place, placeBlocks, List.find?_cons_of_pos (by rw [marked]; rfl)]

theorem markedBlock_next {b : Nat} {o : MarkOrigin} (clear : markOf s.smc p.block = none) (next : p.next = some b)
    (marked : markOf s.smc b = some o) : markedBlock s handle page index = some b := by
  rw [markedBlock_place found place, placeBlocks, List.find?_cons_of_neg (by rw [clear]; decide), next]
  exact List.find?_cons_of_pos (by rw [marked]; rfl)

theorem markedBlock_none (clear : markOf s.smc p.block = none) (next : ∀ b, p.next = some b → markOf s.smc b = none) :
    markedBlock s handle page index = none := by
  rw [markedBlock_place found place, List.find?_eq_none]
  intro b mem
  rcases List.mem_cons.mp mem with rfl | mem
  · simp [clear]
  · simp [next b (Option.mem_toList.mp mem)]

end Marked

/-! ### Export (R27, R28) -/

section Export

variable {s : State} {j : Job} (active : activeJob s .exporter = some j)
include active

theorem startExport_busy (busy : s.jt.exportPhase ≠ .idle) : startExport s = none := by
  unfold startExport
  rw [active]
  cases phase : s.jt.exportPhase with
  | idle => exact absurd phase busy
  | reading page index => rfl
  | sending b => rfl

variable (idle : s.jt.exportPhase = .idle)
include idle

theorem startExport_done (none : exportPageFrom j j.nextSheet = none) : startExport s = some (closeJob .completed j.handle s) := by
  simp only [startExport, active, idle, none]

theorem startExport_reads {page : Nat} (next : exportPageFrom j j.nextSheet = some page)
    (clear : markedBlock s j.handle page 1 = none) : startExport s =
      some (let reading := enterOp (.read { reader := .exporter, handle := j.handle, page := page, index := 1 }) s
            { reading with jt := { reading.jt with exportPhase := .reading page 1 } }) := by
  simp only [startExport, active, idle, next, beginRead_clear clear]

theorem startExport_marked {page b : Nat} (next : exportPageFrom j j.nextSheet = some page)
    (marked : markedBlock s j.handle page 1 = some b) :
    startExport s = some (stallActive .image j.handle (page - 1) (flagPage j.handle page s)) := by
  simp only [startExport, active, idle, next, beginRead_marked marked]

end Export

theorem startExport_inactive {s : State} (inactive : activeJob s .exporter = none) : startExport s = none := by
  simp only [startExport, inactive]

/-! ### Waiting reads that have come to occupy a marked block -/

theorem markedRead_clear {s : State} {op : PortOp} (clear : ∀ q, op = .read q → markedBlock s q.handle q.page q.index = none) :
    markedRead s op = none := by
  unfold markedRead
  cases op with
  | read q => exact Option.map_eq_none_iff.mpr (clear q rfl)
  | _ => rfl

theorem endMarkedRead_none {s : State} (clear : ∀ q, .read q ∈ s.smc.ops → markedBlock s q.handle q.page q.index = none) :
    endMarkedRead s = none := by
  have : s.smc.ops.findSome? (markedRead s) = none :=
    List.findSome?_eq_none_iff.mpr fun op mem => markedRead_clear fun q same => clear q (same ▸ mem)
  simp only [endMarkedRead, this]

theorem failReading_eq (page block : Nat) (entries : List StagingEntry) :
    failReading page block entries = entries.map fun e => match e.state with
      | .reading _ _ => { e with state := .failed page block }
      | _ => e := by
  refine List.map_congr_left fun e _ => ?_
  unfold isReading
  cases e.state <;> rfl

section MarkedRead

variable {s : State} {front back : List PortOp} {q : ReadRequest} {b : Nat} (ops : s.smc.ops = front ++ .read q :: back)
  (clear : ∀ x, .read x ∈ front → markedBlock s x.handle x.page x.index = none)
  (marked : markedBlock s q.handle q.page q.index = some b)
include ops clear marked

theorem endMarkedRead_some : endMarkedRead s =
    (let t := flagPage q.handle q.page { s with smc := { s.smc with ops := front ++ back } }
     match q.reader with
     | .staging => some { t with spm := { t.spm with staging := failReading q.page b t.spm.staging } }
     | .exporter => some (stallActive .image q.handle (q.page - 1) t)) := by
  have first : s.smc.ops.findSome? (markedRead s) = some (q, b) := by
    rw [ops, List.findSome?_append, List.findSome?_eq_none_iff.mpr fun op mem =>
      markedRead_clear fun x same => clear x (same ▸ mem), Option.none_or, List.findSome?_cons]
    simp only [markedRead, marked, Option.map_some]
  have absent : PortOp.read q ∉ front := fun mem => by rw [clear q mem] at marked; cases marked
  have left : s.smc.ops.erase (.read q) = front ++ back := by
    rw [ops, List.erase_append_right _ absent, List.erase_cons_head]
  simp only [endMarkedRead, first, left] <;> rfl

end MarkedRead

theorem flagPage_spm (handle page : Nat) (s : State) : (flagPage handle page s).spm = s.spm := by
  unfold flagPage changePage changeJob
  split <;> rfl

/-! ### The result of a read -/

theorem handResult_dropped {q : ReadRequest} (dropped : q.dropped = true) (result : ReadResult) (s : State) :
    handResult q result s = s := if_pos dropped

theorem handResult_noKey (q : ReadRequest) (s : State) : handResult q .noKey s = s := by
  have staging : stagingTakes q .noKey s = s := by
    unfold stagingTakes
    split
    · split
      · next no => cases no
      · next no => cases no
      · rfl
    · rfl
  have exporting : exportTakes q .noKey s = s := by
    unfold exportTakes
    split
    · next no => cases no
    · next no => cases no
    · rfl
  unfold handResult
  rw [staging, exporting, ite_eq_left_iff]
  intro _
  cases q.reader <;> rfl

/-! ### The header of a band that goes out -/

theorem isPageEnd_iff {j : Job} {page index : Nat} {p : PageEntry} (entry : pageEntry j page = some p) :
    isPageEnd j page index = true ↔ index = p.bands := by
  simp [isPageEnd, bandsOf, entry]

theorem exportPageFrom_isNone {j : Job} {page : Nat} :
    (exportPageFrom j page).isNone = true ↔ ∀ n later, page < n → j.pages[n - 1]? = some later → later.skipped = true := by
  rw [Option.isNone_iff_eq_none, exportPageFrom_none]
  constructor
  · intro none n later after at_
    by_contra notSkipped
    exact none n after (pageKept_iff.mpr ⟨later, by omega, at_, Bool.eq_false_iff.mpr notSkipped⟩)
  · rintro all n after kept
    obtain ⟨p, _, at_, fresh⟩ := pageKept_iff.mp kept
    rw [all n p after at_] at fresh
    cases fresh

/-- The flags of a band: LAST_BAND and LAST_PAGE. -/
def bandFlags (j : Job) (page index : Nat) : Nat :=
  (if isPageEnd j page index then 1 else 0) + (if isJobEnd j page index then 2 else 0)

theorem bandFlags_spec (j : Job) (page index : Nat) : bandFlags j page index < 4
    ∧ (bandFlags j page index % 2 = 1 ↔ isPageEnd j page index = true)
    ∧ (2 ≤ bandFlags j page index ↔ isJobEnd j page index = true) := by
  unfold bandFlags
  cases isPageEnd j page index <;> cases isJobEnd j page index <;> decide

theorem leBytes_two_length (v : Nat) : (leBytes 2 v).length = 2 := rfl

theorem coverageBytes_length (instant : Nat) (j : Job) (page index : Nat) : (coverageBytes instant j page index).length = 8 := by
  unfold coverageBytes
  split
  · simp only [List.length_append, leBytes_two_length]
  · exact Vector.length_toList

theorem coverageBytes_pageEnd {instant : Nat} {j : Job} {page index : Nat} {p : PageEntry} (entry : pageEntry j page = some p)
    (ends : isPageEnd j page index = true) : coverageBytes instant j page index =
      leBytes 2 p.coverage.k ++ leBytes 2 p.coverage.c ++ leBytes 2 p.coverage.m ++ leBytes 2 p.coverage.y := by
  simp only [coverageBytes, outCoverage, ends, if_true, entry, Option.map_some]

/-! ### The end of a band -/

theorem startExport_clauses (s : State) (j : Job) (active : activeJob s .exporter = some j) :
    let kept (n : Nat) : Prop := ∃ p, 1 ≤ n ∧ j.pages[n - 1]? = some p ∧ p.skipped = false
    (s.jt.exportPhase ≠ .idle → startExport s = none)
    ∧ (s.jt.exportPhase = .idle → (∀ n, j.nextSheet < n → ¬ kept n) → startExport s = some (closeJob .completed j.handle s))
    ∧ ∀ page, s.jt.exportPhase = .idle → j.nextSheet < page → kept page → (∀ n, j.nextSheet < n → n < page → ¬ kept n) →
        (markedBlock s j.handle page 1 = none → startExport s =
          some (let reading := enterOp (.read { reader := .exporter, handle := j.handle, page := page, index := 1 }) s
                { reading with jt := { reading.jt with exportPhase := .reading page 1 } }))
        ∧ ∀ b, markedBlock s j.handle page 1 = some b → startExport s =
            some (stallActive .image j.handle (page - 1) (flagPage j.handle page s)) := by
  simp only [← pageKept_iff]
  refine ⟨startExport_busy active, fun idle none => startExport_done active idle (exportPageFrom_none.mpr none),
    fun page idle later kept first => ?_⟩
  have next := exportPageFrom_some later kept first
  exact ⟨startExport_reads active idle next, fun b => startExport_marked active idle next⟩

theorem endMarkedRead_clauses (s : State) :
    let clear (q : ReadRequest) : Prop := markedBlock s q.handle q.page q.index = none
    ((∀ q, .read q ∈ s.smc.ops → clear q) → endMarkedRead s = none)
      ∧ ∀ front q back b, s.smc.ops = front ++ .read q :: back → (∀ x, .read x ∈ front → clear x) →
          markedBlock s q.handle q.page q.index = some b →
          let flagged := flagPage q.handle q.page { s with smc := { s.smc with ops := front ++ back } }
          (q.reader = .staging → endMarkedRead s = some { flagged with spm := { flagged.spm with
            staging := s.spm.staging.map fun e => match e.state with
              | .reading _ _ => { e with state := .failed q.page b }
              | _ => e } })
          ∧ (q.reader = .exporter → endMarkedRead s = some (stallActive .image q.handle (q.page - 1) flagged)) := by
  refine ⟨endMarkedRead_none, fun front q back b ops clear marked => ⟨fun reader => ?_, fun reader => ?_⟩⟩
  · rw [endMarkedRead_some ops clear marked, reader]
    dsimp only
    rw [failReading_eq, flagPage_spm]
  · rw [endMarkedRead_some ops clear marked, reader]

theorem handResult_clauses (q : ReadRequest) (s : State) :
    handResult q .noKey s = s
      ∧ (q.dropped = true → ∀ result, handResult q result s = s)
      ∧ ∀ j, jobOf s.jt q.handle = some j → q.reader = .exporter → q.dropped = false →
        (∀ block, handResult q (.failed block) s = stallActive .image q.handle (q.page - 1) s)
        ∧ ∀ plain, ∃ e, handResult q (.data plain) s = { s with jt := { s.jt with exportPhase := .sending e } }
          ∧ e.page = q.page ∧ e.index = q.index ∧ e.data = plain ∧ e.pausing = false ∧ e.cancelling = false
          ∧ e.header = bandHeader s.clock j q.page q.index plain.length
          ∧ ∀ p, 1 ≤ q.page → j.pages[q.page - 1]? = some p → (e.lastBand = true ↔ q.index = p.bands) := by
  refine ⟨handResult_noKey q s, fun dropped result => handResult_dropped dropped result s, fun j found reader wanted =>
    ⟨fun block => ?_, fun plain => ⟨exportBand s.clock j q.page q.index plain, ?_, rfl, rfl, rfl, rfl, rfl, rfl, ?_⟩⟩⟩
  · simp only [handResult, wanted, reader, exportTakes, found, Bool.false_eq_true, if_false]
  · simp only [handResult, wanted, reader, exportTakes, found, Bool.false_eq_true, if_false]
  · exact fun p low at_ => isPageEnd_iff (pageEntry_some.mpr ⟨low, at_⟩)

theorem exec_exportBandSent {b : ExportBand} {j : Job} {s : State} (on : s.powered = true) (sending : s.jt.exportPhase = .sending b)
    (active : activeJob s .exporter = some j) : exec .exportBandSent s = .next (settle (bandSent b j s)) := by
  have : exec .exportBandSent s = execExportBandSent s := rfl
  rw [this]
  simp only [execExportBandSent, sending, active, on, if_true]

/-- The record of the job after a band of it has gone out. -/
def countedJob (b : ExportBand) (j : Job) : Job := if b.lastBand then countPage b.page j else j

theorem countedJob_handle (b : ExportBand) (j : Job) : (countedJob b j).handle = j.handle := by
  unfold countedJob
  split <;> rfl

/-- The part after a band has gone out, before a waiting cancel or pause or the next band. -/
def bandGone (b : ExportBand) (j : Job) (s : State) : State :=
  setJob (countedJob b j) { s with jt := { s.jt with exportPhase := .idle } }

theorem bandSent_cancelled {b : ExportBand} (cancelling : b.cancelling = true) (j : Job) (s : State) :
    bandSent b j s = closeJob .cancelled j.handle (bandGone b j s) := by
  rw [← countedJob_handle b j]
  exact if_pos cancelling

section NotCancelled

variable {b : ExportBand} (goesOn : b.cancelling = false)
include goesOn

theorem bandSent_paused (pausing : b.pausing = true) (j : Job) (s : State) :
    bandSent b j s = stallJob .paused (countedJob b j) (leaveActive (countedJob b j) (bandGone b j s)) :=
  (if_neg (by simp [goesOn])).trans (if_pos pausing)

variable (plays : b.pausing = false)
include plays

theorem bandSent_lastBand (last : b.lastBand = true) (j : Job) (s : State) : bandSent b j s = bandGone b j s :=
  (if_neg (by simp [goesOn])).trans ((if_neg (by simp [plays])).trans (if_pos last))

variable (more : b.lastBand = false) {j : Job} {s : State}
include more

theorem bandSent_reads (clear : markedBlock (bandGone b j s) j.handle b.page (b.index + 1) = none) : bandSent b j s =
    (let reading := enterOp (.read { reader := .exporter, handle := j.handle, page := b.page, index := b.index + 1 }) (bandGone b j s)
     { reading with jt := { reading.jt with exportPhase := .reading b.page (b.index + 1) } }) := by
  simp only [bandGone, countedJob, more, Bool.false_eq_true, if_false] at clear ⊢
  simp only [bandSent, goesOn, plays, more, Bool.false_eq_true, if_false, beginRead_clear clear]

theorem bandSent_marked {block : Nat} (marked : markedBlock (bandGone b j s) j.handle b.page (b.index + 1) = some block) :
    bandSent b j s = stallActive .image j.handle (b.page - 1) (flagPage j.handle b.page (bandGone b j s)) := by
  simp only [bandGone, countedJob, more, Bool.false_eq_true, if_false] at marked ⊢
  simp only [bandSent, goesOn, plays, more, Bool.false_eq_true, if_false, beginRead_marked marked]

end NotCancelled

theorem bandSent_clauses (b : ExportBand) (j : Job) (s : State) (on : s.powered = true)
    (sending : s.jt.exportPhase = .sending b) (active : activeJob s .exporter = some j) :
    let counted : Job := if b.lastBand then
          { j with delivered := min (j.delivered + 1) 4294967295, nextSheet := b.page } else j
    let idle := setJob counted { s with jt := { s.jt with exportPhase := .idle } }
    (b.cancelling = true → exec .exportBandSent s = .next (settle (closeJob .cancelled j.handle idle)))
      ∧ (b.cancelling = false → b.pausing = true →
          exec .exportBandSent s = .next (settle (stallJob .paused counted (leaveActive counted idle))))
      ∧ (b.cancelling = false → b.pausing = false → b.lastBand = true → exec .exportBandSent s = .next (settle idle))
      ∧ (b.cancelling = false → b.pausing = false → b.lastBand = false → markedBlock idle j.handle b.page (b.index + 1) = none →
          exec .exportBandSent s = .next (settle
            (let reading := enterOp (.read { reader := .exporter, handle := j.handle, page := b.page, index := b.index + 1 }) idle
             { reading with jt := { reading.jt with exportPhase := .reading b.page (b.index + 1) } })))
      ∧ (b.cancelling = false → b.pausing = false → b.lastBand = false →
          (∃ block, markedBlock idle j.handle b.page (b.index + 1) = some block) →
          exec .exportBandSent s = .next (settle (stallActive .image j.handle (b.page - 1) (flagPage j.handle b.page idle)))) := by
  rw [exec_exportBandSent on sending active]
  exact ⟨fun cancelling => congrArg (Outcome.next ∘ settle) (bandSent_cancelled cancelling j s),
    fun goesOn pausing => congrArg (Outcome.next ∘ settle) (bandSent_paused goesOn pausing j s),
    fun goesOn plays last => congrArg (Outcome.next ∘ settle) (bandSent_lastBand goesOn plays last j s),
    fun goesOn plays more clear => congrArg (Outcome.next ∘ settle) (bandSent_reads goesOn plays more clear),
    fun goesOn plays more ⟨_, marked⟩ => congrArg (Outcome.next ∘ settle) (bandSent_marked goesOn plays more marked)⟩

theorem bandHeader_spec (instant : Nat) {page : Nat} (index length : Nat) {j : Job} {p : PageEntry} (low : 1 ≤ page)
    (at_ : j.pages[page - 1]? = some p) :
    let endsPage : Prop := index = p.bands
    let endsJob : Prop := endsPage ∧ ∀ n later, page < n → j.pages[n - 1]? = some later → later.skipped = true
    ∃ (flags : Nat) (coverage : List Byte),
      bandHeader instant j page index length = [1, BitVec.ofNat 8 flags] ++ leBytes 2 j.handle ++ leBytes 2 page
        ++ leBytes 2 index ++ leBytes 4 length ++ coverage
      ∧ coverage.length = 8 ∧ flags < 4 ∧ (flags % 2 = 1 ↔ endsPage) ∧ (2 ≤ flags ↔ endsJob)
      ∧ (endsPage → coverage = leBytes 2 p.coverage.k ++ leBytes 2 p.coverage.c ++ leBytes 2 p.coverage.m
          ++ leBytes 2 p.coverage.y) := by
  intro endsPage endsJob
  have entry : pageEntry j page = some p := pageEntry_some.mpr ⟨low, at_⟩
  have pageEnd : isPageEnd j page index = true ↔ endsPage := isPageEnd_iff entry
  have jobEnd : isJobEnd j page index = true ↔ endsJob := by rw [isJobEnd, Bool.and_eq_true, pageEnd, exportPageFrom_isNone]
  obtain ⟨small, bit0, bit1⟩ := bandFlags_spec j page index
  exact ⟨bandFlags j page index, coverageBytes instant j page index, rfl, coverageBytes_length instant j page index, small,
    bit0.trans pageEnd, bit1.trans jobEnd, fun ends => coverageBytes_pageEnd entry (pageEnd.mpr ends)⟩

/-- Settles O26: the start of a page, the marked blocks, the results of reads, the end of a band and its header. -/
theorem exportBandEnds : Obligations.ExportBandEnds := by
  refine ⟨startExport_clauses, fun s => startExport_inactive, fun s j handle page index p found place =>
    ⟨fun o => markedBlock_first found place, fun b o => markedBlock_next found place, markedBlock_none found place⟩,
    endMarkedRead_clauses, handResult_clauses, fun b j s on sending active => ?_⟩
  obtain ⟨cancelled, paused, last, reads, marked⟩ := bandSent_clauses b j s on sending active
  exact ⟨cancelled, paused, last, reads, marked, fun instant page index length p low at_ => bandHeader_spec instant index length low at_⟩

/-! ### The sheets of a job (R8) -/

/-- A sheet of the sequence at or after a start that has a side with a page. -/
def Remains (j : Job) (start i : Nat) : Prop := start ≤ i ∧ i < sheetCount j ∧ omitted j i = false

theorem firstSheet_some {j : Job} {n start index : Nat} :
    firstSheet j n start = some index ↔ start ≤ index ∧ index < start + n ∧ omitted j index = false
      ∧ ∀ m, start ≤ m → m < index → omitted j m = true := by
  induction n generalizing start with
  | zero => simp [firstSheet]; omega
  | succ n ih =>
    rw [firstSheet]
    split_ifs with out
    · rw [ih]
      constructor
      · rintro ⟨low, high, kept, before⟩
        refine ⟨by omega, by omega, kept, fun m after below => ?_⟩
        rcases Nat.eq_or_lt_of_le after with rfl | after
        · exact out
        · exact before m after below
      · rintro ⟨low, high, kept, before⟩
        have : start ≠ index := fun same => by rw [same, kept] at out; cases out
        exact ⟨by omega, by omega, kept, fun m after => before m (by omega)⟩
    · rw [Option.some.injEq]
      constructor
      · rintro rfl
        exact ⟨le_rfl, by omega, by simpa using out, fun m after below => by omega⟩
      · rintro ⟨low, high, kept, before⟩
        by_contra differs
        exact out (before start le_rfl (by omega))

theorem firstSheet_none {j : Job} {n start : Nat} :
    firstSheet j n start = none ↔ ∀ m, start ≤ m → m < start + n → omitted j m = true := by
  induction n generalizing start with
  | zero => simp [firstSheet]; omega
  | succ n ih =>
    rw [firstSheet]
    split_ifs with out
    · rw [ih]
      refine ⟨fun all m low high => ?_, fun all m low high => all m (by omega) (by omega)⟩
      rcases Nat.eq_or_lt_of_le low with rfl | low
      · exact out
      · exact all m low (by omega)
    · simp only [false_iff, not_forall]
      exact ⟨start, le_rfl, by omega, out⟩

theorem omitted_sub {j : Job} {i : Nat} (later : sheetsPerCopy j ≤ i) : omitted j (i - sheetsPerCopy j) = omitted j i := by
  simp only [omitted, sidesOf]
  rw [Nat.mod_eq_sub_mod later]

/-- One copy's worth of sheets holds the first that remains. -/
theorem remains_near {j : Job} {start i : Nat} (remains : Remains j start i) :
    ∃ k, k ≤ i ∧ Remains j start k ∧ k < start + min (sheetsPerCopy j) (sheetCount j - start) := by
  induction i using Nat.strong_induction_on with
  | _ i ih =>
    obtain ⟨low, high, kept⟩ := remains
    by_cases near : i < start + sheetsPerCopy j
    · exact ⟨i, le_rfl, ⟨low, high, kept⟩, by omega⟩
    · have some_ : 0 < sheetsPerCopy j := by
        rcases Nat.eq_zero_or_pos (sheetsPerCopy j) with zero | some_
        · rw [sheetCount, zero, Nat.mul_zero] at high; omega
        · exact some_
      obtain ⟨k, before, rest⟩ := ih (i - sheetsPerCopy j) (by omega)
        ⟨by omega, by omega, (omitted_sub (by omega)).trans kept⟩
      exact ⟨k, by omega, rest⟩

theorem sheetFrom_none {j : Job} {start : Nat} : sheetFrom j start = none ↔ ∀ k, ¬ Remains j start k := by
  rw [sheetFrom, firstSheet_none]
  constructor
  · intro all k remains
    obtain ⟨m, _, ⟨low, _, kept⟩, near⟩ := remains_near remains
    rw [all m low near] at kept
    cases kept
  · intro none m low near
    by_contra kept
    exact none m ⟨low, by omega, by simpa using kept⟩

theorem sheetFrom_some {j : Job} {start index : Nat} :
    sheetFrom j start = some index ↔ Remains j start index ∧ ∀ k, Remains j start k → index ≤ k := by
  rw [sheetFrom, firstSheet_some]
  constructor
  · rintro ⟨low, near, kept, before⟩
    refine ⟨⟨low, by omega, kept⟩, fun k ⟨after, _, keptK⟩ => ?_⟩
    by_contra below
    rw [before k after (by omega)] at keptK
    cases keptK
  · rintro ⟨remains, least⟩
    obtain ⟨m, below, other, near⟩ := remains_near remains
    obtain rfl : index = m := le_antisymm (least m other) below
    obtain ⟨low, high, kept⟩ := remains
    refine ⟨low, near, kept, fun k after before => ?_⟩
    by_contra keptK
    have := least k ⟨after, by omega, by simpa using keptK⟩
    omega

theorem sideOf_blank {j : Job} {page : Nat} : sideOf j page ≠ .blank ↔
    ∃ p cls, 1 ≤ page ∧ j.pages[page - 1]? = some p ∧ p.skipped = false ∧ p.cls = some cls := by
  unfold sideOf
  split_ifs with kept
  · obtain ⟨p, low, at_, fresh⟩ := pageKept_iff.mp kept
    have entry : pageEntry j page = some p := pageEntry_some.mpr ⟨low, at_⟩
    rw [entry, Option.bind_some]
    cases cls : p.cls with
    | none => simp [at_, cls]
    | some c => simpa [at_, cls] using ⟨low, fresh⟩
  · simp only [ne_eq, not_true_eq_false, false_iff]
    rintro ⟨p, cls, low, at_, fresh, _⟩
    exact kept (pageKept_iff.mpr ⟨p, low, at_, fresh⟩)

theorem omitted_false {j : Job} {index : Nat} : omitted j index = false ↔
    if j.duplex then sideOf j (2 * (index % sheetsPerCopy j) + 1) ≠ .blank ∨ sideOf j (2 * (index % sheetsPerCopy j) + 2) ≠ .blank
    else sideOf j (index % sheetsPerCopy j + 1) ≠ .blank := by
  unfold omitted sidesOf
  split <;> simp [imp_iff_not_or]

theorem sheetSequence_sheets (j : Job) (start index : Nat) :
    let perCopy := if j.duplex then (j.pages.length + 1) / 2 else j.pages.length
    let printed (page : Nat) : Prop := ∃ p cls, 1 ≤ page ∧ j.pages[page - 1]? = some p ∧ p.skipped = false ∧ p.cls = some cls
    let remains (i : Nat) : Prop := start ≤ i ∧ i < j.copies * perCopy
      ∧ if j.duplex then printed (2 * (i % perCopy) + 1) ∨ printed (2 * (i % perCopy) + 2) else printed (i % perCopy + 1)
    (sheetFrom j start = some index ↔ remains index ∧ ∀ k, remains k → index ≤ k)
      ∧ (sheetFrom j start = none ↔ ∀ k, ¬ remains k) := by
  intro perCopy printed remains
  have same (i : Nat) : Remains j start i ↔ remains i := by
    unfold Remains
    rw [omitted_false]
    simp only [sideOf_blank]
    exact Iff.rfl
  simp only [← same]
  exact ⟨sheetFrom_some, sheetFrom_none⟩

/-! ### Activation and draining (R7, R8) -/

theorem activate_head {d : Destination} {s : State} {h : Nat} {rest : List Nat} {j : Job}
    (waiting : (queueOf s.jt d).waiting = h :: rest) (found : jobOf s.jt h = some j) (free : (queueOf s.jt d).active = none) :
    activate d s = some (moveJob { j with state := .active }
      { s with jt := putQueue d { waiting := rest, active := some h } s.jt }) := by
  simp only [activate, free, waiting, found]

theorem activate_busy {d : Destination} {s : State} (busy : (queueOf s.jt d).active ≠ none) : activate d s = none := by
  unfold activate
  dsimp only
  split
  · next none _ => exact absurd none busy
  · rfl

section Drain

variable {s : State} {j : Job} (active : activeJob s .engine = some j)
include active

theorem drain_closes (done : sheetFrom j j.nextSheet = none) (none : j.inFlight = 0) :
    drain s = some (closeJob .completed j.handle s) := by
  simp only [drain, active, done, none, gt_iff_lt, lt_irrefl, if_false]

theorem drain_drains (done : sheetFrom j j.nextSheet = none) (some_ : 0 < j.inFlight) :
    drain s = some (moveJob { j with state := .draining .ends } (leaveActive j s)) := by
  simp only [drain, active, done, gt_iff_lt, some_, if_true]

theorem drain_goesOn (more : sheetFrom j j.nextSheet ≠ none) : drain s = none := by
  obtain ⟨index, more⟩ := Option.ne_none_iff_exists'.mp more
  simp only [drain, active, more]

end Drain

/-- Settles O28: the first sheet that remains, the queue's head, and a job with no sheet left. -/
theorem sheetSequence : Obligations.SheetSequence :=
  ⟨sheetSequence_sheets,
    fun _ _ _ _ _ waiting found => ⟨activate_head waiting found, activate_busy⟩,
    fun _ _ active => ⟨drain_closes active, drain_drains active, drain_goesOn active⟩⟩

/-! ### Slots that are freed (R3, R6, R143) -/

theorem jobOf_slot {jt : JobTable} {handle : Nat} {j : Job} (found : jobOf jt handle = some j) :
    handle < 16384 ∧ (jt.slots.get (slotOf handle)).generation = handle / 64 ∧ (jt.slots.get (slotOf handle)).job = some j := by
  unfold jobOf at found
  split_ifs at found with named
  simp only [Bool.and_eq_true, decide_eq_true_eq, beq_iff_eq] at named
  exact ⟨named.1, named.2, found⟩

theorem jobOnScrub_iff {se : ScrubEngine} {handle : Nat} : jobOnScrub se handle = true ↔ ∃ e ∈ se.list, e.origin = .job handle := by
  simp [jobOnScrub]

theorem freeSlot_eq {s : State} {handle : Nat} {j : Job} {outcome : JobOutcome} (found : jobOf s.jt handle = some j)
    (scrub : j.state = .scrub outcome) : freeSlot handle s =
      emit (.jobState (slotOf handle) { handle := handle, stage := .freed outcome, tallies := none })
        (let slot : JobSlot := { generation := ((s.jt.slots.get (slotOf handle)).generation + 1) % 256, job := none }
         { s with jt := { s.jt with slots := s.jt.slots.set (slotOf handle) slot } }) := by
  simp only [freeSlot, found, scrub]

/-- Settles O29: the slot's next generation is another than the handle's. -/
theorem slotsAreFreed : Obligations.SlotsAreFreed := by
  intro handle outcome j s running found scrub
  refine ⟨fun held => ?_, fun done => ?_⟩
  · simp [reportScrubbed, jobOnScrub_iff.mpr held]
  · have free : reportScrubbed handle s = freeSlot handle s := by
      have : jobOnScrub s.se handle = false := by
        rw [Bool.eq_false_iff, Ne, jobOnScrub_iff]
        exact fun ⟨e, mem, origin⟩ => done e mem origin
      simp [reportScrubbed, running, this]
    obtain ⟨small, generation, _⟩ := jobOf_slot found
    rw [free, freeSlot_eq found scrub, generation]
    refine ⟨?_, ?_, fun i other => ?_, ?_, rfl, rfl, rfl, rfl⟩
    · exact get_set_self _ _ _
    · rw [jobOf, if_neg]
      intro named
      rw [Bool.and_eq_true, beq_iff_eq] at named
      have later : ((s.jt.slots.set (slotOf handle) _).get (slotOf handle)).generation = handle / 64 := named.2
      rw [get_set_self] at later
      dsimp only at later
      omega
    · exact get_set_ne _ _ other
    · exact mem_admitNotice_self rfl _

end Sys2Proof.Machine

/-! PROOFS. O27: the close of a job. -/

namespace Sys2Proof.Machine

/-! ### What the steps of a close leave unchanged -/

/-- The pieces of the part that the steps of a close, other than the ones named for them, leave as they are. -/
structure CloseView where
  bc : BandCipher
  slots : Vector JobSlot 64
  closedNow : List Nat
  accounts : List Account
  settings : Settings
  cbc : Cartridges
  list : List ScrubEntry
  queue : List QueuedFault
  part : PartState

/-- The pieces of a state. -/
def closeView (s : State) : CloseView :=
  { bc := s.bc, slots := s.jt.slots, closedNow := s.jt.closedNow, accounts := s.accounts, settings := s.settings, cbc := s.cbc
    list := s.se.list, queue := s.fm.queue, part := s.fm.part }

theorem closeView_reviewTimer (s : State) : closeView (reviewTimer s) = closeView s := by
  unfold reviewTimer
  split <;> rfl

theorem closeView_raiseNote (n : Note) (s : State) : closeView (raiseNote n s) = closeView s := rfl

theorem closeView_retireBlock (cause : RetireCause) (block : Nat) (s : State) :
    closeView (retireBlock cause block s) = closeView s := rfl

theorem closeView_closeImages (handle : Nat) (s : State) : closeView (closeImages handle s) = closeView s := by
  have same : closeView (if s.smc.filling.any (·.handle = handle) then { s with smc := { s.smc with filling := none } } else s)
      = closeView s := by split <;> rfl
  unfold closeImages
  generalize (if s.smc.filling.any (·.handle = handle) then { s with smc := { s.smc with filling := none } } else s) = t
    at same ⊢
  dsimp only
  split
  · split
    · split
      · exact same
      · exact same
      · exact (closeView_reviewTimer _).trans same
    · exact same
  · exact same

theorem closeView_leavePlace (j : Job) (s : State) : closeView (leavePlace j s) = closeView s := by
  unfold leavePlace unqueue leaveActive
  split
  · cases destinationOf j.kind <;> rfl
  · cases destinationOf j.kind <;> rfl
  · rfl

theorem closeView_discardHeld (handle : Nat) (s : State) : closeView (discardHeld handle s) = closeView s := by
  unfold discardHeld
  split
  · exact closeView_reviewTimer _
  · rfl

theorem closeView_zeroize (i : Fin 64) (s : State) :
    closeView (zeroize i s) = { closeView s with bc := { s.bc with keys := s.bc.keys.set i none } } := rfl

theorem closeView_handToScrub (j : Job) (s : State) : closeView (handToScrub j s) =
    { closeView s with
      list := s.se.list ++ (blocksToScrub s j).map fun b => { block := b, origin := .job j.handle } } := rfl

theorem closeView_moveJob (j : Job) (s : State) :
    closeView (moveJob j s) = { closeView s with slots := (putJob j s.jt).slots } := rfl

theorem noteClosed_smc (handle : Nat) (s : State) : (noteClosed handle s).smc = s.smc := rfl

theorem closeView_noteClosed (handle : Nat) (s : State) :
    closeView (noteClosed handle s) = { closeView s with closedNow := handle :: s.jt.closedNow } := rfl

/-! ### The drawing lists at a close (R99) -/

/-- One slot takes the report that a job has closed. -/
def closedAtSlot (handle : Nat) (wasDraining : Bool) (s : State) (i : Fin 4) : State :=
  let c := slotRecord s i
  if c.drawing.contains handle then
    let s := putSlot i { c with drawing := c.drawing.erase handle } s
    if wasDraining && holdsVerified c && c.level.any (·.pending > 0) then queueItem (.writeBack i) s else s
  else s

theorem jobClosed_eq (handle : Nat) (wasDraining : Bool) (s : State) :
    jobClosed handle wasDraining s = cartSlots.foldl (closedAtSlot handle wasDraining) s := rfl

theorem queueItem_eq (item : WorkItem) (s : State) : queueItem item s =
    { s with cbc := { s.cbc with work := if s.fm.part = .halted ∨ item ∈ s.cbc.work then s.cbc.work else s.cbc.work ++ [item] } } := by
  simp only [queueItem, Bool.or_eq_true, decide_eq_true_eq, List.contains_iff_mem]
  split <;> rfl

/-- A write-back of a slot is due when a job that drew on it closes out of DRAINING. -/
def closeWriteDue (handle : Nat) (wasDraining : Bool) (c : CartSlot) : Bool :=
  wasDraining && c.drawing.contains handle && holdsVerified c && c.level.any (·.pending > 0)

theorem closedAtSlot_eq (handle : Nat) (wasDraining : Bool) (s : State) (i : Fin 4) :
    closedAtSlot handle wasDraining s i = { s with cbc := { s.cbc with
      slots := s.cbc.slots.set i { s.cbc.slots.get i with drawing := (s.cbc.slots.get i).drawing.erase handle }
      work := if closeWriteDue handle wasDraining (s.cbc.slots.get i) ∧ s.fm.part ≠ .halted ∧ .writeBack i ∉ s.cbc.work then
        s.cbc.work ++ [.writeBack i] else s.cbc.work } } := by
  unfold closedAtSlot
  cases drew : (slotRecord s i).drawing.contains handle with
  | false =>
    have notDue : closeWriteDue handle wasDraining (s.cbc.slots.get i) = false := by
      simp [closeWriteDue, slotRecord] at drew ⊢
      simp [drew]
    have unchanged : s.cbc.slots.set i { s.cbc.slots.get i with drawing := (s.cbc.slots.get i).drawing.erase handle } = s.cbc.slots := by
      rw [List.erase_of_not_mem (by simpa [slotRecord] using drew)]
      exact Vector.set_getElem_self i.isLt
    simp only [drew, notDue, unchanged, Bool.false_eq_true, false_and, if_false]
  | true =>
    have due : (wasDraining && holdsVerified (slotRecord s i) && (slotRecord s i).level.any (·.pending > 0))
        = closeWriteDue handle wasDraining (s.cbc.slots.get i) := by
      unfold closeWriteDue
      simp only [slotRecord] at drew ⊢
      rw [drew, Bool.and_true]
    simp only [drew, if_true, due, queueItem_eq]
    cases closeWriteDue handle wasDraining (s.cbc.slots.get i) with
    | false => rfl
    | true =>
      simp only [if_true, true_and, putSlot, ← not_or, ite_not]
      rfl

theorem closeView_closedAtSlot (handle : Nat) (wasDraining : Bool) (s : State) (i : Fin 4) :
    closeView (closedAtSlot handle wasDraining s i)
      = { closeView s with cbc := (closedAtSlot handle wasDraining s i).cbc } := by
  rw [closedAtSlot_eq]
  rfl

theorem get_set4_self {α : Type} (v : Vector α 4) (i : Fin 4) (x : α) : (v.set i x).get i = x := by
  rw [Vector.get_eq_getElem]
  exact Vector.getElem_set_self _

theorem get_set4_ne {α : Type} (v : Vector α 4) {i k : Fin 4} (x : α) (h : k ≠ i) : (v.set i x).get k = v.get k := by
  rw [Vector.get_eq_getElem, Vector.get_eq_getElem]
  exact Vector.getElem_set_ne _ _ fun e => h (Fin.ext e.symm)

/-- A slot's write-back joins the work list at a close. -/
def writesAtClose (handle : Nat) (wasDraining : Bool) (s : State) (i : Fin 4) : Bool :=
  closeWriteDue handle wasDraining (s.cbc.slots.get i) && !(s.cbc.work.contains (.writeBack i))

section ClosedAtSlots

variable (handle : Nat) (wasDraining : Bool)

theorem foldl_closedAtSlot_frame (l : List (Fin 4)) (s : State) :
    closeView (l.foldl (closedAtSlot handle wasDraining) s)
        = { closeView s with cbc := (l.foldl (closedAtSlot handle wasDraining) s).cbc }
      ∧ (l.foldl (closedAtSlot handle wasDraining) s).smc = s.smc := by
  induction l generalizing s with
  | nil => exact ⟨rfl, rfl⟩
  | cons i rest ih =>
    obtain ⟨view, smc⟩ := ih (closedAtSlot handle wasDraining s i)
    rw [List.foldl_cons, view, smc, closeView_closedAtSlot, closedAtSlot_eq]
    exact ⟨rfl, rfl⟩

theorem foldl_closedAtSlot_slot (l : List (Fin 4)) (nodup : l.Nodup) (s : State) (i : Fin 4) :
    (l.foldl (closedAtSlot handle wasDraining) s).cbc.slots.get i =
      if i ∈ l then { s.cbc.slots.get i with drawing := (s.cbc.slots.get i).drawing.erase handle } else s.cbc.slots.get i := by
  induction l generalizing s with
  | nil => rfl
  | cons k rest ih =>
    obtain ⟨fresh, nodup⟩ := List.nodup_cons.mp nodup
    rw [List.foldl_cons, ih nodup, closedAtSlot_eq]
    dsimp only
    by_cases same : i = k
    · subst same
      rw [get_set4_self, if_neg fresh, if_pos (List.mem_cons_self ..)]
    · rw [get_set4_ne _ _ same]
      simp only [List.mem_cons, same, false_or]

theorem foldl_closedAtSlot_work (l : List (Fin 4)) (nodup : l.Nodup) (s : State) (runs : s.fm.part ≠ .halted) :
    (l.foldl (closedAtSlot handle wasDraining) s).cbc.work
      = s.cbc.work ++ (l.filter (writesAtClose handle wasDraining s)).map .writeBack := by
  induction l generalizing s with
  | nil => exact (List.append_nil _).symm
  | cons k rest ih =>
    obtain ⟨fresh, nodup⟩ := List.nodup_cons.mp nodup
    have part : (closedAtSlot handle wasDraining s k).fm.part = s.fm.part := by rw [closedAtSlot_eq]
    have work : (closedAtSlot handle wasDraining s k).cbc.work
        = s.cbc.work ++ if writesAtClose handle wasDraining s k then [.writeBack k] else [] := by
      rw [closedAtSlot_eq]
      simp only [runs, ne_eq, not_false_eq_true, true_and, writesAtClose, Bool.and_eq_true, Bool.not_eq_true',
        List.contains_eq_mem, decide_eq_false_iff_not]
      split <;> simp
    have others : rest.filter (writesAtClose handle wasDraining (closedAtSlot handle wasDraining s k))
        = rest.filter (writesAtClose handle wasDraining s) := by
      refine List.filter_congr fun i mem => ?_
      have differs : i ≠ k := fun same => fresh (same ▸ mem)
      have slot : (closedAtSlot handle wasDraining s k).cbc.slots.get i = s.cbc.slots.get i := by
        rw [closedAtSlot_eq]
        exact get_set4_ne _ _ differs
      simp only [writesAtClose, slot, work, List.contains_eq_mem, List.mem_append]
      split <;> simp [differs]
    rw [List.foldl_cons, ih nodup _ (part ▸ runs), others, work, List.filter_cons]
    split <;> simp

end ClosedAtSlots

theorem closeView_jobClosed (handle : Nat) (wasDraining : Bool) (s : State) :
    closeView (jobClosed handle wasDraining s) = { closeView s with cbc := (jobClosed handle wasDraining s).cbc } := by
  rw [jobClosed_eq, (foldl_closedAtSlot_frame handle wasDraining cartSlots s).1]

theorem jobClosed_smc (handle : Nat) (wasDraining : Bool) (s : State) : (jobClosed handle wasDraining s).smc = s.smc := by
  rw [jobClosed_eq, (foldl_closedAtSlot_frame handle wasDraining cartSlots s).2]

theorem cartSlots_nodup : cartSlots.Nodup := by decide

theorem cartSlots_ascend : cartSlots.Pairwise (· < ·) := by decide

theorem mem_cartSlots (i : Fin 4) : i ∈ cartSlots := by revert i; decide

theorem jobClosed_slot (handle : Nat) (wasDraining : Bool) (s : State) (i : Fin 4) :
    (jobClosed handle wasDraining s).cbc.slots.get i
      = { s.cbc.slots.get i with drawing := (s.cbc.slots.get i).drawing.erase handle } := by
  rw [jobClosed_eq, foldl_closedAtSlot_slot _ _ _ cartSlots_nodup, if_pos (mem_cartSlots i)]

theorem jobClosed_work (handle : Nat) (wasDraining : Bool) {s : State} (runs : s.fm.part ≠ .halted) :
    (jobClosed handle wasDraining s).cbc.work
      = s.cbc.work ++ (cartSlots.filter (writesAtClose handle wasDraining s)).map .writeBack := by
  rw [jobClosed_eq, foldl_closedAtSlot_work _ _ _ cartSlots_nodup _ runs]

/-! ### The media port and the buffer at a close -/

/-- The image in the buffer of a closed job goes. -/
def dropFilling (handle : Nat) (s : State) : State :=
  if s.smc.filling.any (·.handle = handle) then { s with smc := { s.smc with filling := none } } else s

theorem dropFilling_programming (handle : Nat) (s : State) : (dropFilling handle s).smc.programming = s.smc.programming := by
  unfold dropFilling
  split <;> rfl

theorem dropFilling_filling {handle : Nat} {s : State} {f : FillingImage} (held : s.smc.filling = some f) (mine : f.handle = handle) :
    (dropFilling handle s).smc.filling = none := by
  rw [dropFilling, if_pos (by simp [held, mine])]

theorem reviewTimer_smc (s : State) : (reviewTimer s).smc = s.smc := by
  unfold reviewTimer
  split <;> rfl

section CloseImages

variable {handle : Nat} {s : State}

theorem closeImages_other (other : ∀ p, s.smc.programming = some p → p.handle ≠ handle) :
    closeImages handle s = dropFilling handle s := by
  unfold closeImages dropFilling
  cases image : s.smc.programming with
  | none => split <;> simp only [image]
  | some p => split <;> simp only [image, if_neg (other p image)]

variable {p : ProgrammingImage} (image : s.smc.programming = some p) (mine : p.handle = handle)
include image mine

theorem closeImages_inFlight (phase : p.phase = .inFlight) : closeImages handle s = dropFilling handle s := by
  unfold closeImages dropFilling
  split <;> simp only [image, mine, phase, if_true]

theorem closeImages_waiting (phase : p.phase = .waiting) :
    (closeImages handle s).smc.filling = (dropFilling handle s).smc.filling
      ∧ (closeImages handle s).smc.programming = none ∧ ∀ b second, .program handle b second ∉ (closeImages handle s).smc.ops := by
  unfold closeImages dropFilling
  split <;> simp [image, mine, phase]

theorem closeImages_needsBlock (phase : p.phase = .needsBlock) :
    (closeImages handle s).smc.filling = (dropFilling handle s).smc.filling
      ∧ (closeImages handle s).smc.programming = none ∧ p.block ∈ (closeImages handle s).smc.defects.retired := by
  have retired (t : State) : p.block ∈ (retireBlock .program p.block t).smc.defects.retired :=
    (mem_insertNumber _ _ _).mpr (.inl rfl)
  unfold closeImages dropFilling
  split <;> simp only [image, mine, phase, if_true, reviewTimer_smc] <;> exact ⟨rfl, rfl, retired _⟩

end CloseImages

theorem closeImages_filling {handle : Nat} {s : State} {f : FillingImage} (held : s.smc.filling = some f)
    (mine : f.handle = handle) : (closeImages handle s).smc.filling = none := by
  have gone := dropFilling_filling held mine
  by_cases other : ∀ p, s.smc.programming = some p → p.handle ≠ handle
  · rw [closeImages_other other, gone]
  · simp only [not_forall, not_not] at other
    obtain ⟨p, image, same⟩ := other
    cases phase : p.phase with
    | waiting => exact (closeImages_waiting image same phase).1.trans gone
    | inFlight => rw [closeImages_inFlight image same phase, gone]
    | needsBlock => exact (closeImages_needsBlock image same phase).1.trans gone

/-- Leaving its place, a job withdraws reads at most. -/
theorem leavePlace_smc (j : Job) (s : State) : (leavePlace j s).smc.filling = s.smc.filling
    ∧ (leavePlace j s).smc.programming = s.smc.programming ∧ (leavePlace j s).smc.defects = s.smc.defects
    ∧ ∀ op ∈ (leavePlace j s).smc.ops, op ∈ s.smc.ops := by
  unfold leavePlace unqueue leaveActive
  split
  · cases destinationOf j.kind <;> exact ⟨rfl, rfl, rfl, fun op mem => mem⟩
  · cases destinationOf j.kind <;> exact ⟨rfl, rfl, rfl, fun op mem => List.mem_of_mem_filter mem⟩
  · exact ⟨rfl, rfl, rfl, fun op mem => mem⟩

theorem discardHeld_smc (handle : Nat) (s : State) : (discardHeld handle s).smc = s.smc := by
  unfold discardHeld
  split
  · rw [reviewTimer_smc]; rfl
  · rfl

/-! ### The close -/

/-- The record of a closed job. -/
def closedRecord (outcome : JobOutcome) (j : Job) : Job :=
  { j with state := .scrub outcome, expected := none, pages := [], extents := [] }

/-- A close up to the job's leaving its place. -/
def closedLeft (handle : Nat) (j : Job) (s : State) : State :=
  leavePlace j (handToScrub j (closeImages handle (zeroize (slotOf handle) s)))

/-- A close up to the report that the job has closed. -/
def closedUp (outcome : JobOutcome) (handle : Nat) (j : Job) (s : State) : State :=
  moveJob (closedRecord outcome j) { closedLeft handle j s with smc := dropJobReads handle (closedLeft handle j s).smc }

/-- The slots with a record in its own. -/
def slotsWith (r : Job) (slots : Vector JobSlot 64) : Vector JobSlot 64 :=
  slots.set (slotOf r.handle) { slots.get (slotOf r.handle) with job := some r }

section Pieces

variable {t : State} {v : CloseView} (view : closeView t = v)
include view

theorem bc_of_view : t.bc = v.bc := congrArg CloseView.bc view
theorem slots_of_view : t.jt.slots = v.slots := congrArg CloseView.slots view
theorem closedNow_of_view : t.jt.closedNow = v.closedNow := congrArg CloseView.closedNow view
theorem accounts_of_view : t.accounts = v.accounts := congrArg CloseView.accounts view
theorem settings_of_view : t.settings = v.settings := congrArg CloseView.settings view
theorem cbc_of_view : t.cbc = v.cbc := congrArg CloseView.cbc view
theorem list_of_view : t.se.list = v.list := congrArg CloseView.list view
theorem queue_of_view : t.fm.queue = v.queue := congrArg CloseView.queue view
theorem part_of_view : t.fm.part = v.part := congrArg CloseView.part view

end Pieces

theorem closeView_moved (r : Job) (m : SpoolMedia) (t : State) :
    closeView (moveJob r { t with smc := m }) = { closeView t with slots := slotsWith r (closeView t).slots } := rfl

section Close

variable {outcome : JobOutcome} {handle : Nat} {j : Job} {s : State}

theorem closeCore_eq (found : jobOf s.jt handle = some j) (live : isLive j = true) : closeCore outcome handle s =
    noteClosed handle (discardHeld handle (jobClosed handle (isDraining j) (closedUp outcome handle j s))) := by
  simp only [closeCore, found, live, if_true]
  rfl

/-- The blocks a close hands on: those of the job not retired. -/
def handedBlocks (handle : Nat) (j : Job) (s : State) : List Nat :=
  (extentBlocks j.extents).filter fun b => !(closedLeft handle j s).smc.defects.retired.contains b

theorem closedLeft_defects : (closedLeft handle j s).smc.defects = (closeImages handle (zeroize (slotOf handle) s)).smc.defects := by
  rw [closedLeft, (leavePlace_smc j _).2.2.1]
  rfl

theorem closeView_closedLeft : closeView (closedLeft handle j s) =
    { closeView s with
      bc := { s.bc with keys := s.bc.keys.set (slotOf handle) none }
      list := s.se.list ++ (handedBlocks handle j s).map fun b => { block := b, origin := .job j.handle } } := by
  have images : closeView (closeImages handle (zeroize (slotOf handle) s))
      = { closeView s with bc := { s.bc with keys := s.bc.keys.set (slotOf handle) none } } := by
    rw [closeView_closeImages, closeView_zeroize]
  have list : (closeImages handle (zeroize (slotOf handle) s)).se.list = s.se.list := list_of_view images
  have blocks : blocksToScrub (closeImages handle (zeroize (slotOf handle) s)) j = handedBlocks handle j s := by
    rw [handedBlocks, closedLeft_defects, blocksToScrub]
  rw [closedLeft, closeView_leavePlace, closeView_handToScrub, images, list, blocks]

theorem closeView_closedUp : closeView (closedUp outcome handle j s) =
    { closeView s with
      bc := { s.bc with keys := s.bc.keys.set (slotOf handle) none }
      list := s.se.list ++ (handedBlocks handle j s).map fun b => { block := b, origin := .job j.handle }
      slots := slotsWith (closedRecord outcome j) s.jt.slots } := by
  rw [closedUp, closeView_moved, closeView_closedLeft]
  rfl

theorem closedUp_cbc : (closedUp outcome handle j s).cbc = s.cbc :=
  cbc_of_view (closeView_closedUp (outcome := outcome) (handle := handle) (j := j) (s := s))

theorem closedUp_part : (closedUp outcome handle j s).fm.part = s.fm.part :=
  part_of_view (closeView_closedUp (outcome := outcome) (handle := handle) (j := j) (s := s))

theorem closedUp_smc : (closedUp outcome handle j s).smc = dropJobReads handle (closedLeft handle j s).smc := rfl

variable (found : jobOf s.jt handle = some j) (live : isLive j = true)
include found live

theorem closeView_closeCore : closeView (closeCore outcome handle s) =
    { closeView s with
      bc := { s.bc with keys := s.bc.keys.set (slotOf handle) none }
      list := s.se.list ++ (handedBlocks handle j s).map fun b => { block := b, origin := .job j.handle }
      slots := slotsWith (closedRecord outcome j) s.jt.slots
      closedNow := handle :: s.jt.closedNow
      cbc := (jobClosed handle (isDraining j) (closedUp outcome handle j s)).cbc } := by
  have view : closeView (discardHeld handle (jobClosed handle (isDraining j) (closedUp outcome handle j s))) =
      { closeView s with
        bc := { s.bc with keys := s.bc.keys.set (slotOf handle) none }
        list := s.se.list ++ (handedBlocks handle j s).map fun b => { block := b, origin := .job j.handle }
        slots := slotsWith (closedRecord outcome j) s.jt.slots
        cbc := (jobClosed handle (isDraining j) (closedUp outcome handle j s)).cbc } := by
    rw [closeView_discardHeld, closeView_jobClosed, closeView_closedUp]
  rw [closeCore_eq found live]
  generalize discardHeld handle (jobClosed handle (isDraining j) (closedUp outcome handle j s)) = t at view ⊢
  have closedNow : t.jt.closedNow = s.jt.closedNow := congrArg CloseView.closedNow view
  rw [closeView_noteClosed, closedNow, view]

theorem closeCore_smc : (closeCore outcome handle s).smc = dropJobReads handle (closedLeft handle j s).smc := by
  rw [closeCore_eq found live, noteClosed_smc, discardHeld_smc, jobClosed_smc, closedUp_smc]

theorem closeCore_jobOf (mine : j.handle = handle) : jobOf (closeCore outcome handle s).jt handle = some (closedRecord outcome j) := by
  obtain ⟨small, generation, _⟩ := jobOf_slot found
  have slots : (closeCore outcome handle s).jt.slots = slotsWith (closedRecord outcome j) s.jt.slots :=
    slots_of_view (closeView_closeCore found live)
  have slot : (closeCore outcome handle s).jt.slots.get (slotOf handle)
      = { s.jt.slots.get (slotOf handle) with job := some (closedRecord outcome j) } := by
    rw [slots]
    subst mine
    exact get_set_self _ _ _
  rw [jobOf, slot, if_pos]
  rw [Bool.and_eq_true]
  exact ⟨decide_eq_true small, beq_iff_eq.mpr generation⟩

theorem closeCore_reads (q : ReadRequest) (mem : .read q ∈ (closeCore outcome handle s).smc.ops) : q.handle ≠ handle := by
  rw [closeCore_smc found live] at mem
  have := (List.mem_filter.mp mem).2
  simpa using this

theorem closeCore_filling {f : FillingImage} (held : s.smc.filling = some f) (mine : f.handle = handle) :
    (closeCore outcome handle s).smc.filling = none := by
  rw [closeCore_smc found live]
  exact (leavePlace_smc j _).1.trans (closeImages_filling (s := zeroize (slotOf handle) s) held mine)

theorem closeCore_programming : (closeCore outcome handle s).smc.programming
    = (closeImages handle (zeroize (slotOf handle) s)).smc.programming := by
  rw [closeCore_smc found live]
  exact (leavePlace_smc j _).2.1

theorem closeCore_retired : (closeCore outcome handle s).smc.defects
    = (closeImages handle (zeroize (slotOf handle) s)).smc.defects := by
  rw [closeCore_smc found live]
  exact closedLeft_defects

theorem closeCore_ops {op : PortOp} (mem : op ∈ (closeCore outcome handle s).smc.ops) :
    op ∈ (closeImages handle (zeroize (slotOf handle) s)).smc.ops := by
  rw [closeCore_smc found live] at mem
  have mem : op ∈ (closedLeft handle j s).smc.ops := List.mem_of_mem_filter mem
  exact (leavePlace_smc j (handToScrub j _)).2.2.2 op mem

theorem closeCore_programs {p : ProgrammingImage} (image : s.smc.programming = some p) (mine : p.handle = handle) :
    (p.phase = .waiting → (closeCore outcome handle s).smc.programming = none
        ∧ ∀ b second, .program handle b second ∉ (closeCore outcome handle s).smc.ops)
      ∧ (p.phase = .inFlight → (closeCore outcome handle s).smc.programming = some p)
      ∧ (p.phase = .needsBlock → (closeCore outcome handle s).smc.programming = none
        ∧ p.block ∈ (closeCore outcome handle s).smc.defects.retired) := by
  have image : (zeroize (slotOf handle) s).smc.programming = some p := image
  refine ⟨fun phase => ?_, fun phase => ?_, fun phase => ?_⟩
  · obtain ⟨_, none, withdrawn⟩ := closeImages_waiting image mine phase
    exact ⟨(closeCore_programming found live).trans none, fun b second mem => withdrawn b second (closeCore_ops found live mem)⟩
  · rw [closeCore_programming found live, closeImages_inFlight image mine phase, dropFilling_programming, image]
  · obtain ⟨_, none, retired⟩ := closeImages_needsBlock image mine phase
    exact ⟨(closeCore_programming found live).trans none, closeCore_retired (outcome := outcome) found live ▸ retired⟩

theorem closeJob_eq : closeJob outcome handle s =
    if s.bc.stuck.contains (slotOf handle).val then haltPart (.cipherSelftest .readBack) (closeCore outcome handle s)
    else reportScrubbed handle (closeCore outcome handle s) := by
  simp only [closeJob, found, live, if_true]

theorem closeCore_cbc : (closeCore outcome handle s).cbc = (jobClosed handle (isDraining j) (closedUp outcome handle j s)).cbc := by
  rw [cbc_of_view (closeView_closeCore (outcome := outcome) found live)]

theorem closeCore_slot (i : Fin 4) : (closeCore outcome handle s).cbc.slots.get i =
    { s.cbc.slots.get i with drawing := (s.cbc.slots.get i).drawing.erase handle } := by
  rw [closeCore_cbc found live, jobClosed_slot, closedUp_cbc]

theorem closeCore_work (runs : s.fm.part ≠ .halted) : (closeCore outcome handle s).cbc.work =
    s.cbc.work ++ (cartSlots.filter (writesAtClose handle (isDraining j) s)).map .writeBack := by
  rw [closeCore_cbc found live, jobClosed_work _ _ (by rwa [closedUp_part])]
  unfold writesAtClose
  rw [closedUp_cbc]

end Close

theorem isDraining_iff {j : Job} : isDraining j = true ↔ ∃ r, j.state = .draining r := by
  unfold isDraining
  cases j.state <;> simp

theorem holdsVerified_iff {c : CartSlot} :
    holdsVerified c = true ↔ c.verification = .genuine ∨ ∃ r, c.verification = .suspect r := by
  unfold holdsVerified
  cases c.verification <;> simp

theorem writesAtClose_iff {handle : Nat} {j : Job} {s : State} {i : Fin 4} : writesAtClose handle (isDraining j) s i = true ↔
    (∃ r, j.state = .draining r) ∧ handle ∈ (s.cbc.slots.get i).drawing
      ∧ ((s.cbc.slots.get i).verification = .genuine ∨ ∃ r, (s.cbc.slots.get i).verification = .suspect r)
      ∧ (∃ l, (s.cbc.slots.get i).level = some l ∧ 0 < l.pending) ∧ .writeBack i ∉ s.cbc.work := by
  simp only [writesAtClose, closeWriteDue, Bool.and_eq_true, isDraining_iff, holdsVerified_iff,
    Option.any_eq_true, decide_eq_true_eq, gt_iff_lt, Bool.not_eq_true', List.contains_eq_mem, decide_eq_false_iff_not, and_assoc]

/-- Settles O27: the pieces of the part that each step of the close touches. -/
theorem closeZeroizesKey : Obligations.CloseZeroizesKey := by
  intro outcome handle j s found mine live
  have view := closeView_closeCore (outcome := outcome) found live
  have keys : (closeCore outcome handle s).bc.keys = s.bc.keys.set (slotOf handle) none :=
    congrArg BandCipher.keys (bc_of_view view)
  have list : (closeCore outcome handle s).se.list
      = s.se.list ++ (handedBlocks handle j s).map fun b => { block := b, origin := .job j.handle } :=
    list_of_view view
  have handed : handedBlocks handle j s
      = (extentBlocks j.extents).filter fun b => !(closeCore outcome handle s).smc.defects.retired.contains b := by
    rw [handedBlocks, closeCore_smc found live]
    rfl
  rw [handed, mine] at list
  refine ⟨?_, fun i other => ?_, closedNow_of_view view, closeCore_jobOf found live mine, fun e mem => ?_,
    fun b mem => ?_, list, fun free => ?_, fun stuck => ?_, fun f held same => closeCore_filling found live held same,
    closeCore_reads found live, fun p image same => closeCore_programs found live image same, closeCore_slot found live,
    fun runs => ⟨_, cartSlots_ascend.filter _, fun i => ?_, closeCore_work found live runs⟩,
    accounts_of_view view, settings_of_view view, queue_of_view view⟩
  · rw [keys, get_set_self]
  · rw [keys, get_set_ne _ _ other]
  · exact list ▸ List.mem_append_left _ mem
  · by_cases retired : b ∈ (closeCore outcome handle s).smc.defects.retired
    · exact .inl retired
    · refine .inr (list ▸ List.mem_append_right _ (List.mem_map.mpr ⟨b, List.mem_filter.mpr ⟨mem, ?_⟩, rfl⟩))
      simpa using retired
  · rw [closeJob_eq found live, if_neg (by simpa using free)]
  · rw [closeJob_eq found live, if_pos (by simpa using stuck)]
  · rw [List.mem_filter, writesAtClose_iff]
    exact and_iff_right (mem_cartSlots i)

end Sys2Proof.Machine

/-! PROOFS. O30 to O32: the sense channels and the edges that change a level alone. -/

namespace Sys2Proof.Machine

open Host (Outcome)

/-! ### The comparator (R48) -/

section Comparator

variable {c : ChannelSettings} (input : Nat)

theorem comparator_plain (off : c.hysteresis = false) (last : Option Bool) :
    comparator c last input = decide (3300 * (c.code + 1) ≤ input) := by
  rw [← thresholdVoltage]
  unfold comparator
  rw [off]

theorem comparator_anew : comparator c none input = decide (3300 * (c.code + 1) ≤ input) := by
  rw [← thresholdVoltage]
  unfold comparator
  cases c.hysteresis <;> rfl

variable (on : c.hysteresis = true)
include on

theorem comparator_below : comparator c (some false) input = true ↔ 3300 * (c.code + 1) + 25 * 256 ≤ input := by
  rw [← thresholdVoltage]
  unfold comparator
  rw [on]
  exact decide_eq_true_iff

theorem comparator_above : comparator c (some true) input = false ↔ input + 25 * 256 ≤ 3300 * (c.code + 1) := by
  rw [← thresholdVoltage]
  unfold comparator
  rw [on]
  exact (iff_of_eq (Bool.not_eq_false' _)).trans decide_eq_true_iff

end Comparator

theorem rawLevel_eq (c : ChannelSettings) : rawLevel c true = c.highWhenAbove ∧ rawLevel c false = !c.highWhenAbove := by
  unfold rawLevel
  cases c.highWhenAbove <;> exact ⟨rfl, rfl⟩

/-! ### A channel that is watched (R49) -/

@[simp] theorem channelOf_putChannel (ch : Channel) (c : SenseChannel) (s : State) :
    channelOf (putChannel ch c s).spm ch = c := by
  cases ch <;> rfl

@[simp] theorem putChannel_settings (ch : Channel) (c : SenseChannel) (s : State) : (putChannel ch c s).settings = s.settings := by
  cases ch <;> rfl

@[simp] theorem putChannel_clock (ch : Channel) (c : SenseChannel) (s : State) : (putChannel ch c s).clock = s.clock := by
  cases ch <;> rfl

theorem watchLevel_agrees {g : ChannelSettings} {above level : Bool} {c : SenseChannel} (clock : Nat) (held : c.level = some level)
    (same : rawLevel g above = level) :
    watchLevel g clock above c = { input := c.input, above := some above, level := some level, since := none } := by
  simp only [watchLevel, held, same, if_true]

theorem watchLevel_differs {g : ChannelSettings} {above level : Bool} {c : SenseChannel} (clock : Nat) (held : c.level = some level)
    (differs : rawLevel g above ≠ level) : watchLevel g clock above c =
      { input := c.input, above := some above, level := some level, since := some (c.since.getD clock) } := by
  simp only [watchLevel, held, if_neg differs]

theorem followRaw_settled {ch : Channel} {s : State} (settled : (channelOf s.spm ch).since = none) : followRaw ch s = s := by
  simp [followRaw, settled]

theorem followRaw_filtered {ch : Channel} {s : State} (filter : (channelSettings s.settings ch).filter ≠ .off) :
    followRaw ch s = s := by
  simp [followRaw, filter]

theorem followRaw_waits {ch : Channel} {s : State} {since : Nat} (waits : (channelOf s.spm ch).since = some since)
    (filter : (channelSettings s.settings ch).filter = .off) : followRaw ch s = takeEdge ch s := by
  simp [followRaw, waits, filter]

section Watched

variable {ch : Channel} {above level : Bool} {c : SenseChannel} {s : State} (held : c.level = some level)
include held

theorem watched_agrees (same : rawLevel (channelSettings s.settings ch) above = level) :
    followRaw ch (putChannel ch (watchLevel (channelSettings s.settings ch) s.clock above c) s)
      = putChannel ch { input := c.input, above := some above, level := some level, since := none } s := by
  rw [watchLevel_agrees _ held same, followRaw_settled (by rw [channelOf_putChannel])]

variable (differs : rawLevel (channelSettings s.settings ch) above ≠ level)
include differs

theorem watched_waits (filter : (channelSettings s.settings ch).filter ≠ .off) :
    followRaw ch (putChannel ch (watchLevel (channelSettings s.settings ch) s.clock above c) s) = putChannel ch
      { input := c.input, above := some above, level := some level, since := some (c.since.getD s.clock) } s := by
  rw [watchLevel_differs _ held differs, followRaw_filtered (by rwa [putChannel_settings])]

theorem watched_follows (filter : (channelSettings s.settings ch).filter = .off) :
    followRaw ch (putChannel ch (watchLevel (channelSettings s.settings ch) s.clock above c) s) = takeEdge ch (putChannel ch
      { input := c.input, above := some above, level := some level, since := some (c.since.getD s.clock) } s) := by
  rw [watchLevel_differs _ held differs, followRaw_waits (by rw [channelOf_putChannel]) (by rwa [putChannel_settings])]

end Watched

theorem exec_rawLevelChange (ch : Channel) (input : Nat) (s : State) :
    exec (.rawLevelChange ch input) s = if s.powered then
      .next (followRaw ch (putChannel ch (watchLevel (channelSettings s.settings ch) s.clock
        (comparator (channelSettings s.settings ch) (channelOf s.spm ch).above input)
        { channelOf s.spm ch with input := input }) s))
    else .next (putChannel ch { channelOf s.spm ch with input := input } s) := rfl

/-- Settles O30: the comparator, and the branches of the watch. -/
theorem rawLevelIsWatched : Obligations.RawLevelIsWatched := by
  refine ⟨fun c input => ⟨fun off => comparator_plain input off, fun on =>
    ⟨comparator_anew input, comparator_below input on, comparator_above input on⟩, rawLevel_eq c⟩, fun ch input s => ⟨?_, ?_⟩⟩
  · intro on level held
    rw [exec_rawLevelChange, if_pos on]
    exact ⟨fun same => congrArg Outcome.next (watched_agrees (c := { channelOf s.spm ch with input := input }) held same),
      fun differs filter => congrArg Outcome.next (watched_waits (c := { channelOf s.spm ch with input := input }) held differs filter),
      fun differs filter => congrArg Outcome.next (watched_follows (c := { channelOf s.spm ch with input := input }) held differs filter)⟩
  · intro unwatched settled
    rw [exec_rawLevelChange]
    split
    · next on =>
      have none : (channelOf s.spm ch).level = none := unwatched.resolve_left (by simp [on])
      simp only [watchLevel, none]
      rw [followRaw_settled (by rw [channelOf_putChannel]; exact settled)]
    · rfl

/-! ### SENSE_SET (R50) -/

theorem channelField_isSome {n : Nat} : (channelField n).isSome = true ↔ n ≤ 2 := by
  unfold channelField
  split_ifs <;> simp <;> omega

theorem filterField_isSome {n : Nat} : (filterField n).isSome = true ↔ n ≤ 3 := by
  unfold filterField
  split_ifs <;> simp <;> omega

theorem senseSetFields_out {channel code hysteresis filter polarity : Nat}
    (out : 2 < channel ∨ 255 < code ∨ 1 < hysteresis ∨ 3 < filter ∨ 1 < polarity) :
    senseSetFields channel code hysteresis filter polarity = none := by
  unfold senseSetFields
  split
  · next ch off width below isChannel isHysteresis isFilter isPolarity =>
    have channels : channel ≤ 2 := channelField_isSome.mp (by rw [isChannel]; rfl)
    have hystereses : hysteresis ≤ 1 := yesNo_isSome.mp (by rw [isHysteresis]; rfl)
    have filters : filter ≤ 3 := filterField_isSome.mp (by rw [isFilter]; rfl)
    have polarities : polarity ≤ 1 := yesNo_isSome.mp (by rw [isPolarity]; rfl)
    exact if_pos (by omega)
  · rfl

section SenseSet

variable {channel code hysteresis filter polarity : Nat} {s : State}

theorem senseSet_badField (out : senseSetFields channel code hysteresis filter polarity = none) :
    senseSet channel code hysteresis filter polarity s = refuse .badField s := by
  simp only [senseSet, out]

variable {ch : Channel} {g : ChannelSettings} (fields : senseSetFields channel code hysteresis filter polarity = some (ch, g))
include fields

theorem senseSet_locked (locked : (locksOf s).settings = true) :
    senseSet channel code hysteresis filter polarity s = refuse .locked s := by
  simp only [senseSet, fields, locked, if_true]

variable (unlocked : (locksOf s).settings = false)
include unlocked

theorem senseSet_busy (sensor : ch ≠ .supply) (sheets : s.spm.sheets ≠ []) :
    senseSet channel code hysteresis filter polarity s = refuse .busy s := by
  simp only [senseSet, fields, unlocked, Bool.false_eq_true, if_false]
  exact if_pos ⟨sensor, sheets⟩

theorem senseSet_loads (free : ch = .supply ∨ s.spm.sheets = []) :
    senseSet channel code hysteresis filter polarity s =
      { status := .ok
        state := followRaw ch (putChannel ch (watchLevel g s.clock (comparator g none (channelOf s.spm ch).input) (channelOf s.spm ch))
          (setSettings (putChannelSettings ch g s.settings) s)) } := by
  simp only [senseSet, fields, unlocked, Bool.false_eq_true, if_false]
  exact if_neg fun ⟨sensor, sheets⟩ => free.elim sensor sheets

end SenseSet

@[simp] theorem channelSettings_put (ch : Channel) (g : ChannelSettings) (h : Settings) :
    channelSettings (putChannelSettings ch g h) ch = g := by
  cases ch <;> rfl

/-- A channel under new settings, with the comparator result formed anew (R50). -/
def senseLoaded (ch : Channel) (g : ChannelSettings) (level : Bool) (since : Option Nat) (s : State) : State :=
  putChannel ch
    { input := (channelOf s.spm ch).input, above := some (comparator g none (channelOf s.spm ch).input), level := some level
      since := since }
    (setSettings (putChannelSettings ch g s.settings) s)

section SenseSetAnswers

variable {channel code hysteresis filter polarity : Nat} {s : State} {ch : Channel} {g : ChannelSettings} {level : Bool}
  (fields : senseSetFields channel code hysteresis filter polarity = some (ch, g)) (unlocked : (locksOf s).settings = false)
  (free : ch = .supply ∨ s.spm.sheets = []) (held : (channelOf s.spm ch).level = some level)
include fields unlocked free held

theorem senseSet_agrees (same : rawLevel g (comparator g none (channelOf s.spm ch).input) = level) :
    senseSet channel code hysteresis filter polarity s = { status := .ok, state := senseLoaded ch g level none s } := by
  rw [senseSet_loads fields unlocked free, watchLevel_agrees _ held same, followRaw_settled (by rw [channelOf_putChannel]), senseLoaded]

variable (differs : rawLevel g (comparator g none (channelOf s.spm ch).input) ≠ level)
include differs

theorem senseSet_waits (filtered : g.filter ≠ .off) :
    senseSet channel code hysteresis filter polarity s = { status := .ok, state := senseLoaded ch g level (some ((channelOf s.spm ch).since.getD s.clock)) s } := by
  rw [senseSet_loads fields unlocked free, watchLevel_differs _ held differs, followRaw_filtered, senseLoaded]
  rw [putChannel_settings]
  exact (channelSettings_put ch g s.settings).symm ▸ filtered

theorem senseSet_follows (off : g.filter = .off) :
    senseSet channel code hysteresis filter polarity s = { status := .ok, state := takeEdge ch (senseLoaded ch g level (some ((channelOf s.spm ch).since.getD s.clock)) s) } := by
  rw [senseSet_loads fields unlocked free, watchLevel_differs _ held differs, followRaw_waits (by rw [channelOf_putChannel]), senseLoaded]
  rw [putChannel_settings]
  exact (channelSettings_put ch g s.settings).symm ▸ off

end SenseSetAnswers

/-- Settles O31: the refusals, then the watch under the settings loaded. -/
theorem senseSetLoads : Obligations.SenseSetLoads := by
  intro tag channel code hysteresis filter polarity s serving
  refine ⟨fun out => next_request serving (senseSet_badField (senseSetFields_out out)), fun ch g fields =>
    ⟨fun locked => next_request serving (senseSet_locked fields locked),
      fun unlocked sensor sheets => next_request serving (senseSet_busy fields unlocked sensor sheets), ?_, ?_⟩⟩
  · intro unlocked free level held filtered above
    by_cases same : rawLevel g above = level
    · rw [if_pos same]
      exact next_request serving (senseSet_agrees fields unlocked free held same)
    · rw [if_neg same]
      exact next_request serving (senseSet_waits fields unlocked free held same filtered)
  · intro unlocked free level held off
    exact ⟨fun same => next_request serving (senseSet_agrees fields unlocked free held same),
      fun differs => next_request serving (senseSet_follows fields unlocked free held differs off)⟩

/-! ### Edges that change a level alone (R49, R52, R66) -/

theorem edgeDue_iff {s : State} {ch : Channel} : edgeDue s ch = true ↔ EdgeDue s ch := by
  simp [edgeDue, EdgeDue, Option.any_eq_true]

section Edges

variable {ch : Channel} {s : State}

theorem edgeCommand_idle {level : Bool} (not : ¬ EdgeDue s ch ∨ (channelOf s.spm ch).level ≠ some level) :
    edgeCommand ch level s = s := by
  refine if_neg fun due => ?_
  simp only [Bool.and_eq_true, decide_eq_true_eq, edgeDue_iff] at due
  exact not.elim (fun notDue => notDue due.2) (fun other => other due.1.2)

theorem edgeCommand_acts {level : Bool} (on : s.powered = true) (held : (channelOf s.spm ch).level = some level)
    (due : EdgeDue s ch) : edgeCommand ch level s = takeEdge ch s :=
  if_pos (by simp [on, held, edgeDue_iff.mpr due])

theorem trackingOn_off (off : s.spm.jammed = true ∨ s.fm.part ≠ .running) (ch : Channel) (level : Bool) :
    trackingOn (levelTaken ch level s) = false := by
  have same : trackingOn (levelTaken ch level s) = trackingOn s := by cases ch <;> rfl
  rw [same]
  obtain jammed | stopped := off
  · simp [trackingOn, jammed]
  · simp [trackingOn, stopped]

theorem takeEdge_trailing {sensor : PaperSensor} (held : (channelOf s.spm (sensorChannel sensor)).level = some true) :
    takeEdge (sensorChannel sensor) s = levelTaken (sensorChannel sensor) false s := by
  unfold takeEdge
  dsimp only
  rw [held]
  cases sensor <;> rfl

theorem takeEdge_supply {level : Bool} (held : s.spm.supply.level = some level) :
    takeEdge .supply s = settle (askPart (evaluatePermit (levelTaken .supply (!level) s))) := by
  have held : (channelOf s.spm .supply).level = some level := held
  unfold takeEdge
  dsimp only
  rw [held]
  rfl

theorem takeEdge_feed (held : s.spm.feed.level = some false) : takeEdge .feed s =
    if trackingOn (levelTaken .feed true s) then feedEdge (levelTaken .feed true s) else levelTaken .feed true s := by
  have held : (channelOf s.spm .feed).level = some false := held
  unfold takeEdge
  dsimp only
  rw [held]
  rfl

theorem takeEdge_exit (held : s.spm.exit.level = some false) : takeEdge .exit s =
    if trackingOn (levelTaken .exit true s) then exitEdge (levelTaken .exit true s) else levelTaken .exit true s := by
  have held : (channelOf s.spm .exit).level = some false := held
  unfold takeEdge
  dsimp only
  rw [held]
  rfl

end Edges

theorem exec_supplyEdge_due {s : State} (on : s.powered = true) (due : EdgeDue s .supply) :
    exec .supplyEdge s = .next (takeEdge .supply s) :=
  congrArg Outcome.next (if_pos (by simp [on, edgeDue_iff.mpr due]))

theorem exec_supplyEdge_idle {s : State} (notDue : ¬ EdgeDue s .supply) : exec .supplyEdge s = .next s :=
  congrArg Outcome.next (if_neg (by simp [edgeDue_iff, notDue]))

/-- Settles O32: each edge where it acts and where it does not. -/
theorem levelEdges : Obligations.LevelEdges := by
  refine ⟨fun sensor s on => ⟨fun held due => ?_, fun level held due => ?_, fun notDue => ?_, exec_supplyEdge_idle,
    fun idle => ?_, fun idle => ?_, fun other => ?_⟩, fun s on off => ⟨fun held due => ?_, fun held due => ?_⟩⟩
  · exact congrArg Outcome.next ((edgeCommand_acts on held due).trans (takeEdge_trailing held))
  · rw [exec_supplyEdge_due on due, takeEdge_supply held]
  · exact congrArg Outcome.next (edgeCommand_idle (.inl notDue))
  · exact congrArg Outcome.next (edgeCommand_idle (ch := .feed) idle)
  · exact congrArg Outcome.next (edgeCommand_idle (ch := .exit) idle)
  · exact congrArg Outcome.next (edgeCommand_idle (.inr other))
  · refine congrArg Outcome.next ((edgeCommand_acts (ch := .feed) on held due).trans ((takeEdge_feed held).trans ?_))
    rw [trackingOn_off off]
    rfl
  · refine congrArg Outcome.next ((edgeCommand_acts (ch := .exit) on held due).trans ((takeEdge_exit held).trans ?_))
    rw [trackingOn_off off]
    rfl

end Sys2Proof.Machine

/-! PROOFS. O34 and O35: staging, and the grant of a sheet. -/

namespace Sys2Proof.Machine

/-! ### The next side with a page (R56) -/

theorem range_eq_split {k n : Nat} (below : k < n) :
    List.range n = List.range k ++ k :: (List.range (n - k - 1)).map (k + 1 + ·) := by
  rw [show List.range n = List.range (k + 1 + (n - k - 1)) by congr 1; omega, List.range_add, List.range_succ]
  simp

theorem sideFrom_some {sides : List Side} {i k page : Nat} {cls : SideClass} (at_ : sides[k]? = some (.page page cls)) (later : i ≤ k)
    (blank : ∀ m, i ≤ m → m < k → sides[m]? = some .blank) : sideFrom sides i = some (k, page) := by
  have below : k < sides.length := (List.getElem?_eq_some_iff.mp at_).1
  have before : (List.range k).findSome? (fun m => sideFrom.pageAt i m (sides.getD m .blank)) = none := by
    rw [List.findSome?_eq_none_iff]
    intro m mem
    have : m < k := List.mem_range.mp mem
    by_cases low : i ≤ m
    · rw [List.getD_eq_getElem?_getD, blank m low this]
      rfl
    · cases sides.getD m .blank with
      | blank => rfl
      | page n c => exact if_neg low
  rw [sideFrom, List.head?_filterMap, range_eq_split below, List.findSome?_append, before, Option.none_or, List.findSome?_cons,
    List.getD_eq_getElem?_getD, at_]
  simp only [Option.getD_some, sideFrom.pageAt, ge_iff_le, later, if_true]

theorem sideFrom_none {sides : List Side} {i : Nat} (noPage : ∀ k page cls, i ≤ k → sides[k]? ≠ some (.page page cls)) :
    sideFrom sides i = none := by
  unfold sideFrom
  rw [List.head?_filterMap, List.findSome?_eq_none_iff]
  intro k _
  rw [List.getD_eq_getElem?_getD]
  cases at_ : sides[k]? with
  | none => rfl
  | some side =>
    cases side with
    | blank => rfl
    | page n c => exact if_neg fun later => noPage k n c later at_

theorem sideFrom_first {front back : List Side} {page : Nat} {cls : SideClass} (blank : ∀ side ∈ front, side = .blank) :
    sideFrom (front ++ .page page cls :: back) 0 = some (front.length, page) := by
  refine sideFrom_some (cls := cls) (by simp) (Nat.zero_le _) fun m _ below => ?_
  rw [List.getElem?_append_left below, List.getElem?_eq_getElem below, blank _ (List.getElem_mem below)]

/-! ### The start of a staging read (R55) -/

theorem isReading_iff {e : StagingEntry} : isReading e = true ↔ ∃ side band, e.state = .reading side band := by
  unfold isReading
  cases e.state <;> simp

theorem isFailed_iff {e : StagingEntry} : isFailed e = true ↔ ∃ page block, e.state = .failed page block := by
  unfold isFailed
  cases e.state <;> simp

theorem notReady_iff {e : StagingEntry} : (∀ f, e.state ≠ .ready f) ↔ isReading e = true ∨ isFailed e = true := by
  unfold isReading isFailed
  cases e.state <;> simp

theorem startStaging_idle {s : State} (idle : s.spm.jammed = true ∨ 2 ≤ s.spm.staging.length ∨ activeJob s .engine = none
    ∨ ∃ e ∈ s.spm.staging, ∀ f, e.state ≠ .ready f) : startStaging s = none := by
  unfold startStaging
  cases active : activeJob s .engine with
  | none => rfl
  | some j =>
    refine if_pos ?_
    simp only [Bool.or_eq_true, decide_eq_true_eq, List.any_eq_true]
    obtain jammed | full | none | ⟨e, mem, notReady⟩ := idle
    · exact .inl (.inl (.inl jammed))
    · exact .inl (.inl (.inr full))
    · rw [active] at none; cases none
    · exact (notReady_iff.mp notReady).elim (fun h => .inl (.inr ⟨e, mem, h⟩)) fun h => .inr ⟨e, mem, h⟩

/-- Where the next staged sheet is looked for. -/
def stagingStart (s : State) (j : Job) : Nat :=
  match s.spm.staging.getLast? with
  | some e => e.index + 1
  | none => j.nextSheet

/-- The entry of a sheet whose staging begins. -/
def stagedEntry (j : Job) (index : Nat) (state : StageState) : StagingEntry :=
  { handle := j.handle, index := index, sides := sidesOf j index, image := (sidesOf j index).map fun _ => [], state := state }

section StartStaging

variable {s : State} {j : Job} (active : activeJob s .engine = some j) (clear : s.spm.jammed = false)
  (room : s.spm.staging.length < 2) (ready : ∀ e ∈ s.spm.staging, ∃ f, e.state = .ready f)
include active clear room ready

theorem startStaging_eq : startStaging s = (sheetFrom j (stagingStart s j)).bind fun index =>
    (sideFrom (sidesOf j index) 0).map fun place =>
      let (marked, t) := beginRead .staging j.handle place.2 1 s
      { t with spm := { t.spm with
          staging := t.spm.staging ++ [stagedEntry j index (readingState place.1 1 place.2 marked)] } } := by
  have goes : ¬ (s.spm.jammed || decide (s.spm.staging.length ≥ 2) || s.spm.staging.any isReading || s.spm.staging.any isFailed) = true := by
    simp only [clear, Bool.false_or, Bool.or_eq_true, decide_eq_true_eq, List.any_eq_true, not_or, not_exists, not_and]
    refine ⟨⟨by omega, fun e mem reading => ?_⟩, fun e mem failed => ?_⟩
    · obtain ⟨f, state⟩ := ready e mem
      exact (notReady_iff.mpr (.inl reading)) f state
    · obtain ⟨f, state⟩ := ready e mem
      exact (notReady_iff.mpr (.inr failed)) f state
  simp only [startStaging, active, if_neg goes]
  change (match sheetFrom j (stagingStart s j) with | none => none | some index => _) = _
  cases sheetFrom j (stagingStart s j) with
  | none => rfl
  | some index =>
    dsimp only [Option.bind_some]
    cases sideFrom (sidesOf j index) 0 with
    | none => rfl
    | some place => rfl

theorem startStaging_done (done : sheetFrom j (stagingStart s j) = none) : startStaging s = none := by
  rw [startStaging_eq active clear room ready, done]
  rfl

variable {index page : Nat} {front back : List Side} {cls : SideClass} (next : sheetFrom j (stagingStart s j) = some index)
  (sides : sidesOf j index = front ++ .page page cls :: back) (blank : ∀ side ∈ front, side = .blank)
include next sides blank

theorem startStaging_begins : startStaging s =
    some (let (marked, t) := beginRead .staging j.handle page 1 s
          { t with spm := { t.spm with
              staging := t.spm.staging ++ [stagedEntry j index (readingState front.length 1 page marked)] } }) := by
  have place : sideFrom (sidesOf j index) 0 = some (front.length, page) := by rw [sides, sideFrom_first blank]
  rw [startStaging_eq active clear room ready, next, Option.bind_some, place, Option.map_some]

end StartStaging

theorem startStaging_clauses (s : State) :
    ((s.spm.jammed = true ∨ 2 ≤ s.spm.staging.length ∨ activeJob s .engine = none
          ∨ ∃ e ∈ s.spm.staging, ∀ f, e.state ≠ .ready f) → startStaging s = none)
      ∧ ∀ j, activeJob s .engine = some j → s.spm.jammed = false → s.spm.staging.length < 2 →
          (∀ e ∈ s.spm.staging, ∃ f, e.state = .ready f) →
          let start := match s.spm.staging.getLast? with
            | some e => e.index + 1
            | none => j.nextSheet
          (sheetFrom j start = none → startStaging s = none)
          ∧ ∀ index front page cls back, sheetFrom j start = some index → sidesOf j index = front ++ .page page cls :: back →
              (∀ side ∈ front, side = .blank) →
              let staged (state : StageState) (u : State) : State := { u with spm := { u.spm with
                staging := u.spm.staging ++ [{ handle := j.handle, index := index, sides := sidesOf j index
                                               image := (sidesOf j index).map fun _ => [], state := state }] } }
              (markedBlock s j.handle page 1 = none → startStaging s = some (staged (.reading front.length 1)
                (enterOp (.read { reader := .staging, handle := j.handle, page := page, index := 1 }) s)))
              ∧ ∀ b, markedBlock s j.handle page 1 = some b →
                  startStaging s = some (staged (.failed page b) (flagPage j.handle page s)) := by
  refine ⟨startStaging_idle, fun j active clear room ready => ⟨startStaging_done active clear room ready,
    fun index front page cls back next sides blank => ?_⟩⟩
  have begins := startStaging_begins active clear room ready next sides blank
  refine ⟨fun free => ?_, fun b marked => ?_⟩
  · rw [begins, beginRead_clear free]
    rfl
  · rw [begins, beginRead_marked marked]
    rfl

/-! ### The result of a staging read (R56, R58) -/

section Takes

variable {q : ReadRequest} {j : Job} {front back : List StagingEntry} {e : StagingEntry} {side band : Nat} {s : State}
  (staging : s.spm.staging = front ++ e :: back) (state : e.state = .reading side band)
  (others : ∀ x ∈ front ++ back, ∀ a b, x.state ≠ .reading a b)

include others in
theorem notReading_others {x : StagingEntry} (mem : x ∈ front ++ back) : isReading x = false := by
  rw [Bool.eq_false_iff, Ne, isReading_iff]
  exact fun ⟨a, b, reading⟩ => others x mem a b reading

include state others

theorem replaceReading_split (x : StagingEntry) : replaceReading x (front ++ e :: back) = front ++ x :: back := by
  have keep (l : List StagingEntry) (sub : ∀ y ∈ l, y ∈ front ++ back) : l.map (fun y => if isReading y then x else y) = l := by
    rw [List.map_congr_left (g := id) fun y mem => by rw [notReading_others others (sub y mem)]; rfl, List.map_id]
  rw [replaceReading, List.map_append, List.map_cons, keep front fun y => List.mem_append_left _,
    keep back fun y => List.mem_append_right _, if_pos (isReading_iff.mpr ⟨side, band, state⟩)]

include staging

theorem find_reading : s.spm.staging.find? isReading = some e := by
  rw [staging, List.find?_append, List.find?_eq_none.mpr, Option.none_or,
    List.find?_cons_of_pos (isReading_iff.mpr ⟨side, band, state⟩)]
  intro x mem
  rw [notReading_others others (List.mem_append_left _ mem)]
  exact Bool.false_ne_true

variable (reader : q.reader = .staging) (wanted : q.dropped = false) (found : jobOf s.jt q.handle = some j)
include reader wanted found

theorem handResult_failed (block : Nat) : handResult q (.failed block) s =
    { s with spm := { s.spm with staging := front ++ { e with state := .failed q.page block } :: back } } := by
  simp only [handResult, wanted, reader, Bool.false_eq_true, if_false, stagingTakes, find_reading staging state others, found, state]
  rw [staging, replaceReading_split state others]

theorem handResult_data (plain : List Byte) : handResult q (.data plain) s =
    (let taken := advanceStaging j e side band plain s
     { taken.2 with spm := { taken.2.spm with staging := replaceReading taken.1 taken.2.spm.staging } }) := by
  simp only [handResult, wanted, reader, Bool.false_eq_true, if_false, stagingTakes, find_reading staging state others, found, state]

end Takes

/-- The entry with a band added to a side. -/
def withBand (e : StagingEntry) (side : Nat) (plain : List Byte) : StagingEntry :=
  { e with image := e.image.modify side fun bands => bands ++ [plain] }

/-- The next band of an entry that has taken one: the next of the side, or the first of the next side with a page (R56). -/
def nextBand (j : Job) (e : StagingEntry) (side band : Nat) : Option (Nat × Nat × Nat) :=
  match e.sides[side]? with
  | some (.page n _) =>
    if band < bandsOf j n then some (side, n, band + 1) else (sideFrom e.sides (side + 1)).map fun p => (p.1, p.2, 1)
  | _ => none

section Advance

variable {j : Job} {e : StagingEntry} {side band : Nat} {plain : List Byte} {s : State}

theorem advanceStaging_goesOn {place page index : Nat} (next : nextBand j e side band = some (place, page, index)) :
    advanceStaging j e side band plain s =
      (let (marked, t) := beginRead .staging j.handle page index s
       ({ withBand e side plain with state := readingState place index page marked }, t)) := by
  unfold advanceStaging
  change (match nextBand j e side band with | some (_, _, _) => _ | none => _) = _
  rw [next]
  rfl

theorem advanceStaging_ready (next : nextBand j e side band = none) :
    advanceStaging j e side band plain s = ({ withBand e side plain with state := .ready (sheetFigures s j e.sides) }, s) := by
  unfold advanceStaging
  change (match nextBand j e side band with | some (_, _, _) => _ | none => _) = _
  rw [next]
  rfl

end Advance

section Data

variable {q : ReadRequest} {j : Job} {front back : List StagingEntry} {e : StagingEntry} {side band : Nat} {s : State}
  (staging : s.spm.staging = front ++ e :: back) (state : e.state = .reading side band)
  (others : ∀ x ∈ front ++ back, ∀ a b, x.state ≠ .reading a b)
  (reader : q.reader = .staging) (wanted : q.dropped = false) (found : jobOf s.jt q.handle = some j)
include staging state others reader wanted found

theorem handResult_goesOn (plain : List Byte) {place page index : Nat} (next : nextBand j e side band = some (place, page, index)) :
    (markedBlock s j.handle page index = none → handResult q (.data plain) s =
        (let t := enterOp (.read { reader := .staging, handle := j.handle, page := page, index := index }) s
         { t with spm := { t.spm with
            staging := front ++ { withBand e side plain with state := .reading place index } :: back } }))
      ∧ ∀ b, markedBlock s j.handle page index = some b → handResult q (.data plain) s =
        (let t := flagPage j.handle page s
         { t with spm := { t.spm with staging := front ++ { withBand e side plain with state := .failed page b } :: back } }) := by
  refine ⟨fun clear => ?_, fun b marked => ?_⟩
  · rw [handResult_data staging state others reader wanted found, advanceStaging_goesOn next, beginRead_clear clear]
    dsimp only
    rw [enterOp_spm, staging, replaceReading_split state others]
    rfl
  · rw [handResult_data staging state others reader wanted found, advanceStaging_goesOn next, beginRead_marked marked]
    dsimp only
    rw [flagPage_spm, staging, replaceReading_split state others]
    rfl

theorem handResult_ready (plain : List Byte) (next : nextBand j e side band = none) : handResult q (.data plain) s =
    { s with spm := { s.spm with
        staging := front ++ { withBand e side plain with state := .ready (sheetFigures s j e.sides) } :: back } } := by
  rw [handResult_data staging state others reader wanted found, advanceStaging_ready next]
  dsimp only
  rw [staging, replaceReading_split state others]

end Data

theorem bandsOf_entry {j : Job} {n : Nat} {p : PageEntry} (low : 1 ≤ n) (at_ : j.pages[n - 1]? = some p) : bandsOf j n = p.bands := by
  rw [bandsOf, pageEntry_some.mpr ⟨low, at_⟩]
  rfl

section NextBand

variable {j : Job} {e : StagingEntry} {side band n : Nat} {cls : SideClass} {p : PageEntry}
  (at_ : e.sides[side]? = some (.page n cls)) (bands : bandsOf j n = p.bands)
include at_ bands

theorem nextBand_same (more : band < p.bands) : nextBand j e side band = some (side, n, band + 1) := by
  simp only [nextBand, at_, bands, more, if_true]

theorem nextBand_later (done : p.bands ≤ band) : nextBand j e side band = (sideFrom e.sides (side + 1)).map fun p => (p.1, p.2, 1) := by
  simp only [nextBand, at_, bands, Nat.not_lt.mpr done, if_false]

end NextBand

theorem handResult_stagingClauses (q : ReadRequest) (j : Job) (front back : List StagingEntry) (e : StagingEntry) (side band : Nat)
    (s : State) (reader : q.reader = .staging) (wanted : q.dropped = false) (found : jobOf s.jt q.handle = some j)
    (staging : s.spm.staging = front ++ e :: back) (state : e.state = .reading side band)
    (others : ∀ x ∈ front ++ back, ∀ a b, x.state ≠ .reading a b) :
    let put (x : StagingEntry) (u : State) : State := { u with spm := { u.spm with staging := front ++ x :: back } }
    (∀ block, handResult q (.failed block) s = put { e with state := .failed q.page block } s)
      ∧ ∀ plain n cls p, e.sides[side]? = some (.page n cls) → 1 ≤ n → j.pages[n - 1]? = some p →
          let taken : StagingEntry := { e with image := e.image.modify side fun bands => bands ++ [plain] }
          let goesOn (place page index : Nat) : Prop :=
            (markedBlock s j.handle page index = none → handResult q (.data plain) s = put { taken with state := .reading place index }
              (enterOp (.read { reader := .staging, handle := j.handle, page := page, index := index }) s))
            ∧ ∀ b, markedBlock s j.handle page index = some b → handResult q (.data plain) s =
                put { taken with state := .failed page b } (flagPage j.handle page s)
          (band < p.bands → goesOn side n (band + 1))
          ∧ (p.bands ≤ band → ∀ k m other, side < k → e.sides[k]? = some (.page m other) →
              (∀ i, side < i → i < k → e.sides[i]? = some .blank) → goesOn k m 1)
          ∧ (p.bands ≤ band → (∀ k m other, side < k → e.sides[k]? ≠ some (.page m other)) →
              handResult q (.data plain) s = put { taken with state := .ready (sheetFigures s j e.sides) } s) := by
  refine ⟨handResult_failed staging state others reader wanted found, fun plain n cls p at_ low entry => ?_⟩
  have bands := bandsOf_entry low entry
  have goesOn {place page index : Nat} := handResult_goesOn (place := place) (page := page) (index := index)
    staging state others reader wanted found plain
  refine ⟨fun more => goesOn (nextBand_same at_ bands more), fun done k m other after page blank => goesOn ?_, fun done noPage => ?_⟩
  · rw [nextBand_later at_ bands done, sideFrom_some page after blank]
    rfl
  · refine handResult_ready staging state others reader wanted found plain ?_
    rw [nextBand_later at_ bands done, sideFrom_none noPage]
    rfl

/-! ### MU's figures and the discarding of staging -/

theorem planeOf_planesOf (f : Fin 4 → Nat) (i : Fin 4) : planeOf (planesOf f) i = f i := by
  match i with
  | 0 => rfl
  | 1 => rfl
  | 2 => rfl
  | 3 => rfl

theorem densityOf_eq (c : Cartridges) (i : Fin 4) : densityOf c i = match (c.slots.get i).figures with
    | some held => held.density
    | none => 255 := by
  unfold densityOf
  cases (c.slots.get i).figures <;> rfl

theorem sheetFigures_clauses (j : Job) (sides : List Side) (s : State) :
    let media := s.settings.media.getD j.media { area := 624, transit := 3000 }
    let f := sheetFigures s j sides
    f.transit = media.transit ∧ f.cost = sheetCost s.settings.price j media.area sides
      ∧ ∀ i : Fin 4, planeOf f.demand i = (sides.map (sideDemand j media.area
          (match (s.cbc.slots.get i).figures with
            | some held => held.density
            | none => 255) s.settings.meter.idleLoss i)).sum := by
  refine ⟨rfl, rfl, fun i => ?_⟩
  rw [← densityOf_eq]
  exact planeOf_planesOf _ i

theorem failStaging_clauses (s : State) :
    (∀ e rest page block, s.spm.staging = e :: rest → e.state = .failed page block →
        failStaging s = some (stallActive .image e.handle e.index s))
      ∧ ((∀ e, s.spm.staging.head? = some e → ∀ page block, e.state ≠ .failed page block) → failStaging s = none) := by
  refine ⟨fun e rest page block staging state => by simp only [failStaging, staging, state], fun healthy => ?_⟩
  unfold failStaging
  split
  · next e rest staging =>
    split
    · next page block state => exact absurd state (healthy e (by rw [staging]; rfl) page block)
    · rfl
  · rfl

theorem discardStaging_clauses (s : State) :
    let t := discardStaging s
    t.spm = { s.spm with staging := [] }
      ∧ (∀ op, op ∈ t.smc.ops ↔ op ∈ s.smc.ops ∧ ∀ q, op = .read q → q.reader ≠ .staging)
      ∧ (∀ q place physical retries weakLimit, s.smc.inFlight = some (.read q place physical retries weakLimit) →
          q.reader = .staging → t.smc.inFlight = some (.read { q with dropped := true } place physical retries weakLimit)
            ∧ ∀ result u, handResult { q with dropped := true } result u = u)
      ∧ t.jt = s.jt ∧ t.accounts = s.accounts ∧ t.cbc = s.cbc ∧ t.fm = s.fm ∧ t.lif = s.lif ∧ t.smc.defects = s.smc.defects
      ∧ t.smc.marked = s.smc.marked ∧ t.smc.weak = s.smc.weak := by
  refine ⟨rfl, fun op => ?_, fun q place physical retries weakLimit inFlight reader => ⟨?_, fun result u => rfl⟩,
    rfl, rfl, rfl, rfl, rfl, rfl, rfl, rfl⟩
  · refine List.mem_filter.trans (and_congr_right fun _ => ?_)
    cases op with
    | read q => simp
    | _ => simp
  · simp only [discardStaging, dropReads, inFlight, Option.map_some, reader, if_true]

/-- Settles O34: the start of a read, its result, MU's figures, a FAILED entry, and the discarding. -/
theorem stagingReads : Obligations.StagingReads :=
  ⟨startStaging_clauses, handResult_stagingClauses, sheetFigures_clauses, failStaging_clauses, discardStaging_clauses⟩

end Sys2Proof.Machine

/-! PROOFS. O35: the grant of a sheet. -/

namespace Sys2Proof.Machine

/-! ### The slots a sheet requires (R73) and usable slots (R91) -/

theorem sideRuns_iff {cls : SideClass} {i : Fin 4} : sideRuns cls i = true ↔ i = 0 ∨ cls = .colour := by
  cases cls <;> simp [sideRuns]

theorem mem_requiredSlots {sides : List Side} {i : Fin 4} :
    i ∈ requiredSlots sides ↔ ∃ n cls, Side.page n cls ∈ sides ∧ (i = 0 ∨ cls = .colour) := by
  rw [requiredSlots, List.mem_filter, and_iff_right (mem_cartSlots i), List.any_eq_true]
  constructor
  · rintro ⟨side, mem, runs⟩
    cases side with
    | blank => cases runs
    | page n cls => exact ⟨n, cls, mem, sideRuns_iff.mp runs⟩
  · rintro ⟨n, cls, mem, runs⟩
    exact ⟨.page n cls, mem, sideRuns_iff.mpr runs⟩

theorem hasColour_iff {sides : List Side} : hasColour sides = true ↔ ∃ n, Side.page n .colour ∈ sides := by
  rw [hasColour, List.any_eq_true]
  constructor
  · rintro ⟨side, mem, colour⟩
    cases side with
    | blank => cases colour
    | page n cls => exact ⟨n, of_decide_eq_true colour ▸ mem⟩
  · rintro ⟨n, mem⟩
    exact ⟨_, mem, by simp⟩

theorem usable_iff {allow : Bool} {c : CartSlot} : usable allow c = true ↔
    (∃ l, c.level = some l ∧ l.cls ≠ .exhausted)
      ∧ (c.verification = .genuine ∨ ((∃ r, c.verification = .suspect r) ∧ allow = true)) := by
  unfold usable
  rw [Bool.and_eq_true, Option.any_eq_true, and_comm]
  refine and_congr (by simp) ?_
  cases c.verification <;> simp

/-! ### The attempt (R59) -/

section Attempt

variable {s : State} {e : StagingEntry} {rest : List StagingEntry} {f : Figures} {j : Job} {a : Account}

theorem grantAttempt_waits (waits : s.spm.requestPending = false ∨ s.spm.feedPermit = false ∨ 6 ≤ s.spm.sheets.length) :
    grantAttempt s = none := by
  refine if_neg ?_
  simp only [Bool.and_eq_true, decide_eq_true_eq]
  rintro ⟨⟨pending, permit⟩, room⟩
  obtain no | no | full := waits
  · rw [pending] at no; cases no
  · rw [permit] at no; cases no
  · omega

theorem grantAttempt_attempt (pending : s.spm.requestPending = true) (permit : s.spm.feedPermit = true)
    (room : s.spm.sheets.length < 6) (staging : s.spm.staging = e :: rest) (ready : e.state = .ready f)
    (found : jobOf s.jt e.handle = some j) : grantAttempt s = attempt j e f s := by
  simp only [grantAttempt, pending, permit, room, staging, ready, found, decide_true, Bool.and_self, if_true]

theorem attempt_waits {i : Fin 4} (needs : i ∈ requiredSlots e.sides) (unverified : (s.cbc.slots.get i).verification = .unverified) :
    attempt j e f s = none :=
  if_pos (List.any_eq_true.mpr ⟨i, needs, decide_eq_true unverified⟩)

variable (verified : ∀ i ∈ requiredSlots e.sides, (s.cbc.slots.get i).verification ≠ .unverified)
include verified

theorem attempt_verified : ¬ (requiredSlots e.sides).any (fun i => (slotRecord s i).verification = .unverified) = true := by
  rw [List.any_eq_true]
  rintro ⟨i, needs, unverified⟩
  exact verified i needs (of_decide_eq_true unverified)

theorem attempt_supply {i : Fin 4} (needs : i ∈ requiredSlots e.sides) (out : ¬ usable s.settings.allow (s.cbc.slots.get i) = true) :
    attempt j e f s = some (stallActive .supply e.handle e.index s) :=
  (if_neg (attempt_verified verified)).trans (if_pos (List.any_eq_true.mpr ⟨i, needs, by simpa [slotRecord] using out⟩))

variable (supplied : ∀ i ∈ requiredSlots e.sides, usable s.settings.allow (s.cbc.slots.get i) = true)
  (known : findAccount j.owner s.accounts = some a)
include supplied known

theorem attempt_account : attempt j e f s = match reservationAnswer a f.cost (hasColour e.sides) with
    | .reserved => some (grant j e f s)
    | .credit => some (stallActive .credit e.handle e.index s)
    | .account => some (stallActive .account e.handle e.index s) := by
  have all : ¬ (requiredSlots e.sides).any (fun i => !usable s.settings.allow (slotRecord s i)) = true := by
    rw [List.any_eq_true]
    rintro ⟨i, needs, out⟩
    rw [show slotRecord s i = s.cbc.slots.get i from rfl, supplied i needs] at out
    cases out
  simp only [attempt, if_neg (attempt_verified verified), if_neg all, known, Option.map_some]
  cases reservationAnswer a f.cost (hasColour e.sides) <;> rfl

theorem attempt_barred (barred : a.standing = .suspended ∨ (hasColour e.sides = true ∧ a.colourRight = false)) :
    attempt j e f s = some (stallActive .account e.handle e.index s) := by
  rw [attempt_account verified supplied known, reservationAnswer_account.mpr barred]

variable (free : ¬ (a.standing = .suspended ∨ (hasColour e.sides = true ∧ a.colourRight = false)))
include free

theorem attempt_short (short : available a < f.cost) : attempt j e f s = some (stallActive .credit e.handle e.index s) := by
  rw [attempt_account verified supplied known, reservationAnswer_credit.mpr ⟨free, short⟩]

theorem attempt_grants (covered : (f.cost : Int) ≤ available a) : attempt j e f s = some (grant j e f s) := by
  have reserved : reservationAnswer a f.cost (hasColour e.sides) = .reserved := by
    unfold reservationAnswer
    rw [if_neg free, if_neg (not_lt.mpr covered)]
  rw [attempt_account verified supplied known, reserved]

end Attempt

/-! ### The granted sheet (R60) -/

theorem jobOf_putJob {jt : JobTable} {handle : Nat} {j r : Job} (found : jobOf jt handle = some j) (mine : r.handle = handle) :
    jobOf (putJob r jt) handle = some r := by
  obtain ⟨small, generation, _⟩ := jobOf_slot found
  have slot : (putJob r jt).slots.get (slotOf handle) = { jt.slots.get (slotOf handle) with job := some r } := by
    subst mine
    exact get_set_self _ _ _
  rw [jobOf, slot, if_pos]
  rw [Bool.and_eq_true]
  exact ⟨decide_eq_true small, beq_iff_eq.mpr generation⟩

theorem grantedSheet_suspect (s : State) (j : Job) (e : StagingEntry) (f : Figures) :
    (grantedSheet s j e f).nonGenuine = true
      ↔ ∃ i reason, i ∈ requiredSlots e.sides ∧ (s.cbc.slots.get i).verification = .suspect reason := by
  simp only [grantedSheet, List.any_eq_true, slotRecord]
  constructor
  · rintro ⟨i, needs, suspect⟩
    split at suspect
    · next reason is => exact ⟨i, reason, needs, is⟩
    · cases suspect
  · rintro ⟨i, reason, needs, is⟩
    exact ⟨i, needs, by rw [is]⟩

theorem engineSheet_image (instant : Nat) (j : Job) (e : StagingEntry) : (engineSheet instant j e).image =
    List.zipWith (fun side bands => match side with
      | .blank => []
      | .page n _ => bands.mapIdx fun k data =>
          { header := bandHeader instant j n (k + 1) data.length, data := data }) e.sides e.image := by
  refine congrArg (fun under => List.zipWith under e.sides e.image) (funext₂ fun side bands => ?_)
  cases side <;> rfl

section Grant

variable {j : Job} {e : StagingEntry} {f : Figures} {s : State}

/-- The part with the sheet of a grant in the path, before the job's record takes it. -/
def sheetGranted (j : Job) (e : StagingEntry) (f : Figures) (s : State) : State :=
  let t := updateAccount j.owner (reserve f.cost) s
  { t with spm := { t.spm with
    sheets := t.spm.sheets ++ [grantedSheet s j e f], staging := t.spm.staging.tail, requestPending := false
    engineOut := some (engineSheet t.clock j e) } }

theorem grant_eq (found : jobOf s.jt e.handle = some j) : grant j e f s =
    setJob { j with nextSheet := e.index + 1, inFlight := j.inFlight + 1 } (sheetGranted j e f s) := by
  have found : jobOf (sheetGranted j e f s).jt e.handle = some j := by
    rw [sheetGranted, updateAccount_jt]
    exact found
  change changeJob e.handle _ (sheetGranted j e f s) = _
  rw [changeJob, found]

theorem sheetGranted_spm : (sheetGranted j e f s).spm = { s.spm with
    sheets := s.spm.sheets ++ [grantedSheet s j e f], staging := s.spm.staging.tail, requestPending := false
    engineOut := some (engineSheet s.clock j e) } := by
  simp only [sheetGranted, updateAccount_spm, updateAccount_clock]

theorem sheetGranted_frame : (sheetGranted j e f s).settings = s.settings ∧ (sheetGranted j e f s).cbc = s.cbc
    ∧ (sheetGranted j e f s).smc = s.smc ∧ (sheetGranted j e f s).fm = s.fm ∧ (sheetGranted j e f s).jt = s.jt
    ∧ (sheetGranted j e f s).accounts
        = s.accounts.map fun b => if b.id = j.owner then { b with reserved := b.reserved + f.cost } else b := by
  simp only [sheetGranted, updateAccount_settings, updateAccount_cbc, updateAccount_smc, updateAccount_fm, updateAccount_jt,
    updateAccount_accounts, changeAccount, reserve, and_self]

end Grant

/-- Settles O35: the tests of an attempt in their order, and the granted sheet. -/
theorem sheetGrants : Obligations.SheetGrants := by
  intro s e rest f j a staging ready found mine known
  simp only [← mem_requiredSlots, ← hasColour_iff, ← usable_iff]
  refine ⟨grantAttempt_waits, fun pending permit room => ?_⟩
  rw [grantAttempt_attempt pending permit room staging ready found]
  refine ⟨fun ⟨i, needs, unverified⟩ => attempt_waits needs unverified, fun verified ⟨i, needs, out⟩ => attempt_supply verified needs out,
    fun all => ?_⟩
  have verified : ∀ i ∈ requiredSlots e.sides, (s.cbc.slots.get i).verification ≠ .unverified := fun i needs => (all i needs).2
  have supplied : ∀ i ∈ requiredSlots e.sides, usable s.settings.allow (s.cbc.slots.get i) = true := fun i needs => (all i needs).1
  refine ⟨attempt_barred verified supplied known, attempt_short verified supplied known, fun free covered => ?_⟩
  have spm := sheetGranted_spm (j := j) (e := e) (f := f) (s := s)
  obtain ⟨settings, cbc, smc, fm, jt, accounts⟩ := sheetGranted_frame (j := j) (e := e) (f := f) (s := s)
  refine ⟨_, (grantedSheet s j e f).nonGenuine, attempt_grants verified supplied known free covered, grantedSheet_suspect s j e f, ?_⟩
  rw [grant_eq found]
  generalize sheetGranted j e f s = t at spm settings cbc smc fm jt accounts ⊢
  refine ⟨congrArg SheetPath.sheets spm, ?_, congrArg SheetPath.requestPending spm, ?_, ?_, accounts, settings, cbc, smc, fm⟩
  · rw [setJob_spm, spm, staging]
    rfl
  · rw [setJob_spm, spm]
    exact congrArg (fun image => some (EngineSheet.mk e.handle e.index e.sides image)) (engineSheet_image s.clock j e)
  · rw [setJob_jt, jt]
    exact jobOf_putJob found mine

end Sys2Proof.Machine

/-! PROOFS. The cartridge layer: what each operation on a slot changes, and folds over the slots. -/

namespace Sys2Proof.Machine

/-! ### What the operations of CBC leave unchanged -/

/-- The part without the cartridges, the outgoing list and the store: what most operations of CBC leave as it is. -/
def aside (s : State) : State := { s with cbc := {}, lif := {}, ps := {} }

section Aside

variable {s t : State} (same : aside t = aside s)
include same

theorem aside_jt : t.jt = s.jt := by have := congrArg State.jt same; exact this
theorem aside_accounts : t.accounts = s.accounts := by have := congrArg State.accounts same; exact this
theorem aside_spm : t.spm = s.spm := by have := congrArg State.spm same; exact this
theorem aside_settings : t.settings = s.settings := by have := congrArg State.settings same; exact this
theorem aside_smc : t.smc = s.smc := by have := congrArg State.smc same; exact this
theorem aside_bc : t.bc = s.bc := by have := congrArg State.bc same; exact this
theorem aside_se : t.se = s.se := by have := congrArg State.se same; exact this
theorem aside_fm : t.fm = s.fm := by have := congrArg State.fm same; exact this

end Aside

theorem aside_putSlot (i : Fin 4) (c : CartSlot) (s : State) : aside (putSlot i c s) = aside s := rfl

theorem aside_askCartState (i : Fin 4) (s : State) : aside (askCartState i s) = aside s := rfl

theorem aside_queueItem (item : WorkItem) (s : State) : aside (queueItem item s) = aside s := by
  rw [queueItem_eq]
  rfl

theorem aside_changeHistory (entries : List HistoryEntry) (lifetime : Nat) (s : State) :
    aside (changeHistory entries lifetime s) = aside s := by
  unfold changeHistory
  split <;> rfl

theorem aside_updateHistory (i : Fin 4) (suspect : Bool) (s : State) : aside (updateHistory i suspect s) = aside s := by
  simp only [updateHistory]
  split
  · exact aside_changeHistory _ _ s
  · rfl

/-! ### What the operations of CBC change -/

theorem slotRecord_putSlot_self (i : Fin 4) (c : CartSlot) (s : State) : slotRecord (putSlot i c s) i = c := get_set4_self _ _ _

theorem slotRecord_putSlot_ne {i k : Fin 4} (differs : k ≠ i) (c : CartSlot) (s : State) :
    slotRecord (putSlot i c s) k = slotRecord s k := get_set4_ne _ _ differs

theorem changeHistory_cbc (entries : List HistoryEntry) (lifetime : Nat) (s : State) :
    (changeHistory entries lifetime s).cbc = { s.cbc with history := entries, lifetime := lifetime } := by
  unfold changeHistory
  split
  · next same => rw [same.1, same.2]
  · rfl

theorem changeHistory_lif (entries : List HistoryEntry) (lifetime : Nat) (s : State) :
    (changeHistory entries lifetime s).lif = s.lif := by
  unfold changeHistory
  split <;> rfl

/-- The history entry that a slot's figures make (R96). -/
def entryOf (i : Fin 4) (suspect : Bool) (c : Cartridges) (serial : Serial) (l : CartLevel) : HistoryEntry :=
  { serial := serial, family := (c.slots.get i).family.getD 0, colour := i, level := l.mirror, pending := l.pending
    lastSeen := c.lifetime, suspect := suspect || ((historyOf c serial).map (·.suspect)).getD false }

theorem updateHistory_known {i : Fin 4} {suspect : Bool} {s : State} {serial : Serial} {l : CartLevel}
    (known : (s.cbc.slots.get i).serial = some serial) (level : (s.cbc.slots.get i).level = some l) :
    (updateHistory i suspect s).cbc
      = { s.cbc with history := putHistory (heldSerials s.cbc) (entryOf i suspect s.cbc serial l) s.cbc.history } := by
  simp only [updateHistory, slotRecord, known, level]
  rw [changeHistory_cbc]
  rfl

theorem updateHistory_unknown {i : Fin 4} {suspect : Bool} {s : State}
    (unknown : (s.cbc.slots.get i).serial = none ∨ (s.cbc.slots.get i).level = none) : updateHistory i suspect s = s := by
  simp only [updateHistory, slotRecord]
  split
  · next serial l known level => simp [known, level] at unknown
  · rfl

theorem updateHistory_lif (i : Fin 4) (suspect : Bool) (s : State) : (updateHistory i suspect s).lif = s.lif := by
  simp only [updateHistory]
  split
  · exact changeHistory_lif _ _ s
  · rfl

/-- Whatever an update of the history does, the slots, the work list and the lifetime count stand. -/
theorem updateHistory_slots (i : Fin 4) (suspect : Bool) (s : State) : (updateHistory i suspect s).cbc
    = { s.cbc with history := (updateHistory i suspect s).cbc.history } := by
  simp only [updateHistory]
  split
  · rw [changeHistory_cbc]
  · rfl

/-! ### The write-back test (R99) and a new level (R90) -/

/-- A write-back of a slot is due by its figures. -/
def writeDue (pct : Nat) (exhausted : Bool) (c : CartSlot) : Bool :=
  c.level.any fun l => holdsVerified c && decide (0 < l.pending) && (exhausted || decide (writeBackMark (fullOf c) pct ≤ l.pending))

theorem writeBackTest_eq (i : Fin 4) (exhausted : Bool) (s : State) : writeBackTest i exhausted s =
    if writeDue s.settings.meter.writebackPct exhausted (s.cbc.slots.get i) then queueItem (.writeBack i) s else s := by
  cases level : (s.cbc.slots.get i).level with
  | none => simp [writeBackTest, writeDue, slotRecord, level]
  | some l => simp [writeBackTest, writeDue, slotRecord, level]

theorem aside_writeBackTest (i : Fin 4) (exhausted : Bool) (s : State) : aside (writeBackTest i exhausted s) = aside s := by
  rw [writeBackTest_eq]
  split
  · exact aside_queueItem _ s
  · rfl

/-- The work list of a part that does its bus work, with an item where it is due and not on it. -/
theorem queueItem_work {s : State} (runs : s.fm.part ≠ .halted) (item : WorkItem) :
    (queueItem item s).cbc = { s.cbc with work := if item ∈ s.cbc.work then s.cbc.work else s.cbc.work ++ [item] } := by
  rw [queueItem_eq]
  simp only [runs, false_or]

theorem queueItem_cbc (item : WorkItem) (s : State) :
    (queueItem item s).cbc = { s.cbc with work := (queueItem item s).cbc.work } := by
  rw [queueItem_eq]

theorem queueItem_lif (item : WorkItem) (s : State) : (queueItem item s).lif = s.lif := by
  rw [queueItem_eq]

/-- The state with a slot's new level, and its notice where the class changed. -/
def leveled (i : Fin 4) (mirror pending : Nat) (s : State) : State :=
  let c := formLevel s.settings.meter.lowMarkPct mirror pending (slotRecord s i)
  if classOfSlot c = classOfSlot (slotRecord s i) then putSlot i c s else askCartState i (putSlot i c s)

theorem leveled_cbc (i : Fin 4) (mirror pending : Nat) (s : State) : (leveled i mirror pending s).cbc =
    { s.cbc with slots := s.cbc.slots.set i (formLevel s.settings.meter.lowMarkPct mirror pending (s.cbc.slots.get i)) } := by
  unfold leveled
  dsimp only
  split <;> rfl

theorem aside_leveled (i : Fin 4) (mirror pending : Nat) (s : State) : aside (leveled i mirror pending s) = aside s := by
  unfold leveled
  dsimp only
  split <;> rfl

theorem changeLevel_eq (i : Fin 4) (mirror pending : Nat) (s : State) : changeLevel i mirror pending s =
    writeBackTest i (classOfSlot (formLevel s.settings.meter.lowMarkPct mirror pending (slotRecord s i)) == some .exhausted
      && classOfSlot (slotRecord s i) != some .exhausted) (leveled i mirror pending s) := rfl

theorem aside_changeLevel (i : Fin 4) (mirror pending : Nat) (s : State) : aside (changeLevel i mirror pending s) = aside s := by
  rw [changeLevel_eq, aside_writeBackTest, aside_leveled]

/-- The work list after an item is queued where it is due. -/
theorem queued_work {t : State} (runs : t.fm.part ≠ .halted) (due : Bool) (item : WorkItem) :
    (if due then queueItem item t else t).cbc.work
      = if due = true ∧ item ∉ t.cbc.work then t.cbc.work ++ [item] else t.cbc.work := by
  cases due with
  | false => simp
  | true =>
    simp only [if_true, true_and, ite_not]
    rw [queueItem_work runs]

/-! ### Operations taken slot by slot -/

/-- An operation on a slot changes that slot's record by a rule, and puts the slot's item on the work list where it is due and
not there; settings and the part's state stand. -/
structure SlotRule (op : State → Fin 4 → State) (next : Settings → Fin 4 → CartSlot → CartSlot) (item : Fin 4 → WorkItem)
    (due : Settings → Fin 4 → CartSlot → Bool) : Prop where
  slots : ∀ s i, (op s i).cbc.slots = s.cbc.slots.set i (next s.settings i (s.cbc.slots.get i))
  work : ∀ s i, s.fm.part ≠ .halted → (op s i).cbc.work =
    if due s.settings i (s.cbc.slots.get i) = true ∧ item i ∉ s.cbc.work then s.cbc.work ++ [item i] else s.cbc.work
  settings : ∀ s i, (op s i).settings = s.settings
  part : ∀ s i, (op s i).fm.part = s.fm.part

section Folds

variable {op : State → Fin 4 → State} {next : Settings → Fin 4 → CartSlot → CartSlot} {item : Fin 4 → WorkItem}
  {due : Settings → Fin 4 → CartSlot → Bool} (rule : SlotRule op next item due)
include rule

theorem SlotRule.get_self (s : State) (i : Fin 4) : (op s i).cbc.slots.get i = next s.settings i (s.cbc.slots.get i) := by
  rw [rule.slots, get_set4_self]

theorem SlotRule.get_ne (s : State) {i k : Fin 4} (differs : k ≠ i) : (op s i).cbc.slots.get k = s.cbc.slots.get k := by
  rw [rule.slots, get_set4_ne _ _ differs]

theorem SlotRule.fold_settings (l : List (Fin 4)) (s : State) : (l.foldl op s).settings = s.settings := by
  induction l generalizing s with
  | nil => rfl
  | cons i rest ih => rw [List.foldl_cons, ih, rule.settings]

theorem SlotRule.fold_part (l : List (Fin 4)) (s : State) : (l.foldl op s).fm.part = s.fm.part := by
  induction l generalizing s with
  | nil => rfl
  | cons i rest ih => rw [List.foldl_cons, ih, rule.part]

theorem SlotRule.fold_slot {l : List (Fin 4)} (nodup : l.Nodup) (s : State) (i : Fin 4) :
    (l.foldl op s).cbc.slots.get i = if i ∈ l then next s.settings i (s.cbc.slots.get i) else s.cbc.slots.get i := by
  induction l generalizing s with
  | nil => rfl
  | cons k rest ih =>
    obtain ⟨fresh, nodup⟩ := List.nodup_cons.mp nodup
    rw [List.foldl_cons, ih nodup, rule.settings]
    by_cases same : i = k
    · subst same
      rw [rule.get_self, if_neg fresh, if_pos (List.mem_cons_self ..)]
    · rw [rule.get_ne s same]
      simp only [List.mem_cons, same, false_or]

/-- The items that a fold over the slots adds: those due, of slots whose item was not on the list. -/
theorem SlotRule.fold_work (injective : Function.Injective item) {l : List (Fin 4)} (nodup : l.Nodup) (s : State)
    (runs : s.fm.part ≠ .halted) : (l.foldl op s).cbc.work = s.cbc.work
      ++ (l.filter fun i => due s.settings i (s.cbc.slots.get i) && !s.cbc.work.contains (item i)).map item := by
  induction l generalizing s with
  | nil => exact (List.append_nil _).symm
  | cons k rest ih =>
    obtain ⟨fresh, nodup⟩ := List.nodup_cons.mp nodup
    have first : (op s k).cbc.work = s.cbc.work
        ++ if due s.settings k (s.cbc.slots.get k) && !s.cbc.work.contains (item k) then [item k] else [] := by
      rw [rule.work s k runs]
      simp only [Bool.and_eq_true, Bool.not_eq_true', List.contains_eq_mem, decide_eq_false_iff_not]
      split <;> simp
    have others : rest.filter (fun i => due (op s k).settings i ((op s k).cbc.slots.get i) && !(op s k).cbc.work.contains (item i))
        = rest.filter fun i => due s.settings i (s.cbc.slots.get i) && !s.cbc.work.contains (item i) := by
      refine List.filter_congr fun i mem => ?_
      have differs : i ≠ k := fun same => fresh (same ▸ mem)
      have apart : item i ≠ item k := fun same => differs (injective same)
      rw [rule.settings, rule.get_ne s differs, first]
      simp only [List.contains_eq_mem, List.mem_append]
      split <;> simp [apart]
    rw [List.foldl_cons, ih nodup _ (by rwa [rule.part]), others, first, List.filter_cons]
    split <;> simp

end Folds

theorem aside_foldl {op : State → Fin 4 → State} (keeps : ∀ s i, aside (op s i) = aside s) (l : List (Fin 4)) (s : State) :
    aside (l.foldl op s) = aside s := by
  induction l generalizing s with
  | nil => rfl
  | cons i rest ih => rw [List.foldl_cons, ih, keeps]

theorem writeBack_injective : Function.Injective WorkItem.writeBack := fun _ _ same => WorkItem.writeBack.inj same

theorem auth_injective : Function.Injective WorkItem.auth := fun _ _ same => WorkItem.auth.inj same

/-- Slots queue an item where a condition on their record holds. -/
theorem slotRule_queue (item : Fin 4 → WorkItem) (due : Settings → Fin 4 → CartSlot → Bool) :
    SlotRule (fun s i => if due s.settings i (s.cbc.slots.get i) then queueItem (item i) s else s) (fun _ _ c => c) item due where
  slots s i := by
    have same : s.cbc.slots.set i (s.cbc.slots.get i) = s.cbc.slots := Vector.set_getElem_self i.isLt
    rw [same]
    split
    · rw [queueItem_cbc]
    · rfl
  work s i runs := queued_work runs _ _
  settings s i := by
    split
    · exact aside_settings (aside_queueItem _ s)
    · rfl
  part s i := by
    split
    · rw [aside_fm (aside_queueItem _ s)]
    · rfl

/-! ### The deduction of a sheet (R97) -/

/-- A slot draws for a sheet: it holds a verified cartridge with a level, and the sheet demands of its plane. -/
def drawsFrom (demand : Planes) (i : Fin 4) (c : CartSlot) : Option CartLevel :=
  if holdsVerified c && decide (0 < planeOf demand i) then c.level else none

/-- What a draw leaves of a slot. -/
def drawnSlot (pct handle taken : Nat) (l : CartLevel) (c : CartSlot) : CartSlot :=
  { c with
    drawing := if c.drawing.contains handle then c.drawing else c.drawing ++ [handle]
    level := some { mirror := l.mirror - taken, pending := l.pending + taken
                    cls := levelClass (l.mirror - taken) (fullOf c) pct } }

/-- A slot's record after the deduction of a sheet. -/
def deductedSlot (handle : Nat) (demand : Planes) (g : Settings) (i : Fin 4) (c : CartSlot) : CartSlot :=
  match drawsFrom demand i c with
  | some l => drawnSlot g.meter.lowMarkPct handle (min (planeOf demand i) l.mirror) l c
  | none => c

/-- The write-back a deduction makes due. -/
def deductDue (handle : Nat) (demand : Planes) (g : Settings) (i : Fin 4) (c : CartSlot) : Bool :=
  (drawsFrom demand i c).any fun l => writeDue g.meter.writebackPct
    (classOfSlot (deductedSlot handle demand g i c) == some .exhausted && some l.cls != some .exhausted)
    (deductedSlot handle demand g i c)

section Deduct

variable {handle : Nat} {demand : Planes} {s : State} {i : Fin 4} {l : CartLevel}

theorem deductPlane_idle (idle : drawsFrom demand i (s.cbc.slots.get i) = none) : deductPlane handle demand s i = s := by
  unfold drawsFrom at idle
  simp only [deductPlane, slotRecord, gt_iff_lt]
  cases level : (s.cbc.slots.get i).level with
  | none => rfl
  | some l =>
    refine if_neg fun draws => ?_
    rw [if_pos (by simpa [and_comm] using draws), level] at idle
    cases idle

variable (draws : drawsFrom demand i (s.cbc.slots.get i) = some l)
include draws

theorem drawsFrom_level : holdsVerified (s.cbc.slots.get i) = true ∧ 0 < planeOf demand i ∧ (s.cbc.slots.get i).level = some l := by
  unfold drawsFrom at draws
  split at draws
  · next holds =>
    simp only [Bool.and_eq_true, decide_eq_true_eq] at holds
    exact ⟨holds.1, holds.2, draws⟩
  · cases draws

/-- The state of a deduction with the slot's figures changed and its history entry updated. -/
def drawnState (handle : Nat) (demand : Planes) (l : CartLevel) (i : Fin 4) (s : State) : State :=
  let taken := min (planeOf demand i) l.mirror
  updateHistory i false (putSlot i
    { s.cbc.slots.get i with
      drawing := if (s.cbc.slots.get i).drawing.contains handle then (s.cbc.slots.get i).drawing
        else (s.cbc.slots.get i).drawing ++ [handle]
      level := some { l with mirror := l.mirror - taken, pending := l.pending + taken } } s)

theorem deductPlane_draws : deductPlane handle demand s i =
    changeLevel i (l.mirror - min (planeOf demand i) l.mirror) (l.pending + min (planeOf demand i) l.mirror)
      (drawnState handle demand l i s) := by
  obtain ⟨verified, positive, level⟩ := drawsFrom_level draws
  simp only [deductPlane, slotRecord, level, verified, gt_iff_lt, positive, decide_true, Bool.and_self, if_true]
  rfl

end Deduct

theorem aside_drawnState (handle : Nat) (demand : Planes) (l : CartLevel) (i : Fin 4) (s : State) :
    aside (drawnState handle demand l i s) = aside s := by
  rw [drawnState, aside_updateHistory, aside_putSlot]

theorem drawnState_cbc (handle : Nat) (demand : Planes) (l : CartLevel) (i : Fin 4) (s : State) :
    (drawnState handle demand l i s).cbc.work = s.cbc.work
      ∧ (∀ pct, (drawnState handle demand l i s).cbc.slots.set i (formLevel pct (l.mirror - min (planeOf demand i) l.mirror)
            (l.pending + min (planeOf demand i) l.mirror) ((drawnState handle demand l i s).cbc.slots.get i))
          = s.cbc.slots.set i (drawnSlot pct handle (min (planeOf demand i) l.mirror) l (s.cbc.slots.get i)))
      ∧ classOfSlot ((drawnState handle demand l i s).cbc.slots.get i) = some l.cls := by
  unfold drawnState
  dsimp only
  rw [updateHistory_slots]
  refine ⟨rfl, fun pct => ?_, ?_⟩
  · change (s.cbc.slots.set i _).set i (formLevel pct _ _ ((s.cbc.slots.set i _).get i)) = _
    rw [get_set4_self, Vector.set_set]
    rfl
  · change classOfSlot ((s.cbc.slots.set i _).get i) = _
    rw [get_set4_self]
    rfl

theorem deductedSlot_draws {handle : Nat} {demand : Planes} {g : Settings} {i : Fin 4} {c : CartSlot} {l : CartLevel}
    (draws : drawsFrom demand i c = some l) :
    deductedSlot handle demand g i c = drawnSlot g.meter.lowMarkPct handle (min (planeOf demand i) l.mirror) l c := by
  simp only [deductedSlot, draws]

theorem deductedSlot_idle {handle : Nat} {demand : Planes} {g : Settings} {i : Fin 4} {c : CartSlot}
    (idle : drawsFrom demand i c = none) : deductedSlot handle demand g i c = c := by
  simp only [deductedSlot, idle]

/-- The state of a deduction before the write-back test. -/
theorem deductPlane_test {handle : Nat} {demand : Planes} {s : State} {i : Fin 4} {l : CartLevel}
    (draws : drawsFrom demand i (s.cbc.slots.get i) = some l) : ∃ t, aside t = aside s ∧ t.cbc.work = s.cbc.work
      ∧ t.cbc.slots = s.cbc.slots.set i (deductedSlot handle demand s.settings i (s.cbc.slots.get i))
      ∧ t.cbc.history = (drawnState handle demand l i s).cbc.history ∧ t.cbc.lifetime = s.cbc.lifetime
      ∧ deductPlane handle demand s i = writeBackTest i
          (classOfSlot (deductedSlot handle demand s.settings i (s.cbc.slots.get i)) == some .exhausted
            && some l.cls != some .exhausted) t := by
  obtain ⟨work, slots, cls⟩ := drawnState_cbc handle demand l i s
  have kept := aside_drawnState handle demand l i s
  have settings := aside_settings kept
  have lifetime : (drawnState handle demand l i s).cbc.lifetime = s.cbc.lifetime := by
    unfold drawnState
    dsimp only
    rw [updateHistory_slots]
    rfl
  rw [deductPlane_draws draws, changeLevel_eq, deductedSlot_draws draws]
  generalize drawnState handle demand l i s = u at work slots cls kept settings lifetime
  have formed := slots s.settings.meter.lowMarkPct
  have slot := congrArg (fun v => v.get i) formed
  rw [get_set4_self, get_set4_self] at slot
  refine ⟨leveled i (l.mirror - min (planeOf demand i) l.mirror) (l.pending + min (planeOf demand i) l.mirror) u,
    (aside_leveled _ _ _ u).trans kept, ?_, ?_, ?_, ?_, ?_⟩
  · rw [leveled_cbc]
    exact work
  · rw [leveled_cbc, settings]
    exact formed
  · rw [leveled_cbc]
  · rw [leveled_cbc]
    exact lifetime
  · rw [slotRecord, settings, slot, cls]

theorem writeBackTest_cbc (i : Fin 4) (exhausted : Bool) (s : State) :
    (writeBackTest i exhausted s).cbc = { s.cbc with work := (writeBackTest i exhausted s).cbc.work } := by
  rw [writeBackTest_eq]
  split
  · rw [queueItem_cbc]
  · rfl

theorem aside_deductPlane (handle : Nat) (demand : Planes) (s : State) (i : Fin 4) : aside (deductPlane handle demand s i) = aside s := by
  cases draws : drawsFrom demand i (s.cbc.slots.get i) with
  | none => rw [deductPlane_idle draws]
  | some l =>
    obtain ⟨t, kept, _, _, _, _, test⟩ := deductPlane_test (handle := handle) draws
    rw [test, aside_writeBackTest, kept]

/-- The deduction of a sheet, slot by slot. -/
theorem slotRule_deduct (handle : Nat) (demand : Planes) :
    SlotRule (deductPlane handle demand) (deductedSlot handle demand) .writeBack (deductDue handle demand) where
  slots s i := by
    cases draws : drawsFrom demand i (s.cbc.slots.get i) with
    | none =>
      rw [deductPlane_idle draws, deductedSlot_idle draws]
      exact (Vector.set_getElem_self i.isLt).symm
    | some l =>
      obtain ⟨t, _, _, slots, _, _, test⟩ := deductPlane_test (handle := handle) draws
      rw [test, writeBackTest_cbc]
      exact slots
  work s i runs := by
    cases draws : drawsFrom demand i (s.cbc.slots.get i) with
    | none =>
      rw [deductPlane_idle draws, if_neg]
      simp [deductDue, draws]
    | some l =>
      obtain ⟨t, kept, work, slots, _, _, test⟩ := deductPlane_test (handle := handle) draws
      have slot : t.cbc.slots.get i = deductedSlot handle demand s.settings i (s.cbc.slots.get i) := by
        rw [slots, get_set4_self]
      have due : writeDue t.settings.meter.writebackPct
          (classOfSlot (deductedSlot handle demand s.settings i (s.cbc.slots.get i)) == some .exhausted
            && some l.cls != some .exhausted) (t.cbc.slots.get i)
          = deductDue handle demand s.settings i (s.cbc.slots.get i) := by
        rw [slot, aside_settings kept, deductDue, draws]
        rfl
      rw [test, writeBackTest_eq, due, queued_work (by rwa [aside_fm kept]), work]
  settings s i := aside_settings (aside_deductPlane handle demand s i)
  part s i := by rw [aside_fm (aside_deductPlane handle demand s i)]

/-! ### The sheets counted since the last AUTH (R98) -/

/-- A slot's record with one sheet more since its last AUTH. -/
def countedSlot (c : CartSlot) : CartSlot := { c with sheetsSince := min (c.sheetsSince + 1) 65535 }

/-- An AUTH of a slot falls due by its count. -/
def reauthDue (g : Settings) (c : CartSlot) : Bool := holdsVerified c && decide (g.meter.reauthInterval ≤ c.sheetsSince)

theorem reauthTest_eq (s : State) (i : Fin 4) :
    reauthTest s i = if reauthDue s.settings (s.cbc.slots.get i) then queueItem (.auth i) s else s := rfl

theorem countSheet_eq (s : State) (i : Fin 4) :
    countSheet s i = reauthTest (putSlot i (countedSlot (s.cbc.slots.get i)) s) i := rfl

theorem aside_countSheet (s : State) (i : Fin 4) : aside (countSheet s i) = aside s := by
  rw [countSheet_eq, reauthTest_eq]
  split
  · rw [aside_queueItem, aside_putSlot]
  · rfl

theorem slotRule_count : SlotRule countSheet (fun _ _ => countedSlot) .auth (fun g _ c => reauthDue g (countedSlot c)) where
  slots s i := by
    rw [countSheet_eq, reauthTest_eq]
    split
    · rw [queueItem_cbc]; rfl
    · rfl
  work s i runs := by
    have slot : (putSlot i (countedSlot (s.cbc.slots.get i)) s).cbc.slots.get i = countedSlot (s.cbc.slots.get i) := get_set4_self _ _ _
    rw [countSheet_eq, reauthTest_eq, slot]
    exact queued_work (t := putSlot i (countedSlot (s.cbc.slots.get i)) s) runs _ _
  settings s i := aside_settings (aside_countSheet s i)
  part s i := by rw [aside_fm (aside_countSheet s i)]

end Sys2Proof.Machine

/-! PROOFS. The figures of MU and of CBC: class, demand, cost, levels, the history and the write-back. -/

namespace Sys2Proof.Machine

/-! ### MU: class, demand and cost -/

theorem classifyPage_colour {threshold : Nat} {c : Planes} :
    classifyPage threshold c = .colour ↔ threshold ≤ c.c ∨ threshold ≤ c.m ∨ threshold ≤ c.y := by
  unfold classifyPage
  split_ifs with high
  · simpa [le_max_iff] using high
  · simpa [le_max_iff] using high

/-- A demand is rounded up to whole units, and the idle loss added. -/
theorem planeDemand_bounds (coverage area density idle : Nat) : ∃ units, planeDemand coverage area density idle = units + idle
    ∧ coverage * area * density ≤ units * 10000 ∧ units * 10000 < coverage * area * density + 10000 := by
  refine ⟨(coverage * area * density + 9999) / 10000, rfl, ?_, ?_⟩ <;> omega

theorem sideCost_bound (p : PriceSettings) (area : Nat) (cls : SideClass) (c : Planes) : sideCost p area cls c ≤ 10000 :=
  min_le_right _ _

theorem sideCost_price (p : PriceSettings) (area : Nat) (cls : SideClass) (c : Planes) :
    let price := match decide (650 < area), cls with
      | false, .mono => p.stdMono
      | false, .colour => p.stdColour
      | true, .mono => p.largeMono
      | true, .colour => p.largeColour
    (c.k + c.c + c.m + c.y ≤ p.heavyThreshold → sideCost p area cls c = min price 10000)
      ∧ (p.heavyThreshold < c.k + c.c + c.m + c.y → sideCost p area cls c = min (price + p.heavySurcharge) 10000) := by
  unfold sideCost
  cases large : isLarge area <;> have size : decide (650 < area) = isLarge area := rfl <;>
    rw [size, large] <;> cases cls <;>
    exact ⟨fun light => by simp [Nat.not_lt.mpr light], fun heavy => by simp [heavy]⟩

theorem backCost_bounds (pct cost : Nat) :
    100 * backCost pct cost ≤ cost * pct + 50 ∧ cost * pct + 50 < 100 * backCost pct cost + 100 := by
  unfold backCost
  omega

theorem costOfSide_page {p : PriceSettings} {j : Job} {area page : Nat} {cls : SideClass} (low : 1 ≤ page) :
    costOfSide p j area (.page page cls) = ((j.pages[page - 1]?).map fun e => sideCost p area cls e.coverage).getD 0 := by
  cases at_ : j.pages[page - 1]? with
  | none => simp [costOfSide, pageEntry, at_]
  | some e => simp [costOfSide, pageEntry_of_index low at_]

theorem costOfSide_bound (p : PriceSettings) (j : Job) (area : Nat) (side : Side) : costOfSide p j area side ≤ 10000 := by
  cases side with
  | blank => exact Nat.zero_le _
  | page number cls =>
    cases entry : pageEntry j number with
    | none => simp [costOfSide, entry]
    | some e => simpa [costOfSide, entry] using sideCost_bound p area cls e.coverage

theorem backCost_bound {pct cost : Nat} (percent : pct ≤ 100) (capped : cost ≤ 10000) : backCost pct cost ≤ 10000 := by
  have product : cost * pct ≤ 10000 * 100 := Nat.mul_le_mul capped percent
  unfold backCost
  omega

theorem sheetCost_bound {p : PriceSettings} {j : Job} {area : Nat} {sides : List Side} (short : sides.length ≤ 2)
    (percent : p.duplexPct ≤ 100) : sheetCost p j area sides ≤ 20000 := by
  match sides, short with
  | [], _ => exact Nat.zero_le _
  | [front], _ =>
    have := costOfSide_bound p j area front
    simp only [sheetCost, List.map_nil, List.sum_nil]
    omega
  | [front, back], _ =>
    have := costOfSide_bound p j area front
    have := backCost_bound percent (costOfSide_bound p j area back)
    simp only [sheetCost, List.map_cons, List.map_nil, List.sum_cons, List.sum_nil]
    omega

/-! ### CBC: levels -/

theorem levelClass_exhausted {mirror full pct : Nat} : levelClass mirror full pct = .exhausted ↔ mirror = 0 := by
  unfold levelClass
  split_ifs with zero low <;> simp [zero]

theorem levelClass_low {mirror full pct : Nat} :
    levelClass mirror full pct = .low ↔ 0 < mirror ∧ mirror * 100 ≤ full * pct := by
  rw [← Nat.le_div_iff_mul_le (by decide)]
  unfold levelClass
  split_ifs with zero low
  · simp [zero]
  · simp [low, Nat.pos_of_ne_zero zero]
  · simp [low]

theorem levelClass_ok {mirror full pct : Nat} :
    levelClass mirror full pct = .ok ↔ 0 < mirror ∧ full * pct < mirror * 100 := by
  rw [← Nat.div_lt_iff_lt_mul (by decide)]
  unfold levelClass
  split_ifs with zero low
  · simp [zero]
  · simp [low]
  · simp [Nat.pos_of_ne_zero zero, Nat.lt_of_not_le low]

/-! ### CBC: a deduction -/

theorem drawsFrom_of {demand : Planes} {i : Fin 4} {c : CartSlot} {l : CartLevel} (level : c.level = some l)
    (verified : holdsVerified c = true) (positive : 0 < planeOf demand i) : drawsFrom demand i c = some l := by
  rw [drawsFrom, verified, decide_eq_true positive, Bool.and_self, if_pos rfl, level]

theorem deductPlane_slot {handle : Nat} {demand : Planes} {s : State} {i : Fin 4} {l : CartLevel}
    (draws : drawsFrom demand i (s.cbc.slots.get i) = some l) : (deductPlane handle demand s i).cbc.slots.get i
      = drawnSlot s.settings.meter.lowMarkPct handle (min (planeOf demand i) l.mirror) l (s.cbc.slots.get i) := by
  rw [(slotRule_deduct handle demand).get_self, deductedSlot_draws draws]

/-- The flag of an entry is kept where the history knows the serial. -/
theorem suspectFlag_eq (c : Cartridges) (serial : Serial) :
    ((historyOf c serial).map (·.suspect)).getD false = (c.history.find? (·.serial == serial)).any (·.suspect) := by
  unfold historyOf
  cases c.history.find? (·.serial == serial) <;> rfl

/-- A slot's new level leaves the serials the slots hold. -/
theorem heldSerials_set {c : Cartridges} {i : Fin 4} {r : CartSlot} (same : r.serial = (c.slots.get i).serial) :
    heldSerials { c with slots := c.slots.set i r } = heldSerials c := by
  refine congrArg (List.filterMap · cartSlots) (funext fun k => ?_)
  by_cases at_ : k = i
  · subst at_
    change ((c.slots.set k r).get k).serial = _
    rw [get_set4_self, same]
  · change ((c.slots.set i r).get k).serial = _
    rw [get_set4_ne _ _ at_]

theorem mem_heldSerials {c : Cartridges} {serial : Serial} :
    serial ∈ heldSerials c ↔ ∃ i : Fin 4, (c.slots.get i).serial = some serial := by
  simp [heldSerials, List.mem_filterMap, mem_cartSlots]

/-- The history after a slot has been drawn from. -/
theorem deductPlane_history {handle : Nat} {demand : Planes} {s : State} {i : Fin 4} {l : CartLevel}
    (draws : drawsFrom demand i (s.cbc.slots.get i) = some l) :
    ((s.cbc.slots.get i).serial = none → (deductPlane handle demand s i).cbc.history = s.cbc.history)
      ∧ ∀ serial, (s.cbc.slots.get i).serial = some serial → (deductPlane handle demand s i).cbc.history
        = putHistory (heldSerials s.cbc)
          { serial := serial, family := (s.cbc.slots.get i).family.getD 0, colour := i
            level := l.mirror - min (planeOf demand i) l.mirror, pending := l.pending + min (planeOf demand i) l.mirror
            lastSeen := s.cbc.lifetime
            suspect := (s.cbc.history.find? (·.serial == serial)).any (·.suspect) } s.cbc.history := by
  obtain ⟨t, _, _, _, history, _, test⟩ := deductPlane_test (handle := handle) draws
  rw [test, writeBackTest_cbc]
  rw [show ∀ w, ({ t.cbc with work := w } : Cartridges).history = t.cbc.history from fun _ => rfl, history]
  unfold drawnState
  dsimp only
  refine ⟨fun unknown => ?_, fun serial known => ?_⟩
  · rw [updateHistory_unknown (.inl ?_)]
    · rfl
    · change ((s.cbc.slots.set i _).get i).serial = none
      rw [get_set4_self]
      exact unknown
  · rw [updateHistory_known (serial := serial)
      (l := { l with mirror := l.mirror - min (planeOf demand i) l.mirror, pending := l.pending + min (planeOf demand i) l.mirror })]
    · change putHistory (heldSerials { s.cbc with slots := s.cbc.slots.set i _ }) (entryOf i false _ serial _) s.cbc.history = _
      rw [heldSerials_set (by rfl)]
      refine congrArg (putHistory (heldSerials s.cbc) · s.cbc.history) ?_
      unfold entryOf
      rw [suspectFlag_eq]
      change HistoryEntry.mk serial (((s.cbc.slots.set i _).get i).family.getD 0) _ _ _ _ _ = _
      rw [get_set4_self]
      rfl
    · change ((s.cbc.slots.set i _).get i).serial = some serial
      rw [get_set4_self]
      exact known
    · change ((s.cbc.slots.set i _).get i).level = _
      rw [get_set4_self]

/-! ### CBC: the history's room -/

/-- The least recently seen entry whose serial no slot holds is the one that leaves (R96). -/
theorem dropLastUnheld_split {held : List Serial} {front back : List HistoryEntry} {x : HistoryEntry} (unheld : x.serial ∉ held)
    (rest : ∀ y ∈ back, y.serial ∈ held) : dropLastUnheld held (front ++ x :: back) = front ++ back := by
  induction front with
  | nil =>
    rw [List.nil_append, dropLastUnheld, if_neg, if_neg]
    · rfl
    · simpa using unheld
    · simpa using rest
  | cons y front ih =>
    rw [List.cons_append, dropLastUnheld, if_pos, ih]
    · rfl
    · simp [unheld]

theorem putHistory_known {held : List Serial} {e : HistoryEntry} {entries : List HistoryEntry}
    (known : ∃ x ∈ entries, x.serial = e.serial) : putHistory held e entries = e :: entries.filter (·.serial != e.serial) := by
  rw [putHistory, if_pos]
  simpa using known

theorem putHistory_new {held : List Serial} {e : HistoryEntry} {entries : List HistoryEntry}
    (new : ∀ x ∈ entries, x.serial ≠ e.serial) : putHistory held e entries
      = e :: if 32 ≤ entries.length then dropLastUnheld held entries else entries := by
  rw [putHistory, if_neg]
  · rfl
  · simpa using new

/-! ### CBC: the settling of a write-back -/

theorem settleWriteBack_bounds (mirror pending amount level : Nat) :
    (settleWriteBack mirror pending amount level).1 ≤ mirror ∧ (settleWriteBack mirror pending amount level).2 ≤ pending
      ∧ (settleWriteBack mirror pending amount level).1 + (settleWriteBack mirror pending amount level).2 ≤ level := by
  unfold settleWriteBack
  dsimp only
  omega

theorem settleWriteBack_whole (mirror pending level : Nat) :
    settleWriteBack mirror pending pending level = (min mirror level, 0) := by
  simp [settleWriteBack]

theorem settleWriteBack_exact {mirror pending amount : Nat} :
    settleWriteBack mirror pending amount (mirror + (pending - amount)) = (mirror, pending - amount) := by
  unfold settleWriteBack
  ext <;> dsimp only <;> omega

/-- Settles O38: MU's figures by their definitions, CBC's by the layer of the slots. -/
theorem meterFigures : Obligations.MeterFigures := by
  refine ⟨⟨fun threshold c => ⟨classifyPage_colour, rfl, rfl⟩, planeDemand_bounds, sideCost_price, backCost_bounds, ?_, ?_,
      fun p j area sides => sheetCost_bound⟩,
    fun mirror full pct => ⟨levelClass_exhausted, levelClass_low, levelClass_ok⟩, ?_, ?_, fun _ _ => mem_heldSerials, ?_⟩
  · refine fun j area density idle i => ⟨rfl, fun page p low at_ => ?_⟩
    have entry := pageEntry_of_index low at_
    refine ⟨by simp [sideDemand, sideRuns, entry], fun key => ?_, fun other => by simp [sideDemand, sideRuns, other]⟩
    subst key
    simp only [sideDemand, sideRuns, decide_true, if_true, entry]
    rfl
  · intro p j area inFull front low
    have inFull_eq : ∀ side, (∀ page cls, side = .page page cls → 1 ≤ page) → costOfSide p j area side = inFull side := by
      intro side low
      cases side with
      | blank => rfl
      | page page cls => exact costOfSide_page (low page cls rfl)
    refine ⟨?_, fun back lowBack => ?_⟩
    · simp [sheetCost, inFull_eq front low]
    · simp [sheetCost, inFull_eq front low, inFull_eq back lowBack]
  · intro handle demand s i l level verified positive t taken
    have draws := drawsFrom_of (i := i) level verified positive
    have slot : t.cbc.slots.get i = _ := deductPlane_slot (handle := handle) draws
    have kept : aside t = aside s := aside_deductPlane handle demand s i
    obtain ⟨unknown, known⟩ := deductPlane_history (handle := handle) draws
    refine ⟨by rw [slot]; rfl, ?_, unknown, known, fun k other => (slotRule_deduct handle demand).get_ne s other,
      aside_accounts kept, aside_jt kept, aside_spm kept, aside_smc kept, aside_se kept⟩
    rw [slot]
    unfold drawnSlot
    dsimp only
    split
    · next listed => simpa using listed
    · simp
  · intro held e entries
    refine ⟨putHistory_known, fun new => ⟨fun room => ?_, fun full front x back split unheld rest => ?_⟩⟩
    · rw [putHistory_new new, if_neg (by omega)]
    · rw [putHistory_new new, if_pos full, split, dropLastUnheld_split unheld rest]
  · intro mirror pending amount level after
    obtain ⟨fewer, less, sum⟩ := settleWriteBack_bounds mirror pending amount level
    refine ⟨fewer, less, sum, ?_, ?_⟩
    · rintro rfl
      exact settleWriteBack_whole _ _ _
    · rintro _ rfl
      exact settleWriteBack_exact

end Sys2Proof.Machine

/-! PROOFS. Leading edges: the sheet that enters, the sheet delivered, and what the job and the cartridges make of it. -/

namespace Sys2Proof.Machine

open Host (Outcome)

/-! ### The sheet queue at an edge -/

theorem enterOldest_of_split {now : Nat} {front back : List Sheet} {sh : Sheet} (entered : ∀ x ∈ front, x.entered = true)
    (granted : sh.entered = false) : enterOldest now (front ++ sh :: back)
      = some (sh, front ++ { sh with entered := true, deadline := now + sh.transit } :: back) := by
  induction front with
  | nil => simp [enterOldest, granted]
  | cons x front ih =>
    obtain ⟨first, others⟩ := List.forall_mem_cons.mp entered
    rw [List.cons_append, enterOldest, if_pos first, ih others]
    rfl

theorem enterOldest_none {now : Nat} {queue : List Sheet} (entered : ∀ x ∈ queue, x.entered = true) :
    enterOldest now queue = none := by
  induction queue with
  | nil => rfl
  | cons x rest ih =>
    obtain ⟨first, others⟩ := List.forall_mem_cons.mp entered
    rw [enterOldest, if_pos first, ih others]
    rfl

theorem trackingOn_levelTaken {s : State} (clear : s.spm.jammed = false) (runs : s.fm.part = .running) (ch : Channel)
    (level : Bool) : trackingOn (levelTaken ch level s) = true := by
  have same : trackingOn (levelTaken ch level s) = trackingOn s := by cases ch <;> rfl
  rw [same]
  simp [trackingOn, clear, runs]

theorem feedEdge_taken {s : State} (on : s.powered = true) (held : s.spm.feed.level = some false) (due : EdgeDue s .feed)
    (clear : s.spm.jammed = false) (runs : s.fm.part = .running) :
    exec .feedLeadingEdge s = .next (feedEdge (levelTaken .feed true s)) := by
  refine congrArg Outcome.next ((edgeCommand_acts (ch := .feed) on held due).trans ((takeEdge_feed held).trans ?_))
  rw [if_pos (trackingOn_levelTaken clear runs .feed true)]

theorem exitEdge_taken {s : State} (on : s.powered = true) (held : s.spm.exit.level = some false) (due : EdgeDue s .exit)
    (clear : s.spm.jammed = false) (runs : s.fm.part = .running) :
    exec .exitLeadingEdge s = .next (exitEdge (levelTaken .exit true s)) := by
  refine congrArg Outcome.next ((edgeCommand_acts (ch := .exit) on held due).trans ((takeEdge_exit held).trans ?_))
  rw [if_pos (trackingOn_levelTaken clear runs .exit true)]

/-! ### The job's part of an exit (R9) -/

/-- A job's record after one of its sheets has been delivered. -/
def deliveredJob (cost : Nat) (j : Job) : Job :=
  { j with delivered := min (j.delivered + 1) 4294967295, inFlight := j.inFlight - 1
           charged := min (j.charged + cost) 4294967295 }

theorem reportExit_none {sh : Sheet} {s : State} (gone : jobOf s.jt sh.handle = none) : reportExit sh s = s := by
  rw [reportExit, gone]

theorem reportExit_kept {sh : Sheet} {s : State} {j : Job} (found : jobOf s.jt sh.handle = some j)
    (kept : (∀ r, j.state ≠ .draining r) ∨ 1 < j.inFlight) : reportExit sh s = setJob (deliveredJob sh.cost j) s := by
  rw [reportExit, found]
  dsimp only
  split
  · next r state =>
    have more : 1 < j.inFlight := kept.resolve_left fun never => never r state
    rw [if_neg (by omega)]
    rfl
  · rfl

/-- The outcome of a job whose draining ends. -/
def drainedOutcome : DrainReason → JobOutcome
  | .ends => .completed
  | .cancel => .cancelled

theorem reportExit_last {sh : Sheet} {s : State} {j : Job} {r : DrainReason} (found : jobOf s.jt sh.handle = some j)
    (state : j.state = .draining r) (last : j.inFlight ≤ 1) (own : j.handle = sh.handle) :
    reportExit sh s = closeJob (drainedOutcome r) sh.handle (setJob (deliveredJob sh.cost j) s) := by
  rw [reportExit, found]
  dsimp only
  simp only [deliveredJob, state]
  rw [if_pos (by omega), ← own]
  cases r <;> rfl

/-! ### The deductions of a sheet over the slots -/

theorem changeHistory_counted (s : State) (lifetime : Nat) :
    (changeHistory s.cbc.history lifetime s).cbc = { s.cbc with lifetime := lifetime } := changeHistory_cbc _ _ s

theorem deductPlane_lifetime (handle : Nat) (demand : Planes) (s : State) (i : Fin 4) :
    (deductPlane handle demand s i).cbc.lifetime = s.cbc.lifetime := by
  cases draws : drawsFrom demand i (s.cbc.slots.get i) with
  | none => rw [deductPlane_idle draws]
  | some l =>
    obtain ⟨t, _, _, _, _, lifetime, test⟩ := deductPlane_test (handle := handle) draws
    rw [test, writeBackTest_cbc]
    exact lifetime

theorem deductedSlot_serial (handle : Nat) (demand : Planes) (g : Settings) (i : Fin 4) (c : CartSlot) :
    (deductedSlot handle demand g i c).serial = c.serial := by
  unfold deductedSlot
  split <;> rfl

theorem deductPlane_serial (handle : Nat) (demand : Planes) (s : State) (i k : Fin 4) :
    ((deductPlane handle demand s i).cbc.slots.get k).serial = (s.cbc.slots.get k).serial := by
  by_cases same : k = i
  · subst same
    rw [(slotRule_deduct handle demand).get_self, deductedSlot_serial]
  · rw [(slotRule_deduct handle demand).get_ne s same]

theorem countSheet_stands (s : State) (i : Fin 4) :
    (countSheet s i).cbc.lifetime = s.cbc.lifetime ∧ (countSheet s i).cbc.history = s.cbc.history := by
  rw [countSheet_eq, reauthTest_eq]
  split
  · rw [queueItem_cbc]
    exact ⟨rfl, rfl⟩
  · exact ⟨rfl, rfl⟩

theorem foldl_stands {α : Type} {f : State → α} {op : State → Fin 4 → State} (stands : ∀ s i, f (op s i) = f s) (l : List (Fin 4))
    (s : State) : f (l.foldl op s) = f s := by
  induction l generalizing s with
  | nil => rfl
  | cons i rest ih => rw [List.foldl_cons, ih, stands]

theorem deductPlanes_idle {handle : Nat} {demand : Planes} {s : State}
    (idle : ∀ i, drawsFrom demand i (s.cbc.slots.get i) = none) (l : List (Fin 4)) : l.foldl (deductPlane handle demand) s = s := by
  induction l with
  | nil => rfl
  | cons i rest ih => rw [List.foldl_cons, deductPlane_idle (idle i), ih]

/-! ### The history entry of a slot stays while other slots' entries are put -/

theorem mem_dropLastUnheld {held : List Serial} {entries : List HistoryEntry} {e : HistoryEntry} (mem : e ∈ entries)
    (isHeld : e.serial ∈ held) : e ∈ dropLastUnheld held entries := by
  induction entries with
  | nil => exact mem
  | cons x rest ih =>
    unfold dropLastUnheld
    obtain rfl | later := List.mem_cons.mp mem
    · split_ifs with more kept
      · exact List.mem_cons_self ..
      · exact mem
      · exact absurd (by simpa using isHeld) kept
    · split_ifs with more kept
      · exact List.mem_cons_of_mem _ (ih later)
      · exact mem
      · exact later

theorem mem_putHistory_other {held : List Serial} {entries : List HistoryEntry} {e x : HistoryEntry} (mem : e ∈ entries)
    (isHeld : e.serial ∈ held) (other : e.serial ≠ x.serial) : e ∈ putHistory held x entries := by
  unfold putHistory
  split_ifs with known full
  · exact List.mem_cons_of_mem _ (List.mem_filter.mpr ⟨mem, by simpa using other⟩)
  · exact List.mem_cons_of_mem _ (mem_dropLastUnheld mem isHeld)
  · exact List.mem_cons_of_mem _ mem

theorem mem_putHistory_self (held : List Serial) (x : HistoryEntry) (entries : List HistoryEntry) : x ∈ putHistory held x entries := by
  unfold putHistory
  split <;> exact List.mem_cons_self ..

/-- The entry of a serial that one slot alone holds. -/
structure SoleEntry (i : Fin 4) (serial : Serial) (e : HistoryEntry) (s : State) : Prop where
  mem : e ∈ s.cbc.history
  own : e.serial = serial
  held : (s.cbc.slots.get i).serial = some serial
  sole : ∀ k, k ≠ i → (s.cbc.slots.get k).serial ≠ some serial

theorem SoleEntry.deductPlane {i k : Fin 4} {serial : Serial} {e : HistoryEntry} {s : State} (entry : SoleEntry i serial e s)
    (other : k ≠ i) (handle : Nat) (demand : Planes) : SoleEntry i serial e (deductPlane handle demand s k) := by
  refine ⟨?_, entry.own, (deductPlane_serial handle demand s k i).trans entry.held, fun m differs => ?_⟩
  · cases draws : drawsFrom demand k (s.cbc.slots.get k) with
    | none => rw [deductPlane_idle draws]; exact entry.mem
    | some l =>
      obtain ⟨unknown, known⟩ := deductPlane_history (handle := handle) draws
      cases own : (s.cbc.slots.get k).serial with
      | none => rw [unknown own]; exact entry.mem
      | some serialK =>
        rw [known serialK own]
        refine mem_putHistory_other entry.mem (mem_heldSerials.mpr ⟨i, entry.own ▸ entry.held⟩) fun same => ?_
        exact entry.sole k other (own.trans (congrArg some (same.symm.trans entry.own)))
  · rw [deductPlane_serial]
    exact entry.sole m differs

theorem SoleEntry.fold {i : Fin 4} {serial : Serial} {e : HistoryEntry} {l : List (Fin 4)} (apart : i ∉ l) (handle : Nat)
    (demand : Planes) {s : State} (entry : SoleEntry i serial e s) :
    SoleEntry i serial e (l.foldl (Machine.deductPlane handle demand) s) := by
  induction l generalizing s with
  | nil => exact entry
  | cons k rest ih =>
    obtain ⟨other, apart⟩ := not_or.mp (mt List.mem_cons.mpr apart)
    exact ih apart (entry.deductPlane (Ne.symm other) handle demand)

/-- After the deductions of a sheet the history holds the figures of a slot drawn from, under the lifetime count. -/
theorem deductPlanes_entry {handle : Nat} {demand : Planes} {i : Fin 4} {level : CartLevel} {serial : Serial} {l : List (Fin 4)}
    (nodup : l.Nodup) (mem : i ∈ l) {s : State} (draws : drawsFrom demand i (s.cbc.slots.get i) = some level)
    (known : (s.cbc.slots.get i).serial = some serial) (sole : ∀ k, k ≠ i → (s.cbc.slots.get k).serial ≠ some serial) :
    ∃ e ∈ (l.foldl (deductPlane handle demand) s).cbc.history, e.serial = serial ∧ e.colour = i ∧ e.lastSeen = s.cbc.lifetime
      ∧ e.level = level.mirror - min (planeOf demand i) level.mirror
      ∧ e.pending = level.pending + min (planeOf demand i) level.mirror := by
  induction l generalizing s with
  | nil => exact absurd mem (List.not_mem_nil)
  | cons k rest ih =>
    obtain ⟨fresh, nodup⟩ := List.nodup_cons.mp nodup
    rw [List.foldl_cons]
    by_cases same : i = k
    · subst same
      have first := (deductPlane_history (handle := handle) draws).2 serial known
      have entry := mem_putHistory_self (heldSerials s.cbc) (HistoryEntry.mk serial ((s.cbc.slots.get i).family.getD 0) i
        (level.mirror - min (planeOf demand i) level.mirror) (level.pending + min (planeOf demand i) level.mirror) s.cbc.lifetime
        ((s.cbc.history.find? (·.serial == serial)).any (·.suspect))) s.cbc.history
      rw [← first] at entry
      have start : SoleEntry i serial _ (deductPlane handle demand s i) :=
        ⟨entry, rfl, (deductPlane_serial ..).trans known, fun m differs => by rw [deductPlane_serial]; exact sole m differs⟩
      exact ⟨_, (start.fold fresh handle demand).mem, rfl, rfl, rfl, rfl, rfl⟩
    · have later : i ∈ rest := (List.mem_cons.mp mem).resolve_left same
      rw [← deductPlane_lifetime handle demand s k]
      refine ih nodup later ?_ ((deductPlane_serial ..).trans known) fun m differs => ?_
      · rw [(slotRule_deduct handle demand).get_ne s same]
        exact draws
      · rw [deductPlane_serial]
        exact sole m differs

/-! ### The entry of a sheet at CBC -/

/-- The state whose lifetime count has taken the sheet. -/
def countedLifetime (s : State) : State := changeHistory s.cbc.history (satAdd s.cbc.lifetime 1 Config.counterMax) s

/-- The state after the deductions of a sheet. -/
def deducted (sh : Sheet) (s : State) : State := cartSlots.foldl (deductPlane sh.handle sh.demand) (countedLifetime s)

theorem enterCartridges_eq (sh : Sheet) (s : State) :
    enterCartridges sh s = (requiredSlots sh.sides).foldl countSheet (deducted sh s) := rfl

theorem countedLifetime_cbc (s : State) :
    (countedLifetime s).cbc = { s.cbc with lifetime := min (s.cbc.lifetime + 1) 4294967295 } := changeHistory_counted s _

theorem aside_countedLifetime (s : State) : aside (countedLifetime s) = aside s := aside_changeHistory _ _ s

theorem aside_deducted (sh : Sheet) (s : State) : aside (deducted sh s) = aside s := by
  rw [deducted, aside_foldl (aside_deductPlane sh.handle sh.demand), aside_countedLifetime]

theorem aside_enterCartridges (sh : Sheet) (s : State) : aside (enterCartridges sh s) = aside s := by
  rw [enterCartridges_eq, aside_foldl aside_countSheet, aside_deducted]

theorem requiredSlots_nodup (sides : List Side) : (requiredSlots sides).Nodup := cartSlots_nodup.filter _

theorem deducted_slot (sh : Sheet) (s : State) (i : Fin 4) : (deducted sh s).cbc.slots.get i
    = deductedSlot sh.handle sh.demand s.settings i (s.cbc.slots.get i) := by
  rw [deducted, (slotRule_deduct sh.handle sh.demand).fold_slot cartSlots_nodup, if_pos (mem_cartSlots i),
    aside_settings (aside_countedLifetime s), countedLifetime_cbc]

theorem enterCartridges_slot (sh : Sheet) (s : State) (i : Fin 4) : (enterCartridges sh s).cbc.slots.get i
    = if i ∈ requiredSlots sh.sides then countedSlot (deductedSlot sh.handle sh.demand s.settings i (s.cbc.slots.get i))
      else deductedSlot sh.handle sh.demand s.settings i (s.cbc.slots.get i) := by
  rw [enterCartridges_eq, slotRule_count.fold_slot (requiredSlots_nodup _), deducted_slot]

theorem enterCartridges_lifetime (sh : Sheet) (s : State) :
    (enterCartridges sh s).cbc.lifetime = min (s.cbc.lifetime + 1) 4294967295 := by
  rw [enterCartridges_eq, foldl_stands (f := fun s => s.cbc.lifetime) fun s i => (countSheet_stands s i).1, deducted,
    foldl_stands (f := fun s => s.cbc.lifetime) (deductPlane_lifetime sh.handle sh.demand), countedLifetime_cbc]

theorem enterCartridges_history (sh : Sheet) (s : State) : (enterCartridges sh s).cbc.history = (deducted sh s).cbc.history := by
  rw [enterCartridges_eq, foldl_stands (f := fun s => s.cbc.history) fun s i => (countSheet_stands s i).2]

/-- The slots whose write-back a sheet makes due, and those whose AUTH it makes due. -/
def writesOf (sh : Sheet) (s : State) : List (Fin 4) := cartSlots.filter fun i =>
  deductDue sh.handle sh.demand s.settings i (s.cbc.slots.get i) && !s.cbc.work.contains (.writeBack i)

@[inherit_doc writesOf]
def authsOf (sh : Sheet) (s : State) : List (Fin 4) := (requiredSlots sh.sides).filter fun i =>
  reauthDue s.settings (countedSlot (deductedSlot sh.handle sh.demand s.settings i (s.cbc.slots.get i)))
    && !s.cbc.work.contains (.auth i)

theorem enterCartridges_work {s : State} (runs : s.fm.part ≠ .halted) (sh : Sheet) : (enterCartridges sh s).cbc.work
    = s.cbc.work ++ (writesOf sh s).map .writeBack ++ (authsOf sh s).map .auth := by
  have first : (deducted sh s).cbc.work = s.cbc.work ++ (writesOf sh s).map .writeBack := by
    rw [deducted, (slotRule_deduct sh.handle sh.demand).fold_work writeBack_injective cartSlots_nodup _
      (by rwa [aside_fm (aside_countedLifetime s)]), aside_settings (aside_countedLifetime s), countedLifetime_cbc]
    rfl
  rw [enterCartridges_eq, slotRule_count.fold_work auth_injective (requiredSlots_nodup _) _
    (by rwa [aside_fm (aside_deducted sh s)]), first]
  refine congrArg (_ ++ List.map WorkItem.auth ·) (List.filter_congr fun i _ => ?_)
  rw [aside_settings (aside_deducted sh s), deducted_slot]
  simp [List.contains_eq_mem]

theorem drawsFrom_iff {demand : Planes} {i : Fin 4} {c : CartSlot} {l : CartLevel} : drawsFrom demand i c = some l
    ↔ (c.verification = .genuine ∨ ∃ r, c.verification = .suspect r) ∧ 0 < planeOf demand i ∧ c.level = some l := by
  rw [← holdsVerified_iff]
  constructor
  · intro draws
    unfold drawsFrom at draws
    split at draws
    · next holds =>
      simp only [Bool.and_eq_true, decide_eq_true_eq] at holds
      exact ⟨holds.1, holds.2, draws⟩
    · cases draws
  · rintro ⟨verified, positive, level⟩
    exact drawsFrom_of level verified positive

theorem drawsFrom_none_iff {demand : Planes} {i : Fin 4} {c : CartSlot} : drawsFrom demand i c = none
    ↔ ∀ l, ¬ ((c.verification = .genuine ∨ ∃ r, c.verification = .suspect r) ∧ 0 < planeOf demand i ∧ c.level = some l) := by
  simp only [← drawsFrom_iff]
  exact Option.eq_none_iff_forall_ne_some

theorem writeDue_iff {pct : Nat} {exhausted : Bool} {c : CartSlot} {l : CartLevel} (level : c.level = some l)
    (verified : holdsVerified c = true) : writeDue pct exhausted c = true
      ↔ 0 < l.pending ∧ (exhausted = true ∨ writeBackMark (fullOf c) pct ≤ l.pending) := by
  simp [writeDue, level, verified]

theorem deductDue_iff {handle : Nat} {demand : Planes} {g : Settings} {i : Fin 4} {c : CartSlot} :
    deductDue handle demand g i c = true ↔ ∃ l, drawsFrom demand i c = some l
      ∧ 0 < l.pending + min (planeOf demand i) l.mirror
      ∧ (writeBackMark (fullOf c) g.meter.writebackPct ≤ l.pending + min (planeOf demand i) l.mirror
        ∨ (l.mirror - min (planeOf demand i) l.mirror = 0 ∧ l.cls ≠ .exhausted)) := by
  unfold deductDue
  rw [Option.any_eq_true]
  refine exists_congr fun l => and_congr_right fun draws => ?_
  obtain ⟨verified, _, _⟩ := drawsFrom_iff.mp draws
  have stillHeld : holdsVerified (drawnSlot g.meter.lowMarkPct handle (min (planeOf demand i) l.mirror) l c) = true :=
    holdsVerified_iff.mpr verified
  rw [deductedSlot_draws draws, writeDue_iff rfl stillHeld]
  simp only [drawnSlot, classOfSlot, Option.map_some, Bool.and_eq_true, beq_iff_eq, bne_iff_ne, ne_eq, Option.some.injEq,
    levelClass_exhausted]
  exact and_congr_right fun _ => or_comm

theorem mem_writesOf {sh : Sheet} {s : State} {i : Fin 4} : i ∈ writesOf sh s ↔ .writeBack i ∉ s.cbc.work
    ∧ ∃ l, drawsFrom sh.demand i (s.cbc.slots.get i) = some l
      ∧ 0 < l.pending + min (planeOf sh.demand i) l.mirror
      ∧ (writeBackMark (fullOf (s.cbc.slots.get i)) s.settings.meter.writebackPct ≤ l.pending + min (planeOf sh.demand i) l.mirror
        ∨ (l.mirror - min (planeOf sh.demand i) l.mirror = 0 ∧ l.cls ≠ .exhausted)) := by
  rw [writesOf, List.mem_filter, and_iff_right (mem_cartSlots i), Bool.and_eq_true, deductDue_iff, and_comm]
  simp [List.contains_eq_mem]

theorem deductedSlot_verification (handle : Nat) (demand : Planes) (g : Settings) (i : Fin 4) (c : CartSlot) :
    (deductedSlot handle demand g i c).verification = c.verification
      ∧ (deductedSlot handle demand g i c).sheetsSince = c.sheetsSince := by
  unfold deductedSlot
  split <;> exact ⟨rfl, rfl⟩

theorem mem_authsOf {sh : Sheet} {s : State} {i : Fin 4} : i ∈ authsOf sh s ↔ .auth i ∉ s.cbc.work
    ∧ (∃ n cls, Side.page n cls ∈ sh.sides ∧ (i = 0 ∨ cls = .colour))
    ∧ ((s.cbc.slots.get i).verification = .genuine ∨ ∃ r, (s.cbc.slots.get i).verification = .suspect r)
    ∧ s.settings.meter.reauthInterval ≤ min ((s.cbc.slots.get i).sheetsSince + 1) 65535 := by
  obtain ⟨verification, since⟩ := deductedSlot_verification sh.handle sh.demand s.settings i (s.cbc.slots.get i)
  rw [authsOf, List.mem_filter, mem_requiredSlots, Bool.and_eq_true, reauthDue, Bool.and_eq_true, holdsVerified_iff,
    decide_eq_true_eq]
  simp only [countedSlot, verification, since, List.contains_eq_mem, Bool.not_eq_true', decide_eq_false_iff_not]
  exact ⟨fun ⟨need, ⟨held, interval⟩, fresh⟩ => ⟨fresh, need, held, interval⟩,
    fun ⟨fresh, need, held, interval⟩ => ⟨need, ⟨held, interval⟩, fresh⟩⟩

/-- A sheet touches the level, the drawing list and the count of a slot alone. -/
theorem enterCartridges_touched (sh : Sheet) (s : State) (i : Fin 4) : (enterCartridges sh s).cbc.slots.get i
    = { s.cbc.slots.get i with
        level := ((enterCartridges sh s).cbc.slots.get i).level
        drawing := ((enterCartridges sh s).cbc.slots.get i).drawing
        sheetsSince := ((enterCartridges sh s).cbc.slots.get i).sheetsSince } := by
  rw [enterCartridges_slot]
  unfold deductedSlot
  split <;> split <;> rfl

theorem mem_drawnSlot (pct handle taken : Nat) (l : CartLevel) (c : CartSlot) : handle ∈ (drawnSlot pct handle taken l c).drawing := by
  unfold drawnSlot
  dsimp only
  split
  · next listed => simpa using listed
  · simp

theorem full_eq (c : CartSlot) : fullOf c = match c.figures with
    | some f => f.full
    | none => 0 := by
  cases figures : c.figures <;> simp [fullOf, figures]

/-- Settles O33: the edges by the queue's split, the job by its state, the cartridges slot by slot. -/
theorem leadingEdges : Obligations.LeadingEdges := by
  refine ⟨fun s on held due clear runs => ⟨fun front sh back queue entered granted => ?_, fun entered => ?_⟩,
    fun s on held due clear runs => ⟨fun sh rest queue entered => ?_, fun sh rest queue granted => ?_, fun empty => ?_⟩,
    fun sh s => ⟨reportExit_none, fun j found own => ⟨reportExit_kept found, fun state last => ?_, fun state last => ?_⟩⟩, ?_⟩
  · rw [feedEdge_taken on held due clear runs]
    unfold feedEdge
    have taken : enterOldest (nowMs (levelTaken .feed true s)) (levelTaken .feed true s).spm.sheets
        = some (sh, front ++ { sh with entered := true, deadline := nowMs s + sh.transit } :: back) := by
      change enterOldest (nowMs s) s.spm.sheets = _
      rw [queue, enterOldest_of_split entered granted]
    rw [taken]
  · rw [feedEdge_taken on held due clear runs]
    unfold feedEdge
    have taken : enterOldest (nowMs (levelTaken .feed true s)) (levelTaken .feed true s).spm.sheets = none :=
      enterOldest_none entered
    rw [taken]
  · rw [exitEdge_taken on held due clear runs]
    unfold exitEdge
    have sheets : (levelTaken .exit true s).spm.sheets = sh :: rest := queue
    rw [sheets]
    dsimp only
    rw [if_pos entered]
    rfl
  · rw [exitEdge_taken on held due clear runs]
    unfold exitEdge
    have sheets : (levelTaken .exit true s).spm.sheets = sh :: rest := queue
    rw [sheets]
    dsimp only
    rw [if_neg (by simp [granted])]
  · rw [exitEdge_taken on held due clear runs]
    unfold exitEdge
    have sheets : (levelTaken .exit true s).spm.sheets = [] := empty
    rw [sheets]
  · exact reportExit_last (r := .ends) found state last own
  · exact reportExit_last (r := .cancel) found state last own
  · intro sh s runs t required old new verified full draws since
    have kept : aside t = aside s := aside_enterCartridges sh s
    have slot : ∀ i, new i = _ := enterCartridges_slot sh s
    refine ⟨enterCartridges_lifetime sh s, fun i => ?_, ⟨writesOf sh s, authsOf sh s, cartSlots_ascend.filter _,
      (cartSlots_ascend.filter _).filter _, fun i => ?_, fun i => mem_authsOf, enterCartridges_work runs sh⟩, ?_, ?_,
      aside_accounts kept, aside_jt kept, aside_spm kept, aside_smc kept, aside_fm kept⟩
    · refine ⟨?_, fun need => ?_, fun spared => ?_, fun l drawn => ?_, fun idle => ?_⟩
      · exact enterCartridges_touched sh s i
      · rw [slot, if_pos (mem_requiredSlots.mpr need)]
        exact congrArg (fun n => min (n + 1) 65535) (deductedSlot_verification ..).2
      · rw [slot, if_neg (fun need => spared (mem_requiredSlots.mp need))]
        exact (deductedSlot_verification ..).2
      · have same : (new i).drawing = (deductedSlot sh.handle sh.demand s.settings i (old i)).drawing
            ∧ (new i).level = (deductedSlot sh.handle sh.demand s.settings i (old i)).level := by
          rw [slot]
          split <;> exact ⟨rfl, rfl⟩
        rw [same.1, same.2, deductedSlot_draws (drawsFrom_iff.mpr drawn)]
        exact ⟨mem_drawnSlot _ _ _ _ _, congrArg (fun f => some (CartLevel.mk _ _ (levelClass _ f _))) (full_eq (old i))⟩
      · have same : (new i).drawing = (deductedSlot sh.handle sh.demand s.settings i (old i)).drawing
            ∧ (new i).level = (deductedSlot sh.handle sh.demand s.settings i (old i)).level := by
          rw [slot]
          split <;> exact ⟨rfl, rfl⟩
        rw [same.1, same.2, deductedSlot_idle (drawsFrom_none_iff.mpr idle)]
        exact ⟨rfl, rfl⟩
    · refine mem_writesOf.trans (and_congr_right fun _ => exists_congr fun l => and_congr drawsFrom_iff ?_)
      rw [full_eq]
      rfl
    · intro i l serial drawn known sole
      have state := countedLifetime_cbc s
      obtain ⟨e, mem, own, colour, seen, level, pending⟩ := deductPlanes_entry (handle := sh.handle) cartSlots_nodup (mem_cartSlots i)
        (s := countedLifetime s) (by rw [state]; exact drawsFrom_iff.mpr drawn) (by rw [state]; exact known)
        (by rw [state]; exact sole)
      refine ⟨e, (enterCartridges_history sh s).symm ▸ mem, own, colour, ?_, level, pending⟩
      rw [seen, state]
      exact (enterCartridges_lifetime sh s).symm
    · intro idle
      refine (enterCartridges_history sh s).trans ?_
      rw [deducted, deductPlanes_idle, countedLifetime_cbc]
      intro i
      rw [countedLifetime_cbc]
      exact drawsFrom_none_iff.mpr (idle i)

end Sys2Proof.Machine

/-! PROOFS. The settings requests: their ranges and answers, and what new marks make of the cartridges. -/

namespace Sys2Proof.Machine

open Host (Outcome)

/-! ### Ranges -/

theorem optInRange_iff {v : Option Nat} {lo hi : Nat} : optInRange v lo hi = true ↔ ∀ n, v = some n → lo ≤ n ∧ n ≤ hi := by
  cases v <;> simp [optInRange]

theorem forall_either {a b : Option Nat} {p : Nat → Prop} :
    (∀ v, a = some v ∨ b = some v → p v) ↔ (∀ v, a = some v → p v) ∧ ∀ v, b = some v → p v := by
  simp only [or_imp, forall_and]

theorem priceFieldsInRange_iff {f : PriceFields} : priceFieldsInRange f = true
    ↔ (∀ v, f.stdMono = some v ∨ f.stdColour = some v ∨ f.largeMono = some v ∨ f.largeColour = some v → v ≤ 10000)
      ∧ (∀ v, f.duplexPct = some v → v ≤ 100) ∧ (∀ v, f.heavyThreshold = some v → v ≤ 40000)
      ∧ ∀ v, f.heavySurcharge = some v ∨ f.scanRate = some v → v ≤ 1000 := by
  simp only [priceFieldsInRange, Bool.and_eq_true, optInRange_iff, Nat.zero_le, true_and, or_imp, forall_and, and_assoc]

theorem meterFieldsInRange_iff {f : MeterFields} : meterFieldsInRange f = true
    ↔ (∀ v, f.colourThreshold = some v → 1 ≤ v ∧ v ≤ 10000) ∧ (∀ v, f.idleLoss = some v → v ≤ 50)
      ∧ (∀ v, f.lowMarkPct = some v → 1 ≤ v ∧ v ≤ 50) ∧ (∀ v, f.writebackPct = some v → 1 ≤ v ∧ v ≤ 10)
      ∧ ∀ v, f.reauthInterval = some v → 100 ≤ v ∧ v ≤ 65535 := by
  simp only [meterFieldsInRange, Bool.and_eq_true, optInRange_iff, Nat.zero_le, true_and, and_assoc]

theorem mediaFieldsInRange_iff {code : Nat} {area transit : Option Nat} : mediaFieldsInRange code area transit = true
    ↔ code ≤ 15 ∧ (∀ v, area = some v → 100 ≤ v ∧ v ≤ 1300) ∧ ∀ v, transit = some v → 500 ≤ v ∧ v ≤ 10000 := by
  simp only [mediaFieldsInRange, Bool.and_eq_true, decide_eq_true_eq, optInRange_iff, and_assoc]

theorem limitFieldsInRange_iff {f : LimitFields} : limitFieldsInRange f = true
    ↔ (∀ v, f.holdLimit = some v ∨ f.lockoutTime = some v → 1 ≤ v ∧ v ≤ 1440)
      ∧ (∀ v, f.intakeStallLimit = some v → 5 ≤ v ∧ v ≤ 300) ∧ (∀ v, f.entryLimit = some v → 200 ≤ v ∧ v ≤ 10000)
      ∧ (∀ v, f.readRetries = some v → v ≤ 3) ∧ ∀ v, f.weakLimit = some v → 1 ≤ v ∧ v ≤ 8 := by
  simp only [limitFieldsInRange, Bool.and_eq_true, optInRange_iff, Nat.zero_le, true_and, forall_either, and_assoc]

theorem mediaLines_get {table : List MediaEntry} {k : Nat} {e : MediaEntry} (at_ : table[k]? = some e) : (mediaLines table)[k]?
    = some { code := k, area := e.area, large := decide (650 < e.area), transit := e.transit } := by
  simp [mediaLines, List.getElem?_map, List.getElem?_zipIdx, at_, isLarge]

/-! ### Answers -/

section Answers

variable {s : State}

theorem priceSet_range {f : PriceFields} (out : priceFieldsInRange f = false) : priceSet f s = refuse .badField s := by
  rw [priceSet, out]
  rfl

theorem priceSet_locked {f : PriceFields} (range : priceFieldsInRange f = true) (given : f ≠ {}) (locked : (locksOf s).settings = true) :
    priceSet f s = refuse .locked s := by
  simp [priceSet, range, priceFieldsAbsent, given, locked]

theorem priceSet_taken {f : PriceFields} (range : priceFieldsInRange f = true) (unlocked : f = {} ∨ (locksOf s).settings = false) :
    priceSet f s = { status := .ok, payload := .prices (applyPrice f s.settings.price)
                     state := stagingChange ({ applyPrice f s.settings.price with scanRate := s.settings.price.scanRate }
                         != s.settings.price)
                       (if applyPrice f s.settings.price = s.settings.price then s
                        else setSettings { s.settings with price := applyPrice f s.settings.price } s) } := by
  by_cases absent : f = {}
  · subst absent
    have same : applyPrice {} s.settings.price = s.settings.price := rfl
    simp [priceSet, range, priceFieldsAbsent, same, stagingChange]
  · simp [priceSet, range, priceFieldsAbsent, absent, unlocked.resolve_left absent]

theorem priceSet_same {f : PriceFields} (range : priceFieldsInRange f = true) (unlocked : f = {} ∨ (locksOf s).settings = false)
    (same : applyPrice f s.settings.price = s.settings.price) :
    priceSet f s = { status := .ok, payload := .prices (applyPrice f s.settings.price), state := s } := by
  rw [priceSet_taken range unlocked, if_pos same, same, stagingChange, if_neg (by simp)]

theorem priceSet_kept {f : PriceFields} (range : priceFieldsInRange f = true) (unlocked : f = {} ∨ (locksOf s).settings = false)
    (changed : applyPrice f s.settings.price ≠ s.settings.price)
    (alike : { applyPrice f s.settings.price with scanRate := s.settings.price.scanRate } = s.settings.price) :
    priceSet f s = { status := .ok, payload := .prices (applyPrice f s.settings.price)
                     state := setSettings { s.settings with price := applyPrice f s.settings.price } s } := by
  rw [priceSet_taken range unlocked, if_neg changed, stagingChange, if_neg (by simpa using alike)]

theorem priceSet_restages {f : PriceFields} (range : priceFieldsInRange f = true) (unlocked : f = {} ∨ (locksOf s).settings = false)
    (changed : { applyPrice f s.settings.price with scanRate := s.settings.price.scanRate } ≠ s.settings.price) :
    priceSet f s = { status := .ok, payload := .prices (applyPrice f s.settings.price)
                     state := settle (discardStaging (setSettings { s.settings with price := applyPrice f s.settings.price } s)) } := by
  have given : applyPrice f s.settings.price ≠ s.settings.price := fun same => changed (by rw [same])
  rw [priceSet_taken range unlocked, if_neg given, stagingChange, if_pos (by simpa using changed)]

theorem meterSet_range {f : MeterFields} (out : meterFieldsInRange f = false) : meterSet f s = refuse .badField s := by
  rw [meterSet, out]
  rfl

theorem meterSet_locked {f : MeterFields} (range : meterFieldsInRange f = true) (given : f ≠ {}) (locked : (locksOf s).settings = true) :
    meterSet f s = refuse .locked s := by
  simp [meterSet, range, meterFieldsAbsent, given, locked]

theorem meterSet_same {f : MeterFields} (range : meterFieldsInRange f = true) (unlocked : f = {} ∨ (locksOf s).settings = false)
    (same : applyMeter f s.settings.meter = s.settings.meter) :
    meterSet f s = { status := .ok, payload := .meters (applyMeter f s.settings.meter), state := s } := by
  by_cases absent : f = {}
  · subst absent
    simp [meterSet, range, meterFieldsAbsent, same]
  · simp [meterSet, range, meterFieldsAbsent, absent, unlocked.resolve_left absent, same]

theorem meterSet_taken {f : MeterFields} (range : meterFieldsInRange f = true) (unlocked : f = {} ∨ (locksOf s).settings = false)
    (changed : applyMeter f s.settings.meter ≠ s.settings.meter) :
    meterSet f s = { status := .ok, payload := .meters (applyMeter f s.settings.meter)
                     state := settle (if (applyMeter f s.settings.meter).idleLoss = s.settings.meter.idleLoss
                       then handToCartridges s.settings.meter (applyMeter f s.settings.meter)
                         (setSettings { s.settings with meter := applyMeter f s.settings.meter } s)
                       else discardStaging (handToCartridges s.settings.meter (applyMeter f s.settings.meter)
                         (setSettings { s.settings with meter := applyMeter f s.settings.meter } s))) } := by
  have given : f ≠ {} := fun absent => changed (absent ▸ rfl)
  simp only [meterSet, range, meterFieldsAbsent, given, unlocked.resolve_left given, changed, beq_iff_eq, Bool.not_true,
    Bool.false_eq_true, if_false]

theorem meterSet_kept {f : MeterFields} (range : meterFieldsInRange f = true) (unlocked : f = {} ∨ (locksOf s).settings = false)
    (changed : applyMeter f s.settings.meter ≠ s.settings.meter)
    (alike : (applyMeter f s.settings.meter).idleLoss = s.settings.meter.idleLoss) :
    meterSet f s = { status := .ok, payload := .meters (applyMeter f s.settings.meter)
                     state := settle (handToCartridges s.settings.meter (applyMeter f s.settings.meter)
                       (setSettings { s.settings with meter := applyMeter f s.settings.meter } s)) } := by
  rw [meterSet_taken range unlocked changed, if_pos alike]

theorem meterSet_restages {f : MeterFields} (range : meterFieldsInRange f = true) (unlocked : f = {} ∨ (locksOf s).settings = false)
    (changed : (applyMeter f s.settings.meter).idleLoss ≠ s.settings.meter.idleLoss) :
    meterSet f s = { status := .ok, payload := .meters (applyMeter f s.settings.meter)
                     state := settle (discardStaging (handToCartridges s.settings.meter (applyMeter f s.settings.meter)
                       (setSettings { s.settings with meter := applyMeter f s.settings.meter } s))) } := by
  rw [meterSet_taken range unlocked fun same => changed (congrArg MeterSettings.idleLoss same), if_neg changed]

theorem mediaSet_range {code : Nat} {area transit : Option Nat} (out : mediaFieldsInRange code area transit = false) :
    mediaSet code area transit s = refuse .badField s := by
  rw [mediaSet, out]
  rfl

theorem mediaSet_absent {code : Nat} (range : mediaFieldsInRange code none none = true) :
    mediaSet code none none s = { status := .ok, payload := .media (mediaLines s.settings.media), state := s } := by
  rw [mediaSet, range]
  rfl

theorem mediaSet_locked {code : Nat} {area transit : Option Nat} (range : mediaFieldsInRange code area transit = true)
    (given : ¬ (area = none ∧ transit = none)) (locked : (locksOf s).settings = true) :
    mediaSet code area transit s = refuse .locked s := by
  simp [mediaSet, range, given, locked]

/-- The media entry that MEDIA_SET leaves. -/
def mediaGiven (code : Nat) (area transit : Option Nat) (s : State) : MediaEntry :=
  { area := area.getD (mediaOf s.settings code).area, transit := transit.getD (mediaOf s.settings code).transit }

theorem mediaSet_taken {code : Nat} {area transit : Option Nat} (range : mediaFieldsInRange code area transit = true)
    (given : ¬ (area = none ∧ transit = none)) (unlocked : (locksOf s).settings = false) : mediaSet code area transit s
      = { status := .ok, payload := .media (mediaLines (s.settings.media.set code (mediaGiven code area transit s)))
          state := if mediaGiven code area transit s = mediaOf s.settings code then s
            else settle (discardStaging (setSettings
              { s.settings with media := s.settings.media.set code (mediaGiven code area transit s) } s)) } := by
  have given : (area.isNone && transit.isNone) = false := by simpa [Option.isSome_iff_ne_none] using given
  simp only [mediaSet, range, given, unlocked, Bool.not_true, Bool.false_eq_true, if_false, stagingChange, if_true]
  rfl

theorem mediaSet_same {code : Nat} {area transit : Option Nat} (range : mediaFieldsInRange code area transit = true)
    (given : ¬ (area = none ∧ transit = none)) (unlocked : (locksOf s).settings = false)
    (same : mediaGiven code area transit s = mediaOf s.settings code) : mediaSet code area transit s
      = { status := .ok, payload := .media (mediaLines (s.settings.media.set code (mediaGiven code area transit s))), state := s } := by
  rw [mediaSet_taken range given unlocked, if_pos same]

theorem mediaSet_restages {code : Nat} {area transit : Option Nat} (range : mediaFieldsInRange code area transit = true)
    (given : ¬ (area = none ∧ transit = none)) (unlocked : (locksOf s).settings = false)
    (changed : mediaGiven code area transit s ≠ mediaOf s.settings code) : mediaSet code area transit s
      = { status := .ok, payload := .media (mediaLines (s.settings.media.set code (mediaGiven code area transit s)))
          state := settle (discardStaging (setSettings
              { s.settings with media := s.settings.media.set code (mediaGiven code area transit s) } s)) } := by
  rw [mediaSet_taken range given unlocked, if_neg changed]

theorem limitsSet_range {f : LimitFields} (out : limitFieldsInRange f = false) : limitsSet f s = refuse .badField s := by
  rw [limitsSet, out]
  rfl

theorem limitsSet_locked {f : LimitFields} (range : limitFieldsInRange f = true) (given : f ≠ {}) (locked : (locksOf s).settings = true) :
    limitsSet f s = refuse .locked s := by
  simp [limitsSet, range, limitFieldsAbsent, given, locked]

theorem limitsSet_taken {f : LimitFields} (range : limitFieldsInRange f = true) (unlocked : f = {} ∨ (locksOf s).settings = false) :
    limitsSet f s = { status := .ok, payload := .limits (applyLimits f s.settings.limits)
                      state := if applyLimits f s.settings.limits = s.settings.limits then s
                        else setSettings { s.settings with limits := applyLimits f s.settings.limits } s } := by
  by_cases absent : f = {}
  · subst absent
    have same : applyLimits {} s.settings.limits = s.settings.limits := rfl
    simp [limitsSet, range, limitFieldsAbsent, same]
  · simp [limitsSet, range, limitFieldsAbsent, absent, unlocked.resolve_left absent]

theorem limitsSet_same {f : LimitFields} (range : limitFieldsInRange f = true) (unlocked : f = {} ∨ (locksOf s).settings = false)
    (same : applyLimits f s.settings.limits = s.settings.limits) :
    limitsSet f s = { status := .ok, payload := .limits (applyLimits f s.settings.limits), state := s } := by
  rw [limitsSet_taken range unlocked, if_pos same]

theorem limitsSet_changed {f : LimitFields} (range : limitFieldsInRange f = true) (unlocked : f = {} ∨ (locksOf s).settings = false)
    (changed : applyLimits f s.settings.limits ≠ s.settings.limits) :
    limitsSet f s = { status := .ok, payload := .limits (applyLimits f s.settings.limits)
                      state := setSettings { s.settings with limits := applyLimits f s.settings.limits } s } := by
  rw [limitsSet_taken range unlocked, if_neg changed]

end Answers

/-! ### The level classes under a new low mark (R90) -/

/-- A slot's record under a low mark. -/
def reclassed (g : Settings) (c : CartSlot) : CartSlot :=
  if holdsVerified c then { c with level := c.level.map fun l => { l with cls := levelClass l.mirror (fullOf c) g.meter.lowMarkPct } }
  else c

theorem slotRule_reclass :
    SlotRule reclass (fun g _ => reclassed g) .auth (fun _ _ _ => false) where
  slots s i := by
    have kept : s.cbc.slots.set i (s.cbc.slots.get i) = s.cbc.slots := Vector.set_getElem_self i.isLt
    unfold reclass
    cases level : (slotRecord s i).level with
    | none =>
      have level : (s.cbc.slots.get i).level = none := level
      have same : reclassed s.settings (s.cbc.slots.get i) = s.cbc.slots.get i := by
        unfold reclassed
        split
        · rw [level, Option.map_none, ← level]
        · rfl
      rw [same, kept]
    | some l =>
      have level : (s.cbc.slots.get i).level = some l := level
      dsimp only
      by_cases verified : holdsVerified (s.cbc.slots.get i) = true
      · rw [slotRecord, if_pos verified, reclassed, if_pos verified, level]
        split <;> rfl
      · rw [slotRecord, if_neg verified, reclassed, if_neg verified, kept]
  work s i _ := by
    unfold reclass
    split
    · dsimp only
      split
      · split <;> simp [putSlot, askCartState, emit]
      · simp
    · simp
  settings s i := by
    unfold reclass
    split
    · dsimp only
      split
      · split <;> rfl
      · rfl
    · rfl
  part s i := by
    unfold reclass
    split
    · dsimp only
      split
      · split <;> rfl
      · rfl
    · rfl

/-- The state with the cartridges and the outgoing list replaced. -/
def withCartridges (c : Cartridges) (l : LinkInterface) (s : State) : State := { s with cbc := c, lif := l }

/-- What a reclassing touches. -/
theorem reclass_eq (s : State) (i : Fin 4) : reclass s i = withCartridges (reclass s i).cbc (reclass s i).lif s := by
  unfold reclass
  split
  · dsimp only
    split
    · split <;> rfl
    · rfl
  · rfl

/-- A slot whose level a reclassing leaves as it was sends no notice, and one whose level it changes sends one. -/
theorem reclass_lif (s : State) (i : Fin 4) :
    (((reclass s i).cbc.slots.get i).level = (s.cbc.slots.get i).level ∧ (reclass s i).lif = s.lif)
      ∨ (((reclass s i).cbc.slots.get i).level ≠ (s.cbc.slots.get i).level
        ∧ (reclass s i).lif = admitNotice (.cartState (cartContent i ((reclass s i).cbc.slots.get i))) s.lif) := by
  unfold reclass
  split
  · next l level =>
    have level : (s.cbc.slots.get i).level = some l := level
    dsimp only
    split
    · split
      · next same =>
        refine .inl ⟨?_, rfl⟩
        change ((s.cbc.slots.set i _).get i).level = _
        rw [get_set4_self, level]
        have same : levelClass l.mirror (fullOf (slotRecord s i)) s.settings.meter.lowMarkPct = l.cls := Option.some.inj same
        exact congrArg (fun c => some (CartLevel.mk l.mirror l.pending c)) same
      · next other =>
        refine .inr ⟨?_, rfl⟩
        change ((s.cbc.slots.set i _).get i).level ≠ _
        rw [get_set4_self, level]
        exact fun same => other (congrArg (Option.map CartLevel.cls) same)
    · exact .inl ⟨rfl, rfl⟩
  · exact .inl ⟨rfl, rfl⟩

/-- A notice of a slot's new class, told after the level has changed. -/
def ToldClass (i : Fin 4) (s : State) : Prop :=
  ∃ c, Entry.notice (.cartState c) ∈ s.lif.out ∧ c.slot = i ∧ c.cls = (s.cbc.slots.get i).level.map (·.cls)

theorem reclass_told {s : State} {i : Fin 4} (changed : ((reclass s i).cbc.slots.get i).level ≠ (s.cbc.slots.get i).level) :
    ToldClass i (reclass s i) := by
  obtain ⟨same, _⟩ | ⟨_, told⟩ := reclass_lif s i
  · exact absurd same changed
  · exact ⟨_, told ▸ mem_admitNotice_self rfl s.lif, rfl, rfl⟩

theorem ToldClass.reclass {s : State} {i k : Fin 4} (told : ToldClass i s) (other : i ≠ k) : ToldClass i (reclass s k) := by
  obtain ⟨c, mem, slot, cls⟩ := told
  refine ⟨c, ?_, slot, by rw [slotRule_reclass.get_ne s other]; exact cls⟩
  obtain ⟨_, lif⟩ | ⟨_, lif⟩ := reclass_lif s k
  · rw [lif]; exact mem
  · rw [lif]
    refine mem_admitNotice_other (fun sub of same => other ?_) mem
    have own : sub = .cartSlot k := (Option.some.inj of).symm
    have theirs : sub = .cartSlot c.slot := (Option.some.inj same).symm
    exact slot ▸ Subject.cartSlot.inj (theirs.symm.trans own)

theorem reclass_fold_told {l : List (Fin 4)} (nodup : l.Nodup) (s : State) (i : Fin 4)
    (changed : ((l.foldl reclass s).cbc.slots.get i).level ≠ (s.cbc.slots.get i).level) : ToldClass i (l.foldl reclass s) := by
  have stays : ∀ (l : List (Fin 4)) (s : State), i ∉ l → ToldClass i s → ToldClass i (l.foldl reclass s) := by
    intro l
    induction l with
    | nil => exact fun s _ told => told
    | cons k rest ih =>
      intro s apart told
      obtain ⟨other, apart⟩ := not_or.mp (mt List.mem_cons.mpr apart)
      exact ih _ apart (told.reclass other)
  induction l generalizing s with
  | nil => exact absurd rfl changed
  | cons k rest ih =>
    obtain ⟨fresh, later⟩ := List.nodup_cons.mp nodup
    rw [List.foldl_cons] at changed ⊢
    by_cases same : i = k
    · subst same
      rw [slotRule_reclass.fold_slot later, if_neg fresh] at changed
      exact stays rest _ fresh (reclass_told changed)
    · refine ih later _ ?_
      rwa [slotRule_reclass.get_ne s same]

theorem reclass_fold_silent {l : List (Fin 4)} (nodup : l.Nodup) (s : State)
    (same : ∀ i ∈ l, (reclassed s.settings (s.cbc.slots.get i)).level = (s.cbc.slots.get i).level) :
    (l.foldl reclass s).lif = s.lif := by
  induction l generalizing s with
  | nil => rfl
  | cons k rest ih =>
    obtain ⟨fresh, nodup⟩ := List.nodup_cons.mp nodup
    obtain ⟨first, others⟩ := List.forall_mem_cons.mp same
    rw [List.foldl_cons, ih nodup]
    · obtain ⟨_, lif⟩ | ⟨changed, _⟩ := reclass_lif s k
      · exact lif
      · rw [slotRule_reclass.get_self] at changed
        exact absurd first changed
    · intro i mem
      have other : i ≠ k := fun same => fresh (same ▸ mem)
      rw [slotRule_reclass.settings, slotRule_reclass.get_ne s other]
      exact others i mem

/-! ### New marks handed to the cartridges (R83) -/

theorem slotRule_write : SlotRule (fun s i => writeBackTest i false s) (fun _ _ c => c) .writeBack
    (fun g _ c => writeDue g.meter.writebackPct false c) := by
  have same : (fun s i => writeBackTest i false s) = fun s i =>
      if writeDue s.settings.meter.writebackPct false (s.cbc.slots.get i) then queueItem (.writeBack i) s else s :=
    funext fun s => funext fun i => writeBackTest_eq i false s
  rw [same]
  exact slotRule_queue .writeBack fun g _ c => writeDue g.meter.writebackPct false c

theorem slotRule_reauth : SlotRule reauthTest (fun _ _ c => c) .auth (fun g _ c => reauthDue g c) :=
  slotRule_queue .auth fun g _ c => reauthDue g c

/-- The state with the work list replaced. -/
def withWork (work : List WorkItem) (s : State) : State := { s with cbc := { s.cbc with work := work } }

theorem queueItem_frame (item : WorkItem) (s : State) : queueItem item s = withWork (queueItem item s).cbc.work s := by
  rw [queueItem_eq]
  rfl

theorem foldl_frame {op : State → Fin 4 → State} (frame : ∀ s i, op s i = withWork (op s i).cbc.work s) (l : List (Fin 4))
    (s : State) : l.foldl op s = withWork (l.foldl op s).cbc.work s := by
  induction l generalizing s with
  | nil => rfl
  | cons i rest ih =>
    have first : ∀ w, withWork w (op s i) = withWork w s := fun w => by
      rw [frame s i]
      rfl
    exact (ih (op s i)).trans (first _)

theorem writeBackTest_frame (s : State) (i : Fin 4) :
    writeBackTest i false s = withWork (writeBackTest i false s).cbc.work s := by
  rw [writeBackTest_eq]
  split
  · exact queueItem_frame _ s
  · rfl

theorem reauthTest_frame (s : State) (i : Fin 4) : reauthTest s i = withWork (reauthTest s i).cbc.work s := by
  rw [reauthTest_eq]
  split
  · exact queueItem_frame _ s
  · rfl

/-- The state with the level classes formed under a new low mark, where it changed. -/
def remarked (old new : MeterSettings) (s : State) : State :=
  if new.lowMarkPct = old.lowMarkPct then s else cartSlots.foldl reclass s

theorem remarked_eq (old new : MeterSettings) (s : State) :
    remarked old new s = withCartridges (remarked old new s).cbc (remarked old new s).lif s := by
  have fold : ∀ (l : List (Fin 4)) (s : State), l.foldl reclass s = withCartridges (l.foldl reclass s).cbc (l.foldl reclass s).lif s := by
    intro l
    induction l with
    | nil => exact fun s => rfl
    | cons i rest ih =>
      intro s
      have first : ∀ c l, withCartridges c l (reclass s i) = withCartridges c l s := fun c l => by
        rw [reclass_eq s i]
        rfl
      exact (ih (reclass s i)).trans (first _ _)
  unfold remarked
  split
  · rfl
  · exact fold cartSlots s

theorem remarked_slot (old new : MeterSettings) (s : State) (i : Fin 4) : (remarked old new s).cbc.slots.get i
    = if new.lowMarkPct = old.lowMarkPct then s.cbc.slots.get i else reclassed s.settings (s.cbc.slots.get i) := by
  unfold remarked
  split
  · rfl
  · rw [slotRule_reclass.fold_slot cartSlots_nodup, if_pos (mem_cartSlots i)]

theorem remarked_work (old new : MeterSettings) {s : State} (runs : s.fm.part ≠ .halted) :
    (remarked old new s).cbc.work = s.cbc.work := by
  unfold remarked
  split
  · rfl
  · rw [slotRule_reclass.fold_work auth_injective cartSlots_nodup _ runs]
    simp

/-- The slots whose write-back, and those whose AUTH, new marks make due. -/
def writesDue (old new : MeterSettings) (s : State) : List (Fin 4) :=
  if new.writebackPct = old.writebackPct then []
  else cartSlots.filter fun i => writeDue s.settings.meter.writebackPct false (s.cbc.slots.get i) && !s.cbc.work.contains (.writeBack i)

@[inherit_doc writesDue]
def authsDue (old new : MeterSettings) (s : State) : List (Fin 4) :=
  if new.reauthInterval = old.reauthInterval then []
  else cartSlots.filter fun i => reauthDue s.settings (s.cbc.slots.get i) && !s.cbc.work.contains (.auth i)

theorem handToCartridges_eq (old new : MeterSettings) {s : State} (runs : s.fm.part ≠ .halted) : handToCartridges old new s
    = withWork (s.cbc.work ++ (writesDue old new (remarked old new s)).map .writeBack
        ++ (authsDue old new (remarked old new s)).map .auth) (remarked old new s) := by
  have work := remarked_work old new runs
  have still : (remarked old new s).fm.part ≠ .halted := by rw [remarked_eq]; exact runs
  rw [← work]
  change (if new.reauthInterval = old.reauthInterval then (if new.writebackPct = old.writebackPct then remarked old new s
      else cartSlots.foldl (fun s i => writeBackTest i false s) (remarked old new s))
    else cartSlots.foldl reauthTest (if new.writebackPct = old.writebackPct then remarked old new s
      else cartSlots.foldl (fun s i => writeBackTest i false s) (remarked old new s))) = _
  generalize remarked old new s = t at still
  have first : (if new.writebackPct = old.writebackPct then t else cartSlots.foldl (fun s i => writeBackTest i false s) t)
      = withWork (t.cbc.work ++ (writesDue old new t).map .writeBack) t := by
    unfold writesDue
    split
    · simp [withWork]
    · rw [foldl_frame writeBackTest_frame, slotRule_write.fold_work writeBack_injective cartSlots_nodup _ still]
  have second : (withWork (t.cbc.work ++ (writesDue old new t).map WorkItem.writeBack) t).fm.part ≠ .halted := still
  rw [first]
  unfold authsDue
  split
  · simp
  · rw [foldl_frame reauthTest_frame, slotRule_reauth.fold_work auth_injective cartSlots_nodup _ second]
    simp [List.contains_eq_mem, withWork]

theorem reclassed_holdsVerified (g : Settings) (c : CartSlot) : holdsVerified (reclassed g c) = holdsVerified c := by
  unfold reclassed
  split <;> rfl

theorem remarked_kept (old new : MeterSettings) (s : State) (i : Fin 4) :
    holdsVerified ((remarked old new s).cbc.slots.get i) = holdsVerified (s.cbc.slots.get i)
      ∧ ((remarked old new s).cbc.slots.get i).sheetsSince = (s.cbc.slots.get i).sheetsSince
      ∧ fullOf ((remarked old new s).cbc.slots.get i) = fullOf (s.cbc.slots.get i)
      ∧ ((remarked old new s).cbc.slots.get i).level.map (·.pending) = (s.cbc.slots.get i).level.map (·.pending) := by
  rw [remarked_slot]
  split
  · exact ⟨rfl, rfl, rfl, rfl⟩
  · unfold reclassed
    split
    · refine ⟨rfl, rfl, rfl, ?_⟩
      cases (s.cbc.slots.get i).level <;> rfl
    · exact ⟨rfl, rfl, rfl, rfl⟩

/-- Whether a write-back is due depends on the pending deduction, the full level and the verification. -/
theorem writeDue_iff_pending {pct : Nat} {c : CartSlot} : writeDue pct false c = true ↔ holdsVerified c = true
    ∧ ∃ p, c.level.map (·.pending) = some p ∧ 0 < p ∧ writeBackMark (fullOf c) pct ≤ p := by
  cases level : c.level with
  | none => simp [writeDue, level]
  | some l => simp [writeDue, level, and_assoc]

theorem mem_writesDue {old new : MeterSettings} {s : State} {i : Fin 4} (runs : s.fm.part ≠ .halted) :
    i ∈ writesDue old new (remarked old new s) ↔ new.writebackPct ≠ old.writebackPct
      ∧ holdsVerified (s.cbc.slots.get i) = true ∧ .writeBack i ∉ s.cbc.work
      ∧ ∃ l, (s.cbc.slots.get i).level = some l ∧ 0 < l.pending
        ∧ writeBackMark (fullOf (s.cbc.slots.get i)) s.settings.meter.writebackPct ≤ l.pending := by
  obtain ⟨verified, _, full, pending⟩ := remarked_kept old new s i
  have settings : (remarked old new s).settings = s.settings := by rw [remarked_eq]; rfl
  unfold writesDue
  split
  · next same => simp [same]
  · next changed =>
    rw [List.mem_filter, and_iff_right (mem_cartSlots i), Bool.and_eq_true, writeDue_iff_pending, verified, full, pending, settings,
      remarked_work old new runs]
    simp only [List.contains_eq_mem, Bool.not_eq_true', decide_eq_false_iff_not, ne_eq, changed, not_false_eq_true, true_and,
      Option.map_eq_some_iff]
    exact ⟨fun ⟨⟨held, p, ⟨l, level, same⟩, due⟩, fresh⟩ => ⟨held, fresh, l, level, by subst same; exact due⟩,
      fun ⟨held, fresh, l, level, due⟩ => ⟨⟨held, l.pending, ⟨l, level, rfl⟩, due⟩, fresh⟩⟩

theorem mem_authsDue {old new : MeterSettings} {s : State} {i : Fin 4} (runs : s.fm.part ≠ .halted) :
    i ∈ authsDue old new (remarked old new s) ↔ new.reauthInterval ≠ old.reauthInterval
      ∧ holdsVerified (s.cbc.slots.get i) = true ∧ .auth i ∉ s.cbc.work
      ∧ s.settings.meter.reauthInterval ≤ (s.cbc.slots.get i).sheetsSince := by
  obtain ⟨verified, since, _, _⟩ := remarked_kept old new s i
  have settings : (remarked old new s).settings = s.settings := by rw [remarked_eq]; rfl
  unfold authsDue
  split
  · next same => simp [same]
  · next changed =>
    rw [List.mem_filter, and_iff_right (mem_cartSlots i), Bool.and_eq_true, reauthDue, Bool.and_eq_true, verified, since, settings,
      remarked_work old new runs]
    simp only [List.contains_eq_mem, Bool.not_eq_true', decide_eq_false_iff_not, ne_eq, changed, not_false_eq_true, true_and,
      decide_eq_true_eq]
    exact ⟨fun ⟨⟨held, interval⟩, fresh⟩ => ⟨held, fresh, interval⟩, fun ⟨held, fresh, interval⟩ => ⟨⟨held, interval⟩, fresh⟩⟩

theorem remarked_told {old new : MeterSettings} {s : State} {i : Fin 4}
    (changed : ((remarked old new s).cbc.slots.get i).level ≠ (s.cbc.slots.get i).level) : ToldClass i (remarked old new s) := by
  by_cases same : new.lowMarkPct = old.lowMarkPct
  · rw [remarked, if_pos same] at changed
    exact absurd rfl changed
  · rw [remarked, if_neg same] at changed ⊢
    exact reclass_fold_told cartSlots_nodup s i changed

theorem remarked_silent {old new : MeterSettings} {s : State}
    (same : ∀ i, ((remarked old new s).cbc.slots.get i).level = (s.cbc.slots.get i).level) : (remarked old new s).lif = s.lif := by
  unfold remarked
  split
  · rfl
  · next changed =>
    refine reclass_fold_silent cartSlots_nodup s fun i _ => ?_
    rw [← same i, remarked_slot, if_neg changed]

/-- Settles O39: the answers by their tests, the cartridges slot by slot. -/
theorem settingsRequests : Obligations.SettingsRequests := by
  intro tag s serving
  refine ⟨fun f => ⟨priceFieldsInRange_iff, fun out => next_request serving (priceSet_range out),
      fun range given locked => next_request serving (priceSet_locked range given locked), fun range unlocked => ?_⟩,
    fun f => ⟨meterFieldsInRange_iff, fun out => next_request serving (meterSet_range out),
      fun range given locked => next_request serving (meterSet_locked range given locked), fun range unlocked => ?_⟩,
    fun code area transit => ⟨mediaFieldsInRange_iff, fun table k e => mediaLines_get,
      fun out => next_request serving (mediaSet_range out), ?_, fun range given =>
        ⟨fun locked => next_request serving (mediaSet_locked range given locked), fun unlocked => ?_⟩⟩,
    fun f => ⟨limitFieldsInRange_iff, fun out => next_request serving (limitsSet_range out),
      fun range given locked => next_request serving (limitsSet_locked range given locked), fun range unlocked => ?_⟩, ?_⟩
  · exact ⟨fun same => next_request serving (priceSet_same range unlocked same),
      fun changed alike => next_request serving (priceSet_kept range unlocked changed alike),
      fun changed => next_request serving (priceSet_restages range unlocked changed)⟩
  · exact ⟨fun same => next_request serving (meterSet_same range unlocked same),
      fun changed alike => next_request serving (meterSet_kept range unlocked changed alike),
      fun changed => next_request serving (meterSet_restages range unlocked changed)⟩
  · rintro range rfl rfl
    exact next_request serving (mediaSet_absent range)
  · exact ⟨fun same => next_request serving (mediaSet_same range given unlocked same),
      fun changed => next_request serving (mediaSet_restages range given unlocked changed)⟩
  · exact ⟨fun same => next_request serving (limitsSet_same range unlocked same),
      fun changed => next_request serving (limitsSet_changed range unlocked changed)⟩
  · intro old new s runs t slot verified full
    have whole : t = _ := handToCartridges_eq old new runs
    have slots : ∀ i, t.cbc.slots.get i = (remarked old new s).cbc.slots.get i := fun i => by rw [whole]; rfl
    have lif : t.lif = (remarked old new s).lif := by rw [whole]; rfl
    have fullOf_slot : ∀ i, fullOf (slot i) = full i := fun i => full_eq (slot i)
    refine ⟨fun i => ⟨fun ⟨changed, held⟩ => ?_, fun kept => ?_, fun changed => ?_⟩, fun same => ?_,
      ⟨writesDue old new (remarked old new s), authsDue old new (remarked old new s), ?_, ?_, fun i => ?_, fun i => ?_, ?_⟩, ?_⟩
    · rw [slots, remarked_slot, if_neg changed, reclassed, if_pos (holdsVerified_iff.mpr held), ← fullOf_slot]
    · rw [slots, remarked_slot]
      split
      · rfl
      · next changed => exact if_neg fun held => kept ⟨changed, holdsVerified_iff.mp held⟩
    · rw [slots] at changed
      rw [lif, slots]
      exact remarked_told changed
    · rw [lif]
      exact remarked_silent fun i => slots i ▸ same i
    · unfold writesDue
      split
      · exact List.Pairwise.nil
      · exact cartSlots_ascend.filter _
    · unfold authsDue
      split
      · exact List.Pairwise.nil
      · exact cartSlots_ascend.filter _
    · rw [mem_writesDue runs, holdsVerified_iff, ← fullOf_slot]
      rfl
    · rw [mem_authsDue runs, holdsVerified_iff]
    · rw [whole]
      rfl
    · rw [whole, remarked_eq]
      exact ⟨rfl, rfl, rfl, rfl, rfl⟩

end Sys2Proof.Machine

/-! PROOFS. O40: the cartridge requests. -/

namespace Sys2Proof.Machine

open Host (Outcome)

section Requests

variable {s : State}

/-! ### CART_REAUTH (R105) -/

theorem cartReauth_field {slot : Nat} (out : 3 < slot) : cartReauth slot s = refuse .badField s := by
  rw [cartReauth, slotField_none out]

theorem cartReauth_open {i : Fin 4} (door : s.spm.doorOpen = true) : cartReauth i s = refuse .wrongState s := by
  rw [cartReauth, slotField_val]
  exact if_pos door

theorem cartReauth_busy {i : Fin 4} (door : s.spm.doorOpen = false) (busy : authBusy s i = true) :
    cartReauth i s = refuse .busy s := by
  rw [cartReauth, slotField_val]
  dsimp only
  rw [if_neg (by simp [door]), if_pos busy]

theorem cartReauth_taken {i : Fin 4} (door : s.spm.doorOpen = false) (idle : authBusy s i = false) : cartReauth i s
    = { status := .accepted
        state := settle (queueItem (.auth i) (putSlot i { s.cbc.slots.get i with failures := 0 } s)) } := by
  rw [cartReauth, slotField_val]
  dsimp only
  rw [if_neg (by simp [door]), if_neg (by simp [idle])]
  rfl

/-! ### POLICY_SET (R106) -/

theorem yesNo_range {policy : Nat} (range : policy ≤ 1) : yesNo policy = some (decide (policy = 1)) := by
  obtain rfl | rfl := Nat.le_one_iff_eq_zero_or_eq_one.mp range <;> rfl

theorem yesNo_out {policy : Nat} (out : 1 < policy) : yesNo policy = none :=
  Option.not_isSome_iff_eq_none.mp fun is => by
    have := yesNo_isSome.mp is
    omega

theorem policySet_field {policy : Nat} (out : 1 < policy) : policySet policy s = refuse .badField s := by
  rw [policySet, yesNo_out out]

theorem policySet_locked {policy : Nat} (range : policy ≤ 1) (locked : (locksOf s).settings = true) :
    policySet policy s = refuse .locked s := by
  rw [policySet, yesNo_range range]
  exact if_pos locked

theorem policySet_same {policy : Nat} (range : policy ≤ 1) (unlocked : (locksOf s).settings = false)
    (same : s.settings.allow = decide (policy = 1)) : policySet policy s = { status := .ok, state := s } := by
  rw [policySet, yesNo_range range]
  dsimp only
  rw [if_neg (by simp [unlocked]), if_pos same.symm]

theorem policySet_taken {policy : Nat} (range : policy ≤ 1) (unlocked : (locksOf s).settings = false)
    (changed : s.settings.allow ≠ decide (policy = 1)) : policySet policy s
      = { status := .ok
          state := if somethingGained s s.settings.allow (decide (policy = 1))
            then settle (supplyCame (setSettings { s.settings with allow := decide (policy = 1) } s))
            else setSettings { s.settings with allow := decide (policy = 1) } s } := by
  rw [policySet, yesNo_range range]
  dsimp only
  rw [if_neg (by simp [unlocked]), if_neg (Ne.symm changed)]

theorem somethingGained_iff {before after : Bool} : somethingGained s before after = true
    ↔ ∃ i : Fin 4, ¬ usable before (s.cbc.slots.get i) = true ∧ usable after (s.cbc.slots.get i) = true := by
  simp [somethingGained, slotRecord, List.any_eq_true, mem_cartSlots]

theorem policySet_gains {policy : Nat} (range : policy ≤ 1) (unlocked : (locksOf s).settings = false)
    (changed : s.settings.allow ≠ decide (policy = 1))
    (gained : somethingGained s s.settings.allow (decide (policy = 1)) = true) : policySet policy s
      = { status := .ok
          state := settle (supplyCame (setSettings { s.settings with allow := decide (policy = 1) } s)) } := by
  rw [policySet_taken range unlocked changed, if_pos gained]

theorem policySet_plain {policy : Nat} (range : policy ≤ 1) (unlocked : (locksOf s).settings = false)
    (changed : s.settings.allow ≠ decide (policy = 1))
    (nothing : ¬ somethingGained s s.settings.allow (decide (policy = 1)) = true) : policySet policy s
      = { status := .ok, state := setSettings { s.settings with allow := decide (policy = 1) } s } := by
  rw [policySet_taken range unlocked changed, if_neg nothing]

/-! ### FAMILY_KEY_LOAD (R107) -/

theorem triedAgain_iff {family : Nat} {c : CartSlot} : triedAgain family c = true ↔ c.family = some family
    ∧ (c.verification = .genuine ∨ (∃ r, c.verification = .suspect r) ∨ c.verification = .rejected .unknownFamily) := by
  unfold triedAgain
  rw [Bool.and_eq_true, decide_eq_true_eq]
  refine and_congr_right fun _ => ?_
  cases c.verification with
  | rejected reason => cases reason <;> simp
  | _ => simp

theorem familyKeyLoad_field {family : Nat} {key : List Byte} (out : 3 < family ∨ key.length ≠ 32) :
    familyKeyLoad family key s = refuse .badField s := by
  unfold familyKeyLoad
  cases slot : slotField family with
  | none => rfl
  | some f =>
    have short : key.length ≠ 32 := out.resolve_left fun large => by
      rw [slotField_none large] at slot
      cases slot
    exact if_pos short

theorem familyKeyLoad_locked {family : Fin 4} {key : List Byte} (length : key.length = 32) (locked : (locksOf s).keys = true) :
    familyKeyLoad family key s = refuse .locked s := by
  rw [familyKeyLoad, slotField_val]
  dsimp only
  rw [if_neg (by simp [length]), if_pos locked]

/-- The state with a family key loaded. -/
def keyLoaded (family : Fin 4) (key : List Byte) (s : State) : State :=
  setKeys { keysOf s with family := (keysOf s).family.set family (some (BitVec.ofNat 256 (beValue key))) } s

/-- The AUTH items of the slots that a loaded key tries again are queued. -/
def retried (family : Nat) (s : State) : State :=
  cartSlots.foldl (fun s i => if triedAgain family (s.cbc.slots.get i) then queueItem (.auth i) s else s) s

theorem familyKeyLoad_taken {family : Fin 4} {key : List Byte} (length : key.length = 32) (unlocked : (locksOf s).keys = false) :
    familyKeyLoad family key s =
      { status := .ok
        state := if s.spm.doorOpen then keyLoaded family key s else settle (retried family (keyLoaded family key s)) } := by
  rw [familyKeyLoad, slotField_val]
  dsimp only
  rw [if_neg (by simp [length]), if_neg (by simp [unlocked])]
  rfl

/-- The slots that a loaded key tries again. -/
def triedSlots (family : Nat) (s : State) : List (Fin 4) :=
  cartSlots.filter fun i => triedAgain family (s.cbc.slots.get i) && !s.cbc.work.contains (.auth i)

theorem retried_eq {family : Nat} (runs : s.fm.part ≠ .halted) :
    retried family s = withWork (s.cbc.work ++ (triedSlots family s).map .auth) s := by
  have frame : ∀ (s : State) (i : Fin 4), (if triedAgain family (s.cbc.slots.get i) then queueItem (.auth i) s else s)
      = withWork (if triedAgain family (s.cbc.slots.get i) then queueItem (.auth i) s else s).cbc.work s := by
    intro s i
    split
    · exact queueItem_frame _ s
    · rfl
  rw [retried, foldl_frame frame, (slotRule_queue .auth fun _ _ c => triedAgain family c).fold_work auth_injective cartSlots_nodup _ runs]
  rfl

theorem mem_triedSlots {family : Nat} {i : Fin 4} : i ∈ triedSlots family s ↔ (s.cbc.slots.get i).family = some family
    ∧ .auth i ∉ s.cbc.work ∧ ((s.cbc.slots.get i).verification = .genuine ∨ (∃ r, (s.cbc.slots.get i).verification = .suspect r)
      ∨ (s.cbc.slots.get i).verification = .rejected .unknownFamily) := by
  rw [triedSlots, List.mem_filter, and_iff_right (mem_cartSlots i), Bool.and_eq_true, triedAgain_iff]
  simp only [List.contains_eq_mem, Bool.not_eq_true', decide_eq_false_iff_not]
  exact ⟨fun ⟨⟨family, state⟩, fresh⟩ => ⟨family, fresh, state⟩, fun ⟨family, fresh, state⟩ => ⟨⟨family, state⟩, fresh⟩⟩

end Requests

/-- Settles O40: the answers by their tests, and the slots a loaded key tries again by a fold over the slots. -/
theorem cartridgeRequests : Obligations.CartridgeRequests := by
  intro tag s serving canUse
  refine ⟨fun slot out => next_request serving (cartReauth_field out),
    fun i => ⟨fun door => next_request serving (cartReauth_open door), fun door busy => next_request serving (cartReauth_busy door busy),
      fun door idle => next_request serving (cartReauth_taken door idle)⟩,
    fun policy out => next_request serving (policySet_field out),
    fun policy range => ⟨fun locked => next_request serving (policySet_locked range locked),
      fun unlocked same => next_request serving (policySet_same range unlocked same), fun unlocked changed => ?_⟩,
    fun family key out => next_request serving (familyKeyLoad_field out),
    fun family key length => ⟨fun locked => next_request serving (familyKeyLoad_locked length locked), fun unlocked => ?_⟩⟩
  · have gains : (∃ i : Fin 4, ¬ canUse s.settings.allow i ∧ canUse (decide (policy = 1)) i)
        ↔ somethingGained s s.settings.allow (decide (policy = 1)) = true := by
      rw [somethingGained_iff]
      exact exists_congr fun i => and_congr (not_congr usable_iff.symm) usable_iff.symm
    exact ⟨fun gained => next_request serving (policySet_gains range unlocked changed (gains.mp gained)),
      fun nothing => next_request serving (policySet_plain range unlocked changed (mt gains.mpr nothing))⟩
  · have answer := familyKeyLoad_taken (family := family) length unlocked
    refine ⟨fun door => ?_, fun door => ⟨triedSlots family s, cartSlots_ascend.filter _, fun i => mem_triedSlots, ?_⟩⟩
    · rw [if_pos door] at answer
      exact next_request serving answer
    · have runs : (keyLoaded family key s).fm.part ≠ .halted := by
        have part : s.fm.part = .running := serving.2.1
        exact fun halted => by
          have halted : s.fm.part = .halted := halted
          rw [part] at halted
          cases halted
      rw [if_neg (by simp [door]), retried_eq runs] at answer
      exact next_request serving answer

end Sys2Proof.Machine

/-! PROOFS. O41: the ends of the cartridge bus transactions. -/

namespace Sys2Proof.Machine

open Host (Outcome)

section Ends

variable {i : Fin 4} {s : State}

/-! ### PROBE and RESYNC -/

theorem exec_probe {acknowledged : Bool} (on : s.powered = true) (flight : s.cbc.flight = some (.probe i)) :
    exec (.probeComplete acknowledged) s = if acknowledged then .next { s with cbc := { s.cbc with flight := some (.readRecord i) } }
      else .next (settle (endEmpty i s)) := by
  change execProbeComplete acknowledged s = _
  simp only [execProbeComplete, flight, on, Bool.not_true, Bool.false_eq_true, if_false]

theorem exec_resync (on : s.powered = true) (flight : s.cbc.flight = some .resync) :
    exec .resyncComplete s = .next (settle (endFlight s)) := by
  change execResyncComplete s = _
  simp only [execResyncComplete, flight, on, if_true]

/-! ### READ_RECORD (R92 steps 1 and 2) -/

theorem exec_readRecord {record : List Byte} (on : s.powered = true) (flight : s.cbc.flight = some (.readRecord i)) :
    exec (.readRecordComplete record) s
      = if record.length ≠ 22 then .fault .recordLength else .next (settle (takeRecord i record s)) := by
  change execReadRecordComplete record s = _
  simp only [execReadRecordComplete, flight, on, Bool.not_true, Bool.false_eq_true, if_false]

theorem recordUsable_iff {record : List Byte} : recordUsable record = true
    ↔ recordByte record 0 = 1 ∧ recordByte record 1 ≤ 3 ∧ recordByte record 3 ≠ 0 := by
  simp [recordUsable, and_assoc]

theorem takeRecord_colour {record : List Byte} (other : recordByte record 2 ≠ i) :
    takeRecord i record s = rejectRead i .wrongColour record (endFlight s) := if_pos other

theorem takeRecord_noKey {record : List Byte} (colour : recordByte record 2 = i)
    (noKey : familyKey (keysOf s) (recordByte record 1) = none) :
    takeRecord i record s = rejectRead i .unknownFamily record (endFlight s) := by
  cases usable : recordUsable record with
  | false => exact takeRecord_unusable colour usable s
  | true => simp only [takeRecord, colour, usable, noKey, ne_eq, not_true_eq_false, if_false, Bool.not_true, Bool.false_eq_true]

/-- The state with the CHALLENGE of a record in flight. -/
def challenged (i : Fin 4) (record : List Byte) (k : Key) (nonce : Digest) (s : State) : State :=
  { s with cbc := { s.cbc with flight := some (.challenge i record (cartridgeKey k (recordSerial record)) nonce) } }

theorem takeRecord_drawn {record : List Byte} {k : Key} {nonce : Digest} {t : State} (colour : recordByte record 2 = i)
    (usable : recordUsable record = true) (known : familyKey (keysOf s) (recordByte record 1) = some k)
    (drawn : draw16 s = (.ok nonce, t)) : takeRecord i record s = challenged i record k nonce t := by
  simp only [takeRecord, colour, usable, known, drawn, ne_eq, not_true_eq_false, if_false, Bool.not_true, Bool.false_eq_true,
    challenged]

theorem takeRecord_failed {record : List Byte} {k : Key} {test : HealthTest} {t : State} (colour : recordByte record 2 = i)
    (usable : recordUsable record = true) (known : familyKey (keysOf s) (recordByte record 1) = some k)
    (failed : draw16 s = (.error test, t)) : takeRecord i record s = haltPart (.randomSource test .nonce) t := by
  simp only [takeRecord, colour, usable, known, failed, ne_eq, not_true_eq_false, if_false, Bool.not_true, Bool.false_eq_true]

/-! ### CHALLENGE and DECREMENT -/

theorem exec_challenge {record : List Byte} {key : Key} {nonce reply : Digest} (on : s.powered = true)
    (flight : s.cbc.flight = some (.challenge i record key nonce)) : exec (.challengeComplete reply) s
      = if reply = cartridgeTag key nonce (recordSerial record) (slice record 16 4) then .next (settle (completeAuth i record (endFlight s)))
        else .next (settle (rejectRead i .tag record (endFlight s))) := by
  change execChallengeComplete reply s = _
  simp only [execChallengeComplete, flight, on, Bool.not_true, Bool.false_eq_true, if_false]
  rfl

/-- The state of a DECREMENT's reply: its flight ended and the slot's failures cleared. -/
def decremented (i : Fin 4) (s : State) : State := putSlot i { s.cbc.slots.get i with failures := 0 } (endFlight s)

theorem exec_decrement {amount : Nat} {key : Key} {serial : Serial} {nonce reply : Digest} {level : BitVec 32}
    (on : s.powered = true) (flight : s.cbc.flight = some (.decrement i amount (some key) nonce))
    (known : (s.cbc.slots.get i).serial = some serial) : exec (.decrementComplete level reply) s
      = if reply = cartridgeTag key nonce serial (leBytes 4 level.toNat)
        then .next (settle (completeWriteBack i amount level.toNat (decremented i s)))
        else .next (settle (endUnverified i (.rejected .tag) (decremented i s))) := by
  change execDecrementComplete level reply s = _
  simp only [execDecrementComplete, flight, on, Bool.not_true, Bool.false_eq_true, if_false, decrementMatches, slotRecord, known,
    takeDecrement, decide_eq_true_eq]
  split <;> rfl

/-! ### Failed transactions (R87) -/

/-- The transaction in flight counts as a failure of its slot's item. -/
def CountsFor (i : Fin 4) (item : WorkItem) (s : State) : Prop :=
  (s.cbc.flight = some (.readRecord i) ∧ item = .auth i)
    ∨ (∃ record key nonce, s.cbc.flight = some (.challenge i record key nonce) ∧ item = .auth i)
    ∨ ∃ amount key nonce, s.cbc.flight = some (.decrement i amount key nonce) ∧ item = .writeBack i

theorem failFlight_counts {item : WorkItem} (counts : CountsFor i item s) :
    failFlight s = settle (failTransaction i item s) := by
  obtain ⟨flight, rfl⟩ | ⟨_, _, _, flight, rfl⟩ | ⟨_, _, _, flight, rfl⟩ := counts <;> rw [failFlight, flight]

theorem exec_failures {item : WorkItem} (on : s.powered = true) (counts : CountsFor i item s) :
    exec .busTransactionFail s = .next (settle (failTransaction i item s))
      ∧ exec .clockStretchLimit s = .next (settle (failTransaction i item s)) := by
  rw [← failFlight_counts counts]
  exact ⟨congrArg Outcome.next (if_pos on), congrArg Outcome.next (if_pos on)⟩

/-- The state with a failure counted. -/
def failed (i : Fin 4) (s : State) : State :=
  putSlot i { s.cbc.slots.get i with failures := (s.cbc.slots.get i).failures + 1 } (endFlight s)

/-- The items of a slot leave the work list. -/
def withoutItems (i : Fin 4) (s : State) : State :=
  { s with cbc := { s.cbc with work := s.cbc.work.filter fun w => w != .auth i && w != .writeBack i } }

theorem failTransaction_again {item : WorkItem} (few : (s.cbc.slots.get i).failures < 2) :
    failTransaction i item s = queueItem item (failed i s) :=
  if_pos (Nat.succ_lt_succ few)

theorem failTransaction_third {item : WorkItem} (many : 2 ≤ (s.cbc.slots.get i).failures) :
    failTransaction i item s = withoutItems i (endUnverified i .commFail (failed i s)) :=
  if_neg (Nat.not_lt.mpr (Nat.succ_le_succ many))

end Ends

/-- Settles O41: each end by the transaction it finds in flight. -/
theorem busTransactions : Obligations.BusTransactions := by
  refine fun i s on => ⟨fun flight => ⟨exec_probe on flight, exec_probe on flight⟩, fun flight record => ⟨fun other => ?_, fun length => ?_⟩,
    fun record key nonce flight reply => ⟨fun same => ?_, fun other => ?_⟩,
    fun amount key serial nonce flight known level reply => ⟨fun same => ?_, fun other => ?_⟩, exec_resync on,
    fun item counts => ⟨fun few => ?_, fun many => ?_⟩⟩
  · rw [exec_readRecord on flight, if_pos other]
  · rw [exec_readRecord on flight, if_neg (not_not.mpr length)]
    refine ⟨fun other => by rw [takeRecord_colour other], fun colour unusable => ?_,
      fun colour version family density k known => ⟨fun nonce t drawn => ?_, fun test t failed => ?_⟩⟩
    · cases usable : recordUsable record with
      | false => rw [takeRecord_unusable colour usable s]
      | true =>
        obtain ⟨version, family, density⟩ := recordUsable_iff.mp usable
        obtain wrong | wrong | wrong | noKey := unusable
        · exact absurd version wrong
        · exact absurd family (Nat.not_le.mpr wrong)
        · exact absurd wrong density
        · rw [takeRecord_noKey colour noKey]
    · rw [takeRecord_drawn colour (recordUsable_iff.mpr ⟨version, family, density⟩) known drawn]
      rfl
    · rw [takeRecord_failed colour (recordUsable_iff.mpr ⟨version, family, density⟩) known failed]
  · rw [exec_challenge on flight, if_pos same]
  · rw [exec_challenge on flight, if_neg other]
  · rw [exec_decrement on flight known, if_pos same]
    rfl
  · rw [exec_decrement on flight known, if_neg other]
    rfl
  · rw [(exec_failures on counts).1, (exec_failures on counts).2, failTransaction_again few]
    exact ⟨rfl, rfl⟩
  · rw [(exec_failures on counts).1, (exec_failures on counts).2, failTransaction_third many]
    exact ⟨rfl, rfl⟩

end Sys2Proof.Machine

/-! PROOFS. The verification of a slot: what each operation of chapter 5 on a slot changes and what it leaves. -/

namespace Sys2Proof.Machine

/-! ### What a slot's operations leave unchanged -/

/-- What no operation on a slot changes. -/
def rested (s : State) : State :=
  { s with cbc := { lifetime := s.cbc.lifetime }, lif := {}, jt := {}, ps := {}, fm := {}, spm := {}, smc := { defects := s.smc.defects } }

/-- An operation on a slot leaves the others, and what `rested` keeps. -/
structure Apart (i : Fin 4) (s t : State) : Prop where
  others : ∀ k : Fin 4, k ≠ i → t.cbc.slots.get k = s.cbc.slots.get k
  same : rested t = rested s

theorem Apart.refl (i : Fin 4) (s : State) : Apart i s s := ⟨fun _ _ => rfl, rfl⟩

theorem Apart.trans {i : Fin 4} {s t u : State} (first : Apart i s t) (second : Apart i t u) : Apart i s u :=
  ⟨fun k other => (second.others k other).trans (first.others k other), second.same.trans first.same⟩

/-- An operation that keeps the slots keeps them apart. -/
theorem Apart.of_slots {i : Fin 4} {s t : State} (slots : t.cbc.slots = s.cbc.slots) (same : rested t = rested s) : Apart i s t :=
  ⟨fun k _ => by rw [slots], same⟩

theorem Apart.frame {i : Fin 4} {s t : State} (apart : Apart i s t) : t.cbc.lifetime = s.cbc.lifetime
    ∧ t.accounts = s.accounts ∧ t.settings = s.settings ∧ t.bc = s.bc ∧ t.se = s.se ∧ t.smc.defects = s.smc.defects := by
  have field : ∀ {α : Type} (f : State → α), f (rested t) = f (rested s) := fun f => congrArg f apart.same
  exact ⟨field fun u => u.cbc.lifetime, field State.accounts, field State.settings, field State.bc, field State.se,
    field fun u => u.smc.defects⟩

theorem apart_putSlot (i : Fin 4) (c : CartSlot) (s : State) : Apart i s (putSlot i c s) :=
  ⟨fun _ other => slotRecord_putSlot_ne other c s, rfl⟩

theorem apart_updateHistory (i : Fin 4) (suspect : Bool) (s : State) : Apart i s (updateHistory i suspect s) := by
  refine .of_slots (by rw [updateHistory_slots]) ?_
  have kept := aside_updateHistory i suspect s
  unfold rested
  rw [updateHistory_slots, aside_smc kept]
  exact congrArg (fun u => { u with cbc := { lifetime := s.cbc.lifetime }, lif := {}, jt := {}, ps := {}, fm := {}, spm := {},
                                    smc := { defects := s.smc.defects } }) kept

theorem apart_queueItem (i : Fin 4) (item : WorkItem) (s : State) : Apart i s (queueItem item s) := by
  rw [queueItem_eq]
  exact .of_slots rfl rfl

theorem apart_writeBackTest (i k : Fin 4) (exhausted : Bool) (s : State) : Apart i s (writeBackTest k exhausted s) := by
  rw [writeBackTest_eq]
  split
  · exact apart_queueItem i _ s
  · exact .refl i s

theorem apart_discardStaging (i : Fin 4) (s : State) : Apart i s (discardStaging s) := .of_slots rfl rfl

theorem apart_leveled (i : Fin 4) (mirror pending : Nat) (s : State) : Apart i s (leveled i mirror pending s) := by
  unfold leveled
  dsimp only
  split
  · exact apart_putSlot i _ s
  · exact (apart_putSlot i _ s).trans (.of_slots rfl rfl)

theorem apart_dropFigures (i : Fin 4) (s : State) : Apart i s (dropFigures i s) := by
  unfold dropFigures
  split
  · exact (apart_putSlot i _ s).trans (apart_discardStaging i _)
  · exact .refl i s

/-- A slot that held a verified cartridge loses its level, its drawing list and its write-back. -/
def unheld (i : Fin 4) (s : State) : State :=
  putSlot i { s.cbc.slots.get i with level := none, drawing := [] } (withWork (s.cbc.work.filter (· != .writeBack i)) s)

theorem ceaseVerified_held {i : Fin 4} {s : State} (verified : holdsVerified (s.cbc.slots.get i) = true) :
    ceaseVerified i s = unheld i (updateHistory i false s) := if_pos verified

theorem ceaseVerified_unverified {i : Fin 4} {s : State} (other : ¬ holdsVerified (s.cbc.slots.get i) = true) :
    ceaseVerified i s = s := if_neg other

theorem apart_ceaseVerified (i : Fin 4) (s : State) : Apart i s (ceaseVerified i s) := by
  by_cases verified : holdsVerified (s.cbc.slots.get i) = true
  · rw [ceaseVerified_held verified]
    have working (u : State) : Apart i u (withWork (u.cbc.work.filter (· != .writeBack i)) u) := .of_slots rfl rfl
    exact (apart_updateHistory i false s).trans ((working _).trans (apart_putSlot i _ _))
  · rw [ceaseVerified_unverified verified]
    exact .refl i s

/-! ### The notices and notes of a slot (R89) -/

/-- A slot's CART_STATE notice, and its note behind it where the verification has changed. -/
def toldOf (i : Fin 4) (before : Verification) (c : CartSlot) (s : State) : State :=
  let asked := emit (.cartState (cartContent i c)) s
  if before = c.verification then asked
  else match c.verification with
    | .suspect r => raiseNote (.cartSuspect i c.serial r) asked
    | .rejected r => raiseNote (.cartRejected i c.serial r) asked
    | _ => asked

theorem raiseNote_link {n : Note} {s t : State} (lif : s.lif = t.lif) (fm : s.fm = t.fm) (clock : s.clock = t.clock) :
    (raiseNote n s).lif = (raiseNote n t).lif ∧ (raiseNote n s).fm = (raiseNote n t).fm := by
  simp only [raiseNote, emit, nowMs, lif, fm, clock, and_self]

/-- What is told depends on the outgoing list, the fault records and the clock alone. -/
theorem toldOf_link {i : Fin 4} {before : Verification} {c : CartSlot} {s t : State} (lif : s.lif = t.lif) (fm : s.fm = t.fm)
    (clock : s.clock = t.clock) :
    (toldOf i before c s).lif = (toldOf i before c t).lif ∧ (toldOf i before c s).fm = (toldOf i before c t).fm := by
  have asked : (emit (.cartState (cartContent i c)) s).lif = (emit (.cartState (cartContent i c)) t).lif :=
    congrArg (admitNotice (.cartState (cartContent i c))) lif
  unfold toldOf
  dsimp only
  split
  · exact ⟨asked, fm⟩
  · split
    · exact raiseNote_link asked fm clock
    · exact raiseNote_link asked fm clock
    · exact ⟨asked, fm⟩

/-- A slot's record with a verification. -/
def verifiedAs (v : Verification) (c : CartSlot) : CartSlot := { c with verification := v }

theorem setVerification_eq (i : Fin 4) (v : Verification) (s : State) : setVerification i v s
    = toldOf i (s.cbc.slots.get i).verification (verifiedAs v (s.cbc.slots.get i))
      (putSlot i (verifiedAs v (s.cbc.slots.get i)) s) := by
  have asked : askCartState i (putSlot i (verifiedAs v (s.cbc.slots.get i)) s)
      = emit (.cartState (cartContent i (verifiedAs v (s.cbc.slots.get i)))) (putSlot i (verifiedAs v (s.cbc.slots.get i)) s) := by
    unfold askCartState
    rw [slotRecord_putSlot_self]
  change (if (s.cbc.slots.get i).verification = v then askCartState i (putSlot i (verifiedAs v (s.cbc.slots.get i)) s)
    else match verificationNote i (verifiedAs v (s.cbc.slots.get i)) with
      | some n => raiseNote n (askCartState i (putSlot i (verifiedAs v (s.cbc.slots.get i)) s))
      | none => askCartState i (putSlot i (verifiedAs v (s.cbc.slots.get i)) s)) = _
  rw [asked]
  unfold toldOf
  dsimp only
  refine if_congr Iff.rfl rfl ?_
  cases v <;> rfl

/-- What is told touches the outgoing list and the fault records alone. -/
theorem toldOf_eq (i : Fin 4) (before : Verification) (c : CartSlot) (s : State) :
    toldOf i before c s = { s with lif := (toldOf i before c s).lif, fm := (toldOf i before c s).fm } := by
  unfold toldOf
  dsimp only
  split
  · rfl
  · split <;> rfl

theorem setVerification_cbc (i : Fin 4) (v : Verification) (s : State) :
    (setVerification i v s).cbc = { s.cbc with slots := s.cbc.slots.set i (verifiedAs v (s.cbc.slots.get i)) } := by
  rw [setVerification_eq, toldOf_eq]
  rfl

theorem setVerification_link (i : Fin 4) (v : Verification) (s : State) :
    (setVerification i v s).lif = (toldOf i (s.cbc.slots.get i).verification (verifiedAs v (s.cbc.slots.get i)) s).lif
      ∧ (setVerification i v s).fm = (toldOf i (s.cbc.slots.get i).verification (verifiedAs v (s.cbc.slots.get i)) s).fm := by
  rw [setVerification_eq]
  exact toldOf_link rfl rfl rfl

theorem setVerification_jt (i : Fin 4) (v : Verification) (s : State) : (setVerification i v s).jt = s.jt := by
  rw [setVerification_eq, toldOf_eq]
  rfl

theorem setVerification_spm (i : Fin 4) (v : Verification) (s : State) : (setVerification i v s).spm = s.spm := by
  rw [setVerification_eq, toldOf_eq]
  rfl

theorem setVerification_smc (i : Fin 4) (v : Verification) (s : State) : (setVerification i v s).smc = s.smc := by
  rw [setVerification_eq, toldOf_eq]
  rfl

theorem apart_setVerification (i : Fin 4) (v : Verification) (s : State) : Apart i s (setVerification i v s) := by
  refine ⟨fun k other => ?_, ?_⟩
  · rw [setVerification_cbc]
    exact get_set4_ne _ _ other
  · rw [setVerification_eq, toldOf_eq]
    rfl

theorem setVerification_slot (i : Fin 4) (v : Verification) (s : State) :
    (setVerification i v s).cbc.slots.get i = verifiedAs v (s.cbc.slots.get i) := by
  rw [setVerification_cbc, get_set4_self]

/-! ### The loss of figures and of a verified cartridge (R95) -/

theorem dropFigures_cbc (i : Fin 4) (s : State) :
    (dropFigures i s).cbc = { s.cbc with slots := s.cbc.slots.set i { s.cbc.slots.get i with figures := none } } := by
  unfold dropFigures
  split
  · rfl
  · next absent =>
    have absent : (s.cbc.slots.get i).figures = none := by simpa [slotRecord] using absent
    have same : s.cbc.slots.set i { s.cbc.slots.get i with figures := none } = s.cbc.slots := by
      rw [← absent]
      exact Vector.set_getElem_self i.isLt
    rw [same]

theorem dropFigures_staging (i : Fin 4) (s : State) : (dropFigures i s).spm
    = { s.spm with staging := if (s.cbc.slots.get i).figures.isSome then [] else s.spm.staging } := by
  unfold dropFigures slotRecord
  split <;> rfl

theorem dropFigures_kept (i : Fin 4) (s : State) : (dropFigures i s).lif = s.lif ∧ (dropFigures i s).fm = s.fm
    ∧ (dropFigures i s).jt = s.jt ∧ (dropFigures i s).clock = s.clock := by
  unfold dropFigures
  split <;> exact ⟨rfl, rfl, rfl, rfl⟩

theorem ceaseVerified_cbc {i : Fin 4} {s : State} (verified : holdsVerified (s.cbc.slots.get i) = true) :
    (ceaseVerified i s).cbc = { s.cbc with
      history := (updateHistory i false s).cbc.history
      work := s.cbc.work.filter (· != .writeBack i)
      slots := s.cbc.slots.set i { s.cbc.slots.get i with level := none, drawing := [] } } := by
  have slots := updateHistory_slots i false s
  rw [ceaseVerified_held verified]
  generalize updateHistory i false s = u at slots
  change ({ u.cbc with work := u.cbc.work.filter (· != .writeBack i)
                       slots := u.cbc.slots.set i { u.cbc.slots.get i with level := none, drawing := [] } } : Cartridges) = _
  rw [slots]

theorem ceaseVerified_aside (i : Fin 4) (s : State) : aside (ceaseVerified i s) = aside s := by
  by_cases verified : holdsVerified (s.cbc.slots.get i) = true
  · rw [ceaseVerified_held verified]
    exact aside_updateHistory i false s
  · rw [ceaseVerified_unverified verified]

theorem ceaseVerified_lif (i : Fin 4) (s : State) : (ceaseVerified i s).lif = s.lif := by
  by_cases verified : holdsVerified (s.cbc.slots.get i) = true
  · rw [ceaseVerified_held verified]
    exact updateHistory_lif i false s
  · rw [ceaseVerified_unverified verified]

theorem aside_clock {s t : State} (same : aside t = aside s) : t.clock = s.clock := by
  have := congrArg State.clock same
  exact this

/-- A slot's record without a level. -/
theorem ceaseVerified_slot (i : Fin 4) (s : State) : (ceaseVerified i s).cbc.slots.get i
    = if holdsVerified (s.cbc.slots.get i) then { s.cbc.slots.get i with level := none, drawing := [] } else s.cbc.slots.get i := by
  split
  · next verified => rw [ceaseVerified_cbc verified, get_set4_self]
  · next other => rw [ceaseVerified_unverified other]

/-! ### The history entry of a slot (R96) -/

/-- The history with the entry of a serial at its front. -/
def Remembered (i : Fin 4) (s : State) (serial : Serial) (family : Option Nat) (l : CartLevel) (rise : Prop)
    (history : List HistoryEntry) : Prop :=
  ∃ e rest, history = e :: rest ∧ e.serial = serial ∧ e.family = family.getD 0 ∧ e.colour = i ∧ e.level = l.mirror
    ∧ e.pending = l.pending ∧ e.lastSeen = s.cbc.lifetime
    ∧ (e.suspect = true ↔ rise ∨ ∃ h, s.cbc.history.find? (·.serial == serial) = some h ∧ h.suspect = true)
    ∧ ∀ x ∈ rest, x ∈ s.cbc.history ∧ x.serial ≠ serial

theorem putHistory_front (held : List Serial) (e : HistoryEntry) (entries : List HistoryEntry) :
    ∃ rest, putHistory held e entries = e :: rest ∧ ∀ x ∈ rest, x ∈ entries ∧ x.serial ≠ e.serial := by
  by_cases known : ∃ x ∈ entries, x.serial = e.serial
  · refine ⟨_, putHistory_known known, fun x mem => ?_⟩
    obtain ⟨mem, other⟩ := List.mem_filter.mp mem
    exact ⟨mem, by simpa using other⟩
  · have new : ∀ x ∈ entries, x.serial ≠ e.serial := fun x mem same => known ⟨x, mem, same⟩
    refine ⟨_, putHistory_new new, fun x mem => ?_⟩
    have mem : x ∈ entries := by
      split at mem
      · exact (dropLastUnheld_sublist held entries).subset mem
      · exact mem
    exact ⟨mem, new x mem⟩

/-- An update of the history from a state whose history and lifetime count are those of the state before. -/
theorem remembered_of_update {i : Fin 4} {suspect : Bool} {s u : State} {serial : Serial} {l : CartLevel}
    (known : (u.cbc.slots.get i).serial = some serial) (level : (u.cbc.slots.get i).level = some l)
    (history : u.cbc.history = s.cbc.history) (lifetime : u.cbc.lifetime = s.cbc.lifetime) :
    Remembered i s serial (u.cbc.slots.get i).family l (suspect = true) (updateHistory i suspect u).cbc.history := by
  obtain ⟨rest, front, old⟩ := putHistory_front (heldSerials u.cbc) (entryOf i suspect u.cbc serial l) u.cbc.history
  refine ⟨entryOf i suspect u.cbc serial l, rest, ?_, rfl, rfl, rfl, rfl, rfl, lifetime, ?_, fun x mem => history ▸ old x mem⟩
  · rw [updateHistory_known known level]
    exact front
  · change (suspect || ((historyOf u.cbc serial).map (·.suspect)).getD false) = true ↔ _
    rw [suspectFlag_eq, history, Bool.or_eq_true, Option.any_eq_true]

end Sys2Proof.Machine

/-! PROOFS. O42: what the ends of an AUTH and of a WRITE_BACK leave. -/

namespace Sys2Proof.Machine

/-! ### The jobs that return from a stall (R11) -/

theorem queueTails_eq (l : List Job) (s : State) : l.foldl (fun s j => queueTail j s) s
    = { s with jt := (l.foldl (fun s j => queueTail j s) s).jt, lif := (l.foldl (fun s j => queueTail j s) s).lif } := by
  induction l generalizing s with
  | nil => rfl
  | cons j rest ih => exact ih (queueTail j s)

theorem queueTails_jt (l : List Job) {s t : State} (jt : s.jt = t.jt) :
    (l.foldl (fun s j => queueTail j s) s).jt = (l.foldl (fun s j => queueTail j s) t).jt := by
  induction l generalizing s t with
  | nil => exact jt
  | cons j rest ih => exact ih (by simp only [queueTail, moveJob_jt, jt])

theorem queueTails_lif (l : List Job) {s t : State} (lif : s.lif = t.lif) :
    (l.foldl (fun s j => queueTail j s) s).lif = (l.foldl (fun s j => queueTail j s) t).lif := by
  induction l generalizing s t with
  | nil => exact lif
  | cons j rest ih =>
    have first : (queueTail j s).lif = (queueTail j t).lif :=
      congrArg (admitNotice (.jobState (slotOf j.handle) (jobContent { j with state := .queued }))) lif
    exact ih first

theorem supplyCame_eq (s : State) : supplyCame s = { s with jt := (supplyCame s).jt, lif := (supplyCame s).lif } := queueTails_eq _ s

theorem supplyCame_jt {s t : State} (jt : s.jt = t.jt) : (supplyCame s).jt = (supplyCame t).jt := by
  unfold supplyCame requeue
  rw [jt]
  exact queueTails_jt _ jt

theorem supplyCame_lif {s t : State} (jt : s.jt = t.jt) (lif : s.lif = t.lif) : (supplyCame s).lif = (supplyCame t).lif := by
  unfold supplyCame requeue
  rw [jt]
  exact queueTails_lif _ lif

theorem apart_supplyCame (i : Fin 4) (s : State) : Apart i s (supplyCame s) := by
  rw [supplyCame_eq]
  exact .of_slots rfl rfl

/-! ### The end of a verification without a result (R92, R95) -/

/-- A slot's record with what an AUTH that ends without a verified cartridge leaves of its cartridge. -/
def readAs (serial : Option Serial) (family : Option Nat) (failures : Nat) (c : CartSlot) : CartSlot :=
  { c with serial := serial, family := family, failures := failures }

/-- The end of an AUTH that leaves no verified cartridge. -/
def endedAs (i : Fin 4) (v : Verification) (serial : Option Serial) (family : Option Nat) (failures : Nat) (s : State) : State :=
  let left := dropFigures i (ceaseVerified i s)
  setVerification i v (putSlot i (readAs serial family failures (left.cbc.slots.get i)) left)

theorem putSlot_same (i : Fin 4) (s : State) : putSlot i (s.cbc.slots.get i) s = s := by
  unfold putSlot
  rw [show s.cbc.slots.set i (s.cbc.slots.get i) = s.cbc.slots from Vector.set_getElem_self i.isLt]

section Ended

variable (i : Fin 4) (v : Verification) (serial : Option Serial) (family : Option Nat) (failures : Nat) (s : State)

/-- A slot's record after the loss of its cartridge and its figures. -/
theorem lost_slot : (dropFigures i (ceaseVerified i s)).cbc.slots.get i
    = { (if holdsVerified (s.cbc.slots.get i) then { s.cbc.slots.get i with level := none, drawing := [] } else s.cbc.slots.get i)
        with figures := none } := by
  rw [dropFigures_cbc, get_set4_self, ceaseVerified_slot]

/-- A slot's record after its AUTH has ended without a verified cartridge. -/
def endedSlot (c : CartSlot) : CartSlot :=
  verifiedAs v (readAs serial family failures
    { (if holdsVerified c then { c with level := none, drawing := [] } else c) with figures := none })

theorem endedAs_cbc : (endedAs i v serial family failures s).cbc = { (ceaseVerified i s).cbc with
    slots := (ceaseVerified i s).cbc.slots.set i (endedSlot v serial family failures (s.cbc.slots.get i)) } := by
  have slot := lost_slot i s
  have cbc := dropFigures_cbc i (ceaseVerified i s)
  unfold endedAs
  dsimp only
  rw [setVerification_cbc]
  generalize dropFigures i (ceaseVerified i s) = u at slot cbc
  change ({ u.cbc with slots := (u.cbc.slots.set i _).set i (verifiedAs v ((u.cbc.slots.set i _).get i)) } : Cartridges) = _
  rw [get_set4_self, Vector.set_set, slot, cbc, Vector.set_set]
  rfl

theorem endedAs_slot : (endedAs i v serial family failures s).cbc.slots.get i
    = endedSlot v serial family failures (s.cbc.slots.get i) := by
  rw [endedAs_cbc, get_set4_self]

theorem endedSlot_eq (c : CartSlot) : endedSlot v serial family failures c = { c with
    verification := v, serial := serial, family := family, failures := failures, figures := none
    level := (endedSlot v serial family failures c).level, drawing := (endedSlot v serial family failures c).drawing } := by
  unfold endedSlot
  split <;> rfl

theorem ceased_staging : (dropFigures i (ceaseVerified i s)).spm
    = { s.spm with staging := if (s.cbc.slots.get i).figures.isSome then [] else s.spm.staging } := by
  have figures : ((ceaseVerified i s).cbc.slots.get i).figures = (s.cbc.slots.get i).figures := by
    rw [ceaseVerified_slot]
    split <;> rfl
  rw [dropFigures_staging, aside_spm (ceaseVerified_aside i s), figures]

theorem endedAs_spm : (endedAs i v serial family failures s).spm
    = { s.spm with staging := if (s.cbc.slots.get i).figures.isSome then [] else s.spm.staging } := by
  rw [← ceased_staging]
  exact setVerification_spm ..

theorem endedAs_jt : (endedAs i v serial family failures s).jt = s.jt := by
  obtain ⟨_, _, jt, _⟩ := dropFigures_kept i (ceaseVerified i s)
  exact (setVerification_jt ..).trans (jt.trans (aside_jt (ceaseVerified_aside i s)))

theorem endedAs_link : (endedAs i v serial family failures s).lif
      = (toldOf i (s.cbc.slots.get i).verification (endedSlot v serial family failures (s.cbc.slots.get i)) s).lif
    ∧ (endedAs i v serial family failures s).fm
      = (toldOf i (s.cbc.slots.get i).verification (endedSlot v serial family failures (s.cbc.slots.get i)) s).fm := by
  have slot := lost_slot i s
  obtain ⟨lif, fm, _, clock⟩ := dropFigures_kept i (ceaseVerified i s)
  rw [ceaseVerified_lif] at lif
  rw [aside_fm (ceaseVerified_aside i s)] at fm
  rw [aside_clock (ceaseVerified_aside i s)] at clock
  unfold endedAs
  dsimp only
  generalize dropFigures i (ceaseVerified i s) = u at slot lif fm clock
  have record : (putSlot i (readAs serial family failures (u.cbc.slots.get i)) u).cbc.slots.get i
      = readAs serial family failures (u.cbc.slots.get i) := get_set4_self _ _ _
  have before : (readAs serial family failures (u.cbc.slots.get i)).verification = (s.cbc.slots.get i).verification := by
    rw [slot]
    unfold readAs
    dsimp only
    split <;> rfl
  have link := setVerification_link i v (putSlot i (readAs serial family failures (u.cbc.slots.get i)) u)
  have told := toldOf_link (i := i) (before := (s.cbc.slots.get i).verification)
    (c := endedSlot v serial family failures (s.cbc.slots.get i))
    (s := putSlot i (readAs serial family failures (u.cbc.slots.get i)) u) (t := s) lif fm clock
  rw [record, before, slot] at link
  rw [slot] at told ⊢
  exact ⟨link.1.trans told.1, link.2.trans told.2⟩

theorem apart_endedAs : Apart i s (endedAs i v serial family failures s) :=
  (apart_ceaseVerified i s).trans ((apart_dropFigures i _).trans ((apart_putSlot i _ _).trans (apart_setVerification i v _)))

end Ended

theorem rejectRead_ended (i : Fin 4) (reason : RejectReason) (record : List Byte) (s : State) : rejectRead i reason record s
    = endedAs i (.rejected reason) (some (recordSerial record)) (some (recordByte record 1)) 0 s := rfl

theorem endUnverified_ended (i : Fin 4) (v : Verification) (s : State) : endUnverified i v s
    = endedAs i v (s.cbc.slots.get i).serial (s.cbc.slots.get i).family (s.cbc.slots.get i).failures s := by
  have same : readAs (s.cbc.slots.get i).serial (s.cbc.slots.get i).family (s.cbc.slots.get i).failures
      ((dropFigures i (ceaseVerified i s)).cbc.slots.get i) = (dropFigures i (ceaseVerified i s)).cbc.slots.get i := by
    rw [lost_slot]
    unfold readAs
    dsimp only
    split <;> rfl
  unfold endedAs
  dsimp only
  rw [same, putSlot_same]
  rfl

theorem endEmpty_ended (i : Fin 4) (s : State) : endEmpty i s = endedAs i .empty none none 0 (endFlight s) := rfl

/-! ### The write-back that an end makes due (R99) -/

/-- The work list with a slot's write-back where it is due. -/
def WritesBack (i : Fin 4) (s : State) (due : Prop) (work : List WorkItem) : Prop :=
  (due → s.fm.part ≠ .halted → .writeBack i ∉ s.cbc.work → work = s.cbc.work ++ [.writeBack i])
    ∧ ((¬ due ∨ .writeBack i ∈ s.cbc.work) → work = s.cbc.work)

theorem writeBackTest_work {i : Fin 4} {exhausted : Bool} {s t : State} {due : Prop} (work : t.cbc.work = s.cbc.work)
    (part : t.fm.part = s.fm.part)
    (test : writeDue t.settings.meter.writebackPct exhausted (t.cbc.slots.get i) = true ↔ due) :
    WritesBack i s due (writeBackTest i exhausted t).cbc.work := by
  rw [writeBackTest_eq]
  refine ⟨fun yes runs fresh => ?_, fun no => ?_⟩
  · rw [if_pos (test.mpr yes), queueItem_work (by rwa [part]), work, if_neg fresh]
  · split
    · next yes =>
      have known : .writeBack i ∈ s.cbc.work := no.resolve_left fun no => no (test.mp yes)
      rw [queueItem_eq, work]
      simp [known]
    · exact work

theorem toldOf_part (i : Fin 4) (before : Verification) (c : CartSlot) (s : State) : (toldOf i before c s).fm.part = s.fm.part := by
  unfold toldOf
  dsimp only
  split
  · rfl
  · split <;> rfl

/-! ### The end of an AUTH with a result (R93, R95) -/

section Complete

variable (i : Fin 4) (record : List Byte) (s : State)

/-- The record of a slot whose AUTH ends with a result, its verification still to be set. -/
def authSlot : CartSlot :=
  let h := historyOf s.cbc (recordSerial record)
  formLevel s.settings.meter.lowMarkPct (authMirror record h) (recordLevel record - authMirror record h)
    { s.cbc.slots.get i with
      serial := some (recordSerial record)
      family := some (recordByte record 1)
      figures := some { density := recordByte record 3, full := recordFull record }
      sheetsSince := 0
      failures := 0
      drawing := if (s.cbc.slots.get i).serial = some (recordSerial record) then (s.cbc.slots.get i).drawing else [] }

/-- The result of an AUTH in a state. -/
def authResultOf : Verification := authResult record (historyOf s.cbc (recordSerial record))

/-- The state with the figures of a record, its history entry and the staging that depends on them. -/
def authRead : State :=
  let t := updateHistory i (authResultOf record s == .suspect .levelRise) (putSlot i (authSlot i record s) s)
  if (s.cbc.slots.get i).figures.map (·.density) = some (recordByte record 3) then t else discardStaging t

/-- Whether a slot has just become EXHAUSTED by its AUTH. -/
def authExhausted : Bool :=
  classOfSlot (authSlot i record s) == some .exhausted && classOfSlot (s.cbc.slots.get i) != some .exhausted

/-- The state of an AUTH's end before the report of a usable slot. -/
def authVerified : State := writeBackTest i (authExhausted i record s) (setVerification i (authResultOf record s) (authRead i record s))

theorem completeAuth_eq : completeAuth i record s
    = if !usable s.settings.allow (s.cbc.slots.get i)
        && usable (authVerified i record s).settings.allow ((authVerified i record s).cbc.slots.get i)
      then supplyCame (authVerified i record s) else authVerified i record s := rfl

theorem authRead_cbc : (authRead i record s).cbc = { s.cbc with
    slots := s.cbc.slots.set i (authSlot i record s)
    history := (updateHistory i (authResultOf record s == .suspect .levelRise) (putSlot i (authSlot i record s) s)).cbc.history } := by
  unfold authRead
  dsimp only
  split
  · rw [updateHistory_slots]
    rfl
  · rw [discardStaging_cbc, updateHistory_slots]
    rfl

theorem authRead_kept : (authRead i record s).lif = s.lif ∧ (authRead i record s).fm = s.fm ∧ (authRead i record s).jt = s.jt
    ∧ (authRead i record s).clock = s.clock := by
  have kept := aside_updateHistory i (authResultOf record s == .suspect .levelRise) (putSlot i (authSlot i record s) s)
  have lif := updateHistory_lif i (authResultOf record s == .suspect .levelRise) (putSlot i (authSlot i record s) s)
  have fm := aside_fm kept
  have jt := aside_jt kept
  have clock := aside_clock kept
  unfold authRead
  dsimp only
  split <;> exact ⟨lif, fm, jt, clock⟩

theorem authRead_staging : (authRead i record s).spm.staging =
    if (s.cbc.slots.get i).figures.map (·.density) = some (recordByte record 3) then s.spm.staging else [] := by
  have spm := aside_spm (aside_updateHistory i (authResultOf record s == .suspect .levelRise) (putSlot i (authSlot i record s) s))
  unfold authRead
  dsimp only
  split
  · exact congrArg SheetPath.staging spm
  · rfl

theorem apart_authRead : Apart i s (authRead i record s) := by
  unfold authRead
  dsimp only
  split
  · exact (apart_putSlot i _ s).trans (apart_updateHistory i _ _)
  · exact ((apart_putSlot i _ s).trans (apart_updateHistory i _ _)).trans (apart_discardStaging i _)

/-- The slot's record at the end of its AUTH. -/
def authDone : CartSlot := verifiedAs (authResultOf record s) (authSlot i record s)

theorem verified_slot : (setVerification i (authResultOf record s) (authRead i record s)).cbc.slots.get i = authDone i record s := by
  rw [setVerification_slot, authRead_cbc, get_set4_self]
  rfl

theorem verified_link : (setVerification i (authResultOf record s) (authRead i record s)).lif
      = (toldOf i (s.cbc.slots.get i).verification (authDone i record s) s).lif
    ∧ (setVerification i (authResultOf record s) (authRead i record s)).fm
      = (toldOf i (s.cbc.slots.get i).verification (authDone i record s) s).fm := by
  obtain ⟨lif, fm, _, clock⟩ := authRead_kept i record s
  have link := setVerification_link i (authResultOf record s) (authRead i record s)
  have told := toldOf_link (i := i) (before := (s.cbc.slots.get i).verification) (c := authDone i record s) lif fm clock
  have slot : (authRead i record s).cbc.slots.get i = authSlot i record s := by rw [authRead_cbc, get_set4_self]
  rw [slot] at link
  exact ⟨link.1.trans told.1, link.2.trans told.2⟩

theorem writeBackTest_kept (exhausted : Bool) (t : State) :
    writeBackTest i exhausted t = withWork (writeBackTest i exhausted t).cbc.work t := by
  rw [writeBackTest_eq]
  split
  · exact queueItem_frame _ t
  · rfl

theorem authVerified_eq : authVerified i record s
    = withWork (authVerified i record s).cbc.work (setVerification i (authResultOf record s) (authRead i record s)) :=
  writeBackTest_kept i _ _

theorem authVerified_slot : (authVerified i record s).cbc.slots.get i = authDone i record s := by
  rw [authVerified_eq]
  exact verified_slot i record s

theorem apart_authVerified : Apart i s (authVerified i record s) :=
  (apart_authRead i record s).trans ((apart_setVerification i _ _).trans (apart_writeBackTest i i _ _))

theorem authDone_eq : authDone i record s =
    { verification := authResultOf record s, serial := some (recordSerial record), family := some (recordByte record 1)
      figures := some { density := recordByte record 3, full := recordFull record }
      level := some { mirror := authMirror record (historyOf s.cbc (recordSerial record))
                      pending := recordLevel record - authMirror record (historyOf s.cbc (recordSerial record))
                      cls := levelClass (authMirror record (historyOf s.cbc (recordSerial record))) (recordFull record)
                        s.settings.meter.lowMarkPct }
      sheetsSince := 0, failures := 0
      drawing := if (s.cbc.slots.get i).serial = some (recordSerial record) then (s.cbc.slots.get i).drawing else [] } := rfl

theorem authResult_verified (h : Option HistoryEntry) :
    authResult record h = .genuine ∨ ∃ r, authResult record h = .suspect r := by
  unfold authResult
  split
  · exact .inr ⟨_, rfl⟩
  · split
    · split
      · exact .inr ⟨_, rfl⟩
      · exact .inl rfl
    · exact .inl rfl

theorem authVerified_history : (authVerified i record s).cbc.history
    = (updateHistory i (authResultOf record s == .suspect .levelRise) (putSlot i (authSlot i record s) s)).cbc.history := by
  rw [authVerified_eq]
  change (setVerification i (authResultOf record s) (authRead i record s)).cbc.history = _
  rw [setVerification_cbc, authRead_cbc]

theorem authVerified_work : WritesBack i s (0 < recordLevel record - authMirror record (historyOf s.cbc (recordSerial record))
      ∧ (max 1 (recordFull record * s.settings.meter.writebackPct / 100)
          ≤ recordLevel record - authMirror record (historyOf s.cbc (recordSerial record))
        ∨ (authMirror record (historyOf s.cbc (recordSerial record)) = 0
          ∧ (s.cbc.slots.get i).level.map (·.cls) ≠ some .exhausted))) (authVerified i record s).cbc.work := by
  refine writeBackTest_work ?_ ?_ ?_
  · rw [setVerification_cbc, authRead_cbc]
  · rw [(verified_link i record s).2, toldOf_part]
  · have settings : (setVerification i (authResultOf record s) (authRead i record s)).settings = s.settings :=
      ((apart_authRead i record s).trans (apart_setVerification i _ _)).frame.2.2.1
    have verified : holdsVerified (authDone i record s) = true := by
      rw [holdsVerified_iff, authDone_eq]
      exact authResult_verified record (historyOf s.cbc (recordSerial record))
    rw [verified_slot, settings, writeDue_iff rfl verified, or_comm]
    simp only [authExhausted, Bool.and_eq_true, beq_iff_eq, bne_iff_ne, ne_eq, classOfSlot, authSlot, formLevel, Option.map_some,
      Option.some.injEq, levelClass_exhausted]
    rfl

end Complete

end Sys2Proof.Machine

/-! PROOFS. O42: the end of a WRITE_BACK, and the settled statement. -/

namespace Sys2Proof.Machine

/-! ### The end of a WRITE_BACK (R102) -/

section WriteBack

variable (i : Fin 4) (amount level : Nat) (l : CartLevel) (s : State)

/-- The figures a DECREMENT reply leaves. -/
def settledOf : Nat × Nat := settleWriteBack l.mirror l.pending amount (min level (fullOf (s.cbc.slots.get i)))

/-- The slot's record with its figures settled, its class still the old one. -/
def settledSlot : CartSlot :=
  { s.cbc.slots.get i with
    drawing := if (settledOf i amount level l s).2 = 0 then [] else (s.cbc.slots.get i).drawing
    level := some { l with mirror := (settledOf i amount level l s).1, pending := (settledOf i amount level l s).2 } }

/-- The state with the figures settled and the history entry updated. -/
def settledRead : State := updateHistory i false (putSlot i (settledSlot i amount level l s) s)

/-- The slot's record at the end of its WRITE_BACK. -/
def settledDone : CartSlot :=
  formLevel s.settings.meter.lowMarkPct (settledOf i amount level l s).1 (settledOf i amount level l s).2 (settledSlot i amount level l s)

/-- The state at the end of a WRITE_BACK, before the write-back test. -/
def settledLevel : State := leveled i (settledOf i amount level l s).1 (settledOf i amount level l s).2 (settledRead i amount level l s)

theorem completeWriteBack_none {i : Fin 4} {amount level : Nat} {s : State} (unknown : (s.cbc.slots.get i).level = none) :
    completeWriteBack i amount level s = s := by
  rw [completeWriteBack, slotRecord, unknown]

theorem completeWriteBack_some {i : Fin 4} {amount level : Nat} {l : CartLevel} {s : State}
    (known : (s.cbc.slots.get i).level = some l) : completeWriteBack i amount level s
      = changeLevel i (settledOf i amount level l s).1 (settledOf i amount level l s).2 (settledRead i amount level l s) := by
  simp only [completeWriteBack, slotRecord, known]
  rfl

theorem settledRead_cbc : (settledRead i amount level l s).cbc = { s.cbc with
    slots := s.cbc.slots.set i (settledSlot i amount level l s), history := (settledRead i amount level l s).cbc.history } :=
  updateHistory_slots i false (putSlot i (settledSlot i amount level l s) s)

theorem settledRead_aside : aside (settledRead i amount level l s) = aside s := by
  rw [settledRead, aside_updateHistory, aside_putSlot]

theorem settledRead_slot : (settledRead i amount level l s).cbc.slots.get i = settledSlot i amount level l s := by
  rw [settledRead_cbc, get_set4_self]

theorem settledLevel_slot : (settledLevel i amount level l s).cbc.slots.get i = settledDone i amount level l s := by
  rw [settledLevel, leveled_cbc, get_set4_self, settledRead_slot, aside_settings (settledRead_aside i amount level l s)]
  rfl

theorem settledLevel_lif : (settledLevel i amount level l s).lif
    = if (settledDone i amount level l s).level.map (·.cls) = some l.cls then s.lif
      else (emit (.cartState (cartContent i (settledDone i amount level l s))) s).lif := by
  have slot := settledRead_slot i amount level l s
  have settings := aside_settings (settledRead_aside i amount level l s)
  have lif : (settledRead i amount level l s).lif = s.lif := updateHistory_lif i false _
  unfold settledLevel leveled
  dsimp only
  rw [slotRecord, slot, settings]
  generalize settledRead i amount level l s = u at lif
  change (if (settledDone i amount level l s).level.map (·.cls) = some l.cls then putSlot i (settledDone i amount level l s) u
    else askCartState i (putSlot i (settledDone i amount level l s) u)).lif = _
  split
  · exact lif
  · change admitNotice (.cartState (cartContent i (slotRecord (putSlot i (settledDone i amount level l s) u) i))) u.lif = _
    rw [slotRecord_putSlot_self, lif]
    rfl

theorem completeWriteBack_test {i : Fin 4} {amount level : Nat} {l : CartLevel} {s : State}
    (known : (s.cbc.slots.get i).level = some l) : completeWriteBack i amount level s
      = writeBackTest i (classOfSlot (settledDone i amount level l s) == some .exhausted && some l.cls != some .exhausted)
          (settledLevel i amount level l s) := by
  rw [completeWriteBack_some known, changeLevel_eq, slotRecord, settledRead_slot,
    aside_settings (settledRead_aside i amount level l s)]
  rfl

theorem apart_settledLevel : Apart i s (settledLevel i amount level l s) :=
  ((apart_putSlot i _ s).trans (apart_updateHistory i false _)).trans (apart_leveled i _ _ _)

theorem settledLevel_aside : aside (settledLevel i amount level l s) = aside s := by
  rw [settledLevel, aside_leveled, settledRead_aside]

theorem completeWriteBack_work {i : Fin 4} {amount level : Nat} {l : CartLevel} {s : State}
    (known : (s.cbc.slots.get i).level = some l) : WritesBack i s (holdsVerified (s.cbc.slots.get i) = true
      ∧ 0 < (settledOf i amount level l s).2
      ∧ (max 1 (fullOf (s.cbc.slots.get i) * s.settings.meter.writebackPct / 100) ≤ (settledOf i amount level l s).2
        ∨ ((settledOf i amount level l s).1 = 0 ∧ l.cls ≠ .exhausted))) (completeWriteBack i amount level s).cbc.work := by
  rw [completeWriteBack_test known]
  refine writeBackTest_work ?_ ?_ ?_
  · rw [settledLevel, leveled_cbc, settledRead_cbc]
  · rw [aside_fm (settledLevel_aside i amount level l s)]
  · rw [settledLevel_slot, aside_settings (settledLevel_aside i amount level l s)]
    by_cases verified : holdsVerified (s.cbc.slots.get i) = true
    · have held : holdsVerified (settledDone i amount level l s) = true := verified
      rw [writeDue_iff rfl held, or_comm, and_iff_right verified]
      simp only [Bool.and_eq_true, beq_iff_eq, bne_iff_ne, ne_eq, classOfSlot, settledDone, formLevel, Option.map_some,
        Option.some.injEq, levelClass_exhausted]
      rfl
    · have unheld : holdsVerified (settledDone i amount level l s) = false := by
        simpa using (show ¬ holdsVerified (settledDone i amount level l s) = true from verified)
      simp [writeDue, unheld, verified]

end WriteBack

/-- What the end of an AUTH without a verified cartridge leaves, in the terms of the state before. -/
theorem endedAs_remembers {i : Fin 4} {v : Verification} {serial : Option Serial} {family : Option Nat} {failures : Nat} {s : State}
    (verified : holdsVerified (s.cbc.slots.get i) = true) :
    (endedAs i v serial family failures s).cbc.work = s.cbc.work.filter (· != .writeBack i)
      ∧ ∀ sr l, (s.cbc.slots.get i).serial = some sr → (s.cbc.slots.get i).level = some l →
        Remembered i s sr (s.cbc.slots.get i).family l False (endedAs i v serial family failures s).cbc.history := by
  rw [endedAs_cbc, ceaseVerified_cbc verified]
  refine ⟨rfl, fun sr l known level => ?_⟩
  have entry := remembered_of_update (i := i) (suspect := false) (s := s) known level rfl rfl
  simpa only [Bool.false_eq_true] using entry

/-- An AUTH has ended and left no verified cartridge in the slot. -/
def Ended (i : Fin 4) (s t : State) (v : Verification) (serial : Option Serial) (family : Option Nat) (failures : Nat) : Prop :=
  let old := s.cbc.slots.get i
  let c := t.cbc.slots.get i
  c = { old with verification := v, serial := serial, family := family, failures := failures, figures := none
                 level := c.level, drawing := c.drawing }
    ∧ (holdsVerified old = true → c.level = none ∧ c.drawing = [] ∧ t.cbc.work = s.cbc.work.filter (· != .writeBack i)
        ∧ ∀ sr l, old.serial = some sr → old.level = some l → Remembered i s sr old.family l False t.cbc.history)
    ∧ (¬ holdsVerified old = true → c.level = old.level ∧ c.drawing = old.drawing ∧ t.cbc.work = s.cbc.work
        ∧ t.cbc.history = s.cbc.history)
    ∧ (old.figures ≠ none → t.spm.staging = []) ∧ (old.figures = none → t.spm.staging = s.spm.staging)
    ∧ t.lif = (toldOf i old.verification c s).lif ∧ t.fm = (toldOf i old.verification c s).fm ∧ t.jt = s.jt ∧ Apart i s t

theorem endedAs_ended (i : Fin 4) (v : Verification) (serial : Option Serial) (family : Option Nat) (failures : Nat) (s : State) :
    Ended i s (endedAs i v serial family failures s) v serial family failures := by
  have slot := endedAs_slot i v serial family failures s
  have link := endedAs_link i v serial family failures s
  have staging := congrArg SheetPath.staging (endedAs_spm i v serial family failures s)
  refine ⟨?_, fun yes => ?_, fun no => ?_, fun figures => ?_, fun bare => ?_, ?_, ?_, endedAs_jt .., apart_endedAs ..⟩
  · rw [slot]
    exact endedSlot_eq v serial family failures _
  · obtain ⟨work, history⟩ := endedAs_remembers (v := v) (serial := serial) (family := family) (failures := failures) yes
    rw [slot, endedSlot, if_pos yes]
    exact ⟨rfl, rfl, work, history⟩
  · rw [slot, endedSlot, if_neg no, endedAs_cbc, ceaseVerified_unverified no]
    exact ⟨rfl, rfl, rfl, rfl⟩
  · rw [staging, if_pos (Option.isSome_iff_ne_none.mpr figures)]
  · rw [staging, if_neg]
    simpa using bare
  · rw [slot]
    exact link.1
  · rw [slot]
    exact link.2

theorem Ended.of_flight {i : Fin 4} {s t : State} {v : Verification} {serial : Option Serial} {family : Option Nat} {failures : Nat}
    (ended : Ended i (endFlight s) t v serial family failures) : Ended i s t v serial family failures := by
  obtain ⟨slot, yes, no, figures, bare, lif, fm, jt, apart⟩ := ended
  have told := toldOf_link (i := i) (before := (s.cbc.slots.get i).verification) (c := t.cbc.slots.get i)
    (s := endFlight s) (t := s) rfl rfl rfl
  exact ⟨slot, yes, no, figures, bare, lif.trans told.1, fm.trans told.2, jt, apart.others, apart.same⟩

/-! ### The report of a usable slot at the end of an AUTH -/

section Usable

variable {i : Fin 4} {record : List Byte} {s : State}

theorem completeAuth_gains (before : ¬ usable s.settings.allow (s.cbc.slots.get i) = true)
    (after : usable s.settings.allow (authDone i record s) = true) :
    completeAuth i record s = supplyCame (authVerified i record s) := by
  have settings := (apart_authVerified i record s).frame.2.2.1
  rw [completeAuth_eq, settings, authVerified_slot, if_pos]
  simp [before, after]

theorem completeAuth_plain (nothing : ¬ (¬ usable s.settings.allow (s.cbc.slots.get i) = true
    ∧ usable s.settings.allow (authDone i record s) = true)) : completeAuth i record s = authVerified i record s := by
  have settings := (apart_authVerified i record s).frame.2.2.1
  rw [completeAuth_eq, settings, authVerified_slot, if_neg]
  simpa using nothing

theorem completeAuth_kept : (completeAuth i record s).cbc = (authVerified i record s).cbc
    ∧ (completeAuth i record s).spm = (authVerified i record s).spm ∧ (completeAuth i record s).fm = (authVerified i record s).fm
    ∧ Apart i s (completeAuth i record s) := by
  have apart := apart_authVerified i record s
  by_cases gain : ¬ usable s.settings.allow (s.cbc.slots.get i) = true ∧ usable s.settings.allow (authDone i record s) = true
  · rw [completeAuth_gains gain.1 gain.2]
    exact ⟨by rw [supplyCame_eq], by rw [supplyCame_eq], by rw [supplyCame_eq], apart.trans (apart_supplyCame i _)⟩
  · rw [completeAuth_plain gain]
    exact ⟨rfl, rfl, rfl, apart⟩

theorem authVerified_link : (authVerified i record s).lif = (toldOf i (s.cbc.slots.get i).verification (authDone i record s) s).lif
    ∧ (authVerified i record s).fm = (toldOf i (s.cbc.slots.get i).verification (authDone i record s) s).fm
    ∧ (authVerified i record s).jt = s.jt := by
  obtain ⟨lif, fm⟩ := verified_link i record s
  rw [authVerified_eq]
  exact ⟨lif, fm, (setVerification_jt ..).trans (authRead_kept i record s).2.2.1⟩

theorem authVerified_staging : (authVerified i record s).spm.staging =
    if (s.cbc.slots.get i).figures.map (·.density) = some (recordByte record 3) then s.spm.staging else [] := by
  rw [← authRead_staging, authVerified_eq]
  exact congrArg SheetPath.staging (setVerification_spm ..)

/-- The history entry of a cartridge whose AUTH has ended with a result stands at the front. -/
theorem completeAuth_remembers : Remembered i s (recordSerial record) (some (recordByte record 1))
    { mirror := authMirror record (historyOf s.cbc (recordSerial record))
      pending := recordLevel record - authMirror record (historyOf s.cbc (recordSerial record))
      cls := levelClass (authMirror record (historyOf s.cbc (recordSerial record))) (recordFull record) s.settings.meter.lowMarkPct }
    (authResultOf record s = .suspect .levelRise) (completeAuth i record s).cbc.history := by
  have slot : (putSlot i (authSlot i record s) s).cbc.slots.get i = authSlot i record s := get_set4_self _ _ _
  have entry := remembered_of_update (i := i) (suspect := authResultOf record s == .suspect .levelRise) (s := s)
    (u := putSlot i (authSlot i record s) s) (congrArg CartSlot.serial slot) (congrArg CartSlot.level slot) rfl rfl
  rw [slot] at entry
  rw [completeAuth_kept.1, authVerified_history]
  rw [beq_iff_eq] at entry
  exact entry

theorem completeAuth_lif_gains (before : ¬ usable s.settings.allow (s.cbc.slots.get i) = true)
    (after : usable s.settings.allow (authDone i record s) = true) : (completeAuth i record s).lif
      = (supplyCame (toldOf i (s.cbc.slots.get i).verification (authDone i record s) s)).lif
    ∧ (completeAuth i record s).jt = (supplyCame s).jt := by
  obtain ⟨lif, _, jt⟩ := authVerified_link (i := i) (record := record) (s := s)
  rw [completeAuth_gains before after]
  refine ⟨supplyCame_lif ?_ lif, supplyCame_jt jt⟩
  rw [jt, toldOf_eq]

end Usable

/-- Settles O42: the ends of an AUTH through one form of their end, the figures by their definitions. -/
theorem verificationsEnd : Obligations.VerificationsEnd := by
  intro i s old verified can content told remembered writesBack rest ended
  have toldIs : ∀ c, told c = toldOf i old.verification c s := fun c => rfl
  have verifiedIs : verified ↔ holdsVerified old = true := holdsVerified_iff.symm
  have canIs : ∀ c, can c ↔ usable s.settings.allow c = true := fun c => usable_iff.symm
  have restOf : ∀ t, Apart i s t → rest t := fun t apart => ⟨apart.others, apart.frame⟩
  have endedOf : ∀ {t v serial family failures}, Ended i s t v serial family failures → ended t v serial family failures :=
    fun ⟨slot, yes, no, figures, bare, lif, fm, jt, apart⟩ =>
      ⟨slot, fun is => yes (verifiedIs.mp is), fun is => no (mt verifiedIs.mpr is), figures, bare, lif, fm, jt, restOf _ apart⟩
  refine ⟨fun record => ?_, fun record reason => endedOf (endedAs_ended ..), fun v => ?_,
    ⟨endedOf (endedAs_ended i .empty none none 0 (endFlight s)).of_flight, ?_⟩, fun amount level =>
      ⟨completeWriteBack_none, fun l known => ?_⟩⟩
  · intro t c serial known result mirror pending level
    have resultIs : authResultOf record s = result := by
      unfold authResultOf authResult
      refine if_congr Iff.rfl rfl ?_
      change (match known with | some e => _ | none => _) = _
      cases known with
      | none => rfl
      | some e => simp [Bool.or_eq_true]
    have mirrorIs : authMirror record (historyOf s.cbc (recordSerial record)) = mirror := rfl
    obtain ⟨cbc, spm, fm, apart⟩ := completeAuth_kept (i := i) (record := record) (s := s)
    obtain ⟨lif, noted, jt⟩ := authVerified_link (i := i) (record := record) (s := s)
    have slot : c = authDone i record s := by
      rw [← authVerified_slot, ← cbc]
    have staging : t.spm.staging = _ := (congrArg SheetPath.staging spm).trans authVerified_staging
    refine ⟨?_, ?_, ?_, fun other => ?_, fun same => ?_, fun ⟨before, after⟩ => ?_, fun nothing => ?_, ?_, restOf t apart⟩
    · rw [slot, authDone_eq, resultIs]
      rfl
    · rw [← resultIs]
      exact completeAuth_remembers
    · have work := authVerified_work i record s
      rw [← cbc] at work
      exact work
    · rw [staging, if_neg other]
    · rw [staging, if_pos same]
    · rw [toldIs, slot]
      rw [canIs] at before after
      rw [slot] at after
      exact completeAuth_lif_gains before after
    · rw [canIs, canIs, slot] at nothing
      rw [toldIs, slot, ← lif, ← jt]
      have plain : t = _ := completeAuth_plain nothing
      rw [plain]
      exact ⟨rfl, rfl⟩
    · rw [toldIs, slot, ← noted]
      exact fm
  · rw [endUnverified_ended]
    exact endedOf (endedAs_ended ..)
  · rw [endEmpty_ended, endedAs_cbc]
    by_cases yes : holdsVerified ((endFlight s).cbc.slots.get i) = true
    · rw [ceaseVerified_cbc yes]
      rfl
    · rw [ceaseVerified_unverified yes]
      rfl
  · intro full after new c
    have fullIs : fullOf old = full := full_eq old
    have afterIs : settledOf i amount level l s = after := by
      unfold settledOf
      rw [fullIs]
    have test := completeWriteBack_test (amount := amount) (level := level) known
    have kept := writeBackTest_kept i
      (classOfSlot (settledDone i amount level l s) == some .exhausted && some l.cls != some .exhausted) (settledLevel i amount level l s)
    rw [← test] at kept
    have slot : c = settledDone i amount level l s := by
      rw [← settledLevel_slot]
      exact congrArg (fun u => u.cbc.slots.get i) kept
    have done : settledDone i amount level l s
        = { old with level := some new, drawing := if after.2 = 0 then [] else old.drawing } := by
      unfold settledDone settledSlot formLevel
      dsimp only
      rw [afterIs]
      exact congrArg (fun f => { old with
        level := some (CartLevel.mk after.1 after.2 (levelClass after.1 f s.settings.meter.lowMarkPct))
        drawing := if after.2 = 0 then [] else old.drawing }) fullIs
    have history : (completeWriteBack i amount level s).cbc.history = (settledRead i amount level l s).cbc.history := by
      rw [kept]
      change (settledLevel i amount level l s).cbc.history = _
      rw [settledLevel, leveled_cbc]
    have lif : (completeWriteBack i amount level s).lif = _ :=
      (congrArg State.lif kept).trans (settledLevel_lif i amount level l s)
    have aside := settledLevel_aside i amount level l s
    refine ⟨slot.trans done, fun serial own => ?_, fun unknown => ?_, fun same => ?_, fun changed => ?_, ?_, ?_, ?_, ?_, ?_⟩
    · have there : (putSlot i (settledSlot i amount level l s) s).cbc.slots.get i = settledSlot i amount level l s :=
        get_set4_self s.cbc.slots i _
      have entry := remembered_of_update (i := i) (suspect := false) (s := s)
        (u := putSlot i (settledSlot i amount level l s) s) (serial := serial)
        ((congrArg CartSlot.serial there).trans own) (congrArg CartSlot.level there) rfl rfl
      rw [Bool.false_eq_true, there, afterIs] at entry
      change Remembered i s serial old.family new False (completeWriteBack i amount level s).cbc.history
      rw [history]
      exact entry
    · rw [history, settledRead, updateHistory_unknown (.inl ?_)]
      · rfl
      · exact (congrArg CartSlot.serial (get_set4_self s.cbc.slots i (settledSlot i amount level l s))).trans unknown
    · refine lif.trans (if_pos ?_)
      rw [done]
      exact congrArg some same
    · rw [slot]
      refine lif.trans (if_neg ?_)
      rw [done]
      exact fun same => changed (Option.some.inj same)
    · have work := completeWriteBack_work (amount := amount) (level := level) known
      rw [afterIs, ← verifiedIs, fullIs] at work
      exact work
    · exact (congrArg State.fm kept).trans (aside_fm aside)
    · exact (congrArg State.jt kept).trans (aside_jt aside)
    · exact (congrArg State.spm kept).trans (aside_spm aside)
    · refine restOf _ ?_
      rw [test]
      exact (apart_settledLevel i amount level l s).trans (apart_writeBackTest i i _ _)

end Sys2Proof.Machine

/-! PROOFS. O37: the door and the clearing of a jam; the job table as a map from handles. -/

namespace Sys2Proof.Machine

open Host (Outcome)

/-! ### The job table as a map from handles -/

theorem jobOf_eq {jt : JobTable} {handle : Nat} (small : handle < 16384)
    (generation : (jt.slots.get (slotOf handle)).generation = handle / 64) :
    jobOf jt handle = (jt.slots.get (slotOf handle)).job := by
  rw [jobOf, if_pos]
  rw [Bool.and_eq_true]
  exact ⟨decide_eq_true small, beq_iff_eq.mpr generation⟩

theorem jobOf_putJob_ne {jt : JobTable} {handle : Nat} {r : Job} (other : slotOf handle ≠ slotOf r.handle) :
    jobOf (putJob r jt) handle = jobOf jt handle := by
  have slot : (putJob r jt).slots.get (slotOf handle) = jt.slots.get (slotOf handle) := get_set_ne _ _ other
  rw [jobOf, slot, jobOf]

theorem jobOf_putQueue (d : Destination) (q : Queue) (jt : JobTable) (handle : Nat) :
    jobOf (putQueue d q jt) handle = jobOf jt handle := by
  cases d <;> rfl

section Named

variable {s : State} (ok : ∀ i, SlotOk s i)
include ok

theorem jobOf_of_mem {j : Job} (mem : j ∈ allJobs s.jt) : jobOf s.jt j.handle = some j := by
  obtain ⟨i, at_⟩ := mem_allJobs.mp mem
  have slot := slotOf_handle (ok i) at_
  obtain ⟨generation, own, _⟩ := ok i
  have own := own j at_
  have := i.isLt
  rw [jobOf_eq (by omega), slot, at_]
  rw [slot]
  omega

theorem mem_of_jobOf {handle : Nat} {j : Job} (found : jobOf s.jt handle = some j) : j ∈ allJobs s.jt ∧ j.handle = handle := by
  obtain ⟨small, generation, at_⟩ := jobOf_slot found
  obtain ⟨_, own, _⟩ := ok (slotOf handle)
  refine ⟨mem_allJobs.mpr ⟨_, at_⟩, ?_⟩
  rw [own j at_, generation]
  simp only [slotOf]
  omega

theorem eq_of_slotOf {j k : Job} (memJ : j ∈ allJobs s.jt) (memK : k ∈ allJobs s.jt) (same : slotOf j.handle = slotOf k.handle) :
    j = k := by
  obtain ⟨_, _, atJ⟩ := jobOf_slot (jobOf_of_mem ok memJ)
  obtain ⟨_, _, atK⟩ := jobOf_slot (jobOf_of_mem ok memK)
  rw [same] at atJ
  exact Option.some.inj (atJ.symm.trans atK)

end Named

/-! ### Jobs that return to the head of the ENGINE queue (R13) -/

/-- A job waiting in its queue. -/
def queuedJob (j : Job) : Job := { j with state := .queued }

theorem queueHead_engine {j : Job} (engine : destinationOf j.kind = .engine) (s : State) : (queueHead j s).jt
    = putJob (queuedJob j) { s.jt with engine := { s.jt.engine with waiting := j.handle :: s.jt.engine.waiting } } := by
  rw [queueHead, moveJob_jt]
  simp only [engine]
  rfl

theorem queueHead_spm (j : Job) (s : State) : (queueHead j s).spm = s.spm := rfl

/-- Jobs of distinct slots that join the head of the ENGINE queue, the last one first. -/
theorem queueHeads {l : List Job} (engine : ∀ j ∈ l, destinationOf j.kind = .engine)
    (apart : l.Pairwise fun a b => slotOf a.handle ≠ slotOf b.handle) (s : State) (found : ∀ j ∈ l, jobOf s.jt j.handle = some j) :
    let t := l.foldr (fun j s => queueHead j s) s
    t.jt.engine.waiting = l.map (·.handle) ++ s.jt.engine.waiting ∧ t.jt.engine.active = s.jt.engine.active ∧ t.spm = s.spm
      ∧ (∀ j ∈ l, jobOf t.jt j.handle = some (queuedJob j))
      ∧ ∀ handle, (∀ j ∈ l, slotOf handle ≠ slotOf j.handle) → jobOf t.jt handle = jobOf s.jt handle := by
  induction l with
  | nil => exact ⟨rfl, rfl, rfl, fun j mem => absurd mem List.not_mem_nil, fun _ _ => rfl⟩
  | cons j rest ih =>
    obtain ⟨first, later⟩ := List.forall_mem_cons.mp engine
    obtain ⟨distinct, apart⟩ := List.pairwise_cons.mp apart
    obtain ⟨own, others⟩ := List.forall_mem_cons.mp found
    obtain ⟨waiting, active, spm, queued, kept⟩ := ih later apart others
    have jt := queueHead_engine first (rest.foldr (fun j s => queueHead j s) s)
    have mine : jobOf (rest.foldr (fun j s => queueHead j s) s).jt j.handle = some j := (kept _ distinct).trans own
    rw [List.foldr_cons]
    dsimp only at waiting active spm queued kept ⊢
    generalize rest.foldr (fun j s => queueHead j s) s = u at waiting active spm queued kept jt mine
    rw [jt]
    refine ⟨congrArg (j.handle :: ·) waiting, active, spm, fun k mem => ?_, fun handle differs => ?_⟩
    · obtain rfl | mem := List.mem_cons.mp mem
      · exact jobOf_putJob (jt := { u.jt with engine := _ }) mine rfl
      · rw [jobOf_putJob_ne (r := queuedJob j) (distinct k mem).symm]
        exact queued k mem
    · obtain ⟨one, rest⟩ := List.forall_mem_cons.mp differs
      rw [jobOf_putJob_ne (r := queuedJob j) one]
      exact kept handle rest

theorem insertByRank_sorted (j : Job) {l : List Job} (sorted : l.Pairwise fun a b => jamRank a ≤ jamRank b) :
    (insertByRank j l).Pairwise fun a b => jamRank a ≤ jamRank b := by
  induction l with
  | nil => exact List.pairwise_singleton _ _
  | cons k rest ih =>
    obtain ⟨after, sorted⟩ := List.pairwise_cons.mp sorted
    rw [insertByRank]
    split_ifs with first
    · refine List.Pairwise.cons (fun m mem => ?_) (List.pairwise_cons.mpr ⟨after, sorted⟩)
      obtain rfl | mem := List.mem_cons.mp mem
      · exact first
      · exact first.trans (after m mem)
    · refine List.Pairwise.cons (fun m mem => ?_) (ih sorted)
      obtain rfl | mem := List.mem_cons.mp ((perm_insertByRank j rest).mem_iff.mp mem)
      · exact Nat.le_of_not_le first
      · exact after m mem

theorem jammedJobs_sorted (jt : JobTable) : (jammedJobs jt).Pairwise fun a b => jamRank a ≤ jamRank b := by
  unfold jammedJobs
  generalize (allJobs jt).filter (jamRank · > 0) = l
  induction l with
  | nil => exact List.Pairwise.nil
  | cons j rest ih => exact insertByRank_sorted j ih

theorem jamRank_iff {j : Job} : 0 < jamRank j ↔ ∃ rank time order, j.state = .stalled (.jam rank) time order ∧ 0 < rank := by
  unfold jamRank
  split
  · next rank time order state =>
    refine ⟨fun positive => ⟨rank, time, order, state, positive⟩, fun ⟨rank', _, _, state', positive⟩ => ?_⟩
    rw [state] at state'
    cases state'
    exact positive
  · next other => exact ⟨fun zero => absurd zero (lt_irrefl 0), fun ⟨rank, time, order, state, _⟩ => absurd state (other rank time order)⟩

theorem mem_jammedJobs {jt : JobTable} {j : Job} : j ∈ jammedJobs jt
    ↔ j ∈ allJobs jt ∧ ∃ rank time order, j.state = .stalled (.jam rank) time order ∧ 0 < rank := by
  rw [jammedJobs, (perm_sorted _ perm_insertByRank _).mem_iff, List.mem_filter, decide_eq_true_iff, gt_iff_lt, jamRank_iff]

theorem jammedJobs_nodup {s : State} (ok : ∀ i, SlotOk s i) : (jammedJobs s.jt).Nodup :=
  (perm_sorted _ perm_insertByRank _).nodup_iff.mpr ((allJobs_nodup ok).filter _)

theorem leaveActive_engine {j : Job} (engine : destinationOf j.kind = .engine) (s : State) : leaveActive j s
    = discardStaging { s with jt := { s.jt with engine := { s.jt.engine with active := none } } } := by
  rw [leaveActive, engine]
  rfl

/-- The state in which the ACTIVE job of the ENGINE queue has returned to its head. -/
def activeReturned (s : State) : State :=
  match activeJob s .engine with
  | some j => queueHead j (leaveActive j s)
  | none => s

theorem returnJammed_some {s : State} (jammed : jammedJobs s.jt ≠ []) :
    returnJammed s = (jammedJobs s.jt).foldr (fun j s => queueHead j s) (activeReturned s) :=
  if_neg (by simpa using jammed)

theorem returnJammed_none {s : State} (empty : jammedJobs s.jt = []) : returnJammed s = s := if_pos (by simp [empty])

theorem activeReturned_kept {s : State} (ok : ∀ i, SlotOk s i)
    (engine : ∀ j, activeJob s .engine = some j → j.state = .active ∧ destinationOf j.kind = .engine) :
    (activeReturned s).jt.engine.waiting = ((activeJob s .engine).map (·.handle)).toList ++ s.jt.engine.waiting
      ∧ ((activeJob s .engine).isSome = true → (activeReturned s).jt.engine.active = none ∧ (activeReturned s).spm.staging = [])
      ∧ (∀ j, activeJob s .engine = some j → jobOf (activeReturned s).jt j.handle = some (queuedJob j))
      ∧ ∀ handle, (∀ j, activeJob s .engine = some j → slotOf handle ≠ slotOf j.handle) →
        jobOf (activeReturned s).jt handle = jobOf s.jt handle := by
  unfold activeReturned
  cases active : activeJob s .engine with
  | none => exact ⟨rfl, fun is => (nomatch is), fun j is => (nomatch is), fun _ _ => rfl⟩
  | some j =>
    obtain ⟨_, kind⟩ := engine j active
    have found : jobOf s.jt j.handle = some j := by
      obtain ⟨handle, _, found⟩ := Option.bind_eq_some_iff.mp active
      obtain ⟨mem, own⟩ := mem_of_jobOf ok found
      exact jobOf_of_mem ok mem
    dsimp only
    rw [queueHead_engine kind, leaveActive_engine kind]
    refine ⟨rfl, fun _ => ⟨rfl, rfl⟩, fun k is => ?_, fun handle differs => jobOf_putJob_ne (differs j rfl)⟩
    cases Option.some.inj is
    exact jobOf_putJob (jt := { s.jt with engine := _ }) found rfl

theorem activeJob_mem {s : State} (ok : ∀ i, SlotOk s i) {d : Destination} {j : Job} (active : activeJob s d = some j) :
    j ∈ allJobs s.jt := by
  obtain ⟨handle, _, found⟩ := Option.bind_eq_some_iff.mp active
  exact (mem_of_jobOf ok found).1

theorem jammed_ranks {s : State} : (jammedJobs s.jt).Pairwise fun a b => ∀ m tm om n tn on,
    a.state = .stalled (.jam m) tm om → b.state = .stalled (.jam n) tn on → m ≤ n := by
  refine (jammedJobs_sorted s.jt).imp fun {a b} ordered m tm om n tn on stateA stateB => ?_
  simpa only [jamRank, stateA, stateB] using ordered

theorem jams_return {s : State} (ok : ∀ i, SlotOk s i)
    (engine : ∀ j ∈ allJobs s.jt, (∃ rank time order, j.state = .stalled (.jam rank) time order) → destinationOf j.kind = .engine)
    (front : ∀ j, activeJob s .engine = some j → j.state = .active ∧ destinationOf j.kind = .engine) (jammed : jammedJobs s.jt ≠ []) :
    (returnJammed s).jt.engine.waiting = (jammedJobs s.jt).map (·.handle) ++ ((activeJob s .engine).map (·.handle)).toList
        ++ s.jt.engine.waiting
      ∧ ((activeJob s .engine).isSome = true → (returnJammed s).jt.engine.active = none ∧ (returnJammed s).spm.staging = [])
      ∧ ∀ j, (j ∈ jammedJobs s.jt ∨ activeJob s .engine = some j) → jobOf (returnJammed s).jt j.handle = some (queuedJob j) := by
  obtain ⟨waits, leaves, returned, kept⟩ := activeReturned_kept ok front
  have differs : ∀ j ∈ jammedJobs s.jt, ∀ k, activeJob s .engine = some k → slotOf j.handle ≠ slotOf k.handle := by
    intro j mem k active same
    obtain ⟨memJ, rank, time, order, state, _⟩ := mem_jammedJobs.mp mem
    cases eq_of_slotOf ok memJ (activeJob_mem ok active) same
    rw [(front j active).1] at state
    cases state
  have apart : (jammedJobs s.jt).Pairwise fun a b => slotOf a.handle ≠ slotOf b.handle :=
    (jammedJobs_nodup ok).imp_of_mem fun {a b} memA memB distinct same =>
      distinct (eq_of_slotOf ok (mem_jammedJobs.mp memA).1 (mem_jammedJobs.mp memB).1 same)
  obtain ⟨waiting, active, spm, queued, others⟩ := queueHeads (l := jammedJobs s.jt)
    (fun j mem => by
      obtain ⟨mem, rank, time, order, state, _⟩ := mem_jammedJobs.mp mem
      exact engine j mem ⟨rank, time, order, state⟩)
    apart (activeReturned s) (fun j mem => (kept _ (differs j mem)).trans (jobOf_of_mem ok (mem_jammedJobs.mp mem).1))
  rw [returnJammed_some jammed]
  refine ⟨by rw [waiting, waits, List.append_assoc], fun is => ⟨active.trans (leaves is).1, by rw [spm]; exact (leaves is).2⟩, fun j is => ?_⟩
  obtain mem | active := is
  · exact queued j mem
  · exact (others _ fun k mem => (differs k mem j active).symm).trans (returned j active)

/-! ### The cartridges at a door opening (R103) -/

/-- A slot's record after the door has opened. -/
def unverifiedSlot (c : CartSlot) : CartSlot :=
  { (if holdsVerified c then { c with level := none, drawing := [] } else c) with verification := .unverified, failures := 0 }

/-- The state of a slot's loss before its verification is set. -/
def unverifying (s : State) (i : Fin 4) : State :=
  putSlot i { (ceaseVerified i s).cbc.slots.get i with failures := 0 } (ceaseVerified i s)

theorem unverify_eq (s : State) (i : Fin 4) : unverify s i = setVerification i .unverified (unverifying s i) := rfl

theorem unverify_cbc (s : State) (i : Fin 4) : (unverify s i).cbc
    = { (ceaseVerified i s).cbc with slots := s.cbc.slots.set i (unverifiedSlot (s.cbc.slots.get i)) } := by
  have slot := ceaseVerified_slot i s
  have slots : ∀ c, (ceaseVerified i s).cbc.slots.set i c = s.cbc.slots.set i c := by
    intro c
    by_cases yes : holdsVerified (s.cbc.slots.get i) = true
    · rw [ceaseVerified_cbc yes, Vector.set_set]
    · rw [ceaseVerified_unverified yes]
  rw [unverify_eq, setVerification_cbc, unverifying]
  generalize ceaseVerified i s = u at slot slots
  change ({ u.cbc with slots := (u.cbc.slots.set i _).set i (verifiedAs .unverified ((u.cbc.slots.set i _).get i)) } : Cartridges) = _
  rw [get_set4_self, Vector.set_set, slots, slot]
  rfl

theorem unverify_slot (s : State) (i k : Fin 4) : (unverify s i).cbc.slots.get k
    = if k = i then unverifiedSlot (s.cbc.slots.get i) else s.cbc.slots.get k := by
  rw [unverify_cbc]
  split
  · next same => rw [same, get_set4_self]
  · next other => exact get_set4_ne _ _ other

theorem unverify_lif (s : State) (i : Fin 4) :
    (unverify s i).lif = admitNotice (.cartState (cartContent i (unverifiedSlot (s.cbc.slots.get i)))) s.lif
      ∧ (unverify s i).fm = s.fm := by
  obtain ⟨lif, fm⟩ := setVerification_link i .unverified (unverifying s i)
  have slot : verifiedAs .unverified ((unverifying s i).cbc.slots.get i) = unverifiedSlot (s.cbc.slots.get i) := by
    rw [← setVerification_slot, ← unverify_eq, unverify_slot, if_pos rfl]
  have before : (unverifying s i).lif = s.lif := ceaseVerified_lif i s
  have noted : (unverifying s i).fm = s.fm := aside_fm (ceaseVerified_aside i s)
  rw [slot] at lif fm
  rw [unverify_eq, lif, fm, ← before, ← noted]
  unfold toldOf
  dsimp only
  split <;> exact ⟨rfl, rfl⟩

theorem unverify_frame (s : State) (i : Fin 4) : (unverify s i).jt = s.jt ∧ (unverify s i).spm = s.spm ∧ (unverify s i).smc = s.smc
    ∧ (unverify s i).accounts = s.accounts ∧ (unverify s i).cbc.lifetime = s.cbc.lifetime := by
  have aside := ceaseVerified_aside i s
  have apart : Apart i s (unverify s i) :=
    (apart_ceaseVerified i s).trans ((apart_putSlot i _ _).trans (apart_setVerification i .unverified _))
  obtain ⟨lifetime, accounts, _⟩ := apart.frame
  exact ⟨(setVerification_jt ..).trans (aside_jt aside), (setVerification_spm ..).trans (aside_spm aside),
    (setVerification_smc ..).trans (aside_smc aside), accounts, lifetime⟩

theorem unverify_bus (s : State) (i : Fin 4) : (unverify s i).cbc.flight = s.cbc.flight
    ∧ (s.cbc.work = [] → (unverify s i).cbc.work = []) := by
  rw [unverify_cbc]
  by_cases yes : holdsVerified (s.cbc.slots.get i) = true
  · rw [ceaseVerified_cbc yes]
    exact ⟨rfl, fun empty => by simp [empty]⟩
  · rw [ceaseVerified_unverified yes]
    exact ⟨rfl, fun empty => empty⟩

/-! ### All slots, one after the other -/

theorem unverifies_bus {l : List (Fin 4)} {s : State} (idle : s.cbc.flight = none) (empty : s.cbc.work = []) :
    (l.foldl unverify s).cbc.flight = none ∧ (l.foldl unverify s).cbc.work = [] := by
  induction l generalizing s with
  | nil => exact ⟨idle, empty⟩
  | cons i rest ih =>
    obtain ⟨flight, work⟩ := unverify_bus s i
    exact ih (flight.trans idle) (work empty)

theorem unverifies_frame (l : List (Fin 4)) (s : State) : (l.foldl unverify s).jt = s.jt ∧ (l.foldl unverify s).spm = s.spm
    ∧ (l.foldl unverify s).smc = s.smc ∧ (l.foldl unverify s).accounts = s.accounts ∧ (l.foldl unverify s).fm = s.fm
    ∧ (l.foldl unverify s).cbc.lifetime = s.cbc.lifetime :=
  ⟨foldl_stands (f := State.jt) (fun s i => (unverify_frame s i).1) l s,
    foldl_stands (f := State.spm) (fun s i => (unverify_frame s i).2.1) l s,
    foldl_stands (f := State.smc) (fun s i => (unverify_frame s i).2.2.1) l s,
    foldl_stands (f := State.accounts) (fun s i => (unverify_frame s i).2.2.2.1) l s,
    foldl_stands (f := State.fm) (fun s i => (unverify_lif s i).2) l s,
    foldl_stands (f := fun s => s.cbc.lifetime) (fun s i => (unverify_frame s i).2.2.2.2) l s⟩

theorem unverifies_slot {l : List (Fin 4)} (nodup : l.Nodup) (s : State) (i : Fin 4) : (l.foldl unverify s).cbc.slots.get i
    = if i ∈ l then unverifiedSlot (s.cbc.slots.get i) else s.cbc.slots.get i := by
  induction l generalizing s with
  | nil => rfl
  | cons k rest ih =>
    obtain ⟨fresh, later⟩ := List.nodup_cons.mp nodup
    rw [List.foldl_cons, ih later, unverify_slot]
    by_cases same : i = k
    · subst same
      rw [if_neg fresh, if_pos rfl, if_pos (List.mem_cons_self ..)]
    · simp only [List.mem_cons, same, false_or, if_false]

/-- A CART_STATE notice of a slot stays in the list while other slots send theirs. -/
theorem mem_admit_cart {i k : Fin 4} {c d : CartNotice} {l : LinkInterface} (slot : c.slot = i) (own : d.slot = k) (other : i ≠ k)
    (mem : Entry.notice (.cartState c) ∈ l.out) : Entry.notice (.cartState c) ∈ (admitNotice (.cartState d) l).out := by
  refine mem_admitNotice_other (fun sub of same => other ?_) mem
  have of : sub = .cartSlot d.slot := (Option.some.inj of).symm
  have same : sub = .cartSlot c.slot := (Option.some.inj same).symm
  exact slot ▸ own ▸ Subject.cartSlot.inj (same.symm.trans of)

theorem unverifies_told {l : List (Fin 4)} (nodup : l.Nodup) (s : State) {i : Fin 4} (mem : i ∈ l) :
    Entry.notice (.cartState (cartContent i (unverifiedSlot (s.cbc.slots.get i)))) ∈ (l.foldl unverify s).lif.out := by
  have stays : ∀ (l : List (Fin 4)) (s : State) (c : CartNotice), i ∉ l → c.slot = i →
      Entry.notice (.cartState c) ∈ s.lif.out → Entry.notice (.cartState c) ∈ (l.foldl unverify s).lif.out := by
    intro l
    induction l with
    | nil => exact fun s c _ _ held => held
    | cons k rest ih =>
      intro s c apart slot held
      obtain ⟨other, apart⟩ := not_or.mp (mt List.mem_cons.mpr apart)
      refine ih _ c apart slot ?_
      rw [(unverify_lif s k).1]
      exact mem_admit_cart slot rfl other held
  induction l generalizing s with
  | nil => exact absurd mem List.not_mem_nil
  | cons k rest ih =>
    obtain ⟨fresh, later⟩ := List.nodup_cons.mp nodup
    rw [List.foldl_cons]
    by_cases same : i = k
    · subst same
      refine stays rest _ _ fresh rfl ?_
      rw [(unverify_lif s i).1]
      exact mem_admitNotice_self rfl s.lif
    · have slot : (unverify s k).cbc.slots.get i = s.cbc.slots.get i := by rw [unverify_slot, if_neg same]
      rw [← slot]
      exact ih later _ ((List.mem_cons.mp mem).resolve_left same)

/-! ### The history entry of a slot that loses its cartridge -/

theorem unverifiedSlot_serial (c : CartSlot) : (unverifiedSlot c).serial = c.serial := by
  unfold unverifiedSlot
  split <;> rfl

theorem unverify_serial (s : State) (i k : Fin 4) : ((unverify s i).cbc.slots.get k).serial = (s.cbc.slots.get k).serial := by
  rw [unverify_slot]
  split
  · next same => rw [unverifiedSlot_serial, same]
  · rfl

theorem unverify_history (s : State) (i : Fin 4) : (unverify s i).cbc.history
    = if holdsVerified (s.cbc.slots.get i) then (updateHistory i false s).cbc.history else s.cbc.history := by
  rw [unverify_cbc]
  split
  · next yes => rw [ceaseVerified_cbc yes]
  · next no => rw [ceaseVerified_unverified no]

theorem SoleEntry.updated {i k : Fin 4} {serial : Serial} {e : HistoryEntry} {s : State} (entry : SoleEntry i serial e s)
    (other : k ≠ i) : e ∈ (updateHistory k false s).cbc.history := by
  cases own : (s.cbc.slots.get k).serial with
  | none => rw [updateHistory_unknown (.inl own)]; exact entry.mem
  | some serialK =>
    cases level : (s.cbc.slots.get k).level with
    | none => rw [updateHistory_unknown (.inr level)]; exact entry.mem
    | some l =>
      rw [updateHistory_known own level]
      refine mem_putHistory_other entry.mem (mem_heldSerials.mpr ⟨i, entry.own ▸ entry.held⟩) fun same => ?_
      exact entry.sole k other (own.trans (congrArg some (same.symm.trans entry.own)))

theorem SoleEntry.unverify {i k : Fin 4} {serial : Serial} {e : HistoryEntry} {s : State} (entry : SoleEntry i serial e s)
    (other : k ≠ i) : SoleEntry i serial e (unverify s k) := by
  refine ⟨?_, entry.own, (unverify_serial s k i).trans entry.held, fun m differs => by rw [unverify_serial]; exact entry.sole m differs⟩
  rw [unverify_history]
  split
  · exact entry.updated other
  · exact entry.mem

theorem unverifies_entry {i : Fin 4} {serial : Serial} {level : CartLevel} {l : List (Fin 4)} (nodup : l.Nodup) (mem : i ∈ l)
    {s : State} (verified : holdsVerified (s.cbc.slots.get i) = true) (known : (s.cbc.slots.get i).serial = some serial)
    (figures : (s.cbc.slots.get i).level = some level) (sole : ∀ k, k ≠ i → (s.cbc.slots.get k).serial ≠ some serial) :
    ∃ e ∈ (l.foldl unverify s).cbc.history, e.serial = serial ∧ e.level = level.mirror ∧ e.pending = level.pending := by
  have stays : ∀ (l : List (Fin 4)) (s : State) (e : HistoryEntry), i ∉ l → SoleEntry i serial e s →
      SoleEntry i serial e (l.foldl Machine.unverify s) := by
    intro l
    induction l with
    | nil => exact fun s e _ entry => entry
    | cons k rest ih =>
      intro s e apart entry
      obtain ⟨other, apart⟩ := not_or.mp (mt List.mem_cons.mpr apart)
      exact ih _ e apart (entry.unverify (Ne.symm other))
  induction l generalizing s with
  | nil => exact absurd mem List.not_mem_nil
  | cons k rest ih =>
    obtain ⟨fresh, later⟩ := List.nodup_cons.mp nodup
    rw [List.foldl_cons]
    by_cases same : i = k
    · subst same
      have first : (unverify s i).cbc.history = _ := (unverify_history s i).trans (if_pos verified)
      rw [updateHistory_known known figures] at first
      have entry := mem_putHistory_self (heldSerials s.cbc) (entryOf i false s.cbc serial level) s.cbc.history
      refine ⟨entryOf i false s.cbc serial level, (stays rest _ _ fresh ⟨?_, rfl, (unverify_serial ..).trans known, fun m differs => ?_⟩).mem,
        rfl, rfl, rfl⟩
      · rw [first]
        exact entry
      · rw [unverify_serial]
        exact sole m differs
    · have slot : (unverify s k).cbc.slots.get i = s.cbc.slots.get i := by rw [unverify_slot, if_neg same]
      refine ih later ((List.mem_cons.mp mem).resolve_left same) (by rwa [slot]) (by rwa [slot]) (by rwa [slot]) fun m differs => ?_
      rw [unverify_serial]
      exact sole m differs

/-! ### DOOR_STATE and JAM_CLEAR -/

theorem queueItems_eq {items : List WorkItem} (distinct : items.Nodup) {s : State} (runs : s.fm.part ≠ .halted) :
    items.foldl (fun s w => queueItem w s) s = withWork (s.cbc.work ++ items.filter fun w => !s.cbc.work.contains w) s := by
  induction items generalizing s with
  | nil => simp [withWork]
  | cons item rest ih =>
    obtain ⟨fresh, later⟩ := List.nodup_cons.mp distinct
    have first : queueItem item s = withWork (if item ∈ s.cbc.work then s.cbc.work else s.cbc.work ++ [item]) s := by
      rw [queueItem_frame, queueItem_work runs]
    have still : ∀ work, (withWork work s).fm.part ≠ .halted := fun _ => runs
    rw [List.foldl_cons, first, ih later (still _)]
    by_cases known : item ∈ s.cbc.work
    · simp [withWork, known]
    · have same : (rest.filter fun w => !(s.cbc.work ++ [item]).contains w) = rest.filter fun w => !s.cbc.work.contains w :=
        List.filter_congr fun w mem => by
          have other : w ≠ item := fun same => fresh (same ▸ mem)
          simp [other]
      simp only [withWork, known, if_false, List.filter_cons, List.contains_eq_mem, decide_false, Bool.not_false, if_true,
        List.append_assoc, List.singleton_append] at same ⊢
      rw [same]

theorem queueAll_eq {s : State} (runs : s.fm.part ≠ .halted) : queueAll s
    = withWork (s.cbc.work ++ ([.resync, .auth 0, .auth 1, .auth 2, .auth 3] : List WorkItem).filter fun w => !s.cbc.work.contains w) s :=
  queueItems_eq (items := [.resync, .auth 0, .auth 1, .auth 2, .auth 3]) (by decide) runs

section Requests

variable {s : State}

/-- An accepted request without a payload. -/
def okAnswer (t : State) : Answer := { status := .ok, state := t }

theorem doorOpen_again (door : s.spm.doorOpen = true) : doorOpen s = okAnswer s := if_pos door

theorem doorClosed_again (door : s.spm.doorOpen = false) : doorClosed s = okAnswer s :=
  if_neg (by simp [door])

theorem doorClosed_closes (door : s.spm.doorOpen = true) : doorClosed s
    = okAnswer (settle (askPart (queueAll (evaluatePermit { s with spm := { s.spm with doorOpen := false } })))) := if_pos door

/-- The state at a door opening, its cartridges unverified. -/
def opened (s : State) : State := cartridgesDoorOpen (evaluatePermit { s with spm := { s.spm with doorOpen := true } })

theorem opened_sheets (s : State) : (opened s).spm.sheets = s.spm.sheets := by
  rw [opened, cartridgesDoorOpen, (unverifies_frame cartSlots _).2.1]
  rfl

theorem doorOpen_opens (door : s.spm.doorOpen = false) : doorOpen s
    = okAnswer (settle (if s.spm.sheets.isEmpty then askPart (opened s) else declareJam .door (opened s))) := by
  have sheets := opened_sheets s
  unfold opened at sheets ⊢
  unfold doorOpen
  dsimp only
  rw [if_neg (by simp [door]), sheets]
  rfl

theorem jamClear_wrong (wrong : s.spm.jammed = false ∨ s.spm.doorOpen = true) : jamClear s = refuse .wrongState s := by
  unfold jamClear
  obtain clear | door := wrong
  · rw [clear]
    rfl
  · rw [if_pos door, ite_self]

theorem jamClear_busy (jammed : s.spm.jammed = true) (door : s.spm.doorOpen = false)
    (busy : s.spm.feed.level = some true ∨ s.spm.exit.level = some true) : jamClear s = refuse .sensorBusy s := by
  rw [jamClear, if_neg (by simp [jammed]), if_neg (by simp [door]), if_pos busy]

theorem jamClear_clears (jammed : s.spm.jammed = true) (door : s.spm.doorOpen = false) (feed : s.spm.feed.level ≠ some true)
    (exit : s.spm.exit.level ≠ some true) : jamClear s
      = okAnswer (settle (askPart (returnJammed (evaluatePermit { s with spm := { s.spm with jammed := false } })))) := by
  rw [jamClear, if_neg (by simp [jammed]), if_neg (by simp [door]), if_neg (not_or.mpr ⟨feed, exit⟩)]
  rfl

end Requests

/-- Settles O37: the answers by their tests, the cartridges slot by slot, the jammed jobs by the list they return from. -/
theorem doorAndJamClear : Obligations.DoorAndJamClear := by
  refine ⟨fun tag s serving => ?_, fun tag s serving => ⟨fun wrong => next_request serving (jamClear_wrong wrong),
    fun jammed door busy => next_request serving (jamClear_busy jammed door busy),
    fun jammed door feed exit => next_request serving (jamClear_clears jammed door feed exit)⟩, fun s => ?_, fun s ok engine front => ?_⟩
  · have runs : s.fm.part ≠ .halted := fun halted => by
      have part : s.fm.part = .running := serving.2.1
      rw [part] at halted
      cases halted
    intro items
    refine ⟨fun door => ⟨next_request serving (doorOpen_again door), ?_⟩,
      fun door => ⟨next_request serving (doorClosed_again door), fun empty => ?_, fun held => ?_⟩⟩
    · have answer := doorClosed_closes door
      rw [queueAll_eq (s := evaluatePermit { s with spm := { s.spm with doorOpen := false } }) runs] at answer
      exact next_request serving answer
    · have answer := doorOpen_opens door
      rw [if_pos (by simp [empty])] at answer
      exact next_request serving answer
    · have answer := doorOpen_opens door
      rw [if_neg (by simpa using held)] at answer
      exact next_request serving answer
  · intro t
    have all : t = cartSlots.foldl unverify (clearBus s) := rfl
    clear_value t
    obtain ⟨flight, work⟩ := unverifies_bus (l := cartSlots) (s := clearBus s) rfl rfl
    obtain ⟨jt, spm, smc, accounts, fm, lifetime⟩ := unverifies_frame cartSlots (clearBus s)
    rw [← all] at flight work jt spm smc accounts fm lifetime
    refine ⟨flight, work, accounts, jt, spm, smc, fm, lifetime, ?_⟩
    intro i old verified new
    have slot : new = unverifiedSlot old := by
      have slot := unverifies_slot cartSlots_nodup (clearBus s) i
      rw [if_pos (mem_cartSlots i), ← all] at slot
      exact slot
    have told := unverifies_told cartSlots_nodup (clearBus s) (mem_cartSlots i)
    have entry {serial level} := unverifies_entry (serial := serial) (level := level) cartSlots_nodup (mem_cartSlots i) (s := clearBus s)
    rw [← all] at told
    simp only [← all] at entry
    have verifiedIs : verified ↔ holdsVerified old = true := holdsVerified_iff.symm
    refine ⟨?_, fun yes => ?_, fun no => ?_, ⟨_, told, rfl, ?_, ?_⟩, fun yes serial l known figures sole =>
      entry (verifiedIs.mp yes) known figures sole⟩
    · rw [slot]
      unfold unverifiedSlot
      split <;> rfl
    · rw [slot, unverifiedSlot, if_pos (verifiedIs.mp yes)]
      exact ⟨rfl, rfl⟩
    · rw [slot, unverifiedSlot, if_neg (mt verifiedIs.mpr no)]
      exact ⟨rfl, rfl⟩
    · rfl
    · rw [slot]
      rfl
  · exact ⟨jammedJobs s.jt, jammedJobs_nodup ok, fun j => mem_jammedJobs, jammed_ranks, returnJammed_none,
      fun jammed => jams_return ok engine front jammed⟩

end Sys2Proof.Machine

/-! PROOFS. Jobs under their handles: what the operations on records and places leave of the map from handles to jobs. -/

namespace Sys2Proof.Machine

/-! ### Slots whose jobs bear their handles -/

/-- Every slot's generation is in its range, and a job in it bears the slot's handle. -/
def Named (jt : JobTable) : Prop :=
  ∀ i : Fin 64, (jt.slots.get i).generation < 256
    ∧ ∀ j, (jt.slots.get i).job = some j → j.handle = (jt.slots.get i).generation * 64 + i

theorem named_of_ok {s : State} (ok : ∀ i, SlotOk s i) : Named s.jt := fun i => ⟨(ok i).1, (ok i).2.1⟩

theorem jobOf_congr {a b : JobTable} (slots : a.slots = b.slots) (handle : Nat) : jobOf a handle = jobOf b handle := by
  rw [jobOf, slots, jobOf]

theorem Named.congr {a b : JobTable} (slots : a.slots = b.slots) (named : Named b) : Named a := by
  unfold Named
  rw [slots]
  exact named

section Named

variable {jt : JobTable} (named : Named jt)
include named

theorem Named.slot {i : Fin 64} {j : Job} (at_ : (jt.slots.get i).job = some j) : slotOf j.handle = i ∧ jobOf jt j.handle = some j := by
  obtain ⟨generation, own⟩ := named i
  have own := own j at_
  have := i.isLt
  have slot : slotOf j.handle = i := Fin.ext (by simp only [slotOf]; omega)
  refine ⟨slot, ?_⟩
  rw [jobOf_eq (by omega), slot, at_]
  rw [slot]
  omega

theorem Named.own {handle : Nat} {j : Job} (found : jobOf jt handle = some j) : j.handle = handle := by
  obtain ⟨small, generation, at_⟩ := jobOf_slot found
  rw [(named (slotOf handle)).2 j at_, generation]
  simp only [slotOf]
  omega

theorem Named.of_mem {j : Job} (mem : j ∈ allJobs jt) : jobOf jt j.handle = some j := by
  obtain ⟨i, at_⟩ := mem_allJobs.mp mem
  exact (named.slot at_).2

theorem Named.putJob {r j : Job} (found : jobOf jt r.handle = some j) : Named (putJob r jt) := by
  obtain ⟨small, generation, _⟩ := jobOf_slot found
  intro i
  by_cases same : i = slotOf r.handle
  · subst same
    have slot : (Machine.putJob r jt).slots.get (slotOf r.handle) = { jt.slots.get (slotOf r.handle) with job := some r } :=
      get_set_self _ _ _
    rw [slot]
    refine ⟨(named _).1, fun k is => ?_⟩
    cases Option.some.inj is
    dsimp only
    rw [generation]
    simp only [slotOf]
    omega
  · have slot : (Machine.putJob r jt).slots.get i = jt.slots.get i := get_set_ne _ _ same
    rw [slot]
    exact named i

end Named

/-- Two handles of one slot in one generation are one. -/
theorem handle_unique {a b : Nat} (slot : slotOf a = slotOf b) (generation : a / 64 = b / 64) : a = b := by
  have := congrArg Fin.val slot
  simp only [slotOf] at this
  omega

/-- A record put in a slot leaves what other handles name. -/
theorem jobOf_putJob_other {jt : JobTable} {r j : Job} {handle : Nat} (found : jobOf jt r.handle = some j)
    (other : handle ≠ r.handle) : jobOf (putJob r jt) handle = jobOf jt handle := by
  by_cases same : slotOf handle = slotOf r.handle
  · obtain ⟨_, generation, _⟩ := jobOf_slot found
    have apart : (jt.slots.get (slotOf handle)).generation ≠ handle / 64 := by
      rw [same, generation]
      exact fun equal => other (handle_unique same equal.symm)
    have still : ((putJob r jt).slots.get (slotOf handle)).generation ≠ handle / 64 := by
      have slot : (putJob r jt).slots.get (slotOf r.handle) = { jt.slots.get (slotOf r.handle) with job := some r } := get_set_self _ _ _
      rw [same, slot]
      rw [same] at apart
      exact apart
    rw [jobOf, jobOf, if_neg (by simp [still]), if_neg (by simp [apart])]
  · exact jobOf_putJob_ne same

/-- A slot that is freed leaves what other handles name, and its handle names nothing. -/
theorem jobOf_freed {jt : JobTable} {handle : Nat} {j : Job} {slot : JobSlot} (found : jobOf jt handle = some j)
    (empty : slot.job = none) (h : Nat) :
    jobOf { jt with slots := jt.slots.set (slotOf handle) slot } h = if h = handle then none else jobOf jt h := by
  by_cases same : slotOf h = slotOf handle
  · have gone : jobOf { jt with slots := jt.slots.set (slotOf handle) slot } h = none := by
      have at_ : ({ jt with slots := jt.slots.set (slotOf handle) slot } : JobTable).slots.get (slotOf h) = slot := by
        rw [same]
        exact get_set_self _ _ _
      rw [jobOf, at_, empty, ite_self]
    rw [gone]
    split
    · rfl
    · next other =>
      obtain ⟨_, generation, _⟩ := jobOf_slot found
      rw [jobOf, if_neg]
      rw [same, generation]
      intro named
      rw [Bool.and_eq_true, beq_iff_eq] at named
      exact other (handle_unique same named.2.symm)
  · have at_ : ({ jt with slots := jt.slots.set (slotOf handle) slot } : JobTable).slots.get (slotOf h) = jt.slots.get (slotOf h) :=
      get_set_ne _ _ same
    rw [if_neg fun equal => same (congrArg slotOf equal), jobOf, at_, jobOf]

theorem Named.freed {jt : JobTable} (named : Named jt) (i : Fin 64) {slot : JobSlot} (small : slot.generation < 256)
    (empty : slot.job = none) : Named { jt with slots := jt.slots.set i slot } := by
  intro k
  by_cases same : k = i
  · subst same
    have at_ : ({ jt with slots := jt.slots.set k slot } : JobTable).slots.get k = slot := get_set_self _ _ _
    rw [at_, empty]
    exact ⟨small, fun j is => (nomatch is)⟩
  · have at_ : ({ jt with slots := jt.slots.set i slot } : JobTable).slots.get k = jt.slots.get k := get_set_ne _ _ same
    rw [at_]
    exact named k

/-! ### Jobs that return from a stall for credits -/

/-- A handle names the job it named before, or, where that was stalled for credits, the same job waiting in its queue. -/
def CreditBack (a b : JobTable) (handle : Nat) : Prop :=
  jobOf b handle = jobOf a handle
    ∨ ∃ j time order, jobOf a handle = some j ∧ j.state = .stalled .credit time order ∧ jobOf b handle = some (queuedJob j)

theorem CreditBack.trans {a b c : JobTable} {handle : Nat} (first : CreditBack a b handle) (second : CreditBack b c handle) :
    CreditBack a c handle := by
  obtain same | ⟨j, time, order, before, stalled, after⟩ := first
  · unfold CreditBack at second ⊢
    rwa [same] at second
  · obtain same | ⟨k, _, _, found, state, _⟩ := second
    · exact .inr ⟨j, time, order, before, stalled, same.trans after⟩
    · rw [after] at found
      cases Option.some.inj found
      cases state

theorem CreditBack.some {a b : JobTable} {handle : Nat} {j : Job} (back : CreditBack a b handle) (found : jobOf a handle = some j) :
    ∃ k, jobOf b handle = some k := by
  obtain same | ⟨_, _, _, _, _, after⟩ := back
  · exact ⟨j, same.trans found⟩
  · exact ⟨_, after⟩

theorem queueTail_jobs (j : Job) (s : State) : jobOf (queueTail j s).jt = jobOf (putJob (queuedJob j) s.jt)
    ∧ (Named (putJob (queuedJob j) s.jt) → Named (queueTail j s).jt) := by
  have slots : (queueTail j s).jt.slots = (putJob (queuedJob j) s.jt).slots := by
    unfold queueTail
    dsimp only
    cases destinationOf j.kind <;> rfl
  exact ⟨funext (jobOf_congr slots), fun named => named.congr slots⟩

theorem queueTails_back {l : List Job} {s t : State} (stalled : ∀ j ∈ l, jobOf s.jt j.handle = some j
    ∧ ∃ time order, j.state = .stalled .credit time order) (named : Named t.jt) (back : ∀ handle, CreditBack s.jt t.jt handle) :
    Named (l.foldl (fun s j => queueTail j s) t).jt ∧ ∀ handle, CreditBack s.jt (l.foldl (fun s j => queueTail j s) t).jt handle := by
  induction l generalizing t with
  | nil => exact ⟨named, back⟩
  | cons j rest ih =>
    obtain ⟨⟨found, time, order, state⟩, rest⟩ := List.forall_mem_cons.mp stalled
    obtain ⟨k, here⟩ := (back j.handle).some found
    obtain ⟨jobs, names⟩ := queueTail_jobs j t
    refine ih rest (names (named.putJob (r := queuedJob j) here)) fun handle => ?_
    unfold CreditBack
    rw [jobs]
    by_cases same : handle = j.handle
    · subst same
      exact .inr ⟨j, time, order, found, state, jobOf_putJob (r := queuedJob j) here rfl⟩
    · rw [jobOf_putJob_other (r := queuedJob j) here same]
      exact back handle

theorem creditRose_back {s : State} (named : Named s.jt) (owner : Nat) :
    Named (creditRose owner s).jt ∧ ∀ handle, CreditBack s.jt (creditRose owner s).jt handle := by
  refine queueTails_back (fun j mem => ?_) named fun handle => .inl rfl
  rw [(perm_sorted insertByStall perm_insertByStall _).mem_iff, List.mem_filter, Bool.and_eq_true, stalledWith_iff] at mem
  exact ⟨named.of_mem mem.1, mem.2.2⟩

theorem creditRoses_back (owners : List Nat) {s : State} (named : Named s.jt) :
    Named (owners.foldl (fun s owner => creditRose owner s) s).jt
      ∧ ∀ handle, CreditBack s.jt (owners.foldl (fun s owner => creditRose owner s) s).jt handle := by
  induction owners generalizing s with
  | nil => exact ⟨named, fun _ => .inl rfl⟩
  | cons owner rest ih =>
    obtain ⟨first, back⟩ := creditRose_back named owner
    obtain ⟨named, after⟩ := ih first
    exact ⟨named, fun handle => (back handle).trans (after handle)⟩

/-! ### Operations that leave the path empty as it is -/

/-- The path, the accounts and the clock of a part. -/
structure Still (p : SheetPath) (a : List Account) (c : Nat) (s : State) : Prop where
  spm : s.spm = p
  accounts : s.accounts = a
  clock : s.clock = c

section Still

variable {p : SheetPath} {a : List Account} {c : Nat} {s t : State}

theorem Still.of (still : Still p a c s) (spm : t.spm = s.spm) (accounts : t.accounts = s.accounts) (clock : t.clock = s.clock) :
    Still p a c t := ⟨spm.trans still.spm, accounts.trans still.accounts, clock.trans still.clock⟩

theorem Still.foldl {α : Type} {op : State → α → State} (keeps : ∀ s x, Still p a c s → Still p a c (op s x)) (l : List α)
    (still : Still p a c s) : Still p a c (l.foldl op s) := by
  induction l generalizing s with
  | nil => exact still
  | cons x rest ih => exact ih (keeps s x still)

theorem still_reviewTimer (still : Still p a c s) : Still p a c (reviewTimer s) := by
  unfold reviewTimer
  split
  · exact still
  · exact still.of rfl rfl rfl

theorem still_closeImages (handle : Nat) (still : Still p a c s) : Still p a c (closeImages handle s) := by
  have first : Still p a c (dropFilling handle s) := by
    unfold dropFilling
    split
    · exact still.of rfl rfl rfl
    · exact still
  change Still p a c (match (dropFilling handle s).smc.programming with | some q => _ | none => _)
  split
  · split
    · split
      · exact first.of rfl rfl rfl
      · exact first
      · exact still_reviewTimer (first.of rfl rfl rfl)
    · exact first
  · exact first

theorem still_discardHeld (handle : Nat) (still : Still p a c s) : Still p a c (discardHeld handle s) := by
  unfold discardHeld
  split
  · exact still_reviewTimer (still.of rfl rfl rfl)
  · exact still

theorem still_noteClosed (handle : Nat) (still : Still p a c s) : Still p a c (noteClosed handle s) := still.of rfl rfl rfl

theorem still_jobClosed (handle : Nat) (wasDraining : Bool) (still : Still p a c s) : Still p a c (jobClosed handle wasDraining s) := by
  rw [jobClosed_eq]
  refine still.foldl (fun u i before => ?_) cartSlots
  rw [closedAtSlot_eq]
  exact before.of rfl rfl rfl

theorem still_queueTails (l : List Job) (still : Still p a c s) : Still p a c (l.foldl (fun s j => queueTail j s) s) := by
  rw [queueTails_eq]
  exact still.of rfl rfl rfl

theorem still_reportScrubbed (handle : Nat) (still : Still p a c s) : Still p a c (reportScrubbed handle s) := by
  unfold reportScrubbed
  split
  · unfold freeSlot
    split
    · split
      · exact still.of rfl rfl rfl
      · exact still
    · exact still
  · exact still

/-- The state of a halt once the jobs are closed. -/
def haltedJobs (s : State) : State :=
  tellFinal (cutShort s.jt) ((((allJobs s.jt).filter isLive).map (·.handle)).foldl closeByHalt (evaluatePermit { s with
    startUp := none
    fm := { s.fm with part := .halted, nextNumber := takeNumber s.fm % 65535 + 1 }
    bc := { s.bc with keys := Vector.replicate 64 none, serving := false } }))

/-- The state of a halt once everything has stopped. -/
def haltedStopped (s : State) : State :=
  stopSpool (clearBus (releaseAll { s with jt :=
    { noneInFlight s.jt with engine := {}, exporter := {}, exportPhase := .idle, held := none, stallTimer := none } }))

theorem haltPart_eq (cause : HaltCause) (runs : s.fm.part ≠ .halted) : haltPart cause s
    = askPart (setHaltRecord (haltRecordOf cause s.fm.part (nowMs (reportStartUp true s.startUp (endSanitize true (haltedStopped (haltedJobs s)))))
        (((allJobs s.jt).filter isLive).map (·.handle)).length
        (reportStartUp true s.startUp (endSanitize true (haltedStopped (haltedJobs s)))).fm.haltRecord)
      (reportStartUp true s.startUp (endSanitize true (haltedStopped (haltedJobs s))))) :=
  if_neg runs

/-- A path with no sheet, nothing staged and no permit, that is JAMMED. -/
structure Empty (p : SheetPath) : Prop where
  jammed : p.jammed = true
  sheets : p.sheets = []
  staging : p.staging = []
  permit : p.feedPermit = false

variable (empty : Empty p)
include empty

theorem still_discardStaging (still : Still p a c s) : Still p a c (discardStaging s) := by
  refine still.of ?_ rfl rfl
  rw [discardStaging_spm, still.spm, ← empty.staging]

theorem still_evaluatePermit (still : Still p a c s) : Still p a c (evaluatePermit s) := by
  refine still.of ?_ rfl rfl
  have permit : permitConditions s = s.spm.feedPermit := by
    rw [still.spm, empty.permit, permitConditions, still.spm, empty.jammed]
    rfl
  change { s.spm with feedPermit := permitConditions s } = s.spm
  rw [permit]

theorem still_leavePlace (j : Job) (still : Still p a c s) : Still p a c (leavePlace j s) := by
  unfold leavePlace
  split
  · exact still.of rfl rfl rfl
  · unfold leaveActive
    dsimp only
    split
    · exact still_discardStaging empty (still.of rfl rfl rfl)
    · exact still.of rfl rfl rfl
  · exact still

theorem still_closeCore (outcome : JobOutcome) (handle : Nat) (still : Still p a c s) : Still p a c (closeCore outcome handle s) := by
  cases found : jobOf s.jt handle with
  | none =>
    unfold closeCore
    rw [found]
    exact still
  | some j =>
    cases live : isLive j with
    | false =>
      have same : closeCore outcome handle s = s := by simp [closeCore, found, live]
      rw [same]
      exact still
    | true =>
      rw [closeCore_eq found live]
      have left : Still p a c (closedLeft handle j s) := by
        have images : Still p a c (closeImages handle (zeroize (slotOf handle) s)) := still_closeImages handle (still.of rfl rfl rfl)
        have handed : Still p a c (handToScrub j (closeImages handle (zeroize (slotOf handle) s))) := images.of rfl rfl rfl
        exact still_leavePlace empty j handed
      have up : Still p a c (closedUp outcome handle j s) := left.of rfl rfl rfl
      exact still_noteClosed handle (still_discardHeld handle (still_jobClosed handle _ up))

theorem still_closeByHalt (handle : Nat) (still : Still p a c s) : Still p a c (closeByHalt s handle) := by
  refine still_closeCore empty _ handle ?_
  unfold changeJob
  split
  · exact still.of rfl rfl rfl
  · exact still

theorem still_releaseAll (still : Still p a c s) : Still p a c (releaseAll s) := by
  have none : s.spm.sheets = [] := by rw [still.spm, empty.sheets]
  unfold releaseAll
  rw [none]
  refine still_discardStaging empty ⟨?_, still.accounts, still.clock⟩
  change { s.spm with sheets := [] } = p
  rw [still.spm, ← empty.sheets]

theorem still_haltPart (cause : HaltCause) (still : Still p a c s) : Still p a c (haltPart cause s) := by
  by_cases halted : s.fm.part = .halted
  · rw [haltPart, if_pos halted]
    exact still
  · rw [haltPart_eq cause halted]
    have closed : Still p a c (haltedJobs s) := by
      refine Still.foldl (op := fun s j => askJobState j s) (fun u j before => before.of rfl rfl rfl) (cutShort s.jt) ?_
      exact Still.foldl (op := closeByHalt) (fun u h before => still_closeByHalt empty h before) _ (still_evaluatePermit empty (still.of rfl rfl rfl))
    have stopped : Still p a c (haltedStopped (haltedJobs s)) := by
      have released := still_releaseAll empty (s := { haltedJobs s with jt :=
        { noneInFlight (haltedJobs s).jt with engine := {}, exporter := {}, exportPhase := .idle, held := none, stallTimer := none } })
        (closed.of rfl rfl rfl)
      exact released.of rfl rfl rfl
    generalize haltedStopped (haltedJobs s) = u at stopped
    have sanitized : Still p a c (endSanitize true u) := by
      unfold endSanitize
      split
      · exact stopped.of rfl rfl rfl
      · exact stopped
    generalize endSanitize true u = v at sanitized
    have reported : Still p a c (reportStartUp true s.startUp v) := by
      unfold reportStartUp
      split
      · exact sanitized.of rfl rfl rfl
      · exact sanitized
    exact reported.of rfl rfl rfl

theorem still_closeJob (outcome : JobOutcome) (handle : Nat) (still : Still p a c s) : Still p a c (closeJob outcome handle s) := by
  have closed := still_closeCore empty outcome handle still
  unfold closeJob
  split
  · split
    · dsimp only
      split
      · exact still_haltPart empty _ closed
      · exact still_reportScrubbed handle closed
    · exact still
  · exact still

theorem still_jamJob (listed : Nat × Nat) (rank : Nat) (still : Still p a c s) : Still p a c (jamJob (rank, s) listed).2 := by
  obtain ⟨handle, index⟩ := listed
  cases found : jobOf s.jt handle with
  | none =>
    simp only [jamJob, found]
    exact still
  | some j =>
    have left := still_leavePlace empty j still
    have closed := still_closeJob empty .cancelled handle (s := setJob { j with inFlight := 0, nextSheet := index } s) (still.of rfl rfl rfl)
    simp only [jamJob, found]
    generalize leavePlace j s = u at left
    split
    · exact still.of rfl rfl rfl
    · exact closed
    · exact still.of rfl rfl rfl
    · exact left.of rfl rfl rfl

end Still

end Sys2Proof.Machine

/-! PROOFS. O36: a jam empties the path, gives back every reservation and stalls its jobs. -/

namespace Sys2Proof.Machine

/-! ### A close, seen from the handles -/

/-- What an operation on the job of a handle leaves: the names, the stuck slots, the other handles' jobs and the dead keys. -/
structure OnHandle (handle : Nat) (s t : State) : Prop where
  named : Named t.jt
  stuck : t.bc.stuck = s.bc.stuck
  others : ∀ h, h ≠ handle → jobOf t.jt h = jobOf s.jt h
  keys : ∀ i, s.bc.keys.get i = none → t.bc.keys.get i = none

section Handles

variable {handle : Nat} {s t u : State}

theorem OnHandle.refl (named : Named s.jt) : OnHandle handle s s := ⟨named, rfl, fun _ _ => rfl, fun _ none => none⟩

theorem OnHandle.trans (first : OnHandle handle s t) (second : OnHandle handle t u) : OnHandle handle s u :=
  ⟨second.named, second.stuck.trans first.stuck, fun h other => (second.others h other).trans (first.others h other),
    fun i none => second.keys i (first.keys i none)⟩

/-- An operation that keeps the slots and the cipher. -/
theorem OnHandle.of_view (named : Named s.jt) (view : closeView t = closeView s) : OnHandle handle s t := by
  have slots : t.jt.slots = s.jt.slots := slots_of_view view
  have bc : t.bc = s.bc := bc_of_view view
  exact ⟨named.congr slots, by rw [bc], fun h _ => jobOf_congr slots h, fun i none => by rw [bc]; exact none⟩

/-- The record of the handle's job is replaced. -/
theorem OnHandle.put {r j : Job} (named : Named s.jt) (found : jobOf s.jt handle = some j) (mine : r.handle = handle)
    (slots : t.jt.slots = (putJob r s.jt).slots) (bc : t.bc = s.bc) :
    OnHandle handle s t ∧ jobOf t.jt handle = some r := by
  subst mine
  refine ⟨⟨(named.putJob found).congr slots, by rw [bc], fun h other => ?_, fun i none => by rw [bc]; exact none⟩, ?_⟩
  · rw [jobOf_congr slots, jobOf_putJob_other found other]
  · rw [jobOf_congr slots, jobOf_putJob found rfl]

theorem reportScrubbed_handles {k : Job} (named : Named s.jt) (found : jobOf s.jt handle = some k) :
    OnHandle handle s (reportScrubbed handle s) ∧ ∀ j, jobOf (reportScrubbed handle s).jt handle = some j → j = k := by
  unfold reportScrubbed
  split
  · cases state : k.state with
    | scrub outcome =>
      rw [freeSlot_eq found state]
      refine ⟨⟨named.freed _ (Nat.mod_lt _ (by decide)) rfl, rfl, fun h other => ?_, fun i none => none⟩, fun j is => ?_⟩
      · exact (jobOf_freed found rfl h).trans (if_neg other)
      · have gone := (jobOf_freed (slot := { generation := ((s.jt.slots.get (slotOf handle)).generation + 1) % 256, job := none })
          found rfl handle).trans (if_pos rfl)
        rw [emit_jt, gone] at is
        cases is
    | _ =>
      have same : freeSlot handle s = s := by simp only [freeSlot, found, state]
      rw [same]
      exact ⟨.refl named, fun j is => Option.some.inj (is.symm.trans found)⟩
  · exact ⟨.refl named, fun j is => Option.some.inj (is.symm.trans found)⟩

theorem closeCore_handles {outcome : JobOutcome} {j : Job} (named : Named s.jt) (found : jobOf s.jt handle = some j)
    (live : isLive j = true) : OnHandle handle s (closeCore outcome handle s)
      ∧ jobOf (closeCore outcome handle s).jt handle = some (closedRecord outcome j)
      ∧ (closeCore outcome handle s).bc.keys.get (slotOf handle) = none := by
  have mine := named.own found
  have view := closeView_closeCore (outcome := outcome) found live
  have slots : (closeCore outcome handle s).jt.slots = (putJob (closedRecord outcome j) s.jt).slots := slots_of_view view
  have bc : (closeCore outcome handle s).bc = { s.bc with keys := s.bc.keys.set (slotOf handle) none } := bc_of_view view
  have put := OnHandle.put (t := setJob (closedRecord outcome j) s) (r := closedRecord outcome j) named found mine rfl rfl
  refine ⟨⟨put.1.named.congr slots, by rw [bc], fun h other => (jobOf_congr slots h).trans (put.1.others h other), fun i none => ?_⟩,
    closeCore_jobOf found live mine, ?_⟩
  · rw [bc]
    by_cases same : i = slotOf handle
    · subst same
      exact get_set_self _ _ _
    · exact (get_set_ne _ _ same).trans none
  · rw [bc]
    exact get_set_self _ _ _

theorem closeJob_handles {outcome : JobOutcome} {j : Job} (named : Named s.jt) (free : s.bc.stuck = [])
    (found : jobOf s.jt handle = some j) (live : isLive j = true) : OnHandle handle s (closeJob outcome handle s)
      ∧ (∀ k, jobOf (closeJob outcome handle s).jt handle = some k → k = closedRecord outcome j)
      ∧ (closeJob outcome handle s).bc.keys.get (slotOf handle) = none := by
  obtain ⟨core, closed, key⟩ := closeCore_handles (outcome := outcome) named found live
  obtain ⟨report, same⟩ := reportScrubbed_handles core.named closed
  rw [closeJob_eq found live, if_neg (by simp [free])]
  exact ⟨core.trans report, same, report.keys _ key⟩

end Handles

/-! ### One listed job of a jam (R12) -/

/-- A jam stalls the job. -/
def stallsInJam (j : Job) : Bool :=
  match j.state with
  | .scrub _ => false
  | .draining .cancel => false
  | .stalled .paused _ _ => false
  | _ => true

/-- A jam stalls the job of a handle. -/
def stallsAt (jt : JobTable) (handle : Nat) : Bool := (jobOf jt handle).any stallsInJam

/-- A job's record with nothing in flight and its next sheet at a removed one. -/
def rewoundJob (index : Nat) (j : Job) : Job := { j with inFlight := 0, nextSheet := index }

/-- What a jam leaves of a listed job. -/
structure Jammed (handle index rank : Nat) (now : Nat) (j : Job) (t : State) : Prop where
  scrub : ∀ o, j.state = .scrub o → jobOf t.jt handle = some { j with inFlight := 0 }
  cancel : j.state = .draining .cancel → t.bc.keys.get (slotOf handle) = none
    ∧ ∀ k, jobOf t.jt handle = some k → k.state = .scrub .cancelled
  paused : ∀ time order, j.state = .stalled .paused time order → jobOf t.jt handle = some (rewoundJob index j)
  stalls : stallsInJam j = true → ∃ order, jobOf t.jt handle = some { rewoundJob index j with state := .stalled (.jam rank) now order }

section JamJob

variable {handle index rank : Nat} {s : State}

theorem jamJob_none (gone : jobOf s.jt handle = none) : jamJob (rank, s) (handle, index) = (rank, s) := by
  simp only [jamJob, gone]

theorem jamJob_scrub {j : Job} {o : JobOutcome} (found : jobOf s.jt handle = some j) (state : j.state = .scrub o) :
    jamJob (rank, s) (handle, index) = (rank, setJob { j with inFlight := 0 } s) := by
  simp only [jamJob, found, state]

theorem jamJob_cancel {j : Job} (found : jobOf s.jt handle = some j) (state : j.state = .draining .cancel) :
    jamJob (rank, s) (handle, index) = (rank, closeJob .cancelled handle (setJob (rewoundJob index j) s)) := by
  simp only [jamJob, found, state, rewoundJob]

theorem jamJob_paused {j : Job} {time order : Nat} (found : jobOf s.jt handle = some j) (state : j.state = .stalled .paused time order) :
    jamJob (rank, s) (handle, index) = (rank, setJob (rewoundJob index j) s) := by
  simp only [jamJob, found, state, rewoundJob]

theorem jamJob_stalls {j : Job} (found : jobOf s.jt handle = some j) (stalls : stallsInJam j = true) :
    jamJob (rank, s) (handle, index) = (rank + 1, stallJob (.jam rank) (rewoundJob index j) (leavePlace j s)) := by
  unfold stallsInJam at stalls
  unfold jamJob
  simp only [found]
  split <;> simp_all [rewoundJob]

theorem stallJob_handles {j : Job} {cause : StallCause} (named : Named s.jt) (found : jobOf s.jt handle = some j) {r : Job}
    (mine : r.handle = handle) : OnHandle handle s (stallJob cause r s)
      ∧ jobOf (stallJob cause r s).jt handle = some { r with state := .stalled cause (nowMs s) s.jt.stallSeq } :=
  OnHandle.put (r := { r with state := .stalled cause (nowMs s) s.jt.stallSeq }) named found mine rfl rfl

theorem leavePlace_clock (j : Job) (s : State) : (leavePlace j s).clock = s.clock := by
  unfold leavePlace unqueue leaveActive
  split
  · cases destinationOf j.kind <;> rfl
  · cases destinationOf j.kind <;> rfl
  · rfl

/-- The states of a job in which a jam does not stall it. -/
theorem stallsInJam_cases (j : Job) : stallsInJam j = true ∨ (∃ o, j.state = .scrub o) ∨ j.state = .draining .cancel
    ∨ ∃ time order, j.state = .stalled .paused time order := by
  unfold stallsInJam
  split
  · next o state => exact .inr (.inl ⟨o, state⟩)
  · next state => exact .inr (.inr (.inl state))
  · next time order state => exact .inr (.inr (.inr ⟨time, order, state⟩))
  · exact .inl rfl

theorem jamJob_handles (named : Named s.jt) (free : s.bc.stuck = []) (rank index : Nat) :
    OnHandle handle s (jamJob (rank, s) (handle, index)).2
      ∧ (jamJob (rank, s) (handle, index)).1 = rank + (if stallsAt s.jt handle then 1 else 0)
      ∧ ∀ j, jobOf s.jt handle = some j → Jammed handle index rank (nowMs s) j (jamJob (rank, s) (handle, index)).2 := by
  cases found : jobOf s.jt handle with
  | none =>
    rw [jamJob_none found]
    exact ⟨.refl named, by simp [stallsAt, found], fun j is => (nomatch is)⟩
  | some j =>
    have mine := named.own found
    have at_ : stallsAt s.jt handle = stallsInJam j := by simp [stallsAt, found]
    obtain stalls | ⟨o, state⟩ | state | ⟨time, order, state⟩ := stallsInJam_cases j
    · have view := closeView_leavePlace j s
      have left : OnHandle handle s (leavePlace j s) := .of_view named view
      have still : jobOf (leavePlace j s).jt handle = some j := (jobOf_congr (slots_of_view view) handle).trans found
      obtain ⟨stalled, record⟩ := stallJob_handles (cause := .jam rank) left.named still (r := rewoundJob index j) mine
      have now : nowMs (leavePlace j s) = nowMs s := by rw [nowMs, leavePlace_clock, nowMs]
      rw [now] at record
      rw [jamJob_stalls found stalls]
      refine ⟨left.trans stalled, by rw [at_, stalls]; rfl, fun k is => ?_⟩
      cases Option.some.inj is
      refine ⟨fun o state => ?_, fun state => ?_, fun time order state => ?_, fun _ => ⟨_, record⟩⟩ <;>
        simp [stallsInJam, state] at stalls
    · rw [jamJob_scrub found state]
      obtain ⟨put, record⟩ := OnHandle.put (t := setJob { j with inFlight := 0 } s) (r := { j with inFlight := 0 }) named found mine rfl rfl
      have not : stallsInJam j = false := by simp [stallsInJam, state]
      refine ⟨put, by rw [at_, not]; rfl, fun k is => ?_⟩
      cases Option.some.inj is
      refine ⟨fun _ _ => record, fun other => ?_, fun _ _ other => ?_, fun stalls => ?_⟩
      · rw [state] at other; cases other
      · rw [state] at other; cases other
      · rw [not] at stalls; cases stalls
    · rw [jamJob_cancel found state]
      obtain ⟨put, record⟩ := OnHandle.put (t := setJob (rewoundJob index j) s) (r := rewoundJob index j) named found mine rfl rfl
      have live : isLive (rewoundJob index j) = true := by simp [isLive, rewoundJob, state]
      obtain ⟨close, outcome, key⟩ := closeJob_handles (outcome := .cancelled) put.named free record live
      have not : stallsInJam j = false := by simp [stallsInJam, state]
      refine ⟨put.trans close, by rw [at_, not]; rfl, fun k is => ?_⟩
      cases Option.some.inj is
      refine ⟨fun _ other => ?_, fun _ => ⟨key, fun k is => by rw [outcome k is]; rfl⟩, fun _ _ other => ?_, fun stalls => ?_⟩
      · rw [state] at other; cases other
      · rw [state] at other; cases other
      · rw [not] at stalls; cases stalls
    · rw [jamJob_paused found state]
      obtain ⟨put, record⟩ := OnHandle.put (t := setJob (rewoundJob index j) s) (r := rewoundJob index j) named found mine rfl rfl
      have not : stallsInJam j = false := by simp [stallsInJam, state]
      refine ⟨put, by rw [at_, not]; rfl, fun k is => ?_⟩
      cases Option.some.inj is
      refine ⟨fun _ other => ?_, fun other => ?_, fun _ _ _ => record, fun stalls => ?_⟩
      · rw [state] at other; cases other
      · rw [state] at other; cases other
      · rw [not] at stalls; cases stalls

end JamJob

/-! ### All listed jobs -/

theorem stallsAt_congr {a b : JobTable} {handle : Nat} (same : jobOf a handle = jobOf b handle) : stallsAt a handle = stallsAt b handle := by
  rw [stallsAt, same, stallsAt]

/-- Listed jobs of other handles leave a handle's job and its dead key, and count their ranks. -/
theorem jamJobs_others {l : List (Nat × Nat)} {s : State} (named : Named s.jt) (free : s.bc.stuck = [])
    (distinct : (l.map (·.1)).Nodup) (rank : Nat) :
    Named (l.foldl jamJob (rank, s)).2.jt ∧ (l.foldl jamJob (rank, s)).2.bc.stuck = []
      ∧ (∀ h, h ∉ l.map (·.1) → jobOf (l.foldl jamJob (rank, s)).2.jt h = jobOf s.jt h)
      ∧ (∀ i, s.bc.keys.get i = none → (l.foldl jamJob (rank, s)).2.bc.keys.get i = none)
      ∧ (l.foldl jamJob (rank, s)).1 = rank + (l.map (·.1)).countP (stallsAt s.jt) := by
  induction l generalizing s rank with
  | nil => exact ⟨named, free, fun _ _ => rfl, fun _ none => none, rfl⟩
  | cons listed rest ih =>
    obtain ⟨handle, index⟩ := listed
    obtain ⟨fresh, later⟩ := List.nodup_cons.mp distinct
    obtain ⟨step, ranks, _⟩ := jamJob_handles (handle := handle) named free rank index
    have unit : jamJob (rank, s) (handle, index) = ((jamJob (rank, s) (handle, index)).1, (jamJob (rank, s) (handle, index)).2) := rfl
    rw [List.foldl_cons, unit]
    generalize (jamJob (rank, s) (handle, index)).2 = u at step
    generalize (jamJob (rank, s) (handle, index)).1 = n at ranks
    obtain ⟨names, stuck, others, keys, count⟩ := ih step.named (step.stuck.trans free) later n
    refine ⟨names, stuck, fun h apart => ?_, fun i none => keys i (step.keys i none), ?_⟩
    · obtain ⟨differs, apart⟩ := not_or.mp (mt List.mem_cons.mpr apart)
      exact (others h apart).trans (step.others h differs)
    · have same : (rest.map (·.1)).countP (stallsAt u.jt) = (rest.map (·.1)).countP (stallsAt s.jt) :=
        List.countP_congr fun h mem => by
          rw [stallsAt_congr (step.others h fun equal => fresh (equal ▸ mem))]
      rw [count, ranks, same, List.map_cons, List.countP_cons]
      dsimp only
      omega

theorem nodup_eraseDups (l : List Nat) : l.eraseDups.Nodup := by
  induction n : l.length using Nat.strong_induction_on generalizing l with
  | _ n ih =>
    subst n
    cases l with
    | nil => exact List.nodup_nil
    | cons x rest =>
      rw [List.eraseDups_cons]
      have shorter : (rest.filter fun b => !b == x).length < (x :: rest).length :=
        Nat.lt_succ_of_le (List.length_filter_le _ _)
      refine List.nodup_cons.mpr ⟨fun mem => ?_, ih _ shorter _ rfl⟩
      have := (List.mem_filter.mp (List.mem_eraseDups.mp mem)).2
      simp at this

/-- The list of a jam around the first sheet of a handle. -/
theorem jamList_split {front back : List Sheet} {sh : Sheet} (first : ∀ x ∈ front, x.handle ≠ sh.handle) :
    ∃ before after, jamList (front ++ sh :: back) = before ++ (sh.handle, sh.index) :: after
      ∧ before.map (·.1) = (front.map (·.handle)).eraseDups := by
  have apart : sh.handle ∉ front.map (·.handle) := fun mem => by
    obtain ⟨x, memX, same⟩ := List.mem_map.mp mem
    exact first x memX same
  have index : ((front ++ sh :: back).find? (·.handle == sh.handle)).map (·.index) = some sh.index := by
    rw [List.find?_append, List.find?_eq_none.mpr fun x mem => by simpa using first x mem]
    simp
  unfold jamList
  rw [List.map_append, List.map_cons, List.eraseDups_append, List.cons_removeAll, if_pos (by simpa using apart), List.eraseDups_cons,
    List.map_append, List.map_cons, index]
  exact ⟨_, _, rfl, by rw [List.map_map]; exact List.map_id _⟩

/-! ### The path, the accounts and the jobs after a jam -/

/-- The record of a jam. -/
def jamRecordOf (cause : JamCause) (s : State) : JamRecord :=
  { cause := cause, instant := nowMs s, removed := s.spm.sheets.length, handles := (jamList s.spm.sheets).map (·.1) }

/-- The path JAMMED, its sheets removed. -/
def jammedPath (cause : JamCause) (s : State) : State :=
  evaluatePermit { s with spm := { s.spm with jammed := true, jam := some (jamRecordOf cause s), sheets := [] } }

/-- The state of a jam whose reservations have been released. -/
def emptiedPath (cause : JamCause) (s : State) : State := discardStaging (releaseSheets s.spm.sheets (jammedPath cause s))

/-- The state of a jam whose releases have been reported. -/
def reportedPath (cause : JamCause) (s : State) : State :=
  (releasedOwners s.spm.sheets).foldl (fun s owner => creditRose owner s) (emptiedPath cause s)

theorem declareJam_eq (cause : JamCause) (s : State) :
    declareJam cause s = askPart ((jamList s.spm.sheets).foldl jamJob (1, reportedPath cause s)).2 := rfl

section Jam

variable (cause : JamCause) (s : State)

theorem emptiedPath_eq : ∃ ps, emptiedPath cause s = discardStaging { jammedPath cause s with
    accounts := s.accounts.map (released s.spm.sheets), ps := ps } := by
  obtain ⟨ps, whole, _⟩ := releaseSheets_spec s.spm.sheets (jammedPath cause s)
  exact ⟨ps, by rw [emptiedPath, whole]; rfl⟩

/-- What a jam leaves of the path. -/
def jammedSpm : SheetPath :=
  { s.spm with jammed := true, jam := some (jamRecordOf cause s), sheets := [], staging := [], feedPermit := false }

theorem jammedSpm_empty : Empty (jammedSpm cause s) := ⟨rfl, rfl, rfl, rfl⟩

theorem emptiedPath_still :
    Still (jammedSpm cause s) (s.accounts.map (released s.spm.sheets)) s.clock (emptiedPath cause s) := by
  obtain ⟨ps, whole⟩ := emptiedPath_eq cause s
  rw [whole]
  exact ⟨rfl, rfl, rfl⟩

theorem reportedPath_still :
    Still (jammedSpm cause s) (s.accounts.map (released s.spm.sheets)) s.clock (reportedPath cause s) :=
  Still.foldl (op := fun s owner => creditRose owner s) (fun _ _ before => still_queueTails _ before) _ (emptiedPath_still cause s)

theorem jamJobs_still {p : SheetPath} (empty : Empty p) {accounts : List Account} {clock : Nat} (l : List (Nat × Nat))
    {acc : Nat × State} (before : Still p accounts clock acc.2) : Still p accounts clock (l.foldl jamJob acc).2 := by
  induction l generalizing acc with
  | nil => exact before
  | cons listed rest ih => exact ih (still_jamJob empty listed acc.1 before)

theorem declareJam_still :
    Still (jammedSpm cause s) (s.accounts.map (released s.spm.sheets)) s.clock (declareJam cause s) := by
  rw [declareJam_eq]
  exact (jamJobs_still (jammedSpm_empty cause s) _ (acc := (1, reportedPath cause s)) (reportedPath_still cause s)).of rfl rfl rfl

theorem reportedPath_jobs (named : Named s.jt) : Named (reportedPath cause s).jt
    ∧ (∀ handle, CreditBack s.jt (reportedPath cause s).jt handle) ∧ (reportedPath cause s).bc = s.bc := by
  obtain ⟨ps, whole⟩ := emptiedPath_eq cause s
  have jt : (emptiedPath cause s).jt = s.jt := by rw [whole]; rfl
  have bc : (emptiedPath cause s).bc = s.bc := by rw [whole]; rfl
  have rosesBc : ∀ (owners : List Nat) (u : State), (owners.foldl (fun s owner => creditRose owner s) u).bc = u.bc := by
    intro owners
    induction owners with
    | nil => exact fun _ => rfl
    | cons owner rest ih =>
      intro u
      have first : (creditRose owner u).bc = u.bc := by rw [creditRose, requeue, queueTails_eq]
      exact (ih _).trans first
  have roses := creditRoses_back (releasedOwners s.spm.sheets) (s := emptiedPath cause s) (by rw [jt]; exact named)
  rw [jt] at roses
  exact ⟨roses.1, roses.2, (rosesBc _ _).trans bc⟩

variable {cause s}

/-- A jam stalls a job whether or not its release brought the job back to its queue. -/
theorem CreditBack.stalls {a b : JobTable} {handle : Nat} (back : CreditBack a b handle) : stallsAt b handle = stallsAt a handle := by
  obtain same | ⟨j, time, order, before, state, after⟩ := back
  · exact stallsAt_congr same
  · simp [stallsAt, before, after, stallsInJam, state, queuedJob]

theorem Jammed.later {handle index rank now : Nat} {j : Job} {t u : State} (jammed : Jammed handle index rank now j t)
    (job : jobOf u.jt handle = jobOf t.jt handle) (keys : ∀ i, t.bc.keys.get i = none → u.bc.keys.get i = none) :
    Jammed handle index rank now j u := by
  obtain ⟨scrub, cancel, paused, stalls⟩ := jammed
  refine ⟨fun o state => job.trans (scrub o state), fun state => ?_, fun time order state => job.trans (paused time order state),
    fun is => ?_⟩
  · obtain ⟨key, outcome⟩ := cancel state
    exact ⟨keys _ key, fun k is => outcome k (job.symm.trans is)⟩
  · obtain ⟨order, record⟩ := stalls is
    exact ⟨order, job.trans record⟩

/-- A job that the release brought back to its queue is stalled by the jam as it would have been. -/
theorem Jammed.of_queued {handle index rank now : Nat} {j : Job} {t : State} {time order : Nat} (state : j.state = .stalled .credit time order)
    (jammed : Jammed handle index rank now (queuedJob j) t) : Jammed handle index rank now j t := by
  refine ⟨fun o other => ?_, fun other => ?_, fun _ _ other => ?_, fun _ => jammed.stalls rfl⟩ <;>
    · rw [state] at other
      cases other

/-- What a jam leaves of the job of its first sheet of a handle. -/
theorem declareJam_job {front back : List Sheet} {sh : Sheet} {j : Job} (named : Named s.jt) (free : s.bc.stuck = [])
    (sheets : s.spm.sheets = front ++ sh :: back) (first : ∀ x ∈ front, x.handle ≠ sh.handle)
    (found : jobOf s.jt sh.handle = some j) :
    Jammed sh.handle sh.index (1 + (front.map (·.handle)).eraseDups.countP (stallsAt s.jt)) (nowMs s) j (declareJam cause s) := by
  obtain ⟨names, returned, bc⟩ := reportedPath_jobs cause s named
  have still := reportedPath_still cause s
  rw [declareJam_eq]
  generalize reportedPath cause s = r at names returned bc still
  have stuck : r.bc.stuck = [] := by rw [bc]; exact free
  have distinct : ((jamList s.spm.sheets).map (·.1)).Nodup := by
    have all : (jamList s.spm.sheets).map (·.1) = (s.spm.sheets.map (·.handle)).eraseDups := by
      rw [jamList, List.map_map]
      exact List.map_id _
    rw [all]
    exact nodup_eraseDups _
  obtain ⟨before, after, split, handles⟩ := jamList_split (back := back) first
  rw [← sheets] at split
  rw [split, List.map_append, List.map_cons, List.nodup_append] at distinct
  obtain ⟨distinctBefore, distinctAfter, apart⟩ := distinct
  have freshBefore : sh.handle ∉ before.map (·.1) := fun mem => apart _ mem _ (List.mem_cons_self ..) rfl
  obtain ⟨freshAfter, distinctAfter⟩ := List.nodup_cons.mp distinctAfter
  obtain ⟨namedU, stuckU, othersU, _, ranks⟩ := jamJobs_others names stuck distinctBefore 1
  have now : nowMs (before.foldl jamJob (1, r)).2 = nowMs s := by
    rw [nowMs, (jamJobs_still (jammedSpm_empty cause s) before (acc := (1, r)) still).clock, nowMs]
  have here := othersU sh.handle freshBefore
  have rank : (before.foldl jamJob (1, r)).1 = 1 + (front.map (·.handle)).eraseDups.countP (stallsAt s.jt) := by
    rw [ranks, handles]
    exact congrArg (1 + ·) (List.countP_congr fun h _ => by rw [(returned h).stalls])
  have unit : before.foldl jamJob (1, r) = ((before.foldl jamJob (1, r)).1, (before.foldl jamJob (1, r)).2) := rfl
  rw [split, List.foldl_append, List.foldl_cons, unit, rank]
  generalize (before.foldl jamJob (1, r)).2 = u at namedU stuckU now here
  generalize 1 + (front.map (·.handle)).eraseDups.countP (stallsAt s.jt) = n
  obtain ⟨step, _, own⟩ := jamJob_handles (handle := sh.handle) namedU stuckU n sh.index
  rw [now] at own
  have done : Jammed sh.handle sh.index n (nowMs s) j (jamJob (n, u) (sh.handle, sh.index)).2 := by
    obtain same | ⟨k, time, order, was, state, queued⟩ := returned sh.handle
    · exact own j (here.trans (same.trans found))
    · cases Option.some.inj (was.symm.trans found)
      exact (own _ (here.trans queued)).of_queued state
  have pair : jamJob (n, u) (sh.handle, sh.index)
      = ((jamJob (n, u) (sh.handle, sh.index)).1, (jamJob (n, u) (sh.handle, sh.index)).2) := rfl
  rw [pair]
  generalize (jamJob (n, u) (sh.handle, sh.index)).2 = v at step done
  obtain ⟨_, _, othersV, keys, _⟩ := jamJobs_others step.named (step.stuck.trans stuckU) distinctAfter (jamJob (n, u) (sh.handle, sh.index)).1
  exact done.later (othersV sh.handle freshAfter) keys

end Jam

/-- Settles O36: the path by what every step keeps, each job by the list of the jam around its first sheet. -/
theorem jamEmptiesPath : Obligations.JamEmptiesPath := by
  intro cause s t
  obtain ⟨spm, accounts, _⟩ := declareJam_still cause s
  have spm : t.spm = jammedSpm cause s := spm
  refine ⟨by rw [spm]; rfl, by rw [spm]; rfl, by rw [spm]; rfl, by rw [spm]; rfl,
    ⟨jamRecordOf cause s, by rw [spm]; rfl, rfl, rfl, rfl, fun sh mem => ?_⟩, ?_, ?_, ?_⟩
  · refine List.mem_map.mpr ⟨(sh.handle, _), List.mem_map.mpr ⟨sh.handle, List.mem_eraseDups.mpr ?_, rfl⟩, rfl⟩
    exact List.mem_map.mpr ⟨sh, mem, rfl⟩
  · refine accounts.trans (List.map_congr_left fun a _ => ?_)
    unfold released
    simp only [eq_comm]
  · intro ok free front sh back j sheets first found
    obtain ⟨scrub, cancel, paused, stalls⟩ := declareJam_job (cause := cause) (named_of_ok ok) free sheets first found
    intro stallsHere rank
    have rankIs : rank = 1 + (front.map (·.handle)).eraseDups.countP (stallsAt s.jt) := rfl
    refine ⟨scrub, cancel, paused, fun is => ?_⟩
    have own : stallsInJam j = true := by
      have at_ : stallsHere sh.handle = stallsInJam j := by
        change (jobOf s.jt sh.handle).any stallsInJam = _
        rw [found]
        rfl
      rw [← at_]
      exact is
    rw [rankIs]
    exact stalls own
  · refine ⟨?_, rfl⟩
    obtain ⟨ps, whole⟩ := emptiedPath_eq cause s
    change (emptiedPath cause s).lif = s.lif
    rw [whole]
    rfl

end Sys2Proof.Machine

/-! PROOFS. O52: a moved image keeps every place. O53: FAULT_ACK. O54: the fault conditions. -/

namespace Sys2Proof.Machine
open Host (Outcome)

/-! ### Extent lists (R118) -/

section Extents

variable {old fresh : Nat}

theorem extentBlocks_cons (e : Extent) (rest : List Extent) :
    extentBlocks (e :: rest) = (List.range e.count).map (e.first + ·) ++ extentBlocks rest := rfl

theorem map_replace_of_not_mem {blocks : List Nat} (apart : old ∉ blocks) :
    blocks.map (fun b => if b = old then fresh else b) = blocks := by
  refine (List.map_congr_left fun b mem => ?_).trans blocks.map_id
  exact if_neg fun (same : b = old) => apart (same ▸ mem)

/-- The run of blocks from `first` up to `stop`, written as an extent where it is not empty. -/
theorem extentBlocks_run (first stop : Nat) :
    extentBlocks (if first = stop then [] else [{ first := first, count := stop - first }])
      = (List.range (stop - first)).map (first + ·) := by
  split
  · next empty => simp [empty, extentBlocks]
  · exact extentBlocks_one _ _

/-- R118: the fresh block takes the very place of the old one. -/
theorem extentBlocks_cutExtents {extents : List Extent} (nodup : (extentBlocks extents).Nodup) :
    extentBlocks (cutExtents old fresh extents) = (extentBlocks extents).map (fun b => if b = old then fresh else b) := by
  induction extents with
  | nil => rfl
  | cons e rest ih =>
    rw [extentBlocks_cons] at nodup ⊢
    obtain ⟨own, others, disjoint⟩ := List.nodup_append'.mp nodup
    rw [cutExtents]
    split
    · next inside =>
      have run : extentBlocks (if old = e.first then [] else [{ first := e.first, count := old - e.first }])
          = (List.range (old - e.first)).map (e.first + ·) := by
        rw [← extentBlocks_run]
        exact congrArg extentBlocks (if_congr eq_comm rfl rfl)
      have tail := extentBlocks_run (old + 1) (e.first + e.count)
      rw [range_split e.first e.count old inside.1 inside.2] at own disjoint ⊢
      obtain ⟨-, -, apart⟩ := List.nodup_append'.mp own
      obtain ⟨late, -⟩ := List.nodup_cons.mp (List.nodup_append'.mp own).2.1
      have early : old ∉ (List.range (old - e.first)).map (e.first + ·) := fun mem => apart mem List.mem_cons_self
      have after : old ∉ extentBlocks rest := fun mem =>
        disjoint (List.mem_append_right _ List.mem_cons_self) mem
      rw [extentBlocks_append, extentBlocks_append, run, extentBlocks_cons, tail, List.map_append, List.map_append,
        List.map_cons, map_replace_of_not_mem early, map_replace_of_not_mem late, map_replace_of_not_mem after, if_pos rfl]
      simp
    · next outside =>
      have apart : old ∉ (List.range e.count).map (e.first + ·) := fun mem => by
        obtain ⟨k, low, rfl⟩ := List.mem_map.mp mem
        exact outside ⟨Nat.le_add_right _ _, Nat.add_lt_add_left (List.mem_range.mp low) _⟩
      rw [extentBlocks_cons, ih others, List.map_append, map_replace_of_not_mem apart]

/-- The location found for an offset names that offset. -/
theorem linearOf_locationOf (extents : List Extent) (n : Nat) :
    linearOf extents (locationOf extents n).1 (locationOf extents n).2 = n := by
  induction extents generalizing n with
  | nil => simp [locationOf, linearOf]
  | cons e rest ih =>
    rw [locationOf]
    split
    · simp [linearOf]
    · next beyond =>
      have rest := ih (n - e.count * Config.blockBytes)
      simp only [linearOf, List.take_succ_cons, List.map_cons, List.sum_cons, Nat.add_mul] at rest ⊢
      omega

end Extents

/-- Settles O52: the fresh block takes the place of the failed one, and a location restated names its byte. -/
theorem movedExtentsKeepPlaces : Obligations.MovedExtentsKeepPlaces :=
  fun _ _ _ nodup => ⟨extentBlocks_cutExtents nodup, fun _ _ => linearOf_locationOf _ _⟩

/-! ### FAULT_ACK (R160, R168) -/

section Acknowledge

variable {number : Nat} {s : State}

/-- R160: the acknowledgment of a queued record. -/
theorem faultAck_queued (nonzero : number ≠ 0) (queued : ∃ q ∈ s.fm.queue, q.record.number = number) :
    let left := (s.fm.queue.filter (·.record.number != number)).length
    faultAck number s =
      { status := .ok, payload := .acknowledged left (s.fm.backlog && left != 3) s.fm.overflow, state := acknowledge number s } := by
  have found : s.fm.queue.any (·.record.number == number) = true := by simpa using queued
  simp [faultAck, nonzero, found]

theorem faultAck_unknown (nonzero : number ≠ 0) (apart : ∀ q ∈ s.fm.queue, q.record.number ≠ number) :
    faultAck number s = refuse .wrongState s := by
  have missing : s.fm.queue.any (·.record.number == number) = false := by simpa using apart
  simp [faultAck, nonzero, missing]

theorem acknowledge_reopens (backlog : s.fm.backlog = true)
    (three : (s.fm.queue.filter (·.record.number != number)).length = 3) :
    acknowledge number s = settle (askPart (evaluatePermit { s with fm := { s.fm with
      queue := s.fm.queue.filter (·.record.number != number), backlog := false, overflow := 0 } })) := by
  rw [acknowledge, backlog, three]
  rfl

theorem acknowledge_removes
    (closed : s.fm.backlog = false ∨ (s.fm.queue.filter (·.record.number != number)).length ≠ 3) :
    acknowledge number s = { s with fm := { s.fm with queue := s.fm.queue.filter (·.record.number != number) } } := by
  rw [acknowledge]
  exact if_neg (by rcases closed with h | h <;> simp [h])

end Acknowledge

/-- Settles O53: the tests of FAULT_ACK in their order, and what each leaves. -/
theorem faultAcknowledged : Obligations.FaultAcknowledged := by
  intro tag number s serving
  refine ⟨fun zero => ?_, fun nonzero apart => ?_, fun nonzero queued => ⟨fun backlog three => ?_, fun closed => ?_⟩,
    fun blank => ?_, fun stands => ?_⟩
  · exact next_request serving (by rw [faultAck, if_pos zero]; rfl)
  · exact next_request serving (by rw [faultAck_unknown nonzero apart]; rfl)
  · refine next_request serving ?_
    rw [faultAck_queued nonzero queued, acknowledge_reopens backlog three, three]
    simp
  · refine next_request serving ?_
    rw [faultAck_queued nonzero queued, acknowledge_removes closed]
    rcases closed with h | h <;> simp [h]
  · exact next_request serving (by rw [haltRecordAck, blank]; rfl)
  · exact next_request serving (by rw [haltRecordAck, Option.isNone_eq_false_iff.mpr (Option.isSome_iff_ne_none.mpr stands)]; rfl)

/-! ### JOB and NOTE conditions (R157 to R161) -/

section Conditions

variable {f : JobFault} {s : State}

/-- R157: the record a JOB condition takes. -/
def jobRecordOf (f : JobFault) (s : State) : JobRecord := { number := takeNumber s.fm, instant := nowMs s, fault := f }

/-- R157: the state with the number taken and the record as the job's last fault. -/
def lastFaultKept (f : JobFault) (s : State) : State :=
  keepLastFault (jobRecordOf f s) { s with fm := { s.fm with nextNumber := takeNumber s.fm % 65535 + 1 } }

theorem lastFaultKept_frame (f : JobFault) (s : State) :
    lastFaultKept f s = { s with fm := { s.fm with nextNumber := takeNumber s.fm % 65535 + 1 }, jt := (lastFaultKept f s).jt } := by
  unfold lastFaultKept keepLastFault changeJob
  split <;> rfl

theorem lastFaultKept_some {j : Job} (named : jobOf s.jt f.handle = some j) :
    (lastFaultKept f s).jt = putJob { j with lastFault := some (jobRecordOf f s) } s.jt := by
  simp [lastFaultKept, keepLastFault, changeJob, jobRecordOf, named, setJob]

theorem lastFaultKept_none (unnamed : jobOf s.jt f.handle = none) : (lastFaultKept f s).jt = s.jt := by
  simp [lastFaultKept, keepLastFault, changeJob, jobRecordOf, unnamed]

/-- R158, R159: what the fault queue makes of a record. -/
def recordTaken (record : JobRecord) (s : State) : State :=
  if s.fm.queue.length < 4 then
    let queued : QueuedFault := { place := freePlace s.fm.queue, record := record }
    emit (.faultQueued queued) { s with fm := { s.fm with queue := s.fm.queue ++ [queued] } }
  else
    let t := { s with fm := { s.fm with overflow := satAdd s.fm.overflow 1 255, backlog := true } }
    if s.fm.backlog then t else askPart (evaluatePermit t)

theorem raiseJobFault_eq (f : JobFault) (s : State) :
    raiseJobFault f s = recordTaken (jobRecordOf f s) (lastFaultKept f s) := rfl

section Taken

variable {record : JobRecord}

theorem recordTaken_jt : (recordTaken record s).jt = s.jt := by
  unfold recordTaken
  split_ifs <;> rfl

theorem recordTaken_kept : (recordTaken record s).fm.notes = s.fm.notes ∧ (recordTaken record s).fm.haltRecord = s.fm.haltRecord
    ∧ (recordTaken record s).fm.part = s.fm.part := by
  unfold recordTaken
  split_ifs <;> exact ⟨rfl, rfl, rfl⟩

theorem recordTaken_queued (few : s.fm.queue.length < 4) :
    recordTaken record s = emit (.faultQueued { place := freePlace s.fm.queue, record := record })
      { s with fm := { s.fm with queue := s.fm.queue ++ [{ place := freePlace s.fm.queue, record := record }] } } :=
  if_pos few

theorem recordTaken_first (full : s.fm.queue.length = 4) (first : s.fm.backlog = false) :
    recordTaken record s = askPart (evaluatePermit
      { s with fm := { s.fm with overflow := satAdd s.fm.overflow 1 255, backlog := true } }) := by
  simp [recordTaken, full, first]

theorem recordTaken_again (full : s.fm.queue.length = 4) (again : s.fm.backlog = true) :
    recordTaken record s = { s with fm := { s.fm with overflow := satAdd s.fm.overflow 1 255, backlog := true } } := by
  simp [recordTaken, full, again]

end Taken

/-- R158: every place below the one taken holds a record. -/
theorem freePlace_least {queue : List QueuedFault} {n : Nat} (low : n < freePlace queue) : ∃ r ∈ queue, r.place = n := by
  unfold freePlace at low
  cases found : (List.range 4).find? fun p => !(queue.any (·.place == p)) with
  | none => simp [found] at low
  | some p =>
    rw [found] at low
    have before := (List.find?_range_eq_some.mp found).2.2 n low
    simpa using before

theorem tallyNote_self (record : NoteRecord) (fm : FaultMonitor) :
    (tallyNote record fm).notes.get (noteCode record.note)
      = { tally := min ((fm.notes.get (noteCode record.note)).tally + 1) 65535, latest := some record } := by
  simp [tallyNote, Vector.get_eq_getElem, satAdd]

theorem tallyNote_other (record : NoteRecord) (fm : FaultMonitor) {c : Fin 10} (other : c ≠ noteCode record.note) :
    (tallyNote record fm).notes.get c = fm.notes.get c := by
  have apart : (noteCode record.note).val ≠ c.val := fun same => other (Fin.ext same.symm)
  simp [tallyNote, Vector.get_eq_getElem, Vector.getElem_set_ne, apart]

/-- R161: the record a NOTE condition takes. -/
def noteRecordOf (n : Note) (s : State) : NoteRecord := { number := takeNumber s.fm, instant := nowMs s, note := n }

theorem raiseNote_eq (n : Note) (s : State) :
    raiseNote n s = emit (.faultNote (noteRecordOf n s)) { s with fm := tallyNote (noteRecordOf n s) s.fm } := rfl

end Conditions

/-- R158: what a condition that is queued leaves. -/
theorem recordTaken_place {record : JobRecord} {s : State} (few : s.fm.queue.length < 4) :
    let t := recordTaken record s
    ∃ place, place < 4 ∧ (∀ r ∈ s.fm.queue, r.place ≠ place) ∧ (∀ n, n < place → ∃ r ∈ s.fm.queue, r.place = n)
      ∧ t.fm.queue = s.fm.queue ++ [{ place := place, record := record }]
      ∧ t.fm.overflow = s.fm.overflow ∧ t.fm.backlog = s.fm.backlog
      ∧ t.lif = (emit (.faultQueued { place := place, record := record }) s).lif ∧ t.spm = s.spm := by
  rw [recordTaken_queued few]
  refine ⟨freePlace s.fm.queue, freePlace_lt _, fun r mem same => ?_, fun n => freePlace_least, rfl, rfl, rfl, rfl, rfl⟩
  exact freePlace_free few (List.mem_map.mpr ⟨r, mem, same⟩)

/-- R159: what a condition that is counted leaves. -/
theorem recordTaken_count {record : JobRecord} {s : State} (full : s.fm.queue.length = 4) :
    let t := recordTaken record s
    t.fm.queue = s.fm.queue ∧ t.fm.overflow = min (s.fm.overflow + 1) 255 ∧ t.fm.backlog = true
      ∧ (s.fm.backlog = false → t.spm.feedPermit = false ∧ t.lif = (emit (.part (partContent t)) s).lif)
      ∧ (s.fm.backlog = true → t.lif = s.lif ∧ t.spm = s.spm) := by
  cases stood : s.fm.backlog with
  | false =>
    rw [recordTaken_first full stood]
    exact ⟨rfl, rfl, rfl, fun _ => ⟨by simp [evaluatePermit, permitConditions], rfl⟩, fun h => by cases h⟩
  | true =>
    rw [recordTaken_again full stood]
    exact ⟨rfl, rfl, rfl, fun h => by (cases h), fun _ => ⟨rfl, rfl⟩⟩

/-- R157 to R159: what a condition leaves of the state before its number was taken. -/
theorem recordTaken_apart {record : JobRecord} {s u : State} {number : Nat} {jt : JobTable}
    (frame : u = { s with fm := { s.fm with nextNumber := number % 65535 + 1 }, jt := jt }) :
    let t := recordTaken record u
    t.fm.notes = s.fm.notes ∧ t.fm.haltRecord = s.fm.haltRecord ∧ t.fm.part = s.fm.part
      ∧ (s.fm.queue.length < 4 → ∃ place, place < 4 ∧ (∀ r ∈ s.fm.queue, r.place ≠ place)
          ∧ (∀ n, n < place → ∃ r ∈ s.fm.queue, r.place = n)
          ∧ t.fm.queue = s.fm.queue ++ [{ place := place, record := record }]
          ∧ t.fm.overflow = s.fm.overflow ∧ t.fm.backlog = s.fm.backlog
          ∧ t.lif = (emit (.faultQueued { place := place, record := record }) s).lif ∧ t.spm = s.spm)
      ∧ (s.fm.queue.length = 4 → t.fm.queue = s.fm.queue ∧ t.fm.overflow = min (s.fm.overflow + 1) 255
          ∧ t.fm.backlog = true ∧ (s.fm.backlog = false → t.spm.feedPermit = false ∧ t.lif = (emit (.part (partContent t)) s).lif)
          ∧ (s.fm.backlog = true → t.lif = s.lif ∧ t.spm = s.spm)) := by
  subst frame
  obtain ⟨notes, haltRecord, part⟩ := recordTaken_kept (record := record)
    (s := { s with fm := { s.fm with nextNumber := number % 65535 + 1 }, jt := jt })
  exact ⟨notes, haltRecord, part,
    fun few => recordTaken_place (s := { s with fm := { s.fm with nextNumber := number % 65535 + 1 }, jt := jt })
      few,
    fun full => recordTaken_count (s := { s with fm := { s.fm with nextNumber := number % 65535 + 1 }, jt := jt }) full⟩

/-- Settles O54: a JOB condition by the room of the queue, a NOTE condition in its tally. -/
theorem faultConditions : Obligations.FaultConditions := by
  refine ⟨fun f s ok => ?_, fun n s ok => ?_⟩
  · intro t
    obtain ⟨low, high⟩ := takeNumber_range ok
    have apart : ∀ r ∈ s.fm.queue, r.record.number ≠ takeNumber s.fm := fun r mem same =>
      takeNumber_free ok (List.mem_map.mpr ⟨r, mem, same⟩)
    refine ⟨jobRecordOf f s, rfl, rfl, low, high, apart, fun j named => recordTaken_jt.trans (lastFaultKept_some named),
      fun unnamed => recordTaken_jt.trans (lastFaultKept_none unnamed), ?_⟩
    exact recordTaken_apart (lastFaultKept_frame f s)
  · obtain ⟨low, high⟩ := takeNumber_range ok
    have apart : ∀ r ∈ s.fm.queue, r.record.number ≠ takeNumber s.fm := fun r mem same =>
      takeNumber_free ok (List.mem_map.mpr ⟨r, mem, same⟩)
    refine ⟨noteRecordOf n s, rfl, rfl, low, high, apart, ?_, fun c other => ?_, rfl, rfl, rfl, rfl, rfl, rfl, rfl⟩
    · exact tallyNote_self _ _
    · exact tallyNote_other _ _ other

end Sys2Proof.Machine

/-! PROOFS. O46: the scrub takes its head, and a sanitize ends. -/

namespace Sys2Proof.Machine
open Host (Outcome)

/-! ### The scrub's work and a sanitize (R144, R154) -/

section Scrub

variable {s : State} {block : Nat} {e : ScrubEntry}

theorem takeScrub_idle (idle : s.fm.part ≠ .running ∨ s.se.work ≠ none ∨ s.se.list = []) : takeScrub s = none := by
  unfold takeScrub
  split
  · next free list => exact if_neg fun runs => by simp [runs, free, list] at idle
  · rfl

theorem takeScrub_head {rest : List ScrubEntry} (runs : s.fm.part = .running) (free : s.se.work = none)
    (list : s.se.list = e :: rest) : takeScrub s = some { s with
      se := { s.se with work := some { block := e.block, verifying := false, second := false } }
      smc := { s.smc with ops := s.smc.ops ++ [.erase e.block] } } := by
  simp only [takeScrub, free, list, if_pos runs]
  rfl

theorem finishSanitize_waits (waits : s.se.sanitize = none ∨ s.se.list ≠ [] ∨ s.se.work ≠ none) : finishSanitize s = none := by
  refine if_neg fun due => ?_
  simp only [Bool.and_eq_true, Option.isSome_iff_ne_none, List.isEmpty_iff, Option.isNone_iff_eq_none] at due
  obtain ⟨⟨runs, empty⟩, free⟩ := due
  rcases waits with h | h | h
  · exact runs h
  · exact h empty
  · exact h free

theorem endSanitize_some {z : Sanitize} (runs : s.se.sanitize = some z) (halted : Bool) : endSanitize halted s
    = emit (.done z.tag halted (.sanitize z.wipe z.returned z.retired)) { s with se := { s.se with sanitize := none } } := by
  simp only [endSanitize, runs]

theorem finishSanitize_ends {z : Sanitize} (runs : s.se.sanitize = some z) (empty : s.se.list = []) (free : s.se.work = none) :
    finishSanitize s = some (askPart (endSanitize false s)) := by
  simp [finishSanitize, runs, empty, free]

/-! ### An entry leaves the list (R143) -/

theorem leaveScrub_absent (absent : s.se.list.find? (·.block == block) = none) : leaveScrub block s = s := by
  simp only [leaveScrub, absent]

/-- The state without the entries of a block. -/
def unlisted (block : Nat) (s : State) : State :=
  { s with se := { s.se with list := s.se.list.filter (·.block != block) } }

theorem leaveScrub_job {handle : Nat} (found : s.se.list.find? (·.block == block) = some e) (job : e.origin = .job handle) :
    leaveScrub block s = reportScrubbed handle (unlisted block s) := by
  simp only [leaveScrub, found, job]
  rfl

theorem leaveScrub_sweep (found : s.se.list.find? (·.block == block) = some e)
    (free : e.origin = .sweep ∨ e.origin = .sanitize) : leaveScrub block s = unlisted block s := by
  rcases free with h | h <;> (simp only [leaveScrub, found, h]; rfl)

theorem find_block_none : s.se.list.find? (·.block == block) = none ↔ ∀ e ∈ s.se.list, e.block ≠ block := by
  simp [List.find?_eq_none]

/-- The report touches the job table and the outgoing list alone. -/
theorem reportScrubbed_frame (handle : Nat) (s : State) :
    reportScrubbed handle s = { s with jt := (reportScrubbed handle s).jt, lif := (reportScrubbed handle s).lif } := by
  unfold reportScrubbed
  split
  · unfold freeSlot
    split
    · split <;> rfl
    · rfl
  · rfl

/-- Frames that leave the job table and the outgoing list open. -/
theorem kept_of_frame {t u : State} (frame : t = { u with jt := t.jt, lif := t.lif }) :
    t.smc = u.smc ∧ t.se = u.se ∧ t.ps = u.ps ∧ t.fm = u.fm ∧ t.accounts = u.accounts := by
  refine ⟨?_, ?_, ?_, ?_, ?_⟩ <;> rw [frame]

/-- What an entry leaving the list touches. -/
theorem leaveScrub_frame (block : Nat) (s : State) : leaveScrub block s
    = { unlisted block s with jt := (leaveScrub block s).jt, lif := (leaveScrub block s).lif } := by
  cases found : s.se.list.find? (·.block == block) with
  | none =>
    have whole : s.se.list.filter (·.block != block) = s.se.list :=
      List.filter_eq_self.mpr fun e mem => by simpa using find_block_none.mp found e mem
    rw [leaveScrub_absent found, unlisted, whole]
  | some e =>
    cases origin : e.origin with
    | job handle => rw [leaveScrub_job found origin]; exact reportScrubbed_frame handle _
    | sweep => rw [leaveScrub_sweep found (.inl origin)]
    | sanitize => rw [leaveScrub_sweep found (.inr origin)]

theorem leaveScrub_others (free : ∀ e, s.se.list.find? (·.block == block) = some e → e.origin = .sweep ∨ e.origin = .sanitize) :
    (leaveScrub block s).jt = s.jt ∧ (leaveScrub block s).lif = s.lif := by
  cases found : s.se.list.find? (·.block == block) with
  | none => rw [leaveScrub_absent found]; exact ⟨rfl, rfl⟩
  | some e => rw [leaveScrub_sweep found (free e found)]; exact ⟨rfl, rfl⟩

/-- R6: the job table with the slot of a handle FREE in its next generation. -/
def slotFreed (handle : Nat) (jt : JobTable) : JobTable :=
  { jt with slots := jt.slots.set (slotOf handle) { generation := (handle / 64 + 1) % 256, job := none } }

theorem reportScrubbed_freed {handle : Nat} {j : Job} {outcome : JobOutcome} (runs : s.fm.part = .running)
    (none : jobOnScrub s.se handle = false) (found : jobOf s.jt handle = some j) (scrub : j.state = .scrub outcome) :
    reportScrubbed handle s = emit (.jobState (slotOf handle) { handle := handle, stage := .freed outcome, tallies := .none })
      { s with jt := slotFreed handle s.jt } := by
  rw [reportScrubbed, if_pos (by simp [runs, none]), freeSlot_eq found scrub]
  obtain ⟨-, generation, -⟩ := jobOf_slot found
  rw [generation]
  rfl

theorem reportScrubbed_waits {handle : Nat} (listed : jobOnScrub s.se handle = true) : reportScrubbed handle s = s :=
  if_neg (by simp [listed])

/-! ### A retirement, and a block returned CLEAN (R112, R145) -/

/-- R113, R145: the state of a return before its entry leaves the list. -/
def returned (block : Nat) (s : State) : State :=
  let defects := { s.smc.defects with clean := insertNumber block s.smc.defects.clean }
  { setDefects defects s with
    smc := { s.smc with defects := defects, marked := s.smc.marked.filter (·.1 != block), free := s.smc.free ++ [block] }
    se := { s.se with work := none, sanitize := s.se.sanitize.map fun z => { z with returned := z.returned + 1 } } }

theorem returnClean_eq (block : Nat) (s : State) : returnClean block s = leaveScrub block (returned block s) := rfl

theorem markOf_cleared {m : SpoolMedia} : markOf (clearMark block m) block = none := by
  simp [markOf, clearMark, List.find?_eq_none]

theorem markOf_cleared_other {m : SpoolMedia} {b : Nat} (other : b ≠ block) : markOf (clearMark block m) b = markOf m b := by
  unfold markOf clearMark
  rw [List.find?_filter]
  congr 2
  funext mark
  by_cases same : mark.1 = b <;> simp [same, other]

/-- R143: what the return of the last, or of another, block of a job in SCRUB leaves of the table and of the notices. -/
theorem returnClean_job {handle : Nat} {j : Job} {outcome : JobOutcome} (found : s.se.list.find? (·.block == block) = some e)
    (origin : e.origin = .job handle) (runs : s.fm.part = .running) (named : jobOf s.jt handle = some j)
    (scrub : j.state = .scrub outcome) :
    let t := returnClean block s
    ((∀ x ∈ s.se.list, x.block ≠ block → x.origin ≠ .job handle) →
        t.jt = { s.jt with slots := s.jt.slots.set (slotOf handle) { generation := (handle / 64 + 1) % 256, job := none } }
          ∧ t.lif = (emit (.jobState (slotOf handle) { handle := handle, stage := .freed outcome, tallies := none }) s).lif)
      ∧ ((∃ x ∈ s.se.list, x.block ≠ block ∧ x.origin = .job handle) → t.jt = s.jt ∧ t.lif = s.lif) := by
  rw [returnClean_eq, leaveScrub_job (s := returned block s) found origin]
  have listed : jobOnScrub (unlisted block (returned block s)).se handle = true
      ↔ ∃ x ∈ s.se.list, x.block ≠ block ∧ x.origin = .job handle := by
    rw [jobOnScrub_iff]
    simp only [unlisted, returned, List.mem_filter, bne_iff_ne, and_assoc]
  refine ⟨fun last => ?_, fun more => ?_⟩
  · have gone : jobOnScrub (unlisted block (returned block s)).se handle = false := by
      rw [← Bool.not_eq_true, listed]
      rintro ⟨x, mem, other, own⟩
      exact last x mem other own
    rw [reportScrubbed_freed (s := unlisted block (returned block s)) runs gone named scrub]
    exact ⟨rfl, rfl⟩
  · rw [reportScrubbed_waits (listed.mpr more)]
    exact ⟨rfl, rfl⟩

end Scrub

/-- R112: what a retirement leaves. -/
theorem retireBlock_kept (cause : RetireCause) (block : Nat) (s : State) :
    let t := retireBlock cause block s
    let noted := raiseNote (.blockRetired block cause) s
    (∀ n, n ∈ t.smc.defects.retired ↔ n = block ∨ n ∈ s.smc.defects.retired)
      ∧ t.smc.defects.remap = s.smc.defects.remap ∧ t.smc.defects.clean = s.smc.defects.clean
      ∧ t.ps.defects = written .defects t.smc.defects ∧ t.smc.weak = s.smc.weak.erase block ∧ bandMapOf t.smc block = []
      ∧ t.fm = noted.fm ∧ t.lif = noted.lif ∧ t.jt = s.jt ∧ t.se = s.se ∧ t.smc.free = s.smc.free := by
  refine ⟨fun n => mem_insertNumber _ _ _, rfl, rfl, rfl, rfl, ?_, rfl, rfl, rfl, rfl, rfl⟩
  have gone : (s.smc.bandMaps.filter (·.1 != block)).find? (·.1 == block) = none := by
    simp [List.find?_eq_none]
  exact congrArg (fun found => (Option.map Prod.snd found).getD []) gone

/-- Settles O46: the scrub's work, the end of a sanitize, an entry's leaving, a retirement and a return. -/
theorem scrubAndSanitize : Obligations.ScrubAndSanitize := by
  refine ⟨fun s => ⟨takeScrub_idle, fun _ _ => takeScrub_head, finishSanitize_waits, fun z runs => ⟨fun empty free => ?_, ?_⟩⟩,
    fun block s => ⟨fun absent => leaveScrub_absent (find_block_none.mpr absent),
      fun e found => ⟨fun handle => leaveScrub_job found, leaveScrub_sweep found⟩⟩, fun cause block s => ?_, fun block s => ?_⟩
  · rw [finishSanitize_ends runs empty free, endSanitize_some runs]
  · exact endSanitize_some runs true
  · obtain ⟨h1, h2, h3, h4, h5, h6, h7, h8, h9, h10, h11⟩ := retireBlock_kept cause block s
    exact ⟨h1, h2, h3, h4, h5, h6, h7, h8, h9, h10, h11, rfl⟩
  · intro t
    have frame : t = { unlisted block (returned block s) with jt := t.jt, lif := t.lif } := leaveScrub_frame block (returned block s)
    obtain ⟨smc, se, ps, fm, accounts⟩ := kept_of_frame frame
    rw [smc, se, ps, fm, accounts]
    refine ⟨rfl, fun n => mem_insertNumber _ _ _, rfl, rfl, rfl, markOf_cleared, fun b other => markOf_cleared_other other,
      rfl, rfl, rfl, rfl, fun e handle j outcome found origin runs => returnClean_job found origin runs, fun free => ?_⟩
    exact leaveScrub_others (s := returned block s) free

end Sys2Proof.Machine

/-! PROOFS. O45: BLOCK_RETIRE, SANITIZE and STORE_WIPE. -/

namespace Sys2Proof.Machine
open Host (Outcome)

/-! ### BLOCK_RETIRE and SANITIZE (R129, R153) -/

section Requests

variable {s : State} {block : Nat}

/-- R129: a block flagged weak once. -/
def flaggedWeak (block : Nat) (s : State) : State :=
  if s.smc.weak.contains block then s else { s with smc := { s.smc with weak := s.smc.weak ++ [block] } }

theorem blockRetire_used (range : block < 30720) (used : blockState s block = .allocated ∨ blockState s block = .dirty) :
    blockRetire block s = { status := .accepted, state := flaggedWeak block s } := by
  have low : ¬ block ≥ Config.logicalBlocks := Nat.not_le.mpr range
  rcases used with h | h <;> (simp only [blockRetire, if_neg low, h]; rfl)

theorem blockRetire_free (range : block < 30720) :
    (blockState s block = .retired → blockRetire block s = { status := .ok, state := s })
      ∧ (blockState s block = .clean → blockRetire block s = { status := .ok, state := retireClean block s }) := by
  have low : ¬ block ≥ Config.logicalBlocks := Nat.not_le.mpr range
  constructor <;> intro h <;> simp only [blockRetire, if_neg low, h]

theorem sanitize_busy {tag : Byte} (busy : s.se.sanitize.isSome = true ∨ ∃ j ∈ allJobs s.jt, isLive j = true) :
    sanitize tag s = refuse .busy s := by
  unfold sanitize
  split
  · rfl
  · next idle => exact if_pos (List.any_eq_true.mpr (busy.resolve_left idle))

theorem sanitize_idle {tag : Byte} (idle : s.se.sanitize = none) (closed : ∀ j ∈ allJobs s.jt, isLive j = false) :
    sanitize tag s = if s.spm.supply.level = some false then refuse .powerLow s
      else { status := .accepted, state := settle (beginSanitize tag false s) } := by
  have dead : (allJobs s.jt).any isLive = false := List.any_eq_false.mpr fun j mem => by simp [closed j mem]
  simp [sanitize, idle, dead]

theorem storeWipe_busy {tag : Byte} (busy : allJobs s.jt ≠ [] ∨ s.se.sanitize.isSome = true) :
    storeWipe tag s = refuse .busy s := by
  unfold storeWipe
  split
  · rfl
  · next free =>
    refine if_pos (busy.resolve_left fun jobs => free (List.length_pos_of_ne_nil jobs))

theorem storeWipe_idle {tag : Byte} (empty : allJobs s.jt = []) (idle : s.se.sanitize = none) :
    (s.spm.supply.level = some false → storeWipe tag s = refuse .powerLow s)
      ∧ (s.spm.supply.level ≠ some false →
        (∀ test t, draw32 s = (.error test, t) → storeWipe tag s = refuse .halted (haltPart (.randomSource test .deviceKey) t))
        ∧ ∀ key t, draw32 s = (.ok key, t) →
          storeWipe tag s = { status := .accepted, state := settle (beginSanitize tag true (wipeContent key t)) }) := by
  refine ⟨fun low => ?_, fun power => ⟨fun test t failed => ?_, fun key t drawn => ?_⟩⟩
  · simp [storeWipe, empty, idle, low]
  · simp [storeWipe, empty, idle, power, failed]
  · simp [storeWipe, empty, idle, power, drawn]

theorem beginSanitize_kept (tag : Byte) (wipe : Bool) (u : State) :
    let t := beginSanitize tag wipe u
    t.smc.free = [] ∧ t.smc.defects.clean = [] ∧ t.smc.defects.retired = u.smc.defects.retired
      ∧ t.se.list = u.se.list ++ u.smc.free.map (fun b => { block := b, origin := .sanitize })
      ∧ t.se.sanitize = some { tag := tag, wipe := wipe, returned := 0, retired := 0 } ∧ t.jt = u.jt := by
  unfold beginSanitize
  split
  · next empty => exact ⟨rfl, List.isEmpty_iff.mp empty, rfl, rfl, rfl, rfl⟩
  · exact ⟨rfl, rfl, rfl, rfl, rfl, rfl⟩

theorem beginSanitize_told (tag : Byte) (wipe : Bool) (s : State) :
    Entry.notice (.part (partContent (beginSanitize tag wipe s))) ∈ (beginSanitize tag wipe s).lif.out :=
  mem_admitNotice_self rfl _

end Requests

/-! ### One slot at a wipe (R177) -/

/-- R177: a slot's record after a wipe. -/
def wipedSlot (c : CartSlot) : CartSlot :=
  if holdsVerified c then
    { c with verification := .unverified, failures := 0, figures := none, level := none, drawing := [] }
  else { c with failures := 0 }

/-- R177: a slot at an accepted STORE_WIPE. -/
def wipeSlot (s : State) (i : Fin 4) : State :=
  if holdsVerified (slotRecord s i) then unverify (dropFigures i (ceaseVerified i s)) i
  else putSlot i { slotRecord s i with failures := 0 } s

theorem cartridgesWipe_eq (s : State) : cartridgesWipe s
    = (let t := setHistory [] 0 (cartSlots.foldl wipeSlot (clearBus s))
       if t.spm.doorOpen then t else queueAll t) := rfl

/-- What of the store is no part of the history. -/
def sansHistory (ps : Store) : Store := { ps with history := .blank, journal := [] }

theorem partitions_of_sansHistory {p q : Store} (same : sansHistory p = sansHistory q) :
    p.accounts = q.accounts ∧ p.settings = q.settings ∧ p.halt = q.halt ∧ p.loadedKeys = q.loadedKeys ∧ p.keys = q.keys
      ∧ p.defects = q.defects ∧ p.results = q.results := by
  have all {α : Type} (f : Store → α) : f (sansHistory p) = f (sansHistory q) := congrArg f same
  exact ⟨all Store.accounts, all Store.settings, all Store.halt, all Store.loadedKeys, all Store.keys, all Store.defects,
    all Store.results⟩

theorem changeHistory_store (entries : List HistoryEntry) (lifetime : Nat) (s : State) :
    sansHistory (changeHistory entries lifetime s).ps = sansHistory s.ps := by
  unfold changeHistory
  split <;> rfl

theorem updateHistory_store (i : Fin 4) (suspect : Bool) (s : State) :
    sansHistory (updateHistory i suspect s).ps = sansHistory s.ps := by
  simp only [updateHistory]
  split
  · exact changeHistory_store _ _ s
  · rfl

theorem ceaseVerified_store (i : Fin 4) (s : State) : sansHistory (ceaseVerified i s).ps = sansHistory s.ps := by
  by_cases verified : holdsVerified (s.cbc.slots.get i) = true
  · rw [ceaseVerified_held verified]
    exact updateHistory_store i false s
  · rw [ceaseVerified_unverified verified]

theorem dropFigures_store (i : Fin 4) (s : State) : (dropFigures i s).ps = s.ps ∧ (dropFigures i s).smc.defects = s.smc.defects
    ∧ (dropFigures i s).cbc.flight = s.cbc.flight ∧ (dropFigures i s).cbc.work = s.cbc.work
    ∧ (dropFigures i s).spm.doorOpen = s.spm.doorOpen := by
  unfold dropFigures
  split <;> exact ⟨rfl, rfl, rfl, rfl, rfl⟩

theorem unverify_store (s : State) (i : Fin 4) : sansHistory (unverify s i).ps = sansHistory s.ps := by
  rw [unverify_eq, setVerification_eq, toldOf_eq]
  exact ceaseVerified_store i s

/-- What a wipe of one slot leaves of the rest. -/
structure WipeKeeps (s t : State) : Prop where
  store : sansHistory t.ps = sansHistory s.ps
  defects : t.smc.defects = s.smc.defects
  faults : t.fm = s.fm
  door : t.spm.doorOpen = s.spm.doorOpen
  flight : t.cbc.flight = s.cbc.flight
  work : s.cbc.work = [] → t.cbc.work = []

section Wipe

variable {s t u : State}

theorem WipeKeeps.refl (s : State) : WipeKeeps s s := ⟨rfl, rfl, rfl, rfl, rfl, id⟩

theorem WipeKeeps.trans (first : WipeKeeps s t) (second : WipeKeeps t u) : WipeKeeps s u where
  store := second.store.trans first.store
  defects := second.defects.trans first.defects
  faults := second.faults.trans first.faults
  door := second.door.trans first.door
  flight := second.flight.trans first.flight
  work := second.work ∘ first.work

theorem wipeKeeps_ceaseVerified (i : Fin 4) (s : State) : WipeKeeps s (ceaseVerified i s) := by
  have aside := ceaseVerified_aside i s
  obtain ⟨flight, work⟩ : (ceaseVerified i s).cbc.flight = s.cbc.flight
      ∧ (s.cbc.work = [] → (ceaseVerified i s).cbc.work = []) := by
    by_cases verified : holdsVerified (s.cbc.slots.get i) = true
    · rw [ceaseVerified_cbc verified]
      exact ⟨rfl, fun empty => by simp [empty]⟩
    · rw [ceaseVerified_unverified verified]
      exact ⟨rfl, id⟩
  exact ⟨ceaseVerified_store i s, congrArg SpoolMedia.defects (aside_smc aside), aside_fm aside,
    congrArg SheetPath.doorOpen (aside_spm aside), flight, work⟩

theorem wipeKeeps_unverify (s : State) (i : Fin 4) : WipeKeeps s (unverify s i) := by
  obtain ⟨-, spm, smc, -, -⟩ := unverify_frame s i
  obtain ⟨flight, work⟩ := unverify_bus s i
  exact ⟨unverify_store s i, congrArg SpoolMedia.defects smc, (unverify_lif s i).2, congrArg SheetPath.doorOpen spm, flight, work⟩

theorem wipeKeeps_dropFigures (i : Fin 4) (s : State) : WipeKeeps s (dropFigures i s) := by
  obtain ⟨ps, defects, flight, work, door⟩ := dropFigures_store i s
  exact ⟨congrArg sansHistory ps, defects, (dropFigures_kept i s).2.1, door, flight, fun empty => work.trans empty⟩

theorem wipeKeeps_wipeSlot (s : State) (i : Fin 4) : WipeKeeps s (wipeSlot s i) := by
  unfold wipeSlot
  split
  · exact (wipeKeeps_ceaseVerified i s).trans ((wipeKeeps_dropFigures i _).trans (wipeKeeps_unverify _ i))
  · exact ⟨rfl, rfl, rfl, rfl, rfl, id⟩

theorem wipeKeeps_slots (l : List (Fin 4)) (s : State) : WipeKeeps s (l.foldl wipeSlot s) := by
  induction l generalizing s with
  | nil => exact .refl s
  | cons i rest ih => exact (wipeKeeps_wipeSlot s i).trans (ih _)

/-- The record before the wiped slot's verification ends. -/
theorem dropFigures_ceased_slot {i : Fin 4} (verified : holdsVerified (s.cbc.slots.get i) = true) :
    (dropFigures i (ceaseVerified i s)).cbc.slots.get i = { s.cbc.slots.get i with figures := none, level := none, drawing := [] } := by
  rw [dropFigures_cbc, get_set4_self, ceaseVerified_slot, if_pos verified]

theorem unverifiedSlot_ceased {c : CartSlot} (verified : holdsVerified c = true) :
    unverifiedSlot { c with figures := none, level := none, drawing := [] } = wipedSlot c := by
  unfold unverifiedSlot wipedSlot
  rw [if_pos verified]
  split <;> rfl

theorem apart_wipeSlot (s : State) (i : Fin 4) : Apart i s (wipeSlot s i) := by
  unfold wipeSlot
  split
  · exact (apart_ceaseVerified i s).trans ((apart_dropFigures i _).trans ((apart_ceaseVerified i _).trans
      ((apart_putSlot i _ _).trans (apart_setVerification i .unverified _))))
  · exact apart_putSlot i _ s

theorem wipeSlot_self (s : State) (i : Fin 4) : (wipeSlot s i).cbc.slots.get i = wipedSlot (s.cbc.slots.get i) := by
  by_cases verified : holdsVerified (s.cbc.slots.get i) = true
  · rw [wipeSlot, slotRecord, if_pos verified, unverify_slot, if_pos rfl, dropFigures_ceased_slot verified,
      unverifiedSlot_ceased verified]
  · rw [wipeSlot, slotRecord, if_neg verified, wipedSlot, if_neg verified]
    exact get_set4_self _ _ _

/-- R177: the notice of a slot that loses its verified cartridge. -/
theorem wipeSlot_lif (s : State) (i : Fin 4) : (wipeSlot s i).lif = if holdsVerified (s.cbc.slots.get i)
    then admitNotice (.cartState (cartContent i (wipedSlot (s.cbc.slots.get i)))) s.lif else s.lif := by
  by_cases verified : holdsVerified (s.cbc.slots.get i) = true
  · rw [wipeSlot, slotRecord, if_pos verified, if_pos verified, (unverify_lif _ i).1, dropFigures_ceased_slot verified,
      unverifiedSlot_ceased verified, (dropFigures_kept i _).1, ceaseVerified_lif]
  · rw [wipeSlot, slotRecord, if_neg verified, if_neg verified]
    rfl

theorem wipeSlots_slot {l : List (Fin 4)} (nodup : l.Nodup) (s : State) (i : Fin 4) : (l.foldl wipeSlot s).cbc.slots.get i
    = if i ∈ l then wipedSlot (s.cbc.slots.get i) else s.cbc.slots.get i := by
  induction l generalizing s with
  | nil => rfl
  | cons k rest ih =>
    obtain ⟨fresh, later⟩ := List.nodup_cons.mp nodup
    rw [List.foldl_cons, ih later]
    by_cases same : i = k
    · subst same
      rw [if_neg fresh, wipeSlot_self, if_pos List.mem_cons_self]
    · rw [(apart_wipeSlot s k).others i same]
      simp [same]

theorem wipeSlots_told_stays {l : List (Fin 4)} {c : CartNotice} (apart : c.slot ∉ l)
    (told : Entry.notice (.cartState c) ∈ s.lif.out) : Entry.notice (.cartState c) ∈ (l.foldl wipeSlot s).lif.out := by
  induction l generalizing s with
  | nil => exact told
  | cons k rest ih =>
    obtain ⟨other, later⟩ := not_or.mp (mt List.mem_cons.mpr apart)
    refine ih later ?_
    rw [wipeSlot_lif]
    split
    · exact mem_admit_cart rfl rfl other told
    · exact told

theorem wipeSlots_told {l : List (Fin 4)} (nodup : l.Nodup) {i : Fin 4} (mem : i ∈ l)
    (verified : holdsVerified (s.cbc.slots.get i) = true) :
    Entry.notice (.cartState (cartContent i (wipedSlot (s.cbc.slots.get i)))) ∈ (l.foldl wipeSlot s).lif.out := by
  induction l generalizing s with
  | nil => exact absurd mem List.not_mem_nil
  | cons k rest ih =>
    obtain ⟨fresh, later⟩ := List.nodup_cons.mp nodup
    by_cases same : i = k
    · subst same
      rw [List.foldl_cons]
      refine wipeSlots_told_stays (c := cartContent i _) fresh ?_
      rw [wipeSlot_lif, if_pos verified]
      exact mem_admitNotice_self rfl s.lif
    · have slot := (apart_wipeSlot s k).others i same
      rw [← slot] at verified ⊢
      exact ih later ((List.mem_cons.mp mem).resolve_left same) verified

end Wipe

/-! ### The wipe (R176, R177) -/

section Content

variable (key : Key) (s : State)

/-- The state the cartridges meet at a wipe. -/
def wipeBegun : State := setAccounts [] (setKeys { device := some key } s)

/-- The slots wiped, one by one. -/
def slotsWiped : State := cartSlots.foldl wipeSlot (clearBus (wipeBegun key s))

theorem wipeSlots_accounts (l : List (Fin 4)) : (l.foldl wipeSlot s).accounts = s.accounts :=
  foldl_stands (f := State.accounts) (fun s i => by
    obtain ⟨-, accounts, -⟩ := (apart_wipeSlot s i).frame
    exact accounts) l s

/-- R103: what the queueing of every slot's items touches. -/
theorem queueAll_frame (s : State) : queueAll s = withWork (queueAll s).cbc.work s := by
  have all : queueAll s = withWork (queueAll s).cbc.work (queueItem .resync s) :=
    foldl_frame (fun s i => queueItem_frame (.auth i) s) cartSlots (queueItem .resync s)
  refine all.trans ?_
  generalize (queueAll s).cbc.work = w
  rw [queueItem_frame]
  rfl

/-- R177: the cartridges' part of the wipe. -/
theorem cartridgesWipe_frame (s : State) : cartridgesWipe s
    = withWork (cartridgesWipe s).cbc.work (setHistory [] 0 (cartSlots.foldl wipeSlot (clearBus s))) := by
  rw [cartridgesWipe_eq]
  generalize setHistory [] 0 (cartSlots.foldl wipeSlot (clearBus s)) = t
  dsimp only
  split
  · rfl
  · exact queueAll_frame t

theorem cartridgesWipe_work (s : State) (runs : s.fm.part ≠ .halted) : (cartridgesWipe s).cbc.work
    = if s.spm.doorOpen then [] else [.resync, .auth 0, .auth 1, .auth 2, .auth 3] := by
  have keeps := wipeKeeps_slots cartSlots (clearBus s)
  rw [cartridgesWipe_eq]
  generalize wiped : cartSlots.foldl wipeSlot (clearBus s) = u at keeps
  have door : (setHistory [] 0 u).spm.doorOpen = s.spm.doorOpen := keeps.door
  have empty : (setHistory [] 0 u).cbc.work = [] := keeps.work rfl
  have part : (setHistory [] 0 u).fm.part ≠ .halted := by
    rw [show (setHistory [] 0 u).fm = s.fm from keeps.faults]
    exact runs
  dsimp only
  rw [door]
  split
  · exact empty
  · rw [queueAll_eq part, empty]
    rfl

/-- R176: the rest of the wipe, behind the cartridges. -/
def wipeEnded (s : State) : State :=
  let s := clearHaltRecord (rewatch .supply (rewatch .exit (rewatch .feed (setSettings {} s))))
  { s with ps := { s.ps with results := wipedResults s.ps.results } }

theorem rewatch_frame (ch : Channel) (s : State) : rewatch ch s = { s with spm := (rewatch ch s).spm } := by
  cases ch <;> rfl

/-- The rest of the wipe, on its pieces. -/
theorem wipeEnded_frame (s : State) : wipeEnded s = { s with
    settings := {}
    spm := (wipeEnded s).spm
    fm := { s.fm with haltRecord := none }
    ps := { writeHalt .blank (writeSettings (written .settings {}) s.ps) with results := wipedResults s.ps.results } } := by
  unfold wipeEnded
  rw [rewatch_frame .supply, rewatch_frame .exit, rewatch_frame .feed]
  generalize (rewatch .supply _).spm = path
  rfl

theorem wipeContent_eq : wipeContent key s = wipeEnded (cartridgesWipe (wipeBegun key s)) := rfl

/-- What the wipe leaves, seen from the slots wiped one by one. -/
theorem wipeContent_kept :
    let t := wipeContent key s
    let u := cartSlots.foldl wipeSlot (clearBus (wipeBegun key s))
    t.cbc = { u.cbc with history := [], lifetime := 0, work := t.cbc.work } ∧ t.lif = u.lif
      ∧ t.accounts = u.accounts ∧ t.settings = {} ∧ t.smc = u.smc ∧ t.fm = { u.fm with haltRecord := none }
      ∧ sansHistory t.ps = sansHistory { u.ps with
          settings := written .settings {}, halt := .blank, results := wipedResults u.ps.results }
      ∧ t.ps.history = written .history { entries := [], lifetime := 0 } := by
  rw [wipeContent_eq, wipeEnded_frame, cartridgesWipe_frame]
  generalize (wipeEnded _).spm = path
  generalize cartSlots.foldl wipeSlot (clearBus (wipeBegun key s)) = u
  generalize (cartridgesWipe (wipeBegun key s)).cbc.work = w
  exact ⟨rfl, rfl, rfl, rfl, rfl, rfl, rfl, rfl⟩

/-- The notice of a slot that a wipe leaves without its cartridge. -/
theorem cartContent_wiped {i : Fin 4} {c : CartSlot} (verified : holdsVerified c = true) : cartContent i (wipedSlot c)
    = { slot := i, verification := .unverified, cls := none, serial := c.serial, mirror := none, pending := none } := by
  rw [wipedSlot, if_pos verified]
  rfl

theorem holdsVerified_wiped (c : CartSlot) : holdsVerified (wipedSlot c) = false := by
  unfold wipedSlot
  split
  · rfl
  · next other => exact Bool.not_eq_true _ ▸ other

theorem wipeContent_slot (i : Fin 4) : (wipeContent key s).cbc.slots.get i = wipedSlot (s.cbc.slots.get i) := by
  obtain ⟨cbc, -⟩ := wipeContent_kept key s
  rw [cbc]
  exact (wipeSlots_slot cartSlots_nodup _ i).trans (if_pos (mem_cartSlots i))

/-- R176: the partitions the wipe rewrites. -/
theorem wipeContent_store :
    let t := wipeContent key s
    let fresh : KeysContent := { family := Vector.replicate 4 none, device := some key
                                 locks := { settings := false, keys := false, audit := false } }
    t.ps.accounts = written .accounts [] ∧ t.ps.settings = written .settings {}
      ∧ t.ps.history = written .history { entries := [], lifetime := 0 } ∧ t.ps.halt = .blank
      ∧ t.ps.loadedKeys = some fresh ∧ t.ps.keys = written .keys fresh ∧ t.ps.defects = s.ps.defects
      ∧ t.ps.results = wipedResults s.ps.results := by
  obtain ⟨-, -, -, -, -, -, store, history⟩ := wipeContent_kept key s
  have kept := (wipeKeeps_slots cartSlots (clearBus (wipeBegun key s))).store
  generalize (cartSlots.foldl wipeSlot (clearBus (wipeBegun key s))).ps = ps at store kept
  obtain ⟨accounts, -, -, loaded, keys, defects, results⟩ := partitions_of_sansHistory kept
  obtain ⟨accounts', settings, halt, loaded', keys', defects', results'⟩ := partitions_of_sansHistory store
  exact ⟨accounts'.trans accounts, settings, history, halt, loaded'.trans loaded, keys'.trans keys, defects'.trans defects,
    results'.trans (congrArg wipedResults results)⟩

theorem wipeContent_accounts : (wipeContent key s).accounts = [] := by
  obtain ⟨-, -, accounts, -⟩ := wipeContent_kept key s
  rw [accounts, wipeSlots_accounts]
  rfl

end Content

/-- Settles O45: BLOCK_RETIRE by the block's state, SANITIZE and STORE_WIPE in the order of their tests, and what a wipe leaves. -/
theorem retireSanitizeWipe : Obligations.RetireSanitizeWipe := by
  refine ⟨fun tag s serving => ⟨fun block high => ?_, fun block range => ⟨fun retired => ?_, fun clean => ?_, fun used fresh => ?_,
      fun used flagged => ?_⟩, fun busy => ?_, fun idle closed low => ?_, fun idle closed power => ?_, fun busy => ?_,
      fun empty idle => ⟨fun low => ?_, fun power => ⟨fun test t failed => ?_, fun key t drawn => ?_⟩⟩,
      fun wipe u => beginSanitize_kept tag wipe u⟩, fun key s => ?_, beginSanitize_told⟩
  · exact next_request serving (if_pos high)
  · exact next_request serving ((blockRetire_free range).1 retired)
  · exact next_request serving ((blockRetire_free range).2 clean)
  · refine next_request serving ((blockRetire_used range used).trans ?_)
    rw [flaggedWeak, if_neg (by simpa using fresh)]
  · refine next_request serving ((blockRetire_used range used).trans ?_)
    rw [flaggedWeak, if_pos (by simpa using flagged)]
  · exact next_request serving (sanitize_busy busy)
  · exact next_request serving ((sanitize_idle idle closed).trans (if_pos low))
  · exact next_request serving ((sanitize_idle idle closed).trans (if_neg power))
  · exact next_request serving (storeWipe_busy busy)
  · exact next_request serving ((storeWipe_idle empty idle).1 low)
  · exact next_request serving (((storeWipe_idle empty idle).2 power).1 test t failed)
  · exact next_request serving (((storeWipe_idle empty idle).2 power).2 key t drawn)
  · obtain ⟨cbc, lif, -, settings, smc, fm, -, -⟩ := wipeContent_kept key s
    obtain ⟨accounts, settingsKept, history, halt, loaded, keys, defects, results⟩ := wipeContent_store key s
    have keeps := wipeKeeps_slots cartSlots (clearBus (wipeBegun key s))
    have faults : (wipeContent key s).fm = { s.fm with haltRecord := none } := by
      rw [fm, keeps.faults]
      rfl
    refine ⟨wipeContent_accounts key s, accounts, settings, settingsKept, by rw [cbc], by rw [cbc], history, halt, by rw [faults],
      ⟨loaded, keys⟩, defects, by rw [smc, keeps.defects]; rfl, by rw [faults], by rw [faults],
      fun i => by rw [wipeContent_slot, holdsVerified_wiped], by rw [cbc]; exact keeps.flight,
      fun runs => cartridgesWipe_work (wipeBegun key s) runs, fun i => ⟨fun other => ?_, fun verified => ⟨?_, ?_⟩⟩, results⟩
    · rw [wipeContent_slot, wipedSlot, if_neg (by simp [other])]
    · rw [wipeContent_slot, wipedSlot, if_pos verified]
    · have told := wipeSlots_told (s := clearBus (wipeBegun key s)) cartSlots_nodup (mem_cartSlots i) verified
      rw [lif, ← cartContent_wiped verified]
      exact told



end Sys2Proof.Machine

/-! PROOFS. O51: remaps, moves and failed passes. -/

namespace Sys2Proof.Machine
open Host (Outcome)

/-! ### Remaps (R111) -/

section Remap

variable {block n : Nat} {s : State}

theorem spareOf_none {d : Defects} : spareOf d block = none ↔ ∀ p ∈ d.remap, p.1 ≠ block := by
  simp [spareOf, List.find?_eq_none]

theorem lowestSpare_none {d : Defects} (used : ∀ n, n < 2048 → ∃ p ∈ d.remap, p.2 = 30720 + n) : lowestSpare d = none := by
  refine List.find?_eq_none.mpr fun spare mem => ?_
  obtain ⟨n, low, rfl⟩ := List.mem_map.mp mem
  obtain ⟨p, mem, pair⟩ := used n (List.mem_range.mp low)
  simpa [Config.logicalBlocks] using ⟨p.1, by simpa [← pair] using mem⟩

theorem lowestSpare_some {d : Defects} (low : n < 2048) (unused : ∀ p ∈ d.remap, p.2 ≠ 30720 + n)
    (before : ∀ m, m < n → ∃ p ∈ d.remap, p.2 = 30720 + m) : lowestSpare d = some (30720 + n) := by
  have found : (List.range Config.spareBlocks).find? ((fun p => !(d.remap.any (·.2 == p))) ∘ (Config.logicalBlocks + ·)) = some n := by
    refine List.find?_range_eq_some.mpr ⟨?_, List.mem_range.mpr low, fun m less => ?_⟩
    · simpa [Config.logicalBlocks] using fun a b mem => unused (a, b) mem
    · obtain ⟨p, mem, pair⟩ := before m less
      simpa [Config.logicalBlocks] using ⟨p.1, by simpa [← pair] using mem⟩
  rw [lowestSpare, List.find?_map, found]
  rfl

/-- R111: the block is paired with a spare. -/
def paired (block spare : Nat) (s : State) : State :=
  setDefects { s.smc.defects with remap := s.smc.defects.remap ++ [(block, spare)] } s

theorem remapBlock_refused (refused : (∃ p ∈ s.smc.defects.remap, p.1 = block)
    ∨ ∀ n, n < 2048 → ∃ p ∈ s.smc.defects.remap, p.2 = 30720 + n) : remapBlock block s = none := by
  unfold remapBlock
  split
  · next unpaired spare =>
    rcases refused with ⟨p, mem, own⟩ | used
    · exact absurd own (spareOf_none.mp unpaired p mem)
    · rw [lowestSpare_none used] at spare
      cases spare
  · rfl

theorem remapBlock_taken {spare : Nat} (unpaired : spareOf s.smc.defects block = none)
    (lowest : lowestSpare s.smc.defects = some spare) :
    let left := 2047 - s.smc.defects.remap.length
    remapBlock block s = some (if left = 128 ∨ left = 16 ∨ left = 0 then raiseNote (.sparesLow left) (paired block spare s)
      else paired block spare s) := by
  have left : unusedSpares { s.smc.defects with remap := s.smc.defects.remap ++ [(block, spare)] }
      = 2047 - s.smc.defects.remap.length := by
    rw [unusedSpares, List.length_append, List.length_singleton, Nat.add_comm, ← Nat.sub_sub]
    rfl
  simp only [remapBlock, unpaired, lowest, left]
  rfl

theorem remapBlock_jt {u : State} (taken : remapBlock block s = some u) : u.jt = s.jt := by
  unfold remapBlock at taken
  split at taken
  · dsimp only at taken
    obtain rfl := Option.some.inj taken
    split <;> rfl
  · cases taken

theorem remapBlock_kept {u : State} (taken : remapBlock block s = some u) :
    u.se = s.se ∧ u.smc.programming = s.smc.programming := by
  unfold remapBlock at taken
  split at taken
  · dsimp only at taken
    obtain rfl := Option.some.inj taken
    split <;> exact ⟨rfl, rfl⟩
  · cases taken

end Remap

/-! ### An image moves to a fresh block (R118) -/

/-- The band map of a block that is renamed, with the old one forgotten. -/
theorem bandMapOf_moved {old fresh : Nat} {m : SpoolMedia} (other : old ≠ fresh) (apart : ∀ b ∈ m.bandMaps, b.1 ≠ fresh) :
    bandMapOf (dropBandMap old (renameBandMap old fresh m)) fresh = bandMapOf m old := by
  simp only [bandMapOf, dropBandMap, renameBandMap]
  generalize m.bandMaps = maps at apart
  induction maps with
  | nil => rfl
  | cons b later ih =>
    have fresher := apart b List.mem_cons_self
    have rest := ih fun x mem => apart x (List.mem_cons_of_mem _ mem)
    by_cases own : b.1 = old
    · have kept : (fresh != old) = true := bne_iff_ne.mpr fun same => other same.symm
      simp [own, kept]
    · have kept : (b.1 != old) = true := bne_iff_ne.mpr own
      simpa [own, kept, fresher] using rest

section Move

variable {p : ProgrammingImage} {j : Job} {s : State} {fresh : Nat} {rest : List Nat}

/-- The moved job's record. -/
def movedJob (block fresh : Nat) (j : Job) : Job :=
  { j with extents := cutExtents block fresh j.extents
           pages := j.pages.map (relocate j.extents (cutExtents block fresh j.extents)) }

/-- The state with the fresh block taken for the image, before the failed block is retired. -/
def imageRehoused (p : ProgrammingImage) (fresh : Nat) (rest : List Nat) (j : Job) (s : State) : State :=
  let t := setDefects { s.smc.defects with clean := s.smc.defects.clean.erase fresh } { s with smc := { s.smc with free := rest } }
  setJob (movedJob p.block fresh j) { t with smc := { renameBandMap p.block fresh t.smc with
    programming := some { p with block := fresh, second := true, phase := .waiting } } }

/-- R118: what a move leaves. -/
def imageMoved (p : ProgrammingImage) (fresh : Nat) (rest : List Nat) (j : Job) (s : State) : State :=
  reviewTimer (enterOp (.program p.handle fresh true) (retireBlock .program p.block (imageRehoused p fresh rest j s)))

theorem moveImage_room (waits : s.smc.programming = some p) (phase : p.phase = .needsBlock)
    (named : jobOf s.jt p.handle = some j) (free : s.smc.free = fresh :: rest)
    (room : extentsUsed s.jt + (cutExtents p.block fresh j.extents).length ≤ 4096 + j.extents.length) :
    moveImage s = some (imageMoved p fresh rest j s) := by
  simp only [moveImage, waits, if_pos phase, named, takeFree, free]
  exact if_pos room

theorem moveImage_full (waits : s.smc.programming = some p) (phase : p.phase = .needsBlock)
    (named : jobOf s.jt p.handle = some j) (full : s.smc.free = [] ∨ ∃ fresh rest, s.smc.free = fresh :: rest
      ∧ 4096 + j.extents.length < extentsUsed s.jt + (cutExtents p.block fresh j.extents).length) : moveImage s = none := by
  simp only [moveImage, waits, if_pos phase, named, takeFree]
  rcases full with empty | ⟨fresh, rest, free, more⟩
  · rw [empty]
  · rw [free]
    exact if_neg (Nat.not_le.mpr more)

theorem reviewTimer_frame (s : State) : reviewTimer s
    = { s with jt := { s.jt with stallTimer := if timerWanted s then s.jt.stallTimer else none } } := by
  unfold reviewTimer
  split <;> rfl

theorem timerWanted_iff : timerWanted s = true
    ↔ (∃ h, s.jt.held = some h ∧ h.reason = .room) ∨ ∃ p, s.smc.programming = some p ∧ p.phase = .needsBlock := by
  simp [timerWanted, Option.any_eq_true]

/-- R118: what a move of the image of a job leaves, with the head of the free list as its fresh block. -/
def Moved (p : ProgrammingImage) (j : Job) (s t : State) : Prop := ∀ fresh rest, s.smc.free = fresh :: rest →
  let extents := cutExtents p.block fresh j.extents
  let noted := raiseNote (.blockRetired p.block .program) s
  t.smc.programming = some { p with block := fresh, second := true, phase := .waiting }
    ∧ t.smc.ops = s.smc.ops ++ [.program p.handle fresh true] ∧ t.smc.free = rest
    ∧ jobOf t.jt p.handle = some { j with extents := extents, pages := j.pages.map (relocate j.extents extents) }
    ∧ (∀ b, b ∈ t.smc.defects.retired ↔ b = p.block ∨ b ∈ s.smc.defects.retired)
    ∧ t.smc.defects.clean = s.smc.defects.clean.erase fresh ∧ t.smc.defects.remap = s.smc.defects.remap
    ∧ t.ps.defects = written .defects t.smc.defects
    ∧ ((∀ b ∈ s.smc.bandMaps, b.1 ≠ fresh) → bandMapOf t.smc fresh = bandMapOf s.smc p.block)
    ∧ ((∀ h, s.jt.held = some h → h.reason ≠ .room) → t.jt.stallTimer = none)
    ∧ ((∃ h, s.jt.held = some h ∧ h.reason = .room) → t.jt.stallTimer = s.jt.stallTimer)
    ∧ t.fm = noted.fm ∧ t.lif = noted.lif

theorem moved_imageMoved (named : jobOf s.jt p.handle = some j) (own : j.handle = p.handle) (free : s.smc.free = fresh :: rest)
    (other : p.block ≠ fresh) : Moved p j s (imageMoved p fresh rest j s) := by
  intro fresh' rest' free'
  obtain ⟨rfl, rfl⟩ := List.cons.inj (free'.symm.trans free)
  have job : jobOf (putJob (movedJob p.block fresh' j) s.jt) p.handle = some (movedJob p.block fresh' j) := jobOf_putJob named own
  rw [imageMoved, reviewTimer_frame]
  have wanted : timerWanted (enterOp (.program p.handle fresh' true) (retireBlock .program p.block (imageRehoused p fresh' rest' j s)))
      = true ↔ ∃ h, s.jt.held = some h ∧ h.reason = .room := by
    rw [timerWanted_iff]
    refine ⟨fun due => due.resolve_right ?_, .inl⟩
    rintro ⟨q, waits, phase⟩
    obtain rfl : _ = q := Option.some.inj waits
    cases phase
  refine ⟨rfl, rfl, rfl, job, fun b => mem_insertNumber _ _ _, rfl, rfl, rfl, fun apart => bandMapOf_moved other apart,
    fun other => if_neg fun due => ?_, fun held => if_pos (wanted.mpr held), rfl, rfl⟩
  obtain ⟨h, held, reason⟩ := wanted.mp due
  exact other h held reason

end Move

/-! ### A first and a second failure, and one for a closed job (R118 to R120) -/

section Failure

variable {p : ProgrammingImage} {j : Job} {block : Nat} {s : State}

/-- R118: the image that waits for a block. -/
def waitingImage (p : ProgrammingImage) : ProgrammingImage := { p with phase := .needsBlock }

def waitingFor (p : ProgrammingImage) (s : State) : State := { s with smc := { s.smc with programming := some (waitingImage p) } }

theorem firstFailure_remapped {u : State} (taken : remapBlock p.block s = some u) : firstFailure p s = { u with smc := { u.smc with
    ops := u.smc.ops ++ [.program p.handle p.block true]
    programming := some { p with second := true, phase := .waiting } } } := by
  rw [firstFailure, taken]
  rfl

theorem firstFailure_moves {t : State} (refused : remapBlock p.block s = none) (moves : moveImage (waitingFor p s) = some t) :
    firstFailure p s = t := by
  rw [waitingFor, waitingImage] at moves
  simp only [firstFailure, refused, moves]

theorem firstFailure_waits (refused : remapBlock p.block s = none) (stays : moveImage (waitingFor p s) = none) :
    firstFailure p s = { s with
      smc := { s.smc with programming := some { p with phase := .needsBlock } }
      jt := { s.jt with
        stallTimer := some (s.jt.stallTimer.getD (nowMs s + s.settings.limits.intakeStallLimit * 1000)) } } := by
  rw [waitingFor, waitingImage] at stays
  simp only [firstFailure, refused, stays]
  cases timer : s.jt.stallTimer with
  | none => rfl
  | some deadline => rw [if_pos Option.isSome_some, Option.getD_some, ← timer]

/-- R119: the program that failed twice is no longer the port's. -/
def imageDropped (s : State) : State := { s with smc := { s.smc with programming := none } }

theorem secondFailure_eq (p : ProgrammingImage) (s : State) : secondFailure p s
    = (let u := (remapBlock p.block (imageDropped s)).getD (retireBlock .program p.block (imageDropped s))
       closeJob (.aborted .mediaWrite) p.handle (raiseJobFault { code := .mediaWrite, handle := p.handle
                                                                 page := ((jobOf u.jt p.handle).map pageInIntake).getD 0
                                                                 block := p.block, addrValid := true } u)) := by
  rw [secondFailure, ← imageDropped]
  cases remapBlock p.block (imageDropped s) <;> rfl

theorem secondFailure_remapped {u : State} (named : jobOf s.jt p.handle = some j)
    (taken : remapBlock p.block (imageDropped s) = some u) : secondFailure p s
      = closeJob (.aborted .mediaWrite) p.handle (raiseJobFault
        { code := .mediaWrite, handle := p.handle, page := pageInIntake j, block := p.block, addrValid := true } u) := by
  have table : u.jt = s.jt := (remapBlock_jt taken).trans rfl
  rw [secondFailure_eq, taken]
  simp only [Option.getD_some, table, named, Option.map_some]

theorem secondFailure_retires (named : jobOf s.jt p.handle = some j)
    (refused : remapBlock p.block (imageDropped s) = none) : secondFailure p s
      = closeJob (.aborted .mediaWrite) p.handle (raiseJobFault
        { code := .mediaWrite, handle := p.handle, page := pageInIntake j, block := p.block, addrValid := true }
        (retireBlock .program p.block (imageDropped s))) := by
  have table : (retireBlock .program p.block (imageDropped s)).jt = s.jt := rfl
  rw [secondFailure_eq, refused]
  simp only [Option.getD_none, table, named, Option.map_some, Option.getD_some]

theorem pageInIntake_eq (j : Job) : pageInIntake j = match j.expected with
    | some place => place.1
    | none => 0 := by
  unfold pageInIntake
  cases j.expected <;> rfl

theorem closedJobFailure_remapped {u : State} (taken : remapBlock block s = some u) : closedJobFailure block s = u := by
  rw [closedJobFailure, taken]

theorem closedJobFailure_retires (refused : remapBlock block s = none) (free : ∀ w, s.se.work = some w → w.block ≠ block) :
    closedJobFailure block s = retireScrubbed .program block s := by
  rw [closedJobFailure, refused]
  exact congrArg (retireScrubbed .program block) (if_neg fun work => by
    obtain ⟨w, held, own⟩ : ∃ w, s.se.work = some w ∧ w.block = block := by simpa [Option.any_eq_true] using work
    exact free w held own)

theorem closedJobFailure_stops (refused : remapBlock block s = none) {w : BlockInWork} (held : s.se.work = some w)
    (own : w.block = block) : closedJobFailure block s = retireScrubbed .program block { s with
      se := { s.se with work := none }
      smc := { s.smc with ops := s.smc.ops.filter fun op => decide (op ≠ .erase block) } } := by
  rw [closedJobFailure, refused]
  have work : s.se.work.any (·.block = block) = true := by simp [held, own]
  refine congrArg (retireScrubbed .program block) ((if_pos work).trans ?_)
  have same : ∀ op : PortOp, (op != .erase block) = decide (op ≠ .erase block) := fun op => by
    by_cases h : op = .erase block <;> simp [h]
  simp only [same]

theorem failedPass_first {w : BlockInWork} (first : w.second = false) : failedPass w s = workOn w.block false true s :=
  if_pos (by simp [first])

theorem failedPass_remapped {w : BlockInWork} {u : State} (second : w.second = true) (taken : remapBlock w.block s = some u) :
    failedPass w s = workOn w.block false false u := by
  simp [failedPass, second, taken]

theorem failedPass_retires {w : BlockInWork} (second : w.second = true) (refused : remapBlock w.block s = none) :
    failedPass w s = endWork (retireScrubbed .scrub w.block s) := by
  simp [failedPass, second, refused]

end Failure

/-- R118: the wait itself is no part of what a move leaves. -/
theorem Moved.of_waiting {p : ProgrammingImage} {j : Job} {s t : State} (moved : Moved (waitingImage p) j (waitingFor p s) t) :
    Moved p j s t := by
  intro fresh rest free
  obtain ⟨image, ops, left, job, retired, clean, remap, store, bands, idle, held, fm, lif⟩ := moved fresh rest free
  obtain ⟨sameLif, sameFm⟩ := raiseNote_link (n := .blockRetired p.block .program) (s := waitingFor p s) (t := s) rfl rfl rfl
  exact ⟨image, ops, left, job, retired, clean, remap, store, bands, idle, held, fm.trans sameFm, lif.trans sameLif⟩

/-- R118: a failed program with the room for a move, or without it. -/
theorem firstFailure_cases (p : ProgrammingImage) (j : Job) (s : State) (named : jobOf s.jt p.handle = some j)
    (own : j.handle = p.handle) :
    let room : Prop := ∃ fresh rest, s.smc.free = fresh :: rest ∧ p.block ≠ fresh
      ∧ extentsUsed s.jt + (cutExtents p.block fresh j.extents).length ≤ 4096 + j.extents.length
    let full : Prop := s.smc.free = [] ∨ ∃ fresh rest, s.smc.free = fresh :: rest
      ∧ 4096 + j.extents.length < extentsUsed s.jt + (cutExtents p.block fresh j.extents).length
    (remapBlock p.block s = none → room → Moved p j s (firstFailure p s))
      ∧ (s.smc.programming = some p → p.phase = .needsBlock →
          (room → ∃ t, moveImage s = some t ∧ Moved p j s t) ∧ (full → moveImage s = none))
      ∧ (remapBlock p.block s = none → full →
        firstFailure p s = { s with
          smc := { s.smc with programming := some { p with phase := .needsBlock } }
          jt := { s.jt with
            stallTimer := some (s.jt.stallTimer.getD (nowMs s + s.settings.limits.intakeStallLimit * 1000)) } }) := by
  refine ⟨?_, fun waits phase => ⟨?_, fun full => moveImage_full waits phase named full⟩, fun refused full => ?_⟩
  · rintro refused ⟨fresh, rest, free, other, fits⟩
    have moves := moveImage_room (s := waitingFor p s) (p := waitingImage p) rfl rfl named free fits
    have moved := moved_imageMoved (s := waitingFor p s) (p := waitingImage p) named own free other
    rw [← firstFailure_moves refused moves] at moved
    exact moved.of_waiting
  · rintro ⟨fresh, rest, free, other, fits⟩
    exact ⟨_, moveImage_room waits phase named free fits, moved_imageMoved named own free other⟩
  · exact firstFailure_waits refused
      (moveImage_full (s := waitingFor p s) (p := waitingImage p) rfl rfl named full)

/-- Settles O51: remaps, first and second failures, failures for closed jobs and failed passes. -/
theorem failuresHandled : Obligations.FailuresHandled := by
  refine ⟨fun block s _ => ⟨remapBlock_refused, fun n unpaired low unused before => ?_⟩,
    fun p s => ⟨fun u => firstFailure_remapped, fun j named own => firstFailure_cases p j s named own⟩,
    fun p j s named => ⟨fun u taken => ?_, fun refused => ?_⟩,
    fun block s => ⟨fun u => closedJobFailure_remapped, fun refused => ⟨closedJobFailure_retires refused, ?_⟩⟩,
    fun w s => ⟨failedPass_first, fun second u taken => ?_, fun second refused => ?_⟩⟩
  · have remapped := remapBlock_taken (spareOf_none.mpr unpaired) (lowestSpare_some low unused before)
    refine ⟨fun told => remapped.trans (congrArg some (if_pos told)), fun a b c => remapped.trans (congrArg some (if_neg ?_))⟩
    rintro (h | h | h)
    · exact a h
    · exact b h
    · exact c h
  · exact (secondFailure_remapped named taken).trans (by rw [pageInIntake_eq] <;> rfl)
  · exact (secondFailure_retires named refused).trans (by rw [pageInIntake_eq] <;> rfl)
  · rintro ⟨w, held, own⟩
    exact closedJobFailure_stops refused held own
  · exact failedPass_remapped second taken
  · exact failedPass_retires second refused

end Sys2Proof.Machine

/-! PROOFS. O50: the ends of a program, an erase and a verify. -/

namespace Sys2Proof.Machine
open Host (Outcome)

section PortEnds

variable {ok second : Bool} {r : VerifyRead} {s : State} {handle block : Nat} {physical : Nat} {w : BlockInWork}

theorem exec_programComplete (power : s.powered = true) (flight : s.smc.inFlight = some (.program handle block second physical)) :
    exec (.programComplete ok) s = .next (settle (endProgram handle block second ok s)) := by
  change execProgramComplete ok s = _
  simp only [execProgramComplete, flight, if_pos power]

theorem exec_eraseComplete (power : s.powered = true) (flight : s.smc.inFlight = some (.erase block physical)) :
    (∀ w, s.se.work = some w → exec (.eraseComplete ok) s = .next (settle (endErase w ok (endPortFlight s))))
      ∧ (s.se.work = none → exec (.eraseComplete ok) s = .next (settle (endPortFlight s))) := by
  constructor <;> intros <;> change execEraseComplete ok s = _ <;> simp [execEraseComplete, *]

theorem exec_verifyComplete (power : s.powered = true) (flight : s.smc.inFlight = some (.verify block physical)) :
    (∀ w, s.se.work = some w → exec (.verifyComplete r) s = .next (settle (endVerify w (verifyPasses r) (endPortFlight s))))
      ∧ (s.se.work = none → exec (.verifyComplete r) s = .next (settle (endPortFlight s))) := by
  constructor <;> intros <;> change execVerifyComplete r s = _ <;> simp [execVerifyComplete, *]

/-- The port idle again, with no programming image. -/
def programEnded (s : State) : State := imageDropped (endPortFlight s)

theorem readJobLive_iff : readJobLive s handle = true ↔ ∃ j, jobOf s.jt handle = some j ∧ isLive j = true := by
  simp [readJobLive, Option.any_eq_true]

theorem endProgram_ok : endProgram handle block second true s = programEnded s := by
  unfold endProgram
  dsimp only
  split
  · split <;> rfl
  · rfl

theorem endProgram_live {p : ProgrammingImage} (live : readJobLive s handle = true) (image : s.smc.programming = some p) :
    endProgram handle block second false s
      = if second then secondFailure p (programEnded s) else firstFailure p (programEnded s) := by
  have image : (endPortFlight s).smc.programming = some p := image
  have live : readJobLive (imageDropped (endPortFlight s)) handle = true := live
  simp only [endProgram, image]
  exact (if_pos live).trans (if_neg Bool.false_ne_true)

theorem endProgram_closed (closed : readJobLive s handle = false) :
    endProgram handle block second false s = closedJobFailure block (programEnded s) := by
  have closed : ¬ readJobLive (imageDropped (endPortFlight s)) handle = true := Bool.eq_false_iff.mp closed
  exact (if_neg closed).trans (if_neg Bool.false_ne_true)

theorem endErase_weak (weak : w.block ∈ s.smc.weak) : endErase w ok s = endWork (retireScrubbed .weak w.block s) :=
  if_pos (by simpa using weak)

theorem endErase_ends (strong : w.block ∉ s.smc.weak) :
    endErase w ok s = if ok then workOn w.block true w.second s else failedPass w s :=
  if_neg (by simpa using strong)

theorem endVerify_weak (weak : w.block ∈ s.smc.weak) : endVerify w ok s = endWork (retireScrubbed .weak w.block s) :=
  if_pos (by simpa using weak)

theorem endVerify_ends (strong : w.block ∉ s.smc.weak) :
    endVerify w ok s = if ok then returnClean w.block s else failedPass w s :=
  if_neg (by simpa using strong)

theorem verifyPasses_iff : verifyPasses r = true ↔ ∀ x ∈ r.data ++ r.spare, x.2 = 0xFF := by
  simp only [verifyPasses, Bool.and_eq_true, List.all_eq_true, decide_eq_true_iff, List.forall_mem_append]

end PortEnds

/-- Settles O50: a program, an erase and a verify end by their outcomes. -/
theorem portOperationsEnd : Obligations.PortOperationsEnd := by
  intro ok r s power
  refine ⟨fun handle block second physical flight => ⟨?_, fun bad p image live => ⟨?_, ?_⟩, fun bad closed => ?_⟩,
    fun block physical w flight held => ⟨fun weak => ?_, fun strong good => ?_, fun strong bad => ?_⟩,
    fun block physical w flight held => ⟨fun weak => ?_, fun strong good => ?_, fun strong bad => ?_⟩,
    fun block physical idle => ⟨fun flight => (exec_eraseComplete power flight).2 idle,
      fun flight => (exec_verifyComplete power flight).2 idle⟩⟩
  · rintro rfl
    rw [exec_programComplete power flight, endProgram_ok]
    rfl
  · rintro rfl
    rw [exec_programComplete power flight, bad, endProgram_live (readJobLive_iff.mpr live) image]
    rfl
  · rintro rfl
    rw [exec_programComplete power flight, bad, endProgram_live (readJobLive_iff.mpr live) image]
    rfl
  · have dead : readJobLive s handle = false := by
      rw [← Bool.not_eq_true, readJobLive_iff]
      rintro ⟨j, named, live⟩
      rw [closed j named] at live
      cases live
    rw [exec_programComplete power flight, bad, endProgram_closed dead]
    rfl
  · rw [(exec_eraseComplete power flight).1 w held, endErase_weak (s := endPortFlight s) weak]
    rfl
  · rw [(exec_eraseComplete power flight).1 w held, endErase_ends (s := endPortFlight s) strong, if_pos good]
    rfl
  · rw [(exec_eraseComplete power flight).1 w held, endErase_ends (s := endPortFlight s) strong, bad]
    rfl
  · rw [(exec_verifyComplete power flight).1 w held, endVerify_weak (s := endPortFlight s) weak]
    rfl
  · rw [(exec_verifyComplete power flight).1 w held, endVerify_ends (s := endPortFlight s) strong,
      if_pos (verifyPasses_iff.mpr good)]
    rfl
  · obtain ⟨x, mem, wrong⟩ := bad
    rw [(exec_verifyComplete power flight).1 w held, endVerify_ends (s := endPortFlight s) strong,
      if_neg fun good => wrong (verifyPasses_iff.mp good x mem)]
    rfl

end Sys2Proof.Machine

/-! PROOFS. O44: the order of the media port and of the cartridge bus, and what the start of their work fixes. -/

namespace Sys2Proof.Machine

/-! ### The choice of the port's next operation (R126) -/

section Choose

variable {s : State} {op : PortOp} {c : Nat}

/-- The first eligible operation of a class. -/
def firstOf (s : State) (c : Nat) : Option PortOp := s.smc.ops.find? fun op => decide (eligible s op = true ∧ decide (classOf op = c) = true)

theorem chooseOp_eq (s : State) :
    chooseOp s = (firstOf s 1).orElse fun _ => (firstOf s 2).orElse fun _ => firstOf s 3 := by
  simp only [chooseOp, firstOf, List.find?_filter]

theorem classOf_range (op : PortOp) : 1 ≤ classOf op ∧ classOf op ≤ 3 := by
  cases op <;> exact ⟨by simp [classOf], by simp [classOf]⟩

theorem firstOf_none : firstOf s c = none ↔ ∀ op ∈ s.smc.ops, eligible s op = true → classOf op ≠ c := by
  simp [firstOf, List.find?_eq_none]

theorem firstOf_some (found : firstOf s c = some op) : eligible s op = true ∧ classOf op = c
    ∧ ∃ front back, s.smc.ops = front ++ op :: back ∧ ∀ o ∈ front, eligible s o = true → classOf o ≠ c := by
  obtain ⟨own, front, back, split, before⟩ := List.find?_eq_some_iff_append.mp found
  obtain ⟨ready, cls⟩ := of_decide_eq_true own
  refine ⟨ready, of_decide_eq_true cls, front, back, split, fun o mem free => ?_⟩
  simpa [free] using before o mem

/-- The choice is the first of its class, and no lower class has one. -/
theorem chooseOp_some (chosen : chooseOp s = some op) :
    ∃ c, firstOf s c = some op ∧ ∀ d, 1 ≤ d → d < c → firstOf s d = none := by
  rw [chooseOp_eq] at chosen
  cases first : firstOf s 1 with
  | some a =>
    rw [first] at chosen
    obtain rfl := Option.some.inj chosen
    exact ⟨1, first, fun d low less => absurd less (Nat.not_lt.mpr low)⟩
  | none =>
    rw [first] at chosen
    cases second : firstOf s 2 with
    | some a =>
      rw [second] at chosen
      obtain rfl := Option.some.inj chosen
      refine ⟨2, second, fun d low less => ?_⟩
      obtain rfl : d = 1 := by omega
      exact first
    | none =>
      rw [second] at chosen
      refine ⟨3, chosen, fun d low less => ?_⟩
      obtain rfl | rfl : d = 1 ∨ d = 2 := by omega
      · exact first
      · exact second

theorem chooseOp_least (chosen : chooseOp s = some op) :
    eligible s op = true ∧ (∀ o ∈ s.smc.ops, eligible s o = true → classOf op ≤ classOf o)
      ∧ ∃ front back, s.smc.ops = front ++ op :: back ∧ ∀ o ∈ front, eligible s o = true → classOf op < classOf o := by
  obtain ⟨c, found, lower⟩ := chooseOp_some chosen
  obtain ⟨ready, rfl, front, back, split, before⟩ := firstOf_some found
  have least : ∀ o ∈ s.smc.ops, eligible s o = true → classOf op ≤ classOf o := fun o mem free =>
    Nat.not_lt.mp fun less => firstOf_none.mp (lower (classOf o) (classOf_range o).1 less) o mem free rfl
  refine ⟨ready, least, front, back, split, fun o mem free => ?_⟩
  exact Nat.lt_of_le_of_ne (least o (split ▸ List.mem_append_left _ mem) free) (before o mem free).symm

theorem chooseOp_none (idle : chooseOp s = none) (mem : op ∈ s.smc.ops) : eligible s op = false := by
  rw [chooseOp_eq] at idle
  obtain ⟨first, second, third⟩ : firstOf s 1 = none ∧ firstOf s 2 = none ∧ firstOf s 3 = none := by simpa using idle
  rw [← Bool.not_eq_true]
  intro free
  have range := classOf_range op
  have a := firstOf_none.mp first op mem free
  have b := firstOf_none.mp second op mem free
  have c := firstOf_none.mp third op mem free
  omega

theorem eligible_erase {block : Nat} : eligible s (.erase block) = true ↔ s.spm.supply.level ≠ some false := by
  simp [eligible]

theorem inBuffer_false {m : SpoolMedia} {b : Nat} : inBuffer m b = false
    ↔ (∀ f, m.filling = some f → f.block ≠ b) ∧ ∀ f, m.programming = some f → f.block ≠ b := by
  cases filling : m.filling <;> cases programming : m.programming <;> simp [inBuffer, filling, programming]

theorem mem_placeBlocks {p : BandPlace} {b : Nat} : b ∈ placeBlocks p ↔ b = p.block ∨ p.next = some b := by
  simp [placeBlocks]

theorem eligible_read {q : ReadRequest} {j : Job} {p : BandPlace} (named : jobOf s.jt q.handle = some j)
    (place : placeOf s.smc j q.page q.index = some p) : eligible s (.read q) = true ↔ ∀ b, (b = p.block ∨ p.next = some b) →
      (∀ f, s.smc.filling = some f → f.block ≠ b) ∧ ∀ f, s.smc.programming = some f → f.block ≠ b := by
  simp only [eligible, named, Option.bind_some, place, Bool.not_eq_true', List.any_eq_false, mem_placeBlocks, Bool.not_eq_true,
    inBuffer_false]

end Choose

/-! ### The start of an operation (R110, R180) -/

section Start

variable {s : State} {op : PortOp} {f : PortFlight}

theorem startPort_idle (idle : s.smc.inFlight ≠ none ∨ s.fm.part = .halted ∨ chooseOp s = none) : startPort s = none := by
  unfold startPort
  split
  · rfl
  · next free =>
    simp only [Bool.or_eq_true, Option.isSome_iff_ne_none, decide_eq_true_iff, not_or] at free
    obtain ⟨quiet, runs⟩ := free
    rw [(idle.resolve_left quiet).resolve_left runs]

/-- The operation in flight, off the waiting ones. -/
def opStarted (op : PortOp) (f : PortFlight) (s : State) : State :=
  { s with smc := { s.smc with ops := s.smc.ops.erase op, inFlight := some f } }

/-- The programming image under an operation that starts. -/
def withProgramming (p : Option ProgrammingImage) (s : State) : State := { s with smc := { s.smc with programming := p } }

theorem startPort_starts (quiet : s.smc.inFlight = none) (runs : s.fm.part ≠ .halted) (chosen : chooseOp s = some op)
    (flight : flightOf s op = some f) :
    startPort s = some (withProgramming (s.smc.programming.map (programStarted op)) (opStarted op f s)) := by
  have free : ¬ (s.smc.inFlight.isSome || decide (s.fm.part = .halted)) = true := by simp [quiet, runs]
  rw [startPort, if_neg free]
  simp only [chosen, flight]
  rfl

/-- An operation that is no program leaves the image as it is. -/
theorem startPort_other (quiet : s.smc.inFlight = none) (runs : s.fm.part ≠ .halted) (chosen : chooseOp s = some op)
    (flight : flightOf s op = some f) (other : ∀ p, programStarted op p = p) : startPort s = some (opStarted op f s) := by
  have same : s.smc.programming.map (programStarted op) = s.smc.programming := by
    rw [funext other, Option.map_id']
  rw [startPort_starts quiet runs chosen flight, same]
  rfl

theorem flightOf_read {q : ReadRequest} {j : Job} {p : BandPlace} (named : jobOf s.jt q.handle = some j)
    (place : placeOf s.smc j q.page q.index = some p) : flightOf s (.read q)
      = some (.read q p ((p.block :: p.next.toList).map (resolve s.smc.defects)) s.settings.limits.readRetries
        s.settings.limits.weakLimit) := by
  simp only [flightOf, named, Option.bind_some, place, Option.map_some]
  rfl

end Start

/-! ### The start of the bus's work (R86, R100, R101) -/

section Bus

variable {s : State} {item : WorkItem} {rest : List WorkItem}

theorem startBus_busy (busy : s.cbc.flight ≠ none) : startBus s = none := by
  unfold startBus
  split
  · next idle _ => exact absurd idle busy
  · rfl

/-- The list without its head. -/
def headTaken (rest : List WorkItem) (s : State) : State := { s with cbc := { s.cbc with work := rest } }

theorem startBus_head (runs : s.fm.part ≠ .halted) (idle : s.cbc.flight = none) (work : s.cbc.work = item :: rest) :
    startBus s = some (startItem item (headTaken rest s)) := by
  unfold startBus
  split
  · next _ _ _ split =>
    obtain ⟨rfl, rfl⟩ := List.cons.inj (work.symm.trans split)
    exact if_neg runs
  · next other => exact absurd work (other item rest idle)

variable {i : Fin 4} {l : CartLevel}

theorem startItem_writes (level : (s.cbc.slots.get i).level = some l) (verified : holdsVerified (s.cbc.slots.get i) = true)
    (pending : 0 < l.pending) :
    (∀ nonce t, draw16 s = (.ok nonce, t) → startItem (.writeBack i) s
        = { t with cbc := { t.cbc with flight := some (.decrement i l.pending (slotKey t (s.cbc.slots.get i)) nonce) } })
      ∧ ∀ test t, draw16 s = (.error test, t) → startItem (.writeBack i) s = haltPart (.randomSource test .nonce) t := by
  constructor <;> intro _ _ draws <;> simp only [startItem, slotRecord, level] <;>
    refine (if_pos (by simp [verified, pending])).trans ?_ <;> rw [draws]

theorem startItem_nothing (none : holdsVerified (s.cbc.slots.get i) = false
    ∨ ∀ l, (s.cbc.slots.get i).level = some l → l.pending = 0) : startItem (.writeBack i) s = s := by
  cases level : (s.cbc.slots.get i).level with
  | none => simp only [startItem, slotRecord, level]
  | some l =>
    simp only [startItem, slotRecord, level]
    refine if_neg fun due => ?_
    simp only [Bool.and_eq_true, decide_eq_true_iff] at due
    rcases none with h | h
    · rw [h] at due
      cases due.1
    · exact absurd (h l level) (Nat.pos_iff_ne_zero.mp due.2)

/-- A draw leaves the store as it is. -/
theorem draw16_store {t : State} {answer : Except HealthTest Digest} (draws : draw16 s = (answer, t)) : t.ps = s.ps := by
  rw [draw16_eq] at draws
  obtain rfl := (Prod.mk.inj draws).2
  unfold noiseUsed
  dsimp only
  split <;> rfl

/-- R101: the key a write-back goes under. -/
theorem slotKey_after_draw {t : State} {answer : Except HealthTest Digest} (draws : draw16 (headTaken rest s) = (answer, t))
    (c : CartSlot) : slotKey t c = slotKey s c := by
  have store : t.ps = s.ps := (draw16_store draws).trans rfl
  simp only [slotKey, keysOf, store]

end Bus

/-- The bus list takes an item once. -/
theorem busOrder (s : State) (item : WorkItem) (runs : s.fm.part ≠ .halted) :
    (item ∈ s.cbc.work → queueItem item s = s)
      ∧ (item ∉ s.cbc.work → queueItem item s = { s with cbc := { s.cbc with work := s.cbc.work ++ [item] } }) := by
  constructor <;> intro mem <;> rw [queueItem_eq]
  · rw [if_pos (.inr mem)]
  · rw [if_neg (not_or.mpr ⟨runs, mem⟩)]

/-- Settles O44: the port's choice and its start, and the bus list and its start. -/
theorem portAndBusOrder : Obligations.PortAndBusOrder := by
  refine ⟨fun s op => ⟨chooseOp_least, chooseOp_none, fun handle block second => ⟨rfl, rfl, eligible_erase, rfl, rfl, rfl⟩,
      fun q => ⟨rfl, fun j p => eligible_read⟩⟩,
    fun s => ⟨startPort_idle, fun op quiet runs chosen => ⟨?_, ?_, ?_, ?_⟩⟩, fun s item rest runs => ?_⟩
  · rintro q j p rfl named place
    exact startPort_other quiet runs chosen (flightOf_read named place) fun _ => rfl
  · rintro handle block second rfl
    exact startPort_starts quiet runs chosen rfl
  · rintro block rfl
    exact startPort_other quiet runs chosen rfl fun _ => rfl
  · rintro block rfl
    exact startPort_other quiet runs chosen rfl fun _ => rfl
  · obtain ⟨again, fresh⟩ := busOrder s item runs
    refine ⟨again, fresh, startBus_busy, fun idle work => ?_⟩
    have starts := startBus_head runs idle work
    refine ⟨?_, ?_, ?_, ?_, ?_⟩
    · rintro rfl
      exact starts
    · rintro i rfl
      exact starts
    · rintro i l nonce t rfl level verified pending draws
      refine starts.trans (congrArg some (((startItem_writes (s := headTaken rest s) level verified pending).1 nonce t draws).trans ?_))
      rw [slotKey_after_draw draws]
      rfl
    · rintro i l test t rfl level verified pending draws
      exact starts.trans (congrArg some ((startItem_writes (s := headTaken rest s) level verified pending).2 test t draws))
    · rintro i rfl nothing
      exact starts.trans (congrArg some (startItem_nothing (s := headTaken rest s) nothing))

end Sys2Proof.Machine

/-! PROOFS. O57: power, reset and restart begin a start-up. -/

namespace Sys2Proof.Machine
open Host (Outcome)

section Power

variable {s : State} {tag : Byte}

theorem exec_resetInput (cut : StoreCut) (on : s.powered = true) :
    exec (.resetInput cut) s = .next (beginStartUp false none [] { s with ps := cutStore cut s.ps }) :=
  congrArg Outcome.next (if_pos on)

theorem exec_powerLoss (cut : StoreCut) (on : s.powered = true) : exec (.powerLoss cut) s = .next (losePower cut s) :=
  congrArg Outcome.next (if_pos on)

/-- R184: a RESTART of a part past its start-up reaches its owner. -/
theorem request_restart (on : s.powered = true) (room : unreadReplies s.lif < 8) (past : s.fm.part ≠ .starting)
    {owner : State → Answer} {status : Status} {t : State}
    (answer : owner s = { status := status, payload := .empty, state := t }) :
    request .restart tag owner s = answered .restart tag status .empty t := by
  rw [request_served on past room rfl, answer]

theorem restartWipe_halted (halted : s.fm.part = .halted) : restartWipe tag s = restartWith true tag s := if_pos halted

theorem restartWipe_running (runs : s.fm.part = .running) : restartWipe tag s = refuse .wrongState s :=
  if_neg (by simp [runs])

/-- R181: what the beginning of a start-up leaves. -/
theorem beginStartUp_leaves (wipe : Bool) (tag : Option Byte) (kept : List Entry) (s : State) :
    let t := beginStartUp wipe tag kept s
    t.startUp = some { step := 1, wipe := wipe, tag := tag } ∧ nowMs t = 0 ∧ t.fm = {} ∧ t.jt = { waiting := s.jt.waiting }
      ∧ t.accounts = [] ∧ t.settings = {} ∧ t.cbc = {} ∧ t.smc = {} ∧ t.se = {} ∧ (∀ i : Fin 64, t.bc.keys.get i = none)
      ∧ t.bc.serving = false ∧ t.bc.health = {} ∧ t.bc.stuck = s.bc.stuck
      ∧ t.spm.sheets = [] ∧ t.spm.staging = [] ∧ t.spm.requestPending = false ∧ t.spm.feedPermit = false
      ∧ t.spm.jammed = false ∧ t.spm.jam = none ∧ t.spm.doorOpen = false ∧ t.spm.engineOut = none
      ∧ (∀ ch, channelOf t.spm ch = { input := (channelOf s.spm ch).input, above := none, level := none, since := none })
      ∧ t.ps = { s.ps with loadedKeys := none, results := {}, journal := [] }
      ∧ t.lif.out = kept ∧ t.lif.attn = !kept.isEmpty ∧ t.lif.overrun = false ∧ t.lif.frameErrors = 0 ∧ t.lif.dropped = 0
      ∧ t.pending = s.pending ∧ t.lif.transfer = s.lif.transfer.map (fun x => { x with cut := true }) := by
  have keys : ∀ i : Fin 64, (Vector.replicate 64 (none : Option LiveKey)).get i = none := fun i => by
    simp [Vector.get_eq_getElem]
  exact ⟨rfl, Nat.zero_div _, rfl, rfl, rfl, rfl, rfl, rfl, rfl, keys, rfl, rfl, rfl, rfl, rfl, rfl, rfl, rfl, rfl, rfl, rfl,
    fun ch => by cases ch <;> rfl, rfl, rfl, rfl, rfl, rfl, rfl, rfl, rfl⟩

end Power

/-! ### A cut among the store writes (R171) -/

section Cut

variable {ps : Store}

theorem cutStore_empty (cut : StoreCut) (none : ps.journal = []) : cutStore cut ps = ps := by
  have whole : { ps with journal := [] } = ps := by rw [← none]
  cases torn : cut.torn <;> simp [cutStore, none, torn, whole]

/-- A store with a journal of writes. -/
def journaled (l : List StoreWrite) (ps : Store) : Store := { ps with journal := l }

/-- A store after the write the cut falls within. -/
def tornAfter (ps : Store) (torn : Option StoreWrite) : Store := journaled [] (torn.elim ps (tearWrite ps))

/-- What writes are undone does not depend on the journal. -/
theorem undone_journaled (ws l : List StoreWrite) (ps : Store) :
    ws.foldl undoWrite (journaled l ps) = journaled l (ws.foldl undoWrite ps) := by
  induction ws generalizing ps with
  | nil => rfl
  | cons w later ih =>
    have once : undoWrite (journaled l ps) w = journaled l (undoWrite ps w) := by cases w <;> rfl
    rw [List.foldl_cons, once, ih, List.foldl_cons]

theorem tornAfter_journaled (l : List StoreWrite) (ps : Store) (torn : Option StoreWrite) :
    tornAfter (journaled l ps) torn = tornAfter ps torn := by
  rcases torn with _ | w
  · rfl
  · cases w <;> rfl

theorem cutStore_cons {w : StoreWrite} {rest : List StoreWrite} (n : Nat) (torn : Bool) (begun : ps.journal = w :: rest) :
    cutStore { undone := 0, torn := false } ps = { ps with journal := [] }
      ∧ cutStore { undone := 0, torn := true } ps = { tearWrite ps w with journal := [] }
      ∧ cutStore { undone := n + 1, torn := torn } ps
        = cutStore { undone := n, torn := torn } { undoWrite ps w with journal := rest } := by
  refine ⟨by simp [cutStore], by simp [cutStore, begun], ?_⟩
  have left : cutStore { undone := n + 1, torn := torn } ps
      = tornAfter ((rest.take n).foldl undoWrite (undoWrite ps w)) (if torn then (rest.drop n).head? else none) := by
    unfold cutStore
    rw [begun]
    rfl
  have right : cutStore { undone := n, torn := torn } (journaled rest (undoWrite ps w))
      = tornAfter ((rest.take n).foldl undoWrite (journaled rest (undoWrite ps w))) (if torn then (rest.drop n).head? else none) :=
    rfl
  rw [undone_journaled, tornAfter_journaled] at right
  exact left.trans right.symm

end Cut

/-- Settles O57: POWER_ON, RESET_INPUT, POWER_LOSS and RESTART begin a start-up, and a cut among the store's writes. -/
theorem powerAndRestart : Obligations.PowerAndRestart := by
  refine ⟨fun s => rfl, fun cut s on => ⟨exec_resetInput cut on, exec_powerLoss cut on⟩, fun tag s on room past => ⟨?_, ?_, ?_⟩,
    beginStartUp_leaves, fun ps cut => cutStore_empty cut, fun ps w rest n torn => cutStore_cons n torn,
    fun _ _ => ⟨rfl, rfl, rfl⟩, fun _ _ => ⟨rfl, rfl, rfl⟩, fun _ _ => ⟨rfl, rfl, rfl⟩, fun _ _ => ⟨rfl, rfl, rfl⟩,
    fun _ _ => ⟨rfl, rfl, rfl⟩, fun _ _ => ⟨rfl, rfl, rfl⟩⟩
  · exact congrArg Outcome.next (request_restart on room past rfl)
  · exact fun halted => congrArg Outcome.next (request_restart on room past (restartWipe_halted halted))
  · exact fun runs => congrArg Outcome.next (request_restart on room past (restartWipe_running runs))

end Sys2Proof.Machine

/-! PROOFS. O58: the seven steps of a start-up. -/

namespace Sys2Proof.Machine
open Host (Outcome)

/-! ### The end of a step (R182) -/

section Steps

variable {u : StartUp} {finding : StepFinding} {s : State}

theorem exec_startUpStepEnd (on : s.powered = true) (up : s.startUp = some u) :
    exec (.startUpStepEnd finding) s = .next (endStep u finding s) := by
  change execStartUpStepEnd finding s = _
  simp only [execStartUpStepEnd, up, if_pos on]

theorem toStep_some (up : s.startUp = some u) (n : Nat) : toStep n s = { s with startUp := some { u with step := n } } := by
  simp only [toStep, up, Option.map_some]

/-- R164: a halt ends the start-up. -/
theorem haltPart_ends (cause : HaltCause) (runs : s.fm.part ≠ .halted) : (haltPart cause s).startUp = none := by
  have entered : ∀ e t : State, e.startUp = none → Reach e t → t.startUp = none := fun e t off reach => by
    rcases (reach.moves (L := False)).keepsStage with ⟨startUp, -⟩ | ⟨startUp, -⟩
    · exact startUp.trans off
    · exact startUp
  rw [haltPart_eq cause runs]
  change (reportStartUp true s.startUp (endSanitize true (haltedStopped (haltedJobs s)))).startUp = none
  refine entered _ _ ?_ ((reach_reportStartUp true s.startUp _).via (reach_endSanitize true _))
  refine entered _ _ ?_ ((reach_stopSpool _).via ((reach_clearBus _).via ((reach_releaseAll _).via (reach_withJobs (haltedJobs s) _))))
  exact entered _ _ rfl ((reach_tellFinal (cutShort s.jt) _).via
    (Chains.foldl (fun h => reach_closeByHalt h) (((allJobs s.jt).filter isLive).map (·.handle)) _))

end Steps

/-! ### Checks of partitions (R172, R173) -/

section Checks

variable {α : Type} {form : α → Content} {p : Partition α} {id : PartitionId} {damaged : List PartitionId}

theorem checkPartition_fails (fails : Fails form (id ∈ damaged) p) : checkPartition form (damaged.contains id) p = .failed := by
  rcases fails with rfl | ⟨content, word, rfl, bad⟩
  · rfl
  · exact if_pos (by simpa using bad)

theorem checkPartition_holds {content : α} (held : p = written form content) (sound : id ∉ damaged) :
    checkPartition form (damaged.contains id) p = .passed content := by
  subst held
  exact if_neg (by simpa using sound)

theorem contentOf_stands {empty content : α} (stands : Stands form p empty content) : contentOf empty p = content := by
  rcases stands with rfl | ⟨rfl, rfl⟩ <;> rfl

end Checks

section Partitions

variable {damaged : List PartitionId} {after : State → State} {s : State}

/-- The result of a check noted for one partition. -/
theorem checkHalt_cases :
    (Fails .halt (.halt ∈ damaged) s.ps.halt →
        checkHalt damaged s = noteResult (fun r => { r with halt := some .recorded }) (askPart (setHaltRecord lostHaltRecord s)))
      ∧ (s.ps.halt = .blank → checkHalt damaged s = noteResult (fun r => { r with halt := some .blank }) s)
      ∧ (∀ h, s.ps.halt = written .halt h → .halt ∉ damaged → checkHalt damaged s
          = noteResult (fun r => { r with halt := some .passed }) { s with fm := { s.fm with haltRecord := some h } }) := by
  refine ⟨fun fails => ?_, fun blank => ?_, fun h held sound => ?_⟩
  · simp only [checkHalt, checkPartition_fails fails]
  · simp only [checkHalt, blank, checkPartition]
  · simp only [checkHalt, checkPartition_holds held sound]

theorem checkSettings_cases :
    (Fails .settings (.settings ∈ damaged) s.ps.settings → checkSettings damaged s = takeInitialLevels
        (noteResult (fun r => { r with settings := some .defaults }) (raiseNote .settingsRestored (setSettings {} s))))
      ∧ (s.ps.settings = .blank → checkSettings damaged s = takeInitialLevels
        (noteResult (fun r => { r with settings := some .blank }) (setSettings {} s)))
      ∧ (∀ g, s.ps.settings = written .settings g → .settings ∉ damaged → checkSettings damaged s = takeInitialLevels
        (noteResult (fun r => { r with settings := some .passed }) { s with settings := g })) := by
  refine ⟨fun fails => ?_, fun blank => ?_, fun g held sound => ?_⟩
  · simp only [checkSettings, checkPartition_fails fails]
  · simp only [checkSettings, blank, checkPartition]
  · simp only [checkSettings, checkPartition_holds held sound]

theorem checkHistory_cases :
    (Fails .history (.history ∈ damaged) s.ps.history → checkHistory damaged s
        = noteResult (fun r => { r with history := some .emptied }) (raiseNote .historyCleared (setHistory [] 0 s)))
      ∧ (s.ps.history = .blank → checkHistory damaged s = noteResult (fun r => { r with history := some .blank }) s)
      ∧ (∀ h, s.ps.history = written .history h → .history ∉ damaged → checkHistory damaged s
          = noteResult (fun r => { r with history := some .passed }) s) := by
  refine ⟨fun fails => ?_, fun blank => ?_, fun h held sound => ?_⟩
  · simp only [checkHistory, checkPartition_fails fails]
  · simp only [checkHistory, blank, checkPartition]
  · simp only [checkHistory, checkPartition_holds held sound]

theorem checkAccounts_cases :
    (Fails .accounts (.accounts ∈ damaged) s.ps.accounts → checkAccounts damaged after s = haltPart (.storeCheck .accounts) s)
      ∧ (s.ps.accounts = .blank →
        checkAccounts damaged after s = after (noteResult (fun r => { r with accounts := some .blank }) s))
      ∧ (∀ table, s.ps.accounts = written .accounts table → .accounts ∉ damaged →
        checkAccounts damaged after s = after (noteResult (fun r => { r with accounts := some .passed }) s)) := by
  refine ⟨fun fails => ?_, fun blank => ?_, fun h held sound => ?_⟩
  · simp only [checkAccounts, checkPartition_fails fails, haltOnFailure]
  · simp only [checkAccounts, blank, checkPartition]
  · simp only [checkAccounts, checkPartition_holds held sound]

theorem checkKeys_cases :
    (Fails .keys (.keys ∈ damaged) s.ps.keys → checkKeys damaged after s = haltPart (.storeCheck .keys) s)
      ∧ (s.ps.keys = .blank → checkKeys damaged after s
        = after (noteResult (fun r => { r with keys := some .blank }) { s with ps := { s.ps with loadedKeys := some {} } }))
      ∧ (∀ k, s.ps.keys = written .keys k → .keys ∉ damaged → checkKeys damaged after s
        = after (noteResult (fun r => { r with keys := some .passed }) { s with ps := { s.ps with loadedKeys := some k } })) := by
  refine ⟨fun fails => ?_, fun blank => ?_, fun h held sound => ?_⟩
  · simp only [checkKeys, checkPartition_fails fails, haltOnFailure]
  · simp only [checkKeys, blank, checkPartition]
  · simp only [checkKeys, checkPartition_holds held sound]

theorem checkDefects_cases :
    (Fails .defects (.defects ∈ damaged) s.ps.defects → checkDefects damaged after s = haltPart (.storeCheck .defects) s)
      ∧ (s.ps.defects = .blank →
        checkDefects damaged after s = after (noteResult (fun r => { r with defects := some .blank }) s))
      ∧ (∀ d, s.ps.defects = written .defects d → .defects ∉ damaged →
        checkDefects damaged after s = after (noteResult (fun r => { r with defects := some .passed }) s)) := by
  refine ⟨fun fails => ?_, fun blank => ?_, fun h held sound => ?_⟩
  · simp only [checkDefects, checkPartition_fails fails, haltOnFailure]
  · simp only [checkDefects, blank, checkPartition]
  · simp only [checkDefects, checkPartition_holds held sound]

end Partitions

/-! ### Step 1 of a wipe restart (R184) -/

section Wipe

variable {s : State} {u : StartUp}

/-- R184: the store's partitions ahead of DEFECTS, rewritten. -/
def partitionsBlanked (ps : Store) : Store :=
  writeKeys .blank (writeAccounts .blank (writeHistory .blank
    (writeSettings (written .settings {}) (writeSettings .blank (writeHalt .blank ps)))))

theorem wipeHalt_eq (s : State) : wipeHalt s = { s with
    fm := { s.fm with haltRecord := none }, ps := writeHalt .blank s.ps, lif := (wipeHalt s).lif } := by
  unfold wipeHalt
  dsimp only
  split <;> rfl

theorem wipeHalt_lif : (s.ps.halt = .blank → (wipeHalt s).lif = s.lif)
    ∧ (s.ps.halt ≠ .blank → (wipeHalt s).lif = (askPart { s with fm := { s.fm with haltRecord := none } }).lif) := by
  constructor <;> intro halt <;> unfold wipeHalt <;> dsimp only
  · rw [if_pos halt]
    rfl
  · rw [if_neg halt]
    rfl

theorem wipeDefects_cases {damaged : List PartitionId} {ps : Store} :
    (ps.defects = .blank → wipeDefects (damaged.contains .defects) ps = (.blank, ps))
      ∧ (∀ d, ps.defects = written .defects d → .defects ∉ damaged → wipeDefects (damaged.contains .defects) ps
          = (.passed, writeDefects (written .defects { d with clean := [] }) ps))
      ∧ (Fails .defects (.defects ∈ damaged) ps.defects → wipeDefects (damaged.contains .defects) ps
          = (.wiped, writeDefects .blank ps)) := by
  refine ⟨fun blank => ?_, fun d held sound => ?_, fun fails => ?_⟩
  · simp only [wipeDefects, blank, checkPartition]
  · simp only [wipeDefects, checkPartition_holds held sound]
  · simp only [wipeDefects, checkPartition_fails fails]

/-- R184: the results that a wipe restart notes. -/
def wipedBy (result : CheckResult) : CheckResults :=
  { accounts := some .wiped, defects := some result, settings := some .wiped, history := some .wiped, keys := some .wiped,
    halt := some .wiped }

/-- R184: the state of a wipe restart before it goes on to step 2. -/
def wipedBefore (damaged : List PartitionId) (s : State) : State :=
  let t := wipeHalt s
  let ps := writeKeys .blank (writeAccounts .blank (writeHistory .blank
    (writeSettings (written .settings {}) (writeSettings .blank t.ps))))
  let judged := wipeDefects (damaged.contains .defects) ps
  takeInitialLevels { t with settings := {}, ps := { judged.2 with loadedKeys := some {}, results := wipedBy judged.1 } }

theorem wipeStore_eq (damaged : List PartitionId) (up : s.startUp = some u) :
    let judged := wipeDefects (damaged.contains .defects) (partitionsBlanked s.ps)
    wipeStore damaged s = { s with
      startUp := some { u with step := 2 }
      fm := { s.fm with haltRecord := none }
      lif := (wipeHalt s).lif
      settings := {}
      spm := { s.spm with feed := initialLevel {} s.spm.feed, exit := initialLevel {} s.spm.exit
                          supply := initialLevel { code := 186, filter := .two } s.spm.supply }
      ps := { judged.2 with loadedKeys := some {}, results := wipedBy judged.1 } } := by
  intro judged
  have stepped := toStep_some (s := wipedBefore damaged s) (u := u) ?_ 2
  · refine stepped.trans ?_
    unfold wipedBefore
    rw [wipeHalt_eq]
    rfl
  · unfold wipedBefore
    rw [wipeHalt_eq]
    exact up

end Wipe

/-! ### Step 2: the tests (R141) -/

section Tests

variable {s t v : State} {u : StartUp}

theorem noiseUsed_kept (s : State) (h : Health) :
    (noiseUsed s h).ps = s.ps ∧ (noiseUsed s h).startUp = s.startUp ∧ (noiseUsed s h).fm = s.fm := by
  unfold noiseUsed
  dsimp only
  split <;> exact ⟨rfl, rfl, rfl⟩

theorem draw32_kept {answer : Except HealthTest Key} (draws : draw32 s = (answer, t)) :
    t.ps = s.ps ∧ t.startUp = s.startUp ∧ t.fm = s.fm := by
  rw [draw32_eq] at draws
  obtain rfl := (Prod.mk.inj draws).2
  exact noiseUsed_kept _ _

theorem testSource_kept {answer : Option HealthTest} (tests : testSource s = (answer, t)) :
    t.ps = s.ps ∧ t.startUp = s.startUp ∧ t.fm = s.fm := by
  have used : ∃ h, (testSource s).2 = noiseUsed s h := ⟨_, (takeNoise_health s _).2.1⟩
  obtain ⟨h, used⟩ := used
  rw [tests] at used
  rw [show t = noiseUsed s h from used]
  exact noiseUsed_kept _ _

theorem testSource_delivered {n : Noise} {rest : List Noise} (noise : s.noise = n :: rest) (enough : 4096 ≤ n.samples.length) :
    testSource s =
      let tested := testNoise (n.samples.take 4096) [firstHalf n.output, secondHalf n.output] {}
      (tested.2, { s with noise := rest, bc := { s.bc with health := tested.1 } }) := by
  have samples : ∀ k, startUpSamples k n.samples = n.samples.take 4096 := fun k => by
    have none : Config.testSamples - n.samples.length = 0 := Nat.sub_eq_zero_of_le enough
    rw [startUpSamples, none]
    exact List.append_nil _
  simp only [testSource, takeNoise, noise, samples]

/-- The keys a part serves its draw with are those it holds. -/
def sourceServed (t : State) : State := { t with bc := { t.bc with serving := true } }

theorem runTests_fails {test : HealthTest} (tests : testSource s = (some test, t)) :
    runTests true s = haltPart (.randomSource test .startUpTest) t := by
  simp [runTests, tests]

theorem runTests_passes (tests : testSource s = (none, t)) : runTests true s = toStep 3 (drawDeviceKey (sourceServed t)) := by
  simp only [runTests, tests]
  rfl

theorem drawDeviceKey_held (held : (keysOf s).device ≠ none) : drawDeviceKey s = s :=
  if_pos (Option.isSome_iff_ne_none.mpr held)

theorem drawDeviceKey_draws (missing : (keysOf s).device = none) :
    (∀ key v, draw32 s = (.ok key, v) → drawDeviceKey s = setKeys { keysOf v with device := some key } v)
      ∧ ∀ test v, draw32 s = (.error test, v) → drawDeviceKey s = haltPart (.randomSource test .deviceKey) v := by
  constructor <;> intro _ _ draws <;> simp [drawDeviceKey, missing, draws]

/-- R141: the end of step 2 with the cipher's self-test passed and the source tested. -/
theorem runTests_device (up : s.startUp = some u) (tests : testSource s = (none, t)) (runs : s.fm.part ≠ .halted) :
    ((keysOf s).device ≠ none → runTests true s = { sourceServed t with startUp := some { u with step := 3 } })
      ∧ ((keysOf s).device = none →
        (∀ key v, draw32 (sourceServed t) = (.ok key, v) → runTests true s
          = { setKeys { keysOf s with device := some key } v with startUp := some { u with step := 3 } })
        ∧ ∀ test v, draw32 (sourceServed t) = (.error test, v) →
          runTests true s = haltPart (.randomSource test .deviceKey) v) := by
  obtain ⟨store, startUp, faults⟩ := testSource_kept tests
  have keys : keysOf (sourceServed t) = keysOf s := congrArg (fun ps : Store => ps.loadedKeys.getD {}) store
  rw [runTests_passes tests]
  refine ⟨fun held => ?_, fun missing => ⟨fun key v draws => ?_, fun test v draws => ?_⟩⟩
  · rw [drawDeviceKey_held (keys ▸ held)]
    exact toStep_some (s := sourceServed t) (startUp.trans up) 3
  · obtain ⟨store', startUp', -⟩ := draw32_kept draws
    have same : keysOf v = keysOf s := (congrArg (fun ps : Store => ps.loadedKeys.getD {}) store').trans keys
    rw [(drawDeviceKey_draws (keys ▸ missing)).1 key v draws, same]
    exact toStep_some (s := setKeys { keysOf s with device := some key } v) (startUp'.trans (startUp.trans up)) 3
  · obtain ⟨-, -, faults'⟩ := draw32_kept draws
    have part : v.fm.part ≠ .halted := by
      rw [faults']
      exact fun halted => runs (faults ▸ halted)
    rw [(drawDeviceKey_draws (keys ▸ missing)).2 test v draws]
    exact toStep_none (haltPart_ends _ part) 3

end Tests

end Sys2Proof.Machine

/-! PROOFS. O58: the seven steps of a start-up, assembled. -/

namespace Sys2Proof.Machine
open Host (Outcome)

/-! ### Steps 3 to 7 (R30, R114, R109, R69, R183) -/

section Loads

variable {s : State} {u : StartUp}

theorem loadAccounts_leaves (up : s.startUp = some u) {table : List Account} (stands : Stands .accounts s.ps.accounts [] table) :
    (loadAccounts s).startUp = some { u with step := 4 }
      ∧ (loadAccounts s).accounts = table.map (loadAccount s.settings.limits.lockoutTime)
      ∧ Stands .accounts (loadAccounts s).ps.accounts [] (loadAccounts s).accounts := by
  unfold loadAccounts
  rw [contentOf_stands stands]
  dsimp only
  split
  · next same =>
    rw [toStep_some (s := { s with accounts := table }) up]
    exact ⟨rfl, same.symm, stands⟩
  · rw [toStep_some (s := setAccounts (table.map (loadAccount s.settings.limits.lockoutTime)) s) up]
    exact ⟨rfl, rfl, .inl rfl⟩

/-- R114: the sweep's blocks. -/
def sweepOf (d : Defects) : List Nat := sweepFrom Config.logicalBlocks 0 d.clean d.retired

theorem buildSpool_eq (up : s.startUp = some u) {d : Defects} (stands : Stands .defects s.ps.defects {} d) :
    buildSpool s = { s with
      startUp := some { u with step := 5 }
      smc := { s.smc with defects := d, free := d.clean, sweepCount := (sweepOf d).length }
      se := { s.se with list := (sweepOf d).map fun b => { block := b, origin := .sweep } } } := by
  unfold buildSpool
  rw [contentOf_stands stands]
  exact toStep_some (s := { s with
    smc := { s.smc with defects := d, free := d.clean, sweepCount := (sweepOf d).length }
    se := { s.se with list := (sweepOf d).map fun b => { block := b, origin := .sweep } } }) up 5

theorem sweepOf_spec {d : Defects} (clean : d.clean.Pairwise (· < ·)) (retired : d.retired.Pairwise (· < ·)) :
    (sweepOf d).Pairwise (· < ·) ∧ ∀ b, b ∈ sweepOf d ↔ b < 30720 ∧ b ∉ d.clean ∧ b ∉ d.retired := by
  rw [sweepOf, sweepFrom_eq _ _ clean retired]
  refine ⟨List.Pairwise.filter _ List.pairwise_lt_range', fun b => ?_⟩
  simp [List.mem_filter, List.mem_range', Config.logicalBlocks]

theorem loadCartridges_eq (up : s.startUp = some u) (runs : s.fm.part ≠ .halted) (idle : s.cbc.work = []) {h : HistoryContent}
    (stands : Stands .history s.ps.history {} h) : loadCartridges s = settle { s with
      startUp := some { u with step := 6 }
      cbc := { s.cbc with history := h.entries, lifetime := h.lifetime
                          work := [.resync, .auth 0, .auth 1, .auth 2, .auth 3] } } := by
  unfold loadCartridges
  rw [contentOf_stands stands]
  dsimp only
  rw [queueAll_eq (s := { s with cbc := { s.cbc with history := h.entries, lifetime := h.lifetime } }) runs]
  have fresh : s.cbc.work ++ ([.resync, .auth 0, .auth 1, .auth 2, .auth 3] : List WorkItem).filter
      (fun w => !s.cbc.work.contains w) = [.resync, .auth 0, .auth 1, .auth 2, .auth 3] := by
    rw [idle]
    rfl
  rw [show ({ s.cbc with history := h.entries, lifetime := h.lifetime } : Cartridges).work = s.cbc.work from rfl, fresh]
  refine congrArg settle ?_
  exact toStep_some (u := u) (by exact up) 6

theorem clearPath_eq (up : s.startUp = some u) : clearPath s = { s with
    startUp := some { u with step := 7 }
    spm := { s.spm with jammed := false, jam := none, doorOpen := false } } :=
  toStep_some (s := { s with spm := { s.spm with jammed := false, jam := none, doorOpen := false } }) up 7

/-- R183: the part as RUNNING, with the permit driven. -/
def nowRunning (s : State) : State :=
  { s with startUp := none, fm := { s.fm with part := .running }
           spm := { s.spm with feedPermit := decide (s.spm.jammed = false ∧ s.spm.doorOpen = false
             ∧ s.spm.supply.level = some true ∧ s.fm.backlog = false) } }

theorem evaluatePermit_running (s : State) :
    evaluatePermit { s with startUp := none, fm := { s.fm with part := .running } } = nowRunning s := by
  have permit : permitConditions { s with startUp := none, fm := { s.fm with part := .running } }
      = decide (s.spm.jammed = false ∧ s.spm.doorOpen = false ∧ s.spm.supply.level = some true ∧ s.fm.backlog = false) := by
    rw [Bool.eq_iff_iff, decide_eq_true_iff]
    simp [permitConditions, and_assoc]
  rw [evaluatePermit, permit]
  rfl

/-- R183, R168: the note of a halt before this start-up. -/
def haltNoted (record : Option HaltRecord) (s : State) : State :=
  match record with
  | some h => raiseNote (.previousHalt h) s
  | none => s

theorem enterRunning_eq (up : s.startUp = some u) :
    enterRunning s = settle (reportStartUp false (some u) (askPart (haltNoted s.fm.haltRecord (nowRunning s)))) := by
  unfold enterRunning
  rw [up, evaluatePermit_running]
  rfl

end Loads

/-! ### The check of every partition (R173) -/

/-- The part once HALT, SETTINGS and HISTORY have passed. -/
def firstChecked (g : Settings) (r : HaltRecord) (path : SheetPath) (s : State) : State :=
  { s with settings := g, fm := { s.fm with haltRecord := some r }, spm := path
           ps := { s.ps with results := { s.ps.results with halt := some .passed, settings := some .passed, history := some .passed } } }

theorem takeInitialLevels_frame (s : State) : takeInitialLevels s = { s with spm := (takeInitialLevels s).spm } := rfl

theorem checked_first {g : Settings} {h : HistoryContent} {r : HaltRecord} {s : State} (settings : s.ps.settings = written .settings g)
    (history : s.ps.history = written .history h) (halt : s.ps.halt = written .halt r) :
    ∃ path, checkHistory [] (checkSettings [] (checkHalt [] s)) = firstChecked g r path s := by
  have absent {id : PartitionId} : id ∉ ([] : List PartitionId) := List.not_mem_nil
  rw [checkHalt_cases.2.2 r halt absent]
  have settings' : (noteResult (fun c => { c with halt := some .passed })
      { s with fm := { s.fm with haltRecord := some r } }).ps.settings = written .settings g := settings
  rw [checkSettings_cases.2.2 g settings' absent, takeInitialLevels_frame]
  generalize (takeInitialLevels _).spm = path
  exact ⟨path, checkHistory_cases.2.2 h history absent⟩

theorem checked_last {a : List Account} {d : Defects} {k : KeysContent} {u : StartUp} {v : State} (up : v.startUp = some u)
    (accounts : v.ps.accounts = written .accounts a) (keys : v.ps.keys = written .keys k)
    (defects : v.ps.defects = written .defects d) :
    checkAccounts [] (checkKeys [] (checkDefects [] (toStep 2))) v = { v with
      startUp := some { u with step := 2 }
      ps := { v.ps with loadedKeys := some k
                        results := { v.ps.results with accounts := some .passed, keys := some .passed, defects := some .passed } } } := by
  have absent {id : PartitionId} : id ∉ ([] : List PartitionId) := List.not_mem_nil
  rw [checkAccounts_cases.2.2 a accounts absent, checkKeys_cases.2.2 k (by exact keys) absent,
    checkDefects_cases.2.2 d (by exact defects) absent, toStep_some (u := u) (by exact up)]
  rfl

/-- Results of checks that all passed. -/
theorem checkStore_passed {u : StartUp} {a : List Account} {d : Defects} {g : Settings} {h : HistoryContent} {k : KeysContent}
    {r : HaltRecord} {s : State} (up : s.startUp = some u) (accounts : s.ps.accounts = written .accounts a)
    (defects : s.ps.defects = written .defects d) (settings : s.ps.settings = written .settings g)
    (history : s.ps.history = written .history h) (keys : s.ps.keys = written .keys k) (halt : s.ps.halt = written .halt r) :
    let t := checkStore [] s
    t.startUp = some { u with step := 2 } ∧ t.settings = g ∧ t.fm = { s.fm with haltRecord := some r }
      ∧ t.ps = { s.ps with loadedKeys := some k, results := {
          accounts := some .passed, defects := some .passed, settings := some .passed, history := some .passed
          keys := some .passed, halt := some .passed } } := by
  obtain ⟨path, first⟩ := checked_first settings history halt
  unfold checkStore
  rw [first, checked_last (v := firstChecked g r path s) up accounts keys defects]
  exact ⟨rfl, rfl, rfl, rfl⟩

/-! ### The checks one by one (R172, R173) -/

section OneByOne

variable (damaged : List PartitionId) (after : State → State) (s : State)

/-- R173: HALT by its check. -/
theorem checkHalt_spec :
    let lost : HaltRecord := { cause := .storeCheck .halt, phase := .starting, instant := 0, jobsClosed := 0, halts := 1 }
    (Fails .halt (.halt ∈ damaged) s.ps.halt →
        let t := checkHalt damaged s
        t.fm = { s.fm with haltRecord := some lost } ∧ t.ps.halt = written .halt lost ∧ t.ps.results.halt = some .recorded
          ∧ t.lif = (askPart { s with fm := { s.fm with haltRecord := some lost } }).lif)
      ∧ (s.ps.halt = .blank → checkHalt damaged s = { s with
          ps := { s.ps with results := { s.ps.results with halt := some .blank } } })
      ∧ (∀ h, s.ps.halt = written .halt h → .halt ∉ damaged → checkHalt damaged s = { s with
          fm := { s.fm with haltRecord := some h }
          ps := { s.ps with results := { s.ps.results with halt := some .passed } } }) := by
  refine ⟨fun fails => ?_, checkHalt_cases.2.1, checkHalt_cases.2.2⟩
  rw [checkHalt_cases.1 fails]
  exact ⟨rfl, rfl, rfl, rfl⟩

/-- R173, R172, R49: SETTINGS by its check, and the levels the channels take. -/
theorem checkSettings_spec :
    (Fails .settings (.settings ∈ damaged) s.ps.settings →
        let t := checkSettings damaged s
        let noted := raiseNote .settingsRestored s
        t.settings = {} ∧ t.ps.settings = written .settings {} ∧ t.ps.results.settings = some .defaults
          ∧ t.fm = noted.fm ∧ t.lif = noted.lif)
      ∧ (s.ps.settings = .blank →
        let t := checkSettings damaged s
        t.settings = {} ∧ t.ps.settings = written .settings {} ∧ t.ps.results.settings = some .blank ∧ t.fm = s.fm
          ∧ t.lif = s.lif)
      ∧ (∀ g, s.ps.settings = written .settings g → .settings ∉ damaged →
        let t := checkSettings damaged s
        t = { s with settings := g, spm := t.spm
                     ps := { s.ps with results := { s.ps.results with settings := some .passed } } }) := by
  refine ⟨fun fails => ?_, fun blank => ?_, fun g held sound => ?_⟩
  · rw [checkSettings_cases.1 fails]
    exact ⟨rfl, rfl, rfl, rfl, rfl⟩
  · rw [checkSettings_cases.2.1 blank]
    exact ⟨rfl, rfl, rfl, rfl, rfl⟩
  · rw [checkSettings_cases.2.2 g held sound]
    rfl

theorem checkSettings_levels :
    let t := checkSettings damaged s
    t.spm = { s.spm with feed := initialLevel t.settings.feed s.spm.feed
                         exit := initialLevel t.settings.exit s.spm.exit
                         supply := initialLevel t.settings.supply s.spm.supply } := by
  unfold checkSettings
  split <;> rfl

/-- R173: HISTORY by its check. -/
theorem checkHistory_spec :
    (s.ps.history = .blank → checkHistory damaged s = { s with
        ps := { s.ps with results := { s.ps.results with history := some .blank } } })
      ∧ (∀ h, s.ps.history = written .history h → .history ∉ damaged → checkHistory damaged s = { s with
        ps := { s.ps with results := { s.ps.results with history := some .passed } } })
      ∧ (Fails .history (.history ∈ damaged) s.ps.history →
        let t := checkHistory damaged s
        let noted := raiseNote .historyCleared s
        t.cbc.history = [] ∧ t.cbc.lifetime = 0 ∧ t.ps.history = written .history { entries := [], lifetime := 0 }
          ∧ t.ps.results.history = some .emptied ∧ t.fm = noted.fm ∧ t.lif = noted.lif) := by
  refine ⟨checkHistory_cases.2.1, checkHistory_cases.2.2, fun fails => ?_⟩
  rw [checkHistory_cases.1 fails]
  exact ⟨rfl, rfl, rfl, rfl, rfl, rfl⟩

end OneByOne

/-! ### The steps (R182) -/

section EachStep

variable {u : StartUp} {finding : StepFinding} {s : State} (on : s.powered = true) (up : s.startUp = some u)
include on up

theorem step_ends {n : Nat} (step : u.step = n) :
    exec (.startUpStepEnd finding) s = .next (endStep { u with step := n } finding s) := by
  rw [exec_startUpStepEnd on up, ← step]

/-- R184: step 1 of a wipe restart. -/
theorem step_wipe (step : u.step = 1) (wipe : u.wipe = true) : ∃ t result, exec (.startUpStepEnd finding) s = .next t
    ∧ t.startUp = some { u with step := 2 } ∧ t.settings = {} ∧ t.ps.settings = written .settings {}
    ∧ t.ps.accounts = .blank ∧ t.ps.history = .blank ∧ t.ps.keys = .blank ∧ t.ps.halt = .blank
    ∧ t.fm.haltRecord = none ∧ t.fm.notes = s.fm.notes ∧ t.ps.loadedKeys = some {} ∧ t.se = s.se
    ∧ t.ps.results = { accounts := some .wiped, defects := some result, settings := some .wiped
                       history := some .wiped, keys := some .wiped, halt := some .wiped }
    ∧ (s.ps.defects = .blank → t.ps.defects = .blank ∧ result = .blank)
    ∧ (∀ d, s.ps.defects = written .defects d → .defects ∉ finding.damaged →
        t.ps.defects = written .defects { d with clean := [] } ∧ result = .passed)
    ∧ (Fails .defects (.defects ∈ finding.damaged) s.ps.defects → t.ps.defects = .blank ∧ result = .wiped)
    ∧ (s.ps.halt = .blank → t.lif = s.lif)
    ∧ (s.ps.halt ≠ .blank → t.lif = (askPart { s with fm := { s.fm with haltRecord := none } }).lif)
    ∧ t.spm = { s.spm with
        feed := initialLevel {} s.spm.feed, exit := initialLevel {} s.spm.exit
        supply := initialLevel { code := 186, filter := .two } s.spm.supply } := by
  have ends : exec (.startUpStepEnd finding) s = .next (wipeStore finding.damaged s) := by
    rw [step_ends on up step]
    exact congrArg Outcome.next (if_pos wipe)
  obtain ⟨blank, passed, failed⟩ := wipeDefects_cases (damaged := finding.damaged) (ps := partitionsBlanked s.ps)
  refine ⟨wipeStore finding.damaged s, (wipeDefects (finding.damaged.contains .defects) (partitionsBlanked s.ps)).1, ends, ?_⟩
  rw [wipeStore_eq finding.damaged up]
  obtain ⟨settings, halt, keys, accounts, history⟩ := wipeDefects_frame (finding.damaged.contains .defects) (partitionsBlanked s.ps)
  exact ⟨rfl, rfl, settings, accounts, history, keys, halt, rfl, rfl, rfl, rfl, rfl,
    fun h => ⟨by rw [blank h]; exact h, by rw [blank h]⟩,
    fun d h sound => ⟨by rw [passed d h sound]; rfl, by rw [passed d h sound]⟩,
    fun h => ⟨by rw [failed h]; rfl, by rw [failed h]⟩, wipeHalt_lif.1, wipeHalt_lif.2, rfl⟩

/-- R141: step 2. -/
theorem step_tests (step : u.step = 2) :
    (finding.cipherOk = false → exec (.startUpStepEnd finding) s = .next (haltPart (.cipherSelftest .startUp) s))
      ∧ (finding.cipherOk = true → exec (.startUpStepEnd finding) s = .next (runTests true s)) := by
  rw [step_ends on up step]
  exact ⟨fun bad => congrArg Outcome.next (if_pos (by simp [bad])), fun good => congrArg (fun ok => Outcome.next (runTests ok s)) good⟩

/-- R30: step 3. -/
theorem step_accounts (step : u.step = 3) {table : List Account} (stands : Stands .accounts s.ps.accounts [] table) :
    ∃ t, exec (.startUpStepEnd finding) s = .next t ∧ t.startUp = some { u with step := 4 }
      ∧ t.accounts = table.map (loadAccount s.settings.limits.lockoutTime) ∧ Stands .accounts t.ps.accounts [] t.accounts :=
  ⟨loadAccounts s, step_ends on up step, loadAccounts_leaves up stands⟩

/-- R114: step 4. -/
theorem step_spool (step : u.step = 4) {d : Defects} (stands : Stands .defects s.ps.defects {} d)
    (clean : d.clean.Pairwise (· < ·)) (retired : d.retired.Pairwise (· < ·)) :
    ∃ t, exec (.startUpStepEnd finding) s = .next t ∧ t.startUp = some { u with step := 5 } ∧ t.smc.free = d.clean
      ∧ t.smc.defects = d ∧ t.smc.sweepCount = t.se.list.length
      ∧ (∀ e ∈ t.se.list, e.origin = .sweep) ∧ (t.se.list.map (·.block)).Pairwise (· < ·)
      ∧ ∀ b, b ∈ t.se.list.map (·.block) ↔ b < 30720 ∧ b ∉ d.clean ∧ b ∉ d.retired := by
  obtain ⟨sorted, members⟩ := sweepOf_spec clean retired
  have blocks : ((sweepOf d).map fun b => ({ block := b, origin := .sweep } : ScrubEntry)).map (·.block) = sweepOf d := by
    rw [List.map_map]
    exact List.map_id _
  refine ⟨buildSpool s, step_ends on up step, ?_⟩
  rw [buildSpool_eq up stands]
  refine ⟨rfl, rfl, rfl, by simp, fun e mem => ?_, blocks.symm ▸ sorted, fun b => blocks.symm ▸ members b⟩
  obtain ⟨b, -, rfl⟩ := List.mem_map.mp mem
  rfl

/-- R183: step 7. -/
theorem step_running (step : u.step = 7) : exec (.startUpStepEnd finding) s
    = .next (settle (reportStartUp false (some u) (askPart (haltNoted s.fm.haltRecord (nowRunning s))))) := by
  rw [step_ends on up step, ← enterRunning_eq up]
  rfl

end EachStep

/-- R30: the standing of a loaded account. -/
theorem loadAccount_eq (minutes : Nat) (a : Account) : loadAccount minutes a = { a with
    reserved := 0
    standing := match a.standing with
      | .lockedOut _ => .lockedOut (minutes * 60)
      | .active => .active
      | .suspended => .suspended } := by
  unfold loadAccount
  cases a.standing <;> rfl

/-- Settles O58: each step of a start-up at its end, and the checks of the store. -/
theorem startUpSteps : Obligations.StartUpSteps := by
  refine ⟨fun u finding s on up => ⟨fun step wipe => ?_, step_wipe on up, fun step bad => (step_tests on up step).1 bad,
      fun step good => ⟨fun test t tests => ?_, fun t tests runs => ?_⟩, fun step table stands => ?_,
      fun step d stands clean retired => step_spool on up step stands clean retired, fun step runs idle h stands => ?_,
      fun step => ?_, fun step => ?_⟩,
    fun n rest s noise enough => testSource_delivered noise enough,
    fun u a d g h k r s up accounts defects settings history keys halt =>
      checkStore_passed up accounts defects settings history keys halt, fun damaged after s => ?_⟩
  · rw [step_ends on up step]
    exact congrArg Outcome.next (if_neg (by simp [wipe]))
  · rw [(step_tests on up step).2 good, runTests_fails tests]
  · obtain ⟨held, missing⟩ := runTests_device up tests runs
    rw [(step_tests on up step).2 good]
    exact ⟨fun device => congrArg Outcome.next (held device), fun none => ⟨fun key v draws =>
      congrArg Outcome.next ((missing none).1 key v draws), fun test v draws => congrArg Outcome.next ((missing none).2 test v draws)⟩⟩
  · obtain ⟨t, ends, startUp, loaded, stored⟩ := step_accounts on up step stands
    exact ⟨t, ends, startUp, loaded.trans (List.map_congr_left fun a _ => loadAccount_eq _ a), stored⟩
  · rw [step_ends on up step]
    exact congrArg Outcome.next (loadCartridges_eq up runs idle stands)
  · rw [step_ends on up step]
    exact congrArg Outcome.next (clearPath_eq up)
  · rw [step_running on up step]
    cases tag : u.tag <;> cases s.fm.haltRecord <;> simp only [reportStartUp, Option.bind_some, tag] <;> rfl
  · obtain ⟨h1, h2, h3⟩ := checkHalt_spec damaged s
    obtain ⟨g1, g2, g3⟩ := checkSettings_spec damaged s
    obtain ⟨i1, i2, i3⟩ := checkHistory_spec damaged s
    obtain ⟨a1, a2, a3⟩ := checkAccounts_cases (damaged := damaged) (after := after) (s := s)
    obtain ⟨k1, k2, k3⟩ := checkKeys_cases (damaged := damaged) (after := after) (s := s)
    obtain ⟨d1, d2, d3⟩ := checkDefects_cases (damaged := damaged) (after := after) (s := s)
    exact ⟨rfl, h1, h2, h3, i1, i2, g1, g2, g3, checkSettings_levels damaged s, i3, a1, k1, d1, a2, k2, d2, a3, k3, d3⟩

end Sys2Proof.Machine

/-! PROOFS. O47: bands from the intake link, and the stall timer. -/

namespace Sys2Proof.Machine
open Host (Outcome)

/-! ### The held band at a close (R25) -/

section Held

variable {outcome : JobOutcome} {handle : Nat} {j : Job} {s : State}

theorem reviewTimer_held (s : State) : (reviewTimer s).jt.held = s.jt.held := by
  unfold reviewTimer
  split <;> rfl

theorem closeImages_held (handle : Nat) (s : State) : (closeImages handle s).jt.held = s.jt.held := by
  have first : (dropFilling handle s).jt.held = s.jt.held := by
    unfold dropFilling
    split <;> rfl
  rw [← first]
  change (match (dropFilling handle s).smc.programming with | some q => _ | none => _ : State).jt.held = _
  split
  · split
    · split
      · rfl
      · rfl
      · exact reviewTimer_held _
    · rfl
  · rfl

theorem leavePlace_held (j : Job) (s : State) : (leavePlace j s).jt.held = s.jt.held := by
  unfold leavePlace unqueue leaveActive
  split
  · cases destinationOf j.kind <;> rfl
  · cases destinationOf j.kind <;> rfl
  · rfl

theorem discardHeld_held (handle : Nat) (s : State) :
    (discardHeld handle s).jt.held = if s.jt.held.any (·.band.handle = handle) then none else s.jt.held := by
  unfold discardHeld
  split
  · exact reviewTimer_held _
  · rfl

theorem closedUp_held : (closedUp outcome handle j s).jt.held = s.jt.held := by
  change (closedLeft handle j s).jt.held = _
  rw [closedLeft, leavePlace_held]
  exact closeImages_held handle _

theorem aside_jobClosed (handle : Nat) (wasDraining : Bool) (s : State) : aside (jobClosed handle wasDraining s) = aside s := by
  rw [jobClosed_eq]
  refine aside_foldl (fun u i => ?_) cartSlots s
  rw [closedAtSlot_eq]
  rfl

theorem noteClosed_held (handle : Nat) (s : State) : (noteClosed handle s).jt.held = s.jt.held := rfl

theorem closeCore_held (found : jobOf s.jt handle = some j) (live : isLive j = true) :
    (closeCore outcome handle s).jt.held = if s.jt.held.any (·.band.handle = handle) then none else s.jt.held := by
  have reported : (jobClosed handle (isDraining j) (closedUp outcome handle j s)).jt.held = s.jt.held := by
    rw [aside_jt (aside_jobClosed handle _ _), closedUp_held]
  rw [closeCore_eq found live]
  generalize jobClosed handle (isDraining j) (closedUp outcome handle j s) = u at reported
  rw [noteClosed_held, discardHeld_held, reported]

theorem reportScrubbed_held (handle : Nat) (s : State) : (reportScrubbed handle s).jt.held = s.jt.held := by
  unfold reportScrubbed
  split
  · unfold freeSlot
    split
    · split <;> rfl
    · rfl
  · rfl

theorem stopped_jt (s : State) : (stopSpool (clearBus (releaseAll s))).jt = s.jt := by
  unfold releaseAll
  obtain ⟨ps, released, -⟩ := releaseSheets_spec s.spm.sheets { s with spm := { s.spm with sheets := [] } }
  rw [released]
  rfl

theorem haltPart_held (cause : HaltCause) (s : State) :
    (haltPart cause s).jt.held = none ∨ (haltPart cause s).jt.held = s.jt.held := by
  by_cases halted : s.fm.part = .halted
  · rw [haltPart, if_pos halted]
    exact .inr rfl
  · rw [haltPart_eq cause halted]
    have kept : ∀ u : State, (reportStartUp true s.startUp (endSanitize true u)).jt = u.jt := fun u => by
      unfold reportStartUp endSanitize
      split <;> split <;> rfl
    have stopped : (haltedStopped (haltedJobs s)).jt.held = none := by
      unfold haltedStopped
      rw [stopped_jt]
    exact .inl ((congrArg JobTable.held (kept _)).trans stopped)

theorem closeJob_unlive (dead : ∀ j, jobOf s.jt handle = some j → isLive j = false) : closeJob outcome handle s = s := by
  unfold closeJob
  split
  · next j found => exact if_neg (by simp [dead j found])
  · rfl

/-- R25: a close takes the held band of its own job alone, and a halt takes every one. -/
theorem closeJob_held : (closeJob outcome handle s).jt.held = none ∨ (closeJob outcome handle s).jt.held = s.jt.held := by
  by_cases live : ∃ j, jobOf s.jt handle = some j ∧ isLive j = true
  · obtain ⟨j, found, live⟩ := live
    have core : (closeCore outcome handle s).jt.held = none ∨ (closeCore outcome handle s).jt.held = s.jt.held := by
      rw [closeCore_held found live]
      split
      · exact .inl rfl
      · exact .inr rfl
    rw [closeJob_eq found live]
    split
    · rcases haltPart_held (.cipherSelftest .readBack) (closeCore outcome handle s) with none | same
      · exact .inl none
      · exact core.imp same.trans same.trans
    · rw [reportScrubbed_held]
      exact core
  · rw [closeJob_unlive fun j found => Bool.eq_false_iff.mpr fun yes => live ⟨j, found, yes⟩]
    exact .inr rfl

theorem closeJob_held_other (stuck : (slotOf handle).val ∉ s.bc.stuck) (other : ∀ h, s.jt.held = some h → h.band.handle ≠ handle) :
    (closeJob outcome handle s).jt.held = s.jt.held := by
  by_cases live : ∃ j, jobOf s.jt handle = some j ∧ isLive j = true
  · obtain ⟨j, found, live⟩ := live
    have apart : ¬ s.jt.held.any (·.band.handle = handle) = true := by
      simpa [Option.any_eq_true] using other
    rw [closeJob_eq found live, if_neg (by simpa using stuck), reportScrubbed_held, closeCore_held found live, if_neg apart]
  · rw [closeJob_unlive fun j found => Bool.eq_false_iff.mpr fun yes => live ⟨j, found, yes⟩]

end Held

/-! ### Bands at the link (R21 to R24) -/

section Link

variable {b : Band} {s : State} {j : Job}

theorem exec_intakeBand (on : s.powered = true) : exec (.intakeBand b) s
    = .next (settle { s with jt := { s.jt with waiting := s.jt.waiting ++ [b] } }) :=
  congrArg Outcome.next (if_pos on)

theorem takeBand_unnamed (unnamed : jobOf s.jt b.handle = none) : takeBand b s = raiseNote (.strayBand b.handle) s := by
  simp only [takeBand, unnamed]

theorem takeBand_stray (named : jobOf s.jt b.handle = some j) (other : j.state ≠ .intake) :
    takeBand b s = raiseNote (.strayBand b.handle) s := by
  simp only [takeBand, named]
  exact if_pos other

theorem takeBand_malformed (named : jobOf s.jt b.handle = some j) (intake : j.state = .intake)
    (bad : malformed b = true ∨ j.expected ≠ some (b.page, b.index)) :
    takeBand b s = abortJob .intakeFormat .intakeFormat b.handle b.page 0 s := by
  simp only [takeBand, named]
  rw [if_neg (not_not.mpr intake), if_pos (by simpa using bad)]

/-- A band of a job in INTAKE that is in form and in sequence. -/
structure InSequence (b : Band) (j : Job) (s : State) : Prop where
  named : jobOf s.jt b.handle = some j
  intake : j.state = .intake
  formed : malformed b = false
  expected : j.expected = some (b.page, b.index)

/-- R24, R25: what comes of a band in sequence. -/
def bandKept (b : Band) (key : LiveKey) (j : Job) (s : State) : State :=
  match storeBand b key j s with
  | .stored t => finishBand b t
  | .held reason t => holdBand b reason t

theorem InSequence.takeBand (seq : InSequence b j s) : takeBand b s
    = if b.index = 1 && decide (pagesUsed s.jt ≥ Config.pagePool) then abortJob .pagePool .pagePool b.handle b.page 0 s
      else (liveKey s b.handle).elim (raiseNote (.strayBand b.handle) s) fun key => bandKept b key j s := by
  obtain ⟨named, intake, formed, expected⟩ := seq
  simp only [Machine.takeBand, named]
  rw [if_neg (not_not.mpr intake), if_neg (by simp [formed, expected])]
  cases liveKey s b.handle <;> rfl

theorem takeBand_poolFull (seq : InSequence b j s) (first : b.index = 1) (full : 8192 ≤ pagesUsed s.jt) :
    takeBand b s = abortJob .pagePool .pagePool b.handle b.page 0 s := by
  rw [seq.takeBand]
  exact if_pos (by simpa [first, Config.pagePool] using full)

theorem takeBand_taken (seq : InSequence b j s) (room : b.index = 1 → pagesUsed s.jt < 8192) {key : LiveKey}
    (held : liveKey s b.handle = some key) :
    (∀ t, storeBand b key j s = .stored t → takeBand b s = finishBand b t)
      ∧ ∀ reason t, storeBand b key j s = .held reason t → takeBand b s = holdBand b reason t := by
  have open_ : ¬ (b.index = 1 && decide (pagesUsed s.jt ≥ Config.pagePool)) = true := by
    simpa [Config.pagePool] using room
  constructor <;> intros <;> rw [seq.takeBand, if_neg open_, held] <;> simp only [Option.elim_some, bandKept, *]

/-- R21: whether the link takes bands. -/
theorem linkOpen_iff : linkOpen s = true ↔ s.fm.part = .running ∧ s.fm.backlog = false ∧ s.jt.held = none
    ∧ (∀ f, s.smc.filling = some f → f.handedOn = false) ∧ ∀ p, s.smc.programming = some p → p.phase ≠ .needsBlock := by
  have filling : s.smc.filling.any (·.handedOn) = false ↔ ∀ f, s.smc.filling = some f → f.handedOn = false := by
    cases s.smc.filling <;> simp
  have programming : s.smc.programming.any (·.phase = .needsBlock) = false
      ↔ ∀ p, s.smc.programming = some p → p.phase ≠ .needsBlock := by
    cases s.smc.programming <;> simp
  simp only [linkOpen, Bool.and_eq_true, Bool.not_eq_true', decide_eq_true_iff, Option.isNone_iff_eq_none, filling, programming,
    and_assoc]

theorem takeWaiting_cases {rest : List Band} (waits : s.jt.waiting = b :: rest) :
    takeWaiting s = if linkOpen s then some (takeBand b { s with jt := { s.jt with waiting := rest } }) else none := by
  simp only [takeWaiting, waits]

/-- R22: the form of a band. -/
theorem malformed_false : malformed b = false ↔ b.version = 1 ∧ b.flags < 4 ∧ (isLastPage b = true → isLastBand b = true)
    ∧ 1 ≤ b.length ∧ b.length ≤ 65536 ∧ b.payload.length = b.length ∧ ¬ (b.page = 2000 ∧ isLastBand b = true ∧ isLastPage b = false)
    ∧ ¬ (b.index = 255 ∧ isLastBand b = false)
    ∧ (isLastBand b = true → b.covK ≤ 10000 ∧ b.covC ≤ 10000 ∧ b.covM ≤ 10000 ∧ b.covY ≤ 10000) := by
  unfold malformed
  generalize isLastBand b = band
  generalize isLastPage b = page
  simp only [Bool.or_eq_false_iff, bne_eq_false_iff_eq, decide_eq_false_iff_not, Bool.and_eq_false_iff, Bool.not_eq_false',
    not_le, Nat.not_lt, and_assoc, eq_comm (a := b.length)]
  cases band <;> cases page <;> simp <;> omega

end Link

/-! ### The intake stall timer (R25, R118) -/

section Expiry

variable {s : State} {due : Nat}

theorem exec_stallExpiry (on : s.powered = true) (runs : s.jt.stallTimer = some due) :
    (nowMs s < due → exec .intakeStallExpiry s = .next s)
      ∧ (due ≤ nowMs s → exec .intakeStallExpiry s = .next (settle (expireStall s))) := by
  have test : (s.powered && s.jt.stallTimer.any (· ≤ nowMs s)) = true ↔ due ≤ nowMs s := by simp [on, runs]
  refine ⟨fun early => congrArg Outcome.next (if_neg fun yes => ?_), fun late => congrArg Outcome.next (if_pos (test.mpr late))⟩
  exact absurd (test.mp yes) (Nat.not_le.mpr early)

/-- R25, R118: the timer no longer runs. -/
def timerStopped (s : State) : State := { s with jt := { s.jt with stallTimer := none } }

/-- R25: nothing is held at the link. -/
def holdDropped (s : State) : State := { s with jt := { s.jt with held := none } }

/-- R25, R118: the job is aborted as the spool is full. -/
def spoolAborted (handle page : Nat) (s : State) : State := abortJob .spoolFull .spoolFull handle page 0 s

theorem abortHeld_room {h : HeldBand} (held : s.jt.held = some h) (room : h.reason = .room) :
    abortHeld s = spoolAborted h.band.handle h.band.page (holdDropped s) := by
  simp only [abortHeld, held]
  exact if_pos room

theorem abortHeld_other (other : ∀ h, s.jt.held = some h → h.reason = .image) : abortHeld s = s := by
  unfold abortHeld
  split
  · next h held => exact if_neg (by simp [other h held])
  · rfl

theorem abortImage_waits {p : ProgrammingImage} (image : s.smc.programming = some p) (phase : p.phase = .needsBlock) (page : Nat) :
    abortImage page s = spoolAborted p.handle page s := by
  simp only [abortImage, image]
  exact if_pos phase

theorem expireStall_noImage (other : ∀ p, s.smc.programming = some p → p.phase ≠ .needsBlock) :
    expireStall s = abortHeld (timerStopped s) := by
  have holder : imageHolder (timerStopped s) = none := by
    unfold imageHolder
    split
    · next p image => exact if_neg (other p image)
    · rfl
  rw [expireStall, ← timerStopped, holder]

theorem expireStall_image {p : ProgrammingImage} (image : s.smc.programming = some p) (phase : p.phase = .needsBlock) :
    expireStall s = if roomHolder (timerStopped s) = some p.handle then abortHeld (timerStopped s)
      else abortHeld (spoolAborted p.handle (heldPageOf (timerStopped s) p.handle) (timerStopped s)) := by
  have image : (timerStopped s).smc.programming = some p := image
  have holder : imageHolder (timerStopped s) = some p.handle := by
    simp only [imageHolder, image, if_pos phase]
  rw [expireStall, ← timerStopped, holder]
  dsimp only
  rw [abortImage_waits image phase]

theorem spoolAborted_held (handle page : Nat) (s : State) :
    (spoolAborted handle page s).jt.held = none ∨ (spoolAborted handle page s).jt.held = s.jt.held := by
  have raised : ∀ f : JobFault, (raiseJobFault f s).jt.held = s.jt.held := fun f => by
    rw [raiseJobFault_eq, recordTaken_jt]
    unfold lastFaultKept keepLastFault changeJob
    split <;> rfl
  exact closeJob_held.imp id fun same => same.trans (raised _)

theorem spoolAborted_keeps {handle page : Nat} (stuck : (slotOf handle).val ∉ s.bc.stuck)
    (other : ∀ h, s.jt.held = some h → h.band.handle ≠ handle) : (spoolAborted handle page s).jt.held = s.jt.held := by
  have raised : ∀ f : JobFault, (raiseJobFault f s).jt.held = s.jt.held ∧ (raiseJobFault f s).bc = s.bc := fun f => by
    rw [raiseJobFault_eq, recordTaken_jt]
    have bc : (recordTaken (jobRecordOf f s) (lastFaultKept f s)).bc = (lastFaultKept f s).bc := by
      unfold recordTaken
      split_ifs <;> rfl
    rw [bc]
    unfold lastFaultKept keepLastFault changeJob
    split <;> exact ⟨rfl, rfl⟩
  obtain ⟨held, bc⟩ := raised (jobFault .spoolFull handle page 0)
  exact (closeJob_held_other (by rwa [bc]) (by rwa [held])).trans held

/-- R25, R118: the expiry with an image that waits for a block. -/
theorem expireStall_both {p : ProgrammingImage} (image : s.smc.programming = some p) (phase : p.phase = .needsBlock) :
    ((∀ h, s.jt.held = some h → h.reason = .image ∧ h.band.handle ≠ p.handle) →
        expireStall s = spoolAborted p.handle 0 (timerStopped s))
      ∧ ∀ h, s.jt.held = some h →
        (h.reason = .room → h.band.handle = p.handle →
          expireStall s = spoolAborted p.handle h.band.page (holdDropped (timerStopped s)))
        ∧ (h.reason = .image → h.band.handle = p.handle →
          expireStall s = spoolAborted p.handle h.band.page (timerStopped s))
        ∧ (h.reason = .room → h.band.handle ≠ p.handle → (slotOf p.handle).val ∉ s.bc.stuck →
          expireStall s = spoolAborted h.band.handle h.band.page (holdDropped (spoolAborted p.handle 0 (timerStopped s)))) := by
  have ends := expireStall_image image phase
  have holds : (timerStopped s).jt.held = s.jt.held := rfl
  refine ⟨fun other => ?_, fun h held => ⟨fun room own => ?_, fun waits own => ?_, fun room other stuck => ?_⟩⟩
  · have holder : roomHolder (timerStopped s) ≠ some p.handle := by
      unfold roomHolder
      rw [holds]
      split
      · next h held => simp [(other h held).1]
      · simp
    have page : heldPageOf (timerStopped s) p.handle = 0 := by
      unfold heldPageOf
      rw [holds]
      split
      · next h held => exact if_neg (other h held).2
      · rfl
    rw [ends, if_neg holder, page, abortHeld_other]
    intro h held
    rcases spoolAborted_held p.handle 0 (timerStopped s) with none | same
    · rw [none] at held
      cases held
    · exact (other h (same.symm.trans held)).1
  · have holder : roomHolder (timerStopped s) = some p.handle := by
      simp only [roomHolder, holds, held, room, own, if_true]
    rw [ends, if_pos holder, abortHeld_room (holds.trans held) room, own]
  · have holder : roomHolder (timerStopped s) ≠ some p.handle := by
      simp [roomHolder, holds, held, waits]
    have page : heldPageOf (timerStopped s) p.handle = h.band.page := by
      simp only [heldPageOf, holds, held, own, if_true]
    rw [ends, if_neg holder, page, abortHeld_other]
    intro x kept
    rcases spoolAborted_held p.handle h.band.page (timerStopped s) with none | same
    · rw [none] at kept
      cases kept
    · obtain rfl := Option.some.inj (held.symm.trans (same.symm.trans kept))
      exact waits
  · have holder : roomHolder (timerStopped s) ≠ some p.handle := by
      simp [roomHolder, holds, held, room, other]
    have page : heldPageOf (timerStopped s) p.handle = 0 := by
      simp only [heldPageOf, holds, held, if_neg other]
    have kept : (spoolAborted p.handle 0 (timerStopped s)).jt.held = some h := by
      rw [spoolAborted_keeps (s := timerStopped s) stuck, holds, held]
      intro x own
      obtain rfl := Option.some.inj (held.symm.trans own)
      exact other
    rw [ends, if_neg holder, page, abortHeld_room kept room]

end Expiry

/-- Settles O47: a band waits, is taken, stored or refused, and the stall timer aborts. -/
theorem intakeBands : Obligations.IntakeBands := by
  intro b s
  refine ⟨exec_intakeBand, takeBand_unnamed, fun j named => ⟨takeBand_stray named, takeBand_malformed named,
      fun intake formed expected first full => takeBand_poolFull ⟨named, intake, formed, expected⟩ first full⟩,
    fun j key named intake formed expected room held => takeBand_taken ⟨named, intake, formed, expected⟩ room held,
    fun rest waits => ⟨fun takes => ?_, fun refuses => ?_⟩, malformed_false, fun due => exec_stallExpiry,
    ⟨fun other => ⟨fun h held room => ?_, fun waits => ?_⟩, fun p image phase => expireStall_both image phase⟩⟩
  · rw [takeWaiting_cases waits, if_pos (linkOpen_iff.mpr takes)]
  · rw [takeWaiting_cases waits, if_neg fun yes => refuses (linkOpen_iff.mp yes)]
  · rw [expireStall_noImage other]
    exact abortHeld_room (s := timerStopped s) held room
  · rw [expireStall_noImage other]
    exact abortHeld_other (s := timerStopped s) waits

end Sys2Proof.Machine

/-! PROOFS. O49: reads of the media port, and sealed bands. -/

namespace Sys2Proof.Machine
open Host (Outcome)

/-! ### One codeword (R123, R124) -/

section Codeword

variable {retries n k : Nat} {outcomes rereads : List (Option Nat)}

/-- The codeword stays uncorrectable through every reread. -/
def deadOutcomes (retries : Nat) (outcomes : List (Option Nat)) : Prop :=
  outcomes ≠ [] ∧ ∀ x ∈ outcomes.take (retries + 1), x = none

theorem codewordResult_reread (low : k < retries) (good : rereads[k]? = some (some n))
    (bad : ∀ m, m < k → rereads[m]? = some none) : codewordResult retries (none :: rereads) = .reread n := by
  have found : (rereads.take retries).findSome? id = some n := by
    induction k generalizing rereads retries with
    | zero =>
      cases rereads with
      | nil => simp at good
      | cons x rest =>
        obtain rfl : x = some n := by simpa using good
        obtain ⟨r, rfl⟩ := Nat.exists_eq_succ_of_ne_zero (Nat.ne_of_gt low)
        simp
    | succ k ih =>
      cases rereads with
      | nil => simp at good
      | cons x rest =>
        obtain rfl : x = none := by simpa using bad 0 (Nat.succ_pos k)
        obtain ⟨r, rfl⟩ := Nat.exists_eq_succ_of_ne_zero (Nat.ne_of_gt (Nat.zero_lt_of_lt low))
        simpa using ih (Nat.lt_of_succ_lt_succ low) (by simpa using good) fun m less => by simpa using bad (m + 1) (by omega)
  simp only [codewordResult, found]

theorem codewordResult_uncorrectable (bad : ∀ x ∈ rereads.take retries, x = none) :
    codewordResult retries (none :: rereads) = .uncorrectable := by
  have none : (rereads.take retries).findSome? id = none := List.findSome?_eq_none_iff.mpr bad
  simp only [codewordResult, none]

theorem codewordResult_dead : codewordResult retries outcomes = .uncorrectable ↔ deadOutcomes retries outcomes := by
  cases outcomes with
  | nil => simp [codewordResult, deadOutcomes]
  | cons x rereads =>
    cases x with
    | some n => simp [codewordResult, deadOutcomes]
    | none =>
      rw [deadOutcomes, List.take_succ_cons, List.forall_mem_cons]
      cases found : (rereads.take retries).findSome? id with
      | none => simpa [codewordResult, found] using List.findSome?_eq_none_iff.mp found
      | some n =>
        obtain ⟨a, mem, good⟩ := List.exists_of_findSome?_eq_some found
        simp only [codewordResult, found, reduceCtorEq, false_iff]
        rintro ⟨-, -, bad⟩
        rw [bad a mem] at good
        cases good

end Codeword

/-! ### The codewords of a band (R122, R124) -/

section Results

variable {results : List (Nat × CodewordResult)}

theorem readUpTo_whole (good : ∀ r ∈ results, r.2 ≠ .uncorrectable) : readUpTo results = (results, none) := by
  induction results with
  | nil => rfl
  | cons r rest ih =>
    obtain ⟨first, later⟩ := List.forall_mem_cons.mp good
    obtain ⟨b, result⟩ := r
    cases result with
    | uncorrectable => exact absurd rfl first
    | corrected n => simp only [readUpTo, ih later]
    | reread n => simp only [readUpTo, ih later]

theorem readUpTo_stops {front back : List (Nat × CodewordResult)} {b : Nat} (good : ∀ r ∈ front, r.2 ≠ .uncorrectable) :
    readUpTo (front ++ (b, .uncorrectable) :: back) = (front, some b) := by
  induction front with
  | nil => rfl
  | cons r rest ih =>
    obtain ⟨first, later⟩ := List.forall_mem_cons.mp good
    obtain ⟨c, result⟩ := r
    cases result with
    | uncorrectable => exact absurd rfl first
    | corrected n => simp only [List.cons_append, readUpTo, ih later]
    | reread n => simp only [List.cons_append, readUpTo, ih later]

/-- The results of the first codewords of a band. -/
def firstResults (retries : Nat) (blocks : List Nat) (codewords : List (List (Option Nat))) (n : Nat) : List (Nat × CodewordResult) :=
  (List.range n).map fun k => (blocks.getD k 0, codewordResult retries (codewords.getD k []))

theorem firstResults_split (retries : Nat) (blocks : List Nat) (codewords : List (List (Option Nat))) {k n : Nat} (low : k < n) :
    ∃ back, firstResults retries blocks codewords n = firstResults retries blocks codewords k
      ++ (blocks.getD k 0, codewordResult retries (codewords.getD k [])) :: back := by
  obtain ⟨m, rfl⟩ := Nat.exists_eq_add_of_lt low
  rw [firstResults, Nat.add_assoc, List.range_add, List.map_append, List.range_succ_eq_map]
  exact ⟨_, rfl⟩

theorem firstResults_good {retries : Nat} {blocks : List Nat} {codewords : List (List (Option Nat))} {n : Nat}
    (good : ∀ k, k < n → ¬ deadOutcomes retries (codewords.getD k [])) :
    ∀ r ∈ firstResults retries blocks codewords n, r.2 ≠ .uncorrectable := by
  intro r mem
  obtain ⟨k, low, rfl⟩ := List.mem_map.mp mem
  exact fun bad => good k (List.mem_range.mp low) (codewordResult_dead.mp bad)

end Results

/-! ### Weak blocks (R123) -/

section Weak

theorem foldl_max_ge (l : List Nat) (a : Nat) : a ≤ l.foldl max a ∧ ∀ n ∈ l, n ≤ l.foldl max a := by
  induction l generalizing a with
  | nil => exact ⟨Nat.le_refl _, fun n mem => absurd mem List.not_mem_nil⟩
  | cons x rest ih =>
    obtain ⟨low, all⟩ := ih (max a x)
    refine ⟨(Nat.le_max_left a x).trans low, fun n mem => ?_⟩
    rcases List.mem_cons.mp mem with rfl | mem
    · exact (Nat.le_max_right a n).trans low
    · exact all n mem

theorem foldl_max_mem (l : List Nat) (a : Nat) : l.foldl max a = a ∨ l.foldl max a ∈ l := by
  induction l generalizing a with
  | nil => exact .inl rfl
  | cons x rest ih =>
    rw [List.foldl_cons]
    rcases ih (max a x) with same | mem
    · rw [same]
      rcases Nat.le_total a x with le | le
      · exact .inr (by simp [Nat.max_eq_right le])
      · exact .inl (Nat.max_eq_left le)
    · exact .inr (List.mem_cons_of_mem x mem)

variable {limit block : Nat} {results : List (Nat × CodewordResult)} {s : State}

/-- The results of the codewords of one block. -/
def ownResults (block : Nat) (results : List (Nat × CodewordResult)) : List CodewordResult :=
  (results.filter (·.1 == block)).map (·.2)

theorem mem_ownResults {c : CodewordResult} : c ∈ ownResults block results ↔ (block, c) ∈ results := by
  simp only [ownResults, List.mem_map, List.mem_filter, beq_iff_eq, Prod.exists]
  constructor
  · rintro ⟨b, x, ⟨mem, rfl⟩, rfl⟩
    exact mem
  · exact fun mem => ⟨block, c, ⟨mem, rfl⟩, rfl⟩

/-- The greatest number of bits corrected in a codeword of a block. -/
def greatestOf (block : Nat) (results : List (Nat × CodewordResult)) : Nat := ((ownResults block results).map bitsOf).foldl max 0

theorem greatestOf_reached : greatestOf block results = 0 ∨ (block, .corrected (greatestOf block results)) ∈ results
    ∨ (block, .reread (greatestOf block results)) ∈ results := by
  rcases foldl_max_mem ((ownResults block results).map bitsOf) 0 with zero | mem
  · exact .inl zero
  · obtain ⟨c, own, bits⟩ := List.mem_map.mp mem
    rw [mem_ownResults] at own
    cases c with
    | corrected n => exact .inr (.inl (by rwa [show greatestOf block results = n from bits.symm]))
    | reread n => exact .inr (.inr (by rwa [show greatestOf block results = n from bits.symm]))
    | uncorrectable => exact .inl bits.symm

theorem le_greatestOf {n : Nat} (mem : (block, .corrected n) ∈ results ∨ (block, .reread n) ∈ results) :
    n ≤ greatestOf block results := by
  have all := (foldl_max_ge ((ownResults block results).map bitsOf) 0).2
  rcases mem with mem | mem
  · exact all n (List.mem_map.mpr ⟨_, mem_ownResults.mpr mem, rfl⟩)
  · exact all n (List.mem_map.mpr ⟨_, mem_ownResults.mpr mem, rfl⟩)

theorem flagsWeak_iff {c : CodewordResult} : flagsWeak limit c = true ↔ (∃ n, c = .corrected n ∧ limit ≤ n) ∨ ∃ n, c = .reread n := by
  cases c <;> simp [flagsWeak]

theorem own_weak : (ownResults block results).any (flagsWeak limit) = true
    ↔ ∃ x ∈ results, x.1 = block ∧ ((∃ n, x.2 = .corrected n ∧ limit ≤ n) ∨ ∃ n, x.2 = .reread n) := by
  simp only [List.any_eq_true, mem_ownResults, flagsWeak_iff]
  constructor
  · rintro ⟨c, mem, weak⟩
    exact ⟨(block, c), mem, rfl, weak⟩
  · rintro ⟨⟨b, c⟩, mem, rfl, weak⟩
    exact ⟨c, mem, weak⟩

theorem findWeak_eq : findWeak limit results s block
    = if (ownResults block results).any (flagsWeak limit) && !(s.smc.weak.contains block) then
        raiseNote (.eccWeak block (greatestOf block results)) { s with smc := { s.smc with weak := s.smc.weak ++ [block] } }
      else s := rfl

theorem findWeak_kept : (findWeak limit results s block).bc = s.bc ∧ (findWeak limit results s block).clock = s.clock := by
  rw [findWeak_eq]
  split <;> exact ⟨rfl, rfl⟩

end Weak

end Sys2Proof.Machine

/-! PROOFS. O49, continued: marks, the result of a read, and the cipher. -/

namespace Sys2Proof.Machine
open Host (Outcome)

/-! ### Marks (R124, R125) -/

section Marks

variable {origin : MarkOrigin} {block b : Nat} {m : SpoolMedia}

theorem markBlock_frame (origin : MarkOrigin) (block : Nat) (m : SpoolMedia) :
    markBlock origin block m = { m with marked := (markBlock origin block m).marked } := by
  unfold markBlock
  split <;> rfl

theorem markBlock_marked (known : markOf m block ≠ none) : markBlock origin block m = m :=
  if_pos (Option.isSome_iff_ne_none.mpr known)

theorem markBlock_fresh (unknown : markOf m block = none) :
    markBlock origin block m = { m with marked := m.marked ++ [(block, origin)] } :=
  if_neg (by simp [unknown])

theorem markOf_markBlock : markOf (markBlock origin block m) b
    = if b = block ∧ markOf m b = none then some origin else markOf m b := by
  by_cases known : markOf m block = none
  · rw [markBlock_fresh known, markOf, List.find?_append]
    cases found : m.marked.find? (·.1 == b) with
    | some x =>
      have some : markOf m b = .some x.2 := by rw [markOf, found]; rfl
      simp [some]
    | none =>
      have none : markOf m b = .none := by rw [markOf, found]; rfl
      by_cases same : b = block
      · subst same
        simp [none]
      · simp [none, same, beq_eq_false_iff_ne.mpr (Ne.symm same)]
  · rw [markBlock_marked known, if_neg]
    rintro ⟨rfl, none⟩
    exact known none

theorem markBlocks_frame (origin : MarkOrigin) (blocks : List Nat) (m : SpoolMedia) :
    blocks.foldl (fun m b => markBlock origin b m) m
      = { m with marked := (blocks.foldl (fun m b => markBlock origin b m) m).marked } := by
  induction blocks generalizing m with
  | nil => rfl
  | cons x rest ih =>
    rw [List.foldl_cons, ih, markBlock_frame origin x m]

theorem markOf_markBlocks (origin : MarkOrigin) (blocks : List Nat) (m : SpoolMedia) (b : Nat) :
    markOf (blocks.foldl (fun m b => markBlock origin b m) m) b
      = if b ∈ blocks ∧ markOf m b = none then some origin else markOf m b := by
  induction blocks generalizing m with
  | nil => simp
  | cons x rest ih =>
    rw [List.foldl_cons, ih, markOf_markBlock]
    by_cases same : b = x <;> by_cases none : markOf m b = .none <;> simp [same, none] <;> simp_all

end Marks

/-! ### Unreadable blocks and tampered bands (R124, R125, R137) -/

section Findings

variable {q : ReadRequest} {block handle page : Nat} {place : BandPlace} {s : State}

theorem flagPage_job {j : Job} (low : 1 ≤ page) (named : jobOf s.jt handle = some j) : flagPage handle page s
    = setJob { j with pages := j.pages.modify (page - 1) fun p => { p with marked := true } } s := by
  have nonzero : page ≠ 0 := Nat.ne_of_gt low
  simp only [flagPage, changePage, changeJob, named, if_neg nonzero]

theorem flagPage_none (unnamed : jobOf s.jt handle = none) : flagPage handle page s = s := by
  simp only [flagPage, changePage, changeJob, unnamed]

/-- A job's record, replaced under whatever handle it has. -/
theorem jobOf_putJob_near {jt : JobTable} {j r : Job} (named : jobOf jt handle = some j) :
    jobOf (putJob r jt) handle = some r ∨ jobOf (putJob r jt) handle = some j := by
  by_cases same : slotOf handle = slotOf r.handle
  · left
    obtain ⟨small, generation, -⟩ := jobOf_slot named
    have slot : (putJob r jt).slots.get (slotOf handle) = { jt.slots.get (slotOf handle) with job := some r } := by
      rw [same]
      exact get_set_self _ _ _
    rw [jobOf, slot]
    exact if_pos (by simp [small, generation])
  · exact .inr ((jobOf_putJob_ne same).trans named)

theorem readJobLive_flagPage (s : State) : readJobLive (flagPage q.handle page s) q.handle = readJobLive s q.handle := by
  cases named : jobOf s.jt q.handle with
  | none => rw [flagPage_none named]
  | some j =>
    have job := jobOf_putJob_near (r := { j with pages := if page = 0 then j.pages else j.pages.modify (page - 1) fun p =>
      { p with marked := true } }) named
    have live : (jobOf (flagPage q.handle page s).jt q.handle).any isLive = isLive j := by
      simp only [flagPage, changePage, changeJob, named]
      rcases job with own | same
      · exact (congrArg (Option.any isLive) own).trans rfl
      · exact (congrArg (Option.any isLive) same).trans rfl
    simp only [readJobLive, live, named, Option.any_some]

/-- R124: the mark of an unreadable block. -/
theorem findUnreadable_eq : findUnreadable q block s
    = (let marked : State := { s with smc := markBlock .media block s.smc }
       if readJobLive s q.handle then
         if (markOf s.smc block).isNone then raiseJobFault (jobFault .imageUnreadable q.handle q.page block) (flagPage q.handle q.page marked)
         else flagPage q.handle q.page marked
       else marked) := rfl

theorem findUnreadable_cases :
    let marked : State := { s with smc := { s.smc with marked := s.smc.marked ++ [(block, .media)] } }
    let fault : JobFault := { code := .imageUnreadable, handle := q.handle, page := q.page, block := block, addrValid := true }
    (markOf s.smc block = none → readJobLive s q.handle = true →
        findUnreadable q block s = raiseJobFault fault (flagPage q.handle q.page marked))
      ∧ (markOf s.smc block ≠ none → readJobLive s q.handle = true → findUnreadable q block s = flagPage q.handle q.page s)
      ∧ (markOf s.smc block = none → ¬ readJobLive s q.handle = true → findUnreadable q block s = marked)
      ∧ (markOf s.smc block ≠ none → ¬ readJobLive s q.handle = true → findUnreadable q block s = s) := by
  refine ⟨fun unknown live => ?_, fun known live => ?_, fun unknown dead => ?_, fun known dead => ?_⟩ <;>
    rw [findUnreadable_eq]
  · rw [markBlock_fresh unknown, if_pos live, unknown]
    rfl
  · rw [markBlock_marked known, if_pos live, if_neg (by simpa using known)]
  · rw [markBlock_fresh unknown, if_neg dead]
  · rw [markBlock_marked known, if_neg dead]

/-- R125: the blocks of a band marked as found tampered. -/
def tamperedMarks (place : BandPlace) (m : SpoolMedia) : List (Nat × MarkOrigin) :=
  ((placeBlocks place).foldl (fun m b => markBlock .cipher b m) m).marked

theorem findTampered_eq : findTampered q place s
    = (let marked : State := { s with smc := { s.smc with marked := tamperedMarks place s.smc } }
       if readJobLive s q.handle then
         raiseJobFault (jobFault .imageTampered q.handle q.page place.block) (flagPage q.handle q.page marked)
       else flagPage q.handle q.page marked) := by
  have live := readJobLive_flagPage (q := q) (page := q.page)
    { s with smc := (placeBlocks place).foldl (fun m b => markBlock .cipher b m) s.smc }
  have marks := markBlocks_frame .cipher (placeBlocks place) s.smc
  rw [findTampered, live, marks]
  rfl

end Findings

/-! ### The result of a read (R122 to R124, R136) -/

section Judge

variable {q : ReadRequest} {place : BandPlace} {physical : List Nat} {retries weakLimit : Nat} {r : BandRead} {s : State}

theorem exec_readComplete (on : s.powered = true) (flight : s.smc.inFlight = some (.read q place physical retries weakLimit)) :
    exec (.readComplete r) s = .next (settle (handResult q (judgeRead q place retries weakLimit r (endPortFlight s)).1
      (judgeRead q place retries weakLimit r (endPortFlight s)).2)) := by
  change execReadComplete r s = _
  simp only [execReadComplete, flight]
  exact if_neg (by simp [on])

/-- R123: the state once the codewords read have been looked at. -/
def weakened (place : BandPlace) (retries weakLimit : Nat) (r : BandRead) (n : Nat) (s : State) : State :=
  (placeBlocks place).foldl (findWeak weakLimit (firstResults retries (placeCodewords place) r.codewords n)) s

theorem weakened_kept (place : BandPlace) (retries weakLimit : Nat) (r : BandRead) (n : Nat) (s : State) :
    (weakened place retries weakLimit r n s).bc = s.bc ∧ (weakened place retries weakLimit r n s).clock = s.clock := by
  unfold weakened
  generalize placeBlocks place = blocks
  induction blocks generalizing s with
  | nil => exact ⟨rfl, rfl⟩
  | cons b rest ih =>
    obtain ⟨bc, clock⟩ := findWeak_kept (limit := weakLimit) (block := b) (s := s)
      (results := firstResults retries (placeCodewords place) r.codewords n)
    obtain ⟨bc', clock'⟩ := ih (findWeak weakLimit (firstResults retries (placeCodewords place) r.codewords n) s b)
    exact ⟨bc'.trans bc, clock'.trans clock⟩

/-- A read stopped by a block: the weak ones before it, then the unreadable one. -/
theorem judgeRead_stops {k : Nat} (inside : k < (placeCodewords place).length)
    (dead : deadOutcomes retries (r.codewords.getD k [])) (first : ∀ m, m < k → ¬ deadOutcomes retries (r.codewords.getD m [])) :
    judgeRead q place retries weakLimit r s = (.failed ((placeCodewords place).getD k 0),
      findUnreadable q ((placeCodewords place).getD k 0) (weakened place retries weakLimit r k s)) := by
  obtain ⟨back, split⟩ := firstResults_split retries (placeCodewords place) r.codewords inside
  have read : codewordsRead place retries r
      = (firstResults retries (placeCodewords place) r.codewords k, some ((placeCodewords place).getD k 0)) := by
    change readUpTo (firstResults retries (placeCodewords place) r.codewords (placeCodewords place).length) = _
    rw [split, codewordResult_dead.mpr dead]
    exact readUpTo_stops (firstResults_good first)
  simp only [judgeRead, read]
  rfl

/-- R136: the band a read with every codeword good delivers. -/
def deliveredBand (place : BandPlace) (r : BandRead) (s : State) : List Byte := bandDelivered s.clock place.length r.stored

theorem judgeRead_whole (good : ∀ k, k < (placeCodewords place).length → ¬ deadOutcomes retries (r.codewords.getD k [])) :
    let whole := weakened place retries weakLimit r (placeCodewords place).length s
    (liveKey s q.handle = none → judgeRead q place retries weakLimit r s = (.noKey, whole))
      ∧ ∀ key, liveKey s q.handle = some key →
        (∀ plain, openBand key q.page q.index (deliveredBand place r s) = some plain →
          judgeRead q place retries weakLimit r s = (.data plain, whole))
        ∧ (openBand key q.page q.index (deliveredBand place r s) = none →
          judgeRead q place retries weakLimit r s = (.failed place.block, findTampered q place whole)) := by
  have read : codewordsRead place retries r
      = (firstResults retries (placeCodewords place) r.codewords (placeCodewords place).length, none) :=
    readUpTo_whole (firstResults_good good)
  obtain ⟨bc, clock⟩ := weakened_kept place retries weakLimit r (placeCodewords place).length s
  have key : liveKey (weakened place retries weakLimit r (placeCodewords place).length s) q.handle = liveKey s q.handle := by
    rw [liveKey, bc]
    rfl
  rw [weakened] at key clock ⊢
  refine ⟨fun none => ?_, fun k live => ⟨fun plain opens => ?_, fun tampered => ?_⟩⟩
  · simp only [judgeRead, read, key, none]
  · rw [deliveredBand] at opens
    simp only [judgeRead, read, key, live, clock, opens]
  · rw [deliveredBand] at tampered
    simp only [judgeRead, read, key, live, clock, tampered]

theorem bandDelivered_spec (instant length : Nat) (given : List Byte) : (bandDelivered instant length given).length = length
    ∧ ∀ n, n < length → n < given.length → (bandDelivered instant length given)[n]? = given[n]? := by
  constructor
  · simp only [bandDelivered, List.length_append, List.length_take, List.length_map, List.length_range]
    omega
  · intro n low inside
    have taken : n < (given.take length).length := by
      rw [List.length_take]
      omega
    rw [bandDelivered, List.getElem?_append_left taken, List.getElem?_take_of_lt low]

end Judge

/-! ### The cipher blocks of a band (R134) -/

section Cipher

variable {key : Key} {page index : Nat}

/-- R134: one block of a band under its tweak. -/
def blockCiphered (key : Key) (page index i : Nat) (bytes : List Byte) : List Byte :=
  encryptBlock key { page := page, index := index, block := i } bytes

/-- R134: 16 bytes of a band from a block on. -/
def pieceOf (i : Nat) (bytes : List Byte) : List Byte := (bytes.drop (16 * i)).take 16

theorem pieceOf_succ (i : Nat) (bytes : List Byte) : pieceOf (i + 1) bytes = pieceOf i (bytes.drop 16) := by
  rw [pieceOf, pieceOf, List.drop_drop, Nat.mul_succ, Nat.add_comm]

variable {n i₀ : Nat} {plain : List Byte}

theorem encryptFrom_last (small : plain.length ≤ 16) :
    encryptFrom key page index (n + 1) i₀ plain = blockCiphered key page index i₀ plain := by
  have none : plain.drop 16 = [] := List.drop_eq_nil_iff.mpr small
  have whole : plain.take 16 = plain := List.take_of_length_le small
  simp only [encryptFrom, none, if_true, whole, blockCiphered]

theorem encryptFrom_partial (long : 16 < plain.length) (short : plain.length < 32) :
    let whole := blockCiphered key page index i₀ (plain.take 16)
    let later := plain.drop 16
    encryptFrom key page index (n + 1) i₀ plain
      = blockCiphered key page index (i₀ + 1) (later ++ whole.drop later.length) ++ whole.take later.length := by
  have some : plain.drop 16 ≠ [] := fun none => absurd (List.drop_eq_nil_iff.mp none) (Nat.not_le.mpr long)
  have few : (plain.drop 16).length < 16 := by simp; omega
  simp only [encryptFrom, if_neg some, if_pos few, blockCiphered]

theorem encryptFrom_next (long : 32 ≤ plain.length) : encryptFrom key page index (n + 1) i₀ plain
    = blockCiphered key page index i₀ (plain.take 16) ++ encryptFrom key page index n (i₀ + 1) (plain.drop 16) := by
  have some : plain.drop 16 ≠ [] := fun none => absurd (List.drop_eq_nil_iff.mp none) (by omega)
  have many : ¬ (plain.drop 16).length < 16 := by simp; omega
  simp only [encryptFrom, if_neg some, if_neg many, blockCiphered]

theorem blockCiphered_length (i : Nat) (bytes : List Byte) : (blockCiphered key page index i bytes).length = bytes.length :=
  encryptBlock_length _ _ _

/-- A whole block of a band but the last before a partial one. -/
theorem pieceOf_encryptFrom {i : Nat} (fuel : plain.length < 16 * n) (inside : 16 * i + 16 ≤ plain.length)
    (full : plain.length % 16 = 0 ∨ 16 * i + 32 ≤ plain.length) :
    pieceOf i (encryptFrom key page index n i₀ plain) = blockCiphered key page index (i₀ + i) (pieceOf i plain) := by
  induction i generalizing n i₀ plain with
  | zero =>
    obtain ⟨n, rfl⟩ := Nat.exists_eq_succ_of_ne_zero (n := n) (by omega)
    rw [pieceOf, pieceOf, Nat.mul_zero, List.drop_zero, List.drop_zero]
    rcases Nat.lt_or_ge plain.length 32 with short | long
    · have exact : plain.length = 16 := by omega
      rw [encryptFrom_last (Nat.le_of_eq exact), List.take_of_length_le (Nat.le_of_eq exact), Nat.add_zero,
        List.take_of_length_le (Nat.le_of_eq ((blockCiphered_length _ _).trans exact))]
    · rw [encryptFrom_next long]
      have size : (blockCiphered key page index i₀ (plain.take 16)).length = 16 := by
        rw [blockCiphered_length, List.length_take]
        omega
      rw [List.take_left' size, Nat.add_zero]
  | succ i ih =>
    obtain ⟨n, rfl⟩ := Nat.exists_eq_succ_of_ne_zero (n := n) (by omega)
    have long : 32 ≤ plain.length := by omega
    have size : (blockCiphered key page index i₀ (plain.take 16)).length = 16 := by
      rw [blockCiphered_length, List.length_take]
      omega
    have later : (plain.drop 16).length = plain.length - 16 := List.length_drop
    rw [encryptFrom_next long, pieceOf_succ, List.drop_left' size, pieceOf_succ,
      ih (by omega) (by omega) (by omega)]
    rw [Nat.add_right_comm, Nat.add_assoc]

/-- The end of a band whose last block is partial. -/
theorem encryptFrom_end {i m : Nat} (fuel : plain.length < 16 * n) (some : 0 < m) (few : m < 16)
    (size : plain.length = 16 * i + 16 + m) :
    let before := blockCiphered key page index (i₀ + i) (pieceOf i plain)
    pieceOf i (encryptFrom key page index n i₀ plain)
        = blockCiphered key page index (i₀ + i + 1) (plain.drop (16 * i + 16) ++ before.drop m)
      ∧ (encryptFrom key page index n i₀ plain).drop (16 * i + 16) = before.take m := by
  induction i generalizing n i₀ plain with
  | zero =>
    obtain ⟨n, rfl⟩ := Nat.exists_eq_succ_of_ne_zero (n := n) (by omega)
    have later : (plain.drop 16).length = m := by rw [List.length_drop]; omega
    have whole : (blockCiphered key page index i₀ (plain.take 16)).length = 16 := by
      rw [blockCiphered_length, List.length_take]
      omega
    have completed : ∀ x : List Byte, x.length = 16 →
        (blockCiphered key page index (i₀ + 1) (plain.drop 16 ++ x.drop m)).length = 16 := fun x sixteen => by
      rw [blockCiphered_length, List.length_append, later, List.length_drop]
      omega
    rw [encryptFrom_partial (by omega) (by omega), later]
    simp only [pieceOf, Nat.mul_zero, List.drop_zero, Nat.add_zero, Nat.zero_add]
    exact ⟨List.take_left' (completed _ whole), List.drop_left' (completed _ whole)⟩
  | succ i ih =>
    obtain ⟨n, rfl⟩ := Nat.exists_eq_succ_of_ne_zero (n := n) (by omega)
    have whole : (blockCiphered key page index i₀ (plain.take 16)).length = 16 := by
      rw [blockCiphered_length, List.length_take]
      omega
    have later : (plain.drop 16).length = plain.length - 16 := List.length_drop
    have dropped : ∀ l : List Byte, l.drop (16 * (i + 1) + 16) = (l.drop 16).drop (16 * i + 16) := fun l => by
      rw [List.drop_drop, show 16 + (16 * i + 16) = 16 * (i + 1) + 16 by omega]
    obtain ⟨piece, rest⟩ := ih (n := n) (i₀ := i₀ + 1) (plain := plain.drop 16) (by omega) (by omega)
    rw [encryptFrom_next (by omega), pieceOf_succ i plain, pieceOf_succ i (_ ++ _), dropped plain, dropped (_ ++ _),
      List.drop_left' whole, show i₀ + (i + 1) = i₀ + 1 + i by omega]
    exact ⟨piece, rest⟩

end Cipher

/-! ### Sealed bands (R134 to R136) -/

section Seal

variable (k : LiveKey) (page index : Nat) (plain : List Byte)

theorem bytesOf_length {w : Nat} (n : Nat) (v : BitVec w) : (bytesOf n v).length = n := by
  induction n with
  | zero => rfl
  | succ n ih => rw [bytesOf, List.length_cons, ih]

theorem sealBand_length : (sealBand k page index plain).length = plain.length + 16 := by
  rw [sealBand, List.length_append, bytesOf_length, encryptBand_length]

/-- A sealed band opens under its page and index. -/
theorem openBand_sealBand : openBand k page index (sealBand k page index plain) = some plain := by
  have size : (sealBand k page index plain).length - 16 = (encryptBand k.encKey page index plain).length := by
    rw [sealBand_length, encryptBand_length, Nat.add_sub_cancel]
  rw [openBand, size]
  simp only [sealBand, List.take_left, List.drop_left, if_true, decryptBand_encryptBand]

theorem encryptBand_pieces :
    let cipher := encryptBand k.encKey page index plain
    (plain.length ≤ 16 → cipher = blockCiphered k.encKey page index 0 plain)
      ∧ (∀ i, 16 * i + 16 ≤ plain.length → (plain.length % 16 = 0 ∨ 16 * i + 32 ≤ plain.length) →
        pieceOf i cipher = blockCiphered k.encKey page index i (pieceOf i plain))
      ∧ ∀ i m, 0 < m → m < 16 → plain.length = 16 * i + 16 + m →
        let before := blockCiphered k.encKey page index i (pieceOf i plain)
        pieceOf i cipher = blockCiphered k.encKey page index (i + 1) (plain.drop (16 * i + 16) ++ before.drop m)
          ∧ cipher.drop (16 * i + 16) = before.take m := by
  have fuel : plain.length < 16 * (plain.length / 16 + 1) := by omega
  refine ⟨encryptFrom_last, fun i inside full => ?_, fun i m some few size => ?_⟩
  · have piece := pieceOf_encryptFrom (key := k.encKey) (page := page) (index := index) (i₀ := 0) fuel inside full
    rwa [Nat.zero_add] at piece
  · have parts := encryptFrom_end (key := k.encKey) (page := page) (index := index) (i₀ := 0) fuel some few size
    rwa [Nat.zero_add] at parts

end Seal

/-- Settles O49: what a read comes to, its findings, and the cipher of a band. -/
theorem readsOpenSealedBands : Obligations.ReadsOpenSealedBands := by
  refine ⟨fun q place physical retries weakLimit r s on flight => ⟨fun good => ?_, fun k dead first => ?_⟩,
    fun retries n rereads => ⟨rfl, rfl, fun k => codewordResult_reread, codewordResult_uncorrectable⟩,
    fun limit results block s => ⟨fun weak fresh => ⟨greatestOf block results, greatestOf_reached, fun n => le_greatestOf, ?_⟩,
      fun clear => ?_⟩,
    fun handle page s low => ⟨fun j => flagPage_job low, flagPage_none⟩, fun q block s => ?_, fun q place s => ?_,
    fun k page index plain => ⟨openBand_sealBand k page index plain, sealBand_length k page index plain,
      encryptBand_length _ _ _ _, rfl, encryptBand_pieces k page index plain⟩⟩
  · obtain ⟨size, bytes⟩ := bandDelivered_spec (endPortFlight s).clock place.length r.stored
    obtain ⟨noKey, keyed⟩ := judgeRead_whole (q := q) (weakLimit := weakLimit) (s := endPortFlight s)
      fun k inside dead => good k ⟨inside, dead⟩
    refine ⟨deliveredBand place r (endPortFlight s), size, bytes, fun none => ?_, fun key live => ⟨fun plain opens => ?_,
      fun tampered => ?_⟩⟩
    · rw [exec_readComplete on flight, noKey none]
      rfl
    · rw [exec_readComplete on flight, (keyed key live).1 plain opens]
      rfl
    · rw [exec_readComplete on flight, (keyed key live).2 tampered]
      rfl
  · have stops := judgeRead_stops (q := q) (weakLimit := weakLimit) (s := endPortFlight s) dead.1 dead.2 fun m less bad =>
      first m less ⟨Nat.lt_trans less dead.1, bad⟩
    rw [exec_readComplete on flight, stops]
    rfl
  · rw [findWeak_eq, own_weak.mpr weak]
    exact if_pos (by simpa using fresh)
  · rw [findWeak_eq]
    refine if_neg fun due => ?_
    simp only [Bool.and_eq_true, own_weak, Bool.not_eq_true', List.contains_eq_mem, decide_eq_false_iff_not] at due
    exact clear.elim (fun strong => strong due.1) due.2
  · have cases_ := findUnreadable_cases (q := q) (block := block) (s := s)
    simp only [readJobLive_iff] at cases_
    exact cases_
  · refine ⟨tamperedMarks place s.smc, fun b => ?_, fun live => ?_, fun dead => ?_⟩
    · have marks := markOf_markBlocks .cipher (placeBlocks place) s.smc b
      rw [markBlocks_frame] at marks
      refine ⟨fun mem none => marks.trans (if_pos ⟨mem, none⟩), fun other => marks.trans (if_neg fun both => ?_)⟩
      exact other.elim (fun apart => apart both.1) fun known => known both.2
    · rw [findTampered_eq]
      exact if_pos (readJobLive_iff.mpr live)
    · rw [findTampered_eq]
      exact if_neg fun yes => dead (readJobLive_iff.mp yes)

end Sys2Proof.Machine

/-! PROOFS. O48: an accepted band is laid down. -/

namespace Sys2Proof.Machine

/-! ### The filling image is handed on (R116, R117) -/

section Cease

variable {f : FillingImage} {s : State}

/-- The filling image as the programming image, with its program entered. -/
def handedOver (f : FillingImage) (s : State) : State :=
  { s with smc := { s.smc with
      filling := none, ops := s.smc.ops ++ [.program f.handle f.block false]
      programming := some { handle := f.handle, block := f.block, filled := f.filled, data := f.data } } }

/-- The filling image waits to be handed on. -/
def handingOn (f : FillingImage) (s : State) : State :=
  { s with smc := { s.smc with filling := some { f with handedOn := true } } }

theorem handOn_free (filling : s.smc.filling = some f) (on : f.handedOn = true) (free : s.smc.programming = none) :
    handOn s = some (handedOver f s) := by
  unfold handOn
  split
  · next g same _ =>
    obtain rfl := Option.some.inj (filling.symm.trans same)
    exact if_pos on
  · next other => exact absurd free (other f filling)

theorem handOn_waits (filling : s.smc.filling = some f) (waits : f.handedOn = false ∨ s.smc.programming ≠ none) :
    handOn s = none := by
  unfold handOn
  split
  · next g same free =>
    obtain rfl := Option.some.inj (filling.symm.trans same)
    exact if_neg (by simpa using waits.resolve_right fun busy => busy free)
  · rfl

theorem ceaseFilling_eq (filling : s.smc.filling = some f) : ceaseFilling s = (handOn (handingOn f s)).getD (handingOn f s) := by
  rw [ceaseFilling, filling]
  rfl

theorem ceaseFilling_free (filling : s.smc.filling = some f) (free : s.smc.programming = none) :
    ceaseFilling s = handedOver f s := by
  rw [ceaseFilling_eq filling, handOn_free (s := handingOn f s) rfl rfl free]
  rfl

theorem ceaseFilling_waits (filling : s.smc.filling = some f) (busy : s.smc.programming ≠ none) :
    ceaseFilling s = handingOn f s := by
  rw [ceaseFilling_eq filling, handOn_waits (s := handingOn f s) rfl (.inr busy)]
  rfl

end Cease

/-! ### The current image of a job (R116) -/

section Current

variable {b : Band} {key : LiveKey} {j : Job} {f : FillingImage} {s : State}

/-- The filling image is the job's, with room in its band map. -/
def Current (handle : Nat) (s : State) (f : FillingImage) : Prop :=
  s.smc.filling = some f ∧ f.handle = handle ∧ f.handedOn = false ∧ (bandMapOf s.smc f.block).length < 64

theorem yieldFilling_none (free : s.smc.filling = none) : yieldFilling b.handle s = s := by
  simp only [yieldFilling, free]

theorem yieldFilling_handedOn (filling : s.smc.filling = some f) (on : f.handedOn = true) : yieldFilling b.handle s = s := by
  simp only [yieldFilling, filling]
  exact if_neg (by simp [on])

theorem yieldFilling_current {handle : Nat} (current : Current handle s f) : yieldFilling handle s = s := by
  obtain ⟨filling, own, on, room⟩ := current
  simp only [yieldFilling, filling]
  exact if_neg (by simpa [on, own, Config.bandMapEntries] using room)

theorem yieldFilling_yields (filling : s.smc.filling = some f) (on : f.handedOn = false)
    (other : f.handle ≠ b.handle ∨ 64 ≤ (bandMapOf s.smc f.block).length) : yieldFilling b.handle s = ceaseFilling s := by
  simp only [yieldFilling, filling]
  refine if_pos ?_
  simpa [on, Config.bandMapEntries] using other

/-- An image that has ceased to be current is not handed on again. -/
theorem yieldFilling_ceased (filling : s.smc.filling = some f) :
    yieldFilling b.handle (ceaseFilling s) = ceaseFilling s := by
  cases image : s.smc.programming with
  | none =>
    rw [ceaseFilling_free filling image]
    exact yieldFilling_none (s := handedOver f s) rfl
  | some p =>
    rw [ceaseFilling_waits filling (by simp [image])]
    exact yieldFilling_handedOn (s := handingOn f s) (f := { f with handedOn := true }) rfl rfl

theorem currentImage_some {handle : Nat} (current : Current handle s f) : currentImage s handle = some f := by
  obtain ⟨filling, own, on, -⟩ := current
  simp [currentImage, filling, own, on]

theorem currentImage_none {handle : Nat} (other : s.smc.filling = none ∨ ∃ f, s.smc.filling = some f ∧ f.handedOn = true) :
    currentImage s handle = none := by
  rcases other with free | ⟨f, filling, on⟩
  · simp [currentImage, free]
  · simp [currentImage, filling, on]

/-! ### What becomes of a band (R24, R25, R117) -/

/-- R25: a block is free, with an extent entry where it needs one. -/
def Room (j : Job) (s : State) : Prop := ∃ block rest, s.smc.free = block :: rest
  ∧ ((growExtents block j.extents).length = j.extents.length ∨ extentsUsed s.jt < 4096)

theorem roomForBlock_iff : roomForBlock s j = true ↔ Room j s := by
  unfold roomForBlock Room
  cases s.smc.free with
  | nil => simp
  | cons block rest =>
    rw [Bool.or_eq_true, decide_eq_true_iff, decide_eq_true_iff]
    exact ⟨fun room => ⟨block, rest, rfl, room⟩, fun ⟨_, _, same, room⟩ => (List.cons.inj same).1 ▸ room⟩

theorem storeBand_yields (filling : s.smc.filling = some f) (on : f.handedOn = false)
    (other : f.handle ≠ b.handle ∨ 64 ≤ (bandMapOf s.smc f.block).length) :
    storeBand b key j s = storeBand b key j (ceaseFilling s) := by
  unfold storeBand
  rw [yieldFilling_yields filling on other, yieldFilling_ceased filling]

theorem storeBand_current (current : Current b.handle s f) : storeBand b key j s
    = if f.filled + (b.length + 16) ≤ 131072 then
        .stored (layInCurrent b (sealBand key b.page b.index b.payload) f j s)
      else if !roomForBlock s j then .held .room s
      else if s.smc.programming.isSome then .held .image s
      else .stored (layInNew b (sealBand key b.page b.index b.payload) (some f) j s) := by
  unfold storeBand
  rw [yieldFilling_current current]
  simp only [currentImage_some current, Config.blockBytes]

theorem storeBand_fresh (other : s.smc.filling = none ∨ ∃ f, s.smc.filling = some f ∧ f.handedOn = true) :
    storeBand b key j s = if !roomForBlock s j then .held .room s
      else if s.smc.filling.isSome then .held .image s
      else .stored (layInNew b (sealBand key b.page b.index b.payload) none j s) := by
  have stays : yieldFilling b.handle s = s := by
    rcases other with free | ⟨f, filling, on⟩
    · exact yieldFilling_none free
    · exact yieldFilling_handedOn filling on
  unfold storeBand
  rw [stays]
  simp only [currentImage_none other]

theorem storeBand_noRoom (waits : s.smc.filling = none ∨ (∃ f, s.smc.filling = some f ∧ f.handedOn = true)
    ∨ ∃ f, Current b.handle s f ∧ 131072 < f.filled + (b.length + 16)) (full : ¬ Room j s) :
    storeBand b key j s = .held .room s := by
  have closed : (!roomForBlock s j) = true := by
    rw [Bool.not_eq_true', ← Bool.not_eq_true, roomForBlock_iff]
    exact full
  rcases waits with free | on | ⟨f, current, more⟩
  · rw [storeBand_fresh (.inl free), if_pos closed]
  · rw [storeBand_fresh (.inr on), if_pos closed]
  · rw [storeBand_current current, if_neg (Nat.not_le.mpr more), if_pos closed]

theorem storeBand_noBuffer (room : Room j s) (waits : (∃ f, s.smc.filling = some f ∧ f.handedOn = true)
    ∨ ((∃ f, Current b.handle s f ∧ 131072 < f.filled + (b.length + 16)) ∧ s.smc.programming ≠ none)) :
    storeBand b key j s = .held .image s := by
  have open_ : ¬ (!roomForBlock s j) = true := by simp [roomForBlock_iff.mpr room]
  rcases waits with ⟨f, filling, on⟩ | ⟨⟨f, current, more⟩, busy⟩
  · rw [storeBand_fresh (.inr ⟨f, filling, on⟩), if_neg open_, if_pos (by simp [filling])]
  · rw [storeBand_current current, if_neg (Nat.not_le.mpr more), if_neg open_, if_pos (Option.isSome_iff_ne_none.mpr busy)]

theorem storeBand_new (room : Room j s) (free : s.smc.filling = none) :
    storeBand b key j s = .stored (layInNew b (sealBand key b.page b.index b.payload) none j s) := by
  rw [storeBand_fresh (.inl free), if_neg (by simp [roomForBlock_iff.mpr room]), if_neg (by simp [free])]

theorem storeBand_goesOn (room : Room j s) (current : Current b.handle s f) (more : 131072 < f.filled + (b.length + 16))
    (free : s.smc.programming = none) :
    storeBand b key j s = .stored (layInNew b (sealBand key b.page b.index b.payload) (some f) j s) := by
  rw [storeBand_current current, if_neg (Nat.not_le.mpr more), if_neg (by simp [roomForBlock_iff.mpr room]), if_neg (by simp [free])]

theorem storeBand_fits (current : Current b.handle s f) (fits : f.filled + (b.length + 16) ≤ 131072) :
    storeBand b key j s = .stored (layInCurrent b (sealBand key b.page b.index b.payload) f j s) := by
  exact (storeBand_current current).trans (if_pos fits)

end Current

/-! ### A band in its image (R23, R24, R116) -/

section Laid

variable {b : Band} {stored : List Byte} {j : Job} {f : FillingImage} {s : State} {block offset : Nat}

theorem bandMapOf_addBandEntry (block : Nat) (e : BandEntry) (m : SpoolMedia) :
    bandMapOf (addBandEntry block e m) block = bandMapOf m block ++ [e] := by
  have gone : (m.bandMaps.filter (·.1 != block)).find? (·.1 == block) = none := by simp [List.find?_eq_none]
  simp only [bandMapOf, addBandEntry, dropBandMap, List.find?_append, gone]
  simp

/-- R23: the page opened, in the terms of the extent list. -/
def Opened (b : Band) (j : Job) (extents : List Extent) (block offset : Nat) (jt : JobTable) : Prop :=
  ∃ fresh : List PageEntry, jobOf jt b.handle = some { j with extents := extents, pages := j.pages ++ fresh }
    ∧ (b.index ≠ 1 → fresh = [])
    ∧ (b.index = 1 → ∃ x o, fresh = [{ extent := x, offset := o }]
        ∧ ∀ n e, extents[n]? = some e → e.first ≤ block → block < e.first + e.count →
            (∀ m f, m < n → extents[m]? = some f → ¬ (f.first ≤ block ∧ block < f.first + f.count)) →
            x = n ∧ o = (block - e.first) * 131072 + offset)

/-- The place of a byte of a block under the first extent that holds the block. -/
theorem locationIn_first {extents : List Extent} {n : Nat} {e : Extent} (at_ : extents[n]? = some e) (low : e.first ≤ block)
    (high : block < e.first + e.count)
    (before : ∀ m f, m < n → extents[m]? = some f → ¬ (f.first ≤ block ∧ block < f.first + f.count)) :
    locationIn extents block offset = (n, (block - e.first) * 131072 + offset) := by
  obtain ⟨inside, own⟩ := List.getElem?_eq_some_iff.mp at_
  have found : (extents.findIdx? fun e => e.first ≤ block && block < e.first + e.count) = some n := by
    refine List.findIdx?_eq_some_iff_getElem.mpr ⟨inside, by simp [own, low, high], fun m less => ?_⟩
    have other := before m extents[m] less (List.getElem?_eq_getElem (by omega))
    simpa using other
  simp only [locationIn, found, at_, Option.map_some, Option.getD_some, Config.blockBytes]

theorem opened_setJob {r : Job} {jt : JobTable} {extents : List Extent} (named : jobOf jt b.handle = some r) (own : j.handle = b.handle) :
    Opened b j extents block offset (putJob (openPage b block offset { j with extents := extents }) jt) := by
  unfold openPage
  split
  · next first =>
    refine ⟨[{ extent := (locationIn extents block offset).1, offset := (locationIn extents block offset).2 }],
      jobOf_putJob named own, fun other => absurd first other, fun _ => ⟨_, _, rfl, fun n e at_ low high before => ?_⟩⟩
    rw [locationIn_first at_ low high before]
    exact ⟨rfl, rfl⟩
  · next other =>
    refine ⟨[], ?_, fun _ => rfl, fun first => absurd first other⟩
    rw [List.append_nil]
    exact jobOf_putJob named own

/-- R24: a band as the state has it before the image may be full. -/
def laidIn (b : Band) (stored : List Byte) (f : FillingImage) (j : Job) (s : State) : State :=
  setJob (openPage b f.block f.filled j) { s with smc := { addBandEntry f.block (bandEntry b f.filled) s.smc with
    filling := some { f with filled := f.filled + (b.length + 16), data := f.data ++ stored } } }

theorem layInCurrent_eq (b : Band) (stored : List Byte) (f : FillingImage) (j : Job) (s : State) :
    layInCurrent b stored f j s
      = if f.filled + (b.length + 16) = 131072 then ceaseFilling (laidIn b stored f j s) else laidIn b stored f j s := rfl

/-- R116: what a band that fits its job's image leaves. -/
theorem layInCurrent_leaves (named : jobOf s.jt b.handle = some j) (own : j.handle = b.handle) :
    let size := b.length + 16
    let image : FillingImage := { f with filled := f.filled + size, data := f.data ++ stored }
    let t := layInCurrent b stored f j s
    Opened b j j.extents f.block f.filled t.jt
      ∧ bandMapOf t.smc f.block = bandMapOf s.smc f.block ++ [bandEntry b f.filled]
      ∧ t.smc.free = s.smc.free ∧ t.smc.defects = s.smc.defects
      ∧ (f.filled + size < 131072 → t.smc.filling = some image ∧ t.smc.programming = s.smc.programming
        ∧ t.smc.ops = s.smc.ops)
      ∧ (f.filled + size = 131072 → s.smc.programming = none → t.smc.filling = none
        ∧ t.smc.programming = some { handle := f.handle, block := f.block, filled := 131072, data := image.data }
        ∧ t.smc.ops = s.smc.ops ++ [.program f.handle f.block false])
      ∧ (f.filled + size = 131072 → s.smc.programming ≠ none → t.smc.filling = some { image with handedOn := true }
        ∧ t.smc.programming = s.smc.programming ∧ t.smc.ops = s.smc.ops) := by
  have opened : Opened b j j.extents f.block f.filled (laidIn b stored f j s).jt := opened_setJob named own
  have map := bandMapOf_addBandEntry f.block (bandEntry b f.filled) s.smc
  rw [layInCurrent_eq]
  dsimp only
  split
  · next full =>
    by_cases free : s.smc.programming = none
    · rw [ceaseFilling_free (s := laidIn b stored f j s) rfl free]
      refine ⟨opened, map, rfl, rfl, fun less => absurd full (Nat.ne_of_lt less), fun _ _ => ⟨rfl, ?_, rfl⟩,
        fun _ busy => absurd free busy⟩
      dsimp only [handedOver]
      rw [full]
    · rw [ceaseFilling_waits (s := laidIn b stored f j s) rfl free]
      exact ⟨opened, map, rfl, rfl, fun less => absurd full (Nat.ne_of_lt less), fun _ none => absurd none free,
        fun _ _ => ⟨rfl, rfl, rfl⟩⟩
  · next part =>
    exact ⟨opened, map, rfl, rfl, fun _ => ⟨rfl, rfl, rfl⟩, fun full => absurd full part, fun full => absurd full part⟩

/-- R24, R116: what a band that begins in a fresh block leaves. -/
theorem layInNew_fresh {rest : List Nat} (named : jobOf s.jt b.handle = some j) (own : j.handle = b.handle)
    (free : s.smc.free = block :: rest) :
    let t := layInNew b stored none j s
    (t.smc.free = rest ∧ t.smc.defects = { s.smc.defects with clean := s.smc.defects.clean.erase block })
      ∧ Opened b j (growExtents block j.extents) block 0 t.jt
      ∧ bandMapOf t.smc block = bandMapOf s.smc block ++ [bandEntry b 0] ∧ t.smc.programming = s.smc.programming
      ∧ t.smc.filling = some { handle := b.handle, block := block, filled := b.length + 16, data := stored } := by
  have opened := opened_setJob (block := block) (offset := 0) (extents := growExtents block j.extents) named own
  have map := bandMapOf_addBandEntry block (bandEntry b 0) s.smc
  simp only [layInNew, takeFree, free]
  exact ⟨⟨rfl, rfl⟩, opened, map, rfl, rfl⟩

/-- R24, R115: the state with a block taken for a band that begins in its job's image, which is full. -/
def blockFilled (b : Band) (stored : List Byte) (f : FillingImage) (block : Nat) (rest : List Nat) (s : State) : State :=
  let t := setDefects { s.smc.defects with clean := s.smc.defects.clean.erase block } { s with smc := { s.smc with free := rest } }
  { t with smc := { addBandEntry f.block (bandEntry b f.filled) t.smc with
    filling := some { f with filled := 131072, data := f.data ++ stored.take (131072 - f.filled) } } }

theorem layInNew_current_eq {rest : List Nat} (free : s.smc.free = block :: rest) : layInNew b stored (some f) j s
    = (let t := ceaseFilling (blockFilled b stored f block rest s)
       setJob (openPage b f.block f.filled { j with extents := growExtents block j.extents }) { t with smc := { t.smc with
         filling := some { handle := b.handle, block := block, filled := b.length + 16 - (131072 - f.filled)
                           data := stored.drop (131072 - f.filled) } } }) := by
  simp only [layInNew, takeFree, free]
  rfl

/-- R24, R116: what a band that goes on in a fresh block leaves. -/
theorem layInNew_goesOn {rest : List Nat} (named : jobOf s.jt b.handle = some j) (own : j.handle = b.handle)
    (free : s.smc.free = block :: rest) (image : s.smc.programming = none) :
    let left := 131072 - f.filled
    let t := layInNew b stored (some f) j s
    (t.smc.free = rest ∧ t.smc.defects = { s.smc.defects with clean := s.smc.defects.clean.erase block })
      ∧ Opened b j (growExtents block j.extents) f.block f.filled t.jt
      ∧ bandMapOf t.smc f.block = bandMapOf s.smc f.block ++ [bandEntry b f.filled]
      ∧ t.smc.programming = some { handle := f.handle, block := f.block, filled := 131072
                                   data := f.data ++ stored.take left }
      ∧ t.smc.ops = s.smc.ops ++ [.program f.handle f.block false]
      ∧ t.smc.filling = some { handle := b.handle, block := block, filled := b.length + 16 - left, data := stored.drop left } := by
  have opened := opened_setJob (block := f.block) (offset := f.filled) (extents := growExtents block j.extents) named own
  have map := bandMapOf_addBandEntry f.block (bandEntry b f.filled) s.smc
  rw [layInNew_current_eq free, ceaseFilling_free (s := blockFilled b stored f block rest s) rfl image]
  exact ⟨⟨rfl, rfl⟩, opened, map, rfl, rfl, rfl⟩

end Laid

end Sys2Proof.Machine

/-! PROOFS. O48, continued: pages and intake end, and a band is held. -/

namespace Sys2Proof.Machine

/-! ### A record replaced twice -/

section Twice

variable {jt : JobTable} {j r : Job} {handle : Nat} {s : State}

theorem putJob_putJob (same : r.handle = j.handle) : putJob r (putJob j jt) = putJob r jt := by
  have slot := congrArg slotOf same
  simp only [putJob, slot, get_set_self, Vector.set_set]

theorem setJob_setJob (same : r.handle = j.handle) : setJob r (setJob j s) = setJob r s := by
  unfold setJob
  rw [putJob_putJob same]

theorem changeJob_named {f : Job → Job} (named : jobOf s.jt handle = some j) : changeJob handle f s = setJob (f j) s := by
  simp only [changeJob, named]

theorem jobOf_setJob (named : jobOf s.jt handle = some j) (own : r.handle = handle) :
    jobOf (setJob r s).jt handle = some r := jobOf_putJob named own

end Twice

/-! ### A stored band is counted, and its page closes (R23, R35) -/

section Finish

variable {b : Band} {j : Job} {front : List PageEntry} {p : PageEntry} {s : State}

/-- R23: the page entry after a band. -/
def bandCounted (b : Band) (p : PageEntry) : PageEntry := { p with bands := p.bands + 1, bytes := p.bytes + b.length }

/-- R23: the job's record after a band. -/
def bandTaken (b : Band) (front : List PageEntry) (p : PageEntry) (j : Job) : Job :=
  { j with pages := front ++ [bandCounted b p], expected := some (b.page, b.index + 1) }

theorem changeLastPage_concat (f : PageEntry → PageEntry) (pages : j.pages = front ++ [p]) :
    changeLastPage f j = { j with pages := front ++ [f p] } := by
  have last : j.pages.getLast? = some p := by rw [pages, List.getLast?_concat]
  have init : j.pages.dropLast = front := by rw [pages, List.dropLast_concat]
  simp only [changeLastPage, last, init]

theorem finishBand_eq (named : jobOf s.jt b.handle = some j) (pages : j.pages = front ++ [p]) :
    finishBand b s = if isLastBand b then
        if isLastPage b then endIntake b.handle (closePage b (bandTaken b front p j) s) else closePage b (bandTaken b front p j) s
      else setJob (bandTaken b front p j) s := by
  simp only [finishBand, named]
  rw [changeLastPage_concat _ pages]
  rfl

/-- R23: the class a page closes with. -/
def closingClass (b : Band) (s : State) : SideClass := classifyPage s.settings.meter.colourThreshold (headerCoverage b)

/-- R23: the page entry as it closes. -/
def pageClosed (b : Band) (s : State) (p : PageEntry) : PageEntry :=
  { bandCounted b p with coverage := storedCoverage (closingClass b s) (headerCoverage b), cls := some (closingClass b s) }

/-- R23: the job's record as its page closes. -/
def pageDone (b : Band) (front : List PageEntry) (p : PageEntry) (j : Job) (s : State) : Job :=
  { bandTaken b front p j with pages := front ++ [pageClosed b s p] }

/-- R35: the charge of a page that is closed, which a PRINT job does not pay. -/
def pageCharged (j : Job) (page : Nat) (s : State) : State := if j.kind = .print then s else takeScanCharge j page s

/-- R23: the rest of the close of a page, once its entry is closed. -/
def pageClose (b : Band) (r : Job) (s : State) : State :=
  changeJob b.handle (fun j => { j with expected := some (b.page + 1, 1) }) (emit (.pageStored b.handle b.page) (pageCharged r b.page s))

theorem closePage_rest (b : Band) (j : Job) (s : State) : closePage b j s
    = (let r := changeLastPage (fun p => { p with
          coverage := storedCoverage (closingClass b s) (headerCoverage b), cls := some (closingClass b s) }) j
       pageClose b r (setJob r s)) := by
  unfold closePage
  dsimp only
  generalize named : changeLastPage _ j = r
  have same : changeLastPage (fun p => { p with
      coverage := storedCoverage (closingClass b s) (headerCoverage b), cls := some (closingClass b s) }) j = r := named
  rw [same]
  unfold pageClose pageCharged
  cases r.kind <;> rfl

theorem closePage_eq (b : Band) (front : List PageEntry) (p : PageEntry) (j : Job) (s : State) :
    closePage b (bandTaken b front p j) s = pageClose b (pageDone b front p j s) (setJob (pageDone b front p j s) s) := by
  rw [closePage_rest, changeLastPage_concat (front := front) (p := bandCounted b p) _ rfl]
  rfl

/-- R23: the close of a page of a job that pays no scan charge. -/
theorem pageClose_print {r : Job} (named : jobOf s.jt b.handle = some r) (kind : r.kind = .print) :
    pageClose b r s = emit (.pageStored b.handle b.page) (setJob { r with expected := some (b.page + 1, 1) } s) := by
  have free : pageCharged r b.page s = s := if_pos kind
  rw [pageClose, free]
  exact changeJob_named (s := emit (.pageStored b.handle b.page) s) named

/-- R35: what the scan charge of a page leaves. -/
def scanCharged (a : Account) (j : Job) (page : Nat) (s : State) : State :=
  let due := s.settings.price.scanRate
  let taken := min due (available a).toNat
  let t := setJob { j with charged := min (j.charged + taken) 4294967295 } (updateAccount j.owner (scanCharge due taken) s)
  if due - taken > 0 then raiseNote (.scanShortfall j.owner j.handle page (due - taken)) t else t

theorem takeScanCharge_eq {a : Account} {page : Nat} (found : findAccount j.owner s.accounts = some a)
    (named : jobOf s.jt j.handle = some j) : takeScanCharge j page s = scanCharged a j page s := by
  have still : jobOf (updateAccount j.owner (scanCharge s.settings.price.scanRate
      (scanTaken s.settings.price.scanRate (available a))) s).jt j.handle = some j := by
    rw [updateAccount_jt]
    exact named
  simp only [takeScanCharge, found, changeJob_named still]
  rfl

theorem scanCharged_job {a : Account} {page handle : Nat} (named : jobOf s.jt handle = some j) (own : j.handle = handle) :
    jobOf (scanCharged a j page s).jt handle = some { j with
      charged := min (j.charged + min s.settings.price.scanRate (available a).toNat) 4294967295 } := by
  have still : jobOf (updateAccount j.owner (scanCharge s.settings.price.scanRate
      (min s.settings.price.scanRate (available a).toNat)) s).jt handle = some j := by
    rw [updateAccount_jt]
    exact named
  unfold scanCharged
  dsimp only
  split
  · exact jobOf_setJob still own
  · exact jobOf_setJob still own

theorem scanCharged_rest {a : Account} {page : Nat} :
    let due := s.settings.price.scanRate
    let taken := min due (available a).toNat
    let t := scanCharged a j page s
    let noted := if taken < due then raiseNote (.scanShortfall j.owner j.handle page (due - taken)) s else s
    t.accounts = s.accounts.map (fun x => if x.id = j.owner then scanCharge due taken x else x)
      ∧ t.fm = noted.fm ∧ t.lif = noted.lif ∧ t.smc = s.smc ∧ t.spm = s.spm := by
  unfold scanCharged
  dsimp only
  generalize min s.settings.price.scanRate (available a).toNat = taken
  split
  · next short =>
    rw [if_pos (by omega)]
    obtain ⟨lif, fm⟩ := raiseNote_link (n := .scanShortfall j.owner j.handle page (s.settings.price.scanRate - taken))
      (s := setJob { j with charged := min (j.charged + taken) 4294967295 }
        (updateAccount j.owner (scanCharge s.settings.price.scanRate taken) s))
      (t := s) (updateAccount_lif _ _ _) (updateAccount_fm _ _ _) (updateAccount_clock _ _ _)
    exact ⟨updateAccount_accounts _ _ _, fm, lif, updateAccount_smc _ _ _, updateAccount_spm _ _ _⟩
  · next paid =>
    rw [if_neg (by omega)]
    exact ⟨updateAccount_accounts _ _ _, updateAccount_fm _ _ _, updateAccount_lif _ _ _, updateAccount_smc _ _ _,
      updateAccount_spm _ _ _⟩

/-- R35: the page closes with its scan charge. -/
theorem pageClose_scan {a : Account} (named : jobOf s.jt b.handle = some j) (own : j.handle = b.handle) (kind : j.kind ≠ .print)
    (found : findAccount j.owner s.accounts = some a) :
    let due := s.settings.price.scanRate
    let taken := min due (available a).toNat
    let noted := if taken < due then raiseNote (.scanShortfall j.owner b.handle b.page (due - taken)) s else s
    let t := pageClose b j s
    t.accounts = s.accounts.map (fun x => if x.id = j.owner then scanCharge due taken x else x)
      ∧ jobOf t.jt b.handle = some { j with expected := some (b.page + 1, 1), charged := min (j.charged + taken) 4294967295 }
      ∧ t.fm = noted.fm ∧ t.lif = (emit (.pageStored b.handle b.page) noted).lif ∧ t.smc = s.smc ∧ t.spm = s.spm := by
  have charge : pageCharged j b.page s = scanCharged a j b.page s :=
    (if_neg kind).trans (takeScanCharge_eq found (own ▸ named))
  have charged := scanCharged_job (a := a) (page := b.page) named own
  obtain ⟨accounts, fm, lif, smc, spm⟩ := scanCharged_rest (a := a) (page := b.page) (j := j) (s := s)
  rw [own] at fm lif
  dsimp only
  rw [pageClose, charge]
  generalize scanCharged a j b.page s = u at *
  rw [changeJob_named (s := emit (.pageStored b.handle b.page) u) charged]
  exact ⟨accounts, jobOf_setJob (s := emit (.pageStored b.handle b.page) u) charged own, fm,
    congrArg (admitNotice (.pageStored b.handle b.page)) lif, smc, spm⟩

/-- R23: a stored band that is not the last of its page. -/
theorem finishBand_counts (named : jobOf s.jt b.handle = some j) (pages : j.pages = front ++ [p]) (more : b.flags % 2 = 0) :
    finishBand b s = setJob (bandTaken b front p j) s := by
  rw [finishBand_eq named pages, if_neg (by simp [isLastBand, more])]

/-- R23: the last band of a page that is not the last of its job. -/
theorem finishBand_page (named : jobOf s.jt b.handle = some j) (pages : j.pages = front ++ [p]) (flags : b.flags = 1) :
    finishBand b s = pageClose b (pageDone b front p j s) (setJob (pageDone b front p j s) s) := by
  rw [finishBand_eq named pages, if_pos (by simp [isLastBand, flags]), if_neg (by simp [isLastPage, flags]), closePage_eq]

/-- R23: the last band of a page of a job that pays no scan charge. -/
theorem finishBand_print (named : jobOf s.jt b.handle = some j) (own : j.handle = b.handle) (pages : j.pages = front ++ [p])
    (flags : b.flags = 1) (kind : j.kind = .print) : finishBand b s = emit (.pageStored b.handle b.page)
      (setJob { pageDone b front p j s with expected := some (b.page + 1, 1) } s) := by
  rw [finishBand_page named pages flags, pageClose_print (r := pageDone b front p j s) (jobOf_setJob named own) kind]
  generalize pageDone b front p j s = r
  exact congrArg (emit _) (setJob_setJob rfl)

/-- R35: the last band of a page that is charged for. -/
theorem finishBand_scan {a : Account} (named : jobOf s.jt b.handle = some j) (own : j.handle = b.handle)
    (pages : j.pages = front ++ [p]) (flags : b.flags = 1) (kind : j.kind ≠ .print) (found : findAccount j.owner s.accounts = some a) :
    let due := s.settings.price.scanRate
    let taken := min due (available a).toNat
    let noted := if taken < due then raiseNote (.scanShortfall j.owner b.handle b.page (due - taken)) s else s
    let t := finishBand b s
    t.accounts = s.accounts.map (fun x => if x.id = j.owner then scanCharge due taken x else x)
      ∧ jobOf t.jt b.handle = some { pageDone b front p j s with
          expected := some (b.page + 1, 1), charged := min (j.charged + taken) 4294967295 }
      ∧ t.fm = noted.fm ∧ t.lif = (emit (.pageStored b.handle b.page) noted).lif ∧ t.smc = s.smc ∧ t.spm = s.spm := by
  obtain ⟨accounts, job, fm, lif, smc, spm⟩ := pageClose_scan (b := b) (j := pageDone b front p j s)
    (s := setJob (pageDone b front p j s) s) (a := a) (jobOf_setJob named own) own kind found
  dsimp only
  rw [finishBand_page named pages flags]
  generalize pageClose b (pageDone b front p j s) (setJob (pageDone b front p j s) s) = t at *
  refine ⟨accounts, job, ?_, ?_, smc, spm⟩
  · rw [fm]
    split
    · next short =>
      rw [if_pos (by exact short)]
      rfl
    · next paid =>
      rw [if_neg (by exact paid)]
      rfl
  · rw [lif]
    split
    · next short =>
      rw [if_pos (by exact short)]
      rfl
    · next paid =>
      rw [if_neg (by exact paid)]
      rfl

/-- R26: the last band of a job ends its intake after its page. -/
theorem finishBand_last (named : jobOf s.jt b.handle = some j) (pages : j.pages = front ++ [p]) (flags : b.flags = 3) :
    finishBand b s = endIntake b.handle (finishBand { b with flags := 1 } s) := by
  rw [finishBand_eq named pages, if_pos (by simp [isLastBand, flags]), if_pos (by simp [isLastPage, flags]), closePage_eq,
    finishBand_page (b := { b with flags := 1 }) named pages rfl]
  rfl

end Finish

/-! ### Intake ends (R26) -/

section Ends

variable {handle : Nat} {j : Job} {s : State}

/-- R116: the image of a job whose intake ends ceases to be current. -/
def intakeImage (handle : Nat) (s : State) : State :=
  if s.smc.filling.any (fun f => f.handle == handle && !f.handedOn) then ceaseFilling s else s

theorem ceaseFilling_keeps {f : FillingImage} (filling : s.smc.filling = some f) :
    (ceaseFilling s).jt = s.jt ∧ (ceaseFilling s).accounts = s.accounts ∧ (ceaseFilling s).clock = s.clock
      ∧ (ceaseFilling s).settings = s.settings := by
  by_cases free : s.smc.programming = none
  · rw [ceaseFilling_free filling free]
    exact ⟨rfl, rfl, rfl, rfl⟩
  · rw [ceaseFilling_waits filling free]
    exact ⟨rfl, rfl, rfl, rfl⟩

theorem intakeImage_keeps (handle : Nat) (s : State) :
    (intakeImage handle s).jt = s.jt ∧ (intakeImage handle s).accounts = s.accounts ∧ (intakeImage handle s).clock = s.clock
      ∧ (intakeImage handle s).settings = s.settings := by
  unfold intakeImage
  split
  · next image =>
    cases filling : s.smc.filling with
    | none => simp [filling] at image
    | some f => exact ceaseFilling_keeps filling
  · exact ⟨rfl, rfl, rfl, rfl⟩

theorem currentImage_isSome (handle : Nat) (s : State) :
    (currentImage s handle).isSome = s.smc.filling.any (fun f => f.handle == handle && !f.handedOn) := by
  cases filling : s.smc.filling with
  | none => simp [currentImage, filling]
  | some f => by_cases own : f.handle = handle <;> cases on : f.handedOn <;> simp [currentImage, filling, own, on]

/-- R26: what intake leaves of the part before the job goes on. -/
theorem endIntake_eq (named : jobOf s.jt handle = some j) (own : j.handle = handle) :
    endIntake handle s = (let r : Job := { j with expected := none }
      let t := setJob r (intakeImage handle s)
      if j.priv then moveJob { r with state := .held (nowSeconds s + s.settings.limits.holdLimit * 60) } t
      else if hasColourPage j && !hasColourRight s j.owner then closeJob (.aborted .noColourRight) handle t
      else queueTail r t) := by
  obtain ⟨jt, accounts, clock, settings⟩ := intakeImage_keeps handle s
  have image : (if (currentImage s handle).isSome then ceaseFilling s else s) = intakeImage handle s := by
    rw [currentImage_isSome]
    rfl
  have still : jobOf (intakeImage handle s).jt handle = some j := by rw [jt, named]
  unfold endIntake
  rw [image]
  dsimp only
  generalize intakeImage handle s = t at *
  rw [changeJob_named still]
  have done := jobOf_setJob (r := { j with expected := none }) still own
  have right : hasColourRight (setJob { j with expected := none } t) j.owner = hasColourRight s j.owner := by
    unfold hasColourRight
    exact congrArg (fun table => ((findAccount j.owner table).map (·.colourRight)).getD false) accounts
  have now : nowSeconds (setJob { j with expected := none } t) = nowSeconds s := by
    exact congrArg (· / 2000) clock
  have hold : (setJob { j with expected := none } t).settings = s.settings := settings
  simp only [done, right, now, hold]
  rfl

theorem hasColourRight_iff {owner : Nat} :
    hasColourRight s owner = true ↔ ∃ a, findAccount owner s.accounts = some a ∧ a.colourRight = true := by
  cases found : findAccount owner s.accounts <;> simp [hasColourRight, found]

theorem endIntake_held (named : jobOf s.jt handle = some j) (own : j.handle = handle) (priv : j.priv = true) :
    endIntake handle s = moveJob { j with expected := none, state := .held (nowSeconds s + s.settings.limits.holdLimit * 60) }
      (setJob { j with expected := none } (intakeImage handle s)) := by
  rw [endIntake_eq named own]
  exact if_pos priv

theorem endIntake_refused (named : jobOf s.jt handle = some j) (own : j.handle = handle) (open_ : j.priv = false)
    (colour : hasColourPage j = true) (right : ¬ hasColourRight s j.owner = true) :
    endIntake handle s = closeJob (.aborted .noColourRight) handle (setJob { j with expected := none } (intakeImage handle s)) := by
  rw [endIntake_eq named own]
  exact (if_neg (by simp [open_])).trans (if_pos (by simp [colour, right]))

theorem endIntake_queued (named : jobOf s.jt handle = some j) (own : j.handle = handle) (open_ : j.priv = false)
    (granted : hasColourPage j = true → hasColourRight s j.owner = true) :
    endIntake handle s = queueTail { j with expected := none } (setJob { j with expected := none } (intakeImage handle s)) := by
  rw [endIntake_eq named own]
  refine (if_neg (by simp [open_])).trans (if_neg ?_)
  cases colour : hasColourPage j with
  | false => simp
  | true => simp [granted colour]

/-- R7, R26: the job joins the queue as it stood. -/
theorem queueTail_intake (own : j.handle = handle) : queueTail j (setJob j (intakeImage handle s))
    = (let t := setJob j (intakeImage handle s)
       let q := queueOf s.jt (destinationOf j.kind)
       moveJob { j with state := .queued } { t with
        jt := putQueue (destinationOf j.kind) { waiting := q.waiting ++ [handle], active := q.active } t.jt }) := by
  have queue : queueOf (setJob j (intakeImage handle s)).jt (destinationOf j.kind) = queueOf s.jt (destinationOf j.kind) := by
    rw [← (intakeImage_keeps handle s).1]
    cases destinationOf j.kind <;> rfl
  unfold queueTail
  dsimp only
  rw [queue, own]

end Ends

/-! ### A band is held, and stored after all (R25, R117) -/

section Held

variable {b : Band} {s : State}

theorem holdBand_room (b : Band) (s : State) : holdBand b .room s = { s with jt := { s.jt with
    held := some { band := b, reason := .room }
    stallTimer := some (s.jt.stallTimer.getD (nowMs s + s.settings.limits.intakeStallLimit * 1000)) } } := by
  unfold holdBand
  dsimp only
  cases timer : s.jt.stallTimer with
  | none =>
    rw [if_pos ⟨rfl, rfl⟩]
    rfl
  | some at_ =>
    rw [if_neg (by simp), reviewTimer_frame, if_pos (timerWanted_iff.mpr (.inl ⟨_, rfl, rfl⟩))]
    rfl

theorem holdBand_image (b : Band) (s : State) : holdBand b .image s = { s with jt := { s.jt with
    held := some { band := b, reason := .image }
    stallTimer := if s.smc.programming.any (·.phase = .needsBlock) then s.jt.stallTimer else none } } := by
  unfold holdBand
  dsimp only
  rw [if_neg (by simp), reviewTimer_frame]
  rfl

theorem layInCurrent_held (b : Band) (stored : List Byte) (f : FillingImage) (j : Job) (s : State) :
    (layInCurrent b stored f j s).jt.held = s.jt.held := by
  rw [layInCurrent_eq]
  split
  · rw [ceaseFilling_jt]
    rfl
  · rfl

theorem layInNew_held (b : Band) (stored : List Byte) (current : Option FillingImage) (j : Job) (s : State) :
    (layInNew b stored current j s).jt.held = s.jt.held := by
  cases free : s.smc.free with
  | nil => simp only [layInNew, takeFree, free]
  | cons block rest =>
    cases current with
    | none =>
      simp only [layInNew, takeFree, free]
      rfl
    | some f =>
      rw [layInNew_current_eq free]
      have same := congrArg JobTable.held (ceaseFilling_jt (blockFilled b stored f block rest s))
      exact same

theorem yieldFilling_held (handle : Nat) (s : State) : (yieldFilling handle s).jt.held = s.jt.held := by
  unfold yieldFilling
  split
  · split
    · rw [ceaseFilling_jt]
    · rfl
  · rfl

/-- What stores a band leaves the held one as it is. -/
theorem storeBand_held (b : Band) (key : LiveKey) (j : Job) (s : State) : (storeBand b key j s).state.jt.held = s.jt.held := by
  rw [← yieldFilling_held b.handle s]
  unfold storeBand
  dsimp only
  generalize yieldFilling b.handle s = t
  split
  · split
    · exact layInCurrent_held _ _ _ _ _
    split
    · rfl
    split
    · rfl
    · exact layInNew_held _ _ _ _ _
  · split
    · rfl
    split
    · rfl
    · exact layInNew_held b _ none j t

variable {h : HeldBand} {j : Job} {key : LiveKey} {reason : HoldReason} {t : State}

theorem retryHeld_stored (held : s.jt.held = some h) (named : jobOf s.jt h.band.handle = some j) (intake : j.state = .intake)
    (live : liveKey s h.band.handle = some key)
    (stored : storeBand h.band key j { s with jt := { s.jt with held := none } } = .stored t) :
    retryHeld s = some (finishBand h.band
      { t with jt := { t.jt with stallTimer := if t.smc.programming.any (·.phase = .needsBlock) then t.jt.stallTimer else none } }) := by
  have free : t.jt.held = none := by
    have kept := storeBand_held h.band key j { s with jt := { s.jt with held := none } }
    rw [stored] at kept
    exact kept
  have wanted : timerWanted t = t.smc.programming.any (·.phase = .needsBlock) := by
    rw [timerWanted, free]
    rfl
  unfold retryHeld
  simp only [held, named, live, intake, stored, ne_eq, not_true_eq_false, if_false]
  rw [reviewTimer_frame, wanted]

theorem retryHeld_waits (held : s.jt.held = some h) (named : jobOf s.jt h.band.handle = some j) (intake : j.state = .intake)
    (live : liveKey s h.band.handle = some key)
    (waits : storeBand h.band key j { s with jt := { s.jt with held := none } } = .held reason t) :
    retryHeld s = if reason = h.reason then none else some (holdBand h.band reason t) := by
  unfold retryHeld
  simp only [held, named, live, intake, waits, ne_eq, not_true_eq_false, if_false]

end Held

/-! ### The obligation -/

/-- Settles O48: the image and its blocks band by band, then pages, the end of intake, and the held band. -/
theorem bandsAreStored : Obligations.BandsAreStored := by
  refine ⟨fun b key j s named own => ⟨fun f filling on other => storeBand_yields filling on other,
      fun f current fits => ⟨_, storeBand_fits current fits, layInCurrent_leaves named own⟩,
      fun waits full => storeBand_noRoom waits full, fun room waits => storeBand_noBuffer room waits,
      fun room block rest free => ⟨fun none => ⟨_, storeBand_new room none, ?_⟩,
        fun f current more image => ⟨_, storeBand_goesOn room current more image, ?_⟩⟩⟩,
    fun f s filling => ⟨ceaseFilling_free filling, ceaseFilling_waits filling, handOn_free filling, handOn_waits filling⟩,
    fun b j front p s named own pages => ⟨finishBand_counts named pages, fun flags kind => ?_, fun flags kind a found => ?_,
      finishBand_last named pages⟩,
    fun handle j s named own => ⟨endIntake_held named own, fun priv colour right => ?_, fun priv granted => ?_⟩,
    fun b s => ⟨holdBand_room b s, holdBand_image b s⟩,
    fun h j key s held named intake live => ⟨fun t stored => ⟨fun done => ?_, fun waits => ?_⟩,
      fun reason t waits => ⟨fun same => ?_, fun other => ?_⟩⟩⟩
  · exact layInNew_fresh named own free
  · exact layInNew_goesOn named own free image
  · exact finishBand_print named own pages flags kind
  · exact finishBand_scan named own pages flags kind found
  · exact endIntake_refused named own priv (hasColourPage_iff.mpr colour) (mt hasColourRight_iff.mp right)
  · refine (endIntake_queued named own priv fun colour => ?_).trans (queueTail_intake (j := { j with expected := none }) own)
    exact hasColourRight_iff.mpr (granted.resolve_left fun none => none (hasColourPage_iff.mp colour))
  · rw [retryHeld_stored held named intake live stored, if_neg]
    simpa [Option.any_eq_true] using done
  · rw [retryHeld_stored held named intake live stored, if_pos]
    simpa [Option.any_eq_true] using waits
  · exact (retryHeld_waits held named intake live waits).trans (if_pos same)
  · exact (retryHeld_waits held named intake live waits).trans (if_neg other)

end Sys2Proof.Machine

/-! PROOFS. O59: transfers, wrong frames and the layout of frames. -/

namespace Sys2Proof.Machine

open Host (Outcome)

/-! ### Transfers (R185, R186, R194) -/

section Transfers

variable {s : State} {t : Transfer} {bytes : List Byte}

theorem exec_transferStart (on : s.powered = true) (idle : s.lif.transfer = none) :
    exec .transferStart s = .next { s with lif := beginTransfer s.lif } :=
  congrArg Outcome.next (if_pos (by rw [on, idle]; rfl))

theorem exec_transferStart_within (begun : s.lif.transfer = some t) : exec .transferStart s = .next s :=
  congrArg Outcome.next (if_neg (by simp [begun]))

theorem beginTransfer_oldest {l : LinkInterface} {e : Entry} {rest : List Entry} (out : l.out = e :: rest) :
    beginTransfer l = { l with transfer := some { frame := frameOf e rest.length, sending := true } } := by
  simp only [beginTransfer, out]

theorem beginTransfer_empty {l : LinkInterface} (out : l.out = []) :
    beginTransfer l = { l with transfer := some { frame := [], sending := false } } := by
  simp only [beginTransfer, out]

theorem exec_transferEnd (on : s.powered = true) (begun : s.lif.transfer = some t) : exec (.transferEnd bytes) s
    = .next (if t.cut then { s with lif := endTransfer t bytes.length s.lif }
        else takeBytes bytes { s with lif := endTransfer t bytes.length s.lif }) := by
  change execTransferEnd bytes s = _
  simp only [execTransferEnd, begun, on, if_true]

theorem exec_transferEnd_without (idle : s.lif.transfer = none) : exec (.transferEnd bytes) s = .next s := by
  change execTransferEnd bytes s = _
  simp only [execTransferEnd, idle]

/-- R185: the entry that was sent leaves the list. -/
theorem endTransfer_read {clocked : Nat} {l : LinkInterface} (read : entryRead t clocked = true) :
    endTransfer t clocked l = { l with out := l.out.tail, attn := !l.out.tail.isEmpty, transfer := none } := by
  simp only [endTransfer, read, if_true]

theorem endTransfer_unread {clocked : Nat} {l : LinkInterface} (unread : entryRead t clocked = false) :
    endTransfer t clocked l = { l with attn := !l.out.isEmpty, transfer := none } := by
  simp [endTransfer, unread]

theorem takeBytes_nothing (zero : bytes.head? = some 0) : takeBytes bytes s = s := by
  have none_ : examine bytes = .nothing := by simp [examine, zero]
  simp only [takeBytes, none_]

end Transfers

/-! ### Wrong frames (R187, R188) -/

section Wrong

variable {s : State} {cause : LinkErrorCause} {tag kind code : Byte}

theorem takeWrong_answered (said : linkCauseByte cause = some code) (room : unreadReplies s.lif < 8) :
    takeWrong cause tag kind s = { s with lif := { s.lif with
      out := s.lif.out ++ [.reply { kind := 0x00, tag := tag, status := code, payload := .linkError kind }]
      attn := true, frameErrors := min (s.lif.frameErrors + 1) 65535 } } := by
  simp only [takeWrong, said]
  exact (if_neg (Nat.not_le.mpr room)).trans rfl

theorem takeWrong_overrun (said : linkCauseByte cause = some code) (full : 8 ≤ unreadReplies s.lif) :
    takeWrong cause tag kind s = { s with lif := { s.lif with overrun := true } } := by
  simp only [takeWrong, said]
  exact (if_pos full).trans rfl

theorem takeUnknown_overrun (full : 8 ≤ unreadReplies s.lif) :
    takeUnknown tag kind s = { s with lif := { s.lif with overrun := true } } := if_pos full

theorem takeUnknown_answered (room : unreadReplies s.lif < 8) : takeUnknown tag kind s
    = pushReply { kind := kind, tag := tag, status := 0x03, payload := .empty } s := if_neg (Nat.not_le.mpr room)

theorem linkCauseByte_codes : ∀ cause code,
    (cause, code) ∈ [(LinkErrorCause.check, (0x01 : Byte)), (.short, 0x02), (.oversize, 0x03)] → linkCauseByte cause = some code := by
  intro cause code said
  fin_cases said <;> rfl

end Wrong

/-! ### The frame of an entry (section 11.2) -/

/-- Section 11.2: a frame laid out by its fields. -/
def framed (payload : List Byte) (n : Nat) (type kind tag status : Byte) : List Byte :=
  let body : List Byte := [0xA5, type, kind, tag, BitVec.ofNat 8 payload.length, BitVec.ofNat 8 (payload.length / 256),
    status, BitVec.ofNat 8 n] ++ payload
  body ++ [(frameCheck body).extractLsb' 8 8, (frameCheck body).extractLsb' 0 8]

theorem entryPayload_length (e : Entry) : (entryPayload e).length ≤ 1024 := by
  cases e with
  | reply r =>
    unfold entryPayload
    dsimp only
    split
    · exact Nat.zero_le _
    · exact Nat.le_add_left 1 1023
    · exact List.length_take_le _ _
  | notice n => exact List.length_take_le _ _

theorem frameOf_reply (r : Reply) (n : Nat) :
    frameOf (.reply r) n = framed (entryPayload (.reply r)) n 0x02 r.kind r.tag r.status := rfl

theorem frameOf_notice (m : Notice) (n : Nat) : frameOf (.notice m) n
    = framed (entryPayload (.notice m)) n 0x03 (noticeKind m) (entryTag (.notice m)) (entryStatus (.notice m)) := rfl

theorem entryStatus_done (tag : Byte) (halted : Bool) (what : DoneWhat) :
    entryStatus (.notice (.done tag halted what)) = if halted then 0x12 else 0x00 := by
  cases halted <;> rfl

theorem frameCheck_concat (bytes : List Byte) (b : Byte) : frameCheck (bytes ++ [b]) = crc16Byte (frameCheck bytes) b := by
  rw [frameCheck, List.foldl_append]
  rfl

/-! ### The obligation -/

/-- Settles O59: the transfers, the wrong frames, the layout of a frame, and the bytes of the tables. -/
theorem transfersAndWrongFrames : Obligations.TransfersAndWrongFrames := by
  refine ⟨fun s on => ⟨fun idle e rest out => ?_, fun idle out => ?_, fun t bytes begun whole => ⟨fun sending same clocked => ?_,
      fun unread => ?_⟩, fun t bytes begun cut => ?_, fun t begun => exec_transferStart_within begun,
      fun bytes idle => exec_transferEnd_without idle, fun bytes zero => takeBytes_nothing zero, rfl⟩,
    fun tag kind s on => ⟨?_, fun cause code said => ⟨fun room => ?_, fun full => ?_⟩, fun full => ⟨?_, ?_⟩, fun room => ?_⟩,
    fun e => ⟨entryPayload e, entryPayload_length e, fun r same => ?_, fun n => ?_⟩, by decide, by decide, rfl,
    fun bytes b => frameCheck_concat bytes b⟩
  · rw [exec_transferStart on idle, beginTransfer_oldest out]
  · rw [exec_transferStart on idle, beginTransfer_empty out]
  · rw [exec_transferEnd on begun, endTransfer_read (by simp [entryRead, sending, same, whole, clocked])]
    exact congrArg Outcome.next (if_neg (by simp [whole]))
  · have left : entryRead t bytes.length = false := by
      rcases unread with idle | replaced | few
      · simp [entryRead, idle]
      · simp [entryRead, replaced]
      · simp [entryRead, few]
    rw [exec_transferEnd on begun, endTransfer_unread left]
    exact congrArg Outcome.next (if_neg (by simp [whole]))
  · rw [exec_transferEnd on begun, endTransfer_unread (by simp [entryRead, cut])]
    exact congrArg Outcome.next (if_pos cut)
  · exact congrArg Outcome.next (if_pos on)
  · exact congrArg Outcome.next ((if_pos on).trans (takeWrong_answered (linkCauseByte_codes cause code said) room))
  · exact congrArg Outcome.next ((if_pos on).trans (takeWrong_overrun (linkCauseByte_codes cause code said) full))
  · exact congrArg Outcome.next (if_pos (by simp [on, full]))
  · exact congrArg Outcome.next ((if_pos on).trans (takeUnknown_overrun full))
  · exact congrArg Outcome.next ((if_pos on).trans (takeUnknown_answered room))
  · subst same
    exact ⟨fun empty => by simp only [entryPayload, empty], fun kind said => by simp only [entryPayload, said]⟩
  · refine ⟨?_, ?_, ?_, ?_, ?_, ?_, ?_, ?_, ?_⟩
    · rintro r rfl
      exact frameOf_reply r n
    · rintro slot c rfl
      exact frameOf_notice _ n
    · rintro c rfl
      exact frameOf_notice _ n
    · rintro f rfl
      exact frameOf_notice _ n
    · rintro record rfl
      exact frameOf_notice _ n
    · rintro c rfl
      exact frameOf_notice _ n
    · rintro c rfl
      exact frameOf_notice _ n
    · rintro handle page rfl
      exact frameOf_notice _ n
    · rintro tag halted what rfl
      rw [← entryStatus_done tag halted what]
      exact frameOf_notice _ n

end Sys2Proof.Machine

/-! PROOFS. O60: host bytes are examined, and the fields of a payload are read back as they were laid out. -/

namespace Sys2Proof.Machine

/-! ### The examination of the host's bytes (R187) -/

section Examined

variable {bytes payload : List Byte} {n : Nat}

/-- Section 11.2: the length field of a header that stands. -/
theorem lengthField (long : 8 ≤ bytes.length) : fieldAt bytes 4 2 = (bytes.getD 4 0).toNat + 256 * (bytes.getD 5 0).toNat := by
  match bytes, long with
  | _ :: _ :: _ :: _ :: _ :: _ :: _, _ => rfl

/-- Two bytes that stand at a place. -/
theorem slice_two {i : Nat} (long : i + 2 ≤ bytes.length) : slice bytes i 2 = [bytes.getD i 0, bytes.getD (i + 1) 0] := by
  have first : bytes.drop i = bytes[i] :: bytes.drop (i + 1) := List.drop_eq_getElem_cons (by omega)
  have second : bytes.drop (i + 1) = bytes[i + 1] :: bytes.drop (i + 2) := List.drop_eq_getElem_cons (by omega)
  simp only [slice, first, second, List.take_succ_cons, List.take_zero, List.getD_eq_getElem?_getD,
    List.getElem?_eq_getElem (show i < bytes.length by omega), List.getElem?_eq_getElem (show i + 1 < bytes.length by omega),
    Option.getD_some]

/-- The two bytes of a check, the high one first. -/
theorem bytesOf_two_iff (v : BitVec 16) (high low : Byte) : [high, low] = bytesOf 2 v ↔ v = high ++ low := by
  constructor
  · intro same
    obtain ⟨rfl, rest⟩ := List.cons.inj same
    obtain ⟨rfl, -⟩ := List.cons.inj rest
    exact (BitVec.extractLsb'_append_extractLsb' (w := 8) (len := 8) (x := v)).symm
  · rintro rfl
    have left := BitVec.extractLsb'_append_eq_left (a := high) (b := low)
    have right := BitVec.extractLsb'_append_eq_right (a := high) (b := low)
    exact congrArg₂ (fun a b => [a, b]) left.symm right.symm

/-- R187: what is examined of bytes that begin a frame. -/
theorem examine_frame (start : bytes.head? = some 0x5A) (long : 8 ≤ bytes.length) : examine bytes
    = if fieldAt bytes 4 2 > 1024 then .wrong .oversize (bytes.getD 3 0) (bytes.getD 2 0)
      else if bytes.length < 10 + fieldAt bytes 4 2 then .wrong .short (bytes.getD 3 0) (bytes.getD 2 0)
      else if slice bytes (8 + fieldAt bytes 4 2) 2 ≠ bytesOf 2 (frameCheck (bytes.take (8 + fieldAt bytes 4 2))) then
        .wrong .check (bytes.getD 3 0) (bytes.getD 2 0)
      else .wellFormed (bytes.getD 1 0) (bytes.getD 2 0) (bytes.getD 3 0) (slice bytes 8 (fieldAt bytes 4 2)) := by
  simp only [examine, start]
  exact (if_neg (by decide)).trans (if_neg (by simpa using long))

theorem examine_notFrame {first : Byte} (start : bytes.head? = some first) (some_ : first ≠ 0) (other : first ≠ 0x5A ∨ bytes.length < 8) :
    examine bytes = .wrong .dropped (bytes.getD 3 0) (bytes.getD 2 0) := by
  simp only [examine, start]
  exact (if_neg some_).trans (if_pos other)

/-- The number that the little-endian bytes of a number spell. -/
theorem leValue_leBytes (n v : Nat) : leValue (leBytes n v) = v % 256 ^ n := by
  induction n generalizing v with
  | zero => simp [leBytes, leValue, Nat.mod_one]
  | succ n ih =>
    have low : (BitVec.ofNat 8 v).toNat = v % 256 := BitVec.toNat_ofNat _ _
    rw [leBytes, leValue, ih, low, Nat.pow_succ' (m := 256), Nat.mod_mul]

theorem leValue_bytes {n v : Nat} (fits : v < 256 ^ n) : leValue (leBytes n v) = v := by
  rw [leValue_leBytes, Nat.mod_eq_of_lt fits]

theorem leBytes_length (n v : Nat) : (leBytes n v).length = n := by
  induction n generalizing v with
  | zero => rfl
  | succ n ih => rw [leBytes, List.length_cons, ih]

/-- Section 11.2: a frame that is made is examined as it was made. -/
theorem examine_hostFrame (type kind tag x y : Byte) (small : payload.length ≤ 1024) :
    examine (hostFrame type kind tag x y payload) = .wellFormed type kind tag payload := by
  have length : fieldAt (hostFrame type kind tag x y payload) 4 2 = payload.length :=
    (leValue_leBytes 2 payload.length).trans (Nat.mod_eq_of_lt (by omega))
  generalize check : bytesOf 2 (frameCheck ([0x5A, type, kind, tag] ++ leBytes 2 payload.length ++ [x, y] ++ payload)) = sent
  have size : (hostFrame type kind tag x y payload).length = 10 + payload.length := by
    simp [hostFrame, leBytes, bytesOf]
    omega
  have body : (hostFrame type kind tag x y payload).take (8 + payload.length)
      = [0x5A, type, kind, tag] ++ leBytes 2 payload.length ++ [x, y] ++ payload :=
    List.take_left' (by simp [leBytes]; omega)
  have ending : slice (hostFrame type kind tag x y payload) (8 + payload.length) 2 = sent := by
    rw [slice, hostFrame, List.drop_left' (by simp [leBytes]; omega), check]
    exact List.take_of_length_le (by rw [← check]; rfl)
  have middle : slice (hostFrame type kind tag x y payload) 8 payload.length = payload :=
    List.take_left' rfl
  rw [examine_frame rfl (by omega), length, if_neg (by omega), if_neg (by omega), ending, body, check, if_neg (by simp), middle]
  rfl

end Examined

/-! ### The fields of a payload, read where they were laid out (R195) -/

section Fields

variable {front rest p : List Byte} {b : Byte} {i n v : Nat}

theorem fieldAt_cons : fieldAt (b :: p) (i + 1) n = fieldAt p i n := rfl

/-- A field behind what stands in front of it. -/
theorem fieldAt_append : fieldAt (front ++ p) (front.length + i) n = fieldAt p i n := by
  rw [fieldAt, fieldAt, slice, slice, List.drop_append, List.drop_eq_nil_of_le (Nat.le_add_right _ _), Nat.add_sub_cancel_left,
    List.nil_append]

theorem fieldAt_behind (length : front.length = i) : fieldAt (front ++ p) i n = fieldAt p 0 n := by
  rw [← length]
  exact fieldAt_append (i := 0)

theorem fieldAt_leBytes (fits : v < 256 ^ n) : fieldAt (leBytes n v ++ rest) 0 n = v := by
  rw [fieldAt, slice, List.drop_zero, List.take_left' (leBytes_length n v), leValue_bytes fits]

/-- The field that stands behind others. -/
theorem fieldAt_laid (fits : v < 256 ^ n) (length : front.length = i) : fieldAt (front ++ (leBytes n v ++ rest)) i n = v := by
  rw [fieldAt_behind length, fieldAt_leBytes fits]

theorem pinBytes_length {pin : List Byte} (fits : pin.length ≤ 8) : (pinBytes pin).length = 8 := by
  simp [pinBytes]
  omega

/-- R195: the characters of a PIN are read back without the bytes behind them. -/
theorem pinAt_laid {pin : List Byte} (fits : pinFits pin = true) (length : front.length = i) :
    pinAt (front ++ (pinBytes pin ++ rest)) i = pin := by
  obtain ⟨short, last⟩ := (Bool.and_eq_true _ _).mp fits
  have short := of_decide_eq_true short
  rw [pinAt, slice, List.drop_left' length, List.take_left' (pinBytes_length short), pinBytes, List.reverse_append,
    List.reverse_replicate, List.dropWhile_append_of_pos (by simp)]
  cases whole : pin.reverse with
  | nil => simpa using whole
  | cons b front =>
    have ends : pin.getLast? = some b := by rw [← List.head?_reverse, whole]; rfl
    rw [List.dropWhile_cons_of_neg, ← whole, List.reverse_reverse]
    rw [ends] at last
    simpa using last

end Fields

end Sys2Proof.Machine

/-! PROOFS. O60: the optional fields of a payload, and the payload of every request. -/

namespace Sys2Proof.Machine

/-! ### The presence byte (R195) -/

section Presence

/-- R195: the number the presence bits spell. -/
def presenceValue (bits : List Bool) : Nat := bits.foldr (fun b n => b.toNat + 2 * n) 0

theorem presenceValue_lt (bits : List Bool) : presenceValue bits < 2 ^ bits.length := by
  induction bits with
  | nil => exact Nat.one_pos
  | cons b bits ih =>
    have bit : b.toNat ≤ 1 := Bool.toNat_le b
    change b.toNat + 2 * presenceValue bits < 2 ^ (bits.length + 1)
    omega

theorem presenceValue_testBit (bits : List Bool) (i : Nat) : (presenceValue bits).testBit i = bits.getD i false := by
  induction bits generalizing i with
  | nil => simp [presenceValue]
  | cons b bits ih =>
    have value : presenceValue (b :: bits) = b.toNat + 2 * presenceValue bits := rfl
    cases i with
    | zero => cases b <;> simp [value, Nat.testBit_zero]
    | succ i =>
      have half : (b.toNat + 2 * presenceValue bits) / 2 = presenceValue bits := by
        have bit : b.toNat ≤ 1 := Bool.toNat_le b
        omega
      rw [value, Nat.testBit_succ, half, ih]
      rfl

variable {bits : List Bool} {rest : List Byte} {i : Nat}

theorem present_laid (short : bits.length ≤ 8) : present (presenceByte bits :: rest) i = bits.getD i false := by
  change (BitVec.ofNat 8 (presenceValue bits)).getLsbD i = _
  rw [BitVec.getLsbD_ofNat, presenceValue_testBit]
  by_cases low : i < 8
  · simp [low]
  · simp [low, List.getElem?_eq_none (show bits.length ≤ i by omega)]

theorem presenceWrong_laid : presenceWrong (presenceByte bits :: rest) bits.length = false := by
  have value : (presenceByte bits).toNat < 2 ^ bits.length :=
    Nat.lt_of_le_of_lt (BitVec.toNat_ofNat .. ▸ Nat.mod_le _ _) (presenceValue_lt bits)
  exact decide_eq_false (Nat.not_le.mpr value)

theorem presentBefore_laid (short : bits.length ≤ 8) (n : Nat) :
    presentBefore (presenceByte bits :: rest) n = (bits.take n).countP id := by
  induction n with
  | zero => rfl
  | succ n ih =>
    rw [presentBefore, List.range_succ, List.countP_append, List.countP_singleton, present_laid short, List.take_add_one,
      List.countP_append, ← ih, List.getD_eq_getElem?_getD]
    cases bits[n]? with
    | none => rfl
    | some b => cases b <;> rfl

end Presence

/-! ### Optional fields of two bytes (R195) -/

section Optional

variable {fixed : List Byte} {fields : List (Option Nat)} {i : Nat}

theorem presentFields_cons (f : Option Nat) (fields : List (Option Nat)) :
    presentFields (f :: fields) = (f.map (leBytes 2)).getD [] ++ presentFields fields := rfl

theorem presentFields_append (fs gs : List (Option Nat)) : presentFields (fs ++ gs) = presentFields fs ++ presentFields gs :=
  List.flatMap_append

theorem presentFields_length (fields : List (Option Nat)) :
    (presentFields fields).length = 2 * (fields.map (·.isSome)).countP id := by
  induction fields with
  | nil => rfl
  | cons f fields ih =>
    rw [presentFields_cons, List.length_append, ih]
    cases f with
    | none => simp
    | some v => simp [leBytes]; omega

/-- The fields of a payload are at most eight, each of two bytes. -/
def FieldsFit (fields : List (Option Nat)) : Prop := fields.length ≤ 8 ∧ ∀ f ∈ fields, optFitsTwoBytes f = true

theorem optionalAt_laid (fit : FieldsFit fields) (inside : i < fields.length) :
    optionalAt (optionalPayload fixed fields) (fixed.length + 1) i = fields[i] := by
  obtain ⟨short, fit⟩ := fit
  have short' : (fields.map (·.isSome)).length ≤ 8 := by rwa [List.length_map]
  have split : presentFields fields = presentFields (fields.take i)
      ++ ((fields[i].map (leBytes 2)).getD [] ++ presentFields (fields.drop (i + 1))) := by
    rw [← presentFields_cons, ← presentFields_append, ← List.drop_eq_getElem_cons inside, List.take_append_drop]
  have stands : present (optionalPayload fixed fields) i = fields[i].isSome := by
    rw [optionalPayload, List.cons_append, present_laid short']
    simp [inside]
  have before : fixed.length + 1 + 2 * presentBefore (optionalPayload fixed fields) i
      = (presenceByte (fields.map (·.isSome)) :: (fixed ++ presentFields (fields.take i))).length := by
    rw [optionalPayload, List.cons_append, presentBefore_laid short', ← List.map_take, List.length_cons, List.length_append,
      presentFields_length]
    omega
  rw [optionalAt, stands, before]
  cases field : fields[i] with
  | none => rfl
  | some v =>
    have small : v < 256 ^ 2 := of_decide_eq_true (fit (some v) (field ▸ List.getElem_mem inside))
    rw [field] at split
    refine (if_pos rfl).trans (congrArg some ?_)
    rw [optionalPayload, split, ← List.append_assoc]
    exact fieldAt_laid (v := v) (front := presenceByte (fields.map (·.isSome)) :: (fixed ++ presentFields (fields.take i))) small rfl

theorem ofOptional_laid (fit : FieldsFit fields) (owner : State → Answer) :
    ofOptional (fixed.length + 1) fields.length (optionalPayload fixed fields) owner = .ok owner := by
  have short : (fields.map (·.isSome)).length ≤ 8 := by
    rw [List.length_map]
    exact fit.1
  have whole : (fields.map (·.isSome)).take fields.length = fields.map (·.isSome) := List.take_of_length_le (by simp)
  have right := presenceWrong_laid (rest := fixed ++ presentFields fields) (bits := fields.map (·.isSome))
  rw [List.length_map] at right
  unfold ofOptional optionalPayload ofLength
  rw [List.cons_append, if_neg (by simp), right, presentBefore_laid short, whole]
  refine (if_neg (by simp)).trans (if_pos ?_)
  rw [List.length_cons, List.length_append, presentFields_length]
  omega

end Optional

/-! ### The payload of every request (R195) -/

section Payloads

variable {v : Nat}

theorem read_byte (fits : fitsByte v = true) : leValue (leBytes 1 v) = v := leValue_bytes (of_decide_eq_true fits)

theorem read_two (fits : fitsTwoBytes v = true) : leValue (leBytes 2 v) = v := leValue_bytes (of_decide_eq_true fits)

theorem read_four (fits : fitsFourBytes v = true) : leValue (leBytes 4 v) = v := leValue_bytes (of_decide_eq_true fits)

/-- The payload of a request of one byte. -/
theorem ofLength_byte (fits : fitsByte v = true) (rule : Nat → State → Answer) :
    ofLength 1 (leBytes 1 v) (rule (fieldAt (leBytes 1 v) 0 1)) = .ok (rule v) :=
  congrArg (fun n => Except.ok (rule n)) (read_byte fits)

/-- The payload of a request of one field of two bytes. -/
theorem ofLength_two (fits : fitsTwoBytes v = true) (rule : Nat → State → Answer) :
    ofLength 2 (leBytes 2 v) (rule (fieldAt (leBytes 2 v) 0 2)) = .ok (rule v) :=
  congrArg (fun n => Except.ok (rule n)) (read_two fits)

/-- An optional field whose bytes stand behind others. -/
theorem optionalField {p front rest : List Byte} {k n i : Nat} {field : Option Nat} (stands : present p k = field.isSome)
    (fits : ∀ v, field = some v → v < 256 ^ n) (laid : p = front ++ ((field.map (leBytes n)).getD [] ++ rest)) (length : i = front.length) :
    (if present p k then some (fieldAt p i n) else none) = field := by
  rw [stands]
  cases field with
  | none => rfl
  | some v =>
    rw [laid]
    exact congrArg some (fieldAt_laid (fits v rfl) length.symm)

theorem optionalField_length {n : Nat} {field : Option Nat} :
    ((field.map (leBytes n)).getD []).length = if field.isSome then n else 0 := by
  cases field with
  | none => rfl
  | some v => exact leBytes_length n v

theorem pinFits_short {pin : List Byte} (fits : pinFits pin = true) : pin.length ≤ 8 :=
  of_decide_eq_true ((Bool.and_eq_true _ _).mp fits).1

theorem parse_acctCreate {tag : Byte} {id overdraft colour : Nat} {pin : Option (List Byte)}
    (fits : (Instr.acctCreate tag id overdraft colour pin).wellFormed = true) :
    parseAcctCreate (requestPayload (.acctCreate tag id overdraft colour pin)) = .ok (acctCreate id overdraft colour pin) := by
  simp only [Instr.wellFormed, Bool.and_eq_true] at fits
  obtain ⟨⟨⟨idFits, overdraftFits⟩, colourFits⟩, pinFits⟩ := fits
  generalize payload : requestPayload (.acctCreate tag id overdraft colour pin) = p
  have wrong : presenceWrong p 1 = false := payload ▸ presenceWrong_laid (bits := [pin.isSome])
  have stands : present p 0 = pin.isSome := payload ▸ present_laid (bits := [pin.isSome]) (i := 0) (by simp)
  have empty : p.isEmpty = false := payload ▸ rfl
  have idRead : fieldAt p 1 2 = id := payload ▸ read_two idFits
  have overdraftRead : fieldAt p 3 4 = overdraft := payload ▸ read_four overdraftFits
  have colourRead : fieldAt p 7 1 = colour := payload ▸ read_byte colourFits
  have pinRead : (if pin.isSome then some (pinAt p 8) else none) = pin := by
    cases pin with
    | none => rfl
    | some pin =>
      rw [← payload]
      refine congrArg some ?_
      have read := pinAt_laid (front := presenceByte [true] :: leBytes 2 id ++ leBytes 4 overdraft ++ leBytes 1 colour)
        (rest := []) pinFits rfl
      rwa [List.append_nil] at read
  have length : p.length = if pin.isSome then 16 else 8 := by
    rw [← payload]
    cases pin with
    | none => rfl
    | some pin => simp [requestPayload, leBytes, pinBytes_length (pinFits_short pinFits)]
  unfold parseAcctCreate
  rw [empty, wrong, stands, idRead, overdraftRead, colourRead, pinRead]
  exact if_pos length

section AcctSet

variable {tag : Byte} {id : Nat} {overdraft colour standing : Option Nat} {pin : Option PinAction}

/-- R195: what stands in front of the optional fields of an ACCT_SET. -/
def acctSetHead (id : Nat) (overdraft colour standing : Option Nat) (pin : Option PinAction) : List Byte :=
  presenceByte [overdraft.isSome, colour.isSome, standing.isSome, pin.isSome] :: leBytes 2 id

theorem present_acctSet (i : Nat) : present (requestPayload (.acctSet tag id overdraft colour standing pin)) i
    = [overdraft.isSome, colour.isSome, standing.isSome, pin.isSome].getD i false := present_laid (by simp)

/-- R195: the number fields of ACCT_SET are read back. -/
theorem acctSet_numbers (overdraftFits : ∀ v, overdraft = some v → v < 256 ^ 4) (colourFits : ∀ v, colour = some v → v < 256 ^ 1)
    (standingFits : ∀ v, standing = some v → v < 256 ^ 1) :
    let p := requestPayload (.acctSet tag id overdraft colour standing pin)
    (if present p 0 then some (fieldAt p (acctSetOffset p 0) 4) else none) = overdraft
      ∧ (if present p 1 then some (fieldAt p (acctSetOffset p 1) 1) else none) = colour
      ∧ (if present p 2 then some (fieldAt p (acctSetOffset p 2) 1) else none) = standing := by
  refine ⟨optionalField (front := acctSetHead id overdraft colour standing pin) (present_acctSet 0) overdraftFits
      (by simp only [requestPayload, List.append_assoc]; rfl) rfl,
    optionalField (front := acctSetHead id overdraft colour standing pin ++ (overdraft.map (leBytes 4)).getD []) (present_acctSet 1)
      colourFits (by simp only [requestPayload, List.append_assoc]; rfl) ?_,
    optionalField (front := acctSetHead id overdraft colour standing pin ++ (overdraft.map (leBytes 4)).getD []
      ++ (colour.map (leBytes 1)).getD []) (present_acctSet 2) standingFits
      (by simp only [requestPayload, List.append_assoc]; rfl) ?_⟩
  all_goals
    simp only [acctSetOffset, present_acctSet, List.length_append, optionalField_length]
    rfl

/-- R195: what stands in front of the PIN action of an ACCT_SET. -/
def acctSetFront (id : Nat) (overdraft colour standing : Option Nat) (pin : Option PinAction) : List Byte :=
  acctSetHead id overdraft colour standing pin ++ (overdraft.map (leBytes 4)).getD [] ++ (colour.map (leBytes 1)).getD []
    ++ (standing.map (leBytes 1)).getD []

theorem acctSet_laid : requestPayload (.acctSet tag id overdraft colour standing pin)
    = acctSetFront id overdraft colour standing pin ++ (pin.map pinActionBytes).getD [] := rfl

theorem acctSetOffset_front : acctSetOffset (requestPayload (.acctSet tag id overdraft colour standing pin)) 3
    = (acctSetFront id overdraft colour standing pin).length := by
  simp only [acctSetOffset, present_acctSet, acctSetFront, List.length_append, optionalField_length]
  rfl

/-- R195: a PIN action behind other bytes. -/
theorem pinAction_laid (front : List Byte) (action : PinAction) (fits : ∀ digits, action = .set digits → pinFits digits = true) :
    let p := front ++ pinActionBytes action
    let n := fieldAt p front.length 1
    (if n = 0 then some (.set (pinAt p (front.length + 1))) else some .clear) = some action ∧ n ≤ 1
      ∧ front.length < p.length ∧ p.length = front.length + if n = 0 then 9 else 1 := by
  match action with
  | .clear =>
    have n : fieldAt (front ++ pinActionBytes .clear) front.length 1 = 1 := fieldAt_behind rfl
    dsimp only
    rw [n]
    exact ⟨rfl, Nat.le_refl 1, by simp [pinActionBytes], by simp [pinActionBytes]⟩
  | .set digits =>
    have fit := fits digits rfl
    have n : fieldAt (front ++ pinActionBytes (.set digits)) front.length 1 = 0 := fieldAt_behind rfl
    have read := pinAt_laid (front := front ++ [0]) (rest := []) fit (List.length_append ..)
    rw [List.append_nil, List.append_assoc] at read
    dsimp only
    rw [n]
    exact ⟨congrArg (fun d => some (PinAction.set d)) read, Nat.zero_le 1, by simp [pinActionBytes],
      by simp [pinActionBytes, pinBytes_length (pinFits_short fit)]⟩

theorem parse_acctSet (fits : (Instr.acctSet tag id overdraft colour standing pin).wellFormed = true) :
    parseAcctSet (requestPayload (.acctSet tag id overdraft colour standing pin)) = .ok (acctSet id overdraft colour standing pin) := by
  simp only [Instr.wellFormed, Bool.and_eq_true] at fits
  obtain ⟨⟨⟨⟨idFits, overdraftFits⟩, colourFits⟩, standingFits⟩, pinFit⟩ := fits
  have wrong : presenceWrong (requestPayload (.acctSet tag id overdraft colour standing pin)) 4 = false :=
    presenceWrong_laid (bits := [overdraft.isSome, colour.isSome, standing.isSome, pin.isSome])
  have idRead : fieldAt (requestPayload (.acctSet tag id overdraft colour standing pin)) 1 2 = id := read_two idFits
  obtain ⟨first, second, third⟩ := acctSet_numbers (tag := tag) (id := id) (overdraft := overdraft) (colour := colour)
    (standing := standing) (pin := pin) (by rintro v rfl; exact of_decide_eq_true overdraftFits)
    (by rintro v rfl; exact of_decide_eq_true colourFits) (by rintro v rfl; exact of_decide_eq_true standingFits)
  have stands := present_acctSet (tag := tag) (id := id) (overdraft := overdraft) (colour := colour) (standing := standing)
    (pin := pin) 3
  have place := acctSetOffset_front (tag := tag) (id := id) (overdraft := overdraft) (colour := colour) (standing := standing)
    (pin := pin)
  have bytes := acctSet_laid (tag := tag) (id := id) (overdraft := overdraft) (colour := colour) (standing := standing) (pin := pin)
  unfold parseAcctSet acctSetPin
  rw [wrong, first, second, third, idRead, stands, place]
  match pin with
  | none => exact if_pos (congrArg List.length (bytes.trans (List.append_nil _)))
  | some action =>
    obtain ⟨read, small, inside, size⟩ := pinAction_laid (acctSetFront id overdraft colour standing (some action)) action
      (by rintro digits rfl; exact pinFit)
    have bytes' : requestPayload (.acctSet tag id overdraft colour standing (some action))
        = acctSetFront id overdraft colour standing (some action) ++ pinActionBytes action := bytes
    rw [bytes']
    refine (if_neg (by simp [acctSetFront, acctSetHead])).trans ((if_neg (by simp)).trans ((if_neg ?_).trans ((if_neg ?_).trans
      ((if_pos size).trans (congrArg (fun a => Except.ok (acctSet id overdraft colour standing a)) read)))))
    · rw [decide_eq_false (Nat.not_le.mpr inside), Bool.and_false]
      exact Bool.false_ne_true
    · simpa using small

end AcctSet

theorem optFits_all {n : Nat} {fields : List (Option Nat)} (length : fields.length = n) (short : n ≤ 8)
    (fits : fields.all optFitsTwoBytes = true) : FieldsFit fields :=
  ⟨length ▸ short, fun f mem => List.all_eq_true.mp fits f mem⟩

theorem parse_priceSet {tag : Byte} {f : PriceFields} (fits : (Instr.priceSet tag f).wellFormed = true) :
    parsePriceSet (requestPayload (.priceSet tag f)) = .ok (priceSet f) := by
  obtain ⟨stdMono, stdColour, largeMono, largeColour, duplexPct, heavyThreshold, heavySurcharge, scanRate⟩ := f
  have fit : FieldsFit [stdMono, stdColour, largeMono, largeColour, duplexPct, heavyThreshold, heavySurcharge, scanRate] :=
    optFits_all (n := 8) rfl (by decide) (by simpa [Instr.wellFormed, and_assoc] using fits)
  have read (i : Nat) (inside : i < 8) := optionalAt_laid (fixed := []) (i := i) fit inside
  refine (ofOptional_laid (fixed := []) fit _).trans (congrArg (fun f => Except.ok (priceSet f)) ?_)
  exact PriceFields.mk.injEq .. ▸ ⟨read 0 (by decide), read 1 (by decide), read 2 (by decide), read 3 (by decide),
    read 4 (by decide), read 5 (by decide), read 6 (by decide), read 7 (by decide)⟩

theorem parse_meterSet {tag : Byte} {f : MeterFields} (fits : (Instr.meterSet tag f).wellFormed = true) :
    parseMeterSet (requestPayload (.meterSet tag f)) = .ok (meterSet f) := by
  obtain ⟨colourThreshold, idleLoss, lowMarkPct, writebackPct, reauthInterval⟩ := f
  have fit : FieldsFit [colourThreshold, idleLoss, lowMarkPct, writebackPct, reauthInterval] :=
    optFits_all (n := 5) rfl (by decide) (by simpa [Instr.wellFormed, and_assoc] using fits)
  have read (i : Nat) (inside : i < 5) := optionalAt_laid (fixed := []) (i := i) fit inside
  refine (ofOptional_laid (fixed := []) fit _).trans (congrArg (fun f => Except.ok (meterSet f)) ?_)
  exact MeterFields.mk.injEq .. ▸ ⟨read 0 (by decide), read 1 (by decide), read 2 (by decide), read 3 (by decide), read 4 (by decide)⟩

theorem parse_limitsSet {tag : Byte} {f : LimitFields} (fits : (Instr.limitsSet tag f).wellFormed = true) :
    parseLimitsSet (requestPayload (.limitsSet tag f)) = .ok (limitsSet f) := by
  obtain ⟨holdLimit, lockoutTime, intakeStallLimit, entryLimit, readRetries, weakLimit⟩ := f
  have fit : FieldsFit [holdLimit, lockoutTime, intakeStallLimit, entryLimit, readRetries, weakLimit] :=
    optFits_all (n := 6) rfl (by decide) (by simpa [Instr.wellFormed, and_assoc] using fits)
  have read (i : Nat) (inside : i < 6) := optionalAt_laid (fixed := []) (i := i) fit inside
  refine (ofOptional_laid (fixed := []) fit _).trans (congrArg (fun f => Except.ok (limitsSet f)) ?_)
  exact LimitFields.mk.injEq .. ▸ ⟨read 0 (by decide), read 1 (by decide), read 2 (by decide), read 3 (by decide), read 4 (by decide),
    read 5 (by decide)⟩

theorem parse_mediaSet {tag : Byte} {code : Nat} {area transit : Option Nat}
    (fits : (Instr.mediaSet tag code area transit).wellFormed = true) :
    parsePayload .mediaSet tag (requestPayload (.mediaSet tag code area transit)) = .ok (mediaSet code area transit) := by
  simp only [Instr.wellFormed, Bool.and_eq_true] at fits
  obtain ⟨⟨codeFits, areaFits⟩, transitFits⟩ := fits
  have fit : FieldsFit [area, transit] := optFits_all (n := 2) rfl (by decide) (by simp [areaFits, transitFits])
  have read (i : Nat) (inside : i < 2) := optionalAt_laid (fixed := leBytes 1 code) (i := i) fit inside
  refine (ofOptional_laid (fixed := leBytes 1 code) fit _).trans ?_
  have codeRead : fieldAt (optionalPayload (leBytes 1 code) [area, transit]) 1 1 = code := read_byte codeFits
  exact congrArg₂ (fun n (f : Option Nat × Option Nat) => Except.ok (mediaSet n f.1 f.2)) codeRead
    (congrArg₂ Prod.mk (read 0 (by decide)) (read 1 (by decide)))

theorem parse_spoolRead {tag : Byte} {block : Option Nat} (fits : (Instr.spoolRead tag block).wellFormed = true) :
    parsePayload .spoolRead tag (requestPayload (.spoolRead tag block)) = .ok (spoolRead block) := by
  have fit : FieldsFit [block] := optFits_all (n := 1) rfl (by decide) (by simpa [Instr.wellFormed] using fits)
  exact (ofOptional_laid (fixed := []) fit _).trans
    (congrArg (fun f => Except.ok (spoolRead f)) (optionalAt_laid (fixed := []) (i := 0) fit Nat.one_pos))

theorem parse_acctCredit {tag : Byte} {id : Nat} {amount : Int} (fits : (Instr.acctCredit tag id amount).wellFormed = true) :
    parsePayload .acctCredit tag (requestPayload (.acctCredit tag id amount)) = .ok (acctCredit id amount) := by
  simp only [Instr.wellFormed, Bool.and_eq_true, decide_eq_true_eq] at fits
  obtain ⟨⟨idFits, low⟩, high⟩ := fits
  have idRead : fieldAt (requestPayload (.acctCredit tag id amount)) 0 2 = id := read_two idFits
  have number : fieldAt (requestPayload (.acctCredit tag id amount)) 2 4 = (BitVec.ofInt 32 amount).toNat :=
    leValue_bytes (n := 4) (BitVec.isLt (BitVec.ofInt 32 amount))
  have amountRead : signedAt (requestPayload (.acctCredit tag id amount)) 2 = amount := by
    rw [signedAt, number, BitVec.ofNat_toNat, BitVec.setWidth_eq, BitVec.toInt_ofInt]
    exact Int.bmod_eq_of_le (by omega) (by omega)
  exact congrArg₂ (fun i a => Except.ok (acctCredit i a)) idRead amountRead

theorem parse_jobOpen {tag : Byte} {kind owner privacy media sides copies : Nat}
    (fits : (Instr.jobOpen tag kind owner privacy media sides copies).wellFormed = true) :
    parsePayload .jobOpen tag (requestPayload (.jobOpen tag kind owner privacy media sides copies))
      = .ok (jobOpen kind owner privacy media sides copies) := by
  simp only [Instr.wellFormed, Bool.and_eq_true] at fits
  obtain ⟨⟨⟨⟨⟨kindFits, ownerFits⟩, privacyFits⟩, mediaFits⟩, sidesFits⟩, copiesFits⟩ := fits
  generalize laid : requestPayload (.jobOpen tag kind owner privacy media sides copies) = p
  have size : p.length = 8 := laid ▸ rfl
  have r0 : fieldAt p 0 1 = kind := laid ▸ read_byte kindFits
  have r1 : fieldAt p 1 2 = owner := laid ▸ read_two ownerFits
  have r3 : fieldAt p 3 1 = privacy := laid ▸ read_byte privacyFits
  have r4 : fieldAt p 4 1 = media := laid ▸ read_byte mediaFits
  have r5 : fieldAt p 5 1 = sides := laid ▸ read_byte sidesFits
  have r6 : fieldAt p 6 2 = copies := laid ▸ read_two copiesFits
  change ofLength 8 p (jobOpen _ _ _ _ _ _) = _
  rw [r0, r1, r3, r4, r5, r6]
  exact if_pos size

theorem parse_senseSet {tag : Byte} {channel code hysteresis filter polarity : Nat}
    (fits : (Instr.senseSet tag channel code hysteresis filter polarity).wellFormed = true) :
    parsePayload .senseSet tag (requestPayload (.senseSet tag channel code hysteresis filter polarity))
      = .ok (senseSet channel code hysteresis filter polarity) := by
  simp only [Instr.wellFormed, Bool.and_eq_true] at fits
  obtain ⟨⟨⟨⟨channelFits, codeFits⟩, hysteresisFits⟩, filterFits⟩, polarityFits⟩ := fits
  generalize laid : requestPayload (.senseSet tag channel code hysteresis filter polarity) = p
  have size : p.length = 5 := laid ▸ rfl
  have r0 : fieldAt p 0 1 = channel := laid ▸ read_byte channelFits
  have r1 : fieldAt p 1 1 = code := laid ▸ read_byte codeFits
  have r2 : fieldAt p 2 1 = hysteresis := laid ▸ read_byte hysteresisFits
  have r3 : fieldAt p 3 1 = filter := laid ▸ read_byte filterFits
  have r4 : fieldAt p 4 1 = polarity := laid ▸ read_byte polarityFits
  change ofLength 5 p (senseSet _ _ _ _ _) = _
  rw [r0, r1, r2, r3, r4]
  exact if_pos size

theorem parse_jobRelease {tag : Byte} {handle : Nat} {pin : List Byte} (fits : (Instr.jobRelease tag handle pin).wellFormed = true) :
    parsePayload .jobRelease tag (requestPayload (.jobRelease tag handle pin)) = .ok (jobRelease handle pin) := by
  simp only [Instr.wellFormed, Bool.and_eq_true] at fits
  obtain ⟨handleFits, pinFits⟩ := fits
  generalize laid : requestPayload (.jobRelease tag handle pin) = p
  have size : p.length = 10 := by
    rw [← laid]
    simp [requestPayload, leBytes, pinBytes_length (pinFits_short pinFits)]
  have handleRead : fieldAt p 0 2 = handle := laid ▸ read_two handleFits
  have pinRead := pinAt_laid (front := leBytes 2 handle) (rest := []) (i := 2) pinFits rfl
  rw [List.append_nil] at pinRead
  change ofLength 10 p (jobRelease _ _) = _
  rw [handleRead, ← laid]
  exact (if_pos (laid ▸ size)).trans (congrArg (fun pin => Except.ok (jobRelease handle pin)) pinRead)

/-- Two fields of two bytes. -/
theorem ofLength_four {v w : Nat} (first : fitsTwoBytes v = true) (second : fitsTwoBytes w = true) (rule : Nat → Nat → State → Answer) :
    ofLength 4 (leBytes 2 v ++ leBytes 2 w) (rule (fieldAt (leBytes 2 v ++ leBytes 2 w) 0 2) (fieldAt (leBytes 2 v ++ leBytes 2 w) 2 2))
      = .ok (rule v w) :=
  congrArg₂ (fun m n => Except.ok (rule m n)) (read_two first) (read_two second)

/-- R195: the frame of a request is handed to the owner its command is handed to. -/
theorem parse_requestPayload {c : Instr} {k : RequestKind} {tag : Byte} (named : requestOf c = some (k, tag))
    (fits : c.wellFormed = true) :
    ∃ owner, parsePayload k tag (requestPayload c) = .ok owner ∧ ∀ s, exec c s = .next (request k tag owner s) := by
  cases c <;> cases named
  case acctCreate.refl => exact ⟨_, parse_acctCreate fits, fun _ => rfl⟩
  case acctDelete.refl => exact ⟨_, ofLength_two fits acctDelete, fun _ => rfl⟩
  case acctCredit.refl => exact ⟨_, parse_acctCredit fits, fun _ => rfl⟩
  case acctSet.refl => exact ⟨_, parse_acctSet fits, fun _ => rfl⟩
  case acctRead.refl => exact ⟨_, ofLength_two fits acctRead, fun _ => rfl⟩
  case acctList.refl => exact ⟨_, ofLength_two fits acctList, fun _ => rfl⟩
  case acctUnlock.refl => exact ⟨_, ofLength_two fits acctUnlock, fun _ => rfl⟩
  case countersClear.refl => exact ⟨_, ofLength_two fits countersClear, fun _ => rfl⟩
  case jobOpen.refl => exact ⟨_, parse_jobOpen fits, fun _ => rfl⟩
  case jobRelease.refl => exact ⟨_, parse_jobRelease fits, fun _ => rfl⟩
  case jobCancel.refl => exact ⟨_, ofLength_two fits jobCancel, fun _ => rfl⟩
  case jobPause.refl => exact ⟨_, ofLength_two fits jobPause, fun _ => rfl⟩
  case jobResume.refl => exact ⟨_, ofLength_two fits jobResume, fun _ => rfl⟩
  case jobSkipPage.refl =>
    obtain ⟨handle, page⟩ := (Bool.and_eq_true _ _).mp fits
    exact ⟨_, ofLength_four handle page jobSkipPage, fun _ => rfl⟩
  case jobRead.refl =>
    obtain ⟨handle, first⟩ := (Bool.and_eq_true _ _).mp fits
    exact ⟨_, ofLength_four handle first jobRead, fun _ => rfl⟩
  case senseSet.refl => exact ⟨_, parse_senseSet fits, fun _ => rfl⟩
  case doorStateOpen.refl => exact ⟨_, rfl, fun _ => rfl⟩
  case doorStateClosed.refl => exact ⟨_, rfl, fun _ => rfl⟩
  case jamClear.refl => exact ⟨_, rfl, fun _ => rfl⟩
  case pathRead.refl => exact ⟨_, rfl, fun _ => rfl⟩
  case priceSet.refl => exact ⟨_, parse_priceSet fits, fun _ => rfl⟩
  case meterSet.refl => exact ⟨_, parse_meterSet fits, fun _ => rfl⟩
  case mediaSet.refl => exact ⟨_, parse_mediaSet fits, fun _ => rfl⟩
  case cartRead.refl =>
    obtain ⟨selector, start⟩ := (Bool.and_eq_true _ _).mp fits
    exact ⟨_, congrArg₂ (fun m n => Except.ok (cartRead m n)) (read_byte selector) (read_byte start), fun _ => rfl⟩
  case cartReauth.refl => exact ⟨_, ofLength_byte fits cartReauth, fun _ => rfl⟩
  case policySet.refl => exact ⟨_, ofLength_byte fits policySet, fun _ => rfl⟩
  case familyKeyLoad.refl =>
    obtain ⟨family, -⟩ := (Bool.and_eq_true _ _).mp fits
    exact ⟨_, congrArg (fun n => Except.ok (familyKeyLoad n _)) (read_byte family), fun _ => rfl⟩
  case spoolRead.refl => exact ⟨_, parse_spoolRead fits, fun _ => rfl⟩
  case blockRetire.refl => exact ⟨_, ofLength_two fits blockRetire, fun _ => rfl⟩
  case sanitize.refl => exact ⟨_, rfl, fun _ => rfl⟩
  case faultRead.refl => exact ⟨_, rfl, fun _ => rfl⟩
  case faultAck.refl => exact ⟨_, congrArg (fun n => Except.ok (faultAck n)) (read_two fits), fun _ => rfl⟩
  case faultAckHaltRecord.refl => exact ⟨_, rfl, fun _ => rfl⟩
  case sense.refl => exact ⟨_, ofLength_two fits sense, fun _ => rfl⟩
  case storeLock.refl => exact ⟨_, ofLength_byte fits storeLock, fun _ => rfl⟩
  case storeWipe.refl => exact ⟨_, rfl, fun _ => rfl⟩
  case storeRead.refl => exact ⟨_, rfl, fun _ => rfl⟩
  case limitsSet.refl => exact ⟨_, parse_limitsSet fits, fun _ => rfl⟩
  case status.refl => exact ⟨_, rfl, fun _ => rfl⟩
  case restart.refl => exact ⟨_, rfl, fun _ => rfl⟩
  case restartWipe.refl => exact ⟨_, rfl, fun _ => rfl⟩

end Payloads

end Sys2Proof.Machine

/-! PROOFS. O60, continued: what a well-formed frame comes to. -/

namespace Sys2Proof.Machine

open Host (Outcome)

/-! ### The dispatch of a well-formed frame (R188, R189) -/

section Dispatched

variable {k : RequestKind} {type kind tag : Byte} {payload : List Byte} {s : State} {c : Status} {owner : State → Answer}

theorem kindOfByte_kindByte (k : RequestKind) : kindOfByte (kindByte k) = some k := by cases k <;> rfl

theorem kindOfByte_none (no : kind = 0 ∨ 0x26 < kind) : kindOfByte kind = none := by
  unfold kindOfByte
  rcases no with rfl | beyond
  · rfl
  · have past : 38 < kind.toNat := beyond
    rw [if_neg (by rintro rfl; exact absurd past (by decide))]
    exact List.getElem?_eq_none (show 38 ≤ kind.toNat - 1 by omega)

theorem dispatch_unknown (no : type ≠ 0x01 ∨ kind = 0 ∨ 0x26 < kind) : dispatch type kind tag payload s = takeUnknown tag kind s := by
  unfold dispatch
  cases named : kindOfByte kind with
  | none => rfl
  | some k => exact if_pos (no.resolve_right fun none => by rw [kindOfByte_none none] at named; cases named)

theorem dispatch_error (wrong : parsePayload k tag payload = .error c) (room : unreadReplies s.lif < 8) :
    dispatch 0x01 (kindByte k) tag payload s = answered k tag c .empty s := by
  simp only [dispatch, kindOfByte_kindByte, wrong]
  exact (if_neg (by simp)).trans (if_neg (Nat.not_le.mpr room))

theorem dispatch_owner (parsed : parsePayload k tag payload = .ok owner) :
    dispatch 0x01 (kindByte k) tag payload s = request k tag owner s := by
  simp only [dispatch, kindOfByte_kindByte, parsed]
  exact if_neg (by simp)

theorem dispatch_full (on : s.powered = true) (full : 8 ≤ unreadReplies s.lif) :
    dispatch type kind tag payload s = { s with lif := { s.lif with overrun := true } } := by
  unfold dispatch
  split
  · exact takeUnknown_overrun full
  split
  · exact takeUnknown_overrun full
  split
  · rfl
  · exact (if_neg (by simp [on])).trans (if_pos full)

theorem takeBytes_hostFrame (x y : Byte) (small : payload.length ≤ 1024) :
    takeBytes (hostFrame type kind tag x y payload) s = dispatch type kind tag payload s := by
  simp only [takeBytes, examine_hostFrame type kind tag x y small]

end Dispatched

/-! ### The fields a payload must hold (R189, R195) -/

section Parsed

variable {k : RequestKind} {tag : Byte} {p : List Byte} {n fixed : Nat}

/-- R195: the kinds of a fixed payload length. -/
def fixedLengths : List (RequestKind × Nat) :=
  [(.acctDelete, 2), (.acctCredit, 6), (.acctRead, 2), (.acctList, 2), (.acctUnlock, 2),
    (.countersClear, 2), (.jobOpen, 8), (.jobRelease, 10), (.jobCancel, 2), (.jobPause, 2), (.jobResume, 2),
    (.jobSkipPage, 4), (.jobRead, 4), (.senseSet, 5), (.doorState, 1), (.jamClear, 0), (.pathRead, 0), (.cartRead, 2),
    (.cartReauth, 1), (.policySet, 1), (.blockRetire, 2), (.sanitize, 0), (.faultRead, 0), (.faultAck, 3), (.sense, 2),
    (.storeLock, 1), (.storeWipe, 0), (.storeRead, 0), (.status, 0), (.restart, 1)]

theorem parse_fixed (mem : (k, n) ∈ fixedLengths) (wrong : p.length ≠ n) : parsePayload k tag p = .error .badLength := by
  unfold fixedLengths at mem
  fin_cases mem <;> exact if_neg wrong

/-- R195: the kinds of optional fields of two bytes. -/
def optionalLengths : List (RequestKind × Nat × Nat) :=
  [(.priceSet, 1, 8), (.meterSet, 1, 5), (.mediaSet, 2, 2), (.spoolRead, 1, 1), (.limitsSet, 1, 6)]

theorem parse_optional (mem : (k, fixed, n) ∈ optionalLengths) : ∃ owner, parsePayload k tag p = ofOptional fixed n p owner := by
  unfold optionalLengths at mem
  fin_cases mem <;> exact ⟨_, rfl⟩

theorem ofOptional_empty {owner : State → Answer} : ofOptional fixed n [] owner = .error .badLength := rfl

theorem ofOptional_beyond {owner : State → Answer} (beyond : 2 ^ n ≤ (p.headD 0).toNat) (some_ : p ≠ []) :
    ofOptional fixed n p owner = .error .badField :=
  (if_neg (by simpa using some_)).trans (if_pos (by simpa [presenceWrong] using beyond))

theorem ofOptional_length {owner : State → Answer} (wrong : p.length ≠ fixed + 2 * presentBefore p n)
    (within : (p.headD 0).toNat < 2 ^ n) : ofOptional fixed n p owner = .error .badLength := by
  unfold ofOptional
  split
  · rfl
  · rw [if_neg (by simpa [presenceWrong] using within)]
    exact if_neg wrong

theorem headD_some (big : 1 ≤ (p.headD 0).toNat) : p ≠ [] := by
  rintro rfl
  exact absurd big (by decide)

theorem fieldAt_first (length : 1 ≤ p.length) : fieldAt p 0 1 = (p.headD 0).toNat := by
  match p, length with
  | b :: rest, _ => simp [fieldAt, slice, leValue]

end Parsed

/-! ### ACCT_CREATE and ACCT_SET, and the requests of a mode (R36, R38, R51, R160, R184) -/

section Accounts

variable {p : List Byte}

theorem parseAcctCreate_beyond (beyond : 2 ≤ (p.headD 0).toNat) : parseAcctCreate p = .error .badField := by
  have some_ := headD_some (Nat.le_of_succ_le beyond)
  exact (if_neg (by simpa using some_)).trans (if_pos (by simpa [presenceWrong] using beyond))

theorem parseAcctCreate_length (within : (p.headD 0).toNat < 2) (wrong : p.length ≠ 8 + 8 * presentBefore p 1) :
    parseAcctCreate p = .error .badLength := by
  have size : 8 + 8 * presentBefore p 1 = if present p 0 then 16 else 8 := by
    cases bit : present p 0 <;> simp [presentBefore, bit]
  unfold parseAcctCreate
  split
  · rfl
  · rw [if_neg (by simpa [presenceWrong] using within)]
    exact if_neg (size ▸ wrong)

theorem parseAcctSet_beyond (beyond : 16 ≤ (p.headD 0).toNat) : parseAcctSet p = .error .badField := by
  have some_ := headD_some (p := p) (by omega)
  exact (if_neg (by simpa using some_)).trans (if_pos (by simpa [presenceWrong] using beyond))

/-- The PIN action of an ACCT_SET is there from bit 3 of the presence byte. -/
theorem present_three (within : (p.headD 0).toNat < 16) : present p 3 = decide (8 ≤ (p.headD 0).toNat) := by
  unfold present
  rw [BitVec.getLsbD, Nat.testBit_eq_decide_div_mod_eq]
  generalize (p.headD 0).toNat = n at *
  congr 1
  exact propext (by omega)

theorem parseAcctSet_rest (within : (p.headD 0).toNat < 16) (some_ : p ≠ []) : ∃ owner, parseAcctSet p
    = if present p 3 && p.length ≤ acctSetOffset p 3 then .error .badLength
      else if present p 3 && fieldAt p (acctSetOffset p 3) 1 > 1 then .error .badField
      else ofLength (acctSetOffset p 3 + if present p 3 then (if fieldAt p (acctSetOffset p 3) 1 = 0 then 9 else 1) else 0) p owner :=
  ⟨_, (if_neg (by simpa using some_)).trans (if_neg (by simpa [presenceWrong] using within))⟩

theorem fieldAt_byte {i : Nat} {b : Byte} (at_ : p[i]? = some b) : fieldAt p i 1 = b.toNat := by
  obtain ⟨inside, rfl⟩ := List.getElem?_eq_some_iff.mp at_
  rw [fieldAt, slice, List.drop_eq_getElem_cons inside, List.take_succ_cons, List.take_zero]
  rfl

/-- An ACCT_SET without a PIN action. -/
theorem parseAcctSet_plain (low : (p.headD 0).toNat < 8) (wrong : p.length ≠ acctSetOffset p 3) :
    parseAcctSet p = .error .badLength := by
  by_cases none_ : p = []
  · rw [none_]
    rfl
  · obtain ⟨owner, rest⟩ := parseAcctSet_rest (p := p) (by omega) none_
    have absent : present p 3 = false := (present_three (by omega)).trans (decide_eq_false (by omega))
    rw [rest, absent]
    exact if_neg wrong

/-- An ACCT_SET with a PIN action. -/
theorem parseAcctSet_action (low : 8 ≤ (p.headD 0).toNat) (high : (p.headD 0).toNat < 16) : ∃ owner, parseAcctSet p
    = if p.length ≤ acctSetOffset p 3 then .error .badLength
      else if 1 < fieldAt p (acctSetOffset p 3) 1 then .error .badField
      else ofLength (acctSetOffset p 3 + if fieldAt p (acctSetOffset p 3) 1 = 0 then 9 else 1) p owner := by
  obtain ⟨owner, rest⟩ := parseAcctSet_rest high (headD_some (by omega))
  have stands : present p 3 = true := (present_three high).trans (decide_eq_true low)
  refine ⟨owner, rest.trans ?_⟩
  simp only [stands, Bool.true_and, decide_eq_true_eq, if_true, gt_iff_lt]

theorem parseAcctSet_short (low : 8 ≤ (p.headD 0).toNat) (high : (p.headD 0).toNat < 16) (short : p.length ≤ acctSetOffset p 3) :
    parseAcctSet p = .error .badLength := by
  obtain ⟨owner, parsed⟩ := parseAcctSet_action low high
  exact parsed.trans (if_pos short)

variable {b : Byte}

theorem parseAcctSet_byte (low : 8 ≤ (p.headD 0).toNat) (high : (p.headD 0).toNat < 16) (at_ : p[acctSetOffset p 3]? = some b) :
    ∃ owner, parseAcctSet p = if 1 < b.toNat then .error .badField
      else ofLength (acctSetOffset p 3 + if b.toNat = 0 then 9 else 1) p owner := by
  obtain ⟨owner, parsed⟩ := parseAcctSet_action low high
  have inside : acctSetOffset p 3 < p.length := (List.getElem?_eq_some_iff.mp at_).1
  rw [fieldAt_byte at_] at parsed
  exact ⟨owner, parsed.trans (if_neg (Nat.not_le.mpr inside))⟩

theorem parseAcctSet_other (low : 8 ≤ (p.headD 0).toNat) (high : (p.headD 0).toNat < 16) (at_ : p[acctSetOffset p 3]? = some b)
    (other : 1 < b) : parseAcctSet p = .error .badField := by
  obtain ⟨owner, parsed⟩ := parseAcctSet_byte low high at_
  exact parsed.trans (if_pos other)

theorem parseAcctSet_set (low : 8 ≤ (p.headD 0).toNat) (high : (p.headD 0).toNat < 16) (at_ : p[acctSetOffset p 3]? = some 0)
    (wrong : p.length ≠ acctSetOffset p 3 + 9) : parseAcctSet p = .error .badLength := by
  obtain ⟨owner, parsed⟩ := parseAcctSet_byte low high at_
  exact parsed.trans (if_neg wrong)

theorem parseAcctSet_clear (low : 8 ≤ (p.headD 0).toNat) (high : (p.headD 0).toNat < 16) (at_ : p[acctSetOffset p 3]? = some 1)
    (wrong : p.length ≠ acctSetOffset p 3 + 1) : parseAcctSet p = .error .badLength := by
  obtain ⟨owner, parsed⟩ := parseAcctSet_byte low high at_
  exact parsed.trans (if_neg wrong)

end Accounts

/-! ### The examination, step by step -/

theorem examine_steps (bytes : List Byte) (start : bytes.head? = some 0x5A) (long : 8 ≤ bytes.length) :
    let n := (bytes.getD 4 0).toNat + 256 * (bytes.getD 5 0).toNat
    let sent : BitVec 16 := bytes.getD (8 + n) 0 ++ bytes.getD (9 + n) 0
    (1024 < n → examine bytes = .wrong .oversize (bytes.getD 3 0) (bytes.getD 2 0))
      ∧ (n ≤ 1024 → bytes.length < 10 + n → examine bytes = .wrong .short (bytes.getD 3 0) (bytes.getD 2 0))
      ∧ (n ≤ 1024 → 10 + n ≤ bytes.length → frameCheck (bytes.take (8 + n)) ≠ sent →
          examine bytes = .wrong .check (bytes.getD 3 0) (bytes.getD 2 0))
      ∧ (n ≤ 1024 → 10 + n ≤ bytes.length → frameCheck (bytes.take (8 + n)) = sent →
          examine bytes = .wellFormed (bytes.getD 1 0) (bytes.getD 2 0) (bytes.getD 3 0) ((bytes.drop 8).take n)) := by
  rw [examine_frame start long, lengthField long]
  dsimp only
  generalize (bytes.getD 4 0).toNat + 256 * (bytes.getD 5 0).toNat = n
  refine ⟨fun large => if_pos large, fun small short => (if_neg (Nat.not_lt.mpr small)).trans (if_pos short),
    fun small whole wrong => ?_, fun small whole right => ?_⟩
  all_goals
    have at_ := slice_two (bytes := bytes) (i := 8 + n) (by omega)
    rw [show 8 + n + 1 = 9 + n by omega] at at_
    rw [if_neg (Nat.not_lt.mpr small), if_neg (Nat.not_lt.mpr whole), at_]
  · exact if_pos (mt (bytesOf_two_iff _ _ _).mp wrong)
  · exact if_neg (not_not_intro ((bytesOf_two_iff _ _ _).mpr right))

/-! ### The length of a request's payload -/

theorem optionalPayload_length (fixed : List Byte) (fields : List (Option Nat)) :
    (optionalPayload fixed fields).length ≤ fixed.length + 1 + 2 * fields.length := by
  have count : (fields.map (·.isSome)).countP id ≤ fields.length := by
    simpa using List.countP_le_length (p := id) (l := fields.map (·.isSome))
  rw [optionalPayload, List.length_append, presentFields_length, List.length_cons]
  omega

theorem optionalField_le (n : Nat) (field : Option Nat) : ((field.map (leBytes n)).getD []).length ≤ n := by
  rw [optionalField_length]
  split
  · exact Nat.le_refl n
  · exact Nat.zero_le n

theorem requestPayload_length {c : Instr} (fits : c.wellFormed = true) : (requestPayload c).length ≤ 1024 := by
  cases c
  case familyKeyLoad tag family key =>
    have key := of_decide_eq_true ((Bool.and_eq_true _ _).mp fits).2
    simp [requestPayload, leBytes]
    omega
  case acctCreate tag id overdraft colour pin =>
    have digits : ((pin.map pinBytes).getD []).length ≤ 8 := by
      cases pin with
      | none => exact Nat.zero_le 8
      | some pin => exact (pinBytes_length (pinFits_short ((Bool.and_eq_true _ _).mp fits).2)).le
    simp [requestPayload, leBytes]
    omega
  case acctSet tag id overdraft colour standing pin =>
    have four := optionalField_le 4 overdraft
    have one := optionalField_le 1 colour
    have one' := optionalField_le 1 standing
    have digits : ((pin.map pinActionBytes).getD []).length ≤ 9 := by
      match pin with
      | none => exact Nat.zero_le 9
      | some .clear => exact Nat.le_of_ble_eq_true rfl
      | some (.set pin) => exact Nat.succ_le_succ (pinBytes_length (pinFits_short ((Bool.and_eq_true _ _).mp fits).2)).le
    simp only [requestPayload, List.length_append, List.length_cons, leBytes_length]
    omega
  case jobRelease tag handle pin =>
    have digits := pinBytes_length (pinFits_short ((Bool.and_eq_true _ _).mp fits).2)
    simp [requestPayload, leBytes, digits]
  case priceSet tag f => exact Nat.le_trans (optionalPayload_length _ _) (Nat.le_of_ble_eq_true rfl)
  case meterSet tag f => exact Nat.le_trans (optionalPayload_length _ _) (Nat.le_of_ble_eq_true rfl)
  case limitsSet tag f => exact Nat.le_trans (optionalPayload_length _ _) (Nat.le_of_ble_eq_true rfl)
  case mediaSet tag code area transit => exact Nat.le_trans (optionalPayload_length _ _) (Nat.le_of_ble_eq_true rfl)
  case spoolRead tag block => exact Nat.le_trans (optionalPayload_length _ _) (Nat.le_of_ble_eq_true rfl)
  all_goals exact Nat.le_of_ble_eq_true rfl

/-! ### The obligation -/

theorem exec_frame {c : Instr} {k : RequestKind} {tag : Byte} {s : State} (x y : Byte) (fits : c.wellFormed = true)
    (named : requestOf c = some (k, tag)) (small : (requestPayload c).length ≤ 1024) :
    exec c s = .next (takeBytes (hostFrame 0x01 (kindByte k) tag x y (requestPayload c)) s) := by
  obtain ⟨owner, parsed, runs⟩ := parse_requestPayload named fits
  rw [takeBytes_hostFrame x y small, dispatch_owner parsed, runs]

theorem answered_refused {k : RequestKind} {tag : Byte} {c : Status} {payload : List Byte} {s : State}
    (parsed : parsePayload k tag payload = .ok (refuse c)) (on : s.powered = true) (past : s.fm.part ≠ .starting)
    (room : unreadReplies s.lif < 8) (served : s.fm.part = .running ∨ servedHalted k = true) :
    dispatch 0x01 (kindByte k) tag payload s = answered k tag c .empty s := by
  rw [dispatch_owner parsed]
  rcases served with running | served
  · exact request_serving ⟨on, running, room⟩ k tag (refuse c)
  · exact request_served on past room served tag (refuse c)

/-- R51, R160, R184: a first byte beyond the two values of a mode. -/
theorem mode_beyond {n : Nat} {a b : State → Answer} (beyond : 2 ≤ n) :
    (if n = 0 then a else if n = 1 then b else refuse .badField) = refuse .badField :=
  (if_neg (by omega)).trans (if_neg (by omega))

/-- Settles O60: the examination, the frames of the commands, and what a well-formed frame comes to. -/
theorem hostFrameExamined : Obligations.HostFrameExamined := by
  refine ⟨fun type kind tag x y payload small => examine_hostFrame type kind tag x y small, fun bytes => ?_,
    fun c k tag x y s on fits named => exec_frame x y fits named (requestPayload_length fits),
    fun type kind tag x y payload s on small => ?_⟩
  · refine ⟨fun empty => empty ▸ rfl, fun zero => by simp [examine, zero], fun first start some_ other =>
      examine_notFrame start some_ other, fun start long => examine_steps bytes start long⟩
  · intro taken bits action
    have frame : taken = dispatch type kind tag payload s := takeBytes_hostFrame x y small
    rw [frame]
    refine ⟨dispatch_full on, fun room => ⟨fun no => (dispatch_unknown no).trans (takeUnknown_answered room), ?_⟩⟩
    rintro rfl k rfl
    refine ⟨fun n mem wrong => dispatch_error (parse_fixed mem wrong) room, fun fixed n mem => ?_, ?_, ?_, ?_, ?_, ?_, ?_⟩
    · obtain ⟨owner, parsed⟩ := parse_optional (tag := tag) (p := payload) mem
      have wide : 1 ≤ 2 ^ n := Nat.one_le_two_pow
      refine ⟨fun none => dispatch_error (parsed.trans (none ▸ rfl)) room, fun beyond => dispatch_error (parsed.trans ?_) room,
        fun within wrong => dispatch_error (parsed.trans (ofOptional_length wrong within)) room⟩
      exact ofOptional_beyond beyond (headD_some (Nat.le_trans wide beyond))
    · rintro rfl running length beyond
      have parsed : parsePayload .doorState tag payload = .ok (refuse .badField) :=
        (if_pos length).trans (congrArg Except.ok (mode_beyond (fieldAt_first length.ge ▸ beyond)))
      exact answered_refused parsed on (by simp [running]) room (.inl running)
    · rintro rfl running length beyond
      have parsed : parsePayload .faultAck tag payload = .ok (refuse .badField) :=
        (if_pos length).trans (congrArg Except.ok (mode_beyond (fieldAt_first (Nat.le_of_add_left_le length.ge) ▸ beyond)))
      exact answered_refused parsed on (by simp [running]) room (.inl running)
    · rintro rfl past length beyond
      have parsed : parsePayload .restart tag payload = .ok (refuse .badField) :=
        (if_pos length).trans (congrArg Except.ok (mode_beyond (fieldAt_first length.ge ▸ beyond)))
      exact answered_refused parsed on past room (.inr rfl)
    · rintro rfl none
      exact dispatch_error (none ▸ rfl) room
    · rintro rfl
      exact ⟨fun none => dispatch_error (none ▸ rfl) room, fun beyond => dispatch_error (parseAcctCreate_beyond beyond) room,
        fun within wrong => dispatch_error (parseAcctCreate_length within wrong) room⟩
    · rintro rfl
      have place : action = acctSetOffset payload 3 := rfl
      rw [place]
      refine ⟨fun none => dispatch_error (none ▸ rfl) room, fun beyond => dispatch_error (parseAcctSet_beyond beyond) room,
        fun low wrong => dispatch_error (parseAcctSet_plain low wrong) room, fun low high =>
          ⟨fun short => dispatch_error (parseAcctSet_short low high short) room, fun b at_ =>
          ⟨fun other => dispatch_error (parseAcctSet_other low high at_ other) room, ?_, ?_⟩⟩⟩
      · rintro rfl wrong
        exact dispatch_error (parseAcctSet_set low high at_ wrong) room
      · rintro rfl wrong
        exact dispatch_error (parseAcctSet_clear low high at_ wrong) room

end Sys2Proof.Machine

/-! PROOFS. O14: no request that reports reads back a key or a PIN check value. -/

namespace Sys2Proof.Machine

open Host (Outcome)

section Secrets

variable {s : State} {check : Digest → Digest} {jobKeys : Vector (Option LiveKey) 64} {store : Store}

/-- The part with other values of its keys and of its PIN check values. -/
def disguised (check : Digest → Digest) (jobKeys : Vector (Option LiveKey) 64) (store : Store) (s : State) : State :=
  { s with ps := store, bc := { s.bc with keys := jobKeys }
           accounts := s.accounts.map fun a => { a with pinCheck := a.pinCheck.map check } }

/-- The stored keys stand in the same places, with the same locks. -/
def SameKeyPlaces (held other : Option KeysContent) : Prop :=
  (held = none ∧ other = none) ∨ ∃ k l, held = some k ∧ other = some l
    ∧ (∀ i : Fin 4, (l.family.get i).isSome = (k.family.get i).isSome) ∧ l.device.isSome = k.device.isSome ∧ l.locks = k.locks

/-- Two vectors with their values in the same places. -/
theorem places_eq {α : Type} {n : Nat} {v w : Vector (Option α) n} (same : ∀ i : Fin n, (v.get i).isSome = (w.get i).isSome) :
    v.toList.map (·.isSome) = w.toList.map (·.isSome) := by
  refine List.ext_getElem (by simp) fun i left right => ?_
  simp only [List.getElem_map, Vector.getElem_toList]
  exact same ⟨i, by simpa using left⟩

theorem liveKeys_disguised (places : ∀ i : Fin 64, (jobKeys.get i).isSome = (s.bc.keys.get i).isSome) :
    liveKeys (disguised check jobKeys store s) = liveKeys s := by
  have count (v : Vector (Option LiveKey) 64) : v.toList.countP (·.isSome) = (v.toList.map (·.isSome)).countP id := by
    rw [List.countP_map]
    rfl
  exact (count jobKeys).trans ((congrArg _ (places_eq places)).trans (count s.bc.keys).symm)

theorem statusReport_disguised (places : ∀ i : Fin 64, (jobKeys.get i).isSome = (s.bc.keys.get i).isSome)
    (keys : SameKeyPlaces s.ps.loadedKeys store.loadedKeys) :
    statusReport (disguised check jobKeys store s) = statusReport s := by
  have locks : store.loadedKeys.map (·.locks) = s.ps.loadedKeys.map (·.locks) := by
    rcases keys with ⟨held, other⟩ | ⟨k, l, held, other, -, -, same⟩ <;> simp [*]
  have live := liveKeys_disguised (check := check) (store := store) places
  unfold statusReport
  rw [live]
  change StatusReport.mk _ _ _ _ _ _ _ _ _ _ _ _ _ _ _ (store.loadedKeys.map (·.locks)) _ _ _ _ _ = _
  rw [locks]
  rfl

theorem storeReport_disguised (results : store.results = s.ps.results) (keys : SameKeyPlaces s.ps.loadedKeys store.loadedKeys) :
    storeReport (disguised check jobKeys store s) = storeReport s := by
  have held : keysOf (disguised check jobKeys store s) = store.loadedKeys.getD {} := rfl
  have places : (keysOf (disguised check jobKeys store s)).family.toList.map (·.isSome) = (keysOf s).family.toList.map (·.isSome)
      ∧ (keysOf (disguised check jobKeys store s)).device.isSome = (keysOf s).device.isSome
      ∧ locksOf (disguised check jobKeys store s) = locksOf s := by
    unfold locksOf
    rw [held, keysOf]
    rcases keys with ⟨none, other⟩ | ⟨k, l, some, other, family, device, locks⟩
    · rw [none, other]
      exact ⟨rfl, rfl, rfl⟩
    · rw [some, other]
      exact ⟨places_eq family, device, locks⟩
  obtain ⟨family, device, locks⟩ := places
  have accounts : (disguised check jobKeys store s).accounts.length = s.accounts.length := List.length_map _
  have checked : (disguised check jobKeys store s).ps.results = s.ps.results := results
  unfold storeReport
  rw [family, device, locks, accounts, checked]
  rfl

theorem findAccount_disguised (id : Nat) : findAccount id (disguised check jobKeys store s).accounts
    = (findAccount id s.accounts).map fun a => { a with pinCheck := a.pinCheck.map check } := by
  exact List.find?_map

theorem accountReport_disguised (a : Account) :
    accountReport (disguised check jobKeys store s) { a with pinCheck := a.pinCheck.map check } = accountReport s a := by
  unfold accountReport
  dsimp only
  rw [Option.isSome_map]
  rfl

theorem idsFrom_disguised (start : Nat) : idsFrom start (disguised check jobKeys store s).accounts = idsFrom start s.accounts := by
  change ((s.accounts.map _).filter _).map _ = _
  rw [List.filter_map, List.map_map]
  rfl

/-- What a request answers of a part and of the part with other secrets. -/
def AnswersAlike (a b : Answer) : Prop := a.status = b.status ∧ a.payload = b.payload ∧ a.state.lif = b.state.lif

theorem onJob_alike {handle : Nat} {rule : Job → State → Answer} {t : State} (jt : t.jt = s.jt) (lif : t.lif = s.lif)
    (alike : ∀ j, AnswersAlike (rule j t) (rule j s)) : AnswersAlike (onJob handle rule t) (onJob handle rule s) := by
  unfold onJob
  rw [jt]
  split
  · exact ⟨rfl, rfl, lif⟩
  · exact alike _

/-- The owner of a request that reports, or of STATUS, answers alike. -/
theorem Owner.hides {k : RequestKind} {tag : Byte} {o : State → Answer} (owner : Owner k tag o)
    (reports : reportsOnly k = true ∨ k = .status) (places : ∀ i : Fin 64, (jobKeys.get i).isSome = (s.bc.keys.get i).isSome)
    (results : store.results = s.ps.results) (keys : SameKeyPlaces s.ps.loadedKeys store.loadedKeys) :
    AnswersAlike (o (disguised check jobKeys store s)) (o s) := by
  cases owner <;> try (rcases reports with only | only <;> cases only)
  case acctRead.inl.refl id =>
    unfold Machine.acctRead
    rw [findAccount_disguised]
    cases found : findAccount id s.accounts with
    | none => exact ⟨rfl, rfl, rfl⟩
    | some a => exact ⟨rfl, congrArg Payload.account (accountReport_disguised a), rfl⟩
  case acctList.inl.refl start =>
    have length : (disguised check jobKeys store s).accounts.length = s.accounts.length := List.length_map _
    unfold Machine.acctList
    rw [idsFrom_disguised, length]
    exact ⟨rfl, rfl, rfl⟩
  case jobRead.inl.refl handle first =>
    refine onJob_alike rfl rfl fun j => ?_
    split <;> exact ⟨rfl, rfl, rfl⟩
  case pathRead.inl.refl => exact ⟨rfl, rfl, rfl⟩
  case cartRead.inl.refl selector start =>
    unfold Machine.cartRead
    split
    · exact ⟨rfl, rfl, rfl⟩
    · split <;> exact ⟨rfl, rfl, rfl⟩
  case spoolRead.inl.refl block =>
    unfold Machine.spoolRead
    split <;> exact ⟨rfl, rfl, rfl⟩
  case faultRead.inl.refl => exact ⟨rfl, rfl, rfl⟩
  case sense.inl.refl handle => exact onJob_alike rfl rfl fun j => ⟨rfl, rfl, rfl⟩
  case storeRead.inl.refl => exact ⟨rfl, congrArg Payload.store (storeReport_disguised results keys), rfl⟩
  case status.inr.refl => exact ⟨rfl, congrArg Payload.status (statusReport_disguised places keys), rfl⟩

/-- R188, R189: a request is turned away alike, or answered alike. -/
theorem request_alike {k : RequestKind} {tag : Byte} {o : State → Answer} {t : State} (powered : t.powered = s.powered)
    (part : t.fm = s.fm) (lif : t.lif = s.lif) (alike : AnswersAlike (o t) (o s)) :
    (request k tag o t).lif = (request k tag o s).lif := by
  obtain ⟨status, payload, answered⟩ := alike
  have served : (reply (kindByte k) tag (o t)).lif = (reply (kindByte k) tag (o s)).lif := by
    unfold reply pushReply
    rw [status, payload]
    have entry := congrArg (appendEntry (.reply ⟨kindByte k, tag, statusByte (o s).status, (o s).payload⟩)) answered
    exact entry
  have refused (c : Status) : (reply (kindByte k) tag (refuse c t)).lif = (reply (kindByte k) tag (refuse c s)).lif :=
    congrArg (appendEntry (.reply { kind := kindByte k, tag := tag, status := statusByte c, payload := .empty })) lif
  unfold request
  rw [powered, lif, part]
  split
  · exact lif
  split
  · exact congrArg (fun l : LinkInterface => { l with overrun := true }) lif
  split
  · exact refused .starting
  · split
    · exact served
    · exact refused .halted
  · exact served

/-- Settles O14: the owner of such a request answers of both parts alike. -/
theorem keysAreNotReadBack : Obligations.KeysAreNotReadBack := by
  intro c k tag s check jobKeys store named reports places results keys t u next
  obtain ⟨o, owner, runs⟩ := exec_owner named
  refine ⟨request k tag o t, runs t, ?_⟩
  obtain rfl := Outcome.next.inj ((runs s).symm.trans next)
  exact request_alike rfl rfl rfl (owner.hides (check := check) reports places results keys)

end Secrets

end Sys2Proof.Machine

/-! PROOFS. O9: the invariant of the job table, and what a job's new record does to it. -/

namespace Sys2Proof.Machine

/-! ### The part of the state that the invariant speaks of -/

/-- What the job table's invariant speaks of. -/
structure JobView where
  slots : Vector JobSlot 64
  engine : Queue
  exporter : Queue
  held : Option HeldBand
  keys : Vector (Option LiveKey) 64

/-- What the job table's invariant sees of a state. -/
def jobView (s : State) : JobView := ⟨s.jt.slots, s.jt.engine, s.jt.exporter, s.jt.held, s.bc.keys⟩

/-- A state with a view. -/
def viewed (v : JobView) : State :=
  { State.reset with
    jt := { State.reset.jt with slots := v.slots, engine := v.engine, exporter := v.exporter, held := v.held }
    bc := { State.reset.bc with keys := v.keys } }

theorem jobsOk_viewed (s : State) : JobsOk (viewed (jobView s)) ↔ JobsOk s := Iff.rfl

/-- The operation keeps the job table's invariant. -/
def KeepsJobs (s t : State) : Prop := JobsOk s → JobsOk t

theorem KeepsJobs.same (s : State) : KeepsJobs s s := fun ok => ok

theorem KeepsJobs.trans {s t u : State} (first : KeepsJobs s t) (second : KeepsJobs t u) : KeepsJobs s u := second ∘ first

theorem KeepsJobs.branch {c : Prop} [Decidable c] {s t u : State} (yes : KeepsJobs s t) (no : KeepsJobs s u) :
    KeepsJobs s (if c then t else u) := by split <;> assumption

/-- What the view does not show keeps the invariant. -/
theorem KeepsJobs.quiet {s t : State} (view : jobView t = jobView s) : KeepsJobs s t := fun ok =>
  (jobsOk_viewed t).mp (view ▸ (jobsOk_viewed s).mpr ok)

/-! ### Sums over the jobs -/

/-- The sum of a number of every job. -/
def jobSum (f : Job → Nat) (jt : JobTable) : Nat := ((allJobs jt).map f).sum

theorem jobSum_eq (f : Job → Nat) (jt : JobTable) : jobSum f jt = ∑ i : Fin 64, ((jt.slots.get i).job.map f).getD 0 := by
  rw [jobSum, allJobs_eq, Fin.sum_univ_def]
  induction List.finRange 64 with
  | nil => rfl
  | cons i rest ih =>
    rw [List.filterMap_cons, List.map_cons, List.sum_cons, ← ih]
    cases (jt.slots.get i).job <;> simp

/-- The sum after a slot takes another content. -/
theorem jobSum_slot (f : Job → Nat) {a b : JobTable} (i : Fin 64) (others : ∀ k, k ≠ i → b.slots.get k = a.slots.get k) :
    jobSum f b + ((a.slots.get i).job.map f).getD 0 = jobSum f a + ((b.slots.get i).job.map f).getD 0 := by
  rw [jobSum_eq, jobSum_eq, ← Finset.add_sum_erase _ _ (Finset.mem_univ i), ← Finset.add_sum_erase _ _ (Finset.mem_univ i)]
  have rest : ∑ k ∈ Finset.univ.erase i, ((b.slots.get k).job.map f).getD 0
      = ∑ k ∈ Finset.univ.erase i, ((a.slots.get k).job.map f).getD 0 :=
    Finset.sum_congr rfl fun k mem => by rw [others k (Finset.ne_of_mem_erase mem)]
  rw [rest]
  omega

theorem jobSum_put (f : Job → Nat) {jt : JobTable} {j r : Job} (found : jobOf jt r.handle = some j) :
    jobSum f (putJob r jt) + f j = jobSum f jt + f r := by
  obtain ⟨-, -, at_⟩ := jobOf_slot found
  have sum := jobSum_slot f (a := jt) (b := putJob r jt) (slotOf r.handle) fun k other => get_set_ne _ _ other
  have slot : (putJob r jt).slots.get (slotOf r.handle) = { jt.slots.get (slotOf r.handle) with job := some r } := get_set_self _ _ _
  rw [slot, at_] at sum
  exact sum

/-! ### A job's place in the queues -/

/-- The queue after a job has taken its place for a state, or left it. -/
structure Placed (handle : Nat) (state : JobState) (before after : Queue) : Prop where
  nodup : after.waiting.Nodup
  waiting : ∀ g, g ∈ after.waiting ↔ if g = handle then state = .queued else g ∈ before.waiting
  active : ∀ g, after.active = some g ↔ if g = handle then state = .active else before.active = some g

/-- The queue of a job that leaves its place. -/
def leftQueue (j : Job) (q : Queue) : Queue :=
  if j.state = .queued then { q with waiting := q.waiting.erase j.handle }
  else if j.state = .active then { q with active := none } else q

section Places

variable {jt : JobTable} {j : Job} {q : Queue} {d : Destination} {state : JobState}

/-- Where the queue has a job, by the job's state. -/
theorem queue_of_state (ok : QueueOk jt d) (found : jobOf jt j.handle = some j) (kind : destinationOf j.kind = d) :
    (j.handle ∈ (queueOf jt d).waiting ↔ j.state = .queued) ∧ ((queueOf jt d).active = some j.handle ↔ j.state = .active) := by
  obtain ⟨-, waiting, active⟩ := ok
  have unique {k : Job} (also : jobOf jt j.handle = some k) : k = j := Option.some.inj (also.symm.trans found)
  rw [waiting, active]
  exact ⟨⟨fun ⟨k, also, is, _⟩ => unique also ▸ is, fun is => ⟨j, found, is, kind⟩⟩,
    ⟨fun ⟨k, also, is, _⟩ => unique also ▸ is, fun is => ⟨j, found, is, kind⟩⟩⟩

/-- A job that keeps its state keeps its place. -/
theorem Placed.stays (ok : QueueOk jt d) (found : jobOf jt j.handle = some j) (kind : destinationOf j.kind = d) :
    Placed j.handle j.state (queueOf jt d) (queueOf jt d) := by
  obtain ⟨waiting, active⟩ := queue_of_state ok found kind
  refine ⟨ok.1, fun g => ?_, fun g => ?_⟩
  · split
    · next same => rw [same, waiting]
    · rfl
  · split
    · next same => rw [same, active]
    · rfl

/-- A job that leaves its place for a state without one. -/
theorem Placed.left (ok : QueueOk jt d) (found : jobOf jt j.handle = some j) (kind : destinationOf j.kind = d)
    (queued : state ≠ .queued) (active : state ≠ .active) : Placed j.handle state (queueOf jt d) (leftQueue j (queueOf jt d)) := by
  obtain ⟨isWaiting, isActive⟩ := queue_of_state ok found kind
  have nodup := ok.1
  unfold leftQueue
  split
  · next was =>
    have idle : ¬ (queueOf jt d).active = some j.handle := by rw [isActive, was]; simp
    refine ⟨nodup.erase _, fun g => ?_, fun g => ?_⟩
    · rw [nodup.mem_erase_iff]
      split
      · next same => simp [same, queued]
      · next other => simp [other]
    · split
      · next same => simp [same, active, idle]
      · rfl
  · next out =>
    have absent : j.handle ∉ (queueOf jt d).waiting := by rw [isWaiting]; exact out
    split
    · next was =>
      refine ⟨nodup, fun g => ?_, fun g => ?_⟩
      · split
        · next same => simp [same, queued, absent]
        · rfl
      · split
        · next same => simp [active]
        · next other => simpa [isActive.mpr was] using Ne.symm other
    · next idle =>
      rw [← isActive] at idle
      refine ⟨nodup, fun g => ?_, fun g => ?_⟩
      · split
        · next same => simp [same, queued, absent]
        · rfl
      · split
        · next same => simp [same, active, idle]
        · rfl

variable {handle : Nat} {before after : Queue}

/-- A job without a place joins the tail. -/
theorem Placed.tail (placed : Placed handle state before after) (queued : state ≠ .queued) (active : state ≠ .active) :
    Placed handle .queued before { after with waiting := after.waiting ++ [handle] } := by
  have absent : handle ∉ after.waiting := by rw [placed.waiting, if_pos rfl]; exact queued
  refine ⟨?_, fun g => ?_, fun g => ?_⟩
  · exact List.nodup_append.mpr ⟨placed.nodup, by simp, fun a mem b single same => by
      rw [List.mem_singleton.mp single] at same
      exact absent (same ▸ mem)⟩
  · rw [List.mem_append, placed.waiting, List.mem_singleton]
    split
    · next same => simp [same]
    · next other => simp [other]
  · have was := placed.active g
    split
    · next same => simpa [same, active] using was
    · next other => simpa [other] using was

/-- A job without a place joins the head. -/
theorem Placed.head (placed : Placed handle state before after) (queued : state ≠ .queued) (active : state ≠ .active) :
    Placed handle .queued before { after with waiting := handle :: after.waiting } := by
  have absent : handle ∉ after.waiting := by rw [placed.waiting, if_pos rfl]; exact queued
  refine ⟨List.nodup_cons.mpr ⟨absent, placed.nodup⟩, fun g => ?_, fun g => ?_⟩
  · rw [List.mem_cons, placed.waiting]
    split
    · next same => simp [same]
    · next other => simp [other]
  · have was := placed.active g
    split
    · next same => simpa [same, active] using was
    · next other => simpa [other] using was

end Places

end Sys2Proof.Machine

/-! PROOFS. O9: the changes of a job keep the invariant of the job table. -/

namespace Sys2Proof.Machine

/-! ### A job's new record -/

section Replaced

variable {s t : State} {j r : Job}

/-- The slots after a job's record is replaced, where its key goes with its last live state. -/
theorem slotOk_replaced (ok : ∀ i, SlotOk s i) (found : jobOf s.jt j.handle = some j) (own : r.handle = j.handle)
    (slots : t.jt.slots = (putJob r s.jt).slots)
    (keys : ∀ i, t.bc.keys.get i = if i = slotOf j.handle ∧ isLive r = false then none else s.bc.keys.get i)
    (live : isLive r = true → isLive j = true) (i : Fin 64) : SlotOk t i := by
  obtain ⟨-, -, at_⟩ := jobOf_slot found
  obtain ⟨generation, bears, key, keyed⟩ := ok i
  unfold SlotOk
  rw [slots, keys]
  by_cases same : i = slotOf j.handle
  · subst same
    have slot : (putJob r s.jt).slots.get (slotOf j.handle) = { s.jt.slots.get (slotOf j.handle) with job := some r } := by
      rw [← own]
      exact get_set_self _ _ _
    rw [slot]
    refine ⟨generation, fun k is => ?_, ?_, fun k l is locked => ?_⟩
    · obtain rfl := Option.some.inj is
      rw [own]
      exact bears j at_
    · cases lives : isLive r with
      | false => simp [lives]
      | true =>
        rw [if_neg (by simp), key]
        exact ⟨fun _ => ⟨r, rfl, lives⟩, fun _ => ⟨j, at_, live lives⟩⟩
    · obtain rfl := Option.some.inj is
      split at locked
      · cases locked
      · rw [own]
        exact keyed j l at_ locked
  · have slot : (putJob r s.jt).slots.get i = s.jt.slots.get i := get_set_ne _ _ (by rwa [own])
    rw [slot, if_neg (fun both => same both.1)]
    exact ⟨generation, bears, key, keyed⟩

/-- The queue of the job's destination after the job has moved. -/
theorem queueOk_placed {d : Destination} (ok : QueueOk s.jt d) (found : jobOf s.jt j.handle = some j) (own : r.handle = j.handle)
    (kind : r.kind = j.kind) (slots : t.jt.slots = (putJob r s.jt).slots)
    (placed : d = destinationOf j.kind → Placed j.handle r.state (queueOf s.jt d) (queueOf t.jt d))
    (other : d ≠ destinationOf j.kind → queueOf t.jt d = queueOf s.jt d) : QueueOk t.jt d := by
  have mine : jobOf t.jt j.handle = some r := by
    rw [jobOf_congr slots]
    exact jobOf_putJob found own
  have rest {g : Nat} (apart : g ≠ j.handle) : jobOf t.jt g = jobOf s.jt g := by
    rw [jobOf_congr slots]
    exact jobOf_putJob_other (own ▸ found) (own ▸ apart)
  obtain ⟨nodup, waiting, active⟩ := ok
  by_cases dest : d = destinationOf j.kind
  · obtain ⟨nodup', waiting', active'⟩ := placed dest
    have only {st : JobState} : (∃ k, jobOf t.jt j.handle = some k ∧ k.state = st ∧ destinationOf k.kind = d) ↔ r.state = st :=
      ⟨fun ⟨k, is, state, _⟩ => Option.some.inj (mine.symm.trans is) ▸ state, fun state => ⟨r, mine, state, by rw [kind, dest]⟩⟩
    refine ⟨nodup', fun g => ?_, fun g => ?_⟩
    · rw [waiting']
      split
      · next same => rw [same, only]
      · next apart => rw [waiting, rest apart]
    · rw [active']
      split
      · next same => rw [same, only]
      · next apart => rw [active, rest apart]
  · have none_ {k : Job} {jt : JobTable} (is : jobOf jt j.handle = some k) (same : k.kind = j.kind) {st : JobState} :
        ¬ ∃ k, jobOf jt j.handle = some k ∧ k.state = st ∧ destinationOf k.kind = d := by
      rintro ⟨l, also, -, there⟩
      rw [is] at also
      obtain rfl := Option.some.inj also
      exact dest (by rw [← there, same])
    rw [QueueOk, other dest]
    refine ⟨nodup, fun g => ?_, fun g => ?_⟩
    · rw [waiting]
      by_cases same : g = j.handle
      · subst same
        exact iff_of_false (none_ found rfl) (none_ mine kind)
      · rw [rest same]
    · rw [active]
      by_cases same : g = j.handle
      · subst same
        exact iff_of_false (none_ found rfl) (none_ mine kind)
      · rw [rest same]

/-- A job's record is replaced, its place in the queues and its key with it. -/
theorem JobsOk.replaced (ok : JobsOk s) (found : jobOf s.jt j.handle = some j) (own : r.handle = j.handle) (kind : r.kind = j.kind)
    (slots : t.jt.slots = (putJob r s.jt).slots)
    (keys : ∀ i, t.bc.keys.get i = if i = slotOf j.handle ∧ isLive r = false then none else s.bc.keys.get i)
    (live : isLive r = true → isLive j = true)
    (placed : Placed j.handle r.state (queueOf s.jt (destinationOf j.kind)) (queueOf t.jt (destinationOf j.kind)))
    (other : ∀ d, d ≠ destinationOf j.kind → queueOf t.jt d = queueOf s.jt d)
    (pages : pagesUsed s.jt + r.pages.length ≤ 8192 + j.pages.length)
    (extents : extentsUsed s.jt + r.extents.length ≤ 4096 + j.extents.length)
    (held : ∀ h, t.jt.held = some h → h.band.index = 1 → pagesUsed s.jt + r.pages.length < 8192 + j.pages.length) : JobsOk t := by
  obtain ⟨okSlots, engine, exporter, -, -, -⟩ := ok
  have usedPages : pagesUsed t.jt + j.pages.length = pagesUsed s.jt + r.pages.length := by
    have sum := jobSum_put (·.pages.length) (jt := s.jt) (r := r) (j := j) (own.symm ▸ found)
    have same : pagesUsed t.jt = jobSum (·.pages.length) (putJob r s.jt) := by
      rw [pagesUsed, allJobs, slots]
      rfl
    rw [same]
    exact sum
  have usedExtents : extentsUsed t.jt + j.extents.length = extentsUsed s.jt + r.extents.length := by
    have sum := jobSum_put (·.extents.length) (jt := s.jt) (r := r) (j := j) (own.symm ▸ found)
    have same : extentsUsed t.jt = jobSum (·.extents.length) (putJob r s.jt) := by
      rw [extentsUsed, allJobs, slots]
      rfl
    rw [same]
    exact sum
  have queue (d : Destination) (ok : QueueOk s.jt d) : QueueOk t.jt d :=
    queueOk_placed ok found own kind slots (fun dest => dest ▸ placed) (other d)
  refine ⟨slotOk_replaced okSlots found own slots keys live, queue _ engine, queue _ exporter, by omega, by omega, fun h is first => ?_⟩
  have := held h is first
  omega

/-- A job's record is replaced by one that takes no more of the pools. -/
theorem JobsOk.moved (ok : JobsOk s) (found : jobOf s.jt j.handle = some j) (own : r.handle = j.handle) (kind : r.kind = j.kind)
    (slots : t.jt.slots = (putJob r s.jt).slots)
    (keys : ∀ i, t.bc.keys.get i = if i = slotOf j.handle ∧ isLive r = false then none else s.bc.keys.get i)
    (live : isLive r = true → isLive j = true)
    (placed : Placed j.handle r.state (queueOf s.jt (destinationOf j.kind)) (queueOf t.jt (destinationOf j.kind)))
    (other : ∀ d, d ≠ destinationOf j.kind → queueOf t.jt d = queueOf s.jt d)
    (pages : r.pages.length ≤ j.pages.length) (extents : r.extents.length ≤ j.extents.length)
    (held : t.jt.held = none ∨ t.jt.held = s.jt.held) : JobsOk t := by
  obtain ⟨-, -, -, usedPages, usedExtents, heldPages⟩ := id ok
  refine ok.replaced found own kind slots keys live placed other (by omega) (by omega) fun h is first => ?_
  rcases held with none | same
  · rw [none] at is
    cases is
  · have := heldPages h (same ▸ is) first
    omega

end Replaced

end Sys2Proof.Machine

/-! PROOFS. O9: the moves of jobs between states and queues keep the invariant of the job table. -/

namespace Sys2Proof.Machine

/-! ### A queue is set, and a record seated -/

/-- The state with the queue of a destination set, as far as the invariant sees. -/
structure QueueSet (d : Destination) (q : Queue) (s t : State) : Prop where
  slots : t.jt.slots = s.jt.slots
  keys : t.bc.keys = s.bc.keys
  held : t.jt.held = s.jt.held
  mine : queueOf t.jt d = q
  other : ∀ e, e ≠ d → queueOf t.jt e = queueOf s.jt e

section Queues

variable {d : Destination} {q p : Queue} {s t u : State} {j r : Job}

theorem QueueSet.same (s : State) (d : Destination) : QueueSet d (queueOf s.jt d) s s := ⟨rfl, rfl, rfl, rfl, fun _ _ => rfl⟩

theorem queueOf_putQueue_self (d : Destination) (q : Queue) (jt : JobTable) : queueOf (putQueue d q jt) d = q := by cases d <;> rfl

theorem queueOf_putQueue_other {e : Destination} (other : e ≠ d) (q : Queue) (jt : JobTable) :
    queueOf (putQueue d q jt) e = queueOf jt e := by
  cases d <;> cases e <;> simp_all [queueOf, putQueue]

theorem putQueue_rest (d : Destination) (q : Queue) (jt : JobTable) :
    (putQueue d q jt).slots = jt.slots ∧ (putQueue d q jt).held = jt.held := by cases d <;> exact ⟨rfl, rfl⟩

theorem QueueSet.put (set : QueueSet d p s u) (q : Queue) : QueueSet d q s { u with jt := putQueue d q u.jt } := by
  obtain ⟨slots, held⟩ := putQueue_rest d q u.jt
  exact ⟨slots.trans set.slots, set.keys, held.trans set.held, queueOf_putQueue_self d q u.jt, fun e other =>
    (queueOf_putQueue_other other q u.jt).trans (set.other e other)⟩

theorem QueueSet.quiet (set : QueueSet d q s u) (view : jobView t = jobView u) : QueueSet d q s t := by
  simp only [jobView, JobView.mk.injEq] at view
  obtain ⟨slots, engine, exporter, held, keys⟩ := view
  have queue (e : Destination) : queueOf t.jt e = queueOf u.jt e := by cases e <;> assumption
  exact ⟨slots.trans set.slots, keys.trans set.keys, held.trans set.held, (queue d).trans set.mine, fun e other =>
    (queue e).trans (set.other e other)⟩

theorem queueSet_leaveActive (j : Job) (s : State) :
    QueueSet (destinationOf j.kind) { queueOf s.jt (destinationOf j.kind) with active := none } s (leaveActive j s) := by
  have set := (QueueSet.same s (destinationOf j.kind)).put { queueOf s.jt (destinationOf j.kind) with active := none }
  refine set.quiet ?_
  unfold leaveActive
  cases destinationOf j.kind <;> rfl

theorem queueSet_leavePlace (j : Job) (s : State) :
    QueueSet (destinationOf j.kind) (leftQueue j (queueOf s.jt (destinationOf j.kind))) s (leavePlace j s) := by
  by_cases queued : j.state = .queued
  · rw [leftQueue, if_pos queued]
    simp only [leavePlace, queued]
    exact (QueueSet.same s _).put _
  by_cases active : j.state = .active
  · rw [leftQueue, if_neg queued, if_pos active]
    simp only [leavePlace, active]
    exact queueSet_leaveActive j s
  · rw [leftQueue, if_neg queued, if_neg active]
    unfold leavePlace
    split
    · next was => exact absurd was queued
    · next was => exact absurd was active
    · exact QueueSet.same s _

end Queues

/-- The state with a record in its slot and the queue of its destination set, as far as the invariant sees. -/
structure Seated (r : Job) (q : Queue) (s t : State) : Prop where
  slots : t.jt.slots = (putJob r s.jt).slots
  keys : t.bc.keys = s.bc.keys
  held : t.jt.held = s.jt.held
  mine : queueOf t.jt (destinationOf r.kind) = q
  other : ∀ e, e ≠ destinationOf r.kind → queueOf t.jt e = queueOf s.jt e

section Seats

variable {q : Queue} {s t u : State} {j r : Job}

theorem putJob_slots {a b : JobTable} (r : Job) (slots : a.slots = b.slots) : (putJob r a).slots = (putJob r b).slots := by
  unfold putJob
  rw [slots]

theorem QueueSet.seat (set : QueueSet (destinationOf r.kind) q s u) : Seated r q s (setJob r u) :=
  ⟨putJob_slots r set.slots, set.keys, set.held, by rw [← set.mine]; cases destinationOf r.kind <;> rfl,
    fun e other => by rw [← set.other e other]; cases e <;> rfl⟩

theorem Seated.quiet (seat : Seated r q s u) (view : jobView t = jobView u) : Seated r q s t := by
  simp only [jobView, JobView.mk.injEq] at view
  obtain ⟨slots, engine, exporter, held, keys⟩ := view
  have queue (e : Destination) : queueOf t.jt e = queueOf u.jt e := by cases e <;> assumption
  exact ⟨slots.trans seat.slots, keys.trans seat.keys, held.trans seat.held, (queue _).trans seat.mine, fun e other =>
    (queue e).trans (seat.other e other)⟩

theorem moveJob_view (r : Job) (s : State) : jobView (moveJob r s) = jobView (setJob r s) := rfl

theorem QueueSet.move (set : QueueSet (destinationOf r.kind) q s u) : Seated r q s (moveJob r u) := set.seat.quiet (moveJob_view r u)

/-- A job in SCRUB has no key. -/
theorem key_of_dead (ok : JobsOk s) (found : jobOf s.jt j.handle = some j) (dead : isLive j = false) :
    s.bc.keys.get (slotOf j.handle) = none := by
  obtain ⟨-, -, at_⟩ := jobOf_slot found
  obtain ⟨-, -, key, -⟩ := ok.1 (slotOf j.handle)
  cases locked : s.bc.keys.get (slotOf j.handle) with
  | none => rfl
  | some k =>
    obtain ⟨l, is, lives⟩ := key.mp (by rw [locked]; rfl)
    rw [at_] at is
    obtain rfl := Option.some.inj is
    rw [dead] at lives
    cases lives

/-- A job seated with a place for its state keeps the invariant. -/
theorem Seated.keeps (seat : Seated r q s t) (ok : JobsOk s) (found : jobOf s.jt j.handle = some j) (own : r.handle = j.handle)
    (kind : r.kind = j.kind) (live : isLive r = isLive j)
    (placed : Placed j.handle r.state (queueOf s.jt (destinationOf j.kind)) q)
    (pages : r.pages.length ≤ j.pages.length) (extents : r.extents.length ≤ j.extents.length) : JobsOk t := by
  refine ok.moved found own kind seat.slots (fun i => ?_) (fun lives => live ▸ lives) ?_ (kind ▸ seat.other) pages extents (.inr seat.held)
  · rw [seat.keys]
    split
    · next both =>
      rw [both.1]
      exact key_of_dead ok found (live ▸ both.2)
    · rfl
  · rw [← kind, seat.mine, kind]
    exact placed

theorem QueueOk.of (ok : JobsOk s) (d : Destination) : QueueOk s.jt d := by cases d <;> [exact ok.2.1; exact ok.2.2.1]

/-- A record replaced in its state. -/
theorem JobsOk.record (ok : JobsOk s) (found : jobOf s.jt j.handle = some j) (own : r.handle = j.handle) (kind : r.kind = j.kind)
    (state : r.state = j.state) (pages : r.pages.length ≤ j.pages.length) (extents : r.extents.length ≤ j.extents.length) :
    JobsOk (setJob r s) := by
  have live : isLive r = isLive j := by rw [isLive, isLive, state]
  refine ((QueueSet.same s (destinationOf r.kind)).seat (r := r)).keeps ok found own kind live ?_ pages extents
  rw [state, kind]
  exact Placed.stays (QueueOk.of ok _) found rfl

/-- A job that leaves its place for a live state without one. -/
theorem JobsOk.rests (ok : JobsOk s) (found : jobOf s.jt j.handle = some j) (own : r.handle = j.handle) (kind : r.kind = j.kind)
    (set : QueueSet (destinationOf j.kind) (leftQueue j (queueOf s.jt (destinationOf j.kind))) s u)
    (live : isLive r = isLive j) (queued : r.state ≠ .queued) (active : r.state ≠ .active)
    (pages : r.pages.length ≤ j.pages.length) (extents : r.extents.length ≤ j.extents.length) : JobsOk (moveJob r u) :=
  ((kind ▸ set : QueueSet (destinationOf r.kind) _ s u).move).keeps ok found own kind live
    (Placed.left (QueueOk.of ok _) found rfl queued active) pages extents

/-- The queue a job leaves where it has no place in it. -/
theorem leftQueue_idle (queued : j.state ≠ .queued) (active : j.state ≠ .active) (q : Queue) : leftQueue j q = q := by
  rw [leftQueue, if_neg queued, if_neg active]

/-- A job without a place joins its queue. -/
theorem JobsOk.queued (ok : JobsOk s) (found : jobOf s.jt j.handle = some j) (own : r.handle = j.handle) (kind : r.kind = j.kind)
    (live : isLive j = true) (state : r.state = .queued)
    (set : QueueSet (destinationOf j.kind) q s u)
    (joins : ∀ after, leftQueue j (queueOf s.jt (destinationOf j.kind)) = after →
      q = { after with waiting := after.waiting ++ [j.handle] } ∨ q = { after with waiting := j.handle :: after.waiting })
    (pages : r.pages.length ≤ j.pages.length) (extents : r.extents.length ≤ j.extents.length) : JobsOk (moveJob r u) := by
  have lives : isLive r = isLive j := by rw [live, isLive, state]
  have left := Placed.left (state := .intake) (QueueOk.of ok (destinationOf j.kind)) found rfl (by simp) (by simp)
  refine ((kind ▸ set : QueueSet (destinationOf r.kind) q s u).move).keeps ok found own kind lives ?_ pages extents
  rw [state]
  rcases joins _ rfl with rfl | rfl
  · exact left.tail (by simp) (by simp)
  · exact left.head (by simp) (by simp)

end Seats

end Sys2Proof.Machine

/-! PROOFS. O9: the operations on jobs keep the invariant of the job table. -/

namespace Sys2Proof.Machine

/-! ### Records changed in their state -/

section Records

variable {s : State} {handle : Nat} {j : Job} {f : Job → Job}

theorem JobsOk.own (ok : JobsOk s) (found : jobOf s.jt handle = some j) : j.handle = handle := (named_of_ok ok.1).own found

theorem JobsOk.found (ok : JobsOk s) (found : jobOf s.jt handle = some j) : jobOf s.jt j.handle = some j := by
  rw [ok.own found]
  exact found

/-- A change of a job's record that moves it nowhere and takes nothing. -/
structure Minor (f : Job → Job) : Prop where
  handle : ∀ j, (f j).handle = j.handle
  kind : ∀ j, (f j).kind = j.kind
  state : ∀ j, (f j).state = j.state
  pages : ∀ j, (f j).pages.length ≤ j.pages.length
  extents : ∀ j, (f j).extents.length ≤ j.extents.length

theorem jobs_setMinor (minor : Minor f) (ok : JobsOk s) (found : jobOf s.jt j.handle = some j) : JobsOk (setJob (f j) s) :=
  ok.record found (minor.handle j) (minor.kind j) (minor.state j) (minor.pages j) (minor.extents j)

theorem jobs_changeJob (minor : Minor f) (handle : Nat) (s : State) : KeepsJobs s (changeJob handle f s) := by
  unfold changeJob
  split
  · next j found => exact fun ok => jobs_setMinor minor ok (ok.found found)
  · exact KeepsJobs.same s

theorem minor_lastFault (record : JobRecord) : Minor fun j => { j with lastFault := some record } :=
  ⟨fun _ => rfl, fun _ => rfl, fun _ => rfl, fun _ => Nat.le_refl _, fun _ => Nat.le_refl _⟩

theorem minor_expected (expected : Option (Nat × Nat)) : Minor fun j => { j with expected := expected } :=
  ⟨fun _ => rfl, fun _ => rfl, fun _ => rfl, fun _ => Nat.le_refl _, fun _ => Nat.le_refl _⟩

theorem minor_inFlight : Minor fun j => { j with inFlight := 0 } :=
  ⟨fun _ => rfl, fun _ => rfl, fun _ => rfl, fun _ => Nat.le_refl _, fun _ => Nat.le_refl _⟩

theorem minor_page (page : Nat) (g : PageEntry → PageEntry) :
    Minor fun j => { j with pages := if page = 0 then j.pages else j.pages.modify (page - 1) g } :=
  ⟨fun _ => rfl, fun _ => rfl, fun _ => rfl, fun j => by dsimp only; split <;> simp, fun _ => Nat.le_refl _⟩

theorem jobs_flagPage (handle page : Nat) (s : State) : KeepsJobs s (flagPage handle page s) :=
  jobs_changeJob (minor_page page _) handle s

theorem jobs_raiseJobFault (fault : JobFault) (s : State) : KeepsJobs s (raiseJobFault fault s) := by
  have kept : KeepsJobs s (keepLastFault { number := takeNumber s.fm, instant := nowMs s, fault := fault }
      { s with fm := { s.fm with nextNumber := takeNumber s.fm % 65535 + 1 } }) :=
    KeepsJobs.trans (t := { s with fm := { s.fm with nextNumber := takeNumber s.fm % 65535 + 1 } }) (KeepsJobs.quiet rfl)
      (jobs_changeJob (minor_lastFault _) _ _)
  unfold raiseJobFault
  refine kept.trans ?_
  dsimp only
  generalize keepLastFault _ _ = t
  split
  · exact KeepsJobs.quiet rfl
  · split <;> exact KeepsJobs.quiet rfl

end Records

/-! ### Quiet operations -/

section Quiet

variable (s : State)

@[simp] theorem view_raiseNote (n : Note) : jobView (raiseNote n s) = jobView s := rfl

@[simp] theorem view_updateAccount (id : Nat) (f : Account → Account) : jobView (updateAccount id f s) = jobView s := by
  unfold updateAccount
  dsimp only
  split <;> rfl

theorem view_remapBlock {block : Nat} {s t : State} (same : remapBlock block s = some t) : jobView t = jobView s := by
  unfold remapBlock at same
  split at same
  · obtain rfl := Option.some.inj same
    dsimp only
    split <;> rfl
  · cases same

theorem view_of_aside {s t : State} (same : aside t = aside s) : jobView t = jobView s := by
  unfold jobView
  rw [aside_jt same, aside_bc same]

@[simp] theorem view_reviewTimer : jobView (reviewTimer s) = jobView s := by
  unfold reviewTimer
  split <;> rfl

@[simp] theorem view_releaseSheets (sheets : List Sheet) : jobView (releaseSheets sheets s) = jobView s := by
  obtain ⟨ps, same, -⟩ := releaseSheets_spec sheets s
  rw [same]
  rfl

@[simp] theorem view_endSanitize (halted : Bool) : jobView (endSanitize halted s) = jobView s := by
  unfold endSanitize
  split <;> rfl

@[simp] theorem view_reportStartUp (halted : Bool) (ended : Option StartUp) : jobView (reportStartUp halted ended s) = jobView s := by
  unfold reportStartUp
  split <;> rfl

@[simp] theorem view_closeImages (handle : Nat) : jobView (closeImages handle s) = jobView s := by
  unfold closeImages
  dsimp only
  have dropped : jobView (if s.smc.filling.any (·.handle = handle) then { s with smc := { s.smc with filling := none } } else s)
      = jobView s := by split <;> rfl
  generalize (if s.smc.filling.any (·.handle = handle) then { s with smc := { s.smc with filling := none } } else s) = t at *
  rw [← dropped]
  split
  · split
    · split
      · rfl
      · rfl
      · exact view_reviewTimer _
    · rfl
  · rfl

end Quiet

/-! ### Slots freed (R6) -/

section Freed

variable {s : State} {handle : Nat}

/-- The job table with a slot freed. -/
def withoutJob (handle : Nat) (jt : JobTable) : JobTable :=
  { jt with slots := jt.slots.set (slotOf handle) ⟨((jt.slots.get (slotOf handle)).generation + 1) % 256, none⟩ }

theorem withoutJob_self (handle : Nat) (jt : JobTable) : (withoutJob handle jt).slots.get (slotOf handle)
    = ⟨((jt.slots.get (slotOf handle)).generation + 1) % 256, none⟩ := get_set_self _ _ _

theorem withoutJob_ne (jt : JobTable) {k : Fin 64} (other : k ≠ slotOf handle) : (withoutJob handle jt).slots.get k = jt.slots.get k :=
  get_set_ne _ _ other

theorem jobSum_withoutJob (f : Job → Nat) (handle : Nat) (jt : JobTable) : jobSum f (withoutJob handle jt) ≤ jobSum f jt := by
  have moved := jobSum_slot f (a := jt) (b := withoutJob handle jt) (slotOf handle) fun _ => withoutJob_ne jt
  rw [withoutJob_self] at moved
  simp only [Option.map_none, Option.getD_none] at moved
  omega

/-- A job in SCRUB stands in no queue, so its slot goes without a trace in them. -/
theorem queueOk_withoutJob {jt : JobTable} {j : Job} (found : jobOf jt handle = some j) {outcome : JobOutcome}
    (scrub : j.state = .scrub outcome) {d : Destination} (ok : QueueOk jt d) : QueueOk (withoutJob handle jt) d := by
  obtain ⟨-, -, at_⟩ := jobOf_slot found
  have gone (g : Nat) (st : JobState) (plain : st = .queued ∨ st = .active) :
      (∃ k, jobOf jt g = some k ∧ k.state = st ∧ destinationOf k.kind = d)
        ↔ ∃ k, jobOf (withoutJob handle jt) g = some k ∧ k.state = st ∧ destinationOf k.kind = d := by
    by_cases same : slotOf g = slotOf handle
    · refine iff_of_false ?_ ?_
      · rintro ⟨k, is, state, -⟩
        obtain ⟨-, -, is⟩ := jobOf_slot is
        rw [same, at_] at is
        obtain rfl := Option.some.inj is
        rw [scrub] at state
        rcases plain with rfl | rfl <;> cases state
      · rintro ⟨k, is, -⟩
        obtain ⟨-, -, is⟩ := jobOf_slot is
        rw [same, withoutJob_self] at is
        cases is
    · have kept : jobOf (withoutJob handle jt) g = jobOf jt g := by
        unfold jobOf
        rw [withoutJob_ne _ same]
      rw [kept]
  obtain ⟨nodup, waiting, active⟩ := ok
  have same : queueOf (withoutJob handle jt) d = queueOf jt d := by cases d <;> rfl
  rw [QueueOk, same]
  exact ⟨nodup, fun g => (waiting g).trans (gone g _ (.inl rfl)), fun g => (active g).trans (gone g _ (.inr rfl))⟩

theorem jobs_withoutJob {j : Job} (found : jobOf s.jt handle = some j) {outcome : JobOutcome} (scrub : j.state = .scrub outcome) :
    KeepsJobs s { s with jt := withoutJob handle s.jt } := by
  intro ok
  have dead : isLive j = false := by rw [isLive, scrub]
  have key := key_of_dead ok (ok.found found) dead
  rw [ok.own found] at key
  obtain ⟨slots, engine, exporter, pages, extents, held⟩ := ok
  have pagesFall : pagesUsed (withoutJob handle s.jt) ≤ pagesUsed s.jt := jobSum_withoutJob (·.pages.length) handle s.jt
  have extentsFall : extentsUsed (withoutJob handle s.jt) ≤ extentsUsed s.jt := jobSum_withoutJob (·.extents.length) handle s.jt
  refine ⟨fun i => ?_, queueOk_withoutJob found scrub engine, queueOk_withoutJob found scrub exporter,
    Nat.le_trans pagesFall pages, Nat.le_trans extentsFall extents, fun h is first => Nat.lt_of_le_of_lt pagesFall (held h is first)⟩
  unfold SlotOk
  by_cases same : i = slotOf handle
  · subst same
    dsimp only
    rw [withoutJob_self, key]
    refine ⟨Nat.mod_lt _ (by decide), ?_, by simp, ?_⟩
    · intro _ is
      cases is
    · intro _ _ is
      cases is
  · dsimp only
    rw [withoutJob_ne _ same]
    exact slots i

theorem jobs_freeSlot (handle : Nat) (s : State) : KeepsJobs s (freeSlot handle s) := by
  unfold freeSlot
  split
  · next j found =>
    split
    · next outcome scrub => exact (jobs_withoutJob found scrub).trans (KeepsJobs.quiet rfl)
    · exact KeepsJobs.same s
  · exact KeepsJobs.same s

theorem jobs_reportScrubbed (handle : Nat) (s : State) : KeepsJobs s (reportScrubbed handle s) := by
  unfold reportScrubbed
  split
  · exact jobs_freeSlot handle s
  · exact KeepsJobs.same s

theorem jobs_leaveScrub (block : Nat) (s : State) : KeepsJobs s (leaveScrub block s) := by
  unfold leaveScrub
  split
  · exact KeepsJobs.same s
  · next e _ =>
    refine KeepsJobs.trans (t := { s with se := { s.se with list := s.se.list.filter (·.block != block) } }) (KeepsJobs.quiet rfl) ?_
    split
    · exact jobs_reportScrubbed _ _
    · exact KeepsJobs.same _
    · exact KeepsJobs.same _

theorem jobs_retireScrubbed (cause : RetireCause) (block : Nat) (s : State) : KeepsJobs s (retireScrubbed cause block s) :=
  KeepsJobs.trans (t := countRetired (retireBlock cause block s)) (KeepsJobs.quiet rfl) (jobs_leaveScrub block _)

end Freed

end Sys2Proof.Machine

/-! PROOFS. O9: stalls, queues and returns keep the invariant of the job table. -/

namespace Sys2Proof.Machine

/-! ### Places left -/

theorem queueSet_active {j : Job} (active : j.state = .active) (s : State) :
    QueueSet (destinationOf j.kind) (leftQueue j (queueOf s.jt (destinationOf j.kind))) s (leaveActive j s) := by
  have set := queueSet_leavePlace j s
  simpa only [leavePlace, active] using set

theorem queueSet_idle {j : Job} (queued : j.state ≠ .queued) (active : j.state ≠ .active) (s : State) :
    QueueSet (destinationOf j.kind) (leftQueue j (queueOf s.jt (destinationOf j.kind))) s s := by
  rw [leftQueue_idle queued active]
  exact QueueSet.same s _

theorem activeJob_found {s : State} (ok : JobsOk s) {d : Destination} {j : Job} (active : activeJob s d = some j) :
    jobOf s.jt j.handle = some j ∧ j.state = .active ∧ destinationOf j.kind = d := by
  obtain ⟨handle, is, found⟩ := Option.bind_eq_some_iff.mp active
  obtain ⟨k, also, state, kind⟩ := ((QueueOk.of ok d).2.2 handle).mp is
  rw [found] at also
  obtain rfl := Option.some.inj also
  exact ⟨ok.found found, state, kind⟩

theorem isLive_of {j : Job} (other : ∀ outcome, j.state ≠ .scrub outcome) : isLive j = true := by
  unfold isLive
  split
  · next outcome is => exact absurd is (other outcome)
  · rfl

theorem live_of_active {j : Job} (active : j.state = .active) : isLive j = true := isLive_of (by simp [active])

/-! ### Stalls -/

section Stalls

variable {s u : State} {j r : Job} (ok : JobsOk s) (found : jobOf s.jt j.handle = some j)
include ok found

theorem jobs_stallJob (own : r.handle = j.handle) (kind : r.kind = j.kind) (live : isLive j = true) (pages : r.pages.length ≤ j.pages.length)
    (extents : r.extents.length ≤ j.extents.length) (cause : StallCause)
    (set : QueueSet (destinationOf j.kind) (leftQueue j (queueOf s.jt (destinationOf j.kind))) s u) : JobsOk (stallJob cause r u) := by
  have counted := set.quiet (t := { u with jt := { u.jt with stallSeq := u.jt.stallSeq + 1 } }) rfl
  exact ok.rests (r := { r with state := .stalled cause (nowMs u) u.jt.stallSeq }) found own kind counted live.symm (by simp) (by simp) pages extents

end Stalls

theorem jobs_stallActive (cause : StallCause) (handle next : Nat) (s : State) : KeepsJobs s (stallActive cause handle next s) := by
  intro ok
  unfold stallActive
  split
  · next j found =>
    split
    · next active =>
      exact jobs_stallJob (r := { j with nextSheet := next }) ok (ok.found found) rfl rfl (live_of_active active) (Nat.le_refl _)
        (Nat.le_refl _) cause (queueSet_active active s)
    · exact ok
  · exact ok

/-! ### Jobs without a place join their queue -/

/-- A live job that no queue holds. -/
structure Placeless (j : Job) : Prop where
  live : isLive j = true
  queued : j.state ≠ .queued
  active : j.state ≠ .active

theorem placeless_stalled {j : Job} {cause : StallCause} {time order : Nat} (state : j.state = .stalled cause time order) : Placeless j :=
  ⟨isLive_of (by simp [state]), by simp [state], by simp [state]⟩

theorem placeless_held {j : Job} {deadline : Nat} (state : j.state = .held deadline) : Placeless j :=
  ⟨isLive_of (by simp [state]), by simp [state], by simp [state]⟩

theorem placeless_intake {j : Job} (state : j.state = .intake) : Placeless j :=
  ⟨isLive_of (by simp [state]), by simp [state], by simp [state]⟩

section Joins

variable {s : State} {j r : Job} (ok : JobsOk s) (found : jobOf s.jt j.handle = some j) (own : r.handle = j.handle) (kind : r.kind = j.kind)
  (pages : r.pages.length ≤ j.pages.length) (extents : r.extents.length ≤ j.extents.length)
include ok found own kind pages extents

theorem jobs_queueTail (placeless : Placeless j) : JobsOk (queueTail r s) := by
  have idle := leftQueue_idle placeless.queued placeless.active (queueOf s.jt (destinationOf j.kind))
  refine ok.queued (r := { r with state := .queued }) found own kind placeless.live rfl
    (q := { queueOf s.jt (destinationOf r.kind) with waiting := (queueOf s.jt (destinationOf r.kind)).waiting ++ [r.handle] })
    (kind ▸ (QueueSet.same s (destinationOf r.kind)).put _) (fun after left => .inl ?_) pages extents
  rw [← left, idle, kind, own]

/-- A job joins the head of its queue, where it has left its place. -/
theorem jobs_queueHead {u : State} (live : isLive j = true)
    (set : QueueSet (destinationOf j.kind) (leftQueue j (queueOf s.jt (destinationOf j.kind))) s u) : JobsOk (queueHead r u) := by
  refine ok.queued (r := { r with state := .queued }) found own kind live rfl
    (q := { queueOf u.jt (destinationOf r.kind) with waiting := r.handle :: (queueOf u.jt (destinationOf r.kind)).waiting })
    (kind ▸ (show QueueSet (destinationOf r.kind) _ s u from kind ▸ set).put _) (fun after left => .inr ?_) pages extents
  rw [← left, kind, own, set.mine]

end Joins

theorem queueHead_jobs (j : Job) (s : State) : jobOf (queueHead j s).jt = jobOf (putJob (queuedJob j) s.jt) := by
  have slots : (queueHead j s).jt.slots = (putJob (queuedJob j) s.jt).slots := by
    unfold queueHead
    dsimp only
    cases destinationOf j.kind <;> rfl
  exact funext (jobOf_congr slots)

/-- The jobs of a list stand under their handles, and none has a place in a queue. -/
def Waiting (s : State) (jobs : List Job) : Prop := ∀ j ∈ jobs, jobOf s.jt j.handle = some j ∧ Placeless j

theorem Waiting.rest {s t : State} {j : Job} {rest : List Job} (waiting : Waiting s (j :: rest)) (fresh : j ∉ rest)
    (jobs : jobOf t.jt = jobOf (putJob (queuedJob j) s.jt)) : Waiting t rest := fun k mem => by
  obtain ⟨found, -⟩ := waiting j (List.mem_cons_self ..)
  obtain ⟨also, placeless⟩ := waiting k (List.mem_cons_of_mem _ mem)
  refine ⟨?_, placeless⟩
  have apart : k.handle ≠ (queuedJob j).handle := fun same => fresh <| by
    rw [show (queuedJob j).handle = j.handle from rfl] at same
    rw [same, found] at also
    exact Option.some.inj also ▸ mem
  rw [jobs, jobOf_putJob_other (r := queuedJob j) found apart]
  exact also

theorem jobs_queueTails {jobs : List Job} {s : State} (ok : JobsOk s) (nodup : jobs.Nodup) (waiting : Waiting s jobs) :
    JobsOk (jobs.foldl (fun s j => queueTail j s) s) := by
  induction jobs generalizing s with
  | nil => exact ok
  | cons j rest ih =>
    obtain ⟨found, placeless⟩ := waiting j (List.mem_cons_self ..)
    obtain ⟨fresh, nodup⟩ := List.nodup_cons.mp nodup
    exact ih (jobs_queueTail ok found rfl rfl (Nat.le_refl _) (Nat.le_refl _) placeless) nodup
      (waiting.rest fresh (queueTail_jobs j s).1)

theorem jobs_queueHeads {jobs : List Job} {s : State} (ok : JobsOk s) (nodup : jobs.Nodup) (waiting : Waiting s jobs) :
    JobsOk (jobs.foldl (fun s j => queueHead j s) s) := by
  induction jobs generalizing s with
  | nil => exact ok
  | cons j rest ih =>
    obtain ⟨found, placeless⟩ := waiting j (List.mem_cons_self ..)
    obtain ⟨fresh, nodup⟩ := List.nodup_cons.mp nodup
    exact ih (jobs_queueHead ok found rfl rfl (Nat.le_refl _) (Nat.le_refl _) placeless.live (queueSet_idle placeless.queued placeless.active s))
      nodup (waiting.rest fresh (queueHead_jobs j s))

/-! ### Jobs that a report returns (R11) -/

/-- A condition that only stalled jobs meet. -/
def OnlyStalled (p : Job → Bool) : Prop := ∀ j, p j = true → ∃ cause time order, j.state = .stalled cause time order

theorem onlyStalled_stalledWith (cause : StallCause) : OnlyStalled (stalledWith cause) := fun _ is =>
  ⟨cause, stalledWith_iff.mp is⟩

theorem OnlyStalled.and {p : Job → Bool} (stalled : OnlyStalled p) (q : Job → Bool) : OnlyStalled fun j => q j && p j := fun j is =>
  stalled j (Bool.and_eq_true _ _ ▸ is).2

theorem jobs_requeue {p : Job → Bool} (stalled : OnlyStalled p) (s : State) : KeepsJobs s (requeue p s) := by
  intro ok
  have perm := perm_sorted insertByStall perm_insertByStall ((allJobs s.jt).filter p)
  refine jobs_queueTails ok (perm.nodup_iff.mpr ((allJobs_nodup ok.1).filter _)) fun j mem => ?_
  rw [perm.mem_iff, List.mem_filter] at mem
  obtain ⟨cause, time, order, state⟩ := stalled j mem.2
  exact ⟨(named_of_ok ok.1).of_mem mem.1, placeless_stalled state⟩

theorem jobs_creditRose (owner : Nat) (s : State) : KeepsJobs s (creditRose owner s) :=
  jobs_requeue ((onlyStalled_stalledWith .credit).and fun j => j.owner == owner) s

theorem jobs_barrierGone (owner : Nat) (s : State) : KeepsJobs s (barrierGone owner s) :=
  jobs_requeue ((onlyStalled_stalledWith .account).and fun j => j.owner == owner) s

theorem jobs_supplyCame (s : State) : KeepsJobs s (supplyCame s) := jobs_requeue (onlyStalled_stalledWith .supply) s

/-! ### Jobs that return after a jam (R13) -/

theorem jobs_returnJammed (s : State) : KeepsJobs s (returnJammed s) := by
  intro ok
  have nodup : (jammedJobs s.jt).reverse.Nodup := List.nodup_reverse.mpr (jammedJobs_nodup ok.1)
  have stalled (j : Job) (mem : j ∈ (jammedJobs s.jt).reverse) : jobOf s.jt j.handle = some j ∧ ∃ rank time order,
      j.state = .stalled (.jam rank) time order := by
    obtain ⟨stands, rank, time, order, state, -⟩ := mem_jammedJobs.mp (List.mem_reverse.mp mem)
    exact ⟨(named_of_ok ok.1).of_mem stands, rank, time, order, state⟩
  unfold returnJammed
  dsimp only
  split
  · exact ok
  · rw [← List.foldl_reverse]
    split
    · next a active =>
      obtain ⟨found, state, kind⟩ := activeJob_found ok active
      have first : JobsOk (queueHead a (leaveActive a s)) :=
        jobs_queueHead ok found rfl rfl (Nat.le_refl _) (Nat.le_refl _) (live_of_active state) (queueSet_active state s)
      refine jobs_queueHeads first nodup fun j mem => ?_
      obtain ⟨stands, rank, time, order, jammed⟩ := stalled j mem
      refine ⟨?_, placeless_stalled jammed⟩
      have apart : j.handle ≠ (queuedJob a).handle := fun same => by
        rw [show (queuedJob a).handle = a.handle from rfl] at same
        rw [same, found] at stands
        rw [← Option.some.inj stands, state] at jammed
        cases jammed
      have slots : (leaveActive a s).jt.slots = s.jt.slots := (queueSet_active state s).slots
      rw [queueHead_jobs, jobOf_congr (putJob_slots (queuedJob a) slots), jobOf_putJob_other (r := queuedJob a) found apart]
      exact stands
    · refine jobs_queueHeads ok nodup fun j mem => ?_
      obtain ⟨stands, rank, time, order, jammed⟩ := stalled j mem
      exact ⟨stands, placeless_stalled jammed⟩

/-! ### The head of a queue becomes ACTIVE (R7) -/

theorem placed_head {jt : JobTable} {d : Destination} (ok : QueueOk jt d) {h : Nat} {rest : List Nat} (idle : (queueOf jt d).active = none)
    (waits : (queueOf jt d).waiting = h :: rest) : Placed h .active (queueOf jt d) { waiting := rest, active := some h } := by
  obtain ⟨nodup, -, -⟩ := ok
  rw [waits] at nodup
  obtain ⟨fresh, nodup⟩ := List.nodup_cons.mp nodup
  refine ⟨nodup, fun g => ?_, fun g => ?_⟩
  · rw [waits]
    split
    · next same => simp [same, fresh]
    · next other => simp [other]
  · split
    · next same => simp [same]
    · next other => simpa [idle] using Ne.symm other

theorem jobs_activate {d : Destination} {s t : State} (ok : JobsOk s) (due : activate d s = some t) : JobsOk t := by
  unfold activate at due
  dsimp only at due
  split at due
  · next h rest idle waits =>
    split at due
    · next j found =>
      obtain rfl := Option.some.inj due
      obtain ⟨k, also, state, kind⟩ := ((QueueOk.of ok d).2.1 h).mp (by rw [waits]; exact List.mem_cons_self ..)
      rw [found] at also
      obtain rfl := Option.some.inj also
      have own := ok.own found
      have live : isLive j = true := isLive_of (by simp [state])
      subst kind
      have set := (QueueSet.same s (destinationOf j.kind)).put { waiting := rest, active := some h }
      refine (QueueSet.move (r := { j with state := .active }) set).keeps ok (ok.found found) rfl rfl live.symm ?_ (Nat.le_refl _) (Nat.le_refl _)
      rw [own]
      exact placed_head (QueueOk.of ok _) idle waits
    · cases due
  · cases due

end Sys2Proof.Machine

/-! PROOFS. O9: closes, halts and jams keep the invariant of the job table. -/

namespace Sys2Proof.Machine

/-! ### The held band goes -/

/-- The state with no band held at the link. -/
def noneHeld (s : State) : State := { s with jt := { s.jt with held := none } }

theorem jobs_noneHeld (s : State) : KeepsJobs s (noneHeld s) := by
  intro ok
  obtain ⟨slots, engine, exporter, pages, extents, -⟩ := ok
  exact ⟨slots, engine, exporter, pages, extents, fun h is => by cases is⟩

theorem jobs_discardHeld (handle : Nat) (s : State) : KeepsJobs s (discardHeld handle s) :=
  KeepsJobs.branch ((jobs_noneHeld s).trans (KeepsJobs.quiet (view_reviewTimer _))) (KeepsJobs.same s)

theorem view_noteClosed (handle : Nat) (s : State) : jobView (noteClosed handle s) = jobView s := rfl

/-- A close from the job's report on. -/
theorem jobs_closeReported (handle : Nat) (wasDraining : Bool) (s : State) :
    KeepsJobs s (noteClosed handle (discardHeld handle (jobClosed handle wasDraining s))) :=
  ((KeepsJobs.quiet (view_of_aside (aside_jobClosed handle wasDraining s))).trans (jobs_discardHeld handle _)).trans
    (KeepsJobs.quiet (view_noteClosed handle _))

/-! ### The close of a job (R5) -/

section Closes

variable {outcome : JobOutcome} {handle : Nat} {s : State} {j : Job}

theorem closedLeft_queue (d : Destination) : queueOf (closedLeft handle j s).jt d
    = if d = destinationOf j.kind then leftQueue j (queueOf s.jt d) else queueOf s.jt d := by
  have set := queueSet_leavePlace j (handToScrub j (closeImages handle (zeroize (slotOf handle) s)))
  have queue (e : Destination) : queueOf (handToScrub j (closeImages handle (zeroize (slotOf handle) s))).jt e = queueOf s.jt e := by
    have view := view_closeImages (zeroize (slotOf handle) s) handle
    cases e
    · exact congrArg JobView.engine view
    · exact congrArg JobView.exporter view
  split
  · next same =>
    subst same
    rw [← queue]
    exact set.mine
  · next other =>
    rw [← queue]
    exact set.other d other

theorem closedUp_queue (d : Destination) : queueOf (closedUp outcome handle j s).jt d = queueOf (closedLeft handle j s).jt d := by
  cases d <;> rfl

theorem jobs_closedUp (ok : JobsOk s) (found : jobOf s.jt handle = some j) : JobsOk (closedUp outcome handle j s) := by
  have own := ok.own found
  have view := closeView_closedUp (outcome := outcome) (handle := handle) (j := j) (s := s)
  refine ok.moved (r := closedRecord outcome j) (ok.found found) rfl rfl (slots_of_view view) (fun i => ?_) (fun live => by cases live) ?_
    (fun d other => ?_) (Nat.zero_le _) (Nat.zero_le _) (.inr closedUp_held)
  · rw [bc_of_view view, own]
    by_cases same : i = slotOf handle
    · rw [if_pos ⟨same, rfl⟩, same]
      exact get_set_self _ _ _
    · rw [if_neg fun both => same both.1]
      exact get_set_ne _ _ same
  · rw [closedUp_queue, closedLeft_queue, if_pos rfl]
    exact Placed.left (QueueOk.of ok _) (ok.found found) rfl (by simp [closedRecord]) (by simp [closedRecord])
  · rw [closedUp_queue, closedLeft_queue, if_neg other]

theorem closeCore_unlive (dead : ∀ j, jobOf s.jt handle = some j → isLive j = false) : closeCore outcome handle s = s := by
  unfold closeCore
  split
  · next j found => exact if_neg (by simp [dead j found])
  · rfl

theorem jobs_closeCore (outcome : JobOutcome) (handle : Nat) (s : State) : KeepsJobs s (closeCore outcome handle s) := by
  intro ok
  by_cases live : ∃ j, jobOf s.jt handle = some j ∧ isLive j = true
  · obtain ⟨j, found, live⟩ := live
    rw [closeCore_eq found live]
    exact jobs_closeReported handle (isDraining j) _ (jobs_closedUp ok found)
  · rw [closeCore_unlive fun j found => Bool.eq_false_iff.mpr fun yes => live ⟨j, found, yes⟩]
    exact ok

end Closes

/-! ### The halt of the part (R164 to R166) -/

/-- The job table while a halt closes the jobs of handles: no other job is live. -/
structure Closing (handles : List Nat) (jt : JobTable) : Prop where
  named : Named jt
  pages : pagesUsed jt ≤ 8192
  extents : extentsUsed jt ≤ 4096
  live : ∀ g j, jobOf jt g = some j → isLive j = true → g ∈ handles

section Closing

variable {handle : Nat} {handles rest : List Nat} {a b : JobTable} {s : State} {j r : Job}

theorem Closing.congr (slots : b.slots = a.slots) (closing : Closing handles a) : Closing handles b := by
  obtain ⟨named, pages, extents, live⟩ := closing
  refine ⟨named.congr slots, ?_, ?_, fun g j found => live g j (by rw [← jobOf_congr slots]; exact found)⟩
  · rw [pagesUsed, allJobs, slots]
    exact pages
  · rw [extentsUsed, allJobs, slots]
    exact extents

/-- A job's record goes, and takes no more of the pools. -/
theorem Closing.put (closing : Closing handles a) (found : jobOf a r.handle = some j) (pages : r.pages.length ≤ j.pages.length)
    (extents : r.extents.length ≤ j.extents.length)
    (live : ∀ g k, jobOf a g = some k → isLive k = true → g ≠ r.handle → g ∈ rest)
    (dead : isLive r = true → r.handle ∈ rest) : Closing rest (putJob r a) := by
  obtain ⟨named, pagesFit, extentsFit, -⟩ := closing
  have usedPages : pagesUsed (putJob r a) + j.pages.length = pagesUsed a + r.pages.length := jobSum_put (·.pages.length) found
  have usedExtents : extentsUsed (putJob r a) + j.extents.length = extentsUsed a + r.extents.length := jobSum_put (·.extents.length) found
  refine ⟨named.putJob found, by omega, by omega, fun g k is lives => ?_⟩
  by_cases same : g = r.handle
  · subst same
    rw [jobOf_putJob (j := j) found rfl] at is
    obtain rfl := Option.some.inj is
    exact dead lives
  · rw [jobOf_putJob_other found same] at is
    exact live g k is lives same

theorem closing_closeByHalt (closing : Closing (handle :: rest) s.jt) : Closing rest (closeByHalt s handle).jt := by
  obtain ⟨named, -, -, live⟩ := id closing
  have others (g : Nat) (k : Job) (found : jobOf s.jt g = some k) (lives : isLive k = true) (other : g ≠ handle) : g ∈ rest :=
    (List.mem_cons.mp (live g k found lives)).resolve_left other
  unfold closeByHalt changeJob
  cases found : jobOf s.jt handle with
  | none =>
    dsimp only
    rw [closeCore_unlive fun j is => by rw [found] at is; cases is]
    refine ⟨named, closing.pages, closing.extents, fun g k is lives => others g k is lives fun same => ?_⟩
    rw [same, found] at is
    cases is
  | some j =>
    dsimp only
    have own := named.own found
    have here : jobOf s.jt j.handle = some j := own.symm ▸ found
    have noFlight : Closing (handle :: rest) (putJob { j with inFlight := 0 } s.jt) :=
      closing.put (r := { j with inFlight := 0 }) (j := j) here (Nat.le_refl _) (Nat.le_refl _) (fun g k is lives _ => live g k is lives)
        fun _ => own ▸ List.mem_cons_self ..
    have mine : jobOf (putJob { j with inFlight := 0 } s.jt) handle = some { j with inFlight := 0 } := jobOf_putJob found own
    generalize change : ({ j with inFlight := 0 } : Job) = k at *
    have kept : k.handle = handle := by rw [← change]; exact own
    have set : (setJob k s).jt = putJob k s.jt := rfl
    generalize setJob k s = t at *
    rw [← set] at noFlight mine
    have rest' (g : Nat) (l : Job) (is : jobOf t.jt g = some l) (lives : isLive l = true) (other : g ≠ k.handle) : g ∈ rest :=
      (List.mem_cons.mp (noFlight.live g l is lives)).resolve_left (kept ▸ other)
    cases lives : isLive k with
    | true =>
      refine (noFlight.put (r := closedRecord (.aborted .halt) k) (rest := rest) (j := k) (kept.symm ▸ mine) (Nat.zero_le _)
        (Nat.zero_le _) rest' fun live => by cases live).congr ?_
      exact slots_of_view (closeView_closeCore mine lives)
    | false =>
      rw [closeCore_unlive fun l is => by rw [mine] at is; rw [← Option.some.inj is]; exact lives]
      refine ⟨noFlight.named, noFlight.pages, noFlight.extents, fun g l is livesToo => rest' g l is livesToo fun same => ?_⟩
      rw [same, kept, mine] at is
      rw [← Option.some.inj is, lives] at livesToo
      cases livesToo

theorem closing_closeByHalts (closing : Closing handles s.jt) : Closing [] (handles.foldl closeByHalt s).jt := by
  induction handles generalizing s with
  | nil => exact closing
  | cons h rest ih => exact ih (closing_closeByHalt closing)

theorem tellFinal_jt (jobs : List Job) (s : State) : (tellFinal jobs s).jt = s.jt := by
  unfold tellFinal
  induction jobs generalizing s with
  | nil => rfl
  | cons j rest ih => exact ih (askJobState j s)

theorem closing_haltedJobs (ok : JobsOk s) : Closing [] (haltedJobs s).jt := by
  obtain ⟨slots, -, -, pages, extents, -⟩ := id ok
  have start : Closing (((allJobs s.jt).filter isLive).map (·.handle)) s.jt := by
    refine ⟨named_of_ok slots, pages, extents, fun g j found live => List.mem_map.mpr ⟨j, ?_, ok.own found⟩⟩
    exact List.mem_filter.mpr ⟨mem_allJobs.mpr ⟨_, (jobOf_slot found).2.2⟩, live⟩
  unfold haltedJobs
  rw [tellFinal_jt]
  exact closing_closeByHalts (by exact start)

/-- The job table a halt leaves. -/
def haltedTable (jt : JobTable) : JobTable :=
  { noneInFlight jt with engine := {}, exporter := {}, exportPhase := .idle, held := none, stallTimer := none }

theorem haltedTable_slot (jt : JobTable) (i : Fin 64) : (haltedTable jt).slots.get i
    = { jt.slots.get i with job := (jt.slots.get i).job.map fun j => { j with inFlight := 0 } } := by
  simp [haltedTable, noneInFlight, Vector.get_eq_getElem]

theorem jobSum_haltedTable {f : Job → Nat} (same : ∀ j : Job, f { j with inFlight := 0 } = f j) (jt : JobTable) :
    jobSum f (haltedTable jt) = jobSum f jt := by
  rw [jobSum_eq, jobSum_eq]
  refine Finset.sum_congr rfl fun i _ => ?_
  rw [haltedTable_slot]
  cases (jt.slots.get i).job with
  | none => rfl
  | some j => exact same j

theorem jobsOk_haltedTable {jt : JobTable} (closing : Closing [] jt) {t : State} (table : t.jt = haltedTable jt)
    (keys : t.bc.keys = Vector.replicate 64 none) : JobsOk t := by
  obtain ⟨named, pages, extents, live⟩ := closing
  have dead (i : Fin 64) (j : Job) (at_ : ((haltedTable jt).slots.get i).job = some j) : isLive j = false := by
    rw [haltedTable_slot] at at_
    obtain ⟨k, is, rfl⟩ := Option.map_eq_some_iff.mp at_
    exact Bool.eq_false_iff.mpr fun lives => by cases live _ k (named.slot is).2 lives
  have noKey (i : Fin 64) : t.bc.keys.get i = none := by
    rw [keys, Vector.get_eq_getElem]
    exact Vector.getElem_replicate _
  have queue (d : Destination) : QueueOk (haltedTable jt) d := by
    have empty : queueOf (haltedTable jt) d = {} := by cases d <;> rfl
    have none_ (g : Nat) (st : JobState) (lives : ∀ o, st ≠ .scrub o) :
        ¬ ∃ j, jobOf (haltedTable jt) g = some j ∧ j.state = st ∧ destinationOf j.kind = d := by
      rintro ⟨j, found, rfl, -⟩
      have := dead _ j (jobOf_slot found).2.2
      rw [isLive_of lives] at this
      cases this
    rw [QueueOk, empty]
    exact ⟨List.nodup_nil, fun g => iff_of_false (by simp) (none_ g _ (by simp)), fun g => iff_of_false (by simp) (none_ g _ (by simp))⟩
  have pagesSame : pagesUsed (haltedTable jt) = pagesUsed jt := jobSum_haltedTable (f := (·.pages.length)) (fun _ => rfl) jt
  have extentsSame : extentsUsed (haltedTable jt) = extentsUsed jt := jobSum_haltedTable (f := (·.extents.length)) (fun _ => rfl) jt
  unfold JobsOk
  rw [table, pagesSame, extentsSame]
  refine ⟨fun i => ?_, queue _, queue _, pages, extents, fun h is => by cases is⟩
  unfold SlotOk
  rw [table, noKey]
  refine ⟨?_, fun j at_ => ?_, ?_, ?_⟩
  · rw [haltedTable_slot]
    exact (named i).1
  · rw [haltedTable_slot] at at_ ⊢
    obtain ⟨k, is, rfl⟩ := Option.map_eq_some_iff.mp at_
    exact (named i).2 k is
  · refine iff_of_false (by simp) ?_
    rintro ⟨j, at_, lives⟩
    rw [dead i j at_] at lives
    cases lives
  · intro _ _ _ locked
    cases locked

end Closing

/-! What a halt leaves of the key slots. -/

theorem keys_closeByHalt {s : State} (keys : s.bc.keys = Vector.replicate 64 none) (handle : Nat) :
    (closeByHalt s handle).bc.keys = Vector.replicate 64 none := by
  have kept : (changeJob handle (fun j => { j with inFlight := 0 }) s).bc.keys = Vector.replicate 64 none := by
    unfold changeJob
    split <;> exact keys
  unfold closeByHalt
  generalize changeJob handle _ s = t at kept ⊢
  by_cases live : ∃ j, jobOf t.jt handle = some j ∧ isLive j = true
  · obtain ⟨j, found, live⟩ := live
    rw [bc_of_view (closeView_closeCore found live)]
    change t.bc.keys.set (slotOf handle) none = _
    rw [kept]
    ext i below
    simp
  · rw [closeCore_unlive fun j found => Bool.eq_false_iff.mpr fun yes => live ⟨j, found, yes⟩]
    exact kept

theorem keys_haltedJobs (s : State) : (haltedJobs s).bc.keys = Vector.replicate 64 none := by
  unfold haltedJobs
  have told (jobs : List Job) (u : State) : (tellFinal jobs u).bc = u.bc := by
    unfold tellFinal
    induction jobs generalizing u with
    | nil => rfl
    | cons j rest ih => exact ih (askJobState j u)
  have closed (handles : List Nat) {u : State} (keys : u.bc.keys = Vector.replicate 64 none) :
      (handles.foldl closeByHalt u).bc.keys = Vector.replicate 64 none := by
    induction handles generalizing u with
    | nil => exact keys
    | cons h rest ih => exact ih (keys_closeByHalt keys h)
  rw [told]
  exact closed _ rfl

theorem view_stopped (s : State) : jobView (stopSpool (clearBus (releaseAll s))) = jobView s := by
  unfold releaseAll
  obtain ⟨ps, released, -⟩ := releaseSheets_spec s.spm.sheets { s with spm := { s.spm with sheets := [] } }
  rw [released]
  rfl

theorem view_haltedStopped (s : State) : jobView (haltedStopped s) = jobView { s with jt := haltedTable s.jt } :=
  view_stopped { s with jt := haltedTable s.jt }

theorem jobs_haltPart (cause : HaltCause) (s : State) : KeepsJobs s (haltPart cause s) := by
  intro ok
  by_cases halted : s.fm.part = .halted
  · rw [haltPart, if_pos halted]
    exact ok
  · rw [haltPart_eq cause halted]
    have ended : jobView (reportStartUp true s.startUp (endSanitize true (haltedStopped (haltedJobs s))))
        = jobView { haltedJobs s with jt := haltedTable (haltedJobs s).jt } :=
      ((view_reportStartUp _ _ _).trans (view_endSanitize _ _)).trans (view_haltedStopped _)
    refine KeepsJobs.quiet (s := { haltedJobs s with jt := haltedTable (haltedJobs s).jt }) ?_
      (jobsOk_haltedTable (closing_haltedJobs ok) rfl (keys_haltedJobs s))
    rw [← ended]
    rfl

/-! ### Closes, aborts and jams -/

theorem jobs_closeJob (outcome : JobOutcome) (handle : Nat) (s : State) : KeepsJobs s (closeJob outcome handle s) := by
  unfold closeJob
  split
  · split
    · dsimp only
      split
      · exact (jobs_closeCore outcome handle s).trans (jobs_haltPart _ _)
      · exact (jobs_closeCore outcome handle s).trans (jobs_reportScrubbed _ _)
    · exact KeepsJobs.same s
  · exact KeepsJobs.same s

theorem jobs_abortJob (code : JobFaultCode) (reason : AbortReason) (handle page block : Nat) (s : State) :
    KeepsJobs s (abortJob code reason handle page block s) :=
  (jobs_raiseJobFault _ s).trans (jobs_closeJob _ _ _)

/-- The job's record once its sheets are taken out of the path. -/
def rewound (index : Nat) (j : Job) : Job := { j with inFlight := 0, nextSheet := index }

theorem minor_rewound (index : Nat) : Minor (rewound index) :=
  ⟨fun _ => rfl, fun _ => rfl, fun _ => rfl, fun _ => Nat.le_refl _, fun _ => Nat.le_refl _⟩

theorem jobs_jamJob (acc : Nat × State) (listed : Nat × Nat) : KeepsJobs acc.2 (jamJob acc listed).2 := by
  obtain ⟨rank, s⟩ := acc
  obtain ⟨handle, index⟩ := listed
  intro ok
  unfold jamJob
  dsimp only at ok ⊢
  split
  · exact ok
  · next j found =>
    have here := ok.found found
    have rewinds := jobs_setMinor (minor_rewound index) ok here
    split
    · exact jobs_setMinor minor_inFlight ok here
    · exact jobs_closeJob _ _ _ rewinds
    · exact rewinds
    · next other _ _ =>
      exact jobs_stallJob (r := rewound index j) ok here rfl rfl (isLive_of other) (Nat.le_refl _) (Nat.le_refl _) _
        (queueSet_leavePlace j s)

theorem jobs_jamJobs (listed : List (Nat × Nat)) (acc : Nat × State) : KeepsJobs acc.2 (listed.foldl jamJob acc).2 := by
  induction listed generalizing acc with
  | nil => exact KeepsJobs.same _
  | cons l rest ih => exact (jobs_jamJob acc l).trans (ih _)

theorem KeepsJobs.foldl {α : Type} {op : State → α → State} (keeps : ∀ x s, KeepsJobs s (op s x)) (l : List α) (s : State) :
    KeepsJobs s (l.foldl op s) := by
  induction l generalizing s with
  | nil => exact KeepsJobs.same s
  | cons x rest ih => exact (keeps x s).trans (ih _)

theorem jobs_declareJam (cause : JamCause) (s : State) : KeepsJobs s (declareJam cause s) := by
  rw [declareJam_eq]
  have emptied : KeepsJobs s (emptiedPath cause s) := by
    obtain ⟨ps, same⟩ := emptiedPath_eq cause s
    rw [same]
    exact KeepsJobs.quiet rfl
  have reported : KeepsJobs s (reportedPath cause s) :=
    emptied.trans (KeepsJobs.foldl (op := fun s owner => creditRose owner s) jobs_creditRose _ _)
  exact (reported.trans (jobs_jamJobs _ (1, reportedPath cause s))).trans (KeepsJobs.quiet rfl)

end Sys2Proof.Machine

/-! PROOFS. O9: intake keeps the invariant of the job table. -/

namespace Sys2Proof.Machine

/-! ### Views -/

section Views

variable {s t : State}

theorem slots_view (view : jobView t = jobView s) : t.jt.slots = s.jt.slots := congrArg JobView.slots view

theorem jobOf_view (view : jobView t = jobView s) (handle : Nat) : jobOf t.jt handle = jobOf s.jt handle :=
  jobOf_congr (slots_view view) handle

theorem pagesUsed_view (view : jobView t = jobView s) : pagesUsed t.jt = pagesUsed s.jt := by
  rw [pagesUsed, allJobs, slots_view view]
  rfl

theorem extentsUsed_view (view : jobView t = jobView s) : extentsUsed t.jt = extentsUsed s.jt := by
  rw [extentsUsed, allJobs, slots_view view]
  rfl

theorem view_setJob (view : jobView t = jobView s) (r : Job) : jobView (setJob r t) = jobView (setJob r s) := by
  have slots : (setJob r t).jt.slots = (setJob r s).jt.slots := putJob_slots r (slots_view view)
  simp only [jobView, JobView.mk.injEq] at view ⊢
  exact ⟨slots, view.2⟩

theorem view_handOn (same : handOn s = some t) : jobView t = jobView s := by
  unfold handOn at same
  split at same
  · split at same
    · obtain rfl := Option.some.inj same
      rfl
    · cases same
  · cases same

theorem view_ceaseFilling (s : State) : jobView (ceaseFilling s) = jobView s := by
  unfold ceaseFilling
  dsimp only
  cases on : handOn { s with smc := { s.smc with filling := s.smc.filling.map fun f => { f with handedOn := true } } } with
  | none => rfl
  | some t =>
    rw [Option.getD_some, view_handOn on]
    rfl

theorem view_yieldFilling (handle : Nat) (s : State) : jobView (yieldFilling handle s) = jobView s := by
  unfold yieldFilling
  split
  · split
    · exact view_ceaseFilling s
    · rfl
  · rfl

theorem view_takeFree {block : Nat} (taken : takeFree s = some (block, t)) : jobView t = jobView s := by
  unfold takeFree at taken
  split at taken
  · cases taken
  · simp only [Option.some.injEq, Prod.mk.injEq] at taken
    obtain ⟨-, rfl⟩ := taken
    rfl

end Views

/-! ### A record that takes more of the pools -/

section Grown

variable {s t : State} {j r : Job}

theorem jobs_grown (ok : JobsOk s) (found : jobOf s.jt j.handle = some j) (own : r.handle = j.handle) (kind : r.kind = j.kind)
    (state : r.state = j.state)
    (pages : r.pages.length ≤ j.pages.length ∨ s.jt.held = none ∧ pagesUsed s.jt + r.pages.length ≤ 8192 + j.pages.length)
    (extents : extentsUsed s.jt + r.extents.length ≤ 4096 + j.extents.length) : JobsOk (setJob r s) := by
  obtain ⟨-, -, -, usedPages, -, heldPages⟩ := id ok
  have live : isLive r = isLive j := by rw [isLive, isLive, state]
  refine ok.replaced found own kind rfl (fun i => ?_) (fun lives => live ▸ lives) ?_ (fun d _ => by cases d <;> rfl) (by omega) extents
    fun h is first => ?_
  · split
    · next both =>
      rw [both.1]
      exact key_of_dead (s := s) ok found (live ▸ both.2)
    · rfl
  · have queue : queueOf (setJob r s).jt (destinationOf j.kind) = queueOf s.jt (destinationOf j.kind) := by
      cases destinationOf j.kind <;> rfl
    rw [queue, state]
    exact Placed.stays (QueueOk.of ok _) found rfl
  · have held : s.jt.held = some h := is
    have := heldPages h held first
    rcases pages with fewer | ⟨none, -⟩
    · omega
    · rw [held] at none
      cases none

end Grown

/-! ### Operations that leave every job in its state -/

/-- The operation keeps the invariant, and every job in its state. -/
def Mild (s t : State) : Prop := JobsOk s → JobsOk t ∧ ∀ g j, jobOf t.jt g = some j → ∃ k, jobOf s.jt g = some k ∧ k.state = j.state

section Mild

variable {s t u : State}

theorem Mild.trans (first : Mild s t) (second : Mild t u) : Mild s u := fun ok => by
  obtain ⟨ok, before⟩ := first ok
  obtain ⟨ok, after⟩ := second ok
  refine ⟨ok, fun g j found => ?_⟩
  obtain ⟨k, also, state⟩ := after g j found
  obtain ⟨l, first, was⟩ := before g k also
  exact ⟨l, first, was.trans state⟩

theorem Mild.quiet (view : jobView t = jobView s) : Mild s t := fun ok =>
  ⟨KeepsJobs.quiet view ok, fun g j found => ⟨j, (jobOf_view view g).symm.trans found, rfl⟩⟩

theorem Mild.same (s : State) : Mild s s := Mild.quiet rfl

theorem Mild.branch {c : Prop} [Decidable c] (yes : Mild s t) (no : Mild s u) : Mild s (if c then t else u) := by split <;> assumption

theorem mild_put {j r : Job} (found : jobOf s.jt j.handle = some j) (own : r.handle = j.handle) (state : r.state = j.state)
    (keeps : KeepsJobs s (setJob r s)) : Mild s (setJob r s) := fun ok => by
  refine ⟨keeps ok, fun g k is => ?_⟩
  by_cases same : g = r.handle
  · subst same
    have mine : jobOf (setJob r s).jt r.handle = some r := jobOf_putJob (own ▸ found) rfl
    rw [mine] at is
    obtain rfl := Option.some.inj is
    exact ⟨j, own ▸ found, state.symm⟩
  · have rest : jobOf (setJob r s).jt g = jobOf s.jt g := jobOf_putJob_other (own ▸ found) same
    exact ⟨k, rest ▸ is, rfl⟩

theorem mild_changeJob {f : Job → Job} (minor : Minor f) (handle : Nat) (s : State) : Mild s (changeJob handle f s) := by
  intro ok
  unfold changeJob
  split
  · next j found =>
    exact mild_put (ok.found found) (minor.handle j) (minor.state j) (fun ok => jobs_setMinor minor ok (ok.found found)) ok
  · exact Mild.same s ok

end Mild

theorem minor_charged (taken : Nat) : Minor fun j => { j with charged := satAdd j.charged taken Config.counterMax } :=
  ⟨fun _ => rfl, fun _ => rfl, fun _ => rfl, fun _ => Nat.le_refl _, fun _ => Nat.le_refl _⟩

theorem minor_lastPage (f : PageEntry → PageEntry) : Minor (changeLastPage f) := by
  have parts (j : Job) : (changeLastPage f j).handle = j.handle ∧ (changeLastPage f j).kind = j.kind
      ∧ (changeLastPage f j).state = j.state ∧ (changeLastPage f j).pages.length ≤ j.pages.length
      ∧ (changeLastPage f j).extents.length ≤ j.extents.length := by
    unfold changeLastPage
    split
    · next p last =>
      refine ⟨rfl, rfl, rfl, ?_, Nat.le_refl _⟩
      have : j.pages ≠ [] := fun none => by simp [none] at last
      have := List.length_pos_of_ne_nil this
      simp only [List.length_append, List.length_dropLast, List.length_singleton]
      omega
    · exact ⟨rfl, rfl, rfl, Nat.le_refl _, Nat.le_refl _⟩
  exact ⟨fun j => (parts j).1, fun j => (parts j).2.1, fun j => (parts j).2.2.1, fun j => (parts j).2.2.2.1, fun j => (parts j).2.2.2.2⟩

theorem Minor.comp {f g : Job → Job} (first : Minor f) (second : Minor g) : Minor fun j => g (f j) :=
  ⟨fun j => (second.handle _).trans (first.handle j), fun j => (second.kind _).trans (first.kind j),
    fun j => (second.state _).trans (first.state j), fun j => (second.pages _).trans (first.pages j),
    fun j => (second.extents _).trans (first.extents j)⟩

theorem mild_set {f : Job → Job} (minor : Minor f) {j : Job} {s : State} (found : jobOf s.jt j.handle = some j) : Mild s (setJob (f j) s) :=
  mild_put found (minor.handle j) (minor.state j) fun ok => jobs_setMinor minor ok found

/-! ### A band is laid down (R24, R116) -/

section Stored

variable {b : Band} {j r : Job} {s t : State} {key : LiveKey}

theorem growExtents_length (block : Nat) (extents : List Extent) : (growExtents block extents).length ≤ extents.length + 1 := by
  unfold growExtents
  split
  · next e last =>
    have : extents ≠ [] := fun none => by simp [none] at last
    have := List.length_pos_of_ne_nil this
    split
    · simp only [List.length_append, List.length_dropLast, List.length_singleton]
      omega
    · simp
  · simp

/-- The job's record once a band of it is stored. -/
structure Stored (b : Band) (j r : Job) (s : State) : Prop where
  handle : r.handle = j.handle
  kind : r.kind = j.kind
  state : r.state = j.state
  pages : r.pages.length ≤ j.pages.length + if b.index = 1 then 1 else 0
  extents : r.extents.length ≤ j.extents.length ∨ r.extents.length ≤ j.extents.length + 1 ∧ extentsUsed s.jt < 4096

theorem stored_openPage (block offset : Nat) {extents : List Extent}
    (room : extents.length ≤ j.extents.length ∨ extents.length ≤ j.extents.length + 1 ∧ extentsUsed s.jt < 4096) :
    Stored b j (openPage b block offset { j with extents := extents }) s := by
  unfold openPage
  split
  · next first => exact ⟨rfl, rfl, rfl, by simp [first], room⟩
  · next other => exact ⟨rfl, rfl, rfl, by simp [other], room⟩

theorem stored_room {block : Nat} {rest : List Nat} (free : s.smc.free = block :: rest) (room : roomForBlock s j = true) :
    (growExtents block j.extents).length ≤ j.extents.length
      ∨ (growExtents block j.extents).length ≤ j.extents.length + 1 ∧ extentsUsed s.jt < 4096 := by
  obtain ⟨fresh, others, same, fits⟩ := roomForBlock_iff.mp room
  rw [free] at same
  obtain ⟨rfl, -⟩ := List.cons.inj same
  exact fits.imp Nat.le_of_eq fun few => ⟨growExtents_length _ _, few⟩

/-- What a band's storage leaves of the jobs. -/
def Stores (b : Band) (j : Job) (s t : State) : Prop :=
  jobView t = jobView s ∨ ∃ r, Stored b j r s ∧ jobView t = jobView (setJob r s)

theorem stores_layInCurrent (stored : List Byte) (f : FillingImage) : Stores b j s (layInCurrent b stored f j s) := by
  have laid : jobView (laidIn b stored f j s) = jobView (setJob (openPage b f.block f.filled j) s) := rfl
  refine .inr ⟨_, stored_openPage f.block f.filled (extents := j.extents) (.inl (Nat.le_refl _)), ?_⟩
  rw [layInCurrent_eq]
  split
  · exact (view_ceaseFilling _).trans laid
  · exact laid

theorem stores_layInNew (stored : List Byte) (current : Option FillingImage) (room : roomForBlock s j = true) :
    Stores b j s (layInNew b stored current j s) := by
  obtain ⟨fresh, rest, free, -⟩ := roomForBlock_iff.mp room
  have fits := stored_room free room
  cases current with
  | none =>
    refine .inr ⟨_, stored_openPage fresh 0 fits, ?_⟩
    simp only [layInNew, takeFree, free]
    rfl
  | some f =>
    refine .inr ⟨_, stored_openPage f.block f.filled fits, ?_⟩
    rw [layInNew_current_eq free]
    have ceased : jobView (ceaseFilling (blockFilled b stored f fresh rest s)) = jobView s := view_ceaseFilling _
    generalize ceaseFilling (blockFilled b stored f fresh rest s) = t at ceased
    exact view_setJob (t := { t with smc := { t.smc with filling := _ } }) ceased _

theorem stores_storeBand (b : Band) (key : LiveKey) (j : Job) (s : State) : Stores b j s (storeBand b key j s).state := by
  have yields := view_yieldFilling b.handle s
  have back {u : State} (stores : Stores b j (yieldFilling b.handle s) u) : Stores b j s u := by
    rcases stores with same | ⟨r, stored, view⟩
    · exact .inl (same.trans yields)
    · refine .inr ⟨r, ⟨stored.handle, stored.kind, stored.state, stored.pages, ?_⟩, view.trans (view_setJob yields r)⟩
      rw [← extentsUsed_view yields]
      exact stored.extents
  refine back ?_
  unfold storeBand
  dsimp only
  generalize yieldFilling b.handle s = t
  split
  · split
    · exact stores_layInCurrent _ _
    split
    · exact .inl rfl
    next room =>
    split
    · exact .inl rfl
    · exact stores_layInNew _ _ (by simpa using room)
  · split
    · exact .inl rfl
    next room =>
    split
    · exact .inl rfl
    · exact stores_layInNew _ none (by simpa using room)

theorem held_storeBand {reason : HoldReason} (held : storeBand b key j s = .held reason t) : jobView t = jobView s := by
  rw [← view_yieldFilling b.handle s]
  unfold storeBand at held
  dsimp only at held
  generalize yieldFilling b.handle s = u at *
  have same {x y : HoldReason} (is : StoreResult.held x u = .held y t) : jobView t = jobView u := by
    obtain ⟨-, rfl⟩ := StoreResult.held.inj is
    rfl
  split at held
  · split at held
    · cases held
    split at held
    · exact same held
    split at held
    · exact same held
    · cases held
  · split at held
    · exact same held
    split at held
    · exact same held
    · cases held

theorem mild_stored (found : jobOf s.jt j.handle = some j) (free : s.jt.held = none) (first : b.index = 1 → pagesUsed s.jt < 8192)
    (stored : storeBand b key j s = .stored t) : Mild s t := by
  have stores := stores_storeBand b key j s
  rw [stored] at stores
  rcases stores with same | ⟨r, stored, view⟩
  · exact Mild.quiet same
  · refine Mild.trans (mild_put found stored.handle stored.state fun ok => ?_) (Mild.quiet view)
    obtain ⟨-, -, -, pages, extents, -⟩ := id ok
    have grown := stored.pages
    refine jobs_grown ok found stored.handle stored.kind stored.state (.inr ⟨free, ?_⟩) ?_
    · split at grown
      · next one =>
        have := first one
        omega
      · omega
    · rcases stored.extents with same | ⟨one, room⟩ <;> omega

end Stored

/-! ### Pages and intake end (R23, R26) -/

section Finish

variable {b : Band} {j : Job} {s : State} {handle : Nat}

theorem mild_takeScanCharge (j : Job) (page : Nat) (s : State) : Mild s (takeScanCharge j page s) := by
  unfold takeScanCharge
  split
  · exact Mild.same s
  · exact ((Mild.quiet (view_updateAccount _ _ _)).trans (mild_changeJob (minor_charged _) _ _)).trans
      (Mild.branch (Mild.quiet (view_raiseNote _ _)) (Mild.same _))

theorem mild_pageClose (b : Band) (r : Job) (s : State) : Mild s (pageClose b r s) := by
  have charged : Mild s (pageCharged r b.page s) := Mild.branch (Mild.same s) (mild_takeScanCharge r b.page s)
  unfold pageClose
  generalize pageCharged r b.page s = t at charged ⊢
  have told : Mild t (emit (.pageStored b.handle b.page) t) := Mild.quiet rfl
  exact (charged.trans told).trans (mild_changeJob (minor_expected (some (b.page + 1, 1))) _ _)

theorem mild_closePage (b : Band) {f : Job → Job} (minor : Minor f) (found : jobOf s.jt j.handle = some j) :
    Mild s (closePage b (f j) s) := by
  rw [closePage_rest]
  exact (mild_set (minor.comp (minor_lastPage _)) found).trans (mild_pageClose b _ _)

/-- The job of a handle, where there is one, is in INTAKE. -/
def TakingIn (handle : Nat) (s : State) : Prop := ∀ j, jobOf s.jt handle = some j → j.state = .intake

theorem Mild.intake {t : State} (mild : Mild s t) (ok : JobsOk s) (intake : TakingIn handle s) : TakingIn handle t := fun j found => by
  obtain ⟨k, was, state⟩ := (mild ok).2 handle j found
  exact state ▸ intake k was

theorem mild_endingIntake (handle : Nat) (s : State) : Mild s (changeJob handle (fun j => { j with expected := none })
    (if (currentImage s handle).isSome then ceaseFilling s else s)) :=
  (Mild.branch (Mild.quiet (view_ceaseFilling s)) (Mild.same s)).trans (mild_changeJob (minor_expected none) _ _)

theorem jobs_endIntake (ok : JobsOk s) (intake : TakingIn handle s) : JobsOk (endIntake handle s) := by
  have mild := mild_endingIntake handle s
  have intake := mild.intake ok intake
  have ok := (mild ok).1
  unfold endIntake
  dsimp only
  generalize changeJob handle _ _ = t at intake ok ⊢
  split
  · exact ok
  · next j found =>
    have placeless := placeless_intake (intake j found)
    have here := ok.found found
    split
    · exact ok.rests (r := { j with state := .held _ }) here rfl rfl (queueSet_idle placeless.queued placeless.active t)
        placeless.live.symm (by simp) (by simp) (Nat.le_refl _) (Nat.le_refl _)
    split
    · exact jobs_closeJob _ _ _ ok
    · exact jobs_queueTail ok here rfl rfl (Nat.le_refl _) (Nat.le_refl _) placeless

theorem jobs_finishBand (ok : JobsOk s) (intake : TakingIn b.handle s) : JobsOk (finishBand b s) := by
  unfold finishBand
  split
  · exact ok
  · next j found =>
    have minor : Minor fun j => { changeLastPage (fun p => { p with bands := p.bands + 1, bytes := p.bytes + b.length }) j with
        expected := some (b.page, b.index + 1) } := (minor_lastPage _).comp (minor_expected _)
    have closes := mild_closePage b minor (ok.found found)
    split
    · split
      · exact jobs_endIntake (closes ok).1 (closes.intake ok intake)
      · exact (closes ok).1
    · exact jobs_setMinor minor ok (ok.found found)

theorem jobs_holdBand (reason : HoldReason) (ok : JobsOk s) (first : b.index = 1 → pagesUsed s.jt < 8192) : JobsOk (holdBand b reason s) := by
  obtain ⟨slots, engine, exporter, pages, extents, -⟩ := ok
  have held : JobsOk { s with jt := { s.jt with held := some { band := b, reason := reason } } } :=
    ⟨slots, engine, exporter, pages, extents, fun h is one => first (by
      obtain rfl := Option.some.inj is
      exact one)⟩
  unfold holdBand
  dsimp only
  split
  · exact KeepsJobs.quiet (s := { s with jt := { s.jt with held := some { band := b, reason := reason } } }) rfl held
  · exact KeepsJobs.quiet (view_reviewTimer _) held

end Finish

/-! ### The link takes bands (R21 to R25) -/

section Takes

variable {b : Band} {s t : State}

theorem jobs_takeBand (ok : JobsOk s) (free : s.jt.held = none) : JobsOk (takeBand b s) := by
  unfold takeBand
  split
  · exact KeepsJobs.quiet (view_raiseNote s _) ok
  · next j found =>
    split
    · exact KeepsJobs.quiet (view_raiseNote s _) ok
    next intake =>
    split
    · exact jobs_abortJob _ _ _ _ _ s ok
    split
    · exact jobs_abortJob _ _ _ _ _ s ok
    next room =>
    have first (one : b.index = 1) : pagesUsed s.jt < 8192 := by simpa [one, Config.pagePool] using room
    split
    · exact KeepsJobs.quiet (view_raiseNote s _) ok
    · next key _ =>
      have here := ok.found found
      have own := ok.own found
      split
      · next t stored =>
        have mild := mild_stored here free first stored
        refine jobs_finishBand (mild ok).1 (mild.intake ok fun k is => ?_)
        rw [found] at is
        rw [← Option.some.inj is]
        simpa using intake
      · next reason t held =>
        have view := held_storeBand held
        exact jobs_holdBand reason (KeepsJobs.quiet view ok) (by rw [pagesUsed_view view]; exact first)

theorem jobs_takeWaiting (ok : JobsOk s) (due : takeWaiting s = some t) : JobsOk t := by
  unfold takeWaiting at due
  split at due
  · next b rest _ =>
    split at due
    · next opens =>
      obtain rfl := Option.some.inj due
      obtain ⟨-, -, free, -⟩ := linkOpen_iff.mp opens
      exact jobs_takeBand (KeepsJobs.quiet (s := s) rfl ok) free
    · cases due
  · cases due

theorem jobs_retryHeld (ok : JobsOk s) (due : retryHeld s = some t) : JobsOk t := by
  unfold retryHeld at due
  split at due
  · cases due
  · next h held =>
    have first : h.band.index = 1 → pagesUsed s.jt < 8192 := ok.2.2.2.2.2 h held
    have free := jobs_noneHeld s ok
    split at due
    · next j key found _ =>
      have here : jobOf (noneHeld s).jt j.handle = some j := ok.found found
      split at due
      · cases due
      next intake =>
      split at due
      · next u stored =>
        obtain rfl := Option.some.inj due
        have mild := (mild_stored (s := noneHeld s) here rfl first stored).trans (Mild.quiet (view_reviewTimer u))
        refine jobs_finishBand (mild free).1 (mild.intake free fun k is => ?_)
        have is : jobOf s.jt h.band.handle = some k := is
        rw [found] at is
        rw [← Option.some.inj is]
        simpa using intake
      · next reason u stays =>
        split at due
        · cases due
        · obtain rfl := Option.some.inj due
          have view : jobView u = jobView (noneHeld s) := held_storeBand stays
          exact jobs_holdBand reason (KeepsJobs.quiet view free) (by rw [pagesUsed_view view]; exact first)
    · cases due

/-! ### An image moves (R118) -/

theorem jobs_moveImage (ok : JobsOk s) (due : moveImage s = some t) : JobsOk t := by
  unfold moveImage at due
  split at due
  · cases due
  · next p _ =>
    split at due
    · split at due
      · next j fresh u found taken =>
        dsimp only at due
        split at due
        · next fits =>
          obtain rfl := Option.some.inj due
          have here := ok.found found
          have view := view_takeFree taken
          have grown := jobs_grown (r := { j with
              extents := cutExtents p.block fresh j.extents
              pages := j.pages.map (relocate j.extents (cutExtents p.block fresh j.extents)) })
            ok here rfl rfl rfl (.inl (Nat.le_of_eq (List.length_map _))) fits
          refine KeepsJobs.quiet ?_ grown
          refine (view_reviewTimer _).trans ?_
          exact view_setJob (t := { u with smc := { renameBandMap p.block fresh u.smc with programming := _ } }) view _
        · cases due
      · cases due
    · cases due

end Takes

end Sys2Proof.Machine

/-! PROOFS. O9: what the part starts by itself keeps the invariant of the job table. -/

namespace Sys2Proof.Machine

section Actions

variable {s t : State}

/-! ### Reads -/

theorem jobs_beginRead (r : Reader) (handle page index : Nat) (s : State) : KeepsJobs s (beginRead r handle page index s).2 := by
  unfold beginRead
  split
  · exact jobs_flagPage _ _ s
  · exact KeepsJobs.quiet rfl

theorem jobs_endMarkedRead (due : endMarkedRead s = some t) : KeepsJobs s t := by
  unfold endMarkedRead at due
  split at due
  · cases due
  · next q block _ =>
    have flagged : KeepsJobs s (flagPage q.handle q.page { s with smc := { s.smc with ops := s.smc.ops.erase (.read q) } }) :=
      KeepsJobs.trans (t := { s with smc := { s.smc with ops := s.smc.ops.erase (.read q) } }) (KeepsJobs.quiet rfl) (jobs_flagPage _ _ _)
    dsimp only at due
    generalize flagPage _ _ _ = u at due flagged
    split at due
    · obtain rfl := Option.some.inj due
      exact flagged.trans (KeepsJobs.quiet rfl)
    · obtain rfl := Option.some.inj due
      exact flagged.trans (jobs_stallActive _ _ _ u)

/-! ### The ENGINE -/

theorem jobs_drain (ok : JobsOk s) (due : drain s = some t) : JobsOk t := by
  unfold drain at due
  split at due
  · cases due
  · next j active =>
    split at due
    · cases due
    split at due
    · obtain rfl := Option.some.inj due
      obtain ⟨found, state, -⟩ := activeJob_found ok active
      exact ok.rests (r := { j with state := .draining .ends }) found rfl rfl (queueSet_active state s) (live_of_active state).symm
        (by simp) (by simp) (Nat.le_refl _) (Nat.le_refl _)
    · obtain rfl := Option.some.inj due
      exact jobs_closeJob _ _ s ok

theorem jobs_failStaging (due : failStaging s = some t) : KeepsJobs s t := by
  unfold failStaging at due
  split at due
  · split at due
    · obtain rfl := Option.some.inj due
      exact jobs_stallActive _ _ _ s
    · cases due
  · cases due

theorem jobs_startStaging (due : startStaging s = some t) : KeepsJobs s t := by
  unfold startStaging at due
  split at due
  · cases due
  split at due
  · cases due
  dsimp only at due
  split at due
  · cases due
  split at due
  · cases due
  · next j _ _ _ _ _ _ _ page _ =>
    obtain rfl := Option.some.inj due
    exact (jobs_beginRead .staging j.handle page 1 s).trans (KeepsJobs.quiet rfl)

theorem minor_granted (next : Nat) : Minor fun j => { j with nextSheet := next, inFlight := j.inFlight + 1 } :=
  ⟨fun _ => rfl, fun _ => rfl, fun _ => rfl, fun _ => Nat.le_refl _, fun _ => Nat.le_refl _⟩

theorem jobs_grant (j : Job) (e : StagingEntry) (f : Figures) (s : State) : KeepsJobs s (grant j e f s) := by
  unfold grant
  dsimp only
  have reserved := view_updateAccount s j.owner (reserve f.cost)
  generalize updateAccount j.owner (reserve f.cost) s = u at reserved ⊢
  exact KeepsJobs.trans (KeepsJobs.quiet (by exact reserved)) (jobs_changeJob (minor_granted _) _ _)

theorem jobs_attempt {j : Job} {e : StagingEntry} {f : Figures} (due : attempt j e f s = some t) : KeepsJobs s t := by
  unfold attempt at due
  dsimp only at due
  split at due
  · cases due
  split at due
  · obtain rfl := Option.some.inj due
    exact jobs_stallActive _ _ _ s
  split at due <;> obtain rfl := Option.some.inj due
  · exact jobs_grant j e f s
  · exact jobs_stallActive _ _ _ s
  · exact jobs_stallActive _ _ _ s
  · exact jobs_stallActive _ _ _ s

theorem jobs_grantAttempt (due : grantAttempt s = some t) : KeepsJobs s t := by
  unfold grantAttempt at due
  split at due
  · split at due
    · split at due
      · exact jobs_attempt due
      · cases due
    · cases due
  · cases due

/-! ### The EXPORT channel -/

theorem jobs_startExport (due : startExport s = some t) : KeepsJobs s t := by
  unfold startExport at due
  split at due
  · next j _ _ =>
    split at due
    · obtain rfl := Option.some.inj due
      exact jobs_closeJob _ _ s
    · next page _ =>
      have read := jobs_beginRead .exporter j.handle page 1 s
      dsimp only at due
      generalize beginRead .exporter j.handle page 1 s = result at due read
      split at due <;> obtain rfl := Option.some.inj due
      · exact read.trans (jobs_stallActive _ _ _ _)
      · exact read.trans (KeepsJobs.quiet rfl)
  · cases due

/-! ### Scrub, bus and port -/

theorem view_takeScrub (due : takeScrub s = some t) : jobView t = jobView s := by
  unfold takeScrub at due
  split at due
  · split at due
    · obtain rfl := Option.some.inj due
      rfl
    · cases due
  · cases due

theorem view_finishSanitize (due : finishSanitize s = some t) : jobView t = jobView s := by
  unfold finishSanitize at due
  split at due
  · obtain rfl := Option.some.inj due
    exact view_endSanitize s false
  · cases due

theorem view_noiseUsed (s : State) (h : Health) : jobView (noiseUsed s h) = jobView s := by
  unfold noiseUsed
  cases s.noise <;> rfl

theorem view_draw16 (s : State) : jobView (draw16 s).2 = jobView s := by
  rw [draw16_eq]
  exact view_noiseUsed s _

theorem view_draw32 (s : State) : jobView (draw32 s).2 = jobView s := by
  rw [draw32_eq]
  exact view_noiseUsed s _

theorem jobs_startItem (item : WorkItem) (s : State) : KeepsJobs s (startItem item s) := by
  unfold startItem
  split
  · exact KeepsJobs.quiet rfl
  · exact KeepsJobs.quiet rfl
  · dsimp only
    split
    · split
      · have drew : KeepsJobs s (draw16 s).2 := KeepsJobs.quiet (view_draw16 s)
        split
        · next draw =>
          rw [draw] at drew
          exact drew.trans (jobs_haltPart _ _)
        · next draw =>
          rw [draw] at drew
          exact drew.trans (KeepsJobs.quiet rfl)
      · exact KeepsJobs.same s
    · exact KeepsJobs.same s

theorem jobs_startBus (due : startBus s = some t) : KeepsJobs s t := by
  unfold startBus at due
  split at due
  · next item rest _ _ =>
    split at due
    · cases due
    · obtain rfl := Option.some.inj due
      exact KeepsJobs.trans (t := { s with cbc := { s.cbc with work := rest } }) (KeepsJobs.quiet rfl) (jobs_startItem item _)
  · cases due

theorem view_startPort (due : startPort s = some t) : jobView t = jobView s := by
  unfold startPort at due
  split at due
  · cases due
  split at due
  · cases due
  split at due
  · cases due
  · obtain rfl := Option.some.inj due
    rfl

end Actions

/-! ### The whole -/

theorem jobs_nextAction {s t : State} (ok : JobsOk s) (due : nextAction s = some t) : JobsOk t := by
  cases part : s.fm.part with
  | halted => simp [nextAction, part] at due
  | starting =>
    simp only [nextAction, part] at due
    exact jobs_startBus due ok
  | running =>
    rw [nextAction_running part] at due
    obtain ⟨action, mem, is⟩ := List.exists_of_findSome?_eq_some due
    simp only [List.mem_cons, List.not_mem_nil, or_false] at mem
    rcases mem with rfl | rfl | rfl | rfl | rfl | rfl | rfl | rfl | rfl | rfl | rfl | rfl | rfl | rfl | rfl | rfl
    · exact jobs_endMarkedRead is ok
    · exact jobs_moveImage ok is
    · exact KeepsJobs.quiet (view_handOn is) ok
    · exact jobs_retryHeld ok is
    · exact jobs_takeWaiting ok is
    · exact jobs_activate ok is
    · exact jobs_drain ok is
    · exact jobs_activate ok is
    · exact jobs_startExport is ok
    · exact jobs_failStaging is ok
    · exact jobs_startStaging is ok
    · exact jobs_grantAttempt is ok
    · exact KeepsJobs.quiet (view_takeScrub is) ok
    · exact KeepsJobs.quiet (view_finishSanitize is) ok
    · exact jobs_startBus is ok
    · exact KeepsJobs.quiet (view_startPort is) ok

theorem jobs_settle (s : State) : KeepsJobs s (settle s) := by
  intro ok
  obtain ⟨k, run, start, steps, ended, -⟩ := settleN_run (settleFuel s) s
  have upTo (i : Nat) (within : i ≤ k) : JobsOk (run i) := by
    induction i with
    | zero => rwa [start]
    | succ i ih => exact jobs_nextAction (ih (Nat.le_of_succ_le within)) (steps i within)
  rw [settle, ended]
  exact upTo k (Nat.le_refl k)

end Sys2Proof.Machine

/-! PROOFS. O9: what cartridges, accounts, settings and the store leave of the job table's view. -/

namespace Sys2Proof.Machine

section Quiet

variable (s : State)

/-! ### The shared operations -/

@[simp] theorem view_emit (n : Notice) : jobView (emit n s) = jobView s := rfl
@[simp] theorem view_askPart : jobView (askPart s) = jobView s := rfl
@[simp] theorem view_evaluatePermit : jobView (evaluatePermit s) = jobView s := rfl
@[simp] theorem view_setAccounts (table : List Account) : jobView (setAccounts table s) = jobView s := rfl
@[simp] theorem view_setSettings (g : Settings) : jobView (setSettings g s) = jobView s := rfl
@[simp] theorem view_setKeys (k : KeysContent) : jobView (setKeys k s) = jobView s := rfl
@[simp] theorem view_setHistory (entries : List HistoryEntry) (lifetime : Nat) : jobView (setHistory entries lifetime s) = jobView s := rfl
@[simp] theorem view_clearHaltRecord : jobView (clearHaltRecord s) = jobView s := rfl
@[simp] theorem view_discardStaging : jobView (discardStaging s) = jobView s := rfl
@[simp] theorem view_putSlot (i : Fin 4) (c : CartSlot) : jobView (putSlot i c s) = jobView s := rfl
@[simp] theorem view_clearBus : jobView (clearBus s) = jobView s := rfl
@[simp] theorem view_endFlight : jobView (endFlight s) = jobView s := rfl
@[simp] theorem view_askCartState (i : Fin 4) : jobView (askCartState i s) = jobView s := rfl
@[simp] theorem view_endPortFlight : jobView (endPortFlight s) = jobView s := rfl

@[simp] theorem view_putChannel (ch : Channel) (c : SenseChannel) : jobView (putChannel ch c s) = jobView s := by
  cases ch <;> rfl

theorem view_foldl {α : Type} {op : State → α → State} (keeps : ∀ s x, jobView (op s x) = jobView s) (l : List α) (s : State) :
    jobView (l.foldl op s) = jobView s := by
  induction l generalizing s with
  | nil => rfl
  | cons x rest ih => exact (ih _).trans (keeps s x)

/-! ### Cartridges -/

@[simp] theorem view_queueItem (item : WorkItem) : jobView (queueItem item s) = jobView s := view_of_aside (aside_queueItem item s)

@[simp] theorem view_queueAll : jobView (queueAll s) = jobView s :=
  (view_foldl (op := fun s i => queueItem (.auth i) s) (fun s i => view_queueItem s (.auth i)) cartSlots _).trans (view_queueItem s _)

@[simp] theorem view_writeBackTest (i : Fin 4) (exhausted : Bool) : jobView (writeBackTest i exhausted s) = jobView s :=
  view_of_aside (aside_writeBackTest i exhausted s)

@[simp] theorem view_changeLevel (i : Fin 4) (mirror pending : Nat) : jobView (changeLevel i mirror pending s) = jobView s :=
  view_of_aside (aside_changeLevel i mirror pending s)

@[simp] theorem view_updateHistory (i : Fin 4) (suspect : Bool) : jobView (updateHistory i suspect s) = jobView s :=
  view_of_aside (aside_updateHistory i suspect s)

@[simp] theorem view_enterCartridges (sh : Sheet) : jobView (enterCartridges sh s) = jobView s :=
  view_of_aside (aside_enterCartridges sh s)

@[simp] theorem view_reauthTest (i : Fin 4) : jobView (reauthTest s i) = jobView s := by
  unfold reauthTest
  split
  · exact view_queueItem s _
  · rfl

@[simp] theorem view_setVerification (i : Fin 4) (v : Verification) : jobView (setVerification i v s) = jobView s := by
  unfold setVerification
  dsimp only
  split
  · rfl
  · split <;> rfl

@[simp] theorem view_dropFigures (i : Fin 4) : jobView (dropFigures i s) = jobView s := by
  unfold dropFigures
  split <;> rfl

@[simp] theorem view_ceaseVerified (i : Fin 4) : jobView (ceaseVerified i s) = jobView s := by
  unfold ceaseVerified
  split
  · exact view_updateHistory s i false
  · rfl

@[simp] theorem view_endUnverified (i : Fin 4) (v : Verification) : jobView (endUnverified i v s) = jobView s := by
  simp [endUnverified]

@[simp] theorem view_unverify (i : Fin 4) : jobView (unverify s i) = jobView s := by
  simp [unverify]

@[simp] theorem view_rejectRead (i : Fin 4) (reason : RejectReason) (record : List Byte) :
    jobView (rejectRead i reason record s) = jobView s := by
  simp [rejectRead, keepRead]

@[simp] theorem view_completeWriteBack (i : Fin 4) (amount level : Nat) : jobView (completeWriteBack i amount level s) = jobView s := by
  unfold completeWriteBack
  dsimp only
  split
  · simp
  · rfl

@[simp] theorem view_failTransaction (i : Fin 4) (item : WorkItem) : jobView (failTransaction i item s) = jobView s := by
  have counted : jobView (putSlot i { slotRecord s i with failures := (slotRecord s i).failures + 1 } (endFlight s)) = jobView s := rfl
  unfold failTransaction
  dsimp only
  generalize putSlot i _ _ = u at counted ⊢
  split
  · exact (view_queueItem u item).trans counted
  · have ended : jobView (endUnverified i .commFail u) = jobView s := (view_endUnverified u i .commFail).trans counted
    generalize endUnverified i .commFail u = v at ended ⊢
    exact ended

@[simp] theorem view_endEmpty (i : Fin 4) : jobView (endEmpty i s) = jobView s := by
  simp [endEmpty]

@[simp] theorem view_cartridgesDoorOpen : jobView (cartridgesDoorOpen s) = jobView s :=
  view_foldl (fun s i => view_unverify s i) cartSlots (clearBus s)

@[simp] theorem view_cartridgesWipe : jobView (cartridgesWipe s) = jobView s := by
  have wiped := view_foldl (op := fun s i => if holdsVerified (slotRecord s i) then unverify (dropFigures i (ceaseVerified i s)) i
    else putSlot i { slotRecord s i with failures := 0 } s) (fun s i => by split <;> simp) cartSlots (clearBus s)
  unfold cartridgesWipe
  dsimp only
  generalize cartSlots.foldl _ _ = t at wiped
  have set : jobView (setHistory [] 0 t) = jobView s := wiped
  split
  · exact set
  · exact (view_queueAll _).trans set

@[simp] theorem view_reclass (i : Fin 4) : jobView (reclass s i) = jobView s := by
  unfold reclass
  dsimp only
  split
  · split
    · split <;> rfl
    · rfl
  · rfl

@[simp] theorem view_handToCartridges (old new : MeterSettings) : jobView (handToCartridges old new s) = jobView s := by
  have whether (c : Prop) [Decidable c] {u v : State} (same : jobView v = jobView u) : jobView (if c then u else v) = jobView u := by
    split
    · rfl
    · exact same
  unfold handToCartridges
  dsimp only
  refine (whether _ (view_foldl (fun s i => view_reauthTest s i) _ _)).trans ?_
  refine (whether _ (view_foldl (fun s i => view_writeBackTest s i false) _ _)).trans ?_
  exact whether _ (view_foldl (fun s i => view_reclass s i) _ _)

@[simp] theorem view_rewatch (ch : Channel) : jobView (rewatch ch s) = jobView s := view_putChannel s ch _

theorem view_wipeContent (key : Key) : jobView (wipeContent key s) = jobView s := by
  have watched : jobView (rewatch .supply (rewatch .exit (rewatch .feed
      (setSettings {} (cartridgesWipe (setAccounts [] (setKeys { device := some key } s))))))) = jobView s := by simp
  unfold wipeContent
  dsimp only
  generalize rewatch .supply _ = u at watched ⊢
  exact watched

theorem view_beginSanitize (tag : Byte) (wipe : Bool) : jobView (beginSanitize tag wipe s) = jobView s := by
  unfold beginSanitize
  split <;> rfl

theorem view_findWeak (limit : Nat) (results : List (Nat × CodewordResult)) (block : Nat) :
    jobView (findWeak limit results s block) = jobView s := by
  unfold findWeak
  dsimp only
  split <;> rfl

end Quiet

/-! ### An AUTH whose tag matched (R93) -/

theorem jobs_completeAuth (i : Fin 4) (record : List Byte) (s : State) : KeepsJobs s (completeAuth i record s) := by
  unfold completeAuth
  dsimp only
  refine KeepsJobs.branch ?_ ?_
  · refine KeepsJobs.trans (KeepsJobs.quiet ?_) (jobs_supplyCame _)
    rw [view_writeBackTest, view_setVerification]
    split <;> simp
  · refine KeepsJobs.quiet ?_
    rw [view_writeBackTest, view_setVerification]
    split <;> simp

end Sys2Proof.Machine

/-! PROOFS. O9: the requests keep the invariant of the job table. -/

namespace Sys2Proof.Machine

/-- Whatever the owner of a request answers, the job table's invariant stands. -/
def JobsOwner (owner : State → Answer) : Prop := ∀ s, KeepsJobs s (owner s).state

theorem JobsOwner.quiet {owner : State → Answer} (view : ∀ s, jobView (owner s).state = jobView s) : JobsOwner owner := fun s =>
  KeepsJobs.quiet (view s)

theorem jobsOwner_refuse (c : Status) : JobsOwner (refuse c) := .quiet fun _ => rfl

section Combinators

variable {c : Prop} [Decidable c] {s t : State}

theorem KeepsJobs.refused {x : Status} {a : Answer} (keeps : KeepsJobs s a.state) : KeepsJobs s (if c then refuse x s else a).state := by
  split
  · exact KeepsJobs.same s
  · exact keeps

theorem KeepsJobs.settled (keeps : KeepsJobs s t) : KeepsJobs s (settle t) := keeps.trans (jobs_settle t)

theorem KeepsJobs.guarded (keeps : KeepsJobs s t) : KeepsJobs s (if c then t else s) := keeps.branch (KeepsJobs.same s)

/-- An operation that may follow. -/
theorem KeepsJobs.maybe {f : State → State} (after : ∀ u, KeepsJobs u (f u)) (keeps : KeepsJobs s t) :
    KeepsJobs s (if c then f t else t) := (keeps.trans (after t)).branch keeps

end Combinators

/-! ### Accounts -/

theorem jobsOwner_acctCreate (id overdraft colour : Nat) (pin : Option (List Byte)) : JobsOwner (acctCreate id overdraft colour pin) :=
  .quiet fun s => by
    unfold acctCreate
    split
    · rfl
    split
    · rfl
    split <;> rfl

theorem jobsOwner_acctDelete (id : Nat) : JobsOwner (acctDelete id) := .quiet fun s => by
  unfold acctDelete
  split
  · rfl
  split <;> rfl

theorem jobsOwner_acctCredit (id : Nat) (amount : Int) : JobsOwner (acctCredit id amount) := by
  intro s
  unfold acctCredit
  refine KeepsJobs.refused ?_
  split
  · exact KeepsJobs.same s
  split
  · exact KeepsJobs.guarded ((KeepsJobs.quiet (view_updateAccount s id _)).trans (jobs_creditRose id _)).settled
  split
  · exact KeepsJobs.same s
  split
  · exact KeepsJobs.quiet (view_updateAccount s id _)
  · exact KeepsJobs.same s

theorem jobsOwner_acctSet (id : Nat) (overdraft colour standing : Option Nat) (pin : Option PinAction) :
    JobsOwner (acctSet id overdraft colour standing pin) := by
  intro s
  unfold acctSet
  refine KeepsJobs.refused ?_
  split
  · exact KeepsJobs.same s
  · exact KeepsJobs.refused (KeepsJobs.refused (KeepsJobs.maybe jobs_settle (KeepsJobs.maybe (jobs_barrierGone id)
      (KeepsJobs.maybe (jobs_creditRose id) (KeepsJobs.quiet (view_updateAccount s id _))))))

theorem jobsOwner_acctRead (id : Nat) : JobsOwner (acctRead id) := .quiet fun s => by
  unfold acctRead
  split <;> rfl

theorem jobsOwner_acctUnlock (id : Nat) : JobsOwner (acctUnlock id) := .quiet fun s => by
  unfold acctUnlock
  split
  · rfl
  · exact view_updateAccount s id _

theorem jobsOwner_countersClear (id : Nat) : JobsOwner (countersClear id) := .quiet fun s => by
  unfold countersClear
  split
  · rfl
  split
  · rfl
  · exact view_updateAccount s id _

/-! ### JOB_OPEN (R2) -/

section Opens

variable {s : State} {i : Fin 64} {j : Job}

theorem slotOf_handleOf (jt : JobTable) (i : Fin 64) : slotOf (handleOf jt i) = i := by
  refine Fin.ext ?_
  simp only [slotOf, handleOf]
  omega

theorem jobOf_filled {jt : JobTable} (free : (jt.slots.get i).job = none) (small : (jt.slots.get i).generation < 256)
    (own : j.handle = handleOf jt i) (g : Nat) : jobOf (putJob j jt) g = if g = j.handle then some j else jobOf jt g := by
  have slot : slotOf j.handle = i := by rw [own, slotOf_handleOf]
  have at_ : (putJob j jt).slots.get i = { jt.slots.get i with job := some j } := by
    rw [← slot]
    exact get_set_self _ _ _
  have generation : j.handle / 64 = (jt.slots.get i).generation := by
    rw [own, handleOf]
    omega
  have low : j.handle < 16384 := by
    rw [own, handleOf]
    omega
  by_cases same : slotOf g = i
  · have gone : jobOf jt g = none := by rw [jobOf, same, free, ite_self]
    rw [gone]
    split
    · next mine =>
      subst mine
      rw [jobOf_eq low, slot, at_]
      rw [slot, at_]
      exact generation.symm
    · next other =>
      rw [jobOf, same, at_, if_neg]
      simp only [Bool.and_eq_true, beq_iff_eq, not_and]
      exact fun _ is => other (handle_unique (same.trans slot.symm) (is.symm.trans generation.symm))
  · have rest : (putJob j jt).slots.get (slotOf g) = jt.slots.get (slotOf g) := get_set_ne _ _ (by rwa [slot])
    rw [if_neg fun mine : g = j.handle => same (mine ▸ slot), jobOf, rest, jobOf]

theorem jobSum_filled {jt : JobTable} (f : Job → Nat) (free : (jt.slots.get i).job = none) (own : j.handle = handleOf jt i) :
    jobSum f (putJob j jt) = jobSum f jt + f j := by
  have slot : slotOf j.handle = i := by rw [own, slotOf_handleOf]
  have sum := jobSum_slot f (a := jt) (b := putJob j jt) i fun k other => get_set_ne _ _ (by rwa [slot])
  have at_ : (putJob j jt).slots.get i = { jt.slots.get i with job := some j } := by
    rw [← slot]
    exact get_set_self _ _ _
  rw [at_, free] at sum
  simpa using sum

theorem jobs_fillSlot (ok : JobsOk s) (free : (s.jt.slots.get i).job = none) (own : j.handle = handleOf s.jt i) (state : j.state = .intake)
    (pages : j.pages = []) (extents : j.extents = []) (key : Key) : JobsOk (fillSlot i j key s) := by
  obtain ⟨slots, engine, exporter, usedPages, usedExtents, held⟩ := ok
  have small : (s.jt.slots.get i).generation < 256 := (slots i).1
  have slot : slotOf j.handle = i := by rw [own, slotOf_handleOf]
  have samePages : pagesUsed (putJob j s.jt) = pagesUsed s.jt := by
    have sum := jobSum_filled (·.pages.length) free own
    rw [pages, List.length_nil, Nat.add_zero] at sum
    exact sum
  have sameExtents : extentsUsed (putJob j s.jt) = extentsUsed s.jt := by
    have sum := jobSum_filled (·.extents.length) free own
    rw [extents, List.length_nil, Nat.add_zero] at sum
    exact sum
  have queue (d : Destination) (ok : QueueOk s.jt d) : QueueOk (putJob j s.jt) d := by
    obtain ⟨nodup, waiting, active⟩ := ok
    have queues : queueOf (putJob j s.jt) d = queueOf s.jt d := by cases d <;> rfl
    have same (g : Nat) (st : JobState) (other : st ≠ .intake) :
        (∃ k, jobOf (putJob j s.jt) g = some k ∧ k.state = st ∧ destinationOf k.kind = d)
          ↔ ∃ k, jobOf s.jt g = some k ∧ k.state = st ∧ destinationOf k.kind = d := by
      rw [jobOf_filled free small own]
      split
      · next mine =>
        have gone : jobOf s.jt g = none := by rw [jobOf, mine, slot, free, ite_self]
        rw [gone]
        refine iff_of_false ?_ (by simp)
        rintro ⟨k, is, was, -⟩
        rw [← Option.some.inj is, state] at was
        exact other was.symm
      · rfl
    rw [QueueOk, queues]
    exact ⟨nodup, fun g => (waiting g).trans (same g _ (by simp)).symm, fun g => (active g).trans (same g _ (by simp)).symm⟩
  have filled : JobsOk { s with jt := putJob j s.jt, bc := { s.bc with keys := s.bc.keys.set i (some (newKey j.handle key)) } } := by
    refine ⟨fun k => ?_, queue _ engine, queue _ exporter, samePages.symm ▸ usedPages, sameExtents.symm ▸ usedExtents,
      fun h is one => samePages.symm ▸ held h is one⟩
    unfold SlotOk
    dsimp only
    by_cases mine : k = i
    · subst mine
      have at_ : (putJob j s.jt).slots.get k = { s.jt.slots.get k with job := some j } := by
        have self : (putJob j s.jt).slots.get (slotOf j.handle) = { s.jt.slots.get (slotOf j.handle) with job := some j } := get_set_self _ _ _
        rwa [slot] at self
      have locked : (s.bc.keys.set k (some (newKey j.handle key))).get k = some (newKey j.handle key) := get_set_self _ _ _
      rw [at_, locked]
      refine ⟨small, fun l is => ?_, iff_of_true rfl ⟨j, rfl, by rw [isLive, state]⟩, fun l m is has => ?_⟩
      · rw [← Option.some.inj is, own]
        rfl
      · rw [← Option.some.inj is, ← Option.some.inj has]
        rfl
    · have rest : (putJob j s.jt).slots.get k = s.jt.slots.get k := get_set_ne _ _ (by rwa [slot])
      have locked : (s.bc.keys.set i (some (newKey j.handle key))).get k = s.bc.keys.get k := get_set_ne _ _ mine
      rw [rest, locked]
      exact slots k
  exact KeepsJobs.quiet rfl filled

end Opens

theorem jobsOwner_jobOpen (kind owner privacy media sides copies : Nat) : JobsOwner (jobOpen kind owner privacy media sides copies) := by
  intro s ok
  unfold jobOpen
  split
  · exact ok
  split
  · exact ok
  split
  · exact ok
  split
  · exact ok
  split
  · exact ok
  next i lowest =>
  have drew := view_draw32 s
  split
  · next test t draw =>
    rw [draw] at drew
    exact jobs_haltPart _ t (KeepsJobs.quiet drew ok)
  · next key t draw =>
    rw [draw] at drew
    have slots : t.jt.slots = s.jt.slots := slots_view drew
    have free : (t.jt.slots.get i).job = none := slots ▸ lowestFree_free lowest
    have own : handleOf s.jt i = handleOf t.jt i := by rw [handleOf, handleOf, slots]
    exact jobs_fillSlot (KeepsJobs.quiet drew ok) free own rfl rfl rfl key

/-! ### The requests on a job -/

theorem jobsOwner_onJob {rule : Job → State → Answer} {handle : Nat}
    (keeps : ∀ s j, JobsOk s → jobOf s.jt j.handle = some j → JobsOk (rule j s).state) : JobsOwner (onJob handle rule) := by
  intro s ok
  unfold onJob
  split
  · exact ok
  · next j found => exact keeps s j ok (ok.found found)

theorem jobsOwner_jobRelease (handle : Nat) (pin : List Byte) : JobsOwner (jobRelease handle pin) := by
  refine jobsOwner_onJob fun s j ok found => ?_
  unfold releaseJob
  split
  · exact ok
  split
  · exact ok
  next isHeld_ =>
  split
  · exact ok
  next a _ =>
  split
  · exact ok
  · exact ok
  split
  · exact ok
  unfold releaseWithPin
  split
  · exact KeepsJobs.quiet (view_updateAccount s _ _) ok
  have cleared := view_updateAccount s a.id fun a => { a with pinFailures := 0 }
  dsimp only
  generalize updateAccount a.id _ s = t at cleared ⊢
  have okT := KeepsJobs.quiet cleared ok
  split
  · exact okT
  · have placeless : Placeless j := by
      unfold isHeld at isHeld_
      split at isHeld_
      · next state => exact placeless_held state
      · exact absurd rfl isHeld_
    exact jobs_settle _ (jobs_queueTail okT ((jobOf_view cleared j.handle).trans found) rfl rfl (Nat.le_refl _) (Nat.le_refl _) placeless)

section Acts

variable {s : State} {j : Job} (ok : JobsOk s) (found : jobOf s.jt j.handle = some j)
include ok found

theorem jobs_draining (live : isLive j = true) : JobsOk (moveJob { j with state := .draining .cancel } (leavePlace j s)) :=
  ok.rests (r := { j with state := .draining .cancel }) found rfl rfl (queueSet_leavePlace j s) live.symm (by simp) (by simp)
    (Nat.le_refl _) (Nat.le_refl _)

theorem jobs_cancelPlaced (live : isLive j = true) : JobsOk (cancelPlaced j s) := by
  unfold cancelPlaced
  split
  · exact (jobs_closeJob _ _ s).settled ok
  · exact jobs_settle _ (jobs_draining ok found live)

theorem jobs_paused (live : isLive j = true) : JobsOk (stallJob .paused j (leavePlace j s)) :=
  jobs_stallJob ok found rfl rfl live (Nat.le_refl _) (Nat.le_refl _) .paused (queueSet_leavePlace j s)

end Acts

theorem jobsOwner_jobCancel (handle : Nat) : JobsOwner (jobCancel handle) := by
  refine jobsOwner_onJob fun s j ok found => ?_
  have closes := (jobs_closeJob .cancelled j.handle s).settled ok
  unfold cancelJob
  split
  · exact ok
  · exact ok
  · next state =>
    have placed : leavePlace j s = s := by simp only [leavePlace, state]
    have drains := jobs_draining ok found (isLive_of (by simp [state]))
    rw [placed] at drains
    exact drains
  · exact closes
  · exact closes
  · next state => exact jobs_cancelPlaced ok found (isLive_of (by simp [state]))
  · next state => exact jobs_cancelPlaced ok found (isLive_of (by simp [state]))
  · next state =>
    split
    · exact KeepsJobs.quiet (s := s) rfl ok
    · exact jobs_cancelPlaced ok found (live_of_active state)

theorem jobsOwner_jobPause (handle : Nat) : JobsOwner (jobPause handle) := by
  refine jobsOwner_onJob fun s j ok found => ?_
  unfold pauseJob
  split
  · next state => exact jobs_paused ok found (isLive_of (by simp [state]))
  · next state =>
    split
    · exact KeepsJobs.quiet (s := s) rfl ok
    · exact jobs_settle _ (jobs_paused ok found (live_of_active state))
  · next state =>
    split
    · exact ok
    split
    · have placed : leavePlace j s = s := by simp only [leavePlace, state]
      have pauses := jobs_paused ok found (isLive_of (by simp [state]))
      rw [placed] at pauses
      exact pauses
    · exact ok
  · exact ok

theorem jobsOwner_jobResume (handle : Nat) : JobsOwner (jobResume handle) := by
  refine jobsOwner_onJob fun s j ok found => ?_
  unfold resumeJob
  split
  · next state =>
    split
    · exact jobs_settle _ (jobs_queueTail ok found rfl rfl (Nat.le_refl _) (Nat.le_refl _) (placeless_stalled state))
    · exact ok
  · exact ok

theorem minor_skipPage (page : Nat) : Minor (skipPage page) :=
  ⟨fun _ => rfl, fun _ => rfl, fun _ => rfl, fun _ => Nat.le_of_eq (List.length_modify ..), fun _ => Nat.le_refl _⟩

theorem jobsOwner_jobSkipPage (handle page : Nat) : JobsOwner (jobSkipPage handle page) := by
  refine jobsOwner_onJob fun s j ok found => ?_
  have minor := minor_skipPage page
  unfold skipOnJob
  split
  · exact ok
  split
  · exact ok
  split
  · exact ok
  split
  · next image =>
    obtain ⟨time, order, state⟩ := stalledWith_iff.mp image
    have placeless := placeless_stalled state
    exact jobs_settle _ (jobs_queueHead ok found (minor.handle j) (minor.kind j) (minor.pages j) (minor.extents j) placeless.live
      (queueSet_idle placeless.queued placeless.active s))
  · exact jobs_setMinor minor ok found

theorem jobsOwner_jobRead (handle first : Nat) : JobsOwner (jobRead handle first) := by
  refine jobsOwner_onJob fun s j ok _ => ?_
  split <;> exact ok

theorem jobsOwner_sense (handle : Nat) : JobsOwner (sense handle) := jobsOwner_onJob fun _ _ ok _ => ok

/-! ### The settings -/

theorem jobs_stagingChange (changed : Bool) (s : State) : KeepsJobs s (stagingChange changed s) :=
  KeepsJobs.guarded (KeepsJobs.quiet (view_discardStaging s)).settled

theorem jobsOwner_priceSet (f : PriceFields) : JobsOwner (priceSet f) := by
  intro s
  unfold priceSet
  refine KeepsJobs.refused ?_
  split
  · exact KeepsJobs.same s
  refine KeepsJobs.refused (KeepsJobs.trans ?_ (jobs_stagingChange _ _))
  split
  · exact KeepsJobs.same s
  · exact KeepsJobs.quiet (view_setSettings s _)

theorem jobsOwner_meterSet (f : MeterFields) : JobsOwner (meterSet f) := by
  intro s
  unfold meterSet
  refine KeepsJobs.refused ?_
  split
  · exact KeepsJobs.same s
  refine KeepsJobs.refused ?_
  dsimp only
  split
  · exact KeepsJobs.same s
  · refine KeepsJobs.settled (KeepsJobs.quiet ?_)
    split <;> simp

theorem jobsOwner_mediaSet (code : Nat) (area transit : Option Nat) : JobsOwner (mediaSet code area transit) := by
  intro s
  unfold mediaSet
  refine KeepsJobs.refused ?_
  split
  · exact KeepsJobs.same s
  refine KeepsJobs.refused ?_
  dsimp only
  split
  · exact KeepsJobs.same s
  · exact (KeepsJobs.quiet (view_setSettings s _)).trans (jobs_stagingChange _ _)

theorem jobsOwner_limitsSet (f : LimitFields) : JobsOwner (limitsSet f) := .quiet fun s => by
  unfold limitsSet
  split
  · rfl
  split
  · rfl
  split
  · rfl
  dsimp only
  split <;> rfl

/-! ### Cartridges -/

theorem jobsOwner_cartRead (selector start : Nat) : JobsOwner (cartRead selector start) := .quiet fun s => by
  unfold cartRead
  split
  · rfl
  split <;> rfl

theorem jobsOwner_cartReauth (slot : Nat) : JobsOwner (cartReauth slot) := by
  intro s
  unfold cartReauth
  split
  · exact KeepsJobs.same s
  · exact KeepsJobs.refused (KeepsJobs.refused (KeepsJobs.quiet (by simp)).settled)

theorem jobsOwner_policySet (policy : Nat) : JobsOwner (policySet policy) := by
  intro s
  unfold policySet
  split
  · exact KeepsJobs.same s
  next allow _ =>
  refine KeepsJobs.refused ?_
  split
  · exact KeepsJobs.same s
  · have set : KeepsJobs s (setSettings { s.settings with allow := allow } s) := KeepsJobs.quiet (view_setSettings s _)
    exact KeepsJobs.branch (set.trans (jobs_supplyCame _)).settled set

theorem jobsOwner_familyKeyLoad (family : Nat) (key : List Byte) : JobsOwner (familyKeyLoad family key) := by
  intro s
  unfold familyKeyLoad
  split
  · exact KeepsJobs.same s
  refine KeepsJobs.refused (KeepsJobs.refused ?_)
  dsimp only
  split
  · exact KeepsJobs.quiet (view_setKeys s _)
  · refine KeepsJobs.settled (KeepsJobs.quiet ?_)
    refine (view_foldl (fun u i => ?_) cartSlots _).trans (view_setKeys s _)
    split <;> simp

/-! ### Faults, the store and the spool -/

theorem jobsOwner_faultAck (number : Nat) : JobsOwner (faultAck number) := by
  intro s
  unfold faultAck
  refine KeepsJobs.refused (KeepsJobs.refused ?_)
  unfold acknowledge
  dsimp only
  split
  · exact KeepsJobs.settled (KeepsJobs.quiet rfl)
  · exact KeepsJobs.quiet rfl

theorem jobsOwner_haltRecordAck : JobsOwner haltRecordAck := fun _ => KeepsJobs.refused (KeepsJobs.quiet rfl)

theorem jobsOwner_storeLock (locks : Nat) : JobsOwner (storeLock locks) := .quiet fun s => by
  unfold storeLock
  split
  · rfl
  dsimp only
  split <;> rfl

theorem jobsOwner_storeWipe (tag : Byte) : JobsOwner (storeWipe tag) := by
  intro s
  unfold storeWipe
  refine KeepsJobs.refused (KeepsJobs.refused (KeepsJobs.refused ?_))
  have drew := view_draw32 s
  split
  · next test t draw =>
    rw [draw] at drew
    exact (KeepsJobs.quiet drew).trans (jobs_haltPart _ t)
  · next key t draw =>
    rw [draw] at drew
    have wiped : KeepsJobs s (wipeContent key t) := KeepsJobs.quiet ((view_wipeContent t key).trans drew)
    dsimp only
    generalize wipeContent key t = u at wiped ⊢
    exact (wiped.trans (KeepsJobs.quiet (view_beginSanitize u tag true))).settled

theorem jobsOwner_sanitize (tag : Byte) : JobsOwner (sanitize tag) := fun s =>
  KeepsJobs.refused (KeepsJobs.refused (KeepsJobs.refused (KeepsJobs.quiet (view_beginSanitize s tag false)).settled))

theorem jobsOwner_blockRetire (block : Nat) : JobsOwner (blockRetire block) := .quiet fun s => by
  unfold blockRetire
  split
  · rfl
  split
  · rfl
  · rfl
  · dsimp only
    split <;> rfl
  · dsimp only
    split <;> rfl

theorem jobsOwner_spoolRead (block : Option Nat) : JobsOwner (spoolRead block) := .quiet fun s => by
  unfold spoolRead
  split <;> rfl

end Sys2Proof.Machine

/-! PROOFS. O9: the events of the sheet path, of intake, of the bus and of the media port keep the invariant of the job table. -/

namespace Sys2Proof.Machine

section Events

variable {s t : State}

/-! ### The sheet path -/

theorem minor_delivered (cost : Nat) : Minor fun j => { j with
    delivered := satAdd j.delivered 1 Config.counterMax, inFlight := j.inFlight - 1, charged := satAdd j.charged cost Config.counterMax } :=
  ⟨fun _ => rfl, fun _ => rfl, fun _ => rfl, fun _ => Nat.le_refl _, fun _ => Nat.le_refl _⟩

theorem jobs_reportExit (sh : Sheet) (s : State) : KeepsJobs s (reportExit sh s) := by
  intro ok
  unfold reportExit
  split
  · exact ok
  next j found =>
  have set := jobs_setMinor (minor_delivered sh.cost) ok (ok.found found)
  dsimp only
  split
  · exact KeepsJobs.guarded (jobs_closeJob _ _ _) set
  · exact set

theorem jobs_deliver (sh : Sheet) (rest : List Sheet) (s : State) : KeepsJobs s (deliver sh rest s) := by
  have charged : jobView (updateAccount sh.owner (charge sh.cost sh.sides sh.nonGenuine) { s with spm := { s.spm with sheets := rest } })
      = jobView s := view_updateAccount _ _ _
  unfold deliver
  dsimp only
  generalize updateAccount _ _ _ = u at charged ⊢
  exact (((KeepsJobs.quiet charged).trans (jobs_reportExit sh u)).trans (KeepsJobs.quiet (view_emit _ _))).settled

theorem jobs_exitEdge (s : State) : KeepsJobs s (exitEdge s) := by
  unfold exitEdge
  split
  · exact (jobs_declareJam _ s).settled
  · exact (jobs_deliver _ _ s).branch (jobs_declareJam _ s).settled

theorem jobs_feedEdge (s : State) : KeepsJobs s (feedEdge s) := by
  unfold feedEdge
  split
  · exact KeepsJobs.settled (KeepsJobs.quiet (by rw [view_enterCartridges]; rfl))
  · exact (jobs_declareJam _ s).settled

theorem jobs_supplyEdge (s : State) : KeepsJobs s (supplyEdge s) := KeepsJobs.settled (KeepsJobs.quiet rfl)

theorem jobs_takeEdge (ch : Channel) (s : State) : KeepsJobs s (takeEdge ch s) := by
  unfold takeEdge
  dsimp only
  have put (c : SenseChannel) : KeepsJobs s (putChannel ch c s) := KeepsJobs.quiet (view_putChannel s ch c)
  split
  · exact KeepsJobs.maybe jobs_feedEdge (put _)
  · exact KeepsJobs.maybe jobs_exitEdge (put _)
  · exact (put _).trans (jobs_supplyEdge _)

theorem jobs_followRaw (ch : Channel) (s : State) : KeepsJobs s (followRaw ch s) := (jobs_takeEdge ch s).guarded

theorem jobs_edgeCommand (ch : Channel) (level : Bool) (s : State) : KeepsJobs s (edgeCommand ch level s) := (jobs_takeEdge ch s).guarded

theorem jobsOwner_senseSet (channel code hysteresis filter polarity : Nat) :
    JobsOwner (senseSet channel code hysteresis filter polarity) := by
  intro s
  unfold senseSet
  split
  · exact KeepsJobs.same s
  · refine KeepsJobs.refused (KeepsJobs.refused (KeepsJobs.trans (KeepsJobs.quiet ?_) (jobs_followRaw _ _)))
    rw [view_putChannel, view_setSettings]

theorem jobsOwner_doorOpen : JobsOwner doorOpen := by
  intro s
  have opened : jobView (cartridgesDoorOpen (evaluatePermit { s with spm := { s.spm with doorOpen := true } })) = jobView s :=
    (view_cartridgesDoorOpen _).trans rfl
  unfold doorOpen
  split
  · exact KeepsJobs.same s
  dsimp only
  generalize cartridgesDoorOpen _ = u at opened ⊢
  have kept : KeepsJobs s u := KeepsJobs.quiet opened
  exact (KeepsJobs.branch (kept.trans (KeepsJobs.quiet (view_askPart u))) (kept.trans (jobs_declareJam .door u))).settled

theorem jobsOwner_doorClosed : JobsOwner doorClosed := by
  intro s
  have closed : jobView (queueAll (evaluatePermit { s with spm := { s.spm with doorOpen := false } })) = jobView s :=
    (view_queueAll _).trans rfl
  unfold doorClosed
  split
  · dsimp only
    generalize queueAll _ = u at closed ⊢
    exact KeepsJobs.settled ((KeepsJobs.quiet closed).trans (KeepsJobs.quiet (view_askPart u)))
  · exact KeepsJobs.same s

theorem jobsOwner_jamClear : JobsOwner jamClear := by
  intro s
  unfold jamClear
  refine KeepsJobs.refused (KeepsJobs.refused (KeepsJobs.refused ?_))
  dsimp only
  have clear : KeepsJobs s (evaluatePermit { s with spm := { s.spm with jammed := false } }) := KeepsJobs.quiet rfl
  generalize evaluatePermit _ = u at clear ⊢
  exact ((clear.trans (jobs_returnJammed u)).trans (KeepsJobs.quiet (view_askPart _))).settled

/-! ### Intake -/

theorem jobs_abortHeld (s : State) : KeepsJobs s (abortHeld s) := by
  unfold abortHeld
  split
  · next h _ =>
    exact KeepsJobs.guarded ((jobs_noneHeld s).trans (jobs_abortJob .spoolFull .spoolFull h.band.handle h.band.page 0 (noneHeld s)))
  · exact KeepsJobs.same s

theorem jobs_abortImage (page : Nat) (s : State) : KeepsJobs s (abortImage page s) := by
  unfold abortImage
  split
  · exact KeepsJobs.guarded (jobs_abortJob _ _ _ _ _ s)
  · exact KeepsJobs.same s

theorem jobs_expireStall (s : State) : KeepsJobs s (expireStall s) := by
  have stopped : KeepsJobs s { s with jt := { s.jt with stallTimer := none } } := KeepsJobs.quiet rfl
  unfold expireStall
  dsimp only
  generalize ({ s with jt := { s.jt with stallTimer := none } } : State) = u at stopped ⊢
  split
  · exact KeepsJobs.branch (stopped.trans (jobs_abortHeld u)) ((stopped.trans (jobs_abortImage _ u)).trans (jobs_abortHeld _))
  · exact stopped.trans (jobs_abortHeld u)

/-! ### Reads -/

theorem jobs_findUnreadable (q : ReadRequest) (block : Nat) (s : State) : KeepsJobs s (findUnreadable q block s) := by
  have marked : KeepsJobs s { s with smc := markBlock .media block s.smc } := KeepsJobs.quiet rfl
  unfold findUnreadable
  dsimp only
  generalize ({ s with smc := markBlock .media block s.smc } : State) = u at marked ⊢
  exact KeepsJobs.branch (marked.trans (KeepsJobs.maybe (jobs_raiseJobFault _) (jobs_flagPage _ _ u))) marked

theorem jobs_findTampered (q : ReadRequest) (place : BandPlace) (s : State) : KeepsJobs s (findTampered q place s) := by
  have marked : KeepsJobs s { s with smc := (placeBlocks place).foldl (fun m b => markBlock .cipher b m) s.smc } := KeepsJobs.quiet rfl
  unfold findTampered
  dsimp only
  generalize ({ s with smc := (placeBlocks place).foldl (fun m b => markBlock .cipher b m) s.smc } : State) = u at marked ⊢
  exact marked.trans (KeepsJobs.maybe (jobs_raiseJobFault _) (jobs_flagPage _ _ u))

theorem jobs_judgeRead (q : ReadRequest) (place : BandPlace) (retries weakLimit : Nat) (r : BandRead) (s : State) :
    KeepsJobs s (judgeRead q place retries weakLimit r s).2 := by
  have weak := view_foldl (op := findWeak weakLimit (codewordsRead place retries r).1)
    (fun s b => view_findWeak s weakLimit (codewordsRead place retries r).1 b) (placeBlocks place) s
  unfold judgeRead
  dsimp only
  generalize (placeBlocks place).foldl _ s = u at weak ⊢
  have flagged : KeepsJobs s u := KeepsJobs.quiet weak
  split
  · exact flagged.trans (jobs_findUnreadable _ _ u)
  split
  · exact flagged
  split
  · exact flagged
  · exact flagged.trans (jobs_findTampered _ _ u)

theorem jobs_advanceStaging (j : Job) (e : StagingEntry) (side band : Nat) (plain : List Byte) (s : State) :
    KeepsJobs s (advanceStaging j e side band plain s).2 := by
  unfold advanceStaging
  dsimp only
  split
  · exact jobs_beginRead .staging j.handle _ _ s
  · exact KeepsJobs.same s

theorem jobs_stagingTakes (q : ReadRequest) (result : ReadResult) (s : State) : KeepsJobs s (stagingTakes q result s) := by
  unfold stagingTakes
  split
  · next e j _ _ =>
    split
    · next side band plain _ => exact (jobs_advanceStaging j e side band plain s).trans (KeepsJobs.quiet rfl)
    · exact KeepsJobs.quiet rfl
    · exact KeepsJobs.same s
  · exact KeepsJobs.same s

theorem jobs_exportTakes (q : ReadRequest) (result : ReadResult) (s : State) : KeepsJobs s (exportTakes q result s) := by
  unfold exportTakes
  split
  · exact KeepsJobs.quiet rfl
  · exact jobs_stallActive _ _ _ s
  · exact KeepsJobs.same s

theorem jobs_handResult (q : ReadRequest) (result : ReadResult) (s : State) : KeepsJobs s (handResult q result s) := by
  unfold handResult
  split
  · exact KeepsJobs.same s
  split
  · exact jobs_stagingTakes q result s
  · exact jobs_exportTakes q result s

/-! ### The end of an exported band (R27, R28) -/

theorem minor_countPage (page : Nat) : Minor (countPage page) :=
  ⟨fun _ => rfl, fun _ => rfl, fun _ => rfl, fun _ => Nat.le_refl _, fun _ => Nat.le_refl _⟩

theorem minor_id : Minor fun j => j := ⟨fun _ => rfl, fun _ => rfl, fun _ => rfl, fun _ => Nat.le_refl _, fun _ => Nat.le_refl _⟩

theorem Minor.branch {c : Prop} [Decidable c] {f : Job → Job} (minor : Minor f) : Minor fun j => if c then f j else j := by
  by_cases yes : c
  · simpa only [yes, if_true] using minor
  · simpa only [yes, if_false] using minor_id

theorem jobs_bandSent {b : ExportBand} {j : Job} (ok : JobsOk s) (active : activeJob s .exporter = some j) : JobsOk (bandSent b j s) := by
  obtain ⟨found, state, -⟩ := activeJob_found ok active
  have minor : Minor fun j => if b.lastBand then countPage b.page j else j := (minor_countPage b.page).branch
  have idle : JobsOk { s with jt := { s.jt with exportPhase := .idle } } := KeepsJobs.quiet (s := s) rfl ok
  have set : JobsOk (setJob (if b.lastBand then countPage b.page j else j) { s with jt := { s.jt with exportPhase := .idle } }) :=
    jobs_setMinor (f := fun j => if b.lastBand then countPage b.page j else j) minor idle found
  have mine : jobOf (setJob (if b.lastBand then countPage b.page j else j) { s with jt := { s.jt with exportPhase := .idle } }).jt
      (if b.lastBand then countPage b.page j else j).handle = some (if b.lastBand then countPage b.page j else j) :=
    jobOf_putJob (j := j) ((minor.handle j).symm ▸ found) rfl
  have still : (if b.lastBand then countPage b.page j else j).state = .active := (minor.state j).trans state
  unfold bandSent
  dsimp only
  generalize (if b.lastBand then countPage b.page j else j) = r at *
  generalize setJob r _ = u at *
  split
  · exact jobs_closeJob _ _ u set
  split
  · exact jobs_stallJob set mine rfl rfl (live_of_active still) (Nat.le_refl _) (Nat.le_refl _) .paused (queueSet_active still u)
  split
  · exact set
  have read := jobs_beginRead .exporter r.handle b.page (b.index + 1) u set
  generalize beginRead .exporter r.handle b.page (b.index + 1) u = result at read
  split
  · exact jobs_stallActive _ _ _ _ read
  · exact KeepsJobs.quiet (by rfl) read

/-! ### Programs, erases and verifies -/

theorem jobs_firstFailure (p : ProgrammingImage) (s : State) : KeepsJobs s (firstFailure p s) := by
  cases remapped : remapBlock p.block s with
  | some t =>
    rw [firstFailure_remapped remapped]
    exact (KeepsJobs.quiet (view_remapBlock remapped)).trans (KeepsJobs.quiet rfl)
  | none =>
    cases moves : moveImage (waitingFor p s) with
    | some t =>
      rw [firstFailure_moves remapped moves]
      exact fun ok => jobs_moveImage (KeepsJobs.quiet (s := s) (t := waitingFor p s) rfl ok) moves
    | none =>
      rw [firstFailure_waits remapped moves]
      exact KeepsJobs.quiet rfl

theorem jobs_secondFailure (p : ProgrammingImage) (s : State) : KeepsJobs s (secondFailure p s) := by
  have handled : jobView ((remapBlock p.block (imageDropped s)).getD (retireBlock .program p.block (imageDropped s))) = jobView s := by
    cases remapped : remapBlock p.block (imageDropped s) with
    | some t =>
      have kept : jobView t = jobView (imageDropped s) := view_remapBlock remapped
      exact kept
    | none => rfl
  rw [secondFailure_eq]
  dsimp only
  generalize (remapBlock p.block (imageDropped s)).getD _ = u at handled ⊢
  exact ((KeepsJobs.quiet handled).trans (jobs_raiseJobFault _ u)).trans (jobs_closeJob _ _ _)

theorem jobs_closedJobFailure (block : Nat) (s : State) : KeepsJobs s (closedJobFailure block s) := by
  unfold closedJobFailure
  split
  · next t taken => exact KeepsJobs.quiet (view_remapBlock taken)
  dsimp only
  split
  · exact (KeepsJobs.quiet (by rfl)).trans (jobs_retireScrubbed _ _ _)
  · exact jobs_retireScrubbed _ _ s

theorem jobs_endProgram (handle block : Nat) (second ok : Bool) (s : State) : KeepsJobs s (endProgram handle block second ok s) := by
  have ended : KeepsJobs s { endPortFlight s with smc := { (endPortFlight s).smc with programming := none } } := KeepsJobs.quiet rfl
  unfold endProgram
  dsimp only
  generalize ({ endPortFlight s with smc := { (endPortFlight s).smc with programming := none } } : State) = u at ended ⊢
  split
  · split
    · exact KeepsJobs.branch ended (KeepsJobs.branch (ended.trans (jobs_secondFailure _ u)) (ended.trans (jobs_firstFailure _ u)))
    · exact ended
  · exact KeepsJobs.branch ended (ended.trans (jobs_closedJobFailure _ u))

theorem view_workOn (block : Nat) (verifying second : Bool) (s : State) : jobView (workOn block verifying second s) = jobView s := rfl

theorem view_endWork (s : State) : jobView (endWork s) = jobView s := rfl

theorem jobs_failedPass (w : BlockInWork) (s : State) : KeepsJobs s (failedPass w s) := by
  unfold failedPass
  split
  · exact KeepsJobs.quiet (view_workOn _ _ _ s)
  split
  · next t taken => exact KeepsJobs.quiet ((view_workOn _ _ _ t).trans (view_remapBlock taken))
  · exact (jobs_retireScrubbed _ _ s).trans (KeepsJobs.quiet (view_endWork _))

theorem jobs_returnClean (block : Nat) (s : State) : KeepsJobs s (returnClean block s) := by
  rw [returnClean_eq]
  exact (KeepsJobs.quiet (by rfl)).trans (jobs_leaveScrub block _)

theorem jobs_endErase (w : BlockInWork) (ok : Bool) (s : State) : KeepsJobs s (endErase w ok s) := by
  unfold endErase
  split
  · exact (jobs_retireScrubbed _ _ s).trans (KeepsJobs.quiet (view_endWork _))
  · exact KeepsJobs.branch (KeepsJobs.quiet (view_workOn _ _ _ s)) (jobs_failedPass w s)

theorem jobs_endVerify (w : BlockInWork) (ok : Bool) (s : State) : KeepsJobs s (endVerify w ok s) := by
  unfold endVerify
  split
  · exact (jobs_retireScrubbed _ _ s).trans (KeepsJobs.quiet (view_endWork _))
  · exact KeepsJobs.branch (jobs_returnClean _ s) (jobs_failedPass w s)

/-! ### The cartridge bus -/

theorem jobs_takeRecord (i : Fin 4) (record : List Byte) (s : State) : KeepsJobs s (takeRecord i record s) := by
  have rejected (reason : RejectReason) : KeepsJobs s (rejectRead i reason record (endFlight s)) := KeepsJobs.quiet (by simp)
  unfold takeRecord
  refine KeepsJobs.branch (rejected _) (KeepsJobs.branch (rejected _) ?_)
  split
  · exact rejected _
  have drew := view_draw16 s
  split
  · next test t draw =>
    rw [draw] at drew
    exact (KeepsJobs.quiet drew).trans (jobs_haltPart _ t)
  · next nonce t draw =>
    rw [draw] at drew
    exact KeepsJobs.quiet drew

theorem view_takeDecrement (i : Fin 4) (amount : Nat) (ok : Bool) (level : Nat) (s : State) :
    jobView (takeDecrement i amount ok level s) = jobView s := by
  unfold takeDecrement
  dsimp only
  split <;> simp

theorem jobs_failFlight (s : State) : KeepsJobs s (failFlight s) := by
  have failed (i : Fin 4) (item : WorkItem) : KeepsJobs s (settle (failTransaction i item s)) :=
    KeepsJobs.settled (KeepsJobs.quiet (view_failTransaction s i item))
  unfold failFlight
  split
  · exact failed _ _
  · exact failed _ _
  · exact failed _ _
  · exact KeepsJobs.same s

end Events

end Sys2Proof.Machine

/-! PROOFS. O9: every step keeps the invariant of the job table. -/

namespace Sys2Proof.Machine

open Host (Outcome)

section StartUps

variable {s t : State}

/-! ### The beginning of a start-up (R181) -/

/-- A start-up begins with no job. -/
theorem jobs_restarted (view : jobView t = jobView State.reset) : KeepsJobs s t := fun _ =>
  KeepsJobs.quiet view Tests.test_meets_job_table.1

theorem jobs_beginStartUp (wipe : Bool) (tag : Option Byte) (kept : List Entry) (s : State) : KeepsJobs s (beginStartUp wipe tag kept s) :=
  jobs_restarted rfl

theorem jobsOwner_restartWith (wipe : Bool) (tag : Byte) : JobsOwner (restartWith wipe tag) := fun s => jobs_beginStartUp wipe _ _ s

theorem jobsOwner_restartWipe (tag : Byte) : JobsOwner (restartWipe tag) := by
  intro s
  unfold restartWipe
  split
  · exact jobsOwner_restartWith true tag s
  · exact KeepsJobs.same s

/-! ### The steps of a start-up (R182) -/

theorem view_toStep (n : Nat) (s : State) : jobView (toStep n s) = jobView s := rfl

theorem view_checkHalt (damaged : List PartitionId) (s : State) : jobView (checkHalt damaged s) = jobView s := by
  unfold checkHalt
  split <;> rfl

theorem view_checkSettings (damaged : List PartitionId) (s : State) : jobView (checkSettings damaged s) = jobView s := by
  unfold checkSettings
  split <;> rfl

theorem view_checkHistory (damaged : List PartitionId) (s : State) : jobView (checkHistory damaged s) = jobView s := by
  unfold checkHistory
  split <;> rfl

section Checks

variable {after : State → State} (keeps : ∀ s, KeepsJobs s (after s)) (damaged : List PartitionId) (s : State)
include keeps

theorem jobs_checkAccounts : KeepsJobs s (checkAccounts damaged after s) := by
  unfold checkAccounts
  split
  · exact KeepsJobs.trans (KeepsJobs.quiet (by rfl)) (keeps _)
  · exact KeepsJobs.trans (KeepsJobs.quiet (by rfl)) (keeps _)
  · exact jobs_haltPart _ s

theorem jobs_checkKeys : KeepsJobs s (checkKeys damaged after s) := by
  unfold checkKeys
  split
  · exact KeepsJobs.trans (KeepsJobs.quiet (by rfl)) (keeps _)
  · exact KeepsJobs.trans (KeepsJobs.quiet (by rfl)) (keeps _)
  · exact jobs_haltPart _ s

theorem jobs_checkDefects : KeepsJobs s (checkDefects damaged after s) := by
  unfold checkDefects
  split
  · exact KeepsJobs.trans (KeepsJobs.quiet (by rfl)) (keeps _)
  · exact KeepsJobs.trans (KeepsJobs.quiet (by rfl)) (keeps _)
  · exact jobs_haltPart _ s

end Checks

theorem jobs_checkStore (damaged : List PartitionId) (s : State) : KeepsJobs s (checkStore damaged s) := by
  have first : jobView (checkHistory damaged (checkSettings damaged (checkHalt damaged s))) = jobView s :=
    (view_checkHistory _ _).trans ((view_checkSettings _ _).trans (view_checkHalt _ _))
  have last (u : State) : KeepsJobs u (toStep 2 u) := KeepsJobs.quiet (view_toStep 2 u)
  exact (KeepsJobs.quiet first).trans (jobs_checkAccounts (jobs_checkKeys (jobs_checkDefects last damaged) damaged) damaged _)

theorem view_wipeHalt (s : State) : jobView (wipeHalt s) = jobView s := by
  unfold wipeHalt
  dsimp only
  split <;> rfl

theorem view_wipeStore (damaged : List PartitionId) (s : State) : jobView (wipeStore damaged s) = jobView s := by
  rw [← view_wipeHalt s]
  rfl

theorem jobs_drawDeviceKey (s : State) : KeepsJobs s (drawDeviceKey s) := by
  have drew := view_draw32 s
  unfold drawDeviceKey
  split
  · exact KeepsJobs.same s
  split
  · next test t draw =>
    rw [draw] at drew
    exact (KeepsJobs.quiet drew).trans (jobs_haltPart _ t)
  · next key t draw =>
    rw [draw] at drew
    exact (KeepsJobs.quiet drew).trans (KeepsJobs.quiet (view_setKeys t _))

theorem view_testSource (s : State) : jobView (testSource s).2 = jobView s := by
  unfold testSource takeNoise
  cases s.noise <;> rfl

theorem jobs_runTests (cipherOk : Bool) (s : State) : KeepsJobs s (runTests cipherOk s) := by
  have tested := view_testSource s
  unfold runTests
  refine KeepsJobs.branch (jobs_haltPart _ s) ?_
  split
  · next test t result =>
    rw [result] at tested
    exact (KeepsJobs.quiet tested).trans (jobs_haltPart _ t)
  · next t result =>
    rw [result] at tested
    have serves : KeepsJobs s { t with bc := { t.bc with serving := true } } := KeepsJobs.quiet tested
    exact (serves.trans (jobs_drawDeviceKey _)).trans (KeepsJobs.quiet (view_toStep 3 _))

theorem view_loadAccounts (s : State) : jobView (loadAccounts s) = jobView s := by
  unfold loadAccounts
  dsimp only
  split <;> rfl

theorem jobs_loadCartridges (s : State) : KeepsJobs s (loadCartridges s) := by
  unfold loadCartridges
  refine KeepsJobs.settled (KeepsJobs.quiet ?_)
  exact (view_toStep 6 _).trans (view_queueAll _)

theorem jobs_enterRunning (s : State) : KeepsJobs s (enterRunning s) := by
  have running : jobView (evaluatePermit { s with startUp := none, fm := { s.fm with part := .running } }) = jobView s := rfl
  unfold enterRunning
  dsimp only
  generalize evaluatePermit _ = u at running ⊢
  refine KeepsJobs.settled (KeepsJobs.quiet ?_)
  rw [view_reportStartUp, view_askPart]
  split
  · exact (view_raiseNote u _).trans running
  · exact running

theorem jobs_endStep (u : StartUp) (finding : StepFinding) (s : State) : KeepsJobs s (endStep u finding s) := by
  unfold endStep
  split
  · exact KeepsJobs.branch (KeepsJobs.quiet (view_wipeStore _ s)) (jobs_checkStore _ s)
  · exact jobs_runTests _ s
  · exact KeepsJobs.quiet (view_loadAccounts s)
  · exact KeepsJobs.quiet rfl
  · exact jobs_loadCartridges s
  · exact KeepsJobs.quiet rfl
  · exact jobs_enterRunning s

end StartUps

/-! ### Requests and frames -/

/-- Every owner of a request keeps the job table's invariant. -/
theorem Owner.keepsJobs {k : RequestKind} {tag : Byte} {o : State → Answer} (owner : Owner k tag o) : JobsOwner o := by
  cases owner with
  | acctCreate => exact jobsOwner_acctCreate _ _ _ _
  | acctDelete => exact jobsOwner_acctDelete _
  | acctCredit => exact jobsOwner_acctCredit _ _
  | acctSet => exact jobsOwner_acctSet _ _ _ _ _
  | acctRead => exact jobsOwner_acctRead _
  | acctList => exact .quiet fun _ => rfl
  | acctUnlock => exact jobsOwner_acctUnlock _
  | countersClear => exact jobsOwner_countersClear _
  | jobOpen => exact jobsOwner_jobOpen _ _ _ _ _ _
  | jobRelease => exact jobsOwner_jobRelease _ _
  | jobCancel => exact jobsOwner_jobCancel _
  | jobPause => exact jobsOwner_jobPause _
  | jobResume => exact jobsOwner_jobResume _
  | jobSkipPage => exact jobsOwner_jobSkipPage _ _
  | jobRead => exact jobsOwner_jobRead _ _
  | senseSet => exact jobsOwner_senseSet _ _ _ _ _
  | doorOpen => exact jobsOwner_doorOpen
  | doorClosed => exact jobsOwner_doorClosed
  | jamClear => exact jobsOwner_jamClear
  | pathRead => exact .quiet fun _ => rfl
  | priceSet => exact jobsOwner_priceSet _
  | meterSet => exact jobsOwner_meterSet _
  | mediaSet => exact jobsOwner_mediaSet _ _ _
  | cartRead => exact jobsOwner_cartRead _ _
  | cartReauth => exact jobsOwner_cartReauth _
  | policySet => exact jobsOwner_policySet _
  | familyKeyLoad => exact jobsOwner_familyKeyLoad _ _
  | spoolRead => exact jobsOwner_spoolRead _
  | blockRetire => exact jobsOwner_blockRetire _
  | sanitize => exact jobsOwner_sanitize _
  | faultRead => exact .quiet fun _ => rfl
  | faultAck => exact jobsOwner_faultAck _
  | haltRecordAck => exact jobsOwner_haltRecordAck
  | sense => exact jobsOwner_sense _
  | storeLock => exact jobsOwner_storeLock _
  | storeWipe => exact jobsOwner_storeWipe _
  | storeRead => exact .quiet fun _ => rfl
  | limitsSet => exact jobsOwner_limitsSet _
  | status => exact .quiet fun _ => rfl
  | restartNormal => exact jobsOwner_restartWith _ _
  | restartWipe => exact jobsOwner_restartWipe _
  | doorWrong => exact jobsOwner_refuse _
  | selectorWrong => exact jobsOwner_refuse _
  | modeWrong => exact jobsOwner_refuse _

theorem jobs_request {owner : State → Answer} (keeps : JobsOwner owner) (k : RequestKind) (tag : Byte) (s : State) :
    KeepsJobs s (request k tag owner s) := by
  rcases request_cases k tag owner s with is | is | ⟨c, is⟩ | is <;> rw [is]
  · exact KeepsJobs.same s
  · exact KeepsJobs.quiet rfl
  · exact KeepsJobs.quiet rfl
  · exact (keeps s).trans (KeepsJobs.quiet rfl)

theorem view_takeWrong (cause : LinkErrorCause) (tag kind : Byte) (s : State) : jobView (takeWrong cause tag kind s) = jobView s := by
  unfold takeWrong
  split
  · rfl
  · split <;> rfl

theorem view_takeUnknown (tag kind : Byte) (s : State) : jobView (takeUnknown tag kind s) = jobView s := by
  unfold takeUnknown
  split <;> rfl

theorem jobs_takeBytes (bytes : List Byte) (s : State) : KeepsJobs s (takeBytes bytes s) := by
  unfold takeBytes
  split
  · exact KeepsJobs.same s
  · exact KeepsJobs.quiet (view_takeWrong _ _ _ s)
  · unfold dispatch
    split
    · exact KeepsJobs.quiet (view_takeUnknown _ _ s)
    · split
      · exact KeepsJobs.quiet (view_takeUnknown _ _ s)
      · split
        · exact KeepsJobs.branch (KeepsJobs.quiet rfl) (KeepsJobs.quiet rfl)
        · next owner parsed => exact jobs_request (parsePayload_owner parsed).keepsJobs _ _ s

/-! ### Events -/

section Events

variable {s t : State}

theorem jobs_transferEnd {bytes : List Byte} (ran : execTransferEnd bytes s = .next t) : KeepsJobs s t := by
  unfold execTransferEnd at ran
  split at ran
  · split at ran
    · obtain rfl := Outcome.next.inj ran
      exact KeepsJobs.branch (KeepsJobs.quiet rfl) ((KeepsJobs.quiet (by rfl)).trans (jobs_takeBytes bytes _))
    · exact Outcome.next.inj ran ▸ KeepsJobs.same s
  · exact Outcome.next.inj ran ▸ KeepsJobs.same s

theorem jobs_rawLevelChange {ch : Channel} {input : Nat} (ran : execRawLevelChange ch input s = .next t) : KeepsJobs s t := by
  unfold execRawLevelChange at ran
  dsimp only at ran
  split at ran
  · exact Outcome.next.inj ran ▸ (KeepsJobs.quiet (view_putChannel s ch _)).trans (jobs_followRaw ch _)
  · exact Outcome.next.inj ran ▸ KeepsJobs.quiet (view_putChannel s ch _)

theorem jobs_readComplete {r : BandRead} (ran : execReadComplete r s = .next t) : KeepsJobs s t := by
  unfold execReadComplete at ran
  split at ran
  · split at ran
    · exact Outcome.next.inj ran ▸ KeepsJobs.same s
    · obtain rfl := Outcome.next.inj ran
      exact (((KeepsJobs.quiet (view_endPortFlight s)).trans (jobs_judgeRead _ _ _ _ _ _)).trans (jobs_handResult _ _ _)).settled
  · exact Outcome.next.inj ran ▸ KeepsJobs.same s

theorem jobs_exportBandSent (ran : execExportBandSent s = .next t) : KeepsJobs s t := by
  unfold execExportBandSent at ran
  split at ran
  · next b j _ active =>
    have sent : KeepsJobs s (bandSent b j s) := fun ok => jobs_bandSent ok active
    exact Outcome.next.inj ran ▸ sent.settled.guarded
  · exact Outcome.next.inj ran ▸ KeepsJobs.same s

theorem jobs_programComplete {ok : Bool} (ran : execProgramComplete ok s = .next t) : KeepsJobs s t := by
  unfold execProgramComplete at ran
  split at ran
  · split at ran
    · exact Outcome.next.inj ran ▸ (jobs_endProgram _ _ _ _ s).settled
    · exact Outcome.next.inj ran ▸ KeepsJobs.same s
  · exact Outcome.next.inj ran ▸ KeepsJobs.same s

theorem jobs_eraseComplete {ok : Bool} (ran : execEraseComplete ok s = .next t) : KeepsJobs s t := by
  have ended : KeepsJobs s (endPortFlight s) := KeepsJobs.quiet (view_endPortFlight s)
  unfold execEraseComplete at ran
  split at ran
  · split at ran
    · exact Outcome.next.inj ran ▸ KeepsJobs.same s
    · split at ran
      · exact Outcome.next.inj ran ▸ (ended.trans (jobs_endErase _ _ _)).settled
      · exact Outcome.next.inj ran ▸ ended.settled
  · exact Outcome.next.inj ran ▸ KeepsJobs.same s

theorem jobs_verifyComplete {r : VerifyRead} (ran : execVerifyComplete r s = .next t) : KeepsJobs s t := by
  have ended : KeepsJobs s (endPortFlight s) := KeepsJobs.quiet (view_endPortFlight s)
  unfold execVerifyComplete at ran
  split at ran
  · split at ran
    · exact Outcome.next.inj ran ▸ KeepsJobs.same s
    · split at ran
      · exact Outcome.next.inj ran ▸ (ended.trans (jobs_endVerify _ _ _)).settled
      · exact Outcome.next.inj ran ▸ ended.settled
  · exact Outcome.next.inj ran ▸ KeepsJobs.same s

theorem jobs_probeComplete {acknowledged : Bool} (ran : execProbeComplete acknowledged s = .next t) : KeepsJobs s t := by
  unfold execProbeComplete at ran
  split at ran
  · split at ran
    · exact Outcome.next.inj ran ▸ KeepsJobs.same s
    · split at ran
      · exact Outcome.next.inj ran ▸ KeepsJobs.quiet rfl
      · exact Outcome.next.inj ran ▸ (KeepsJobs.quiet (view_endEmpty s _)).settled
  · exact Outcome.next.inj ran ▸ KeepsJobs.same s

theorem jobs_readRecordComplete {record : List Byte} (ran : execReadRecordComplete record s = .next t) : KeepsJobs s t := by
  unfold execReadRecordComplete at ran
  split at ran
  · split at ran
    · exact Outcome.next.inj ran ▸ KeepsJobs.same s
    · split at ran
      · cases ran
      · exact Outcome.next.inj ran ▸ (jobs_takeRecord _ _ s).settled
  · exact Outcome.next.inj ran ▸ KeepsJobs.same s

theorem jobs_challengeComplete {reply : Digest} (ran : execChallengeComplete reply s = .next t) : KeepsJobs s t := by
  have ended : KeepsJobs s (endFlight s) := KeepsJobs.quiet (view_endFlight s)
  unfold execChallengeComplete at ran
  split at ran
  · split at ran
    · exact Outcome.next.inj ran ▸ KeepsJobs.same s
    · split at ran
      · exact Outcome.next.inj ran ▸ (ended.trans (jobs_completeAuth _ _ _)).settled
      · exact Outcome.next.inj ran ▸ (ended.trans (KeepsJobs.quiet (view_rejectRead _ _ _ _))).settled
  · exact Outcome.next.inj ran ▸ KeepsJobs.same s

theorem jobs_decrementComplete {level : BitVec 32} {reply : Digest} (ran : execDecrementComplete level reply s = .next t) :
    KeepsJobs s t := by
  unfold execDecrementComplete at ran
  split at ran
  · split at ran
    · exact Outcome.next.inj ran ▸ KeepsJobs.same s
    · exact Outcome.next.inj ran ▸ (KeepsJobs.quiet (view_takeDecrement _ _ _ _ s)).settled
  · exact Outcome.next.inj ran ▸ KeepsJobs.same s

theorem jobs_resyncComplete (ran : execResyncComplete s = .next t) : KeepsJobs s t := by
  unfold execResyncComplete at ran
  split at ran
  · split at ran
    · exact Outcome.next.inj ran ▸ (KeepsJobs.quiet (view_endFlight s)).settled
    · exact Outcome.next.inj ran ▸ KeepsJobs.same s
  · exact Outcome.next.inj ran ▸ KeepsJobs.same s

theorem jobs_startUpStepEnd {finding : StepFinding} (ran : execStartUpStepEnd finding s = .next t) : KeepsJobs s t := by
  unfold execStartUpStepEnd at ran
  split at ran
  · exact Outcome.next.inj ran ▸ (jobs_endStep _ _ s).guarded
  · exact Outcome.next.inj ran ▸ KeepsJobs.same s

theorem jobs_sheetRequest (s : State) : KeepsJobs s { s with spm := { s.spm with requestPending := true } } := KeepsJobs.quiet rfl

theorem jobs_intakeBand (b : Band) (s : State) : KeepsJobs s { s with jt := { s.jt with waiting := s.jt.waiting ++ [b] } } :=
  KeepsJobs.quiet rfl

theorem jobs_losePower (cut : StoreCut) (s : State) : KeepsJobs s (losePower cut s) := jobs_restarted rfl

theorem jobs_resetInput (cut : StoreCut) (s : State) : KeepsJobs s (beginStartUp false none [] { s with ps := cutStore cut s.ps }) :=
  jobs_restarted rfl

theorem jobs_transferStart (s : State) : KeepsJobs s { s with lif := beginTransfer s.lif } := KeepsJobs.quiet rfl

end Events

/-! ### Commands -/

theorem jobs_exec {c : Instr} {s t : State} (ran : exec c s = .next t) : KeepsJobs s t := by
  cases is : requestOf c with
  | some kt =>
    obtain ⟨k, tag⟩ := kt
    obtain ⟨owner, owns, runs⟩ := exec_owner is
    obtain rfl := Outcome.next.inj ((runs s).symm.trans ran)
    exact jobs_request owns.keepsJobs k tag s
  | none =>
    cases c <;> cases is
    case powerOn.refl => exact Outcome.next.inj ran ▸ jobs_restarted rfl
    case resetInput.refl cut => exact Outcome.next.inj ran ▸ (jobs_resetInput cut s).guarded
    case powerLoss.refl cut => exact Outcome.next.inj ran ▸ (jobs_losePower cut s).guarded
    case startUpStepEnd.refl => exact jobs_startUpStepEnd ran
    case transferStart.refl => exact Outcome.next.inj ran ▸ (jobs_transferStart s).guarded
    case transferEnd.refl => exact jobs_transferEnd ran
    case linkError.refl cause tag kind => exact Outcome.next.inj ran ▸ (KeepsJobs.quiet (view_takeWrong cause tag kind s)).guarded
    case linkOverrun.refl => exact Outcome.next.inj ran ▸ KeepsJobs.guarded (KeepsJobs.quiet rfl)
    case unknownKind.refl tag kind => exact Outcome.next.inj ran ▸ (KeepsJobs.quiet (view_takeUnknown tag kind s)).guarded
    case rawLevelChange.refl => exact jobs_rawLevelChange ran
    case feedLeadingEdge.refl => exact Outcome.next.inj ran ▸ jobs_edgeCommand _ _ s
    case exitLeadingEdge.refl => exact Outcome.next.inj ran ▸ jobs_edgeCommand _ _ s
    case trailingEdge.refl => exact Outcome.next.inj ran ▸ jobs_edgeCommand _ _ s
    case supplyEdge.refl => exact Outcome.next.inj ran ▸ (jobs_takeEdge _ s).guarded
    case entryLate.refl => exact Outcome.next.inj ran ▸ (jobs_declareJam _ s).settled.guarded
    case exitLate.refl => exact Outcome.next.inj ran ▸ (jobs_declareJam _ s).settled.guarded
    case sheetRequest.refl => exact Outcome.next.inj ran ▸ (jobs_sheetRequest s).settled.guarded
    case intakeBand.refl b => exact Outcome.next.inj ran ▸ (jobs_intakeBand b s).settled.guarded
    case intakeStallExpiry.refl => exact Outcome.next.inj ran ▸ (jobs_expireStall s).settled.guarded
    case holdExpiry.refl handle => exact Outcome.next.inj ran ▸ (jobs_closeJob .expired handle s).settled.guarded
    case lockoutExpiry.refl id => exact Outcome.next.inj ran ▸ (KeepsJobs.quiet (view_updateAccount s id _)).guarded
    case readComplete.refl => exact jobs_readComplete ran
    case exportBandSent.refl => exact jobs_exportBandSent ran
    case programComplete.refl => exact jobs_programComplete ran
    case eraseComplete.refl => exact jobs_eraseComplete ran
    case verifyComplete.refl => exact jobs_verifyComplete ran
    case probeComplete.refl => exact jobs_probeComplete ran
    case readRecordComplete.refl => exact jobs_readRecordComplete ran
    case challengeComplete.refl => exact jobs_challengeComplete ran
    case decrementComplete.refl => exact jobs_decrementComplete ran
    case resyncComplete.refl => exact jobs_resyncComplete ran
    case busTransactionFail.refl => exact Outcome.next.inj ran ▸ (jobs_failFlight s).guarded
    case clockStretchLimit.refl => exact Outcome.next.inj ran ▸ (jobs_failFlight s).guarded

theorem view_beginEvent (c : Instr) (s : State) : jobView (beginEvent c s) = jobView s := by
  unfold beginEvent
  split <;> rfl

theorem view_tick (s : State) : jobView (tick s) = jobView s := by
  unfold tick
  split <;> rfl

theorem jobs_step {s t : State} (ran : step s = .next t) : KeepsJobs s t := by
  unfold step at ran
  split at ran
  · next c rest _ =>
    have begun : KeepsJobs s (beginEvent c { s with pending := rest }) := KeepsJobs.quiet (view_beginEvent c { s with pending := rest })
    exact begun.trans (jobs_exec ran)
  · exact Outcome.next.inj ran ▸ KeepsJobs.quiet (view_tick s)

/-- Settles O9: every operation a step is made of keeps the invariant: a job's record moves with its place in the queues and its
key, and what it takes of the pools has been tested for room. -/
theorem jobTableKept : Obligations.JobTableKept := fun _ _ ok ran => jobs_step ran ok

end Sys2Proof.Machine
